-- ==== Sys2Proof/Word.lean ====
section
/-! DEFINITION. The word types of the KQ-960 model: what the manual treats as bits. -/

namespace Sys2Proof

/-- One byte. -/
abbrev Byte := BitVec 8
/-- A 16-bit word: status and error codes (R12), epoch-free counts. -/
abbrev Word16 := BitVec 16
/-- A 32-bit word: handles (R45), epochs, FP32 bit patterns. -/
abbrev Word32 := BitVec 32
/-- A 64-bit word: descriptor words (R39), addresses, device time (R8). -/
abbrev Word64 := BitVec 64
/-- A sequence of bytes, first byte first. -/
abbrev Bytes := List Byte
/-- A record of 64-bit little-endian words, W0 first. -/
abbrev Words := List Word64
/-- Instances of a unit by number: sorted by number, no repeats, an unlisted number is at the unit's reset value. -/
abbrev Table (α : Type) := List (Nat × α)

end Sys2Proof
end

