-- ==== Sys2Proof/Syntax.lean ====
section
/-! DEFINITION. The commands of the KQ-960: one constructor for each row of spec/opcode_table.json, in its order,
with the operands the row's rule gives it. What the device reads from outside itself (host memory over CXL.cache,
other devices over Relros, sensors) is an operand of the command that reads it. -/

namespace Sys2Proof

/-- The carrier of a dictionary access (R394, R400, LAST_REFUSAL of R406). -/
inductive Carrier where
  | mailbox | i3c | vdm
  deriving DecidableEq, Repr

/-- What one read of a hall address on another device returned (R331, R332). -/
structure Fetch where
  addr   : Word64
  data   : Bytes
  poison : Bool
  code   : Word16
  deriving DecidableEq, Repr

/-- One source page of a PAGES job as its read of the host or of another device delivered it (R81). -/
structure SrcPage where
  data   : Bytes
  readable : Bool
  poison : Bool
  deriving DecidableEq, Repr

/-- One operation of a LOAD job as a read of its array delivered it (R84, R88), with its source pages. -/
structure LoadOp where
  desc : Words
  src  : List SrcPage
  deriving DecidableEq, Repr

/-- A Relros packet (R324): header words W0 to W7, payload, and the trailer's line-poison mask. -/
structure Packet where
  hdr     : Words
  payload : Bytes
  lpoison : Word64
  deriving DecidableEq, Repr

/-- A link-control packet (R320, R321): an acknowledgement, a NAK, and returned credit in bytes by channel queue. -/
structure LinkCtl where
  ack     : Option Word16
  nak     : Option Word16
  credits : List (Nat × Nat)
  deriving DecidableEq, Repr

/-- What the drover places on a core (R208): the program's first region, the command's slot base, its parameters,
its input, whom it serves, and the other tenants whose rows it carries (R369). -/
structure DispatchCmd where
  region   : Nat
  slotBase : Nat
  params   : List (Nat × Word64)
  input    : List (Byte × Bool)
  handle   : Option Word32
  tenant   : Nat
  cmdClass : Nat
  tclass   : Nat
  model    : Option Nat
  sharers  : List Nat := []
  deriving DecidableEq, Repr

/-- A function that drains (R376). -/
inductive FnRef where
  | cluster (n : Nat) | text (n : Nat) | stack (n : Nat) | link (n : Nat) | model (n : Nat) | table (n : Nat)
  deriving DecidableEq, Repr

/-- Which engine of a core (R198), numbered as CFG.MKIND numbers them (R453). -/
inductive Engine where
  | array | vector | move
  deriving DecidableEq, Repr

/-- The carrier of an SPDM request (R425). -/
inductive SpdmPort where
  | doe | i3c
  deriving DecidableEq, Repr

/-- What PERST# release samples and what the boot ROM's reads find: the straps (R442, R467), whether the ROM's own
steps 1 and 2 end well, the seed the PUF reconstruction gives, if it gives one (R409, R423), and each island's beacon-tree delay as the hub measures it, in
1/65,536 ns (R20). -/
structure BootIn where
  ftm    : Bool
  ids    : BitVec 3
  romOk  : Bool
  seed   : Option Bytes
  delays : List (Nat × Nat)
  deriving DecidableEq, Repr

/-- A beacon's arrival at an island: how long its way through the tree took, in 1/65,536 ns, and by how much the island's clock runs fast
or slow until the next one, in 1/65,536 ns per ns (R14, R20). -/
structure BeaconArrival where
  island  : Nat
  transit : Nat
  drift   : Int
  deriving DecidableEq, Repr

/-- The commands of the KQ-960, one constructor a row of spec/opcode_table.json. -/
inductive Instr where
  -- requests (02_life_of_a_request.md)
  | doorbell (ring : Nat) (tail : Word32)
  | cancel (handle : Word32)
  | release (handle : Word32)
  | ringEnable (via : Carrier) (ring : Nat) (value : Byte)
  | retrieveAndPack (ring : Nat) (desc : Words)
  | retrieve (ring : Nat) (desc : Words)
  | embedOnly (ring : Nat) (desc : Words)
  | generate (ring : Nat) (desc : Words)
  | continueText (ring : Nat) (desc : Words) (text : Bytes)
  | tokenise (slot : Nat) (text ctx : Bytes)
  | rewriteStage (slot : Nat)
  | embedStage (slot : Nat)
  | scanStage (slot : Nat)
  | shortlistStage (slot : Nat)
  | exactStage (slot : Nat) (remote : List Fetch)
  | crossEncode (slot : Nat) (remote : List Fetch)
  | filterStage (slot : Nat) (expr : Bytes) (remote : List Fetch)
  | packStage (slot : Nat) (remote : List Fetch)
  | finalCommit (slot : Nat)
  | requestFailure (handle : Word32) (code : Word16)
  | expire (slot : Nat)
  | slotRetainTimeout (slot : Nat)
  | mirrorCoalesce (slot : Nat)
  | globalObservation (slot : Nat)
  -- publishing (03_index_objects.md)
  | publishJob (via : Carrier) (desc : Words)
  | pages (job : Nat) (src : List SrcPage)
  | switchJob (job : Nat)
  | freeJob (job : Nat)
  | loadJob (job : Nat) (ops : Option (List LoadOp)) (writable : Bool)
  | jobRelease (via : Carrier) (value : Byte)
  | epochAdvance (via : Carrier) (corpus : Nat) (epoch : Word32)
  | epochFloor (via : Carrier) (corpus : Nat) (floor : Word32)
  -- scans (04_sketch_scan_and_flocks.md)
  | sweepRequest (body : Words)
  | penRequest (body : Words)
  | flockDue (island : Nat) (key : Nat)
  | sweepStart (island : Nat) (key : Nat)
  | sweepResolve (island engine : Nat)
  | sweepReply (body : Words)
  | penReply (body : Words)
  | scanRetry (slot : Nat) (pen : Bool) (device : Nat)
  | penRecordLapse (entry : Nat) (handle : Word32)
  -- text (06_text_engines_and_packing.md)
  | vocabEnable (via : Carrier) (n : Nat) (value : Byte)
  | vocabReady (n : Nat)
  | templateEnable (via : Carrier) (n : Nat) (value : Byte)
  -- cores (08_layer_programs_and_verifier.md, 09_scratchpad.md)
  | arrayPass (core : Nat)
  | vectorOp (core : Nat)
  | moveOp (core : Nat)
  | fence (core : Nat)
  | fenceResolve (core : Nat)
  | macroOp (core : Nat)
  | configDone (core : Nat) (engine : Engine)
  | registerLand (core : Nat) (reg : Nat)
  | dispatch (core : Nat) (cmd : DispatchCmd)
  | commandCommit (core : Nat)
  | commandKill (core : Nat) (pos : Nat)
  | moveLanding (core : Nat) (id : Nat)
  | landingWaitEnd (core : Nat) (slot : Nat)
  | scrub (core : Nat)
  | scrubForce (core : Nat)
  | allocationRelease (core : Nat) (first count : Nat)
  -- the HBM tier (10_hbm_tier.md, 16_host_and_object_dictionary.md)
  | hingeInstall (via : Carrier) (value : Word64)
  | hingeCopyEnd
  | stackEnable (via : Carrier) (n : Nat) (value : Byte)
  | stackReady (n : Nat) (trained : Bool) (trainStep : Word32)
  | intakeWrite (line : Nat) (data : Bytes)
  | intakeRead (line : Nat)
  | biResponse (page : Nat) (dirty : List (Nat × Bytes))
  | hdmCommit (base : Word64) (bi : Bool)
  -- model serving (11_model_serving.md)
  | modelEnable (via : Carrier) (n : Nat) (value : Byte)
  | modelStartEnd (n : Nat)
  | prefillStep (model inst : Nat)
  | generationStep (model inst : Nat)
  | ratioControl
  | rolePin (via : Carrier) (cluster : Nat) (value : Byte)
  -- embedding tables (12_embedding_tables.md)
  | tableGather (ring : Nat) (desc : Words) (indices : Words) (offsets : List Word32) (weights : List Word32)
  | update (ring : Nat) (desc : Words) (indices : Words) (values : Bytes)
  | promote (ring : Nat) (desc : Words) (indices : Words)
  | demote (ring : Nat) (desc : Words) (indices : Words)
  | tableEnable (via : Carrier) (n : Nat) (value : Byte)
  | tableSeal (via : Carrier) (n : Nat) (version : Word32)
  | tableAdvance (via : Carrier) (n : Nat) (version : Word32)
  | tableInstall (via : Carrier) (n : Nat) (version : Word32) (root : Word64)
  | tableFloor (via : Carrier) (n : Nat) (floor : Word32)
  | rowRead (src : Nat) (body : Words)
  | rowReadReply (src : Nat) (body : Words)
  | tableStage (src : Nat) (body : Words)
  | tableStageReply (src : Nat) (body : Words)
  | tableCommit (src : Nat) (body : Words)
  | sealMark (src : Nat) (body : Words)
  | sealMarkReply (src : Nat) (body : Words)
  | replicaPages (src : Nat) (body : Words)
  | replicaPagesReply (src : Nat) (body : Words)
  | migrationCopy (src : Nat) (body : Words)
  | migrationCopyReply (src : Nat) (body : Words)
  | forwardedUpdate (src : Nat) (body : Words)
  | cmsDecay (island : Nat)
  -- the fabric (13_relros_fabric_and_keyring.md)
  | read (link : Nat) (pkt : Packet)
  | gather (link : Nat) (pkt : Packet)
  | fetch (link : Nat) (pkt : Packet)
  | publish (link : Nat) (pkt : Packet)
  | readReply (link : Nat) (pkt : Packet)
  | gatherReply (link : Nat) (pkt : Packet)
  | fetchReply (link : Nat) (pkt : Packet)
  | publishAck (link : Nat) (pkt : Packet)
  | killNotice (body : Words)
  | killNoticeWindowEnd (device : Nat) (handle : Word32)
  | linkControl (link : Nat) (ctl : LinkCtl)
  | badPacket (link : Nat) (pkt : Packet)
  | fabricTimeout (island tag : Nat)
  | publishAckTimeout (island tag : Nat)
  | linkAckTimeout (link : Nat)
  | linkAckInterval (link : Nat)
  | linkEnable (via : Carrier) (n : Nat) (value : Byte)
  | linkReady (n : Nat) (peer : Nat) (peerLink : Nat)
  | faultIdleReceived (link : Nat)
  | routeTable (via : Carrier) (offset : Word64)
  | keyringRefill
  | keyringDir (via : Carrier) (offset : Word64)
  | keyringDirCheckEnd
  | keyringPin (via : Carrier) (w0 w1 : Word64)
  | keyringUnpin (via : Carrier) (index : Word16)
  | keyringFlush (via : Carrier) (value : Byte)
  -- traffic control (14_gates_shapers_policers.md)
  | egressSelect (link : Nat)
  | shaperTick (link : Nat)
  | gateIntervalEnd (link : Nat)
  | guardBandStart (link : Nat)
  | gateApply (via : Carrier) (link : Nat) (value : Byte)
  | gateListSwitch (link : Nat)
  | shaperRate (via : Carrier) (link : Nat) (rates : List Word32)
  | policerCfg (via : Carrier) (w0 w1 : Word64)
  | tenantPolCfg (via : Carrier) (w0 w1 : Word64)
  | queueHwm (via : Carrier) (sub : Nat)
  | classHwm (via : Carrier) (sub : Nat)
  -- placement (15_placement_and_isolation.md)
  | preempt (core : Nat) (cmd : DispatchCmd)
  | clusterEnable (via : Carrier) (n : Nat) (value : Byte)
  | clusterReady (n : Nat)
  | textEnable (via : Carrier) (n : Nat) (value : Byte)
  | textReady (n : Nat)
  | drainEnd (fn : FnRef)
  | drainHoldTimeout (handle : Word32)
  | slowdownClear (via : Carrier) (value : Byte)
  -- the dictionary and management (16_host_and_object_dictionary.md)
  | odRead (via : Carrier) (index : Word16) (sub : Byte)
  | odWrite (via : Carrier) (index : Word16) (sub : Byte) (value : Bytes)
  | odReadMulti (via : Carrier) (entries : List (Word16 × Byte))
  | odList (via : Carrier) (first last : Word16)
  | eventRead (via : Carrier) (max : Nat)
  | unsupported (via : Carrier) (opcode : Word16)
  | setEndpointId (via : Carrier) (eid : Byte)
  | getEndpointId (via : Carrier)
  | getMctpVersionSupport (via : Carrier)
  | getMessageTypeSupport (via : Carrier)
  | setdasa (static : BitVec 7) (dynamic : BitVec 7)
  | entdaa (dynamic : BitVec 7)
  -- firmware and attestation (17_bringup_and_identity.md)
  | fwBegin (via : Carrier) (total : Word32)
  | fwChunk (via : Carrier) (offset : Word32) (data : Bytes)
  | fwFetch (via : Carrier) (addr : Word64) (len : Word32)
  | fwFetchCompletion (data : Bytes) (ok : Bool)
  | fwCommit (via : Carrier)
  | fwVerifyEnd
  | fwAbort (via : Carrier)
  | fwFloor (via : Carrier) (value : Word32)
  | getVersion (port : SpdmPort)
  | getCapabilities (port : SpdmPort)
  | negotiateAlgorithms (port : SpdmPort)
  | getDigests (port : SpdmPort)
  | getCertificate (port : SpdmPort) (certSlot : Nat) (offset len : Nat)
  | challenge (port : SpdmPort) (nonce : Bytes) (flashOk : Bool)
  | getMeasurements (port : SpdmPort) (index : Nat) (signed : Bool) (nonce : Bytes) (flashOk : Bool)
  | keyExchange (port : SpdmPort) (pub : Bytes) (flashOk : Bool)
  | finish (port : SpdmPort) (session : Nat) (verify : Bytes)
  | heartbeat (port : SpdmPort) (session : Nat)
  | keyUpdate (port : SpdmPort) (session : Nat)
  | endSession (port : SpdmPort) (session : Nat)
  | ideKm (session : Nat) (stream : Nat) (on : Bool)
  | cxlIdeKm (session : Nat) (on : Bool) (containment : Bool)
  -- the module and its pins (20_module.md, 17, 18)
  | powerOn
  | perstRelease (boot : BootIn)
  | perstAssert
  | powerFault
  | thermalShutdown
  | hostLinkUp (flit256 : Bool)
  | hostLinkDown (aer : Word32)
  | beacon (arrivals : List BeaconArrival)
  | beaconMissing (island : Nat)
  | skewClear (via : Carrier) (value : Byte)
  | watchdogTimeout (island : Nat) (pc : Word32)
  | clockLockLoss (island : Nat)
  | tempSample (readings : List (Nat × Int))
  | faultNoticeArrival
  | islandReturn (island : Nat)
  | faultClear (via : Carrier) (value : Byte)
  | fiArm (via : Carrier) (value : Byte)
  | fiFire
  | piArm (via : Carrier) (value : Byte)
  | counterRead (via : Carrier) (island counter : Nat)
  | counterCfg (via : Carrier) (island counter : Nat) (words : Words)
  | counterWrap (island counter : Nat)
  | lapClear (via : Carrier) (value : Word16)
  | sampleEnable (via : Carrier) (value : Byte)
  | sampleTag (island : Nat) (handle : Word32)
  | sampleRecord (via : Carrier)
  | powerReport (p1 p100 mv : Nat)
  | powerPeakW (via : Carrier)
  | opcodeUnassigned (ring : Nat) (desc : Words)
  | tableCommitReply (src : Nat) (body : Words)
  | forwardedUpdateReply (src : Nat) (body : Words)
  | packetCrcFailure (link : Nat)
  | linkTrainingFailed (n : Nat)
  | hostSnoop (addr : Word64)
  | vectorUnmask (vector : Nat)
  | doeDiscovery (index : Nat)
  | cdatTableAccess (entry : Nat)
  | aerUncorrectableError (status : Word32)
  | stateMemoryScrub (island cls addr : Nat)
  deriving DecidableEq, Repr

end Sys2Proof
end

