-- ==== Sys2Proof/Decode.lean ====
section
/-! DEFINITION. The commands that bare words spell. The opcode table gives no row any bits: a command reaches the
device by its carrier (a register write, a ring, a packet, a dictionary access), never as a word. -/

namespace Sys2Proof

/-- The command that a word of nbits spells by the table's bits: no row of the table gives bits, so no word spells one. -/
def decodeTableWord (_nbits _w : Nat) : Option Instr := none

end Sys2Proof
end

