-- ==== Sys2Proof/Config.lean ====
section
/-! DEFINITION. What every device of the member holds alike, and the free values: constants without a body, of which
nothing can be proved, standing where the manual leaves a value open or names an outside standard. -/

namespace Sys2Proof

/-- Identity entries 1000:01 to 1000:03 and 1010:07 (R6, R7). -/
def Config.familyId : Nat := 0x4B51
def Config.member : Nat := 0x03C0
def Config.stepping : Nat := 0x01
def Config.formatMask : Nat := 0x1FFFF
/-- Islands, cores, clusters, stacks, links, text islands, slots (R6, R13). -/
def Config.islands : Nat := 302
def Config.cores : Nat := 256
def Config.clusters : Nat := 16
def Config.stacks : Nat := 12
def Config.links : Nat := 48
def Config.texts : Nat := 4
def Config.slots : Nat := 65536
def Config.rings : Nat := 64
def Config.tenants : Nat := 4096
def Config.jobSlots : Nat := 16
def Config.corpora : Nat := 64

/-- The n-th value the device takes where the manual gives none and it differs from time to time. -/
opaque Config.freeWord : Nat → Word64
/-- The n-th count of c-cycles for a unit, where it follows from cycle timing alone (R239, R236, R230). -/
opaque Config.freeCount : Nat → Nat → Nat
/-- The FP32 elements in which the vector unit writes a comparison's truth values (R194 gives no number). -/
opaque Config.cmpTrue : Word32
opaque Config.cmpFalse : Word32
/-- What a register takes from a vector operation whose result is no single element (R204): a function of the result (R197). -/
opaque Config.wideResult : Bytes → Word64
/-- What an array output becomes when it resumes from a record of another kind or of an invalid one (R189). -/
opaque Config.badRecord : BitVec 128 → Word32
/-- Whether the n-th decode of a page with more errors than its code corrects goes unnoticed, and the bytes it then
delivers (R256: the device makes no promise). -/
opaque Config.miscorrects : Nat → Nat → Bool
opaque Config.miscorrected : Nat → Nat → Byte
/-- What a stack's on-die ECC makes of a pattern of flipped bits: those still wrong after it, and whether it reports an uncorrectable error
(R256, R257, R261: its code is not given). -/
opaque Config.onDieLeaves : Nat → Nat
opaque Config.onDieReports : Nat → Bool
/-- Unicode NFC of a span of scalar values, and whether a scalar value has combining class 0 and NFC_Quick_Check Yes, by the
Unicode version of UNICODE_VERSION (R147); outside standards, left uninterpreted. -/
opaque Config.nfc : List Nat → List Nat
opaque Config.nfcStarter : Nat → Bool
/-- The vocabulary pages a tokeniser pass looks up, by vocabulary slot and text (R154: their choice is the engine's). -/
opaque Config.vocabPages : Nat → Bytes → List Nat
/-! What model programs compute (R3, R183, R277 to R290): functions of the bytes an instance holds (its programs and weights) and of what
the device gives a sequence (its input record and tokens). The manual gives no program, so they are free. -/
/-- Element j of an encoder's outputs, from the instance's bytes and the input. -/
opaque Config.encoderOut : Bytes → Bytes → Nat → Word32
/-- A cross-encoder's score of a pair, from the instance's bytes, the pair's input and the adapter's image (R128); and how many scores it emits
for C pairs. -/
opaque Config.crossScore : Bytes → Bytes → Bytes → Word32
opaque Config.crossCount : Bytes → Nat → Nat
/-- A generator's logit of a token and its j-th draft after the tokens emitted so far, and byte i of a KV page of a layer over the tokens up
to its end; each from the instance's bytes and the sequence's input. -/
opaque Config.logit : Bytes → Bytes → List Nat → Nat → Word32
opaque Config.draft : Bytes → Bytes → List Nat → Nat → Nat
opaque Config.kvByte : Bytes → Bytes → List Nat → Nat → Nat → Byte
/-- Whether a program's outputs for an input read a poisoned word of its weights (R184, R242), from where poison lies. -/
opaque Config.readsPoison : Bytes → List Bool → Bytes → Bool
/-- The largest of no scores at all (R134 states none). -/
opaque Config.maxOfNone : Word32
/-- The hall address of a record of a pen homed on another device, by pen, epoch, record and place (R137; R109 sends none). -/
opaque Config.penRecord : Nat → Nat → List Word64 → Nat → Nat
/-- SHA3-384 and SHAKE256 with its output length (R409, R424, R426, R428); outside standards, left uninterpreted. -/
opaque Config.sha3 : Bytes → Bytes
opaque Config.shake256 : Bytes → Nat → Bytes
/-- The boot ROM's digest of itself (R409). -/
opaque Config.romDigest : Bytes
/-- Whether the XMSS signature verifies against the Zhemer firmware key over the message (R413, R418). -/
opaque Config.xmssVerify : Bytes → Bytes → Bool
/-- The attestation public key and a signature by leaf number over a message, from the seed (R424, R428). -/
opaque Config.attestKey : Bytes → Bytes
opaque Config.attestSign : Bytes → Nat → Bytes → Bytes
/-- The MCTP versions the device supports, as a count and their codes (R400 gives none). -/
opaque Config.mctpVersions : Bytes
/-- Whether a FINISH's verify data match its session (R425): an outside standard, left uninterpreted. -/
opaque Config.finishOk : Nat → Bytes → Bool
/-- The bodies of the CAPABILITIES and ALGORITHMS responses, the responder's part of a key exchange by session and peer key, and
the body of a vendor-defined answer (R425, R390 fix what they say; their layouts are DMTF's and PCI-SIG's). -/
opaque Config.spdmCapabilities : Bytes
opaque Config.spdmAlgorithms : Bytes
opaque Config.spdmExchange : Nat → Bytes → Bytes
opaque Config.ideAnswer : Nat → Bool → Bytes

end Sys2Proof
end

