-- ==== Sys2Proof/Machine/Bits.lean ====
section
/-! DEFINITION. Bit fields, little-endian bytes (R403) and records of 64-bit words. -/

namespace Sys2Proof.Machine

/-- Bits hi down to lo of a word, as a number. -/
def bits {w : Nat} (x : BitVec w) (hi lo : Nat) : Nat := x.toNat / 2 ^ lo % 2 ^ (hi + 1 - lo)

/-- One bit of a word. -/
def bit {w : Nat} (x : BitVec w) (i : Nat) : Bool := x.getLsbD i

/-- A number placed at bit lo of a word of w bits. -/
def field {w : Nat} (lo v : Nat) : BitVec w := BitVec.ofNat w (v * 2 ^ lo)

/-- Bits hi down to lo replaced by v. -/
def setBits {w : Nat} (x : BitVec w) (hi lo v : Nat) : BitVec w :=
  BitVec.ofNat w (x.toNat - bits x hi lo * 2 ^ lo + v % 2 ^ (hi + 1 - lo) * 2 ^ lo)

/-- The n low bytes of a number, least significant first. -/
def leBytes : Nat → Nat → Bytes
  | 0, _ => []
  | n + 1, v => BitVec.ofNat 8 v :: leBytes n (v / 256)

/-- The number little-endian bytes stand for. -/
def leNat : Bytes → Nat
  | [] => 0
  | b :: bs => b.toNat + 256 * leNat bs

/-- Word i of a record; a word the record does not have reads 0. -/
def word (ws : Words) (i : Nat) : Word64 := ws.getD i 0

/-- The 64-bit words of a byte sequence, the last one padded with zeros. -/
def wordsOf : Nat → Bytes → Words
  | 0, _ => []
  | n + 1, bs => BitVec.ofNat 64 (leNat (bs.take 8)) :: wordsOf n (bs.drop 8)

/-- The bytes of a record. -/
def bytesOf (ws : Words) : Bytes := ws.flatMap fun w => leBytes 8 w.toNat

/-- n zero bytes. -/
def zeros (n : Nat) : Bytes := List.replicate n 0

/-- Exactly n bytes: cut, or padded with zeros. -/
def fit (n : Nat) (bs : Bytes) : Bytes := (bs ++ zeros (n - bs.length)).take n

/-- Every bit of the word from hi down to lo is zero. -/
def rsvd {w : Nat} (x : BitVec w) (hi lo : Nat) : Bool := bits x hi lo = 0

/-- Little-endian U32 elements of a byte sequence. -/
def u32s : Nat → Bytes → List Nat
  | 0, _ => []
  | n + 1, bs => leNat (bs.take 4) :: u32s n (bs.drop 4)

/-- Little-endian U16 elements of a byte sequence. -/
def u16s : Nat → Bytes → List Nat
  | 0, _ => []
  | n + 1, bs => leNat (bs.take 2) :: u16s n (bs.drop 2)

/-- Smallest k with n ≤ 2^k, for n up to 2^fuel. -/
def ceilLog2 (n : Nat) : Nat := if n ≤ 1 then 0 else Nat.log2 (n - 1) + 1

/-- How many of the n low bits are set. -/
def popCount : Nat → Nat → Nat
  | 0, _ => 0
  | n + 1, v => v % 2 + popCount n (v / 2)

/-- Division rounding up. -/
def ceilDiv (a b : Nat) : Nat := (a + b - 1) / b

/-- A list without repeats by a key, keeping the first of each. -/
def dedupBy {α β : Type} [DecidableEq β] (f : α → β) : List α → List α
  | [] => []
  | a :: l => a :: (dedupBy f l).filter fun b => f b ≠ f a

/-- Insertion into a list ordered by `le`. -/
def insertBy {α : Type} (le : α → α → Bool) (a : α) : List α → List α
  | [] => [a]
  | b :: l => if le a b then a :: b :: l else b :: insertBy le a l

/-- Stable insertion sort. -/
def sortBy {α : Type} (le : α → α → Bool) : List α → List α
  | [] => []
  | a :: l => insertBy le a (sortBy le l)

/-- The consecutive groups of n elements, at most `fuel` of them. -/
def chunks {α : Type} (n : Nat) : Nat → List α → List (List α)
  | 0, _ => []
  | _ + 1, [] => []
  | f + 1, l => l.take n :: chunks n f (l.drop n)

end Sys2Proof.Machine
end

