-- ==== Sys2Proof/Machine/State.lean ====
section
/-! DEFINITION. Every piece of state the manual gives the KQ-960, as plain data. The value each field is declared
with is its reset value; a unit that a Table does not list is at its reset value. Units follow the manual's chapters. -/

namespace Sys2Proof.Machine

/-! ### Requests (02_life_of_a_request.md) -/

/-- One submission ring with its dictionary entries (R32, R33, R66, R318 RING_KIND, R367 RING_COLOUR). -/
structure Ring where
  base       : Word64 := 0
  sizeLog2   : Nat := 6
  tenantLock : Word16 := 0
  weight     : Nat := 1
  enable     : Bool := false
  errors     : Word32 := 0
  head       : Word32 := 0
  tail       : Word32 := 0
  kind       : Nat := 0
  colour     : Nat := 0
  deriving DecidableEq, Repr

/-- The tokens of a request in one vocabulary (R153). -/
structure TokSet where
  vocab : Nat
  query : List Nat
  ctx   : List Nat
  deriving DecidableEq, Repr

/-- The three FP32 outputs of an encoder program (R91, R279). -/
structure EmbedOut where
  corpus : List Word32
  pen    : List Word32
  sketch : List Word32
  deriving DecidableEq, Repr

/-- A sequence record of a constraint set (R156). -/
structure CSeq where
  kind   : Nat
  tokens : List Nat
  deriving DecidableEq, Repr

/-- One scan request sent and its reply state (R110). -/
structure Awaited where
  pen      : Bool
  device   : Nat
  attempt  : Nat
  sentAt   : Word64
  answered : Bool
  body     : Words
  deriving DecidableEq, Repr

/-- One entry of a sweep reply with its owner (R109, R121). -/
structure SweepEntry where
  id    : Word64
  dist  : Nat
  recLo : Nat
  owner : Nat
  deriving DecidableEq, Repr

/-- An accepted sweep reply (R109). -/
structure SweepRep where
  owner   : Nat
  visible : Word64
  entries : List SweepEntry
  deriving DecidableEq, Repr

/-- One entry of a pen reply: the 32-byte entry record and the exact score (R109). -/
structure PenEntry where
  record : Words
  score  : Word32
  deriving DecidableEq, Repr

/-- An accepted pen reply (R109). -/
structure PenRep where
  device  : Nat
  epoch   : Word32
  visible : Word64
  entries : List PenEntry
  deriving DecidableEq, Repr

/-- A candidate of the ranking stages (R121 to R138): its record, where it came from and its scores. -/
structure Cand where
  id      : Word64
  pen     : Bool
  record  : Words
  recAddr : Word64
  exact   : Word32
  cross   : Option Word32
  deriving DecidableEq, Repr

/-- The shortlist with the numbers of its header (R121, R137). -/
structure Shortlist where
  corpus  : List SweepEntry := []
  pen     : List PenEntry := []
  dups    : Nat := 0
  visible : Word64 := 0
  penVisible : Word64 := 0
  deriving DecidableEq, Repr

/-- The ranking stages' working lists and header numbers (R122 to R138). -/
structure Rank where
  scored : List Cand := []
  kept   : List Cand := []
  crossed : List Cand := []
  list   : List Cand := []
  final  : List Cand := []
  dups   : Nat := 0
  nans   : Nat := 0
  tieX   : Nat := 0
  tieF   : Nat := 0
  evals  : Nat := 0
  passes : Nat := 0
  crossC : Nat := 0
  deriving DecidableEq, Repr

/-- A result buffer of a request (R54). -/
inductive Buf where
  | shortlist | ranked | output
  deriving DecidableEq, Repr

/-- A row of a table command: an index, where it is read, and its bytes once they are known (R305). -/
structure GatherRow where
  index  : Word64
  home   : Nat
  value  : Option Bytes
  absent : Bool
  poison : Bool
  deriving DecidableEq, Repr

/-- A home of a table command and how far the command is there (R310). -/
structure HomeState where
  device : Nat
  staged : Bool
  committed : Bool
  deriving DecidableEq, Repr

/-- A request-table slot (R45, R47, R52, the slot-contents table) with the working buffers of its request; `cut`: a host fault
cut off a write of it (R435). -/
structure Slot where
  status     : Word64 := 0
  ring       : Nat := 0
  admitTime  : Word64 := 0
  deadline   : Word64 := BitVec.allOnes 64
  corpusEpoch : Word32 := 0
  penEpoch   : Word32 := 0
  tableVersion : Word32 := 0
  gens       : List (Nat × Word16) := []
  desc       : Words := []
  inputDone  : Bool := false
  text       : Bytes := []
  ctx        : Bytes := []
  taken      : Nat := 0
  template   : Nat := 0
  pending    : Bytes := []
  held       : Word32 := 0
  committed  : Bool := false
  island     : Nat := 0
  endTime    : Word64 := 0
  stageTimes : List (Nat × Word64) := []
  tagged     : Bool := false
  toks       : List TokSet := []
  ctxDropped : Nat := 0
  rewritten  : Option (List Nat) := none
  rewriteFilter : Option Bytes := none
  embed      : Option EmbedOut := none
  probes     : List Nat := []
  awaited    : List Awaited := []
  sweeps     : List SweepRep := []
  penReply   : Option PenRep := none
  short      : Shortlist := {}
  rank       : Rank := {}
  adapter    : Option Bytes := none
  outCount   : Nat := 0
  deadEnd    : Bool := false
  observe    : List (Buf × Nat × Nat) := []
  cut        : Bool := false
  received   : Nat := 0
  mirrorAt   : Word64 := 0
  mirrorPend : Option Word64 := none
  reruns     : Nat := 0
  heldSince  : Option Word64 := none
  indices    : Words := []
  offsets    : List Word32 := []
  weights    : List Word32 := []
  values     : Bytes := []
  rows       : List GatherRow := []
  homes      : List HomeState := []
  deriving DecidableEq, Repr

/-- The hub's request entries and counts (R36, R66, R142, R385 quotas). -/
structure Hub where
  rrRing        : Nat := 0
  rrLeft        : Nat := 0
  slotRetain    : Word32 := 10000000
  defaultDeadline : Word32 := 0
  maxInput      : Word32 := 65536
  coalesce      : Word16 := 1000
  admitted      : Word64 := 0
  rejected      : Word64 := 0
  cancelLate    : Word32 := 0
  releaseIgnored : Word32 := 0
  tenantEnable  : Table Bool := []
  resultAbi     : Word32 := 0
  rerankClusters : Nat := 1
  rerankMask    : Word16 := 0xFFFF
  dupsRemoved   : Word64 := 0
  nanScores     : Word64 := 0
  filterEvals   : Word64 := 0
  filterPasses  : Word64 := 0
  shortfalls    : Word32 := 0
  tieCuts       : Word32 := 0
  quotaSelect   : Word16 := 0
  quotas        : Table Nat := []
  skewWorst     : Word16 := 0
  skewIsland    : Word16 := 0
  freeUsed      : Nat := 0
  deriving DecidableEq, Repr

/-! ### Index objects and publishing (03_index_objects.md) -/

/-- A corpus registration slot (R84, R90). -/
structure Corpus where
  id      : Word16 := 0
  desc    : Word64 := 0
  current : Word32 := 0
  floor   : Word32 := 0
  enable  : Bool := false
  deriving DecidableEq, Repr

/-- Job slot states (R83), coded as JOBST.STATE. -/
inductive JobState where
  | free | accepted | running | done | failed
  deriving DecidableEq, Repr

/-- A SWITCH job, or a SWITCH operation as the first read of a LOAD job's array recorded it, by its place in the array (R84). -/
structure SwitchOp where
  op    : Nat
  scope : Nat
  epoch : Word32
  ended : Bool
  deriving DecidableEq, Repr

/-- A publish job slot (R80, R83). `cur` is the PAGES descriptor whose pages are under way, `issued` and `pages` count its pages sent and
finished. Of a LOAD: `read` says that the first read of its array has ended, `opAt` counts the operations ended, `codes` are theirs
since the last result line, `opFailed` says that one has failed (R84, R88). -/
structure Job where
  state    : JobState := .free
  gen      : Byte := 0
  kind     : Nat := 0
  progress : Word32 := 0
  code     : Word16 := 0
  desc     : Words := []
  switches : List SwitchOp := []
  order    : Nat := 0
  cur      : Words := []
  issued   : Nat := 0
  missed   : Nat := 0
  pages    : Nat := 0
  read     : Bool := false
  opAt     : Nat := 0
  codes    : List Word16 := []
  opFailed : Bool := false
  deriving DecidableEq, Repr

/-- The publish entries that are not per slot (R90). -/
structure Publish where
  nextOrder       : Nat := 1
  pagesPublished  : Word64 := 0
  switchConflicts : Word32 := 0
  floorFails      : Word32 := 0
  deriving DecidableEq, Repr

/-! ### Scans (04_sketch_scan_and_flocks.md) -/

/-- Flock states that keep a record (R100); closed means the record is gone. -/
inductive FlockState where
  | open | due | sweeping (engine : Nat)
  deriving DecidableEq, Repr

/-- A flock member: one list of one sweep request (R97). -/
structure Member where
  req     : Nat
  list    : Nat
  h       : Nat
  sketch  : Bytes
  arrival : Word64
  remain  : Word32
  deriving DecidableEq, Repr

/-- A flock record of a memory island (R97, R100). -/
structure Flock where
  key     : Nat
  state   : FlockState
  members : List Member
  deriving DecidableEq, Repr

/-- A sweep request being served on this owner (R96, R109); `lost`: a memory island has lost some of its lists (R112). -/
structure OwnerReq where
  num     : Nat
  entry   : Nat
  handle  : Word32
  attempt : Nat
  tclass  : Nat
  tenant  : Nat
  corpus  : Nat
  epoch   : Word32
  h       : Nat
  lists   : Nat
  open_   : Nat
  results : List SweepEntry
  visible : Word64
  tie     : Bool
  noRoot  : Bool
  lost    : Bool
  deriving DecidableEq, Repr

/-- A record of a pen epoch taken on arrival (R111). -/
structure PenRecord where
  entry  : Nat
  handle : Word32
  ref    : Word64
  epoch  : Word32
  at_    : Word64
  deriving DecidableEq, Repr

/-- The scan entries and records of the device (R97, R111, R114). -/
structure Scan where
  reservePct   : Nat := 25
  maxMembers   : Nat := 64
  waitNs       : Word32 := 10000
  urgentNs     : Word32 := 2000000
  eager        : Bool := true
  retryNs      : Word32 := 5000000
  retries      : Nat := 2
  sweeps       : Word64 := 0
  sweepMembers : Word64 := 0
  tiePasses    : Word32 := 0
  tableFull    : Word32 := 0
  dupReplies   : Word32 := 0
  nextReq      : Nat := 1
  reqs         : List OwnerReq := []
  penRecords   : List PenRecord := []
  penWaiting   : List Words := []
  deriving DecidableEq, Repr

/-! ### Functions (R9, R376, R485) -/

/-- Function states (R9). -/
inductive FnState where
  | off | starting | ready | draining
  deriving DecidableEq, Repr

/-! ### Text (06_text_engines_and_packing.md) -/

/-- A vocabulary slot (R144, R166). -/
structure Vocab where
  desc   : Word64 := 0
  head   : Words := []
  enable : Bool := false
  fn     : FnState := .off
  code   : Word16 := 0
  abandon : Bool := false
  deriving DecidableEq, Repr

/-- A template slot (R160, R166). -/
structure Template where
  id     : Word16 := 0
  desc   : Word64 := 0
  head   : Words := []
  enable : Bool := false
  code   : Word16 := 0
  deriving DecidableEq, Repr

/-- A text island: its function and its vocabulary page cache of (slot, page), most recent first (R153, R154, R376). -/
structure TextIsland where
  fn     : FnState := .off
  enable : Bool := false
  abandon : Bool := false
  cache  : List (Nat × Nat) := []
  deriving DecidableEq, Repr

/-- The text counts (R166). -/
structure Text where
  tokenised  : Word64 := 0
  vocabHits  : Word64 := 0
  vocabMisses : Word64 := 0
  fallbacks  : Word64 := 0
  deadEnds   : Word32 := 0
  prompts    : Word64 := 0
  deriving DecidableEq, Repr

/-! ### Cores (08_layer_programs_and_verifier.md, 09_scratchpad.md) -/

/-- A slot state word (R232). -/
structure SlotWord where
  tenant : Nat := 0
  alloc  : Bool := false
  latch  : Bool := false
  pend   : Bool := false
  fill   : Nat := 0
  epend  : Bool := false
  cmd    : Nat := 0
  deriving DecidableEq, Repr

/-- A row tag (R233). -/
structure RowTag where
  valid  : Bool := false
  poison : Bool := false
  deriving DecidableEq, Repr

/-- An instruction-memory region word (R219). -/
structure Region where
  gen        : Byte := 0
  first      : Nat := 0
  span       : Nat := 0
  verified   : Bool := false
  park       : Bool := false
  quarantine : Bool := false
  owners     : Nat := 0
  deriving DecidableEq, Repr

/-- A core-island hinge entry (R266). -/
structure CoreHinge where
  valid  : Bool := false
  active : Bool := false
  row    : Nat := 0
  deriving DecidableEq, Repr

/-- What a command carries through kills and re-runs: its placement (R374), the kills of R372, and the re-runs after
misses (R346) and timeouts (R333). -/
structure Life where
  placedAt  : Word64 := 0
  preempted : Nat := 0
  misses    : Nat := 0
  timeouts  : Nat := 0
  deriving DecidableEq, Repr

/-- A command queued or running on a core (R208), with what its program header declares (R207); its first `resident` slots
belong to its model slot (R276). -/
structure CoreCmd where
  cmd     : DispatchCmd
  life    : Life
  slots   : Nat
  inFirst : Nat
  inCount : Nat
  span    : Nat
  configs : Nat
  resident : Nat
  xparam  : Word64
  solo    : Nat
  deriving DecidableEq, Repr

/-- A command killed and waiting to be placed again (R373, R377); `home`: the core and the slots, from a
base on, where its input slots stayed full (R210). -/
structure Waiting where
  cmd   : DispatchCmd
  life  : Life
  since : Word64
  home  : Option (Nat × Nat × Nat)
  deriving DecidableEq, Repr

/-- Bytes with the poison mark of the row or line each came from (R242, R332). -/
abbrev Marked := List (Byte × Bool)

/-- An accumulator register as LACC lays it out (R189). -/
structure LAcc where
  nan    : Bool := false
  poison : Bool := false
  kind   : Nat := 0
  value  : BitVec 112 := 0
  deriving DecidableEq, Repr

/-- A configuration running on an engine (R211): its words, its dynamic row count as read at its start, its cycles, and what its reads
have made of its operands: the rows it has still to write, and the accumulators it leaves. -/
structure EngRun where
  engine  : Engine
  words   : Words
  index   : Nat
  rows    : Nat
  start   : Nat
  busyEnd : Nat
  doneAt  : Nat
  outs    : List (Nat × Marked)
  accs    : Table LAcc
  deriving DecidableEq, Repr

/-- An exchange-register write that has not landed (R212), of the configuration with an index that started at a cycle. -/
structure PendingReg where
  reg    : Nat
  index  : Nat
  start  : Nat
  land   : Nat
  value  : Word64
  poison : Bool
  deriving DecidableEq, Repr

/-- A freeze on an empty latch (R235): the slot, the row whose read froze the core, and the device time. -/
structure Freeze where
  slot : Nat
  row  : Nat
  at_  : Word64
  deriving DecidableEq, Repr

/-- One piece of a move: where it is read, and what it delivered once it has (R206, R331). -/
structure Piece where
  addr   : Word64
  len    : Nat
  right  : Nat
  isLocal : Bool
  tag    : Option (Nat × Nat)
  got    : Option Marked
  deriving DecidableEq, Repr

/-- A move in flight (R206, R234): its pieces in order and where its slots land; `out`: its destination is an OPD.OUT operand;
`since`: when the landing that waits reached the core (R236). -/
structure MoveRun where
  id      : Nat
  handle  : Option Word32
  core    : Nat
  dstSlot : Nat
  outbound : Bool
  pieces  : List Piece
  slots   : Nat
  landed  : Nat
  out     : Bool
  waiting : Bool
  since   : Word64
  deriving DecidableEq, Repr

/-- A configuration that its core tags, until its command commits or is killed (R459, R460); `due`: its tag is still to be
given by SAMPLE_TAG. -/
structure ConfSample where
  due    : Bool
  start  : Nat
  region : Nat
  index  : Nat
  kind   : Nat
  cls    : Nat
  tenant : Nat
  handle : Word32
  fetch  : Word64
  begun  : Word64
  land   : Word64
  done   : Word64
  freeze : Word32
  deriving DecidableEq, Repr

/-- A core island (R198, R199, R208 to R219, R231 to R245, R266). `filled` is the initialisation mode in force (R246);
`frozen` is the freeze it is in (R235); `feedAt` is the c-cycle of the last write into the feed queue, and `fedStarts` are the last 64 starts
from it, newest first (R226), and `feedBad` says that the register its macro read was poisoned (R242); `scrubFrac` is what the scrub's due times owe, in 98,304ths of a nanosecond (R243); `stateErrs` has the flipped
bits of the bytes of its state memories (R247). -/
structure Core where
  cmds     : List CoreCmd := []
  regs     : Table Word64 := []
  regPoison : Table Bool := []
  now      : Nat := 0
  lastStart : Nat := 0
  index    : Nat := 0
  runs     : List EngRun := []
  pendRegs : List PendingReg := []
  moves    : List MoveRun := []
  nextMove : Nat := 1
  feed     : List (Nat × Words) := []
  inMacro  : Bool := false
  fed      : Nat := 0
  feedAt   : Nat := 0
  fedStarts : List Nat := []
  feedBad  : Bool := false
  fence    : Option Word64 := none
  committing : Bool := false
  frozen   : Option Freeze := none
  slip     : Bool := true
  shape    : Nat := 0
  acc      : Table LAcc := []
  filled   : Bool := false
  spad     : List Host.Cell := []
  tags     : Table RowTag := []
  slots    : Table SlotWord := []
  imem     : List Host.Cell := []
  regions  : Table Region := []
  hinge    : Table CoreHinge := []
  conflicts : Table Word64 := []
  freezes  : Table Word64 := []
  landWaits : Word64 := 0
  scrubRow : Nat := 0
  scrubDue : Word64 := 0
  scrubFrac : Nat := 0
  wordErrs : Table Nat := []
  stateErrs : Table Nat := []
  samples  : List ConfSample := []
  deriving DecidableEq, Repr

/-- The program, scratchpad and state-memory entries (R230, R250); `scrubFrom`: when the scrubbers were last started (R243). -/
structure CoreEntries where
  slipDetect     : Bool := true
  slipQuarantine : Bool := true
  slips          : Word32 := 0
  lastSlip       : Word64 := 0
  loads          : Word64 := 0
  busyRejects    : Word32 := 0
  verifyRejects  : Word32 := 0
  lastVerify     : Word64 := 0
  macros         : Word64 := 0
  feedWaits      : Word64 := 0
  initMode       : Nat := 0
  scrubPeriod    : Word32 := 60
  scrubForce     : Word32 := 4096
  scrubFrom      : Word64 := 0
  scrubSweeps    : Word64 := 0
  spadCorrected  : Word64 := 0
  spadPoisoned   : Word64 := 0
  fillDone       : Word64 := 0
  bankView       : Word16 := 0
  stateCorrected : Word64 := 0
  stateResets    : Word32 := 0
  stateErrs      : Table Nat := []
  deriving DecidableEq, Repr

/-! ### The HBM tier (10_hbm_tier.md) -/

/-- HBM page states (R83 table, R254). -/
inductive PageKind where
  | free | reserved | published | retiring
  deriving DecidableEq, Repr

/-- A page-state map entry with the free-after epoch of a retiring page (R87, R254). `errs` has a bit set for each bit of the
page that is flipped, lowest position first (R256, R444). -/
structure Page where
  kind    : PageKind := .free
  pointer : Bool := false
  poison  : Bool := false
  scope   : Nat := 0
  pen     : Word64 := 0
  freeAfter : Word32 := 0
  orphan  : Bool := false
  errs    : Nat := 0
  deriving DecidableEq, Repr

/-- A memory-island hinge entry (R265). -/
structure MemHinge where
  valid  : Bool := false
  state  : Nat := 0
  poison : Bool := false
  page   : Nat := 0
  deriving DecidableEq, Repr

/-- A way of a row cache: the local offset of its row, the bytes as they were read, and the poison mark (R308, R309). -/
structure CacheWay where
  valid  : Bool := false
  key    : Nat := 0
  data   : Bytes := []
  poison : Bool := false
  deriving DecidableEq, Repr

/-- A memory island with its stack (R97, R256, R265, R269, R272, R308). -/
structure Stack where
  codeT   : Nat := 64
  codeTInUse : Nat := 64
  enable  : Bool := false
  fn      : FnState := .off
  abandon : Bool := false
  fromOff : Bool := true
  remap   : Word64 := 0
  hinge   : Table MemHinge := []
  flocks  : List Flock := []
  waiting : List (Nat × Member) := []
  ways    : Table CacheWay := []
  cms     : Table Nat := []
  lookups : Nat := 0
  deriving DecidableEq, Repr

/-- The HBM entries that are not per stack (R267, R272). -/
structure Hbm where
  hingeResult  : Word16 := 0
  hingeTarget  : Option (Nat × Nat) := none
  remapBits    : Nat := 16
  corrected    : Word64 := 0
  poisoned     : Word64 := 0
  freeReads    : Word64 := 0
  retries      : Word64 := 0
  intakeBase   : Word64 := 0x00BB80000000
  intakeErrs   : Table Nat := []
  held         : List Packet := []
  deriving DecidableEq, Repr

/-! ### Model serving (11_model_serving.md) -/

/-- A model slot (R275, R297) with its constraint set (R166), the regions of its programs, and its range's first slot on the cores of each
cluster (R276). -/
structure Model where
  desc     : Word64 := 0
  head     : Words := []
  banned   : List CSeq := []
  forced   : List CSeq := []
  enable   : Bool := false
  fn       : FnState := .off
  code     : Word16 := 0
  gen      : Word16 := 0
  clusters : Word16 := 0
  kvBase   : Word64 := 0
  kvPages  : Word32 := 0
  constraint : Word64 := 0
  abandon  : Bool := false
  programs : List (Nat × Nat) := []
  bases      : Table Nat := []
  rangeSlots : Nat := 0
  deriving DecidableEq, Repr

/-- A cluster island (R284, R297, R376, R385); `since`: when its Starting began (R246). -/
structure Cluster where
  enable  : Bool := false
  since   : Word64 := 0
  fn      : FnState := .off
  abandon : Bool := false
  pin     : Nat := 0
  role    : Nat := 1
  target  : Nat := 1
  waiting : List Waiting := []
  quota   : Nat := 4
  deriving DecidableEq, Repr

/-- A sequence of a generator and its KV state record (R286 to R289), with its matcher state (R158). -/
structure Seq where
  slot     : Nat
  model    : Nat
  inst     : Nat
  prompt   : List Nat
  input    : Bytes
  limit    : Nat
  eos      : Nat
  prefilled : Bool := false
  emitted  : List Nat := []
  drafts   : List Nat := []
  active   : List (Nat × Nat) := []
  commit   : Nat := 0
  len      : Nat := 0
  sealed   : Nat := 0
  pages    : Word64 := 0
  pool     : List Nat := []
  steps    : Nat := 0
  accepted : Nat := 0
  stop     : Option Nat := none
  deriving DecidableEq, Repr

/-- The serving entries (R297). -/
structure Serving where
  ratioPeriod : Word32 := 100
  ratioHyst   : Nat := 2
  ratioUnit   : Nat := 2
  genMin      : Nat := 0
  genMax      : Nat := 16
  stepMaxRows : Nat := 16
  steps       : Word64 := 0
  draftsProposed : Word64 := 0
  draftsAccepted : Word64 := 0
  roleChanges : Word32 := 0
  rowsMasked  : Word64 := 0
  adapterGathers : Word64 := 0
  ratioAt     : Word64 := 0
  seqs        : List Seq := []
  deriving DecidableEq, Repr

/-! ### Embedding tables (12_embedding_tables.md) -/

/-- What a staged command does to a row (R310, R315). -/
inductive TableAct where
  | replace | add | promote | demote
  deriving DecidableEq, Repr

/-- The rows of one command staged at this home (R310). -/
structure Staged where
  src    : Nat
  handle : Word32
  act    : TableAct
  rows   : List (Nat × Bytes)
  deriving DecidableEq, Repr

/-- Row migration states at the shard home (R315). -/
inductive Mig where
  | homed | migrating | forwarded
  deriving DecidableEq, Repr

/-- A row that has moved, is moving, or has forwarded updates that are not acknowledged, at its shard home: its migration (and
whether that is a demotion, and its version), its queued updates with their versions, and the versions of the forwarded ones
(R315). A row not listed is forwarded when the root's hot directory holds it, else homed. -/
structure MigRow where
  listed  : Bool := false
  mig     : Mig := .homed
  demote  : Bool := false
  version : Nat := 0
  queue   : List (TableAct × Bytes × Nat) := []
  unacked : List Nat := []
  deriving DecidableEq, Repr

/-- A version under construction at this home (R310, R311, R315): the shard's rows that it changes, the hot or replicated rows
it changes (at the hot home), its changes of the hot directory, and what it has written: its top map page, its pages, and the
pages that it supersedes. -/
structure Build where
  rows    : Table Bytes := []
  hot     : Table Bytes := []
  hotAdd  : List (Nat × Nat) := []
  hotDel  : List Nat := []
  map     : Option Nat := none
  owned   : List Nat := []
  release : List Nat := []
  deriving DecidableEq, Repr

/-- A table slot (R298 to R318): `head` and `shards` are the header and the shard map that its start read. `built` is the last version this device has switched to, `pend` the version after it, `next`
the one after that; `marked` is the version whose seal mark has come, `reported` whether this home has reported it; `sealing`
the seal that the hot home runs, `reports` and `switched` the devices it still waits for. -/
structure TableSlot where
  desc    : Word64 := 0
  head    : Words := []
  shards  : List Nat := []
  enable  : Bool := false
  fn      : FnState := .off
  current : Word32 := 0
  floor   : Word32 := 0
  sealed  : Word32 := 0
  code    : Word16 := 0
  tenant  : Word16 := 0
  built   : Nat := 0
  staged  : List Staged := []
  moving  : Table MigRow := []
  pend    : Build := {}
  next    : Build := {}
  marked  : Option Nat := none
  reported : Bool := false
  sealing : Option Nat := none
  reports : List Nat := []
  switched : List Nat := []
  deriving DecidableEq, Repr

/-- The table entries that are not per slot (R318). -/
structure TableEntries where
  cmsDecay     : Word32 := 1048576
  hotThreshold : Nat := 192
  hotCands     : List Word64 := List.replicate 16 0
  hotNext      : Nat := 0
  cacheHits    : Word64 := 0
  cacheMisses  : Word64 := 0
  cacheBypass  : Word64 := 0
  defaultRows  : Word64 := 0
  rowUpdates   : Word64 := 0
  migrations   : Word32 := 0
  deriving DecidableEq, Repr

/-! ### The fabric and the keyring (13_relros_fabric_and_keyring.md, 14_gates_shapers_policers.md) -/

/-- A packet in an egress queue or a replay buffer, the time it entered the queue (R353, R364), and how often it has been replayed
(R320). -/
structure QPkt where
  pkt : Packet
  at_ : Word64
  reps : Nat := 0
  deriving DecidableEq, Repr

/-- A gate control list with its base (R354). -/
structure GateList where
  base    : Word64
  entries : Words
  deriving DecidableEq, Repr

/-- A Relros link with its gates, shapers and queues (R320 to R322, R351 to R358, R364). -/
structure Link where
  enable   : Bool := false
  fn       : FnState := .off
  abandon  : Bool := false
  peer     : Word32 := 0
  fec      : Word64 := 0
  replays  : Word64 := 0
  retrains : Word32 := 0
  txSeq    : Word16 := 0
  rxSeq    : Word16 := 0
  ackOwed  : Bool := false
  discarding : Bool := false
  replay   : List QPkt := []
  lastAck  : Word64 := 0
  control  : List LinkCtl := []
  credits  : Table Nat := []
  queues   : Table (List QPkt) := []
  hwm      : Table Word32 := []
  wireEnd  : Nat := 0
  wireClass : Option Nat := none
  rates    : Table Nat := []
  credit   : Table Int := []
  gateEnable : Bool := false
  gateBase : Word64 := 0
  gateCount : Nat := 1
  gateList : Words := 0xFF000000000F4240 :: List.replicate 31 0xFF00000000000000
  gateCode : Word16 := 0
  gateActive : Option GateList := none
  gateNext : Option (GateList × Word64) := none
  gateEntry : Nat := 0
  guard    : Byte := 0
  deriving DecidableEq, Repr

/-- What an access or a publish was issued for (R333, R334, R341). -/
inductive Issuer where
  | coreMove (core move : Nat) | request (slot : Nat) | job (job page : Nat) | seal (slot page : Nat)
  deriving DecidableEq, Repr

/-- An access awaiting its reply or ack (R333, R334). -/
structure Access where
  island : Nat
  tag    : Nat
  issuer : Issuer
  hdr    : Words
  payload : Bytes
  sentAt : Word64
  reruns : Nat
  got    : List (Nat × Marked)
  deriving DecidableEq, Repr

/-- A miss record (R341). -/
structure Miss where
  issuer : Issuer
  handle : Option Word32
  addr   : Word64
  right  : Nat
  tenant : Nat
  sys    : Bool
  cluster : Nat
  deriving DecidableEq, Repr

/-- A kill-notice discard window (R336). -/
structure KillWin where
  device : Nat
  handle : Word32
  until_ : Word64
  deriving DecidableEq, Repr

/-- The fabric entries, routing table and accesses in flight (R326, R333, R336, R351). -/
structure Fabric where
  deviceId  : Nat := 0
  hopLimit  : Nat := 15
  timeout   : Word32 := 2000000
  reruns    : Nat := 2
  sysClass  : Nat := 6
  lateReplies : Word64 := 0
  badPackets : Word64 := 0
  routeOff  : Word64 := 0
  routeCode : Word16 := 0
  routeDrops : Word64 := 0
  routes    : Table Word64 := []
  routed    : Bool := false
  accesses  : List Access := []
  misses    : List Miss := []
  kills     : List KillWin := []
  nextTag   : Table Nat := []
  loop      : List Words := []
  deriving DecidableEq, Repr

/-- A keyring entry (R338) and when it last passed an access (R344). -/
structure KeyEntry where
  w0   : Word64 := 0
  w1   : Word64 := 0
  used : Word64 := 0
  deriving DecidableEq, Repr

/-- The keyring and its dictionary entries (R338 to R351). -/
structure Keyring where
  entries  : Table KeyEntry := []
  dirEntry : Word64 := 0
  dir      : Option Word64 := none
  dirCheck : Option Word64 := none
  dirCode  : Word16 := 0
  reruns   : Nat := 4
  result   : Word16 := 0
  select   : Word16 := 0
  misses   : Word64 := 0
  evictions : Word64 := 0
  denied   : Word32 := 0
  unresolved : Word32 := 0
  groups   : Table Nat := []
  deriving DecidableEq, Repr

/-- A policer's buckets in 1/65,536 of their unit, and when they were last filled (R361); not `used`, both are full. -/
structure Bucket where
  tc : Nat := 0
  tp : Nat := 0
  at_ : Word64 := 0
  used : Bool := false
  deriving DecidableEq, Repr

/-- A policer: its record (R360) and its counts (R362, R367). -/
structure Policer where
  w0     : Word64 := 0
  w1     : Word64 := 0
  green  : Word64 := 0
  yellow : Word64 := 0
  red    : Word64 := 0
  deriving DecidableEq, Repr

/-- The traffic entries that are not per link (R359 to R367). -/
structure Traffic where
  select   : Nat := 0
  policers : Table Policer := []
  buckets  : Table Bucket := []
  map      : Table Nat := []
  colours  : Table Nat := []
  hwmLink  : Nat := 0
  classHwm : Table Word32 := []
  tenantSelect : Nat := 0
  tenantPol : Table Policer := []
  tenantBuckets : Table Bucket := []
  deriving DecidableEq, Repr

/-! ### Placement (15_placement_and_isolation.md) -/

/-- A slowdown record (R375). -/
structure Slowdown where
  actual    : Word64 := 0
  solo      : Word64 := 0
  commands  : Word32 := 0
  preempted : Word32 := 0
  worst     : Word32 := 0
  deriving DecidableEq, Repr

/-- The placement entries (R385). -/
structure Placement where
  preemptEnable : Bool := true
  minRemain     : Word32 := 4096
  urgentNs      : Word32 := 1000000
  preemptMax    : Nat := 2
  drainHold     : Word32 := 50000000
  preemptions   : Word64 := 0
  requeues      : Word64 := 0
  slowTenant    : Word16 := 0
  tenantSlow    : Table Slowdown := []
  classSlow     : Table Slowdown := []
  held          : List Waiting := []
  deriving DecidableEq, Repr

/-! ### The host interface (16_host_and_object_dictionary.md) -/

/-- An event record (R399). -/
structure Event where
  time  : Word64
  index : Word16
  sub   : Byte
  kind  : Nat
  value : Word32
  deriving DecidableEq, Repr

/-- Mailbox return codes the manual names (R394, R401). -/
inductive Return where
  | success | invalidInput | unsupported | invalidLength | busy
  deriving DecidableEq, Repr

/-- The answer to the last command of a carrier: its return code and output payload (R394). -/
structure Answer where
  ret     : Return := .success
  payload : Bytes := []
  deriving DecidableEq, Repr

/-- The host port, the mailbox, MSI-X, events and Shoind (R391 to R406); `waiting` holds writes to host memory that the link's
return will let out (R434, R435). -/
structure HostIf where
  linkState : Nat := 0
  linkRate  : Nat := 0
  linkWidth : Nat := 0
  retrains  : Word32 := 0
  ideState  : Byte := 0
  committed : Bool := false
  hdmBase   : Word64 := 0
  commitError : Bool := false
  snooping  : List Nat := []
  answered  : List Nat := []
  eventMask : Word32 := 0x17
  eventsLost : Word32 := 0
  events    : List Event := []
  commands  : Word64 := 0
  odWrites  : Word64 := 0
  odRefusals : Word32 := 0
  lastRefusal : Word64 := 0
  i3cAddr   : Byte := 0
  eidI3c    : Byte := 0
  eidPci    : Byte := 0
  biSnoops  : Word64 := 0
  intakeLines : Word64 := 0
  memRead   : Option (Bytes × Bool) := none
  unmasked  : Table Bool := []
  pendingV  : Table Bool := []
  sentMsi   : Table Nat := []
  mailbox   : Answer := {}
  i3c       : Answer := {}
  vdm       : Answer := {}
  mctp      : Table Bytes := []
  doe       : Bytes := []
  snoopAnswer : Option Word64 := none
  hostMem   : List Host.Cell := []
  waiting   : List (Nat × Bytes) := []
  deriving DecidableEq, Repr

/-! ### Firmware and identity (17_bringup_and_identity.md) -/

/-- The module flash, which survives everything (R428, R431). -/
structure Flash where
  leafLimit : Nat := 0
  count     : Nat := 0
  macOk     : Bool := true
  counter   : Nat := 0
  fwFloor   : Word32 := 0
  certChain : Bytes := []
  deriving DecidableEq, Repr

/-- The firmware receipt and its entries (R415 to R420); `tables`: the latency model and verifier tables (R227, R414). -/
structure Firmware where
  fn       : FnState := .off
  phase    : Nat := 0
  received : Bytes := []
  total    : Nat := 0
  owner    : Option Carrier := none
  fetching : Option Nat := none
  sections : Nat := 0
  code     : Word16 := 0
  secver   : Word32 := 0
  floor    : Word32 := 0
  digest   : Bytes := []
  build    : Word64 := 0
  store    : Bytes := []
  tables   : Bytes := []
  deriving DecidableEq, Repr

/-- An SPDM session (R425). -/
structure Session where
  id     : Nat
  port   : SpdmPort
  ready  : Bool
  keyGen : Nat
  deriving DecidableEq, Repr

/-- The boot, identity and attestation state (R409, R423 to R428). -/
structure Identity where
  served    : Bool := false
  romDigest : Bytes := []
  uid       : Bytes := []
  seed      : Bytes := []
  pufState  : Nat := 0
  pubkey    : Bytes := []
  leafNext  : Nat := 0
  leafLimit : Nat := 0
  maxRate   : Nat := 10
  signatures : Word64 := 0
  signTimes : List Word64 := []
  code      : Word16 := 0
  negotiated : Table Nat := []
  sessions  : List Session := []
  nextSession : Nat := 1
  answers   : Table Bytes := []
  deriving DecidableEq, Repr

/-! ### Faults, counters, the module (18, 19, 20) -/

/-- Island service states (R448 ISLAND_STATE). -/
inductive Service where
  | serving | safe | returning | heldOff
  deriving DecidableEq, Repr

/-- A counter configuration record (R452); its reset value passes everything. -/
structure CtrCfg where
  w0 : Word64 := 0x0000E000FFFF0000
  w1 : Word64 := 0
  w2 : Word64 := 0
  w3 : Word64 := 0
  deriving DecidableEq, Repr

/-- A counter: 56 bits and the lap flag (R449, R456). -/
structure Ctr where
  value : BitVec 56 := 0
  lap   : Bool := false
  deriving DecidableEq, Repr

/-- What every island has (R13, R20, R434, R449, R459, R480). Of its copy of device time, in 1/65,536 ns: how far it is off the hub's, by
how much it drifts each ns, what it has still to correct and over how many ns, its calibrated beacon-tree delay, and when it heard its last
beacon. `code`: its firmware's code memory (R419; of a cluster, the drover's 512 KiB). `lastCode` is its latest fault's; `wasStarting`:
its function was Starting when it faulted (R437). -/
structure Island where
  service  : Service := .serving
  faults   : Word32 := 0
  times    : List Word64 := []
  temp     : Int := 0
  hottest  : Int := 0
  offset   : Int := 0
  drift    : Int := 0
  fix      : Int := 0
  fixLeft  : Nat := 0
  delay    : Nat := 0
  heard    : Word64 := 0
  code     : Bytes := []
  ctrs     : Table Ctr := []
  cfgs     : Table CtrCfg := []
  lfsr     : Word32 := 0
  down     : Nat := 0
  wasStarting : Bool := false
  lastCode : Word16 := 0
  deriving DecidableEq, Repr

/-- A fault record or notice (R439); a notice's `hubTime` is when it left its island. -/
structure FaultRec where
  time   : Word64
  island : Nat
  code   : Word16
  detail : Word32
  addr   : Word64
  hubTime : Word64
  deriving DecidableEq, Repr

/-- A history entry (R440). -/
structure HistEntry where
  time   : Word64
  island : Nat
  event  : Word16
  detail : Word32
  deriving DecidableEq, Repr

/-- The fault collector and injection (R439 to R448). -/
structure Faults where
  captured  : Bool := false
  first     : Option FaultRec := none
  last      : Option FaultRec := none
  history   : List HistEntry := []
  count     : Word32 := 0
  since     : Word32 := 0
  notices   : List FaultRec := []
  autoRestart : Bool := true
  limit     : Nat := 3
  windowMs  : Word32 := 60000
  eventMask : Word16 := 0x07FF
  select    : Word16 := 0
  factory   : Bool := false
  fiIsland  : Word16 := 0
  fiCode    : Word16 := 0x08F0
  fiDetail  : Word32 := 0
  fiAt      : Word64 := 0
  fiArmed   : Bool := false
  piKind    : Byte := 0
  piTarget  : Word64 := 0
  piBits    : Nat := 1
  deriving DecidableEq, Repr

/-- Sampling (R459 to R463). -/
structure Sampling where
  enable  : Byte := 0
  n       : Nat := 65536
  seed    : Word32 := 1
  cores   : Table Bool := []
  records : List Words := []
  due     : Option Nat := none
  lost    : Word64 := 0
  notify  : Table Bool := []
  deriving DecidableEq, Repr

/-- Pins, power and temperatures of the module (R465 to R483). -/
structure Module where
  powered   : Bool := false
  perst     : Bool := true
  latchedOff : Bool := false
  ids       : BitVec 3 := 0
  inputMv   : Nat := 0
  p1        : Nat := 0
  p100      : Nat := 0
  peak      : Nat := 0
  fraction  : Nat := 0
  sinceLower : Nat := 0
  over1200  : Nat := 0
  freezeCc  : Word64 := 0
  tempSelect : Word16 := 0
  tempWarn  : Int := 760
  coolantIn : Int := 0
  coolantOut : Int := 0
  deriving DecidableEq, Repr

/-- The whole device, and the queue of the commands that are waiting. -/
structure State where
  pending   : List Instr := []
  time      : Word64 := 0
  hub       : Hub := {}
  rings     : Table Ring := []
  slots     : Table Slot := []
  corpora   : Table Corpus := []
  jobs      : Table Job := []
  publish   : Publish := {}
  scan      : Scan := {}
  vocabs    : Table Vocab := []
  templates : Table Template := []
  texts     : Table TextIsland := []
  text      : Text := {}
  cores     : Table Core := []
  coreE     : CoreEntries := {}
  mem       : List Host.Cell := []
  pageMap   : Table Page := []
  stackT    : Table Stack := []
  hbm       : Hbm := {}
  models    : Table Model := []
  clusters  : Table Cluster := []
  serving   : Serving := {}
  tables    : Table TableSlot := []
  tableE    : TableEntries := {}
  fabric    : Fabric := {}
  links     : Table Link := []
  keyring   : Keyring := {}
  traffic   : Traffic := {}
  placement : Placement := {}
  host      : HostIf := {}
  flash     : Flash := {}
  fw        : Firmware := {}
  ident     : Identity := {}
  islands   : Table Island := []
  faults    : Faults := {}
  sampling  : Sampling := {}
  module    : Module := {}
  deriving DecidableEq, Repr

/-- What stops the machine. No command of the KQ-960 stops it: the manual gives every case a code, a count or no effect. -/
inductive Fault where
  deriving DecidableEq, Repr

/-- Why a command has no meaning. `notModelled` is raised by an arm of exec whose meaning is not written yet (safe). -/
inductive Refusal where
  | notModelled (mnemonic : String)
  deriving DecidableEq, Repr

/-- The device before power comes: V48 absent, PERST# asserted, every function Off, every entry at its default (R408). -/
def State.reset : State := {}

end Sys2Proof.Machine
end

