-- ==== Sys2Proof/Machine/Table.lean ====
section
/-! DEFINITION. Sparse tables and byte memories in their one canonical form, and the update of one unit. -/

namespace Sys2Proof.Machine

/-- The unit numbered k: what the table lists for it, or the reset value d. -/
def tget {α : Type} (d : α) : Table α → Nat → α
  | [], _ => d
  | (k', v) :: t, k => if k' = k then v else tget d t k

/-- The table with unit k at v. A unit put back at its reset value is not listed, so equal contents are equal tables. -/
def tset {α : Type} [DecidableEq α] (d : α) : Table α → Nat → α → Table α
  | [], k, v => if v = d then [] else [(k, v)]
  | (k', v') :: t, k, v =>
    if k < k' then (if v = d then (k', v') :: t else (k, v) :: (k', v') :: t)
    else if k = k' then (if v = d then t else (k, v) :: t)
    else (k', v') :: tset d t k v

/-- Unit k passed through f. -/
def tmod {α : Type} [DecidableEq α] (d : α) (t : Table α) (k : Nat) (f : α → α) : Table α :=
  tset d t k (f (tget d t k))

/-- Every listed unit passed through f, which must leave the reset value as it is for the unlisted ones. -/
def tmap {α : Type} [DecidableEq α] (d : α) (f : Nat → α → α) : Table α → Table α
  | [] => []
  | (k, v) :: t => if f k v = d then tmap d f t else (k, f k v) :: tmap d f t

/-- Numbers rise from above `lo` and no unit is at the reset value. -/
def twfFrom {α : Type} [DecidableEq α] (d : α) : Option Nat → Table α → Bool
  | _, [] => true
  | lo, (k, v) :: t => (match lo with | none => true | some l => l < k) && v ≠ d && twfFrom d (some k) t

/-- The canonical form of a table. -/
def twf {α : Type} [DecidableEq α] (d : α) (t : Table α) : Bool := twfFrom d none t

/-- One byte of a memory; an address nothing has written reads 0 (R244, R258, R269). -/
def memGet (m : List Host.Cell) (a : Nat) : Byte := tget 0 m a

/-- One byte written. -/
def memSet (m : List Host.Cell) (a : Nat) (b : Byte) : List Host.Cell := tset 0 m a b

/-- The canonical form of a memory. -/
def memWf (m : List Host.Cell) : Bool := twf 0 m

/-- n bytes from address a. -/
def memRead (m : List Host.Cell) (a : Nat) : Nat → Bytes
  | 0 => []
  | n + 1 => memGet m a :: memRead m (a + 1) n

/-- The bytes bs written from address a up. -/
def memWrite (m : List Host.Cell) (a : Nat) : Bytes → List Host.Cell
  | [] => m
  | b :: bs => memWrite (memSet m a b) (a + 1) bs

/-- The n bytes from address a put back to what nothing has written reads as. -/
def memClear (m : List Host.Cell) (a n : Nat) : List Host.Cell :=
  m.filter fun c => c.1 < a || a + n ≤ c.1

end Sys2Proof.Machine
end

