-- ==== Sys2Proof/Machine/Ops.lean ====
section
/-! DEFINITION. Named operations shared by every family: units by number, what is serving, events (R398), readiness
(R411), counters (R449 to R453), history (R440), host-memory writes (R388) and the tick of device time. -/

namespace Sys2Proof.Machine

/-! ### Units by number -/

def State.ring (s : State) (n : Nat) : Ring := tget {} s.rings n
def State.modRing (s : State) (n : Nat) (f : Ring → Ring) : State := { s with rings := tmod {} s.rings n f }
def State.slot (s : State) (n : Nat) : Slot := tget {} s.slots n
def State.modSlot (s : State) (n : Nat) (f : Slot → Slot) : State := { s with slots := tmod {} s.slots n f }
def State.corpus (s : State) (n : Nat) : Corpus := tget {} s.corpora n
def State.modCorpus (s : State) (n : Nat) (f : Corpus → Corpus) : State := { s with corpora := tmod {} s.corpora n f }
def State.job (s : State) (n : Nat) : Job := tget {} s.jobs n
def State.modJob (s : State) (n : Nat) (f : Job → Job) : State := { s with jobs := tmod {} s.jobs n f }
def State.vocab (s : State) (n : Nat) : Vocab := tget {} s.vocabs n
def State.modVocab (s : State) (n : Nat) (f : Vocab → Vocab) : State := { s with vocabs := tmod {} s.vocabs n f }
def State.template (s : State) (n : Nat) : Template := tget {} s.templates n
def State.modTemplate (s : State) (n : Nat) (f : Template → Template) : State :=
  { s with templates := tmod {} s.templates n f }
def State.textIsl (s : State) (n : Nat) : TextIsland := tget {} s.texts n
def State.modText (s : State) (n : Nat) (f : TextIsland → TextIsland) : State := { s with texts := tmod {} s.texts n f }
def State.core (s : State) (n : Nat) : Core := tget {} s.cores n
def State.modCore (s : State) (n : Nat) (f : Core → Core) : State := { s with cores := tmod {} s.cores n f }
def State.page (s : State) (n : Nat) : Page := tget {} s.pageMap n
def State.modPage (s : State) (n : Nat) (f : Page → Page) : State := { s with pageMap := tmod {} s.pageMap n f }
def State.stack (s : State) (n : Nat) : Stack := tget {} s.stackT n
def State.modStack (s : State) (n : Nat) (f : Stack → Stack) : State := { s with stackT := tmod {} s.stackT n f }
def State.model (s : State) (n : Nat) : Model := tget {} s.models n
def State.modModel (s : State) (n : Nat) (f : Model → Model) : State := { s with models := tmod {} s.models n f }
def State.cluster (s : State) (n : Nat) : Cluster := tget {} s.clusters n
def State.modCluster (s : State) (n : Nat) (f : Cluster → Cluster) : State := { s with clusters := tmod {} s.clusters n f }
def State.tableSlot (s : State) (n : Nat) : TableSlot := tget {} s.tables n
def State.modTable (s : State) (n : Nat) (f : TableSlot → TableSlot) : State := { s with tables := tmod {} s.tables n f }
def State.link (s : State) (n : Nat) : Link := tget {} s.links n
def State.modLink (s : State) (n : Nat) (f : Link → Link) : State := { s with links := tmod {} s.links n f }
def State.island (s : State) (n : Nat) : Island := tget {} s.islands n
def State.modIsland (s : State) (n : Nat) (f : Island → Island) : State := { s with islands := tmod {} s.islands n f }
def State.modHub (s : State) (f : Hub → Hub) : State := { s with hub := f s.hub }
def State.modHost (s : State) (f : HostIf → HostIf) : State := { s with host := f s.host }

/-- The first slot of a model slot's range on the cores of a cluster (R276). -/
def Model.base (m : Model) (c : Nat) : Nat := tget 0 m.bases c

/-! ### Island ids (R15) -/

def idCluster (n : Nat) : Nat := 0x100 + n
def idMemory (n : Nat) : Nat := 0x110 + n
def idLink (n : Nat) : Nat := 0x120 + n
def idHost : Nat := 0x130
def idText (n : Nat) : Nat := 0x131 + n
def idHub : Nat := 0x13F
/-- The link island that holds a Relros link (R15). -/
def linkIsland (l : Nat) : Nat := idLink (l / 4)

/-- Island types (R13), numbered as the event classes of R451. -/
inductive IslandType where
  | core | cluster | memory | link | host | text | hub
  deriving DecidableEq, Repr

/-- The type of the island with an id; ids outside R15's table have none. -/
def islandType (i : Nat) : Option IslandType :=
  if i < 0x100 then some .core
  else if i < 0x110 then some .cluster
  else if i < 0x110 then none
  else if i < 0x11C then some .memory
  else if i < 0x120 then none
  else if i < 0x12C then some .link
  else if i < 0x130 then none
  else if i = 0x130 then some .host
  else if i < 0x135 then some .text
  else if i = 0x13F then some .hub
  else none

/-- The event class of an island type (R451). -/
def IslandType.eventClass : IslandType → Nat
  | .core => 1 | .cluster => 2 | .memory => 3 | .link => 4 | .host => 5 | .text => 6 | .hub => 7

/-! ### What is up -/

/-- Rails up and PERST# released (R408, R476). -/
def State.alive (s : State) : Bool := s.module.powered && !s.module.perst
/-- The island is in service (R434 to R437). -/
def State.inService (s : State) (i : Nat) : Bool := s.alive && decide ((s.island i).service = .serving)
/-- The hub serves: boot step 3 is past and no hub fault holds it (R409, R434). -/
def State.hubUp (s : State) : Bool := s.alive && s.ident.served && decide ((s.island idHub).service = .serving)
/-- The firmware is Ready (R410). -/
def State.fwReady (s : State) : Bool := s.hubUp && decide (s.fw.fn = .ready)
/-- The CXL link is up (R406). -/
def State.linkUp (s : State) : Bool := s.host.linkState == 2 || s.host.linkState == 3
/-- The host reaches BAR0 (R393). -/
def State.hostUp (s : State) : Bool := s.hubUp && s.linkUp && s.inService idHost

/-- An island's copy of device time: the hub's count and the copy's difference, in 1/65,536 ns (R19, R20). -/
def State.timeAt (s : State) (i : Nat) : Word64 := s.time + BitVec.ofInt 64 (Int.fdiv (s.island i).offset 65536)

/-- A value the manual leaves open, and the state past its use. -/
def State.fresh (s : State) : Word64 × State :=
  (Config.freeWord s.hub.freeUsed, s.modHub fun h => { h with freeUsed := h.freeUsed + 1 })

/-! ### Counters (R449 to R453) -/

/-- What a counted event carries (R453): its privilege (0 firmware, 1 run-time, 2 tenant), its command class, engine,
tenant, and the address range of a byte event. -/
structure EvAttr where
  priv   : Nat := 2
  cmd    : Option Nat := none
  engine : Option Nat := none
  tenant : Option Nat := none
  addr   : Option (Nat × Nat) := none
  deriving DecidableEq, Repr

/-- The master value of the kind a filter compares (R453). -/
def evMaster (island kind : Nat) (a : EvAttr) : Option Nat :=
  match kind with
  | 1 => some island
  | 2 => a.engine
  | 3 => a.tenant
  | _ => none

/-- Bytes of [lo, lo+n) inside [x, y). -/
def overlap (lo n x y : Nat) : Nat := min (lo + n) y - max lo x

/-- How much of an event of n a counter with this configuration counts (R453). -/
def ctrAmount (c : CtrCfg) (island cls ev n : Nat) (a : EvAttr) : Nat :=
  let kind := bits c.w0 44 43
  let cmdOk := match a.cmd with
    | some k => bit c.w0 (16 + k)
    | none => decide (bits c.w0 31 16 = 0xFFFF)
  let masterOk := kind = 0 || match evMaster island kind a with
    | some m => decide ((BitVec.ofNat 16 m &&& BitVec.ofNat 16 (bits c.w1 47 32))
                  = (BitVec.ofNat 16 (bits c.w1 63 48) &&& BitVec.ofNat 16 (bits c.w1 47 32)))
    | none => false
  if bits c.w0 63 56 = cls && cls ≠ 0 && bits c.w0 55 48 = ev && bit c.w0 (45 + a.priv) && cmdOk && masterOk then
    if bit c.w0 42 then
      match a.addr with
      | some (lo, len) => overlap lo len c.w2.toNat c.w3.toNat
      | none => 0
    else n
  else 0

/-- A counter after an increment: 56 bits and the lap flag on a wrap (R456). -/
def ctrAdd (c : Ctr) (n : Nat) : Ctr :=
  { value := c.value + BitVec.ofNat 56 n, lap := c.lap || decide (2 ^ 56 ≤ c.value.toNat + n) }

/-- Fires vector v: at once, or its pending bit while it is masked or no message can leave (R397, R434). -/
def fireVector (v : Nat) (s : State) : State :=
  s.modHost fun h =>
    if tget false h.unmasked v && s.hostUp then { h with sentMsi := tmod 0 h.sentMsi v (· + 1) }
    else { h with pendingV := tset false h.pendingV v true }

/-- Queues a dictionary event of a kind that is enabled (R398, R399). -/
def raiseEvent (kind : Nat) (index : Word16) (sub : Byte) (value : Nat) (s : State) : State :=
  if bit s.host.eventMask kind then
    if 256 ≤ s.host.events.length then s.modHost fun h => { h with eventsLost := h.eventsLost + 1 }
    else
      let s' := s.modHost fun h =>
        { h with events := h.events ++ [⟨s.time, index, sub, kind, BitVec.ofNat 32 value⟩] }
      if s.host.events = [] then fireVector 1 s' else s'
  else s

/-- Counter c of an island advances; a wrap of a counter with its LAP_NOTIFY bit set queues event kind 3 (R457). -/
def bumpCtr (i c n : Nat) (s : State) : State :=
  if n = 0 then s else
  let old := tget {} (s.island i).ctrs c
  let new := ctrAdd old n
  let s' := s.modIsland i fun x => { x with ctrs := tset {} x.ctrs c new }
  if 2 ^ 56 ≤ old.value.toNat + n && tget false s.sampling.notify (16 * i + c) then
    raiseEvent 3 (BitVec.ofNat 16 (0x5100 + i)) (BitVec.ofNat 8 (c + 1)) new.value.toNat s'
  else s'

/-- An event of the catalogue of R451, n occurrences (or bytes) at once. -/
def countEv (i cls ev n : Nat) (a : EvAttr) (s : State) : State :=
  (List.range 8).foldl (fun s p => bumpCtr i (4 + p) (ctrAmount (tget {} (s.island i).cfgs p) i cls ev n a) s) s

/-- A correction, counted in the island's F3 (R450). -/
def countCorrected (i n : Nat) (s : State) : State := bumpCtr i 3 n s

/-! ### Function states, readiness, events -/

def FnState.code : FnState → Nat
  | .off => 0 | .starting => 1 | .ready => 2 | .draining => 3

/-- The stack that holds INTAKE_BASE (R251, R391). -/
def State.intakeStack (s : State) : Nat := bits s.hbm.intakeBase 39 36

/-- INTAKE_STATE (2030:06). -/
def State.intakeState (s : State) : Nat :=
  if s.host.committed && decide ((s.stack s.intakeStack).fn = .ready) then 2 else 0

/-- READY_MAP, bit by bit (R411). -/
def State.readyBit (s : State) (b : Nat) : Bool :=
  if b = 0 then s.ident.served
  else if b = 1 then decide (s.fw.fn = .ready)
  else if b = 2 then s.ident.pufState == 2
  else if b = 3 then s.ident.pufState == 2 && s.ident.code == 0
  else if b < 20 then decide ((s.cluster (b - 4)).fn = .ready)
  else if b < 32 then decide ((s.stack (b - 20)).fn = .ready)
  else if b < 80 then decide ((s.link (b - 32)).fn = .ready)
  else if b < 84 then decide ((s.textIsl (b - 80)).fn = .ready)
  else if b = 84 then s.linkUp
  else if b = 85 then s.intakeState == 2
  else false

/-- The number whose bit k is f k, for k below n. -/
def packBits (f : Nat → Bool) : Nat → Nat
  | 0 => 0
  | n + 1 => packBits f n + (if f n then 2 ^ n else 0)

def State.readyMap (s : State) : Nat := packBits s.readyBit 86

/-- Event kind 0 where the readiness map differs from what it was in `old` (R398, R412). -/
def noteReady (old new : State) : State :=
  if old.readyMap = new.readyMap then new else raiseEvent 0 0x1040 1 (new.readyMap % 2 ^ 32) new

/-- A function-state entry changed from a to b (event kind 1), and the readiness map perhaps with it. -/
def noteFn (index : Word16) (n : Nat) (a b : FnState) (old new : State) : State :=
  noteReady old (if a = b then new else raiseEvent 1 index (BitVec.ofNat 8 (n + 1)) b.code new)

def setClusterFn (n : Nat) (v : FnState) (s : State) : State :=
  noteFn 0x2021 n (s.cluster n).fn v s (s.modCluster n fun c =>
    { c with fn := v, since := if v = .starting then s.time else c.since })
def setTextFn (n : Nat) (v : FnState) (s : State) : State :=
  noteFn 0x2023 n (s.textIsl n).fn v s (s.modText n fun c => { c with fn := v })
def setLinkFn (n : Nat) (v : FnState) (s : State) : State :=
  noteFn 0x3002 n (s.link n).fn v s (s.modLink n fun c => { c with fn := v })
def setStackFn (n : Nat) (v : FnState) (s : State) : State :=
  noteFn 0x4402 n (s.stack n).fn v s (s.modStack n fun c => { c with fn := v })
def setTableFn (n : Nat) (v : FnState) (s : State) : State :=
  noteFn 0x4503 n (s.tableSlot n).fn v s (s.modTable n fun c => { c with fn := v })
/-- With a vocabulary that goes Off, its pages leave every text island's cache (R154). -/
def setVocabFn (n : Nat) (v : FnState) (s : State) : State :=
  let s' := s.modVocab n fun c => { c with fn := v }
  noteFn 0x7202 n (s.vocab n).fn v s (if v = .off then
    { s' with texts := tmap {} (fun _ t => { t with cache := t.cache.filter fun e => e.1 ≠ n }) s'.texts } else s')
def setModelFn (n : Nat) (v : FnState) (s : State) : State :=
  noteFn 0x7302 n (s.model n).fn v s (s.modModel n fun c => { c with fn := v })
def setFwFn (v : FnState) (s : State) : State :=
  noteFn 0x8000 0 s.fw.fn v s { s with fw := { s.fw with fn := v } }

/-- The end of a long operation: a companion entry that read FFFFh takes another value (event kind 2). -/
def noteLong (index : Word16) (sub : Byte) (old new : Word16) (s : State) : State :=
  if old = 0xFFFF ∧ new ≠ 0xFFFF then raiseEvent 2 index sub new.toNat s else s

/-! ### History (R440) -/

/-- An entry enters the history queue of 32, oldest first, while no first fault is captured (R439, R440). -/
def pushHistory (e : HistEntry) (s : State) : State :=
  let h := s.faults.history ++ [e]
  if s.faults.captured then s else { s with faults := { s.faults with history := h.drop (h.length - 32) } }

/-- A notable event other than a fault, if its bit of HISTORY_EVENT_MASK is set (R440). -/
def notable (island ev : Nat) (detail : Nat) (s : State) : State :=
  if bit s.faults.eventMask (ev - 1) then
    pushHistory ⟨s.timeAt island, island, BitVec.ofNat 16 ev, BitVec.ofNat 32 detail⟩ s
  else s

/-! ### Host memory (R388) -/

/-- Whole 64-byte lines that a range of bytes touches. -/
def linesOf (addr n : Nat) : Nat := if n = 0 then 0 else (addr + n + 63) / 64 - addr / 64

/-- The offset within the HDM-DB window of an address of it (R391). -/
def State.windowOffset (s : State) (addr : Nat) : Option Nat :=
  if s.host.committed && s.host.hdmBase.toNat ≤ addr && addr < s.host.hdmBase.toNat + 2 ^ 34 then
    some (addr - s.host.hdmBase.toNat)
  else none

/-- ItoMWr and RdCurr can be issued: the link is up and the host island in service (R434). -/
def State.hostPath (s : State) : Bool := s.linkUp && s.inService idHost

/-! ### The cells of a stack (R253, R265) -/

def stackOf (off : Nat) : Nat := off / 2 ^ 36 % 16
def pageNo (off : Nat) : Nat := off % 2 ^ 40 / 4096
def stackOfPage (pg : Nat) : Nat := pg / 2 ^ 24

/-- The active hinge entry of a page, if it has one (R265). -/
def State.hingeOf (s : State) (pg : Nat) : Option (Nat × MemHinge) :=
  (s.stack (stackOfPage pg)).hinge.find? fun e => e.2.valid && e.2.state = 2 && e.2.page = pg % 2 ^ 24

/-- Spare page j of stack m, by its place in the stack's check region, the top 2 GiB that no offset reaches (R253). -/
def sparePage (m j : Nat) : Nat := 2 ^ 24 * m + 0xFFC800 + j

/-- The page whose cells an access to a page reaches: its own, or the spare one of its active hinge entry (R265). -/
def State.cell (s : State) (pg : Nat) : Nat :=
  match s.hingeOf pg with
  | some e => sparePage (stackOfPage pg) e.1
  | none => pg

/-- The address of those cells for a local offset. -/
def State.cellAddr (s : State) (off : Nat) : Nat := 4096 * s.cell (pageNo off) + off % 4096

/-- A range put into its pages' cells. -/
def State.stored (s : State) (off : Nat) (bs : Bytes) : List Host.Cell :=
  if (s.stack (stackOf off)).hinge = [] then memWrite s.mem (off % 2 ^ 40) bs
  else bs.zipIdx.foldl (fun m b => memSet m (s.cellAddr (off + b.2)) b.1) s.mem

/-- Bytes the device writes to a buffer: ItoMWr to host memory, once the link lets it out, and in the intake region the stack's
own lines (R40, R391, R434). -/
def hostWrite (addr : Nat) (bs : Bytes) (s : State) : State :=
  match s.windowOffset addr with
  | some off =>
    let a := s.hbm.intakeBase.toNat + off
    if s.intakeState = 2 then
      { s with mem := s.stored a bs, hbm := { s.hbm with
          intakeErrs := s.hbm.intakeErrs.filter fun e => 64 * e.1 + 64 ≤ a || a + bs.length ≤ 64 * e.1 } }
    else s
  | none =>
    if !s.hostPath then s.modHost fun h => { h with waiting := h.waiting ++ [(addr, bs)] }
    else countEv idHost 5 2 (linesOf addr bs.length) {} (s.modHost fun h => { h with hostMem := memWrite h.hostMem addr bs })

/-- RdCurr: the lines of a read of host memory, counted (R451). -/
def hostRead (addr n : Nat) (s : State) : State := countEv idHost 5 1 (linesOf addr n) {} s

/-! ### Time (R19, R20) -/

/-- What an island's copy gains in one nanosecond beside it: its share of the correction, and its drift; it never steps back (R20, R21). -/
def Island.gain (x : Island) : Int := max (-65536) ((if x.fixLeft = 0 then 0 else Int.tdiv x.fix x.fixLeft) + x.drift)

/-- One nanosecond at an island's copy. The correction is spread evenly over what is left of its 1,000 ns (R20). -/
def slewIsland (x : Island) : Island :=
  { x with
    offset := x.offset + x.gain
    fix := if x.fixLeft = 0 then 0 else x.fix - Int.tdiv x.fix x.fixLeft
    fixLeft := x.fixLeft - 1 }

/-- One nanosecond of device time at the hub and at every island's copy (R19); no time passes before the hub leaves reset. -/
def tick (s : State) : State :=
  if s.alive && s.ident.served then { s with time := s.time + 1, islands := tmap {} (fun _ => slewIsland) s.islands } else s

end Sys2Proof.Machine
end

