-- ==== Sys2Proof/Machine/HbmOps.lean ====
section
/-! DEFINITION. The HBM tier under local offsets (R251 to R263): the map, reading through the page code, page states
and page writes. A page is numbered by bits [39:12] of its offset. -/

namespace Sys2Proof.Machine

def deviceOf (addr : Nat) : Nat := addr / 2 ^ 50
/-- Inside the stack map, device bits aside (R252). -/
def inMap (off : Nat) : Bool := off / 2 ^ 40 % 2 ^ 10 = 0 && stackOf off < 12 && off % 2 ^ 36 < 0xF80000000
/-- A local offset inside the map (R69: device bits 0). -/
def localOk (off : Nat) : Bool := deviceOf off = 0 && inMap off

/-- A stack that serves (R269). -/
def State.stackUp (s : State) (n : Nat) : Bool := decide ((s.stack n).fn = .ready) && s.inService (idMemory n)

/-- In the intake region (R261). -/
def State.inIntake (s : State) (off : Nat) : Bool :=
  s.hbm.intakeBase.toNat ≤ off % 2 ^ 40 && off % 2 ^ 40 < s.hbm.intakeBase.toNat + 2 ^ 34

/-- What a read of a range delivered: its bytes, whether any line is poisoned, and why it read nothing. -/
structure RdOut where
  data   : Bytes
  poison : Bool
  code   : Word16
  deriving DecidableEq, Repr

/-- The page is being copied to a spare page: its writes wait (R270). -/
def State.copying (s : State) (pg : Nat) : Bool :=
  match s.hbm.hingeTarget with
  | none => false
  | some (m, j) =>
    let e := tget {} (s.stack m).hinge j
    e.valid && 2 ^ 24 * m + e.page == pg

/-- The page delivers poison without a decode (R257, R267). -/
def State.marked (s : State) (pg : Nat) : Bool :=
  (s.page pg).poison || (match s.hingeOf pg with | some e => e.2.poison | none => false)

def PageKind.written : PageKind → Bool
  | .published => true
  | .retiring => true
  | _ => false

/-- The bits that are flipped in a page's cells, data then check bits (R256, R444). -/
def State.errs (s : State) (pg : Nat) : Nat := (s.page (s.cell pg)).errs

/-- The bits of a pattern still wrong after the stack's on-die ECC, which corrects first (R256). -/
def leftOf (e : Nat) : Nat := if e = 0 then 0 else Config.onDieLeaves e
/-- The on-die ECC reports a pattern as uncorrectable (R257, R261). -/
def reported (e : Nat) : Bool := e ≠ 0 && Config.onDieReports e

/-- The errors that the decode of a page finds. -/
def State.errCount (s : State) (pg : Nat) : Nat :=
  if s.errs pg = 0 then 0 else popCount (32768 + 1024) (leftOf (s.errs pg))

/-- More errors than the stack's code corrects (R256). -/
def State.tooMany (s : State) (pg : Nat) : Bool := (s.stack (stackOfPage pg)).codeTInUse < s.errCount pg

/-- This decode miscorrects, unnoticed (R256). -/
def State.slips (s : State) (pg : Nat) : Bool :=
  s.tooMany pg && !reported (s.errs pg) && Config.miscorrects s.hub.freeUsed pg

/-- A decode of the page reports it uncorrectable (R257). -/
def State.beyond (s : State) (pg : Nat) : Bool := (s.tooMany pg || reported (s.errs pg)) && !s.slips pg

/-- The flipped bits of the intake line at an offset. -/
def State.lineErrs (s : State) (off : Nat) : Nat := tget 0 s.hbm.intakeErrs (off % 2 ^ 40 / 64)

/-- The 64-byte line at an offset is delivered poisoned (R257, R261). -/
def State.linePoison (s : State) (off : Nat) : Bool :=
  if s.inIntake off then reported (s.lineErrs off)
  else (s.page (pageNo off)).kind.written && (s.marked (pageNo off) || s.beyond (pageNo off))

/-- Bytes from byte lo of a page on, with the page's flipped bits. -/
def flipBytes (mask lo : Nat) (bs : Bytes) : Bytes :=
  if mask = 0 then bs else bs.zipIdx.map fun b => b.1 ^^^ BitVec.ofNat 8 (mask / 2 ^ (8 * (lo + b.2)))

/-- Bytes of the intake region as the on-die ECC delivers them (R261). -/
def intakeBytes (s : State) (off n : Nat) : Bytes :=
  let bs := memRead s.mem (s.cellAddr off) n
  if s.hbm.intakeErrs = [] then bs
  else bs.zipIdx.map fun b => b.1 ^^^ BitVec.ofNat 8 (leftOf (s.lineErrs (off + b.2)) / 2 ^ (8 * ((off + b.2) % 64)))

/-- n bytes inside one page as a read delivers them: corrected, with their flips where they are beyond correction or the page delivers
poison without a decode, and of a free or reserved page zeros (R256 to R258). -/
def peekIn (s : State) (off n : Nat) : Bytes :=
  let pg := pageNo off
  if s.inIntake off then intakeBytes s off n
  else if !(s.page pg).kind.written then zeros n
  else
    let bs := memRead s.mem (s.cellAddr off) n
    if s.marked pg || s.beyond pg then flipBytes (leftOf (s.errs pg)) (off % 4096) bs
    else if s.slips pg then (List.range n).map fun i => Config.miscorrected s.hub.freeUsed (off % 2 ^ 40 + i)
    else bs

/-- A range cut at page boundaries: (offset, length) pieces. -/
def pageCuts : Nat → Nat → Nat → List (Nat × Nat)
  | 0, _, _ => []
  | f + 1, off, n =>
    if n = 0 then []
    else
      let m := min n (4096 - off % 4096)
      (off, m) :: pageCuts f (off + m) (n - m)

/-- The page pieces of a range. -/
def cutsOf (off n : Nat) : List (Nat × Nat) := pageCuts (n / 4096 + 2) off n

/-- A read of local HBM by offset, as it is delivered (R252, R257, R258, R270). -/
def peek (s : State) (off n : Nat) : RdOut :=
  let off := off % 2 ^ 50
  if n ≠ 0 ∧ ¬(inMap off ∧ inMap (off + n - 1) ∧ stackOf off = stackOf (off + n - 1)) then ⟨zeros n, false, 0x320⟩
  else if n ≠ 0 ∧ s.stackUp (stackOf off) = false then ⟨zeros n, false, 0x321⟩
  else
    ⟨(cutsOf off n).flatMap fun c => peekIn s c.1 c.2, (cutsOf off n).any fun c =>
      (List.range (linesOf c.1 c.2)).any fun i => s.linePoison (c.1 + 64 * i), 0⟩

/-- One 64-bit word of HBM. -/
def peekWord (s : State) (off : Nat) : Word64 := BitVec.ofNat 64 (leNat (peek s off 8).data)
/-- n words of HBM. -/
def peekWords (s : State) (off n : Nat) : Words := wordsOf n (peek s off (8 * n)).data

/-- The readable object at an offset: none where a start or check cannot read it (R486). -/
def readable (s : State) (off n : Nat) : Bool :=
  deviceOf off = 0 && (peek s off n).code == 0 && !(peek s off n).poison

/-! ### What reading does to the stack -/

def modHbm (f : Hbm → Hbm) (s : State) : State := { s with hbm := f s.hbm }

/-- One page of a read, the decode's use count being k: counts, marks and the remap candidate (R257, R258, R261). -/
def touchPage (k off n : Nat) (s : State) : State :=
  let pg := pageNo off
  let isl := idMemory (stackOfPage pg)
  let e := s.errCount pg
  if s.inIntake off then
    (List.range (linesOf off n)).foldl (fun s i =>
      if s.linePoison (off + 64 * i) then
        notable isl 2 (pg % 2 ^ 24) (modHbm (fun h => { h with poisoned := h.poisoned + 1 }) s)
      else s) s
  else if !(s.page pg).kind.written then modHbm (fun h => { h with freeReads := h.freeReads + 1 }) s
  else if s.marked pg then s
  else if s.tooMany pg || reported (s.errs pg) then
    if !reported (s.errs pg) && Config.miscorrects k pg then s
    else
      notable isl 2 (pg % 2 ^ 24)
        (modHbm (fun h => { h with poisoned := h.poisoned + 1 }) (s.modPage pg fun p => { p with poison := true }))
  else if e = 0 then s
  else
    let s := countCorrected isl 1 (modHbm (fun h => { h with corrected := h.corrected + 1 }) s)
    if s.hbm.remapBits ≤ e then
      notable isl 3 (e * 2 ^ 24 + pg % 2 ^ 24)
        (s.modStack (stackOfPage pg) fun t => { t with remap := field 56 e ||| field 12 (pg % 2 ^ 24) })
    else s

/-- Everything the reads of one command do, the ranges as (offset, length); counted as HBM_READ_BYTES (R451). -/
def touch (ranges : List (Nat × Nat)) (s : State) : State :=
  let k := s.hub.freeUsed
  let cuts := (ranges.flatMap fun r => cutsOf (r.1 % 2 ^ 50) r.2).filter fun c => inMap c.1 && s.stackUp (stackOf c.1)
  let slip := cuts.any fun c => s.tooMany (pageNo c.1)
  let s := cuts.foldl (fun s c =>
    countEv (idMemory (stackOf c.1)) 3 1 c.2 { addr := some (c.1 % 2 ^ 40, c.2) } (touchPage k c.1 c.2 s)) s
  if slip then s.modHub fun h => { h with freeUsed := h.freeUsed + 1 } else s

/-- What a start or check reads of the ranges of its objects (R486), decoded and counted as any read. -/
def checkReads (ranges : List (Nat × Nat)) (s : State) : State := touch (ranges.filter fun r => deviceOf r.1 = 0) s

/-! ### Page states and writes -/

/-- The row cache of a page's stack drops the page's rows (R262). -/
def dropRows (pg : Nat) (s : State) : State :=
  s.modStack (stackOfPage pg) fun t =>
    { t with ways := tmap {} (fun _ w => if w.valid && w.key / 4096 = pg % 2 ^ 28 then {} else w) t.ways }

/-- The cells of a page put to bytes, clean of flips. -/
def putCells (pg : Nat) (bs : Bytes) (s : State) : State :=
  { s with mem := memWrite (memClear s.mem (4096 * pg) 4096) (4096 * pg) bs }.modPage pg fun p => { p with errs := 0 }

/-- A page becomes free: unreadable until it is written again, its poison mark kept until then, and a hinge entry on it too (R67, R87,
R263, R270). -/
def freePage (pg : Nat) (s : State) : State :=
  dropRows pg ((putCells (s.cell pg) [] s).modPage pg fun p => { poison := p.poison : Page })

/-- A page is reserved for a write (R81). -/
def reservePage (pg : Nat) (s : State) : State := s.modPage pg fun p => { p with kind := .reserved }

/-- A whole page written with its code: published, unpoisoned, and a hinge entry's poison with it (R67, R257, R265, R267). -/
def writePage (pg : Nat) (pointer : Bool) (data : Bytes) (s : State) : State :=
  let isl := idMemory (stackOfPage pg)
  let s := (putCells (s.cell pg) (fit 4096 data) s).modPage pg fun _ => { kind := .published, pointer := pointer }
  let s := s.modStack (stackOfPage pg) fun t =>
    { t with hinge := tmap {} (fun _ e => if e.valid && e.page = pg % 2 ^ 24 then { e with poison := false } else e) t.hinge }
  countEv isl 3 2 4096 { priv := 1, addr := some (4096 * pg, 4096) } (countEv isl 3 6 1 { priv := 1, engine := some 4 }
    { s with publish := { s.publish with pagesPublished := s.publish.pagesPublished + 1 } })

/-- Bytes of a pointer page replaced in its one atomic page write, and the page encoded anew from what its read delivered (R74, R82,
R259); no caller does so with a page delivered poisoned. `was`: the state that was read. -/
def rewriteIn (was : State) (off : Nat) (bs : Bytes) (s : State) : State :=
  let isl := idMemory (stackOf off)
  let pg := pageNo off
  let s := if was.slips pg then putCells (s.cell pg) (peekIn was (4096 * pg) 4096) s else s
  countEv isl 3 2 4096 { priv := 1, addr := some (off / 4096 * 4096, 4096) }
    ({ s with mem := s.stored off bs }.modPage (s.cell pg) fun p => { p with errs := 0 })

/-! ### Back-invalidate snoops (R392) -/

/-- The intake pages that a read of host addresses touches. -/
def State.intakePages (s : State) (addr n : Nat) : List Nat :=
  match s.windowOffset addr with
  | none => []
  | some off => if n = 0 ∨ s.intakeState ≠ 2 then [] else (List.range ((off % 4096 + n + 4095) / 4096)).map (off / 4096 + ·)

/-- The intake pages of several reads. -/
def State.snoopPages (s : State) (ranges : List (Nat × Nat)) : List Nat := dedupBy id (ranges.flatMap fun r => s.intakePages r.1 r.2)

/-- Every snoop of the intake pages of some reads is answered. -/
def State.snooped (s : State) (ranges : List (Nat × Nat)) : Bool := (s.snoopPages ranges).all s.host.answered.contains

/-- The snoops that some reads still need: 16 blocks of 4 lines for a page. -/
def issueSnoops (ranges : List (Nat × Nat)) (s : State) : State :=
  let new := (s.snoopPages ranges).filter fun p => !s.host.answered.contains p && !s.host.snooping.contains p
  countEv idHost 5 4 (16 * new.length) {} (s.modHost fun h =>
    { h with snooping := h.snooping ++ new, biSnoops := h.biSnoops + BitVec.ofNat 64 (16 * new.length) })

/-- The answers that some reads have used. -/
def clearSnoops (ranges : List (Nat × Nat)) (s : State) : State :=
  let pages := s.snoopPages ranges
  s.modHost fun h => { h with answered := h.answered.filter fun p => !pages.contains p }

/-- Some of the reads go to the host. -/
def readsHost (ranges : List (Nat × Nat)) : Bool := ranges.any fun r => r.2 ≠ 0 && deviceOf r.1 = 0

/-- Reads of host addresses run once every snoop of their intake pages is answered, and issue them until then; while the link is
down they wait (R392, R434). -/
def withSnoops (ranges : List (Nat × Nat)) (run : State → State) (s : State) : State :=
  if readsHost ranges && !s.hostPath then s
  else if s.snooped ranges then run (clearSnoops ranges s) else issueSnoops ranges s

/-! ### Buffers of the host (R40, R391) -/

/-- Bytes of a buffer that a descriptor names: from the intake region as this device holds it, and otherwise as its read of
host memory delivered them. -/
def readHost (addr n : Nat) (given : Bytes) (s : State) : Word16 × Bytes × State :=
  match s.windowOffset addr with
  | none => (0, fit n given, hostRead addr n s)
  | some off =>
    let a := s.hbm.intakeBase.toNat + off
    let r := peek s a n
    (if s.intakeState ≠ 2 then 0x321 else if r.poison then 0x301 else r.code, r.data, touch [(a, n)] s)

/-- Several buffers read one after another: the first code that is not 0, and what each delivered. -/
def readHosts (reads : List (Nat × Nat × Bytes)) (s : State) : Word16 × List Bytes × State :=
  reads.foldl (fun (a : Word16 × List Bytes × State) r =>
    let (c, b, s) := readHost r.1 r.2.1 r.2.2 a.2.2
    (if a.1 ≠ 0 then a.1 else c, a.2.1 ++ [b], s)) (0, [], s)

/-- Everything a stack held is gone and every page free (R264, R269). -/
def eraseStack (n : Nat) (s : State) : State :=
  { s with
    mem := s.mem.filter fun c => c.1 / 2 ^ 36 ≠ n
    pageMap := s.pageMap.filter fun e => e.1 / 2 ^ 24 ≠ n
    hbm := { s.hbm with intakeErrs := s.hbm.intakeErrs.filter fun e => e.1 / 2 ^ 30 ≠ n } }

end Sys2Proof.Machine
end

