-- ==== Sys2Proof/Machine/FabricOps.lean ====
section
/-! DEFINITION. Shared operations of the fabric: packets (R324), routing (R326 to R328), epochs served (R76), the
keyring check (R339 to R341), issuing accesses and messages (R331 to R337), and policers (R360, R361). -/

namespace Sys2Proof.Machine

/-! ### Hash and CRC -/

/-- H of R299. -/
def hashH (g : Nat) : Nat := ((g % 2 ^ 32 ^^^ g / 2 ^ 32) * 0x9E3779B9) % 2 ^ 32 / 2 ^ 16

/-- One bit of CRC-32C, reflected (polynomial 1EDC6F41h, R320). -/
def crcBit (c : Nat) : Nat := if c % 2 = 1 then c / 2 ^^^ 0x82F63B78 else c / 2

/-- CRC-32C of a byte sequence: initial value and final inversion all ones (R320). -/
def crc32c (bs : Bytes) : Nat :=
  (bs.foldl (fun c b => crcBit (crcBit (crcBit (crcBit (crcBit (crcBit (crcBit (crcBit (c ^^^ b.toNat))))))))) 0xFFFFFFFF)
    ^^^ 0xFFFFFFFF

/-! ### Packets (R324) -/

/-- The fields of a packet header but those the link layer owns. -/
structure PktF where
  type   : Nat
  tclass : Nat
  vc     : Nat := 0
  hops   : Nat
  dst    : Nat
  src    : Nat
  island : Nat
  poison : Bool := false
  tag    : Nat
  tenant : Nat := 0
  sys    : Bool := false
  plen   : Nat := 0
  addr   : Nat := 0
  scope  : Nat := 0
  scopeId : Nat := 0
  epoch  : Nat := 0
  penRef : Nat := 0
  rlen   : Nat := 0
  seg    : Nat := 0
  code   : Nat := 0
  deriving DecidableEq, Repr

/-- W0 to W7 of a header, LSEQ, LACK and HCRC still 0. -/
def PktF.words (p : PktF) : Words :=
  [field 56 (p.type % 256) ||| field 53 (p.tclass % 8) ||| field 52 (p.vc % 2) ||| field 48 (p.hops % 16)
      ||| field 34 (p.dst % 2 ^ 14) ||| field 20 (p.src % 2 ^ 14) ||| field 11 (p.island % 512) ||| field 10 p.poison.toNat,
   field 40 (p.tag % 2 ^ 24) ||| field 28 (p.tenant % 4096) ||| field 27 p.sys.toNat ||| field 14 (p.plen % 2 ^ 13),
   field 0 p.addr,
   field 62 (p.scope % 4) ||| field 32 (p.scopeId % 2 ^ 16) ||| field 0 (p.epoch % 2 ^ 32),
   field 0 p.penRef,
   field 32 (p.rlen % 2 ^ 32) ||| field 16 (p.seg % 2 ^ 16) ||| field 0 (p.code % 2 ^ 16),
   0, 0]

/-- A header's own CRC, of W0 to W6 (R324). -/
def headerCrc (h : Words) : Nat := crc32c (bytesOf (fitWords 7 h))
where
  /-- Exactly n words. -/
  fitWords (n : Nat) (h : Words) : Words := (List.range n).map (word h)

end Sys2Proof.Machine

namespace Sys2Proof
open Sys2Proof.Machine

/-! ### Reading a packet (R324) -/

def Packet.type (p : Packet) : Nat := bits (word p.hdr 0) 63 56
def Packet.tclass (p : Packet) : Nat := bits (word p.hdr 0) 55 53
def Packet.vc (p : Packet) : Nat := bits (word p.hdr 0) 52 52
def Packet.hops (p : Packet) : Nat := bits (word p.hdr 0) 51 48
def Packet.dst (p : Packet) : Nat := bits (word p.hdr 0) 47 34
def Packet.src (p : Packet) : Nat := bits (word p.hdr 0) 33 20
def Packet.island (p : Packet) : Nat := bits (word p.hdr 0) 19 11
def Packet.tag (p : Packet) : Nat := bits (word p.hdr 1) 63 40
def Packet.tenant (p : Packet) : Nat := bits (word p.hdr 1) 39 28
def Packet.sys (p : Packet) : Bool := bit (word p.hdr 1) 27
def Packet.plen (p : Packet) : Nat := bits (word p.hdr 1) 26 14
def Packet.addr (p : Packet) : Nat := (word p.hdr 2).toNat
def Packet.rlen (p : Packet) : Nat := bits (word p.hdr 5) 63 32
def Packet.seg (p : Packet) : Nat := bits (word p.hdr 5) 31 16
def Packet.code (p : Packet) : Word16 := BitVec.ofNat 16 (bits (word p.hdr 5) 15 0)
def Packet.lseq (p : Packet) : Word16 := BitVec.ofNat 16 (bits (word p.hdr 6) 63 48)
def Packet.lack (p : Packet) : Word16 := BitVec.ofNat 16 (bits (word p.hdr 6) 47 32)

/-- Bytes on the wire: header, payload, and a trailer when there is a payload (R324). -/
def Packet.wire (p : Packet) : Nat := 64 + p.payload.length + (if p.payload = [] then 0 else 16)

/-- The trailer of a packet with a payload: its CRC, and its poisoned lines (R324). -/
def Packet.trailer (p : Packet) : Words := if p.payload = [] then [] else [field 32 (crc32c p.payload), p.lpoison]

/-- Credit a packet takes: its wire size rounded up to 64 B (R321). -/
def Packet.cost (p : Packet) : Nat := ceilDiv p.wire 64 * 64

/-- The egress queue of a class and channel (R353). -/
def Packet.queue (p : Packet) : Nat := 2 * p.tclass + p.vc

end Sys2Proof

namespace Sys2Proof.Machine

/-! ### Routing (R326, R327) -/

def State.deviceId (s : State) : Nat := s.fabric.deviceId

/-- The routing entry in force for a device (R326): before any image, only the device's own. -/
def State.route (s : State) (dst : Nat) : Word64 :=
  if s.fabric.routed then tget 0 s.fabric.routes dst
  else if dst = s.deviceId then field 63 1 else 0

/-- The Ready links of a device's entry, ascending (R322, R327). -/
def State.routeLinks (s : State) (dst : Nat) : List Nat :=
  if bit (s.route dst) 63 then
    (List.range 48).filter fun l => bit (s.route dst) l && decide ((s.link l).fn = .ready)
  else []

/-- The link a packet with this key leaves on (R327). -/
def State.linkFor (s : State) (dst key : Nat) : Option Nat :=
  let ls := s.routeLinks dst
  ls[hashH key % ls.length]?

/-- The key of reads and messages (R327). -/
def accessKey (src island tag : Nat) : Nat := src * 2 ^ 33 + island * 2 ^ 24 + tag

/-- The die of an island (R15). -/
def dieOf (i : Nat) : Nat :=
  if i < 0x100 then i / 128
  else if i < 0x110 then (i - 0x100) / 8
  else if i < 0x11C then (i - 0x110) / 6
  else if i < 0x12C then (i - 0x120) / 6
  else if i = 0x133 ∨ i = 0x134 then 1 else 0

/-- A link island with a Ready link (R327). -/
def State.linkIslandReady (s : State) (n : Nat) : Bool := (List.range 4).any fun k => decide ((s.link (4 * n + k)).fn = .ready)

/-- The link island that checks an access to the device's own id (R327). -/
def State.loopIsland (s : State) (i : Nat) : Nat :=
  let die := dieOf i
  let first := i % 6
  match (List.range 6).find? fun k => s.linkIslandReady ((first + k) % 6 + 6 * die) with
  | some k => (first + k) % 6 + 6 * die
  | none =>
    if s.inService (idLink (first + 6 * die)) then first + 6 * die
    else match (List.range 12).find? fun n => s.inService (idLink n) with
      | some n => n
      | none => first + 6 * die

/-! ### Epochs served here (R76) -/

/-- The registration slot that holds a corpus (R90). -/
def State.corpusSlot (s : State) (id : Nat) : Option Nat :=
  (s.corpora.find? fun e => e.2.desc != 0 && e.2.id.toNat = id).map Prod.fst

/-- An access with this scope and epoch is at or above the floor served here (R76, R314): scope 1 a corpus, 2 a pen,
3 a table. -/
def State.floorOk (s : State) (scope scopeId epoch penRef : Nat) : Bool :=
  if scope = 1 then match s.corpusSlot scopeId with
    | some n => (s.corpus n).floor.toNat ≤ epoch
    | none => true
  else if scope = 2 then
    deviceOf penRef ≠ s.deviceId || bits (peekWord s (penRef % 2 ^ 50 + 8)) 31 0 ≤ epoch
  else if scope = 3 then (s.tableSlot scopeId).floor.toNat ≤ epoch
  else true

/-! ### The keyring (R338 to R341) -/

def modFabric (f : Fabric → Fabric) (s : State) : State := { s with fabric := f s.fabric }
def modKeyring (f : Keyring → Keyring) (s : State) : State := { s with keyring := f s.keyring }

/-- The rights, as the bits of W0 (R338). -/
def rightBit : Nat → Nat
  | 0 => 20 | 1 => 19 | 2 => 18 | _ => 17

/-- An entry passes an access piece (R339). -/
def keyPasses (w0 w1 : Word64) (right addr n group : Nat) (sys : Bool) : Bool :=
  let base := bits w0 63 26 * 2 ^ 26
  let size := 2 ^ (26 + bits w0 25 22)
  bit w0 21 && base ≤ addr && addr + n ≤ base + size && bit w0 (rightBit right) && (if sys then bit w0 16 else bit w1 group)

/-- The lowest entry that passes (R339). -/
def State.keyHit (s : State) (right addr n tenant : Nat) (sys : Bool) : Option Nat :=
  (s.keyring.entries.find? fun e => keyPasses e.2.w0 e.2.w1 right addr n (tget 0 s.keyring.groups tenant) sys).map Prod.fst

/-- The check made in a link island: its use recorded to 1 µs (R344), its counts kept (R451). -/
def keyCheck (isl right addr n tenant : Nat) (sys : Bool) (s : State) : Bool × State :=
  let s := countEv (idLink isl) 4 3 1 { tenant := some tenant } s
  match s.keyHit right addr n tenant sys with
  | some e => (true, modKeyring (fun k => { k with entries := tmod {} k.entries e fun x => { x with used := field 0 (s.time.toNat / 1000) } }) s)
  | none => (false, countEv (idLink isl) 4 4 1 { tenant := some tenant } (modKeyring (fun k => { k with misses := k.misses + 1 }) s))

/-! ### Sending (R327, R333, R335) -/

/-- A packet enters the egress queue of its class and channel on a link (R353). -/
def enqueue (l : Nat) (p : Packet) (s : State) : State :=
  s.modLink l fun k => { k with queues := tmod [] k.queues p.queue (· ++ [{ pkt := p, at_ := s.timeAt (linkIsland l) }]) }

/-- The next tag of an island: 24 bits, in order, so that none is reused for 2^24 accesses (R333). -/
def takeTag (island : Nat) (s : State) : Nat × State :=
  (tget 0 s.fabric.nextTag island,
   modFabric (fun f => { f with nextTag := tset 0 f.nextTag island ((tget 0 f.nextTag island + 1) % 2 ^ 24) }) s)

/-! ### Accesses a command makes in one step (stage commands, R331) -/

/-- A hall access: where, how much, by what right, for whom, at which epoch. -/
structure HallAcc where
  addr   : Nat
  len    : Nat
  right  : Nat
  tenant : Nat
  sys    : Bool := false
  island : Nat
  tclass : Nat := 0
  scope  : Nat := 0
  scopeId : Nat := 0
  epoch  : Nat := 0
  penRef : Nat := 0
  deriving DecidableEq, Repr

/-- What became of an access. -/
inductive HallOut where
  | data (bs : Bytes) (poison : Bool)
  | fail (code : Word16)
  | miss (addr : Nat)
  | absent
  deriving DecidableEq, Repr

/-- A range cut at 64 KiB boundaries (R331). -/
def blockCuts : Nat → Nat → Nat → List (Nat × Nat)
  | 0, _, _ => []
  | f + 1, a, n =>
    if n = 0 then []
    else
      let m := min n (65536 - a % 65536)
      (a, m) :: blockCuts f (a + m) (n - m)

def blocksOf (a n : Nat) : List (Nat × Nat) := blockCuts (n / 65536 + 2) a n

/-- The request packet of a piece leaves for its device (R324, R331). -/
def sendAccess (a : HallAcc) (addr len : Nat) (s : State) : State :=
  let (tag, s) := takeTag a.island s
  match s.linkFor (deviceOf addr) (accessKey s.deviceId a.island tag) with
  | none => s
  | some l =>
    let p : PktF :=
      { type := a.right + 1, tclass := a.tclass, hops := s.fabric.hopLimit, dst := deviceOf addr, src := s.deviceId
        island := a.island, tag := tag, tenant := a.tenant, sys := a.sys, addr := addr, scope := a.scope
        scopeId := a.scopeId, epoch := a.epoch, penRef := a.penRef, rlen := len }
    enqueue l ⟨p.words, [], 0⟩ s

/-- A miss stays unresolved (R346): counted, and noted for the drover's cluster (R440). -/
def unresolved (cluster tenant : Nat) (s : State) : State :=
  notable (idCluster cluster) 8 tenant (modKeyring (fun k => { k with unresolved := k.unresolved + 1 }) s)

/-- One piece of a hall access: routing, keyring, epoch, and the data, from this device's HBM or from the reply that
`remote` lists. -/
def hallPiece (a : HallAcc) (remote : List Fetch) (addr len : Nat) (s : State) : HallOut × State :=
  let dev := deviceOf addr
  let isl := if dev = s.deviceId then some (s.loopIsland a.island)
    else (s.linkFor dev (accessKey s.deviceId a.island (tget 0 s.fabric.nextTag a.island))).map (· / 4)
  match isl with
  | none => (.fail 0x403, s)
  | some isl =>
    let (ok, s) := keyCheck isl a.right addr len a.tenant a.sys s
    if !ok then (.miss addr, s)
    else if dev = s.deviceId then
      if !s.floorOk a.scope a.scopeId a.epoch a.penRef then
        (.fail 0x312, { s with publish := { s.publish with floorFails := s.publish.floorFails + 1 } })
      else
        let r := peek s addr len
        if r.code ≠ 0 then (.fail r.code, s) else (.data r.data r.poison, touch [(addr, len)] s)
    else match remote.find? fun f => f.addr.toNat = addr with
      | none => (.absent, s)
      | some f =>
        let s := sendAccess a addr len s
        if f.code ≠ 0 then (.fail f.code, s) else (.data (fit len f.data) f.poison, s)

/-- A whole hall access: its pieces in order, stopping at the first that does not deliver (R331). -/
def hallRead (a : HallAcc) (remote : List Fetch) (s : State) : HallOut × State :=
  (blocksOf a.addr a.len).foldl (fun acc c =>
    match acc.1 with
    | .data bs p =>
      match hallPiece a remote c.1 c.2 acc.2 with
      | (.data b q, s) => (.data (bs ++ b) (p || q), s)
      | r => r
    | _ => acc) (.data [] false, s)

/-- The class of firmware and table traffic (R352). -/
def State.sysClass (s : State) : Nat := s.fabric.sysClass

/-- The payload lines of a body part. -/
def linesPad (bs : Bytes) : Bytes := fit (ceilDiv bs.length 64 * 64) bs

/-- A message of whole words to a device, in the class given; to this device it is looped back (R326, R335). Answers
whether it could be sent (R328). -/
def sendMsg (dst : Nat) (body : Words) (reply : Bool) (tclass tenant : Nat) (sys : Bool) (island : Nat) (s : State) :
    Bool × State :=
  if dst = s.deviceId then (true, modFabric (fun f => { f with loop := f.loop ++ [body] }) s)
  else
    let (tag, s) := takeTag island s
    match s.linkFor dst (accessKey s.deviceId island tag) with
    | none => (false, s)
    | some l =>
      let bytes := bytesOf body
      let parts := chunks 4096 (bytes.length / 4096 + 1) bytes
      (true, (parts.zipIdx).foldl (fun s (part, i) =>
        let pay := linesPad part
        enqueue l ⟨({ type := if reply then 0x90 else 0x10, tclass := tclass, vc := reply.toNat, hops := s.fabric.hopLimit,
                      dst := dst, src := s.deviceId, island := island, tag := tag, tenant := tenant, sys := sys,
                      plen := pay.length, rlen := bytes.length, seg := i : PktF }).words, pay, 0⟩ s) s)

/-- A message that arrives: a looped-back one leaves the loop. -/
def takeLoop (body : Words) (s : State) : State := modFabric (fun f => { f with loop := f.loop.erase body }) s

/-- The common message header (R335). -/
def msgKind (b : Words) : Nat := bits (word b 0) 63 56
def msgHandle (b : Words) : Word32 := BitVec.ofNat 32 (bits (word b 0) 31 0)
def msgDevice (b : Words) : Nat := bits (word b 1) 63 50
def msgW0 (kind : Nat) (mid : Nat) (handle : Word32) : Word64 :=
  field 56 kind ||| field 52 1 ||| field 32 (mid % 2 ^ 20) ||| field 0 handle.toNat
def msgW1 (device : Nat) (rest : Nat) : Word64 := field 50 (device % 2 ^ 14) ||| field 0 (rest % 2 ^ 50)

/-- A message of a request whose kill notice came within its window is discarded (R336). -/
def State.killed (s : State) (device : Nat) (handle : Word32) : Bool :=
  s.fabric.kills.any fun k => k.device = device && k.handle = handle && decide (s.time < k.until_)

/-! ### Policers (R360, R361) -/

/-- The colours, as R361 numbers them. -/
def clGreen : Nat := 0
def clYellow : Nat := 1
def clRed : Nat := 2

/-- A bucket filled up to `now`: rate × elapsed, up to its size; tokens in 1/65,536 of the unit, `num/den` of them a
nanosecond per unit of rate. -/
def refill (w0 w1 : Word64) (b : Bucket) (now : Word64) (num den : Nat) : Bucket :=
  let dt := (now - b.at_).toNat
  { tc := min (bits w1 31 16 * 65536) (b.tc + bits w0 31 0 * dt * num / den)
    tp := min (bits w1 15 0 * 65536) (b.tp + bits w1 63 32 * dt * num / den)
    at_ := now, used := true }

/-- The marking of R361 on filled buckets: the colour and the buckets after. -/
def mark (mode c cost : Nat) (b : Bucket) : Nat × Bucket :=
  if mode = 1 then
    if c = clRed || b.tp < cost then (clRed, b)
    else if c = clYellow || b.tc < cost then (clYellow, { b with tp := b.tp - cost })
    else (clGreen, { b with tp := b.tp - cost, tc := b.tc - cost })
  else if mode = 2 then
    if c = clRed then (clRed, b)
    else if c = clYellow then (if b.tp < cost then (clRed, b) else (clYellow, { b with tp := b.tp - cost }))
    else if b.tc < cost then (if b.tp < cost then (clRed, b) else (clYellow, { b with tp := b.tp - cost }))
    else (clGreen, { b with tc := b.tc - cost })
  else (clGreen, b)

/-- One metering by a record: the colour and the buckets after (R361); a colour-blind record takes everything as green. -/
def meter (w0 w1 : Word64) (b : Bucket) (now : Word64) (num den c cost : Nat) : Nat × Bucket :=
  if bits w0 63 62 = 0 then (clGreen, b)
  else mark (bits w0 63 62) (if bit w0 61 then c else clGreen) cost (refill w0 w1 b now num den)

/-- Both buckets full (R360). -/
def fullBucket (w1 : Word64) (now : Word64) : Bucket := ⟨bits w1 31 16 * 65536, bits w1 15 0 * 65536, now, true⟩

/-- The counts of a policer after a packet or descriptor of a colour (R362). -/
def Policer.counted (p : Policer) (colour : Nat) : Policer :=
  if colour = clRed then { p with red := p.red + 1 }
  else if colour = clYellow then { p with yellow := p.yellow + 1 }
  else { p with green := p.green + 1 }

end Sys2Proof.Machine
end

