-- ==== Sys2Proof/Machine/Float.lean ====
section
/-! DEFINITION. FP32 arithmetic by exact values and one rounding to nearest-even (R170, R179, R194 to R196). -/

namespace Sys2Proof.Machine

/-- An exact number of the array or vector unit: m × 2^e with a sign, so that zeros keep theirs. -/
inductive Num where
  | nan
  | inf (neg : Bool)
  | fin (neg : Bool) (m : Nat) (e : Int)
  deriving DecidableEq, Repr

/-- The vector unit's only NaN (R194). -/
def qnan : Word32 := 0x7FC00000
def posInf : Word32 := 0x7F800000
def negInf : Word32 := 0xFF800000
def oneF : Word32 := 0x3F800000

/-- n divided by 2^k, rounded to nearest with ties to even. -/
def rneShift (n k : Nat) : Nat :=
  let q := n / 2 ^ k
  let r := n % 2 ^ k
  if 2 * r < 2 ^ k then q else if 2 ^ k < 2 * r then q + 1 else q + q % 2

/-- m × 2^e rounded to nearest-even to `mant` mantissa bits, its last place at or above 2^low: (m', e'). -/
def roundMag (m : Nat) (e : Int) (mant : Nat) (low : Int) : Nat × Int :=
  if m = 0 then (0, low)
  else
    let q := max ((Nat.log2 m : Int) + e - mant) low
    if q ≤ e then (m * 2 ^ (e - q).toNat, q) else (rneShift m (q - e).toNat, q)

/-- The magnitude code of a rounded value in a format with `mant` mantissa bits (subnormals and carries come out alike). -/
def magCode (r : Nat × Int) (mant : Nat) (low : Int) : Nat :=
  if r.1 = 0 then 0 else (r.2 - low).toNat * 2 ^ mant + r.1

/-- An FP32 pattern's number (R170). -/
def numOf (w : Word32) : Num :=
  let e := bits w 30 23
  let m := bits w 22 0
  if e = 255 then (if m = 0 then .inf (bit w 31) else .nan)
  else if e = 0 then .fin (bit w 31) m (-149)
  else .fin (bit w 31) (m + 2 ^ 23) ((e : Int) - 150)

/-- The FP32 pattern nearest to a number (R194); a magnitude beyond the largest finite is infinite. -/
def roundF (n : Num) : Word32 :=
  match n with
  | .nan => qnan
  | .inf s => if s then negInf else posInf
  | .fin s m e =>
    let c := magCode (roundMag m e 23 (-149)) 23 (-149)
    field 31 s.toNat ||| (if 0x7F800000 ≤ c then posInf else BitVec.ofNat 32 c)

/-- Signed integer at exponent e. -/
def sgnInt (s : Bool) (m : Nat) : Int := if s then -(m : Int) else m

/-- Exact sum, with the IEEE 754 sign of a zero sum under round-to-nearest. -/
def numAdd (a b : Num) : Num :=
  match a, b with
  | .nan, _ => .nan
  | _, .nan => .nan
  | .inf s, .inf t => if s = t then .inf s else .nan
  | .inf s, .fin _ _ _ => .inf s
  | .fin _ _ _, .inf t => .inf t
  | .fin s m e, .fin t n f =>
    let g := min e f
    let x := sgnInt s (m * 2 ^ (e - g).toNat) + sgnInt t (n * 2 ^ (f - g).toNat)
    if x = 0 then .fin (s && t) 0 g else .fin (decide (x < 0)) x.natAbs g

def numNeg : Num → Num
  | .nan => .nan
  | .inf s => .inf (!s)
  | .fin s m e => .fin (!s) m e

/-- Exact product. -/
def numMul (a b : Num) : Num :=
  match a, b with
  | .nan, _ => .nan
  | _, .nan => .nan
  | .inf s, .inf t => .inf (s != t)
  | .inf s, .fin t n _ => if n = 0 then .nan else .inf (s != t)
  | .fin s m _, .inf t => if m = 0 then .nan else .inf (s != t)
  | .fin s m e, .fin t n f => .fin (s != t) (m * n) (e + f)

def fadd (a b : Word32) : Word32 := roundF (numAdd (numOf a) (numOf b))
def fsub (a b : Word32) : Word32 := roundF (numAdd (numOf a) (numNeg (numOf b)))
def fmul (a b : Word32) : Word32 := roundF (numMul (numOf a) (numOf b))
/-- a × b + c with one rounding (R194). -/
def ffma (a b c : Word32) : Word32 := roundF (numAdd (numMul (numOf a) (numOf b)) (numOf c))

def isNan (w : Word32) : Bool := decide (numOf w = .nan)
/-- The order-preserving image of a canonical score (R116). -/
def ops (b : Word32) : Nat := if bit b 31 then (~~~b).toNat else (b ||| 0x80000000).toNat

/-- a below b in the total order of patterns in which −0.0 lies below +0.0. -/
def patLt (a b : Word32) : Bool := ops a < ops b

def fmin (a b : Word32) : Word32 := if isNan a || isNan b then qnan else if patLt b a then b else a
def fmax (a b : Word32) : Word32 := if isNan a || isNan b then qnan else if patLt a b then b else a

/-- −0.0 taken as +0.0, for comparisons. -/
def plusZero (a : Word32) : Word32 := if a = 0x80000000 then 0 else a
def fcmpEq (a b : Word32) : Bool := !isNan a && !isNan b && decide (plusZero a = plusZero b)
def fcmpLt (a b : Word32) : Bool := !isNan a && !isNan b && patLt (plusZero a) (plusZero b)
def fcmpLe (a b : Word32) : Bool := fcmpLt a b || fcmpEq a b
def fabs (a : Word32) : Word32 := if isNan a then qnan else a &&& 0x7FFFFFFF
def fneg (a : Word32) : Word32 := if isNan a then qnan else a ^^^ 0x80000000

/-! ### Reductions (R125, R196) -/

/-- Elements l, l + 64, … of a list. -/
def lane {α : Type} (l : Nat) (xs : List α) : List α :=
  (xs.zipIdx.filter fun p => p.2 % 64 = l).map Prod.fst

/-- One pairwise level: places 2i and 2i + 1. -/
def pairUp {α : Type} (f : α → α → α) : List α → List α
  | a :: b :: t => f a b :: pairUp f t
  | l => l

/-- Six levels over 64 lanes; the value of lane 0. -/
def tree {α : Type} (f : α → α → α) (d : α) (lanes : List α) : α :=
  (pairUp f (pairUp f (pairUp f (pairUp f (pairUp f (pairUp f lanes)))))).headD d

/-- Sum: each lane from +0.0 upward, then the tree (R196). -/
def reduceSum (xs : List Word32) : Word32 :=
  tree fadd 0 ((List.range 64).map fun l => (lane l xs).foldl fadd 0)

/-- Inner product: each lane by fma from +0.0, then the tree of additions (R125, R196). -/
def dotF (xs ys : List Word32) : Word32 :=
  tree fadd 0 ((List.range 64).map fun l => (lane l (xs.zip ys)).foldl (fun s p => ffma p.1 p.2 s) 0)

/-- MIN or MAX: each lane from its first element; a lane without elements takes no part (R196). -/
def reduceBy (f : Word32 → Word32 → Word32) (xs : List Word32) : Word32 :=
  let lanes := (List.range 64).map fun l =>
    match lane l xs with
    | [] => none
    | a :: t => some (t.foldl f a)
  let opt : Option Word32 → Option Word32 → Option Word32 := fun a b =>
    match a, b with
    | some x, some y => some (f x y)
    | some x, none => some x
    | none, y => y
  (tree opt none lanes).getD 0

/-! ### Selection (R115 to R119) -/

/-- A canonical score: NaN to −∞, −0.0 to +0.0 (R115). -/
def canon (s : Word32) : Word32 := if isNan s then negInf else plusZero s

/-- The upper half of a selection key: larger scores first (R116). -/
def selKey (s : Word32) : Nat := 2 ^ 32 - 1 - ops s

/-- Selection order between (score, id) pairs: descending score, then ascending id (R11, R116). -/
def selLe (a b : Word32 × Nat) : Bool := selKey a.1 < selKey b.1 || (selKey a.1 = selKey b.1 && a.2 ≤ b.2)

end Sys2Proof.Machine
end

