-- ==== Sys2Proof/Machine/Special.lean ====
section
/-! DEFINITION. The special functions of the vector unit (R195): the exact special cases, and elsewhere a free value held to the
error bound. The exact real results are computed in fixed point, 2^256 to the unit, closely enough that no bound is cut short. -/

namespace Sys2Proof.Machine

/-- The special functions (R195). -/
inductive Special where
  | exp | exp2 | log | recip | rsqrt | sigmoid | tanh | silu | gelu
  deriving DecidableEq, Repr

/-- The value of an integral FP32 number, if it is one. -/
def integral : Num → Option Int
  | .fin s m e =>
    if 0 ≤ e then some (sgnInt s (m * 2 ^ e.toNat))
    else if m % 2 ^ (-e).toNat = 0 then some (sgnInt s (m / 2 ^ (-e).toNat)) else none
  | _ => none

/-! ### Real values in fixed point -/

/-- The fixed-point unit. -/
def fxOne : Int := 2 ^ 256
def fxMul (a b : Int) : Int := a * b / fxOne
def fxDiv (a b : Int) : Int := if b = 0 then 0 else a * fxOne / b
/-- A finite FP32 number, exactly. -/
def fxOf : Num → Int
  | .fin s m e => sgnInt s (if -256 ≤ e then m * 2 ^ (e + 256).toNat else m / 2 ^ (-256 - e).toNat)
  | _ => 0

/-- The sum of x^i / i! from the term at hand, n terms on. -/
def expSeries (x : Int) : Nat → Nat → Int → Int
  | 0, _, _ => 0
  | n + 1, i, term => term + expSeries x n (i + 1) (fxMul term x / (i + 1 : Nat))
/-- The sum of z^(2i + 1) / (2i + 1) from the power at hand, n terms on. -/
def atanhSeries (z2 : Int) : Nat → Nat → Int → Int
  | 0, _, _ => 0
  | n + 1, i, pow => pow / (2 * i + 1 : Nat) + atanhSeries z2 n (i + 1) (fxMul pow z2)
/-- ln of a value from 1 to 2. -/
def lnNear (a : Int) : Int :=
  let z := fxDiv (a - fxOne) (a + fxOne)
  2 * atanhSeries (fxMul z z) 90 0 z
def fxLn2 : Int := lnNear (2 * fxOne)

/-- e^x; beyond ±1,000 the exponent counts as ±1,000, where no bound tells the results apart. -/
def fxExp (x : Int) : Int :=
  let x := max (-1000 * fxOne) (min (1000 * fxOne) x)
  let k := x / fxLn2
  let p := expSeries (x - k * fxLn2) 70 0 fxOne
  if 0 ≤ k then p * 2 ^ k.toNat else p / 2 ^ (-k).toNat
/-- 1 ÷ (1 + e^−x). -/
def fxSigmoid (x : Int) : Int :=
  if 0 ≤ x then fxDiv fxOne (fxOne + fxExp (-x))
  else
    let p := fxExp x
    fxDiv p (fxOne + p)
/-- ln x of a positive number. -/
def fxLn : Num → Int
  | .fin _ m e =>
    let k : Int := Nat.log2 m
    lnNear (if k ≤ 256 then (m : Int) * 2 ^ (256 - k).toNat else (m : Int) / 2 ^ (k - 256).toNat) + (k + e) * fxLn2
  | _ => 0

/-- The exact result of a function on a finite operand that is no special case (R195). -/
def fxSpecial (f : Special) (n : Num) : Int :=
  let x := fxOf n
  match f with
  | .exp => fxExp x
  | .exp2 => fxExp (fxMul x fxLn2)
  | .log => fxLn n
  | .recip => fxDiv fxOne x
  | .rsqrt => Nat.sqrt (fxDiv (fxOne * fxOne) x).toNat
  | .sigmoid => fxSigmoid x
  | .tanh =>
    let p := fxExp (-2 * (if x < 0 then -x else x))
    let t := fxDiv (fxOne - p) (fxOne + p)
    if x < 0 then -t else t
  | .silu => fxMul x (fxSigmoid x)
  | .gelu => fxMul x (fxSigmoid (2 * ((x + fxMul (fxMul x x) x * 44715 / 1000000) * 7978846 / 10000000)))

/-! ### The bound -/

/-- The largest error, in units of the last place of the exact result. -/
def Special.ulps : Special → Nat
  | .sigmoid | .tanh => 2
  | .silu => 3
  | .gelu => 4
  | _ => 1

/-- One unit of the last place of an exact result. -/
def fxUlp (y : Int) : Int := 2 ^ (max ((Nat.log2 y.natAbs : Int) - 256) (-126) + 233).toNat

/-- An FP32 value lies within a function's bound of the exact result. -/
def Special.within (f : Special) (y : Int) (w : Word32) : Bool :=
  match numOf w with
  | .fin s m e => decide ((fxOf (.fin s m e) - y).natAbs ≤ (f.ulps * fxUlp y + fxUlp y / 2 ^ 30).natAbs)
  | _ => false

/-- The value of a special function that its tables give: a free value of function and operand. -/
opaque Config.special : Special → Word32 → Word32

/-- A finite result: the tables' value, which the bound holds (R195). An exact result above the largest finite is +∞ for EXP and EXP2; for
the others no FP32 value then meets the bound, and the result is open. -/
def bounded (f : Special) (x : Word32) : Word32 :=
  let y := fxSpecial f (numOf x)
  let near := roundF (.fin (decide (y < 0)) y.natAbs (-256))
  if (f = .exp ∨ f = .exp2) ∧ fxOf (numOf 0x7F7FFFFF) < y then posInf
  else if f.within y (Config.special f x) ∨ !f.within y near then Config.special f x
  else near

/-- R195: the exact special cases, and elsewhere a value within the bound (log 13). -/
def special (f : Special) (x : Word32) : Word32 :=
  let n := numOf x
  let neg := bit x 31
  match n with
  | .nan => qnan
  | .inf s => match f with
    | .exp | .exp2 => if s then 0 else posInf
    | .log | .rsqrt => if s then qnan else (if f = .log then posInf else 0)
    | .recip => if s then 0x80000000 else 0
    | .sigmoid => if s then 0 else oneF
    | .tanh => if s then 0xBF800000 else oneF
    | .silu | .gelu => if s then 0x80000000 else posInf
  | .fin _ m _ =>
    if m = 0 then match f with
      | .exp | .exp2 => oneF
      | .log => negInf
      | .recip | .rsqrt => if neg then negInf else posInf
      | .tanh => x
      | _ => bounded f x
    else match f with
      | .log => if neg then qnan else if x = oneF then 0 else bounded f x
      | .rsqrt => if neg then qnan else bounded f x
      | .exp2 => match integral n with
        | some k => if -149 ≤ k ∧ k ≤ 127 then roundF (.fin false 1 k) else bounded f x
        | none => bounded f x
      | _ => bounded f x

end Sys2Proof.Machine
end

