-- ==== Sys2Proof/Machine/Formats.lean ====
section
/-! DEFINITION. The element formats (R169 to R173), conversions (R174 to R176) and the three summation domains of the
array (R177 to R185). -/

namespace Sys2Proof.Machine

/-- What an element format is (R170): integers and BIN1 by width; floats by exponent width, mantissa width and bias, and
which specials they have (0 none, 1 E4M3's NaN, 2 IEEE). -/
inductive Elem where
  | bin
  | int (w : Nat)
  | flt (ew mw : Nat) (bias : Nat) (spec : Nat)
  deriving DecidableEq, Repr

def e2m1 : Elem := .flt 2 1 1 0
def e3m2 : Elem := .flt 3 2 3 0
def e5m2 : Elem := .flt 5 2 15 2
def e2m3 : Elem := .flt 2 3 1 0
def e4m3 : Elem := .flt 4 3 7 1

/-- The element of a format code, and whether the format is MX (R169, R170); no other value is valid. -/
def formatOf : Nat → Option (Elem × Bool)
  | 0x00 => some (.bin, false)
  | 0x01 => some (.int 2, false)
  | 0x02 => some (.int 4, false)
  | 0x03 => some (.int 8, false)
  | 0x04 => some (.int 16, false)
  | 0x05 => some (e2m1, false)
  | 0x06 => some (e3m2, false)
  | 0x07 => some (e5m2, false)
  | 0x08 => some (e2m3, false)
  | 0x09 => some (e4m3, false)
  | 0x0A => some (.flt 8 7 127 2, false)
  | 0x0B => some (.flt 5 10 15 2, false)
  | 0x0C => some (.flt 8 23 127 2, false)
  | 0x0D => some (e2m1, true)
  | 0x0E => some (e2m3, true)
  | 0x2E => some (e3m2, true)
  | 0x0F => some (e4m3, true)
  | 0x2F => some (e5m2, true)
  | 0x10 => some (.int 8, true)
  | _ => none

def fmtFp32 : Nat := 0x0C

/-- Element width in bits, planes P and side bits (R170, R173). -/
def Elem.width : Elem → Nat
  | .bin => 1 | .int w => w | .flt ew mw _ _ => 1 + ew + mw
def Elem.planes : Elem → Nat
  | .bin => 1 | .int w => w | .flt _ mw _ _ => mw + 1
def Elem.side : Elem → Nat
  | .flt ew _ _ _ => 1 + ew | _ => 0
/-- Plain formats summed exactly (R177). -/
def Elem.exact : Elem → Bool
  | .flt _ _ _ 2 => false | _ => true
/-- The largest unbiased exponent of the format's finite values (R176). -/
def Elem.emax : Elem → Int
  | .flt ew _ bias spec => (2 ^ ew - 1 - (if spec = 2 then 1 else 0) : Nat) - (bias : Int)
  | _ => 0

/-- A float code's number from its sign, exponent field and σ (R170). -/
def fltNum (ew mw bias spec : Nat) (s : Bool) (e sig : Nat) : Num :=
  let top := decide (e = 2 ^ ew - 1)
  if spec = 2 && top then (if sig % 2 ^ mw = 0 then .inf s else .nan)
  else if spec = 1 && top && sig % 2 ^ mw = 2 ^ mw - 1 then .nan
  else .fin s sig ((max e 1 : Nat) - (bias : Int) - mw)

/-- An n-bit two's complement code. -/
def twos (w c : Nat) : Int := if 2 ^ (w - 1) ≤ c % 2 ^ w then (c % 2 ^ w : Nat) - (2 ^ w : Nat) else (c % 2 ^ w : Nat)

/-- An integer as a number. -/
def intNum (x : Int) (e : Int) : Num := .fin (decide (x < 0)) x.natAbs e

/-- An element code's number, unscaled (R170). -/
def Elem.num (f : Elem) (c : Nat) : Num :=
  match f with
  | .bin => if c % 2 = 1 then .fin false 1 0 else .fin true 1 0
  | .int w => intNum (twos w c) 0
  | .flt ew mw bias spec =>
    let e := c / 2 ^ mw % 2 ^ ew
    fltNum ew mw bias spec (c / 2 ^ (ew + mw) % 2 = 1) e (c % 2 ^ mw + if e = 0 then 0 else 2 ^ mw)

/-- A weight's number from its planes, plane 0 lowest, and its side word (R173). -/
def Elem.planeNum (f : Elem) (planes side : Nat) : Num :=
  match f with
  | .flt ew mw bias spec => fltNum ew mw bias spec (side / 2 ^ ew % 2 = 1) (side % 2 ^ ew) planes
  | f => f.num planes

/-- A number times 2^k. -/
def scaleNum (n : Num) (k : Int) : Num :=
  match n with
  | .fin s m e => .fin s m (e + k)
  | n => n

/-- The exponent an MX scale byte adds, −6 more for MXINT8 (R171); FFh is no exponent. -/
def mxExp (f : Elem) (x : Nat) : Int := (x : Int) - 127 + (match f with | .int _ => -6 | _ => 0)

/-- An element of a vector with its block's scale byte (R171); FFh makes it NaN. -/
def mxNum (f : Elem) (scale : Nat) (c : Nat) : Num := if scale = 255 then .nan else scaleNum (f.num c) (mxExp f scale)

/-! ### Vectors as they are stored (R172) -/

/-- The bytes of a vector of D elements (R172). -/
def vecBytes (code d : Nat) : Nat :=
  match formatOf code with
  | some (f, false) => ceilDiv (d * f.width) 8
  | some (f, true) => ceilDiv (32 * ceilDiv d 32 * f.width) 8 + ceilDiv d 32
  | none => 0

/-- Element j of a packed bit string. -/
def elemAt (n : Nat) (w j : Nat) : Nat := n / 2 ^ (w * j) % 2 ^ w

/-- The numbers of a stored vector of D elements, scale bytes behind the elements (R172). -/
def vecNums (code d : Nat) (bs : Bytes) : List Num :=
  match formatOf code with
  | some (f, false) => let n := leNat bs; (List.range d).map fun j => f.num (elemAt n f.width j)
  | some (f, true) =>
    let n := leNat bs
    let off := ceilDiv (32 * ceilDiv d 32 * f.width) 8
    (List.range d).map fun j => mxNum f ((bs.getD (off + j / 32) 0).toNat) (elemAt n f.width j)
  | none => []

/-- The numbers of a stored vector whose scale bytes stand apart. -/
def vecNumsApart (code d : Nat) (bs scales : Bytes) : List Num :=
  match formatOf code with
  | some (f, mx) =>
    let n := leNat bs
    (List.range d).map fun j =>
      if mx then mxNum f ((scales.getD (j / 32) 0).toNat) (elemAt n f.width j) else f.num (elemAt n f.width j)
  | none => []

/-- Widening to FP32 (R174): exact but for MX overflow, which is infinite; every NaN the one NaN. -/
def widen (n : Num) : Word32 := roundF n

/-- A packed bit string of elements of w bits. -/
def packElems (w : Nat) (cs : List Nat) : Nat := cs.foldr (fun c n => c % 2 ^ w + n * 2 ^ w) 0

/-! ### Narrowing (R175, R176) -/

/-- The nearest integer, ties to even. -/
def rneInt (s : Bool) (m : Nat) (e : Int) : Int :=
  sgnInt s (if 0 ≤ e then m * 2 ^ e.toNat else rneShift m (-e).toNat)

/-- Two's complement code of an integer held to w bits. -/
def clampInt (w : Nat) (x : Int) : Nat :=
  let hi : Int := 2 ^ (w - 1) - 1
  let lo : Int := -(2 ^ (w - 1))
  (BitVec.ofInt w (if hi < x then hi else if x < lo then lo else x)).toNat

/-- Narrowing a number to an element code (R175). -/
def narrow (f : Elem) (sat : Bool) (n : Num) : Nat :=
  match f with
  | .bin => match n with
    | .inf false => 1
    | .fin false m _ => if m = 0 then 0 else 1
    | _ => 0
  | .int w => match n with
    | .nan => 0
    | .inf s => clampInt w (if s then -(2 ^ w) else 2 ^ w)
    | .fin s m e => clampInt w (rneInt s m e)
  | .flt ew mw bias spec =>
    let sgn := fun (s : Bool) => if s then 2 ^ (ew + mw) else 0
    let low : Int := 1 - (bias : Int) - mw
    let top := (2 ^ ew - 1) * 2 ^ mw
    let big := if spec = 0 then top + 2 ^ mw - 1 else if spec = 1 then top + 2 ^ mw - 2 else top - 1
    let tooBig := fun (s : Bool) (isInf : Bool) =>
      sgn s + (if spec = 0 then big
        else if spec = 1 then (if sat then big else big + 1)
        else if sat && !isInf then big else top)
    match n with
    | .nan => if spec = 0 then 0 else if spec = 1 then 0x7F else if mw = 2 then 0x7F else top + 2 ^ (mw - 1)
    | .inf s => tooBig s true
    | .fin s m e =>
      let c := magCode (roundMag m e mw low) mw low
      if big < c then tooBig s false else sgn s + c

/-- Magnitude exponent ⌊log2 |n|⌋ of a finite number that is not zero. -/
def numLog2 : Num → Int
  | .fin _ m e => (Nat.log2 m : Int) + e
  | _ => 127

/-- Infinity counted as the FP32 largest finite (R176). -/
def finiteMag : Num → Num
  | .inf s => .fin s (2 ^ 24 - 1) 104
  | n => n

/-- Narrowing 32 values into one MX block: the scale byte and the element codes (R176). -/
def narrowBlock (f : Elem) (sat : Bool) (xs : List Num) : Nat × List Nat :=
  let isInf := fun n : Num => match n with | .inf _ => true | _ => false
  let isZero := fun n : Num => match n with | .fin _ 0 _ => true | _ => false
  if xs.any (fun n => n = .nan) || (!sat && xs.any isInf) then (255, xs.map fun _ => 0)
  else
    let fs := (xs.map finiteMag).filter fun n => !isZero n
    let x : Int := match fs with
      | [] => 127
      | a :: t =>
        let hi := t.foldl (fun h n => max h (numLog2 n)) (numLog2 a)
        max (-127) (min 127 (hi - f.emax)) + 127
    let adj : Int := match f with | .int _ => 6 | _ => 0
    (x.toNat, xs.map fun n => narrow f true (scaleNum n (127 - x + adj)))

/-! ### The summation domains (R177 to R182) -/

inductive Domain where
  | exact | mx | fp32
  deriving DecidableEq, Repr

/-- The domain of a pairing, weight format and activation format; none for an invalid one (R177). -/
def domainOf (w x : Nat) : Option Domain :=
  match formatOf w, formatOf x with
  | some (f, a), some (g, b) =>
    if a || b then (if (a || f.exact) && (b || g.exact) then some .mx else none)
    else if f.exact && g.exact then some .exact else some .fp32
  | _, _ => none

/-- A number as a multiple of 2^−32 (R178). -/
def fixed32 : Num → Int
  | .fin s m e => sgnInt s (if -32 ≤ e then m * 2 ^ (e + 32).toNat else m / 2 ^ (-32 - e).toNat)
  | _ => 0

/-- An output of the array: never −0.0, one NaN (R182). -/
def arrayOut (w : Word32) : Word32 := if isNan w then qnan else plusZero w

/-- The exact domain over all k: the NaN mark and L (R178), from where an earlier pass left it. -/
def exactSum (nan : Bool) (l : Int) (ps : List (Num × Num)) : Bool × Int :=
  ps.foldl (fun a p => if p.1 = .nan ∨ p.2 = .nan then (true, a.2) else (a.1, a.2 + fixed32 (numMul p.1 p.2))) (nan, l)

/-- L as it stands in 112 bits, and the output it gives (R178). -/
def exactOut (nan : Bool) (l : BitVec 112) : Word32 := if nan then qnan else arrayOut (roundF (intNum l.toInt (-32)))

/-- The FP32 domain: fma within a chunk of 128, chunks added in order (R179). -/
def fp32Sum (acc : Word32) (ps : List (Num × Num)) : Word32 :=
  (chunks 128 (ps.length / 128 + 1) ps).foldl (fun acc c =>
    fadd acc (c.foldl (fun s p => roundF (numAdd (numMul p.1 p.2) (numOf s))) 0)) acc

/-- One block of the MX domain: unscaled elements and the two scale exponents, none for FFh (R180). -/
def mxBlock (ps : List (Num × Num)) (ex ew : Option Int) : Word32 :=
  match ex, ew with
  | some ex, some ew =>
    roundF (scaleNum (ps.foldl (fun s p => numAdd s (numMul p.1 p.2)) (.fin false 0 0)) (ex + ew))
  | _, _ => qnan

/-- The MX domain: blocks of 32 with their exponents, four to a chunk (R180). -/
def mxSum (acc : Word32) (bs : List (List (Num × Num) × Option Int × Option Int)) : Word32 :=
  (chunks 4 (bs.length / 4 + 1) bs).foldl (fun acc c =>
    fadd acc (c.foldl (fun s b => fadd s (mxBlock b.1 b.2.1 b.2.2)) 0)) acc

end Sys2Proof.Machine
end

