-- ==== Sys2Proof/Machine/SampleOps.lean ====
section
/-! DEFINITION. Sampling (R459 to R461): the tagging generator, the items in hand and the record buffer. -/

namespace Sys2Proof.Machine

/-- One step of the generator. -/
def lfsrStep (x : Word32) : Word32 := if bit x 0 then (x >>> 1) ^^^ 0x80200003 else x >>> 1

/-- A tagging island draws its next interval. -/
def drawInterval (i : Nat) (s : State) : State :=
  s.modIsland i fun x =>
    let l := lfsrStep x.lfsr
    { x with lfsr := l, down := 1 + l.toNat % (2 * s.sampling.n - 1) }

/-- An island's generator is seeded, and its first interval drawn. -/
def seedIsland (i : Nat) (s : State) : State :=
  drawInterval i (s.modIsland i fun x => { x with lfsr := s.sampling.seed.rotateLeft (i % 32) })

/-- The item that brought the hub's down-count to 0 is tagged, and the next interval drawn. -/
def settleHub (s : State) : State :=
  match s.sampling.due with
  | none => s
  | some k => drawInterval idHub ({ s with sampling := { s.sampling with due := none } }.modSlot k fun x => { x with tagged := true })

/-- The same of a core. -/
def settleCore (k : Nat) (s : State) : State :=
  if (s.core k).samples.any (·.due) then
    drawInterval k (s.modCore k fun c => { c with samples := c.samples.map fun x => { x with due := false } })
  else s

/-- A request is admitted into a slot while requests are tagged. -/
def sampleAdmit (n : Nat) (s : State) : State :=
  if bit s.sampling.enable 0 then
    let s := settleHub s
    let left := (s.island idHub).down - 1
    let s := s.modIsland idHub fun x => { x with down := left }
    if left = 0 then { s with sampling := { s.sampling with due := some n } } else s
  else s

/-- A configuration starts on a core that tags configurations; `mk` is what its record will say. -/
def sampleStart (k : Nat) (mk : ConfSample) (s : State) : State :=
  if bit s.sampling.enable 1 && tget true s.sampling.cores k then
    let s := settleCore k s
    let left := (s.island k).down - 1
    let s := s.modIsland k fun x => { x with down := left }
    if left = 0 then s.modCore k fun c => { c with samples := c.samples ++ [mk] } else s
  else s

/-- A record enters the buffer, or is discarded. -/
def addSample (r : Words) (s : State) : State :=
  { s with sampling :=
    if 2048 ≤ s.sampling.records.length then { s.sampling with lost := s.sampling.lost + 1 }
    else { s.sampling with records := s.sampling.records ++ [r] } }

/-- The record of a configuration whose command commits, at a time, or is killed. -/
def ConfSample.words (x : ConfSample) (core : Nat) (commit : Option Word64) : Words :=
  [field 56 1 ||| field 47 core ||| field 40 (x.region % 16) ||| field 24 (x.index % 2 ^ 16) ||| field 16 (x.kind % 256) |||
     field 12 (x.cls % 16) ||| field 0 (x.tenant % 4096),
   field 32 x.handle.toNat ||| field 0 x.freeze.toNat, x.fetch, x.begun, x.land, x.done, commit.getD 0,
   field 56 (match commit with | some _ => 1 | none => 2), 0, 0, 0, 0, 0, 0, 0, 0]

/-- The command of a core ends: the records of its tagged configurations are written. -/
def sampleEnd (k : Nat) (commit : Option Word64) (s : State) : State :=
  let s := settleCore k s
  ((s.core k).samples.foldl (fun s x => addSample (x.words k commit) s) s).modCore k fun c => { c with samples := [] }

/-- The record of a tagged request at its terminal state. -/
def sampleRequest (n : Nat) (s : State) : State :=
  let s := if s.sampling.due = some n then settleHub s else s
  let x := s.slot n
  let stage := fun g : Nat => if g = 0 then x.admitTime else match x.stageTimes.find? fun p => p.1 = g with
    | some p => p.2
    | none => 0
  if x.tagged then
    addSample
      ([field 56 2 ||| field 47 idHub ||| field 36 (bits x.status 47 44) ||| field 24 (bits (word x.desc 0) 63 56) |||
         field 0 (bits (word x.desc 0) 47 36),
       field 48 (n % 2 ^ 16) ||| field 32 (bits x.status 63 48) ||| field 16 (bits x.status 15 0)] ++
       (List.range 10).map stage ++ [s.time, 0, 0, 0]) s
  else s

end Sys2Proof.Machine
end

