-- ==== Sys2Proof/Machine/CoreOps.lean ====
section
/-! DEFINITION. A core's memories (R231 to R246): rows with their word code and poison, slots with their latches, erasure,
and the life of a command on a core (R208 to R210). -/

namespace Sys2Proof.Machine

def clusterOf (core : Nat) : Nat := core / 16

/-! ### Rows (R231, R233, R240 to R244) -/

/-- The bank of a row, and its line there (R231). -/
def bankOf (r : Nat) : Nat := r % 24
def lineOf (r : Nat) : Nat := r / 24

/-- A row counts as written (R244, R246). -/
def Core.rowValid (c : Core) (r : Nat) : Bool := c.filled || (tget {} c.tags r).valid

/-- The line that holds a row (R231, R265, R266), as a row number: its own, or spare line j of its bank, whose 4,096 lines its 8 spare ones follow. -/
def Core.cell (c : Core) (r : Nat) : Nat :=
  match c.hinge.find? fun e => e.2.valid && e.2.active && e.2.row = r with
  | some (j, _) => 24 * (4096 + j) + bankOf r
  | none => r

/-- The flipped bits of word w of a line, lowest position first, data then check bits (R240, R444). -/
def Core.flips (c : Core) (l w : Nat) : Nat := tget 0 c.wordErrs (8 * l + w)
/-- Some word of a line has more errors than its code corrects (R240). -/
def Core.anyBad (c : Core) (l : Nat) : Bool := c.wordErrs.any fun e => e.1 / 8 = l && 2 ≤ popCount 72 e.2

/-- A row of which a read delivers poison: its mark, or a word it cannot correct (R233, R240). A row never written has neither (R244). -/
def Core.rowBad (c : Core) (r : Nat) : Bool := c.rowValid r && ((tget {} c.tags r).poison || c.anyBad (c.cell r))

/-- Byte i of a row as a read delivers it: corrected, or with its word's flips where they are too many (R240); of a row never written 0
(R244). -/
def Core.rowByte (c : Core) (r i : Nat) : Byte :=
  if !c.rowValid r then 0
  else
    let b := memGet c.spad (64 * c.cell r + i)
    let e := if c.wordErrs = [] then 0 else c.flips (c.cell r) (i / 8)
    if 2 ≤ popCount 72 e then b ^^^ BitVec.ofNat 8 (e / 2 ^ (8 * (i % 8))) else b

/-- Bytes of the scratchpad with their rows' poison. -/
def Core.read (c : Core) (a n : Nat) : Marked :=
  (List.range n).map fun i => (c.rowByte ((a + i) / 64) ((a + i) % 64), c.rowBad ((a + i) / 64))

def Marked.bytes (m : Marked) : Bytes := m.map Prod.fst
def Marked.bad (m : Marked) : Bool := m.any Prod.snd

/-- The decode of one valid row by a read: single errors corrected and written back, others poison the row (R240). -/
def decodeRow (k r : Nat) (s : State) : State :=
  let c := s.core k
  let l := c.cell r
  let ones := (c.wordErrs.filter fun e => e.1 / 8 = l && popCount 72 e.2 = 1).length
  if !c.rowValid r || (ones = 0 && !c.anyBad l) then s
  else
    let s := s.modCore k fun c => { c with wordErrs := c.wordErrs.filter fun e => !(e.1 / 8 = l && popCount 72 e.2 = 1) }
    let s := countCorrected k ones { s with coreE := { s.coreE with spadCorrected := s.coreE.spadCorrected + BitVec.ofNat 64 ones } }
    if c.anyBad l && !(tget {} c.tags r).poison then
      notable k 1 r ({ s with coreE := { s.coreE with spadPoisoned := s.coreE.spadPoisoned + 1 } }.modCore k fun c =>
        { c with tags := tmod {} c.tags r fun t => { t with poison := true } })
    else s

/-- The row that a line holds. -/
def Core.rowAt (c : Core) (l : Nat) : Nat :=
  if l < 98304 then l else match c.hinge.find? fun e => e.1 = l / 24 - 4096 with
    | some (_, h) => h.row
    | none => l

/-- What reading a range does to its rows. -/
def touchRows (k a n : Nat) (s : State) : State :=
  if n = 0 then s
  else
    let rows := ((s.core k).wordErrs.map fun e => (s.core k).rowAt (e.1 / 8)).filter fun r => a / 64 ≤ r && r ≤ (a + n - 1) / 64
    rows.foldl (fun s r => decodeRow k r s) s

/-- The bytes of one row from address a replaced: whole words are encoded anew, a narrow write first reads its words and merges (R241).
The first write of a row encodes all of it, the rest as zeros (R244). -/
def writeRow (k a : Nat) (m : Marked) (s : State) : State :=
  let r := a / 64
  let lo := a % 64
  let n := m.length
  let s := if a % 8 ≠ 0 || (a + n) % 8 ≠ 0 then decodeRow k r s else s
  s.modCore k fun c =>
    let valid := c.rowValid r
    let l := c.cell r
    -- the words encoded, as bytes [from_, to_) of the row
    let from_ := if valid then lo / 8 * 8 else 0
    let to_ := if valid then (lo + n + 7) / 8 * 8 else 64
    let merged := (List.range (to_ - from_)).map fun i =>
      let b := from_ + i
      if lo ≤ b ∧ b < lo + n then (m.bytes.getD (b - lo) 0) else c.rowByte r b
    { c with
      spad := memWrite c.spad (64 * l + from_) merged
      wordErrs := c.wordErrs.filter fun e => !(e.1 / 8 = l && from_ ≤ 8 * (e.1 % 8) && 8 * (e.1 % 8) < to_)
      tags := tset {} c.tags r { valid := true, poison := (valid && n ≠ 64 && (tget {} c.tags r).poison) || m.bad } }

/-- A range cut at row boundaries. -/
def rowCuts : Nat → Nat → Marked → List (Nat × Marked)
  | 0, _, _ => []
  | f + 1, a, m =>
    match m with
    | [] => []
    | _ => let n := 64 - a % 64; (a, m.take n) :: rowCuts f (a + n) (m.drop n)

/-- Marked bytes written to the scratchpad, row by row (R241, R242). -/
def spadWrite (k a : Nat) (m : Marked) (s : State) : State :=
  (rowCuts (m.length / 64 + 2) a m).foldl (fun s p => writeRow k p.1 p.2 s) s

/-! ### The state memories of a core (R247) -/

/-- Classes of state memories (the table of code 0830h). -/
def clsImem : Nat := 3
def clsControl : Nat := 4
def clsRegs : Nat := 5
def clsHinge : Nat := 8

/-- The key of a byte of a state memory: its class and address. -/
def byteKey (cls addr : Nat) : Nat := cls % 16 * 2 ^ 28 + addr % 2 ^ 28

/-- A write of n bytes encodes them anew (R247). -/
def Core.encode (c : Core) (cls addr n : Nat) : Core :=
  { c with stateErrs := c.stateErrs.filter fun e => !(byteKey cls addr ≤ e.1 && e.1 < byteKey cls addr + n) }

/-- Where the control memory holds a slot's state word and a row's tag, and the register memory a register. DEDUCED (log 18): each kind
in the order of its numbers, the slot words first. -/
def slotAddr (i : Nat) : Nat := 4 * i
def tagAddr (r : Nat) : Nat := 12288 + r / 4
def regAddr (r : Nat) : Nat := 8 * r

/-- Rows of slots first … first + count − 1 erased: tags cleared, or in full-fill mode zeros with valid tags (R245, R246). -/
def Core.eraseSlots (c : Core) (first count : Nat) : Core :=
  let spares := ((c.hinge.map fun e => e.2.row).filter fun r => 32 * first ≤ r && r < 32 * (first + count)).map c.cell
  { c.encode clsControl (tagAddr (32 * first)) (8 * count) with
    spad := spares.foldl (fun m l => memClear m (64 * l) 64) (memClear c.spad (2048 * first) (2048 * count))
    tags := c.tags.filter fun t => t.1 < 32 * first || 32 * (first + count) ≤ t.1
    wordErrs := c.wordErrs.filter fun e => (e.1 < 256 * first || 256 * (first + count) ≤ e.1) && !spares.contains (e.1 / 8) }

/-! ### Operand descriptors (R201) -/

def opdSlot (d : Word64) : Nat := bits d 63 52
def opdSlots (d : Word64) : Nat := bits d 51 40
def opdStride (d : Word64) : Nat := bits d 39 20
def opdOut (d : Word64) : Bool := bit d 19
def opdConsume (d : Word64) : Bool := bit d 18
def opdOffset (d : Word64) : Nat := bits d 10 0
/-- Byte address of row i of an operand. -/
def opdRow (base : Nat) (d : Word64) (i : Nat) : Nat := (base + opdSlot d) * 2048 + opdOffset d + opdStride d * i
/-- Bytes an operand spans (R201). -/
def opdSpan (d : Word64) (rows rowBytes : Nat) : Nat :=
  if rows = 0 || rowBytes = 0 then 0 else (rows - 1) * opdStride d + rowBytes
/-- The slots, relative to the slot base, that an operand's span covers. -/
def opdCover (d : Word64) (rows rowBytes : Nat) : List Nat :=
  let n := opdSpan d rows rowBytes
  if n = 0 then [] else (List.range ((opdOffset d + n - 1) / 2048 + 1)).map (opdSlot d + ·)

/-! ### Latches (R232, R234) -/

def Core.slotW (c : Core) (i : Nat) : SlotWord := tget {} c.slots i
/-- Slot state words changed; each is encoded anew (R247). -/
def Core.modSlots (c : Core) (is : List Nat) (f : SlotWord → SlotWord) : Core :=
  let c := if c.stateErrs = [] then c else is.foldl (fun c i => c.encode clsControl (slotAddr i) 4) c
  { c with slots := is.foldl (fun t i => tmod {} t i f) c.slots }
/-- An exchange register written, with its poison mark. -/
def Core.setReg (c : Core) (r : Nat) (v : Word64) (bad : Bool) : Core :=
  let c := c.encode clsRegs (regAddr r) 8
  { c with regs := tset 0 c.regs r v, regPoison := tset false c.regPoison r bad }
/-- A landing may write the slot (R236). -/
def SlotWord.open_ (w : SlotWord) : Bool := !w.latch && !w.epend && !w.pend

/-! ### Commands on a core (R208 to R210) -/

/-- A command killed and waiting, as it stood on core k: its input slots stay full there (R210). -/
def CoreCmd.wait (c : CoreCmd) (k : Nat) (now : Word64) : Waiting := ⟨c.cmd, c.life, now, some (k, c.cmd.slotBase, c.slots)⟩

/-- Slots of a command that lie outside its input range and are not its model's, as absolute numbers. -/
def CoreCmd.ownSlots (c : CoreCmd) : List Nat :=
  ((List.range c.slots).filter fun i => c.resident ≤ i && (i < c.inFirst || c.inFirst + c.inCount ≤ i)).map (c.cmd.slotBase + ·)
def CoreCmd.inSlots (c : CoreCmd) : List Nat := (List.range c.inCount).map (c.cmd.slotBase + c.inFirst + ·)

/-- Slot state words carry the queue positions of the commands that remain (R232). -/
def Core.renumber (c : Core) : Core :=
  (c.cmds.zipIdx).foldl (fun c (q, i) => c.modSlots ((List.range q.slots).map (q.cmd.slotBase + ·)) fun w => { w with cmd := i }) c

/-- The owner counts of a program's regions (R219). -/
def Core.own (c : Core) (first span : Nat) (f : Nat → Nat) : Core :=
  { c with regions := (List.range span).foldl (fun t i => tmod {} t (first + i) fun r => { r with owners := f r.owners }) c.regions }

/-- The exchange registers at a command's c-cycle 0: the declared parameters, and 0 elsewhere (R199, R207, R208). -/
def CoreCmd.params (q : CoreCmd) : Table Word64 :=
  (q.cmd.params.filter fun p => p.1 < 64 && bit q.xparam p.1).foldl (fun t p => tset 0 t p.1 p.2) []

/-- The sequencer and engines as a command's c-cycle 0 finds them, with its exchange registers (R208). The shape in effect is then SQUARE:
DESIGN CHOICE (log 19). -/
def Core.startHead (c : Core) : Core :=
  let regs := match c.cmds with
    | [] => []
    | q :: _ => q.params
  { c.encode clsRegs 0 512 with
    regs := regs, regPoison := [], now := 0, lastStart := 0, index := 0, runs := [], pendRegs := [], feed := [], inMacro := false, fed := 0,
    feedAt := 0, fedStarts := [], feedBad := false, fence := none, committing := false, frozen := none, shape := 0 }

/-- The kill of the command at a queue position (R210): its slots outside the input range empty and erased, its owner
counts lowered, its moves in flight discarded, and, when it was running, its engines stopped and its registers cleared. -/
def Core.kill (c : Core) (pos : Nat) : Core :=
  match c.cmds[pos]? with
  | none => c
  | some q =>
    let c := c.modSlots q.ownSlots fun w => { w with latch := false, pend := false, epend := false }
    let c := (q.ownSlots).foldl (fun c i => c.eraseSlots i 1) c
    let c := c.modSlots q.inSlots fun w => { w with pend := false, epend := false }
    let c := (c.own q.cmd.region q.span (· - 1))
    let c := { c with cmds := c.cmds.eraseIdx pos }.renumber
    if pos = 0 then { c with moves := [] }.startHead else c

/-- The c-cycles between two device times of one island, whose place within a nanosecond is below the copy's reading. -/
def cyclesBetween (a b : Word64) (spread : Nat) : Nat := 2 * (b - a).toNat + spread % 3

/-- A freeze ends now: its c-cycles are charged to the bank of the row whose read froze the core (R235, R239). -/
def chargeFreeze (k : Nat) (s : State) : State :=
  match (s.core k).frozen with
  | none => s
  | some f =>
    let (u, s) := s.fresh
    let n := max 1 (cyclesBetween f.at_ (s.timeAt k) u.toNat)
    s.modCore k fun c => { c with freezes := tmod 0 c.freezes (bankOf f.row) (· + BitVec.ofNat 64 n) }

/-- A landing's wait ends now: its c-cycles are counted by the core it waits at (R236, R239). -/
def chargeWait (m : MoveRun) (s : State) : State :=
  if m.waiting then
    let (u, s) := s.fresh
    let n := cyclesBetween m.since (s.timeAt m.core) u.toNat - 1
    s.modCore m.core fun c => { c with landWaits := c.landWaits + BitVec.ofNat 64 n }
  else s

/-- The cores of a core's cluster. -/
def mates (k : Nat) : List Nat := (List.range 16).map (16 * clusterOf k + ·)

/-- Moves of other cores into a killed command's slots are discarded (R210, R249). -/
def dropInbound (k : Nat) (q : CoreCmd) (s : State) : State :=
  let into := fun m : MoveRun => m.outbound && m.core = k && m.handle = q.cmd.handle
  (mates k).foldl (fun s j =>
    if (s.core j).moves.any into then
      (((s.core j).moves.filter into).foldl (fun s m => chargeWait m s) s).modCore j fun c => { c with moves := c.moves.filter fun m => !into m }
    else s) s

/-- A kill of one command by its core and position: its own accesses are no longer awaited (R210, R333), the moves into its slots are
discarded, and a freeze or a wait that it ends is counted. -/
def killAt (k pos : Nat) (s : State) : State :=
  match (s.core k).cmds[pos]? with
  | none => s
  | some q =>
    let s := dropInbound k q s
    let s := if pos = 0 then
        ((s.core k).moves.foldl (fun s m => chargeWait m s) (chargeFreeze k (modFabric (fun f => { f with accesses := f.accesses.filter fun a =>
          match a.issuer with | .coreMove c _ => c ≠ k | _ => true }) (sampleEnd k none s))))
      else s
    countEv k 1 0x0A 1 { cmd := some q.cmd.cmdClass, tenant := some q.cmd.tenant } (s.modCore k (·.kill pos))

/-- A killed command goes back to the head of its cluster's queue for its traffic class (R373). -/
def insertWaiting (w : Waiting) : List Waiting → List Waiting
  | [] => [w]
  | x :: l => if x.cmd.tclass ≤ w.cmd.tclass then w :: x :: l else x :: insertWaiting w l

/-- Killed and put back on its cluster's queue. -/
def requeueAt (k pos : Nat) (f : Life → Life) (s : State) : State :=
  match (s.core k).cmds[pos]? with
  | none => s
  | some q => (killAt k pos s).modCluster (clusterOf k) fun c =>
      { c with waiting := insertWaiting { q.wait k s.time with life := f q.life } c.waiting }

/-- Cores and positions of the commands that satisfy p. -/
def State.cmdPlaces (s : State) (p : CoreCmd → Bool) : List (Nat × Nat) :=
  s.cores.flatMap fun e => (e.2.cmds.zipIdx.filter fun q => p q.1).map fun q => (e.1, q.2)

/-- Waiting commands have no place any more on a core's slots first … first + count − 1. -/
def forgetHomes (k first count : Nat) (s : State) : State :=
  let leave := fun w : Waiting => match w.home with
    | some (j, b, n) => if j = k ∧ b < first + count ∧ first < b + n then { w with home := none } else w
    | none => w
  { s with
    clusters := tmap {} (fun _ c => { c with waiting := c.waiting.map leave }) s.clusters
    placement := { s.placement with held := s.placement.held.map leave } }

/-- Every command of a request killed and dropped, whether queued, running, waiting or held (R60). -/
def dropCmds (h : Word32) (s : State) : State :=
  let s := ((s.cmdPlaces fun q => q.cmd.handle = some h).reverse).foldl (fun s e => killAt e.1 e.2 s) s
  { s with
    clusters := tmap {} (fun _ c => { c with waiting := c.waiting.filter fun w => w.cmd.handle ≠ some h }) s.clusters
    placement := { s.placement with held := s.placement.held.filter fun w => w.cmd.handle ≠ some h }
    fabric := { s.fabric with misses := s.fabric.misses.filter fun m => m.handle ≠ some h } }

/-- A core at reset: rows erased, nothing queued, and what a fault's return keeps (R219, R245, R435). -/
def Core.resetCore (c : Core) : Core :=
  { filled := c.filled, conflicts := c.conflicts, freezes := c.freezes, landWaits := c.landWaits, nextMove := c.nextMove,
    regions := c.regions, imem := c.imem, hinge := c.hinge, scrubDue := c.scrubDue, scrubFrac := c.scrubFrac, slip := c.slip,
    stateErrs := c.stateErrs.filter fun e => e.1 / 2 ^ 28 = clsImem || e.1 / 2 ^ 28 = clsHinge : Core }

end Sys2Proof.Machine
end

