-- ==== Sys2Proof/Machine/Operands.lean ====
section
/-! DEFINITION. Operand forms of layer configurations (R200 to R207, R216, R222): their fields, which operands and which
exchange registers they name, and the latency model (R203, R205, R206). -/

namespace Sys2Proof.Machine

/-! ### Common header (R200) -/

def cfKind (w : Words) : Nat := bits (word w 0) 63 56
def cfVersion (w : Words) : Nat := bits (word w 0) 55 52
def cfCommit (w : Words) : Bool := bit (word w 0) 51
def cfSat (w : Words) : Bool := bit (word w 0) 50
def cfDelta (w : Words) : Nat := bits (word w 0) 47 32
def cfBusy (w : Words) : Nat := bits (word w 0) 31 0
def cfRmask (w : Words) : Word64 := word w 1
def cfWmask (w : Words) : Word64 := word w 2
def cfLand (w : Words) : Nat := bits (word w 3) 63 32

def kArray : Nat := 1
def kVector : Nat := 2
def kMove : Nat := 3
def kFence : Nat := 4
def kMacro : Nat := 5

/-- The engine a kind runs on (R198). -/
def engineOf (kind : Nat) : Engine := if kind = kArray then .array else if kind = kVector then .vector else .move

/-! ### ARRAY_PASS (R202) -/

def apShape (w : Words) : Nat := bits (word w 8) 63 61
def apAcc (w : Words) : Bool := bit (word w 8) 60
def apSpill (w : Words) : Bool := bit (word w 8) 59
def apMdyn (w : Words) : Bool := bit (word w 8) 58
def apXm (w : Words) : Nat := bits (word w 8) 57 52
def apWfmt (w : Words) : Nat := bits (word w 8) 47 40
def apXfmt (w : Words) : Nat := bits (word w 8) 39 32
def apK (w : Words) : Nat := bits (word w 9) 63 32
def apWcols (w : Words) : Nat := bits (word w 9) 31 0
def apM (w : Words) : Nat := bits (word w 10) 63 48
def apMv (w : Words) : Nat := bits (word w 10) 47 32
def apNv (w : Words) : Nat := bits (word w 10) 31 16
def apCol0 (w : Words) : Nat := bits (word w 10) 15 0

/-- Rows and columns of the shapes (R190, R202). -/
def shapeRows : Nat → Nat
  | 0 => 128 | 1 => 16 | 2 => 8 | _ => 4
def shapeCols : Nat → Nat
  | 0 => 128 | 1 => 1024 | 2 => 2048 | _ => 4096

def isMx (code : Nat) : Bool := match formatOf code with | some (_, mx) => mx | none => false
def planesOf (code : Nat) : Nat := match formatOf code with | some (f, _) => f.planes | none => 0
def sideOf (code : Nat) : Nat := match formatOf code with | some (f, _) => f.side | none => 0
def widthOf (code : Nat) : Nat := match formatOf code with | some (f, _) => f.width | none => 0

/-- Bytes of the elements of a row of k, scale bytes aside (R172). -/
def elemBytes (code k : Nat) : Nat :=
  if isMx code then ceilDiv (32 * ceilDiv k 32 * widthOf code) 8 else ceilDiv (k * widthOf code) 8

/-- Bytes of a weight record of n columns (R202). -/
def recordBytes (code n : Nat) : Nat := ceilDiv (n * (planesOf code + sideOf code)) 8

/-! ### VECTOR_OP (R204) -/

def voOp (w : Words) : Nat := bits (word w 8) 63 56
def voIfmt (w : Words) : Nat := bits (word w 8) 55 48
def voOfmt (w : Words) : Nat := bits (word w 8) 47 40
def voXreg (w : Words) : Nat := bits (word w 8) 39 34
def voToreg (w : Words) : Bool := bit (word w 8) 33
def voN (w : Words) : Nat := bits (word w 8) 31 0
def voRows (w : Words) : Nat := bits (word w 9) 63 32
def voK (w : Words) : Nat := bits (word w 9) 31 19
def voRdyn (w : Words) : Bool := bit (word w 9) 18
def voXrows (w : Words) : Nat := bits (word w 9) 17 12
def voImm (w : Words) : Word32 := BitVec.ofNat 32 (bits (word w 14) 63 32)

/-- The vector operations (R205). -/
inductive VOp where
  | add | sub | mul | fma | min | max | cmpEq | cmpLt | cmpLe | abs | neg | cvt | planes
  | special (f : Special)
  | redSum | redMin | redMax | dot | sort | topk | argmax
  deriving DecidableEq, Repr

def voDecode : Nat → Option VOp
  | 0x01 => some .add | 0x02 => some .sub | 0x03 => some .mul | 0x04 => some .fma | 0x05 => some .min
  | 0x06 => some .max | 0x07 => some .cmpEq | 0x08 => some .cmpLt | 0x09 => some .cmpLe | 0x0A => some .abs
  | 0x0B => some .neg | 0x0C => some .cvt | 0x0D => some .planes
  | 0x10 => some (.special .exp) | 0x11 => some (.special .exp2) | 0x12 => some (.special .log)
  | 0x13 => some (.special .recip) | 0x14 => some (.special .rsqrt) | 0x15 => some (.special .sigmoid)
  | 0x16 => some (.special .tanh) | 0x17 => some (.special .silu) | 0x18 => some (.special .gelu)
  | 0x20 => some .redSum | 0x21 => some .redMin | 0x22 => some .redMax | 0x23 => some .dot
  | 0x28 => some .sort | 0x29 => some .topk | 0x2A => some .argmax
  | _ => none

/-- Operations that take a second operand, or the immediate in its place (R204). -/
def VOp.usesB : VOp → Bool
  | .add | .sub | .mul | .fma | .min | .max | .cmpEq | .cmpLt | .cmpLe | .dot => true
  | _ => false
/-- Operations on rows of 64-bit selection keys (R118). -/
def VOp.onKeys : VOp → Bool
  | .sort | .topk => true
  | _ => false

/-- Bytes of an input row. -/
def voInBytes (w : Words) (op : VOp) : Nat := if op.onKeys then 8 * voN w else vecBytes (voIfmt w) (voN w)

/-- Bytes of an output row (R204, R205). -/
def voOutBytes (w : Words) : VOp → Nat
  | .cvt => vecBytes (voOfmt w) (voN w)
  | .planes => recordBytes (voOfmt w) (voN w)
  | .redSum | .redMin | .redMax | .dot | .argmax => 4
  | .sort => 8 * voN w
  | .topk => 8 * voK w
  | _ => 4 * voN w

/-! ### MOVE, FENCE (R206, R216) -/

def mvKind (w : Words) : Nat := bits (word w 8) 63 56
def mvRef (w : Words) : Nat := bits (word w 8) 55 52
def mvCore (w : Words) : Nat := bits (word w 8) 51 48
def mvXoff (w : Words) : Nat := bits (word w 8) 47 42
def mvOdyn (w : Words) : Bool := bit (word w 8) 41
def mvOffset (w : Words) : Nat := (word w 9).toNat
def mvBytes (w : Words) : Nat := bits (word w 10) 63 32
def mvCount (w : Words) : Nat := bits (word w 10) 31 0
/-- Bytes a move delivers (R206). -/
def mvTotal (w : Words) : Nat := if mvKind w = 2 ∨ mvKind w = 3 then mvBytes w * mvCount w else mvBytes w
/-- Destination slots of a move. -/
def mvSlots (w : Words) : Nat := ceilDiv (mvTotal w) 2048

/-! ### MACRO (R222) -/

def mcShape (w : Words) : Nat := bits (word w 8) 63 61
def mcFoldMode (w : Words) : Nat := bits (word w 8) 60 59
def mcMdyn (w : Words) : Bool := bit (word w 8) 58
def mcXm (w : Words) : Nat := bits (word w 8) 57 52
def mcStream (w : Words) : Nat := bits (word w 8) 51 48
def mcWfmt (w : Words) : Nat := bits (word w 8) 47 40
def mcXfmt (w : Words) : Nat := bits (word w 8) 39 32
def mcFold (w : Words) : Nat := bits (word w 8) 31 20
def mcM (w : Words) : Nat := bits (word w 9) 63 32
def mcN (w : Words) : Nat := bits (word w 9) 31 0
def mcK (w : Words) : Nat := bits (word w 10) 63 32

/-! ### The program header (R207) -/

def phType (w : Words) : Nat := bits (word w 0) 63 48
def phVersion (w : Words) : Nat := bits (word w 0) 47 44
def phRegions (w : Words) : Nat := bits (word w 0) 43 40
def phConfigs (w : Words) : Nat := bits (word w 0) 31 16
def phAbi (w : Words) : Nat := bits (word w 1) 63 32
def phSlots (w : Words) : Nat := bits (word w 1) 31 20
def phInFirst (w : Words) : Nat := bits (word w 1) 19 8
def phXparam (w : Words) : Word64 := word w 2
def phInCount (w : Words) : Nat := bits (word w 3) 63 52
def phRefs (w : Words) : Nat := bits (word w 3) 51 47
def refBase (w : Words) (j : Nat) : Word64 := word w (8 + 2 * j)
def refW1 (w : Words) (j : Nat) : Word64 := word w (9 + 2 * j)
def refLocal (w : Words) (j : Nat) : Bool := bit (refW1 w j) 59
def refDyn (w : Words) (j : Nat) : Bool := bit (refW1 w j) 58
def refXbase (w : Words) (j : Nat) : Nat := bits (refW1 w j) 57 52
def refLen (w : Words) (j : Nat) : Nat := bits (refW1 w j) 39 0

/-! ### Operands of a configuration -/

/-- One use of an operand descriptor: its rows, the bytes of each, and whether the engine writes it. -/
structure OpUse where
  desc  : Word64
  rows  : Nat
  bytes : Nat
  write : Bool
  deriving DecidableEq, Repr

/-- The operands an engine configuration reads, with `rows` valid rows, the records that a resumed reduction reads at Y aside (R202, R204,
R206). -/
def opIns (w : Words) (rows : Nat) : List OpUse :=
  if cfKind w = kArray then
    let kb := ceilDiv (apK w) 32
    [⟨word w 11, rows, elemBytes (apXfmt w) (apK w), false⟩,
     ⟨word w 12, apK w, recordBytes (apWfmt w) (apWcols w), false⟩] ++
    (if isMx (apXfmt w) then [⟨word w 14, rows, kb, false⟩] else []) ++
    (if isMx (apWfmt w) then [⟨word w 15, kb, apCol0 w + apNv w, false⟩] else [])
  else if cfKind w = kVector then
    match voDecode (voOp w) with
    | none => []
    | some op =>
      let n := voInBytes w op
      [⟨word w 10, rows, n, false⟩] ++
      (if op.usesB && opdSlots (word w 11) ≠ 0 then [⟨word w 11, rows, n, false⟩] else []) ++
      (if op = .fma then [⟨word w 12, rows, n, false⟩] else [])
  else if cfKind w = kMove then
    if mvKind w = 4 then [⟨word w 11, 1, mvBytes w, false⟩]
    else if mvKind w = 2 ∨ mvKind w = 3 then [⟨word w 11, 1, 8 * mvCount w, false⟩]
    else []
  else []

/-- The records that a resumed reduction reads at Y (R189, R202). -/
def opResume (w : Words) (rows : Nat) : List OpUse :=
  if cfKind w = kArray && apAcc w then [⟨word w 13, rows, 16 * apNv w, false⟩] else []

/-- The operands an engine configuration writes. The destination of a move is none of them: latches order it (R213). -/
def opOuts (w : Words) (rows : Nat) : List OpUse :=
  if cfKind w = kArray then [⟨word w 13, rows, (if apSpill w then 16 else 4) * apNv w, true⟩]
  else if cfKind w = kVector && !voToreg w then
    match voDecode (voOp w) with
    | none => []
    | some op => [⟨word w 13, rows, voOutBytes w op, true⟩]
  else []

/-- The destination of a move, in the slots of the core that it lands in (R206). -/
def opDst (w : Words) : List OpUse := if cfKind w = kMove then [⟨word w 12, 1, mvTotal w, true⟩] else []

/-- The operands an engine configuration reads and writes, with `rows` valid rows. -/
def opUses (w : Words) (rows : Nat) : List OpUse := opIns w rows ++ opResume w rows ++ opOuts w rows

/-- The declared row count of a configuration. -/
def declaredRows (w : Words) : Nat := if cfKind w = kArray then apMv w else if cfKind w = kVector then voRows w else 1

/-- The exchange registers a configuration's fields name as read, given the program header (R200, R207). -/
def regsRead (ph w : Words) : List Nat :=
  if cfKind w = kArray then (if apMdyn w then [apXm w] else [])
  else if cfKind w = kVector then (if voRdyn w then [voXrows w] else [])
  else if cfKind w = kMove then
    (if mvOdyn w then [mvXoff w] else []) ++
    (if mvKind w ≠ 4 && refDyn ph (mvRef w) then [refXbase ph (mvRef w)] else [])
  else if cfKind w = kMacro then (if mcMdyn w then [mcXm w] else [])
  else []
def regsWritten (w : Words) : List Nat := if cfKind w = kVector && voToreg w then [voXreg w] else []
/-- A mask with the bits of a list set. -/
def maskOf (rs : List Nat) : Word64 := rs.foldl (fun m r => m ||| BitVec.ofNat 64 (2 ^ r)) 0

/-! ### The latency model -/

/-- What the latency of an array pass depends on besides itself: the shape in effect, and whether the previous array
configuration was a SQUARE pass that started exactly its LC.BUSY earlier (R203). -/
def arrayLead (shapeNow : Nat) (backToBack : Bool) (w : Words) : Nat :=
  (if apShape w = 0 && !backToBack then 128 else 0) + (if apShape w ≠ shapeNow then 64 else 0)

/-- LC.BUSY of an array pass with lead L (R203). -/
def arrayBusy (lead : Nat) (w : Words) : Nat :=
  let p := planesOf (apWfmt w)
  if apShape w = 0 then lead + ceilDiv (apK w) 128 * max (apM w * p) 128 else lead + apK w * p

/-- Compare-exchanges of a sort of 2^q keys (R118). -/
def sortExchanges (q : Nat) : Nat := q * (q + 1) / 2 * 2 ^ q / 2
/-- Compare-exchanges of a top-2^p of 2^q keys (R118). -/
def topkExchanges (q p : Nat) : Nat :=
  let b := 2 ^ (q - p)
  b * (p * (p + 1) / 2 * 2 ^ p / 2) + (b - 1) * (2 ^ p + p * 2 ^ p / 2)

/-- LC.BUSY of a vector operation (R205). -/
def vectorBusy (w : Words) : Nat :=
  let q := ceilDiv (voN w) 64
  let lg := ceilLog2 (voN w)
  let r := voRows w
  match voDecode (voOp w) with
  | none => 0
  | some op => match op with
    | .special _ => r * (2 * q) + 12
    | .redSum | .redMin | .redMax | .dot => r * (q + 6) + 4
    | .sort => r * ceilDiv (sortExchanges lg) 32 + 4
    | .topk => r * ceilDiv (topkExchanges lg (min lg (ceilLog2 (voK w)))) 32 + 4
    | .argmax => r * (q + 6)
    | _ => r * q + 4

/-- LC.BUSY of a move (R206). -/
def moveBusy (w : Words) : Nat := 4 + (if mvKind w = 2 ∨ mvKind w = 3 then mvCount w else mvSlots w)

/-- LC.BUSY by the latency model. -/
def modelBusy (lead : Nat) (w : Words) : Nat :=
  if cfKind w = kArray then arrayBusy lead w
  else if cfKind w = kVector then vectorBusy w
  else if cfKind w = kMove then moveBusy w
  else 0

/-- DONE: the last scratchpad write, counted from the start (R203, R205, R206). -/
def doneOf (w : Words) : Nat :=
  let d := if apSpill w then 32 else 128
  if cfKind w = kArray then
    if apShape w = 0 then cfBusy w + planesOf (apWfmt w) + 255 + ceilDiv (apMv w * apNv w) d
    else cfBusy w + apM w + ceilDiv (apM w * apNv w) d
  else cfBusy w

end Sys2Proof.Machine
end

