-- ==== Sys2Proof/Machine/Engines.lean ====
section
/-! DEFINITION. What the array and the vector unit compute and write (R172, R177 to R185, R189, R194 to R196, R202, R204). -/

namespace Sys2Proof.Machine

/-! ### Marked bit strings -/

/-- Bytes of a bit string of nbits bits, each byte poisoned when an element that owns one of its bits is. -/
def packMarked (nbits value : Nat) (owner : Nat → Nat) (flags : List Bool) : Marked :=
  (List.range (ceilDiv nbits 8)).map fun i =>
    (BitVec.ofNat 8 (value / 2 ^ (8 * i)),
     (List.range (min 8 (nbits - 8 * i))).any fun b => flags.getD (owner (8 * i + b)) false)

/-- Whether the bits [lo, lo+n) of a marked bit string hold poison. -/
def bitsBad (m : Marked) (lo n : Nat) : Bool :=
  n ≠ 0 && Marked.bad ((m.drop (lo / 8)).take ((lo + n - 1) / 8 + 1 - lo / 8))

/-- The numbers of a stored vector with the poison of their words (R172, R242). -/
def vecMarked (code d : Nat) (m : Marked) : List (Num × Bool) :=
  let w := widthOf code
  let off := ceilDiv (32 * ceilDiv d 32 * w) 8
  ((vecNums code d m.bytes).zipIdx).map fun (x, j) =>
    (x, bitsBad m (w * j) w || (isMx code && bitsBad m (8 * (off + j / 32)) 8))

/-! ### The array (R202) -/

/-- Row i of an operand as the core reads it. -/
def readRow (c : Core) (base : Nat) (d : Word64) (i n : Nat) : Marked := c.read (opdRow base d i) n

/-- The weight of column n from a record of `cols` columns (R173, R202). -/
def recordNum (code cols n : Nat) (rec : Bytes) : Num :=
  match formatOf code with
  | none => .nan
  | some (f, _) =>
    let v := leNat rec
    let p := f.planes
    let planes := packBits (fun i => v / 2 ^ (i * cols + n) % 2 = 1) p
    f.planeNum planes (v / 2 ^ (p * cols + f.side * n) % 2 ^ f.side)

/-- Poison in the words of a record that column n is read from (R184). -/
def recordBad (code cols n : Nat) (rec : Marked) : Bool :=
  (List.range (planesOf code)).any (fun p => bitsBad rec (p * cols + n) 1) ||
    bitsBad rec (planesOf code * cols + sideOf code * n) (sideOf code)

/-- The accumulator record as it is read back (R189). -/
def laccOf (n : Nat) : LAcc :=
  { nan := n / 2 ^ 127 % 2 = 1, poison := n / 2 ^ 126 % 2 = 1, kind := n / 2 ^ 124 % 4, value := BitVec.ofNat 112 n }
/-- The record as it is written. -/
def LAcc.record (a : LAcc) : Nat :=
  a.nan.toNat * 2 ^ 127 + a.poison.toNat * 2 ^ 126 + a.kind % 4 * 2 ^ 124 + a.value.toNat

/-- The kind of record a pairing's domain keeps. -/
def domKind : Domain → Nat
  | .exact => 0
  | _ => 1

/-- The accumulator after a pass over the pairs (activation, weight) of one output (R178 to R180). -/
def accumulate (dom : Domain) (a : LAcc) (xs ws : List Num) (ex ew : List (Option Int)) : LAcc :=
  let ps := xs.zip ws
  match dom with
  | .exact =>
    let r := exactSum a.nan 0 ps
    { a with nan := r.1, kind := 0, value := a.value + BitVec.ofInt 112 r.2 }
  | .fp32 => { a with kind := 1, value := (fp32Sum (a.value.truncate 32) ps).zeroExtend 112 }
  | .mx =>
    let bs := ((chunks 32 (ps.length / 32 + 1) ps).zipIdx).map fun (b, i) => (b, ex.getD i none, ew.getD i none)
    { a with kind := 1, value := (mxSum (a.value.truncate 32) bs).zeroExtend 112 }

/-- The FP32 output of an accumulator (R178, R182). -/
def LAcc.out (a : LAcc) : Word32 :=
  if a.kind = 0 then exactOut a.nan a.value
  else if a.kind = 1 then arrayOut (a.value.truncate 32)
  else 0

/-- The exponents of a scale row: one for each block (R171, R180). -/
def scaleExps (code kb : Nat) (get : Nat → Byte) : List (Option Int) :=
  (List.range kb).map fun b =>
    match formatOf code with
    | some (f, true) => if get b = 255 then none else some (mxExp f (get b).toNat)
    | _ => some 0

/-- The accumulators of row m, column by column, with the poison of each output (R184). -/
def arrayRow (c : Core) (base : Nat) (w : Words) (recs : List Marked) (wscales : List Marked) (m : Nat) : List LAcc :=
  match domainOf (apWfmt w) (apXfmt w) with
  | none => []
  | some dom =>
    let k := apK w
    let kb := ceilDiv k 32
    let xm := readRow c base (word w 11) m (elemBytes (apXfmt w) k)
    let xw := widthOf (apXfmt w)
    let xv := leNat xm.bytes
    let xs := (List.range k).map fun j => match formatOf (apXfmt w) with
      | some (f, _) => f.num (elemAt xv xw j)
      | none => .nan
    let xsc := if isMx (apXfmt w) then readRow c base (word w 14) m kb else []
    let ex := scaleExps (apXfmt w) kb fun b => (xsc.bytes.getD b 0)
    let xbad := bitsBad xm 0 (k * xw) || xsc.bad
    (List.range (apNv w)).map fun j =>
      let n := apCol0 w + j
      let ws := recs.map fun r => recordNum (apWfmt w) (apWcols w) n r.bytes
      let ew := scaleExps (apWfmt w) kb fun b => ((wscales.getD b []).bytes.getD n 0)
      let bad := xbad || (recs.any fun r => recordBad (apWfmt w) (apWcols w) n r) ||
        wscales.any fun r => (r.getD n (0, false)).2
      let old := if apAcc w then
          let r := c.read (opdRow base (word w 13) m + 16 * j) 16
          let a := laccOf (leNat r.bytes)
          { a with poison := a.poison || r.bad }
        else {}
      let a := accumulate dom (if apAcc w then old else { kind := domKind dom }) xs ws ex ew
      { a with
        poison := old.poison || bad
        kind := if apAcc w && old.kind ≠ domKind dom then 3 else a.kind }

/-- The free output of a reduction resumed from a record of another kind, which still keeps R182: no −0.0, one NaN, and no infinity from the
exact domain. -/
def strayOut (dom : Option Domain) (rec : Nat) : Word32 :=
  let w := arrayOut (Config.badRecord (BitVec.ofNat 128 rec))
  if dom = some .exact ∧ (w = posInf ∨ w = negInf) then w - 1 else w

/-- What a pass leaves: its accumulators row by row (R188) and the bytes it writes at Y, masked to the valid extent
(R225). A record of another kind than the pass's domain has no stated continuation: its outputs are free. -/
def arrayPass (c : Core) (base : Nat) (w : Words) (rows : Nat) (mark : Bool) : List (List LAcc × Nat × Marked) :=
  let recs := (List.range (apK w)).map fun k => readRow c base (word w 12) k (recordBytes (apWfmt w) (apWcols w))
  let wscales := if isMx (apWfmt w) then
      (List.range (ceilDiv (apK w) 32)).map fun b => readRow c base (word w 15) b (apCol0 w + apNv w)
    else []
  (List.range rows).map fun m =>
    let accs := (arrayRow c base w recs wscales m).map fun a => { a with poison := a.poison || mark }
    (accs, opdRow base (word w 13) m, accs.flatMap fun a =>
      if apSpill w then (leBytes 16 a.record).map fun b => (b, a.poison)
      else (leBytes 4 (if a.kind = 3 then strayOut (domainOf (apWfmt w) (apXfmt w)) a.record else a.out).toNat).map fun b => (b, a.poison))

/-! ### The vector unit (R204, R205) -/

/-- A comparison's element. -/
def truth (b : Bool) : Word32 := if b then Config.cmpTrue else Config.cmpFalse

/-- An operation element by element, on FP32 values. -/
def vecElem (op : VOp) (a b c : Word32) : Word32 :=
  match op with
  | .add => fadd a b
  | .sub => fsub a b
  | .mul => fmul a b
  | .fma => ffma a b c
  | .min => fmin a b
  | .max => fmax a b
  | .cmpEq => truth (fcmpEq a b)
  | .cmpLt => truth (fcmpLt a b)
  | .cmpLe => truth (fcmpLe a b)
  | .abs => fabs a
  | .neg => fneg a
  | .special f => special f a
  | _ => a

/-- FP32 elements as bytes, with the poison of each. -/
def fpBytes (xs : List (Word32 × Bool)) : Marked := xs.flatMap fun x => (leBytes 4 x.1.toNat).map fun b => (b, x.2)
def keyBytes (ks : List Nat) (bad : Bool) : Marked := ks.flatMap fun k => (leBytes 8 k).map fun b => (b, bad)

/-- CVT of a row (R174 to R176): to an MX format in blocks of 32, else element by element. -/
def convertRow (code : Nat) (sat : Bool) (xs : List (Word32 × Bool)) : Marked :=
  match formatOf code with
  | none => []
  | some (f, mx) =>
    let d := xs.length
    if mx then
      let nb := ceilDiv d 32
      let blocks := chunks 32 nb xs
      let rs := blocks.map fun b => narrowBlock f sat (b.map fun x => numOf x.1)
      let bad := blocks.map fun b => b.any Prod.snd
      packMarked (32 * nb * f.width) (packElems f.width (rs.flatMap fun r => r.2 ++ List.replicate (32 - r.2.length) 0))
          (fun i => i / f.width / 32) bad
        ++ (rs.zip bad).map fun (r, b) => (BitVec.ofNat 8 r.1, b)
    else if code = fmtFp32 then fpBytes (xs.map fun x => (if isNan x.1 then qnan else x.1, x.2))
    else packMarked (d * f.width) (packElems f.width (xs.map fun x => narrow f sat (numOf x.1))) (· / f.width) (xs.map Prod.snd)

/-- PLANES: element codes to one plane-form record (R173, R202). -/
def planesRow (code d : Nat) (m : Marked) : Marked :=
  match formatOf code with
  | none => []
  | some (f, _) =>
    let v := leNat m.bytes
    let p := f.planes
    let codes := (List.range d).map fun j => elemAt v f.width j
    let sig := fun c : Nat => match f with
      | .flt ew mw _ _ => c % 2 ^ mw + (if c / 2 ^ mw % 2 ^ ew = 0 then 0 else 2 ^ mw)
      | _ => c
    let side := fun c : Nat => match f with | .flt _ mw _ _ => c / 2 ^ mw | _ => 0
    let planes := (List.range p).map fun i => packElems 1 (codes.map fun c => sig c / 2 ^ i % 2)
    let value := packElems d planes + packElems f.side (codes.map side) * 2 ^ (p * d)
    packMarked (d * (p + f.side)) value (fun b => if b < p * d then b % d else (b - p * d) / f.side)
      (codes.zipIdx.map fun (_, j) => bitsBad m (f.width * j) f.width)

/-- The selection key of the sentinel: score −∞, and the last index of all (R116, R117). -/
def sentinelKey : Nat := 0xFF800000FFFFFFFF
/-- A row of keys padded with sentinels to the next power of two (R118). DESIGN CHOICE (log 13): to k of them, where k is more than that. -/
def padKeys (k : Nat) (ks : List Nat) : List Nat :=
  ks ++ List.replicate (max k (2 ^ ceilLog2 ks.length) - ks.length) sentinelKey

/-- One row of a vector operation: the bytes it writes, and the scalar of a one-element result (R204, R205). -/
def vectorRow (op : VOp) (w : Words) (a b c : Marked) : Marked :=
  let n := voN w
  let wid := fun m : Marked => (vecMarked (voIfmt w) n m).map fun x => (widen x.1, x.2)
  match op with
  | .sort => keyBytes (sortBy (· ≤ ·) ((List.range n).map fun i => leNat ((a.bytes.drop (8 * i)).take 8))) a.bad
  | .topk =>
    let ks := (List.range n).map fun i => leNat ((a.bytes.drop (8 * i)).take 8)
    keyBytes ((sortBy (· ≤ ·) (padKeys (voK w) ks)).take (voK w)) a.bad
  | .argmax =>
    let ks := ((wid a).zipIdx).map fun (x, i) => (selKey (canon x.1), i)
    let best := ks.foldl (fun m k => if k.1 < m.1 then k else m) (ks.headD (0, 0))
    fpBytes [(BitVec.ofNat 32 best.2, a.bad)]
  | .planes => planesRow (voIfmt w) n a
  | .cvt => convertRow (voOfmt w) (cfSat w) (wid a)
  | .redSum => fpBytes [(reduceSum ((wid a).map Prod.fst), a.bad)]
  | .redMin => fpBytes [(reduceBy fmin ((wid a).map Prod.fst), a.bad)]
  | .redMax => fpBytes [(reduceBy fmax ((wid a).map Prod.fst), a.bad)]
  | .dot =>
    let bs := if opdSlots (word w 11) = 0 then List.replicate n (voImm w) else (wid b).map Prod.fst
    fpBytes [(dotF ((wid a).map Prod.fst) bs, a.bad || b.bad)]
  | op =>
    let as := wid a
    let bs := if op.usesB && opdSlots (word w 11) ≠ 0 then wid b else List.replicate n (voImm w, false)
    let cs := if op = .fma then wid c else List.replicate n (0, false)
    fpBytes (((as.zip bs).zip cs).map fun x => (vecElem op x.1.1.1 x.1.2.1 x.2.1, x.1.1.2 || x.1.2.2 || x.2.2))

/-- A vector operation's rows: where each goes at D and its bytes. -/
def vectorOut (c : Core) (base : Nat) (w : Words) (rows : Nat) (mark : Bool) : List (Nat × Marked) :=
  match voDecode (voOp w) with
  | none => []
  | some op =>
    let n := voInBytes w op
    (List.range rows).map fun i =>
      let a := readRow c base (word w 10) i n
      let b := if op.usesB && opdSlots (word w 11) ≠ 0 then readRow c base (word w 11) i n else []
      let cc := if op = .fma then readRow c base (word w 12) i n else []
      (opdRow base (word w 13) i, (vectorRow op w a b cc).map fun x => (x.1, x.2 || mark))

/-- The register result of a one-row operation: its low 32 bits; where the result is no single element, a free value of its bytes
(R197, R204). -/
def vectorScalar (c : Core) (base : Nat) (w : Words) (mark : Bool) : Word64 × Bool :=
  match vectorOut c base w 1 mark with
  | (_, m) :: _ => (if m.length = 4 then BitVec.ofNat 64 (leNat m.bytes) else Config.wideResult m.bytes, m.bad)
  | [] => (0, mark)

end Sys2Proof.Machine
end

