-- ==== Sys2Proof/Machine/Desc.lean ====
section
/-! DEFINITION. The fields of request, continue and table descriptors (R39, R42, R303). -/

namespace Sys2Proof.Machine

def dOpcode (d : Words) : Nat := bits (word d 0) 63 56
def dVersion (d : Words) : Nat := bits (word d 0) 55 52
def dTclass (d : Words) : Nat := bits (word d 0) 51 49
def dTenant (d : Words) : Nat := bits (word d 0) 47 36
def dTag (d : Words) : Word32 := BitVec.ofNat 32 (bits (word d 0) 31 0)
def dInputFinal (d : Words) : Bool := bit (word d 1) 63
def dRewriteEn (d : Words) : Bool := bit (word d 1) 62
def dSharedEn (d : Words) : Bool := bit (word d 1) 61
def dPenEn (d : Words) : Bool := bit (word d 1) 60
def dCrossEn (d : Words) : Bool := bit (word d 1) 59
def dFilterEn (d : Words) : Bool := bit (word d 1) 58
def dSnapExplicit (d : Words) : Bool := bit (word d 1) 57
def dAdapterEn (d : Words) : Bool := bit (word d 1) 56
def dOverfetch (d : Words) : Nat := bits (word d 1) 55 52
def dEncSlot (d : Words) : Nat := bits (word d 1) 51 48
def dCrossSlot (d : Words) : Nat := bits (word d 1) 47 44
def dGenSlot (d : Words) : Nat := bits (word d 1) 43 40
def dCorpus (d : Words) : Nat := bits (word d 1) 39 24
def dProbes (d : Words) : Nat := bits (word d 1) 23 12
def dShortlist (d : Words) : Nat := bits (word d 2) 63 51
def dKFinal (d : Words) : Nat := bits (word d 2) 50 38
def dCrossK (d : Words) : Nat := bits (word d 2) 37 29
def dPenK (d : Words) : Nat := bits (word d 2) 28 16
def dAdapter (d : Words) : Nat := bits (word d 2) 15 0
def dPenRef (d : Words) : Nat := (word d 3).toNat
def dSnapshot (d : Words) : Nat := bits (word d 4) 63 32
def dDeadline (d : Words) : Nat := bits (word d 4) 31 0
def dInputAddr (d : Words) : Nat := (word d 5).toNat
def dInputLen (d : Words) : Nat := bits (word d 6) 63 32
def dCtxLen (d : Words) : Nat := bits (word d 6) 31 0
def dCtxAddr (d : Words) : Nat := (word d 7).toNat
def dFilterAddr (d : Words) : Nat := (word d 8).toNat
def dFilterLen (d : Words) : Nat := bits (word d 9) 63 48
def dTemplate (d : Words) : Nat := bits (word d 9) 47 32
def dTokenBudget (d : Words) : Nat := bits (word d 9) 31 8
def dMirror (d : Words) : Nat := (word d 10).toNat
def dShortlistBuf (d : Words) : Nat := (word d 11).toNat
def dRankedBuf (d : Words) : Nat := (word d 12).toNat
def dOutputBuf (d : Words) : Nat := (word d 13).toNat
def dShortlistLen (d : Words) : Nat := bits (word d 14) 63 32
def dRankedLen (d : Words) : Nat := bits (word d 14) 31 0
def dOutputLen (d : Words) : Nat := bits (word d 15) 63 32
def dPenSnapshot (d : Words) : Nat := bits (word d 15) 31 0

def opPack : Nat := 1
def opRetrieve : Nat := 2
def opEmbed : Nat := 3
def opGenerate : Nat := 4
def opContinue : Nat := 0x0E

/-- Opcodes that scan and rank (R41). -/
def searches (d : Words) : Bool := dOpcode d = opPack || dOpcode d = opRetrieve

/-- Stage codes (R50). -/
def sgAdmit : Nat := 0
def sgTokenise : Nat := 1
def sgEmbed : Nat := 2
def sgRewrite : Nat := 3
def sgScan : Nat := 4
def sgShortlist : Nat := 5
def sgExact : Nat := 6
def sgCross : Nat := 7
def sgFilter : Nat := 8
def sgPack : Nat := 9

/-- The stages a request runs, in their order (R50, R41). -/
def stagesOf (d : Words) : List Nat :=
  let s := searches d
  [sgAdmit, sgTokenise] ++
  (if dOpcode d = opGenerate || dRewriteEn d then [sgRewrite] else []) ++
  (if dOpcode d ≠ opGenerate then [sgEmbed] else []) ++
  (if s then [sgScan, sgShortlist, sgExact] else []) ++
  (if s && dCrossEn d then [sgCross] else []) ++
  (if s && dFilterEn d then [sgFilter] else []) ++
  (if dOpcode d = opPack then [sgPack] else [])

/-- The stage after a stage, if there is one. -/
def stageAfter (d : Words) (g : Nat) : Option Nat :=
  match (stagesOf d).dropWhile (· ≠ g) with
  | _ :: n :: _ => some n
  | _ => none

/-! ### Model headers (R273) -/

def mdlType (h : Words) : Nat := bits (word h 0) 63 48
def mdlVersion (h : Words) : Nat := bits (word h 0) 47 44
def mdlKind (h : Words) : Nat := bits (word h 0) 43 40
def mdlVocab (h : Words) : Nat := bits (word h 0) 39 36
def mdlSpan (h : Words) : Nat := bits (word h 0) 35 34
def mdlDraft (h : Words) : Nat := bits (word h 0) 33 31
def mdlMaxIn (h : Words) : Nat := bits (word h 0) 15 0
def mdlTag (h : Words) : Nat := bits (word h 1) 63 32
def mdlEos (h : Words) : Nat := bits (word h 1) 31 0
def mdlOutA (h : Words) : Nat := bits (word h 2) 63 48
def mdlOutB (h : Words) : Nat := bits (word h 2) 47 32
def mdlOutC (h : Words) : Nat := bits (word h 2) 31 16
def mdlMaxOut (h : Words) : Nat := bits (word h 2) 15 0
def mdlFilter (h : Words) : Nat := bits (word h 3) 63 32
def mdlShard (h : Words) : Nat := bits (word h 3) 31 20
def mdlRank (h : Words) : Nat := bits (word h 3) 19 12
def mdlLayers (h : Words) : Nat := bits (word h 3) 11 0
def mdlPrefill (h : Words) : Nat := (word h 4).toNat
def mdlStep (h : Words) : Nat := (word h 5).toNat
def mdlWeights (h : Words) : Nat := (word h 6).toNat
def mdlKvBytes (h : Words) : Nat := bits (word h 7) 63 32
def mdlAdapters (h : Words) : Nat := 4096 * bits (word h 7) 27 0

def kindEncoder : Nat := 1
def kindCross : Nat := 2
def kindGen : Nat := 3

end Sys2Proof.Machine
end

