-- ==== Sys2Proof/Machine/Flags.lean ====
section
/-! DEFINITION. The status word of a request and its flags (R52, R53), and the mirror line (R56). -/

namespace Sys2Proof.Machine

def stGen (w : Word64) : Nat := bits w 63 48
def stState (w : Word64) : Nat := bits w 47 44
def stStage (w : Word64) : Nat := bits w 43 40
def stCount (w : Word64) : Nat := bits w 31 16
def stCode (w : Word64) : Nat := bits w 15 0

/-- States of a slot (R52). -/
def ssFree : Nat := 0
def ssAdmitted : Nat := 1
def ssRunning : Nat := 2
def ssDone : Nat := 3
def ssFailed : Nat := 4
def ssCancelled : Nat := 5
def ssExpired : Nat := 6

/-- Flag bits of the status word (R52). -/
def flContWait : Nat := 38
def flTruncated : Nat := 37
def flRanked : Nat := 36
def flPoisoned : Nat := 35
def flTieCut : Nat := 34
def flShortfall : Nat := 33
def flPartial : Nat := 32

/-- A status word from its fields. -/
def statusWord (gen state stage flags count code : Nat) : Word64 :=
  field 48 (gen % 2 ^ 16) ||| field 44 (state % 16) ||| field 40 (stage % 16) ||| field 32 (flags % 256) |||
  field 16 (count % 2 ^ 16) ||| field 0 (code % 2 ^ 16)

def setState (v : Nat) (w : Word64) : Word64 := setBits w 47 44 v
def setStage (v : Nat) (w : Word64) : Word64 := setBits w 43 40 v
def setCount (v : Nat) (w : Word64) : Word64 := setBits w 31 16 v
def setCode (v : Nat) (w : Word64) : Word64 := setBits w 15 0 v
/-- A flag set, and left set (R53). -/
def setFlag (b : Nat) (on : Bool) (w : Word64) : Word64 := if on then w ||| BitVec.ofNat 64 (2 ^ b) else w
def clearFlag (b : Nat) (w : Word64) : Word64 := w &&& ~~~(BitVec.ofNat 64 (2 ^ b))

/-- Admitted or running (R58). -/
def liveState (w : Word64) : Bool := stState w = ssAdmitted || stState w = ssRunning
/-- Terminal (R58). -/
def terminalState (w : Word64) : Bool := ssDone ≤ stState w && stState w ≤ ssExpired

/-- The 64 bytes of a mirror line (R56). -/
def mirrorLine (status : Word64) (handle tag : Word32) (time admitted : Word64) (corpusEpoch penEpoch : Word32) : Bytes :=
  leBytes 8 status.toNat ++ leBytes 4 handle.toNat ++ leBytes 4 tag.toNat ++ leBytes 8 time.toNat ++
  leBytes 8 admitted.toNat ++ leBytes 4 corpusEpoch.toNat ++ leBytes 4 penEpoch.toNat ++ zeros 24

end Sys2Proof.Machine
end

