-- ==== Sys2Proof/Machine/RequestOps.lean ====
section
/-! DEFINITION. Requests in their slots: status changes and mirror writes (R52 to R57), the end of a request and its kill
path (R59 to R63, R112, R294, R336). -/

namespace Sys2Proof.Machine

/-! ### Handles (R45) -/

def handleOf (slot gen : Nat) : Word32 := field 16 (slot % 2 ^ 16) ||| field 0 (gen % 2 ^ 16)
def handleSlot (h : Word32) : Nat := bits h 31 16
def handleGen (h : Word32) : Nat := bits h 15 0
/-- The handle of the request in a slot. -/
def State.handle (s : State) (n : Nat) : Word32 := handleOf n (stGen (s.slot n).status)
/-- The handle names an admitted or running request. -/
def State.live (s : State) (h : Word32) : Bool :=
  let w := (s.slot (handleSlot h)).status
  liveState w && stGen w = handleGen h
/-- Epochs that a request's accesses carry (R48, R304): its table's version, its corpus when it searches one, else its pen. -/
def State.scopeOf (s : State) (h : Word32) : Nat × Nat × Nat × Nat :=
  let x := s.slot (handleSlot h)
  if 0x10 ≤ dOpcode x.desc then (3, bits (word x.desc 1) 63 58, x.tableVersion.toNat, 0)
  else if !searches x.desc then (0, 0, 0, 0)
  else if dSharedEn x.desc then (1, dCorpus x.desc, x.corpusEpoch.toNat, 0)
  else if dPenEn x.desc then (2, 0, x.penEpoch.toNat, dPenRef x.desc) else (0, 0, 0, 0)

/-! ### Status and mirror -/

/-- The mirror line of a slot's request, for a status change at a time. -/
def writeMirror (n : Nat) (at_ : Word64) (s : State) : State :=
  let x := s.slot n
  hostWrite (dMirror x.desc)
    (mirrorLine x.status (s.handle n) (dTag x.desc) at_ x.admitTime x.corpusEpoch (if dPenEn x.desc then x.penEpoch else 0))
    (s.modSlot n fun x => { x with mirrorAt := s.time, mirrorPend := none })

/-- A status change: the mirror is written at once when it may not be merged or the window of R57 is past, and otherwise
waits for MIRROR_COALESCE. -/
def changeStatus (n : Nat) (force : Bool) (f : Word64 → Word64) (s : State) : State :=
  let s := s.modSlot n fun x => { x with status := f x.status }
  let x := s.slot n
  if force || s.hub.coalesce = 0 || s.hub.coalesce.toNat ≤ (s.time - x.mirrorAt).toNat then writeMirror n s.time s
  else s.modSlot n fun x => { x with mirrorPend := some s.time }

/-! ### Flocks and members (R97 to R100, R112) -/

/-- A member fits a flock (R98). -/
def flockRoom (max : Nat) (ms : List Member) (m : Member) : Bool :=
  ms.length + 1 ≤ max && ms.foldl (fun a x => a + 2 * x.h) (2 * m.h) ≤ 131072

def Flock.opened (f : Flock) : Bool := decide (f.state = .open)

/-- A root's open flock that cannot take a member is full, and so due (R99, event 1). -/
def fillFlocks (max key : Nat) (m : Member) (fs : List Flock) : List Flock :=
  fs.map fun f => if f.opened && f.key = key && !flockRoom max f.members m then { f with state := .due } else f

/-- A member joins the open flock of its root, or opens one; a flock that it fills is due (R97 to R99). -/
def joinFlock (max key : Nat) (m : Member) (fs : List Flock) : List Flock :=
  let fs := fillFlocks max key m fs
  if fs.any fun f => f.opened && f.key = key then
    fs.map fun f =>
      if f.opened && f.key = key then
        { f with members := f.members ++ [m], state := if max ≤ f.members.length + 1 then .due else .open }
      else f
  else fs ++ [⟨key, if max ≤ 1 then .due else .open, [m]⟩]

/-- The open flock of a root takes the member (R97). -/
def canJoin (max key : Nat) (m : Member) (fs : List Flock) : Bool :=
  fs.any fun f => f.opened && f.key = key && flockRoom max f.members m

/-- A member may enter the flock table of its island: it joins a flock, or a record is free for it (R98). -/
def tableRoom (max key : Nat) (m : Member) (fs : List Flock) : Bool :=
  canJoin max key m fs || ((fillFlocks max key m fs).filter Flock.opened).length < 1024

/-- Members that waited for a flock record enter, in arrival order, while the first of them can (R98). -/
def admitWaiting (max : Nat) : Nat → List (Nat × Member) → List Flock → List (Nat × Member) × List Flock
  | 0, ws, fs => (ws, fs)
  | n + 1, ws, fs =>
    match ws with
    | [] => (ws, fs)
    | (k, m) :: l => if tableRoom max k m fs then admitWaiting max n l (joinFlock max k m fs) else (ws, fs)

/-- The flocks of an island have changed: waiting members enter while they can (R98). -/
def Stack.withFlocks (max : Nat) (t : Stack) (fs : List Flock) : Stack :=
  let r := admitWaiting max t.waiting.length t.waiting fs
  { t with waiting := r.1, flocks := r.2 }

/-- The members of some requests leave an island's flocks; a flock left empty closes (R100, R112). -/
def Stack.dropMembers (max : Nat) (p : Nat → Bool) (t : Stack) : Stack :=
  let fs := (t.flocks.map fun f => { f with members := f.members.filter fun m => !p m.req }).filter fun f => f.members ≠ []
  { t with waiting := t.waiting.filter fun w => !p w.2.req }.withFlocks max fs

/-- Every island of the device without the members of some requests. -/
def dropScanReqs (p : OwnerReq → Bool) (s : State) : State :=
  let nums := (s.scan.reqs.filter p).map (·.num)
  { s with
    scan := { s.scan with reqs := s.scan.reqs.filter fun r => !p r }
    stackT := tmap {} (fun _ t => t.dropMembers s.scan.maxMembers (nums.contains ·)) s.stackT }

/-! ### The kill path -/

/-- KV pages of a sequence go back to free at once (R289, R294). -/
def freeSeq (q : Seq) (s : State) : State := q.pool.foldl (fun s pg => freePage pg s) s

/-- The sequences of a slot leave their batches and free their pages; rows that a cancel or an expiry masks mid-step are
counted, how many depending on the moment (R289, R293, R294). -/
def dropSeqs (slot : Nat) (masks : Bool) (s : State) : State :=
  let qs := s.serving.seqs.filter fun q => q.slot = slot
  let rows := qs.foldl (fun n q => n + if q.prefilled && q.stop.isNone then 1 + q.drafts.length else 0) 0
  let (free, s) := if masks && rows ≠ 0 then s.fresh else (0, s)
  let s := qs.foldl (fun s q => freeSeq q s) s
  { s with serving := { s.serving with
      seqs := s.serving.seqs.filter fun q => q.slot ≠ slot
      rowsMasked := s.serving.rowsMasked + BitVec.ofNat 64 (min rows free.toNat) } }

/-- What a kill notice, or the kill path of the entry device, does on this device (R336). -/
def killLocal (device : Nat) (h : Word32) (s : State) : State :=
  let s := if device = s.deviceId then dropCmds h s else s
  let s := dropScanReqs (fun r => r.entry = device && r.handle = h) s
  { s with
    scan := { s.scan with penWaiting := s.scan.penWaiting.filter fun b => !(msgHandle b = h && msgDevice b = device) }
    tables := tmap {} (fun _ t => { t with staged := t.staged.filter fun g => !(g.src = device && g.handle = h) }) s.tables }

/-- Ascending device ids without repeats. -/
def devicesOf (ds : List Nat) : List Nat := dedupBy id (sortBy (· ≤ ·) ds)

/-- Devices that hold scan jobs, reads or staged rows of a request (R336). -/
def State.holders (s : State) (n : Nat) : List Nat :=
  let x := s.slot n
  let scans := x.awaited.map (·.device)
  let reads := s.fabric.accesses.filterMap fun a => match a.issuer with
    | .request k => if k = n then some (bits (word a.hdr 0) 47 34) else none
    | _ => none
  devicesOf (scans ++ reads ++ x.homes.map (·.device))

/-- Kill notices to the devices that hold work of an ended request (R336, R337). -/
def sendKills (n : Nat) (code : Nat) (s : State) : State :=
  let x := s.slot n
  ((s.holders n).filter (· ≠ s.deviceId)).foldl (fun s d =>
    (sendMsg d [msgW0 0x0F 0 (s.handle n), msgW1 s.deviceId code] false (dTclass x.desc) (dTenant x.desc) false idHub s).2) s

/-- What a slot keeps of a request that has ended. -/
def Slot.ended (x : Slot) (t : Word64) : Slot :=
  { status := x.status, ring := x.ring, admitTime := x.admitTime, deadline := x.deadline, corpusEpoch := x.corpusEpoch,
    penEpoch := x.penEpoch, tableVersion := x.tableVersion, gens := x.gens, desc := x.desc, mirrorAt := x.mirrorAt,
    endTime := t : Slot }

/-- A request that ends with SHORTFALL or TIE_CUT set is counted (R142). -/
def countEnd (n : Nat) (s : State) : State :=
  let w := (s.slot n).status
  s.modHub fun h => { h with
    shortfalls := h.shortfalls + if bit w flShortfall then 1 else 0
    tieCuts := h.tieCuts + if bit w flTieCut then 1 else 0 }

/-- A table command whose commits are sent: nothing but its completion ends it (R310). -/
def Slot.commitsSent (x : Slot) : Bool := x.homes ≠ [] && x.homes.all (·.staged)

/-- The request in a live slot ends in a state other than done: STAGE stays, the status is written and never merged away,
and everything it has under way is killed (R57, R59, R60, R61). -/
def endRequest (n state code : Nat) (s : State) : State :=
  if liveState (s.slot n).status && !(s.slot n).commitsSent then
    let h := s.handle n
    let s := changeStatus n true (fun w =>
      setFlag flPoisoned (code = 0x301) (setCode code (setState state w))) s
    let s := dropSeqs n (state ≠ ssFailed) (killLocal s.deviceId h (sendKills n code s))
    let s := modFabric (fun f => { f with accesses := f.accesses.filter fun a => decide (a.issuer ≠ .request n) }) s
    countEnd n ((sampleRequest n s).modSlot n fun x => x.ended s.time)
  else s

/-- A failure of the request a handle names reaches the hub (R59); later ones are ignored. -/
def failRequest (h : Option Word32) (code : Word16) (s : State) : State :=
  match h with
  | none => s
  | some h => if s.live h then endRequest (handleSlot h) ssFailed code.toNat s else s

/-- A failure in a slot's request. -/
def failSlot (n : Nat) (code : Word16) (s : State) : State := failRequest (some (s.handle n)) code s

/-- The last enabled stage has committed: done with a count (R53, R58). -/
def finishRequest (n count : Nat) (s : State) : State :=
  let s := dropSeqs n false (changeStatus n true (fun w => setCount count (setState ssDone w)) s)
  countEnd n ((sampleRequest n s).modSlot n fun x => x.ended s.time)

/-- A stage starts (R51): the first one moves the state to running. -/
def startStage (n g : Nat) (s : State) : State :=
  changeStatus n false (fun w => setStage g (setState ssRunning w))
    (s.modSlot n fun x => { x with stageTimes := x.stageTimes ++ [(g, s.time)] })

/-- The request of a slot is live, runs stage g, and its stages before it have committed (R51). -/
def State.atStage (s : State) (n g : Nat) : Bool :=
  s.hubUp && decide (stState (s.slot n).status = ssRunning) && decide (stStage (s.slot n).status = g)

end Sys2Proof.Machine
end

