-- ==== Sys2Proof/Machine/LinkOps.lean ====
section
/-! DEFINITION. The link layer (R320 to R322), gates and shapers (R353 to R357), ingress policing (R359 to R362), accesses
in flight (R331 to R334) and reading by marked lines (R332). -/

namespace Sys2Proof.Machine

/-! ### Marked reads of the HBM tier (R257, R332) -/

/-- n bytes at a local offset, each with the poison of its line, and the code of a read that fails (R331). -/
def peekM (s : State) (off n : Nat) : Marked × Word16 :=
  let r := peek s off n
  (((r.data.zipIdx).map fun (b, i) => (b, r.poison && s.linePoison ((off + i) / 64 * 64))), r.code)

/-! ### Keys and moving packets (R320, R327) -/

/-- The link-choice key of a packet (R327). -/
def pktKey (p : Packet) : Nat := if p.type = 4 then p.addr / 4096 else accessKey p.src p.island p.tag

/-- A packet routed onto a Ready link of its destination's entry, or dropped (R320, R327). -/
def routeOut (p : Packet) (s : State) : State :=
  match s.linkFor p.dst (pktKey p) with
  | some l => enqueue l p s
  | none => s

/-- Queued packets of a link, class by class from the highest, replies first. -/
def Link.queued (k : Link) : List QPkt := (List.range 16).flatMap fun i => tget [] k.queues (15 - i)

/-- The unacknowledged and queued packets of a link leave it for other Ready links of their entries, in order (R320). -/
def moveOut (l : Nat) (s : State) : State :=
  let k := s.link l
  let s := s.modLink l fun k => { k with replay := [], queues := [] }
  (k.replay ++ k.queued).foldl (fun s q => routeOut q.pkt s) s

/-- A Ready link returns to Starting and retrains (R320, R322); causes as event 5 of R440 numbers them. -/
def retrain (l cause : Nat) (s : State) : State :=
  let k := s.link l
  if k.fn = .ready then
    let s := setLinkFn l .starting (s.modLink l fun k => { k with retrains := k.retrains + 1 })
    notable (linkIsland l) 5 (cause * 256 + l) (moveOut l s)
  else if k.fn = .draining then moveOut l s
  else s

/-- Credits of a receive buffer (R321). -/
def fullCredit : Nat := 32768

/-- A link enters Ready: sequences and credits start anew (R322, R358). -/
def linkUp (l peer peerLink : Nat) (s : State) : State :=
  setLinkFn l .ready (s.modLink l fun k =>
    { k with
      peer := field 16 (peer % 2 ^ 14) ||| field 0 (peerLink % 64), txSeq := 0, rxSeq := 0, ackOwed := false,
      discarding := false, replay := [], control := [], lastAck := s.time, credit := [], wireClass := none,
      credits := (List.range 16).map fun q => (q, fullCredit) })

/-- Link-control output waits for the next packet boundary (R352). -/
def sendControl (l : Nat) (c : LinkCtl) (s : State) : State := s.modLink l fun k => { k with control := k.control ++ [c] }

/-- Receive-buffer credit of a packet goes back to the peer (R321, R362). -/
def returnCredit (l : Nat) (p : Packet) (s : State) : State := sendControl l ⟨none, none, [(p.queue, p.cost)]⟩ s

/-- An acknowledgement clears the replay buffer up to the packet it names (R320). -/
def takeAck (l : Nat) (a : Word16) (s : State) : State :=
  s.modLink l fun k =>
    match k.replay.findIdx? fun q => q.pkt.lseq = a with
    | some i => { k with replay := k.replay.drop (i + 1), lastAck := s.time }
    | none => { k with lastAck := s.time }

/-- A NAK starts a replay from the packet it names; a packet's eighth replay retrains the link (R320). -/
def takeNak (l : Nat) (x : Word16) (s : State) : State :=
  match (s.link l).replay.findIdx? fun q => q.pkt.lseq = x with
  | none => s
  | some i =>
    let again := ((s.link l).replay.drop i).map fun q => { q with reps := q.reps + 1 }
    let n := again.length
    let s := s.modLink l fun k =>
      { k with replay := again, lastAck := s.time, replays := k.replays + BitVec.ofNat 64 n }
    let s := countEv (linkIsland l) 4 5 n { engine := some (l % 4) } s
    if again.any fun q => 8 ≤ q.reps then retrain l 1 s else s

/-! ### Ingress (R320, R328, R359) -/

/-- The receiver's test of R320: the expected sequence, messages' packets being those their own rows stand for; while a
replay is awaited, exactly the packet it starts with. -/
def seqOk (k : Link) (p : Packet) : Bool :=
  if k.discarding then p.lseq = k.rxSeq else (p.lseq - k.rxSeq).toNat < 2 ^ 15

/-- The link accepts a packet, or discards it and asks for a replay (R320). Answers whether it was accepted. -/
def receive (l : Nat) (p : Packet) (s : State) : Bool × State :=
  let k := s.link l
  if !(k.fn = .ready || k.fn = .draining) || !s.inService (linkIsland l) then (false, s)
  else
    let s := countEv (linkIsland l) 4 2 p.wire { engine := some (l % 4), tenant := some p.tenant } s
    if seqOk k p then
      (true, takeAck l p.lack (s.modLink l fun k => { k with rxSeq := p.lseq + 1, ackOwed := true, discarding := false }))
    else if k.discarding then (false, s)
    else (false, sendControl l ⟨none, some k.rxSeq, []⟩ (s.modLink l fun k => { k with discarding := true }))

/-- The bucket of an ingress policer in a link island (R359: each meters separately). -/
def bucketKey (isl pol : Nat) : Nat := 256 * isl + pol

/-- Ingress policing of a request-channel packet (R359 to R362): whether it passes. -/
def police (l : Nat) (p : Packet) (s : State) : Bool × State :=
  let pol := tget 255 s.traffic.map p.src
  if p.vc = 1 ∨ pol = 255 then (true, s)
  else
    let r := tget {} s.traffic.policers pol
    let key := bucketKey (l / 4) pol
    let b := tget {} s.traffic.buckets key
    let b := if b.used then b else fullBucket r.w1 s.time
    let c := tget 0 s.traffic.colours p.tclass
    let (colour, b') := meter r.w0 r.w1 b s.time 1024 1000 c (p.wire * 1024)
    let s := { s with traffic := { s.traffic with
      policers := tmod {} s.traffic.policers pol fun x => x.counted colour
      buckets := tset {} s.traffic.buckets key b' } }
    if colour = clRed then (false, countEv (linkIsland l) 4 6 1 { engine := some (l % 4), tenant := some p.tenant } s) else (true, s)

/-- A packet for another device goes on by this device's table, or is dropped (R328). -/
def forward (p : Packet) (s : State) : State :=
  if p.hops = 0 ∨ bit (s.route p.dst) 63 = false then modFabric (fun f => { f with routeDrops := f.routeDrops + 1 }) s
  else routeOut { p with hdr := p.hdr.set 0 (setBits (word p.hdr 0) 51 48 (p.hops - 1)) } s

/-- A packet of a type arrives on a link: link layer, policing, forwarding, and at its destination `serve`. -/
def arrive (type l : Nat) (p : Packet) (serve : State → State) (s : State) : State :=
  if p.type ≠ type then s
  else
    let (ok, s) := receive l p s
    if !ok then s
    else
      let (pass, s) := police l p s
      let s := returnCredit l p s
      if !pass then s else if p.dst ≠ s.deviceId then forward p s else serve s

/-! ### Serving accesses (R331, R332) -/

/-- Packets a piece of n bytes at address a takes (R331). -/
def segCount (a n : Nat) : Nat := ceilDiv (a % 4096 + n) 4096

/-- The payload of segment i: up to the next 4 KiB boundary of the address. -/
def segBytes (a i : Nat) (m : Marked) : Marked :=
  let start := if i = 0 then 0 else 4096 * i - a % 4096
  (m.drop start).take (4096 * (i + 1) - a % 4096 - start)

/-- A reply packet to a request. -/
def replyTo (p : Packet) (me hop seg : Nat) (code : Word16) (m : Marked) : Packet :=
  let pay := linesPad (Marked.bytes m)
  let mask := packBits (fun i => Marked.bad ((m.drop (64 * i)).take 64)) 64
  ⟨({ type := p.type + 0x80, tclass := p.tclass, vc := 1, hops := hop, dst := p.src, src := me, island := p.island,
      poison := mask ≠ 0, tag := p.tag, tenant := p.tenant, sys := p.sys, plen := pay.length, addr := p.addr,
      rlen := p.rlen, seg := seg, code := code.toNat : PktF }).words, pay, BitVec.ofNat 64 mask⟩

/-- A READ, GATHER or FETCH is served: the epoch against the floor, then the range, then its reply (R331). -/
def serveRead (p : Packet) (s : State) : State :=
  let off := p.addr % 2 ^ 50
  let scope := bits (word p.hdr 3) 63 62
  let reply := fun seg code m s => routeOut (replyTo p s.deviceId s.fabric.hopLimit seg code m) s
  if !s.floorOk scope (bits (word p.hdr 3) 47 32) (bits (word p.hdr 3) 31 0) (word p.hdr 4).toNat then
    reply 0 0x312 [] { s with publish := { s.publish with floorFails := s.publish.floorFails + 1 } }
  else
    let (m, code) := peekM s off p.rlen
    if code ≠ 0 then reply 0 code [] s
    else (List.range (segCount off p.rlen)).foldl (fun s i => reply i 0 (segBytes off i m) s) (touch [(off, p.rlen)] s)

/-! ### Accesses of this device (R331, R333) -/

/-- A request of an issuing island goes out and its reply is awaited; none when it cannot be sent (R328). -/
def issue (island : Nat) (issuer : Issuer) (f : Nat → PktF) (payload : Bytes) (s : State) : Option Nat × State :=
  let (tag, s) := takeTag island s
  let p : Packet := ⟨(f tag).words, payload, 0⟩
  match s.linkFor p.dst (pktKey p) with
  | none => (none, s)
  | some l => (some tag, modFabric (fun x => { x with
      accesses := x.accesses ++ [⟨island, tag, issuer, p.hdr, payload, s.time, 0, []⟩] }) (enqueue l p s))

/-- The access awaited under a tag. -/
def State.access (s : State) (island tag : Nat) : Option Access :=
  s.fabric.accesses.find? fun a => a.island = island && a.tag = tag
def dropAccess (island tag : Nat) (s : State) : State :=
  modFabric (fun f => { f with accesses := f.accesses.filter fun a => !(a.island = island && a.tag = tag) }) s

/-! ### Gates (R354, R355) -/

/-- The intervals of a list and its cycle time. -/
def GateList.intervals (g : GateList) : List Nat := g.entries.map fun e => bits e 31 0
def GateList.cycle (g : GateList) : Nat := g.intervals.foldl (· + ·) 0
/-- The end, within the cycle, of entry i. -/
def GateList.entryEnd (g : GateList) (i : Nat) : Nat := (g.intervals.take (i + 1)).foldl (· + ·) 0
/-- Nanoseconds of the cycle in progress that have passed. -/
def GateList.phase (g : GateList) (t : Word64) : Nat := (t - g.base).toNat % g.cycle
/-- The entry whose interval holds a time. -/
def GateList.entryAt (g : GateList) (t : Word64) : Nat :=
  ((List.range g.entries.length).find? fun i => g.phase t < g.entryEnd i).getD 0

/-- Class c's gate is open (R354). -/
def State.gateOpen (s : State) (l c : Nat) : Bool :=
  let k := s.link l
  match k.gateActive with
  | none => true
  | some g => !k.gateEnable || decide (s.timeAt (linkIsland l) < g.base) || bit (g.entries.getD k.gateEntry 0) (56 + c)

/-- Class c is in its guard band (R355). -/
def State.guarded (s : State) (l c : Nat) : Bool := (s.link l).gateEnable && bit (s.link l).guard c

/-- The link's wire is at a packet boundary. -/
def State.boundary (s : State) (l : Nat) : Bool := (s.link l).wireEnd ≤ 100 * s.time.toNat

/-- Bytes of a replay buffer, and those that its packets take (R320). -/
def replayBytes : Nat := 131072
def Link.unacked (k : Link) : Nat := k.replay.foldl (fun a q => a + q.pkt.wire) 0

/-- A queue of a link may start its head packet (R320, R321, R353): it is kept in the replay buffer, so it must fit there. -/
def State.eligible (s : State) (l q : Nat) : Bool :=
  let k := s.link l
  match tget [] k.queues q with
  | [] => false
  | p :: _ => s.gateOpen l (q / 2) && !s.guarded l (q / 2) &&
      (tget 0 k.rates (q / 2) = 0 || 0 ≤ tget 0 k.credit (q / 2)) && p.pkt.cost ≤ tget 0 k.credits q &&
      k.unacked + p.pkt.wire ≤ replayBytes

/-- The highest-ranked eligible queue: by class, replies before requests (R353). -/
def State.bestQueue (s : State) (l : Nat) : Option Nat := ((List.range 16).map (15 - ·)).find? fun q => s.eligible l q

/-- The head packet of a queue starts: sequence, acknowledgement and CRC written, credit taken, its queueing delay kept as
a high-water mark (R320, R321, R364). -/
def startPacket (l q : Nat) (s : State) : State :=
  let k := s.link l
  match tget [] k.queues q with
  | [] => s
  | p :: rest =>
    let w6 := field 48 k.txSeq.toNat ||| field 32 (k.rxSeq - 1).toNat
    let hdr := (p.pkt.hdr.take 6) ++ [w6, 0]
    let pkt : Packet := { p.pkt with hdr := (hdr.take 7) ++ [BitVec.ofNat 64 (headerCrc hdr)] }
    let delay := BitVec.ofNat 32 (min (2 ^ 32 - 1) (s.timeAt (linkIsland l) - p.at_).toNat)
    let s := s.modLink l fun k => { k with
      queues := tset [] k.queues q rest
      replay := k.replay ++ [{ pkt := pkt, at_ := p.at_ }]
      lastAck := if k.replay = [] then s.time else k.lastAck
      txSeq := k.txSeq + 1
      ackOwed := false
      credits := tmod 0 k.credits q (· - pkt.cost)
      hwm := tmod 0 k.hwm q fun h => if h < delay then delay else h
      wireEnd := 100 * s.time.toNat + pkt.wire
      wireClass := some (q / 2) }
    let s := { s with traffic := { s.traffic with classHwm := tmod 0 s.traffic.classHwm (q / 2) fun h => if h < delay then delay else h } }
    countEv (linkIsland l) 4 1 pkt.wire { engine := some (l % 4), tenant := some pkt.tenant } s

end Sys2Proof.Machine
end

