-- ==== Sys2Proof/Machine/Index.lean ====
section
/-! DEFINITION. Index objects as the device reads them (R69 to R78): corpus descriptors, version walks, roots, segments,
entry records, pen headers. -/

namespace Sys2Proof.Machine

/-- A record of the HBM tier: n words at a local offset. -/
def recW (s : State) (off n : Nat) : Words := peekWords s off n

/-! ### Corpus descriptors (R69) -/

def corpType (w : Words) : Nat := bits (word w 0) 63 48
def corpLists (w : Words) : Nat := bits (word w 0) 31 0
def corpSketchBits (w : Words) : Nat := bits (word w 1) 63 48
def corpDim (w : Words) : Nat := bits (word w 1) 47 32
def corpFormat (w : Words) : Nat := bits (word w 1) 31 24
def corpProbes (w : Words) : Nat := bits (word w 1) 23 12
def corpDirHead (w : Words) : Nat := (word w 2).toNat
def corpCentroids (w : Words) : Nat := (word w 3).toNat
def corpAttr (w : Words) : Nat := (word w 4).toNat

/-- The descriptor keeps R69. -/
def corpOk (w : Words) : Bool :=
  corpType w = 4 && 1 ≤ corpLists w && corpLists w ≤ 2 ^ 20 && corpSketchBits w % 256 = 0 && 256 ≤ corpSketchBits w &&
  corpSketchBits w ≤ 2048 && 1 ≤ corpDim w && corpDim w ≤ 8192 && (formatOf (corpFormat w)).isSome &&
  rsvd (word w 1) 11 0 && word w 5 = 0 && word w 6 = 0 && word w 7 = 0

/-- The corpus descriptor of a registration slot. -/
def State.corpDesc (s : State) (n : Nat) : Words := recW s (s.corpus n).desc.toNat 8

/-! ### Versions (R70, R71, R77) -/

def verType (w : Words) : Nat := bits (word w 0) 63 48
def verEpoch (w : Words) : Nat := bits (word w 0) 31 0
def verPrev (w : Words) : Nat := (word w 1).toNat

/-- What a walk of R77 found: a version, none at the epoch, or a broken chain; and the pages it read. -/
structure Walk where
  version : Option Nat
  broken  : Bool
  read    : List Nat
  deriving DecidableEq, Repr

/-- The walk from version v at epoch e; epochs fall strictly, so it ends within the pages there are. -/
def walkFrom (s : State) (e : Nat) : Nat → Nat → List Nat → Walk
  | 0, _, read => ⟨none, true, read⟩
  | f + 1, v, read =>
    if v = 0 then ⟨none, false, read⟩
    else if !localOk v then ⟨none, true, read⟩
    else
      let r := recW s v 2
      let read := read ++ [v]
      if verEpoch r ≤ e then ⟨some v, false, read⟩
      else
        let w := verPrev r
        if w = 0 then ⟨none, false, read⟩
        else if !localOk w then ⟨none, true, read⟩
        else if verType (recW s w 2) ≠ verType r || verEpoch r ≤ verEpoch (recW s w 2) then ⟨none, true, read ++ [w]⟩
        else walkFrom s e f w read

/-- select(head word, epoch) of R77 from the value the head word holds. -/
def walk (s : State) (head e : Nat) : Walk := walkFrom s e (s.pageMap.length + 2) head []

/-! ### Roots and segments (R71, R72) -/

def rootList (w : Words) : Nat := bits (word w 2) 63 32
def rootCorpus (w : Words) : Nat := bits (word w 2) 31 16
def rootSegs (w : Words) : Nat := bits (word w 2) 5 0

/-- A segment record. -/
structure Seg where
  count  : Nat
  data   : Nat
  entry  : Nat
  tomb   : Nat
  deriving DecidableEq, Repr

/-- The segments of a root, in order. -/
def segsOf (s : State) (root : Nat) : List Seg :=
  (List.range (rootSegs (recW s root 8))).map fun g =>
    let w := recW s (root + 64 + 64 * g) 8
    ⟨bits (word w 0) 16 0, (word w 1).toNat, (word w 2).toNat, (word w 3).toNat⟩

/-- Bytes of a tombstone bitmap that a sweep reads. -/
def tombBytes (g : Seg) : Nat := ceilDiv g.count 8

/-- Entry i of a segment is tombstoned (R78). -/
def tombed (s : State) (g : Seg) (i : Nat) : Bool :=
  g.tomb ≠ 0 && (match (peek s (g.tomb + i / 8) 1).data with | b :: _ => bit b (i % 8) | [] => false)

/-- The visible entries of a segment (R78). -/
def visibleIn (s : State) (g : Seg) : List Nat := (List.range g.count).filter fun i => !tombed s g i

/-- Addresses of a segment lie in the stack map (R96, R108). -/
def segOk (g : Seg) (dataBytes : Nat) : Bool :=
  inside g.data (g.count * dataBytes) && inside g.entry (32 * g.count) && (g.tomb = 0 || inside g.tomb (tombBytes g))
where
  /-- A range of one stack, wholly inside the map. -/
  inside (a n : Nat) : Bool := localOk a && localOk (a + n - 1) && stackOf a = stackOf (a + n - 1)

/-! ### Entry records (R72) -/

def entId (r : Words) : Word64 := word r 0
def entVec (r : Words) : Nat := (word r 1).toNat
def entStr (r : Words) : Nat := (word r 2).toNat
def entAttr (r : Words) : Nat := bits (word r 3) 63 32
def entTokens (r : Words) : Nat := bits (word r 3) 31 16

/-! ### Pens (R74, R75) -/

def penRoot (w : Words) : Nat := (word w 0).toNat
def penEpochOf (w : Words) : Nat := bits (word w 1) 63 32
def penFloor (w : Words) : Nat := bits (word w 1) 31 0
def penTenant (w : Words) : Nat := bits (word w 2) 63 52
def penFormat (w : Words) : Nat := bits (word w 2) 47 40
def penDim (w : Words) : Nat := bits (word w 2) 31 16

/-- The header keeps R74. -/
def penOk (w : Words) : Bool :=
  rsvd (word w 2) 51 48 && rsvd (word w 2) 39 32 && rsvd (word w 2) 15 0 && rsvd (word w 3) 31 0 &&
  1 ≤ penDim w && penDim w ≤ 8192 && (formatOf (penFormat w)).isSome && word w 4 = 0 && word w 5 = 0 && word w 6 = 0 && word w 7 = 0

/-- A published pointer page holds the offset. -/
def State.pointerAt (s : State) (off : Nat) : Bool :=
  localOk off && (s.page (pageNo off)).kind.written && (s.page (pageNo off)).pointer

/-! ### Epochs held (R82, R84) -/

/-- The lowest of a list, or none. -/
def lowest (ns : List Nat) : Option Nat := ns.foldl (fun m n => match m with | none => some n | some k => some (min k n)) none

/-- OLDEST_HELD of a registration slot (R90): epochs of its corpus held by live requests and by sweeps running here; a slot whose CORPUS_DESC
is 0 holds no corpus. -/
def State.oldestHeld (s : State) (n : Nat) : Nat :=
  let id := (s.corpus n).id.toNat
  if (s.corpus n).desc = 0 then 0xFFFFFFFF else
  let reqs := s.slots.filterMap fun e =>
    if liveState e.2.status && dSharedEn e.2.desc && searches e.2.desc && dCorpus e.2.desc = id then some e.2.corpusEpoch.toNat else none
  let scans := s.scan.reqs.filterMap fun r => if r.corpus = id then some r.epoch.toNat else none
  (lowest (reqs ++ scans)).getD 0xFFFFFFFF

/-- The lowest pen epoch held here for the pen at a local offset (R82, check 6). -/
def State.penHeld (s : State) (off : Nat) : Option Nat :=
  let here := fun ref : Nat => deviceOf ref = s.deviceId && ref % 2 ^ 50 = off
  let reqs := s.slots.filterMap fun e =>
    if liveState e.2.status && dPenEn e.2.desc && searches e.2.desc && here (dPenRef e.2.desc) then some e.2.penEpoch.toNat else none
  let recs := s.scan.penRecords.filterMap fun r => if here r.ref.toNat then some r.epoch.toNat else none
  lowest (reqs ++ recs)

end Sys2Proof.Machine
end

