-- ==== Sys2Proof/Machine/Publish.lean ====
section
/-! DEFINITION. Publish jobs and epochs (R80 to R88): submission, PAGES, SWITCH, FREE, LOAD, release, advance and floor. -/

namespace Sys2Proof.Machine

/-! ### The job descriptor (R80) -/

def jbKind (d : Words) : Nat := bits (word d 0) 63 56
def jbWide (d : Words) : Bool := bit (word d 0) 49
def jbPointer (d : Words) : Bool := bit (word d 0) 48
def jbStack (d : Words) : Nat := bits (word d 0) 35 32
def jbSrc (d : Words) : Nat := (word d 1).toNat
def jbDst (d : Words) : Nat := (word d 2).toNat
def jbCount (d : Words) : Nat := bits (word d 3) 63 32
def jbEpoch (d : Words) : Nat := bits (word d 3) 31 0
def jbExpect (d : Words) : Nat := (word d 4).toNat
def jbNew (d : Words) : Nat := (word d 5).toNat
def jbScope (d : Words) : Nat := bits (word d 6) 63 56
def jbPenFloor (d : Words) : Nat := bits (word d 6) 31 0
def jbResult (d : Words) : Nat := (word d 7).toNat

def jkPages : Nat := 1
def jkSwitch : Nat := 2
def jkFree : Nat := 3
def jkLoad : Nat := 4

/-- A hall destination (R80, R81). -/
def jbHall (d : Words) : Bool := deviceOf (jbDst d) ≠ 0

/-- The descriptor's form (R395, check 1). An operation of a LOAD is no LOAD. -/
def jobFormOk (inLoad : Bool) (d : Words) : Bool :=
  let k := jbKind d
  1 ≤ k && k ≤ (if inLoad then 3 else 4) && bits (word d 0) 55 52 = 1 && rsvd (word d 0) 51 50 && rsvd (word d 0) 47 36 &&
  rsvd (word d 6) 55 32 && jbScope d ≤ 64 && (k = jkSwitch || 1 ≤ jbCount d) &&
  (if k = jkLoad then jbResult d ≠ 0 && jbResult d % 64 = 0 else jbResult d = 0) && jbStack d < 12

/-- The pages a local PAGES or a FREE descriptor names. -/
def jbPages (d : Words) : List Nat := (List.range (jbCount d)).map (pageNo (jbDst d) + ·)

/-- A PAGES destination: pages of another device, or whole pages inside the map, on the stack that JOB.STACK names and outside the
intake region; a job that names another one is accepted and fails (R81, R252, R261). -/
def pagesDst (d : Words) (s : State) : Bool :=
  jbHall d || (jbDst d % 4096 = 0 && localOk (jbDst d) && stackOf (jbDst d) = jbStack d &&
    localOk (jbDst d + 4096 * jbCount d - 1) && stackOf (jbDst d + 4096 * jbCount d - 1) = jbStack d &&
    !((jbPages d).any fun p => s.inIntake (4096 * p)))

/-- The stack of a PAGES job: its destination's, or the one that issues its pages (R81). -/
def pagesStack (d : Words) : Nat := if jbHall d then jbStack d else stackOf (jbDst d)

/-- The stack that a PAGES, SWITCH or FREE descriptor uses (R81, R269). -/
def jbUses (d : Words) : Option Nat :=
  if jbKind d = jkPages then some (pagesStack d)
  else if jbKind d = jkSwitch ∨ jbKind d = jkFree then some (stackOf (jbDst d)) else none

/-- The descriptor that a job has under way: its own, or of a LOAD its present operation's. -/
def Job.under (j : Job) : Words := if j.kind = jkLoad then j.cur else j.desc

/-- A job is accepted or running. -/
def Job.held (j : Job) : Bool := j.state = .accepted || j.state = .running
def Job.isFailed (j : Job) : Bool := decide (j.state = .failed)

/-- SWITCH operations of an array, as the first read of a LOAD records them (R84). -/
def switchesOf (ops : List Words) : List SwitchOp :=
  (ops.zipIdx.filter fun o => jbKind o.1 = jkSwitch).map fun o => ⟨o.2, jbScope o.1, BitVec.ofNat 32 (jbEpoch o.1), false⟩

/-! ### Submission (R80, R81, R395) -/

/-- The acceptance checks of a PAGES descriptor (R81). -/
def pagesAccept (d : Words) (s : State) : Word16 :=
  if pagesStack d < 12 && !s.stackUp (pagesStack d) then 0x321
  else if !jbHall d && pagesDst d s && (jbPages d).any fun p => (s.page p).kind ≠ .free then 0x310 else 0

/-- Reserves the destination pages of a local PAGES descriptor (R81). -/
def pagesReserve (d : Words) (s : State) : State :=
  if jbHall d || !pagesDst d s then s else (jbPages d).foldl (fun s p => reservePage p s) s

/-- A job is submitted (R80 to R84, R395): the code of a rejection, or its slot and generation. Of the free slots it takes the lowest
(DESIGN CHOICE, log 7). -/
def submitJob (d : Words) (s : State) : (Word16 × Nat × Byte) × State :=
  match (List.range 16).find? fun n => (s.job n).state = .free with
  | none => ((if jobFormOk false d then 0x31A else 0x315, 0, 0), s)
  | some n =>
    let code := if !jobFormOk false d then 0x315 else if jbKind d = jkPages then pagesAccept d s else 0
    if code ≠ 0 then ((code, 0, 0), s)
    else
      let gen := if (s.job n).gen = 255 then 1 else (s.job n).gen + 1
      let s := if jbKind d = jkPages then pagesReserve d s else s
      ((0, n, gen), { s with publish := { s.publish with nextOrder := s.publish.nextOrder + 1 } }.modJob n fun _ =>
        { state := .accepted, gen := gen, kind := jbKind d, desc := d, order := s.publish.nextOrder,
          cur := if jbKind d = jkPages then d else [],
          switches := if jbKind d = jkSwitch then switchesOf [d] else [] : Job })

/-- JOB_STATUS of a slot (R83). -/
def Job.word (j : Job) : Word64 :=
  let st := match j.state with | .free => 0 | .accepted => 1 | .running => 2 | .done => 3 | .failed => 4
  field 56 j.gen.toNat ||| field 52 st ||| field 48 (j.kind % 16) ||| field 16 j.progress.toNat ||| field 0 j.code.toNat

/-- A PAGES or a FREE job. -/
def Job.plain (j : Job) : Bool := j.kind = jkPages || j.kind = jkFree

/-- A job may start, or runs: jobs start in submission order, and only PAGES and FREE jobs beside running ones (R83). -/
def State.jobMayRun (s : State) (n : Nat) : Bool :=
  let j := s.job n
  j.held && (j.state = .running ||
    s.jobs.all fun e => !(e.2.held && e.2.order < j.order) || (e.2.plain && j.plain && e.2.state = .running))

/-- A JOB_STATUS has reached done or failed (event kind 2, R398). -/
def noteJob (n : Nat) (s : State) : State := raiseEvent 2 0x4120 (BitVec.ofNat 8 (n + 1)) (bits (s.job n).word 31 0) s

/-- Pages that a PAGES descriptor reserved here and did not write: they stay reserved for a FREE to return (R81, R87). -/
def orphanPages (d : Words) (s : State) : State :=
  if jbKind d = jkPages && !jbHall d && pagesDst d s then
    (jbPages d).foldl (fun s p => if (s.page p).kind = .reserved then s.modPage p fun x => { x with orphan := true } else s) s
  else s

/-- Nothing on the fabric is the job's any more. -/
def dropJobAccesses (n : Nat) : State → State :=
  modFabric fun f => { f with
    accesses := f.accesses.filter fun a => match a.issuer with | .job k _ => k ≠ n | _ => true
    misses := f.misses.filter fun m => match m.issuer with | .job k _ => k ≠ n | _ => true }

/-- A job fails with a code (R81, R83). -/
def failJob (n : Nat) (code : Word16) (s : State) : State :=
  dropJobAccesses n (noteJob n ((orphanPages (s.job n).cur s).modJob n fun j =>
    { j with state := .failed, code := code, switches := [], cur := [] }))

/-- A job is done (R83). -/
def endJob (n : Nat) (s : State) : State := noteJob n (s.modJob n fun j => { j with state := .done, switches := [], cur := [] })

/-- The present operation of a LOAD ends with a code; a SWITCH of it no longer counts (R84, R88). -/
def endOp (n : Nat) (code : Word16) (s : State) : State :=
  dropJobAccesses n ((if code = 0 then s else orphanPages (s.job n).cur s).modJob n fun j =>
    { j with
      cur := [], issued := 0, missed := 0, pages := 0, opAt := j.opAt + 1, codes := j.codes ++ [code],
      opFailed := j.opFailed || code ≠ 0,
      switches := j.switches.map fun o => if o.op = j.opAt then { o with ended := true } else o })

/-- What a job has under way ends with a code: an operation of a LOAD, or the job itself (R81, R88). -/
def stopWork (n : Nat) (code : Word16) (s : State) : State :=
  if (s.job n).kind = jkLoad then endOp n code s else if code = 0 then endJob n s else failJob n code s

/-- Whatever jobs accepted or running have on a stack fails (R81, R269, R435). -/
def failJobsOf (stack : Nat) (code : Word16) (s : State) : State :=
  ((s.jobs.filter fun e => e.2.held && jbUses e.2.under = some stack).map Prod.fst).foldl (fun s n => stopWork n code s) s

/-! ### PAGES (R81) -/

/-- The local offset of an intake address of the host (R391), if the address is one. -/
def State.intakeOffset (s : State) (a : Nat) : Option Nat := (s.windowOffset a).map (s.hbm.intakeBase.toNat + ·)

/-- The pieces of a page's read on another device, as they came (R331). -/
def srcFetches (p : SrcPage) (a : Nat) : List Fetch :=
  (blocksOf a 4096).map fun c =>
    ⟨BitVec.ofNat 64 c.1, (fit 4096 p.data).drop (c.1 - a), p.poison, if p.readable then 0 else 0x311⟩

/-- A source page of a descriptor (R81): of the hall through the keyring's read check, of the intake region as this device holds it,
and of host memory as its read delivered it. -/
def sourcePage (d : Words) (a : Nat) (src : SrcPage) (s : State) : HallOut × State :=
  if deviceOf a ≠ 0 then
    hallRead { addr := a, len := 4096, right := 0, tenant := 0, sys := true, island := idMemory (pagesStack d), tclass := s.sysClass }
      (srcFetches src a) s
  else match s.intakeOffset a with
  | none => (if src.readable then .data (fit 4096 src.data) src.poison else .fail 0x311, hostRead a 4096 s)
  | some off =>
    let r := peek s off 4096
    (if s.intakeState ≠ 2 then .fail 0x321 else if r.code ≠ 0 then .fail 0x311 else .data r.data r.poison, touch [(off, 4096)] s)

/-- The packet of a published page (R325, R334). -/
def publishPkt (s : State) (island addr : Nat) (tag : Nat) : PktF :=
  { type := 4, tclass := s.sysClass, hops := s.fabric.hopLimit, dst := deviceOf addr, src := s.deviceId, island := island,
    tag := tag, sys := true, plen := 4096, addr := addr }

/-- A page arrives for writing at its memory island (R81, R334): the code of its ack. -/
def acceptPage (pointer : Bool) (off : Nat) (data : Bytes) (s : State) : Word16 × State :=
  let pg := pageNo off
  if !localOk off ∨ off % 4096 ≠ 0 ∨ s.inIntake off then (0x315, s)
  else if !s.stackUp (stackOf off) then (0x321, s)
  else if (s.page pg).kind = .published ∧ memRead s.mem (s.cellAddr off) 4096 = fit 4096 data then (0, s)
  else if (s.page pg).kind ≠ .free then (0x310, s)
  else (0, writePage pg pointer data s)

/-- A published page is written at its memory island and acknowledged with the result (R81, R334); it waits while the page there is
being copied to a spare one (R270). -/
def servePublish (p : Packet) (s : State) : State :=
  if s.copying (pageNo p.addr) then modHbm (fun h => { h with held := h.held ++ [p] }) s
  else
    let (code, s) := acceptPage false (p.addr % 2 ^ 50) p.payload s
    routeOut (replyTo p s.deviceId s.fabric.hopLimit 0 code []) s

/-- The cluster whose drover refills for a memory island's publish engine (R341). -/
def refillCluster (m : Nat) : Nat := m % 6 + 8 * (m / 6)

/-- A transfer of page i missed the keyring: it waits for its refill, or what it was for ends with a code (R341, R346). -/
def missPage (n i addr right : Nat) (code : Word16) (s : State) : State :=
  let cl := refillCluster (pagesStack (s.job n).cur)
  if s.keyring.reruns ≤ (s.job n).missed then stopWork n code (unresolved cl 0 s)
  else modFabric (fun f => { f with misses := f.misses ++ [⟨.job n i, none, BitVec.ofNat 64 addr, right, 0, true, cl⟩] })
    (s.modJob n fun j => { j with missed := j.missed + 1 })

/-- Page i has left its engine. -/
def pageSent (n i : Nat) (s : State) : State := s.modJob n fun j => { j with issued := i + 1, missed := 0 }

/-- One more page is written or acknowledged; the PROGRESS of a PAGES job counts them (R83). -/
def pageDone (n : Nat) (s : State) : State :=
  s.modJob n fun j =>
    { j with pages := j.pages + 1, progress := if j.kind = jkPages then BitVec.ofNat 32 (j.pages + 1) else j.progress }

/-- A page with its data goes to its place: written here, or published on its device through the keyring (R81, R334). A write waits while
the page is being copied to a spare one (R270). -/
def putPage (n i : Nat) (data : Bytes) (s : State) : State :=
  let d := (s.job n).cur
  let addr := jbDst d + 4096 * i
  if !jbHall d then
    if s.copying (pageNo addr) then s else pageDone n (pageSent n i (writePage (pageNo addr) (jbPointer d) data s))
  else
    let isl := idMemory (jbStack d)
    let here := deviceOf addr = s.deviceId
    match if here then some (s.loopIsland isl) else (s.linkFor (deviceOf addr) (addr / 4096)).map (· / 4) with
    | none => stopWork n 0x403 s
    | some li =>
      let (ok, s) := keyCheck li 3 addr 4096 0 true s
      if !ok then missPage n i addr 3 0x402 s
      else if here then
        if s.copying (pageNo addr) then s
        else match acceptPage (jbPointer d) (addr % 2 ^ 50) data s with
          | (code, s) => if code ≠ 0 then stopWork n code s else pageDone n (pageSent n i s)
      else match issue isl (.job n i) (publishPkt s isl addr) data s with
        | (none, s) => stopWork n 0x403 s
        | (some _, s) => pageSent n i s

/-- One page of what a job has under way (R81, R341). -/
def pageOf (n i : Nat) (src : SrcPage) (s : State) : State :=
  let d := (s.job n).cur
  match sourcePage d (jbSrc d + 4096 * i) src s with
  | (.data p poison, s) => if poison then stopWork n 0x311 s else putPage n i p s
  | (.miss a, s) => missPage n i a 0 0x311 s
  | (.fail code, s) => stopWork n (if code = 0x321 then code else 0x311) s
  | (.absent, s) => s

/-- A PAGES descriptor whose last page is written or acknowledged ends (R81). -/
def settlePages (n : Nat) (s : State) : State :=
  let j := s.job n
  if j.state = .running ∧ j.cur ≠ [] ∧ j.pages = jbCount j.cur then stopWork n 0 s else s

/-- A job waits for the refill of a page's access (R341). -/
def State.jobMissing (s : State) (n : Nat) : Bool :=
  s.fabric.misses.any fun m => match m.issuer with | .job k _ => k = n | _ => false

/-- Pages of what a job has under way, taken in turn from what their reads deliver. -/
def runPages (n : Nat) (src : List SrcPage) (s : State) : State :=
  if !pagesDst (s.job n).cur s then stopWork n 0x315 s
  else settlePages n (src.foldl (fun s p =>
    let j := s.job n
    if j.state = .running ∧ j.cur ≠ [] ∧ j.issued < jbCount j.cur ∧ s.jobMissing n = false then
      withSnoops [(jbSrc j.cur + 4096 * j.issued, 4096)] (pageOf n j.issued p) s
    else s) s)

/-- A job has started (R83). -/
def startJob (n : Nat) (s : State) : State := s.modJob n fun j => { j with state := .running }

/-- PAGES (R81). -/
def execPages (job : Nat) (src : List SrcPage) (s : State) : Host.Outcome State Fault Refusal :=
  .next (if s.hubUp && s.jobMayRun job && (s.job job).kind = jkPages then runPages job src (startJob job s) else s)

/-- A page's ack: the page is acknowledged, or what it was for ends with the code (R81, R334). -/
def ackPage (n : Nat) (code : Word16) (s : State) : State :=
  if code ≠ 0 then stopWork n code s else settlePages n (pageDone n s)

/-! ### Freeing (R87) -/

/-- The floor of a scope: a registration slot's, or that of the pen whose header is at an offset. -/
def State.floorOf (s : State) (scope pen : Nat) : Nat :=
  if scope = 0 then penFloor (recW s pen 8) else (s.corpus (scope - 1)).floor.toNat

/-- Retiring pages whose scope's floor has risen above their free-after epoch become free (R87). -/
def sweepRetiring (scope pen : Nat) (s : State) : State :=
  let f := s.floorOf scope pen
  ((s.pageMap.filter fun e => e.2.kind = .retiring && e.2.scope = scope && (scope ≠ 0 || e.2.pen.toNat = pen) &&
    e.2.freeAfter.toNat < f).map Prod.fst).foldl (fun s p => freePage p s) s

/-- FREE treats one page (R87); answers whether it could. -/
def freeOne (d : Words) (p : Nat) (s : State) : Bool × State :=
  let x := s.page p
  if x.kind = .published then
    let s := s.modPage p fun x => { x with kind := .retiring, scope := jbScope d, pen := word d 5, freeAfter := BitVec.ofNat 32 (jbEpoch d) }
    (true, if jbEpoch d < s.floorOf (jbScope d) (jbNew d) then freePage p s else s)
  else if x.kind = .reserved ∧ x.orphan then (true, freePage p s)
  else (false, s)

/-- A FREE's pages are whole pages inside the map and outside the intake region, and its pen scope names a pen header (R87, R252, R261). -/
def freeDst (d : Words) (s : State) : Bool :=
  jbDst d % 4096 = 0 && localOk (jbDst d) && localOk (jbDst d + 4096 * jbCount d - 1) &&
  !((jbPages d).any fun p => s.inIntake (4096 * p)) && (jbScope d ≠ 0 || (s.pointerAt (jbNew d) && jbNew d % 64 = 0))

/-- A FREE descriptor run: its code, the number of pages treated, and the state after (R87, R270). -/
def runFree (d : Words) (s : State) : Word16 × Nat × State :=
  if !freeDst d s then (0x315, 0, s)
  else if !s.stackUp (stackOf (jbDst d)) then (0x321, 0, s)
  else (jbPages d).foldl (fun a p =>
    let (ok, s) := freeOne d p a.2.2
    if ok then (a.1, a.2.1 + 1, s) else (0x315, a.2.1, s)) (0, 0, s)

/-- FREE (R87): PROGRESS counts the pages treated. -/
def execFreeJob (job : Nat) (s : State) : Host.Outcome State Fault Refusal :=
  .next (if s.hubUp && s.jobMayRun job && (s.job job).kind = jkFree then
    let (code, k, s) := runFree (s.job job).desc s
    let s := s.modJob job fun j => { j with progress := BitVec.ofNat 32 k }
    if code ≠ 0 then failJob job code s else endJob job s
  else s)

/-! ### SWITCH (R82) -/

/-- The registration slot of a scope holds a corpus, and the target and the new version match it (R82). -/
def scopeMatches (d : Words) (s : State) : Bool :=
  if jbScope d = 0 then jbWide d && jbDst d % 64 = 0
  else
    let c := s.corpus (jbScope d - 1)
    !jbWide d && jbDst d % 8 = 0 && c.desc ≠ 0 &&
      ((jbDst d = corpDirHead (s.corpDesc (jbScope d - 1)) && verType (recW s (jbNew d) 8) = 3) ||
       (verType (recW s (jbNew d) 8) = 1 && rootCorpus (recW s (jbNew d) 8) = c.id.toNat))

/-- Check 4 of R82. -/
def newOk (d : Words) (s : State) : Bool :=
  let w := recW s (jbNew d) 8
  let t := verType w
  jbNew d % 4096 = 0 && readable s (jbNew d) 4096 && (s.page (pageNo (jbNew d))).kind = .published &&
  (if jbScope d = 0 then t = 2 else t = 1 || t = 3) && verEpoch w = jbEpoch d && verPrev w = jbExpect d &&
  (jbScope d ≠ 0 || (penFloor (recW s (jbDst d) 8) ≤ jbPenFloor d && jbPenFloor d ≤ jbEpoch d))

/-- Check 5 of R82. -/
def epochLater (d : Words) (s : State) : Bool :=
  (jbExpect d = 0 || (readable s (jbExpect d) 4096 && verEpoch (recW s (jbExpect d) 2) < jbEpoch d)) &&
  (if jbScope d = 0 then penEpochOf (recW s (jbDst d) 8) < jbEpoch d
   else (s.corpus (jbScope d - 1)).current.toNat < jbEpoch d)

/-- A stack that a SWITCH reads is not Ready (R270): its target's, its new version's, or that of the version it replaces. -/
def switchAway (d : Words) (s : State) : Bool :=
  [jbDst d, jbNew d, jbExpect d].any fun a => a ≠ 0 && localOk a && !s.stackUp (stackOf a)

/-- A SWITCH descriptor run, `prior` saying that an earlier job or operation has failed (R82): its code. A target in the intake region is
outside what a switch may write (R261); a page that cannot be read is no version of the type that check 4 asks for. -/
def runSwitch (prior : Bool) (d : Words) (s : State) : Word16 × State :=
  let r := peek s (jbDst d) (if jbWide d then 64 else 8)
  if prior then (0x319, s)
  else if !localOk (jbDst d) ∨ s.inIntake (jbDst d) then (0x315, s)
  else if switchAway d s then (0x321, s)
  else if !s.pointerAt (jbDst d) ∨ !scopeMatches d s then (0x315, s)
  else
    let was := s
    let s := touch [(jbDst d, if jbWide d then 64 else 8)] s
    if r.poison ∨ r.code ≠ 0 then (0x311, s)
    else if leNat (r.data.take 8) ≠ jbExpect d then
      (0x316, { s with publish := { s.publish with switchConflicts := s.publish.switchConflicts + 1 } })
    else if !newOk d s then (0x315, s)
    else if !epochLater d s then (0x317, s)
    else if jbScope d = 0 ∧ (s.penHeld (jbDst d)).getD (2 ^ 32) < jbPenFloor d then (0x314, s)
    else if jbScope d = 0 then
      (0, sweepRetiring 0 (jbDst d) (rewriteIn was (jbDst d)
        (leBytes 8 (jbNew d) ++ leBytes 4 (jbPenFloor d) ++ leBytes 4 (jbEpoch d)) s))
    else (0, rewriteIn was (jbDst d) (leBytes 8 (jbNew d)) s)

/-- An earlier job still in its slot has failed (R82, check 1). -/
def State.priorFailed (s : State) (n : Nat) : Bool := s.jobs.any fun e => e.2.isFailed && e.2.order < (s.job n).order

/-- SWITCH (R82): it waits while its target's page is being copied to a spare page (R270). -/
def execSwitchJob (job : Nat) (s : State) : Host.Outcome State Fault Refusal :=
  .next (if s.hubUp && s.jobMayRun job && (s.job job).kind = jkSwitch && !s.copying (pageNo (jbDst (s.job job).desc)) then
    let (code, s) := runSwitch (s.priorFailed job) (s.job job).desc s
    if code ≠ 0 then failJob job code s else endJob job s
  else s)

/-! ### LOAD (R84, R88) -/

/-- One result line (R88). -/
def resultLine (codes : List Word16) : Bytes := fit 64 (codes.flatMap fun c => leBytes 2 c.toNat)

/-- n operations of a LOAD's array from the k-th on, as a read finds them: in the intake region those it holds, and elsewhere those
that the read delivered; with its code (R84, R88, R391). -/
def readOps (d : Words) (k n : Nat) (given : List Words) (s : State) : Word16 × List Words × State :=
  let (code, bytes, s) := readHost (jbSrc d + 64 * k) (64 * n) (given.flatMap fun o => bytesOf ((List.range 8).map (word o))) s
  (code, (List.range n).map fun i => wordsOf 8 (bytes.drop (64 * i)), s)

/-- The array lies where a read of the host reaches it. -/
def arrayReadable (d : Words) : Bool := deviceOf (jbSrc d) = 0

/-- The codes of a run of 32 operations that have all ended, or of the last ones, are written as one line, and PROGRESS passes
them; a line that cannot be written fails the job (R54, R88). -/
def loadLine (n : Nat) (writable : Bool) (s : State) : State :=
  let j := s.job n
  if j.state = .running ∧ j.codes ≠ [] ∧ (j.codes.length = 32 ∨ j.opAt = jbCount j.desc) then
    if !writable then failJob n 0x311 s
    else
      let s := (hostWrite (jbResult j.desc + 64 * ((j.opAt - 1) / 32)) (resultLine j.codes) s).modJob n fun j =>
        { j with codes := [], progress := BitVec.ofNat 32 j.opAt }
      if j.opAt = jbCount j.desc then endJob n s else s
  else s

/-- An operation of a load begins, `d` being its descriptor: a PAGES reserves its pages and is under way, another ends (R88). -/
def beginOp (n : Nat) (prior : Bool) (d : Words) (s : State) : State :=
  if !jobFormOk true d then endOp n 0x315 s
  else if jbKind d = jkPages then
    let code := pagesAccept d s
    if code ≠ 0 then endOp n code s else (pagesReserve d s).modJob n fun j => { j with cur := d }
  else if jbKind d = jkFree then
    let (code, _, s) := runFree d s
    endOp n code s
  else
    let (code, s) := runSwitch (prior || (s.job n).opFailed) d s
    endOp n code s

/-- The next operation of a load waits: the one under way has not ended, a refill is awaited, or the page it would switch is being copied. -/
def loadWaits (n : Nat) (d : Words) (s : State) : Bool :=
  (s.job n).cur ≠ [] || (s.job n).state ≠ .running || (jbKind d = jkSwitch && s.copying (pageNo (jbDst d)))

/-- What a LOAD's second read delivers is run: pages of the operation under way, or the next operation (R88). -/
def loadOp (n : Nat) (writable : Bool) (o : LoadOp) (s : State) : State :=
  let j := s.job n
  if j.state ≠ .running ∨ jbCount j.desc ≤ j.opAt then s
  else if j.cur ≠ [] then loadLine n writable (runPages n o.src s)
  else if loadWaits n o.desc s then s
  else
    let (code, ds, s) := readOps j.desc j.opAt 1 [o.desc] s
    if code ≠ 0 then failJob n 0x311 s
    else
      let s := beginOp n (s.priorFailed n) (ds.headD []) s
      loadLine n writable (if (s.job n).cur = [] then s else runPages n o.src s)

/-- The first read of a LOAD's array ends: its SWITCH operations are recorded, or the job fails (R84, R88). -/
def loadFirst (n : Nat) (ops : List Words) (s : State) : State :=
  let d := (s.job n).desc
  match readOps d 0 (jbCount d) ops s with
  | (code, ds, s) =>
    if code ≠ 0 then failJob n 0x311 s
    else s.modJob n fun j => { j with read := true, switches := switchesOf ds }

/-- A LOAD runs on with what its second read delivers. -/
def loadRuns (n : Nat) (ops : List LoadOp) (writable : Bool) (s : State) : State :=
  loadLine n writable (ops.foldl (fun s o => loadOp n writable o s) (startJob n s))

/-- The ranges of the array that a LOAD reads next. -/
def loadRange (j : Job) (k : Nat) : List (Nat × Nat) :=
  [(jbSrc j.desc + (if j.read then 64 * j.opAt else 0), 64 * (if j.read then k else jbCount j.desc))]

/-- LOAD (R84, R88): the first time, the end of the first read of its array; then operations in order, as the second read delivers them,
with the pages of the one under way, and a result line after each 32 and after the last. -/
def execLoadJob (job : Nat) (ops : Option (List LoadOp)) (writable : Bool) (s : State) : Host.Outcome State Fault Refusal :=
  .next (
    let j := s.job job
    if s.hubUp && s.hostPath && j.held && decide (j.kind = jkLoad) then
      match ops with
      | none => if j.read && !s.jobMayRun job then s else failJob job 0x311 s
      | some os =>
        if !arrayReadable j.desc then failJob job 0x311 s
        else if !j.read then withSnoops (loadRange j 0) (loadFirst job (os.map LoadOp.desc)) s
        else if s.jobMayRun job then withSnoops (loadRange j os.length) (loadRuns job os writable) s
        else s
    else s)

/-! ### Releasing, advancing, raising floors (R83, R84) -/

/-- JOB_RELEASE: ignored unless the slot is done or failed. -/
def releaseJob (v : Nat) (s : State) : State :=
  if v < 16 ∧ ((s.job v).state = .done ∨ (s.job v).state = .failed) then
    s.modJob v fun j => { gen := j.gen : Job }
  else s

/-- SWITCHES_PENDING of a slot (R90), at or below an epoch when one is given. -/
def State.switchesPending (s : State) (n : Nat) (upTo : Option Nat) : Nat :=
  (s.jobs.filter fun e => e.2.held).foldl (fun a e => a + (e.2.switches.filter fun o => o.scope = n + 1 && !o.ended &&
    (match upTo with | none => true | some x => o.epoch.toNat ≤ x)).length) 0

/-- The first read of some LOAD's array has not ended (R84). -/
def State.loadsUnread (s : State) : Bool := s.jobs.any fun e => e.2.held && e.2.kind = jkLoad && !e.2.read

/-- EPOCH_ADVANCE of registration slot n (R84): the refusing code, and the state after. -/
def advanceEpoch (n e : Nat) (s : State) : Word16 × State :=
  if (s.corpus n).current.toNat < e ∧ s.switchesPending n (some e) = 0 ∧ s.loadsUnread = false then
    (0, raiseEvent 4 0x4112 (BitVec.ofNat 8 (n + 1)) e (s.modCorpus n fun c => { c with current := BitVec.ofNat 32 e }))
  else (0x313, s)

/-- EPOCH_FLOOR of registration slot n (R84, R87). -/
def raiseFloor (n f : Nat) (s : State) : Word16 × State :=
  let c := s.corpus n
  if c.floor.toNat ≤ f ∧ f ≤ c.current.toNat ∧ f ≤ s.oldestHeld n then
    (0, sweepRetiring (n + 1) 0 (s.modCorpus n fun c => { c with floor := BitVec.ofNat 32 f }))
  else (0x314, s)

end Sys2Proof.Machine
end

