-- ==== Sys2Proof/Machine/FaultOps.lean ====
section
/-! DEFINITION. Raising a fault and its containment (R433 to R437, R439): the island's safe state, the work killed and where
it goes, and the notice to the collector. -/

namespace Sys2Proof.Machine

/-- The state of a function whose island has faulted (R435): what drained has nothing left, what ran starts anew. -/
def faultFn : FnState → FnState
  | .ready => .starting
  | .draining => .off
  | f => f

/-- A command re-queued by a drain or a fault (R376, R435). -/
def countRequeue (s : State) : State :=
  { s with placement := { s.placement with requeues := s.placement.requeues + 1 } }

/-- Every command of a core goes back to its drover's queue, to run again with a new input move (R376, R435). -/
def requeueCore (k : Nat) (s : State) : State :=
  forgetHomes k 0 3072 (((List.range (s.core k).cmds.length).reverse).foldl (fun s i => countRequeue (requeueAt k i id s)) s)

/-- Every command of a cluster goes to the hub's queue (R376, R377, R435). -/
def holdCluster (n : Nat) (s : State) : State :=
  let s := (List.range 16).foldl (fun s i => requeueCore (16 * n + i) s) s
  let ws := (s.cluster n).waiting.map fun w => { w with since := s.time }
  ({ s with placement := { s.placement with held := s.placement.held ++ ws } }).modCluster n fun c => { c with waiting := [] }

/-- The keyring pins charged to a cluster are released (R345, R378). -/
def releasePins (n : Nat) (s : State) : State :=
  modKeyring (fun k => { k with entries := tmap {} (fun _ e =>
    if bits e.w0 15 14 = 1 ∧ bits e.w0 13 10 = n then { e with w0 := setBits (setBits e.w0 15 14 0) 13 10 0 } else e) k.entries }) s

/-- The members of an island's flocks and of its waiting list. -/
def membersAt (t : Stack) : List Member := (t.flocks.flatMap Flock.members) ++ t.waiting.map Prod.snd

/-- Sweeps and waiting members of a memory island end with no reply, and its flock records are lost (R112, R270). DESIGN CHOICE (log 10):
their requests, which can no longer be answered, keep their members in other islands and their epoch until those are resolved too. -/
def dropFlocks (m : Nat) (s : State) : State :=
  let ms := membersAt (s.stack m)
  let hit := fun r : OwnerReq => (ms.filter fun x => x.req = r.num).length
  let s := s.modStack m fun t => { t with flocks := [], waiting := [] }
  { s with scan := { s.scan with reqs := (s.scan.reqs.map fun r =>
      if hit r = 0 then r else { r with lost := true, open_ := r.open_ - hit r }).filter fun r => !(r.lost && r.open_ = 0) } }

/-- A cluster reaches Off: its cores are erased, its pins released, and a role it was changing to is its role (R376, R378). -/
def clusterOff (n : Nat) (s : State) : State :=
  let s := (List.range 16).foldl (fun s i => s.modCore (16 * n + i) (·.resetCore)) (releasePins n s)
  setClusterFn n .off (s.modCluster n fun c =>
    { c with role := if c.role = 3 then c.target else c.role, abandon := false })

/-! ### Hinge installs (R267) -/

/-- HINGE_RESULT leaves FFFFh for a code. -/
def hingeDone (code : Word16) (s : State) : State :=
  noteLong 0x4405 2 0xFFFF code (modHbm (fun h => { h with hingeResult := code, hingeTarget := none }) s)

/-- The writes that waited for a copy are served (R270). -/
def serveHeld (s : State) : State := s.hbm.held.foldl (fun s p => servePublish p s) (modHbm (fun h => { h with held := [] }) s)

/-- The entry being installed is active, and its install ends. -/
def hingeActive (m j : Nat) (bad : Bool) (s : State) : State :=
  serveHeld (hingeDone 0 (notable (idMemory m) 9 j (s.modStack m fun t =>
    { t with hinge := tmod {} t.hinge j fun e => { e with state := 2, poison := bad } })))

/-- An install whose copy cannot end is given up: its entry is free again. -/
def dropHingeCopy (s : State) : State :=
  match s.hbm.hingeTarget with
  | none => s
  | some (m, j) => serveHeld (hingeDone 0 (s.modStack m fun t => { t with hinge := tset {} t.hinge j {} }))

/-- A stack that reaches Off ends the copy on it: its pages are free, so the entry is active (R267, R269). -/
def endCopyOff (m : Nat) (s : State) : State :=
  match s.hbm.hingeTarget with
  | some (n, j) => if n = m then hingeActive n j false s else s
  | none => s

/-- A stack reaches Off: its contents are gone, and its next start is from Off (R256, R269). -/
def stackOff (m : Nat) (s : State) : State :=
  endCopyOff m (setStackFn m .off ((eraseStack m s).modStack m fun t =>
    { t with ways := [], cms := [], lookups := 0, fromOff := true, abandon := false }))

/-- Faults of an island within FAULT_WINDOW_MS (R437). -/
def State.recentFaults (s : State) (i : Nat) : Nat :=
  ((s.island i).times.filter fun t => (s.time - t).toNat < 1000000 * s.faults.windowMs.toNat).length

/-- An island is back in service after a fault (R435, event 000Ah of R440). -/
def backInService (i : Nat) (s : State) : State :=
  if (s.island i).service = .returning then
    notable i 0xA (s.recentFaults i) (s.modIsland i fun x => { x with service := .serving, wasStarting := false })
  else s

/-- An island whose function may be in its Starting: in service, or on its way back to it. -/
def State.startable (s : State) (i : Nat) : Bool :=
  s.alive && (decide ((s.island i).service = .serving) || decide ((s.island i).service = .returning))

/-- A hold of R437 is released by the enable of the function. -/
def releaseHold (i : Nat) (s : State) : State :=
  s.modIsland i fun x => if x.service = .heldOff then { x with service := .serving, wasStarting := false } else x

/-- A receipt ends with a code (R416, R417): the firmware is Off, and the end of the long operation is noted. -/
def failReceipt (code : Word16) (s : State) : State :=
  raiseEvent 2 0x8000 2 (code.toNat + s.fw.received.length % 2 ^ 8 * 2 ^ 24)
    (setFwFn .off { s with fw := { s.fw with phase := 5, code := code, owner := none, fetching := none } })

/-- The link is lost: a fetch of the receipt fails (R416), and which of the result writes under way are cut off is open (R435). -/
def hostCut (s : State) : State :=
  let s := if s.fw.fetching.isSome then failReceipt 0x709 s else s
  ((s.slots.filter fun e => e.2.observe ≠ []).map Prod.fst).foldl (fun s n =>
    let (w, s) := s.fresh
    s.modSlot n fun x => { x with cut := bit w 0 }) s

/-- The work of a faulted island, and what its function becomes (R434, R435). `slip`: the code is 0820h. -/
def contain (i : Nat) (slip : Bool) (s : State) : State :=
  match islandType i with
  | some .core =>
    let s := if slip then
        match (s.core i).cmds with
        | q :: _ =>
          let s' := failRequest q.cmd.handle 0x211 s
          if (s'.core i).cmds.map (·.cmd) = (s.core i).cmds.map (·.cmd) then killAt i 0 s' else s'
        | [] => s
      else s
    requeueCore i s
  | some .cluster =>
    let n := i - 0x100
    let s := modFabric (fun f => { f with misses := f.misses.filter fun m => m.cluster ≠ n }) s
    if (s.cluster n).fn = .draining && ((s.cluster n).role ≠ 3 || (s.cluster n).abandon) then clusterOff n (holdCluster n s)
    else if (s.cluster n).fn = .draining then setClusterFn n .starting (releasePins n (holdCluster n s))
    else setClusterFn n (faultFn (s.cluster n).fn) (releasePins n (holdCluster n s))
  | some .memory =>
    let m := i - 0x110
    let s := failJobsOf m 0x311 (dropFlocks m s)
    if (s.stack m).fn = .draining then stackOff m s
    else setStackFn m (faultFn (s.stack m).fn) (s.modStack m fun t => { t with ways := [], cms := [], lookups := 0 })
  | some .link =>
    (List.range 4).foldl (fun s j =>
      let l := 4 * (i - 0x120) + j
      let f := (s.link l).fn
      moveOut l (setLinkFn l (faultFn f) (if f = .ready then s.modLink l fun k => { k with retrains := k.retrains + 1 } else s))) s
  | some .text =>
    let n := i - 0x131
    setTextFn n (faultFn (s.textIsl n).fn) (s.modText n fun t => { t with cache := [] })
  | some .host => hostCut (noteReady s (s.modHost fun h => { h with linkState := 0 }))
  | _ => s

/-- The state of an island's function when it faults (R437). -/
def State.fnStarting (s : State) (i : Nat) : Bool :=
  match islandType i with
  | some .cluster => decide ((s.cluster (i - 0x100)).fn = .starting)
  | some .memory => decide ((s.stack (i - 0x110)).fn = .starting)
  | some .text => decide ((s.textIsl (i - 0x131)).fn = .starting)
  | _ => false

/-- A fault is detected in an island (R432 to R434): it is counted and its notice sent; an island that serves, or whose
function is Starting, reacts, and one already in its safe state or held off does not react again (R446). -/
def raiseFault (i : Nat) (code : Word16) (detail : Word32) (addr : Word64) (s : State) : State :=
  if s.alive = false ∨ islandType i = none then s
  else
    let starting := s.fnStarting i
    let serving := (s.island i).service = .serving
    let r : FaultRec := ⟨s.timeAt i, i, code, detail, addr, s.time⟩
    let s := { s with faults := { s.faults with notices := s.faults.notices ++ [r] } }.modIsland i fun x =>
      { x with faults := x.faults + 1, times := x.times ++ [s.time], lastCode := code }
    -- a reset that code 0830h brings about is counted; the hub does not reset (R250, R435)
    let s := if code = 0x830 ∧ i ≠ idHub ∧ (serving ∨ ((s.island i).service = .returning ∧ starting)) then
        { s with coreE := { s.coreE with stateResets := s.coreE.stateResets + 1 } }
      else s
    let s := if code = 0x831 then s.modStack (i - 0x110) fun t => { t with fromOff := true } else s
    if serving then
      contain i (code = 0x820) (s.modIsland i fun x => { x with service := .safe, wasStarting := starting })
    else if (s.island i).service = .returning ∧ starting then
      s.modIsland i fun x => { x with service := .safe, wasStarting := true }
    else s

/-- A schedule slip of the configuration with an index (R214): recorded, its program's regions on this core quarantined, and fault 0820h
raised. -/
def slipFault (k case index : Nat) (s : State) : State :=
  let c := s.core k
  match c.cmds with
  | [] => s
  | q :: _ =>
    let rec_ := field 48 (k % 512) ||| field 40 case ||| field 36 q.cmd.region ||| field 20 (index % 2 ^ 16)
    let s := { s with coreE := { s.coreE with slips := s.coreE.slips + 1, lastSlip := rec_ } }
    let s := if s.coreE.slipQuarantine then s.modCore k fun c =>
        { c with regions := (List.range q.span).foldl (fun t i => tmod {} t (q.cmd.region + i) fun r => { r with quarantine := true }) c.regions }
      else s
    raiseFault k 0x820 (BitVec.ofNat 32 case) (field 16 q.cmd.region ||| field 0 (index % 2 ^ 16)) s

/-! ### State memories (R247, R248) -/

/-- A state memory's byte is uncorrectable: fault 0830h (R248). -/
def stateFault (i cls addr : Nat) (s : State) : State := raiseFault i 0x830 (BitVec.ofNat 32 (byteKey cls addr)) 0 s

/-- The flipped bits of a byte of a state memory of an island: of a core, in the core's own list. -/
def State.byteErr (s : State) (i cls addr : Nat) : Nat :=
  if i < 0x100 then tget 0 (s.core i).stateErrs (byteKey cls addr) else tget 0 s.coreE.stateErrs (i * 2 ^ 32 + byteKey cls addr)
def setByteErr (i cls addr e : Nat) (s : State) : State :=
  if i < 0x100 then s.modCore i fun c => { c with stateErrs := tset 0 c.stateErrs (byteKey cls addr) e }
  else { s with coreE := { s.coreE with stateErrs := tset 0 s.coreE.stateErrs (i * 2 ^ 32 + byteKey cls addr) e } }

/-- A byte is decoded: one flipped bit is corrected and written back, more are uncorrectable (R247, R248). The section store is the hub's (R436). -/
def decodeByte (island cls addr : Nat) (s : State) : State :=
  let e := popCount 13 (s.byteErr island cls addr)
  let i := if cls = 10 then idHub else island
  if e = 0 then s
  else if e = 1 then
    notable i 4 (byteKey cls addr) (countCorrected i 1
      { setByteErr island cls addr 0 s with coreE := { (setByteErr island cls addr 0 s).coreE with stateCorrected := s.coreE.stateCorrected + 1 } })
  else stateFault i cls addr (setByteErr island cls addr 0 s)

/-- The bytes of a state memory that a read of n of them decodes and finds flipped. -/
def State.flipped (s : State) (island cls addr n : Nat) : List Nat :=
  let lo := byteKey cls addr + (if island < 0x100 then 0 else island * 2 ^ 32)
  (((if island < 0x100 then (s.core island).stateErrs else s.coreE.stateErrs).filter fun e => lo ≤ e.1 && e.1 < lo + n).map Prod.fst).map (· % 2 ^ 28)

/-- A read of n bytes of a state memory (R247). -/
def readState (island cls addr n : Nat) (s : State) : State :=
  (s.flipped island cls addr n).foldl (fun s a => decodeByte island cls a s) s

/-- A write of n bytes of a state memory outside the cores encodes them anew (R247). -/
def writeState (island cls addr n : Nat) (s : State) : State :=
  { s with coreE := { s.coreE with stateErrs := s.coreE.stateErrs.filter fun e =>
      !(island * 2 ^ 32 + byteKey cls addr ≤ e.1 && e.1 < island * 2 ^ 32 + byteKey cls addr + n) } }

end Sys2Proof.Machine
end

