-- ==== Sys2Proof/Machine/Verifier.lean ====
section
/-! DEFINITION. Macro expansion (R222 to R226), the plan of a program (R211, R213) and the verifier (R227). -/

namespace Sys2Proof.Machine

/-! ### Expansion (R223, R224) -/

/-- An operand descriptor moved on by some bytes. -/
def opdAdvance (d : Word64) (n : Nat) : Word64 :=
  let t := opdOffset d + n
  let k := t / 2048
  setBits (setBits (setBits d 63 52 (opdSlot d + k)) 51 40 (opdSlots d - k)) 10 0 (t % 2048)

/-- M_e and N_e (R223). -/
def mcMe (w : Words) (m : Nat) : Nat := if mcFoldMode w = 1 then mcFold w * m else m
def mcNe (w : Words) : Nat := if mcFoldMode w = 2 then mcFold w * mcN w else mcN w

/-- The shape of an expansion (R224): `gen` says that the cluster is in the generation role. -/
def mcShapeOf (w : Words) (m : Nat) (gen : Bool) : Nat :=
  if mcShape w ≠ 0 then mcShape w - 1
  else if !gen then 0
  else if mcMe w m ≤ 4 then 3 else if mcMe w m ≤ 8 then 2 else if mcMe w m ≤ 16 then 1 else 0

/-- The pass of one column group and one row block. `set` is the half of W's slots that holds a streamed group;
`last` says that no later pass reads the group. -/
def mcPass (w : Words) (m shape lead group block set : Nat) (last : Bool) : Words :=
  let rows := shapeRows shape
  let cols := shapeCols shape
  let me := mcMe w m
  let row0 := rows * block
  let col0 := cols * group
  let mv := min rows (me - row0)
  let nv := min cols (mcNe w - col0)
  let stream := mcStream w ≠ 0
  let wd := word w 12
  let half := opdSlots wd / 2
  let wOpd := if stream then
      setBits (setBits (setBits wd 63 52 (opdSlot wd + set * half)) 51 40 half) 18 18 (if last then 1 else 0)
    else wd
  let pass := fun busy : Nat =>
    [field 56 1 ||| field 52 1 ||| field 50 (cfSat w).toNat ||| field 0 (busy % 2 ^ 32), 0, 0, 0, 0, 0, 0, 0,
     field 61 shape ||| field 40 (mcWfmt w) ||| field 32 (mcXfmt w),
     field 32 (mcK w) ||| field 0 ((if stream then cols else mcNe w) % 2 ^ 32),
     field 48 (if shape = 0 then mv else rows) ||| field 32 mv ||| field 16 nv ||| field 0 ((if stream then 0 else col0) % 2 ^ 16),
     opdAdvance (word w 11) (opdStride (word w 11) * row0), wOpd,
     opdAdvance (word w 13) (opdStride (word w 13) * row0 + 4 * col0),
     opdAdvance (word w 14) (opdStride (word w 14) * row0),
     opdAdvance (word w 15) (if stream then col0 else 0)]
  pass (arrayBusy lead (pass 0))

/-- The move that brings one column group's records into a half of W's slots (R224). -/
def mcMove (w : Words) (group set : Nat) : Words :=
  let wd := word w 12
  let n := mcK w * opdStride wd
  let half := opdSlots wd / 2
  let mv := fun busy : Nat =>
    [field 56 3 ||| field 52 1 ||| field 0 (busy % 2 ^ 32), 0, 0, 0, 0, 0, 0, 0,
     field 56 1 ||| field 52 (mcStream w - 1), field 0 (group * n), field 32 n, 0,
     setBits (setBits wd 63 52 (opdSlot wd + set * half)) 51 40 half, 0, 0, 0]
  mv (moveBusy (mv 0))

/-- A macro's fold, dimensions and shape are in range (R222, R227). -/
def mcOk (w : Words) : Bool :=
  mcFoldMode w ≤ 2 && 1 ≤ mcFold w && mcShape w ≤ 4 && 1 ≤ mcM w && 1 ≤ mcN w && 1 ≤ mcK w && mcK w ≤ 2 ^ 24

/-- The configurations of an expansion, each with its distance from the start before it (R224, R226); none of a macro out of range. -/
def macroExpand (w : Words) (m : Nat) (gen : Bool) (shapeNow : Nat) : List (Nat × Words) :=
  let shape := mcShapeOf w m gen
  let groups := ceilDiv (mcNe w) (shapeCols shape)
  let blocks := ceilDiv (mcMe w m) (shapeRows shape)
  let stream := mcStream w ≠ 0
  let items : List (Bool × Words) :=
    (if stream then [(false, mcMove w 0 0)] else []) ++
    (List.range groups).flatMap fun g =>
      (if stream && g + 1 < groups then [(false, mcMove w (g + 1) ((g + 1) % 2))] else []) ++
      (List.range blocks).map fun b =>
        let first := g = 0 && b = 0
        let lead := if first then (if shape = 0 then 128 else 0) + (if shape ≠ shapeNow then 64 else 0) else 0
        (true, mcPass w m shape lead g b (g % 2) (b + 1 = blocks))
  if !mcOk w then [] else
  (items.foldl (fun acc i =>
    -- acc: the list so far, and the c-cycles until the next pass may follow back to back
    let (out, gap) := acc
    if i.1 then (out ++ [(max 8 gap, i.2)], cfBusy i.2) else (out ++ [(8, i.2)], gap - 8)) ([], 0)).1

/-- The fields of every expanded configuration hold what they must: the first column of a resident group, the bytes of a streamed one, and
the columns of a record (R202, R206, R224). -/
def mcFits (w : Words) (gen : Bool) : Bool :=
  let cols := shapeCols (mcShapeOf w (mcM w) gen)
  if mcStream w = 0 then cols * (ceilDiv (mcNe w) cols - 1) < 2 ^ 16 && mcNe w < 2 ^ 32 else mcK w * opdStride (word w 12) < 2 ^ 32

/-! ### The plan (R211, R213) -/

/-- A planned configuration: its words, the program configuration it stems from, its start, its span between engine
fences, and the lead the latency model gives an array pass. -/
structure Planned where
  cfg   : Words
  index : Nat
  start : Nat
  epoch : Nat
  lead  : Nat
  fed   : Bool
  deriving DecidableEq, Repr

/-- Where the plan stands: the count's origin, the engine-fence epoch, the shape in effect, and the last array pass. -/
structure PlanAt where
  t     : Nat := 0
  epoch : Nat := 0
  shape : Nat := 0
  last  : Option (Nat × Nat) := none
  out   : List Planned := []
  deriving DecidableEq, Repr

/-- One configuration placed `delta` after the count's origin. -/
def PlanAt.put (p : PlanAt) (delta index : Nat) (fed : Bool) (w : Words) : PlanAt :=
  let t := p.t + delta
  let back := match p.last with | some (s, b) => s + b = t | none => false
  let lead := arrayLead p.shape back w
  let p := { p with t := t, out := p.out ++ [⟨w, index, t, p.epoch, lead, fed⟩] }
  if cfKind w = kArray then
    { p with shape := apShape w, last := if apShape w = 0 then some (t, cfBusy w) else none }
  else p

/-- The plan of the configurations of a program, with every dynamic value at its declared maximum. -/
def planOf (cfgs : List Words) (gen : Bool) : PlanAt :=
  (cfgs.zipIdx).foldl (fun p (w, i) =>
    let q := p.put (cfDelta w) i false w
    if cfKind w = kMacro then
      let q := (macroExpand w (mcM w) gen q.shape).foldl (fun q e => q.put e.1 i true e.2) q
      { q with epoch := q.epoch + 1 }
    else if cfKind w = kFence && bit (word w 8) 61 then { q with epoch := q.epoch + 1 }
    else q) {}

/-- The commit c-cycle of the plan (R209, R374). -/
def planCommit (p : PlanAt) : Nat :=
  p.out.foldl (fun t c => max t (c.start + max (cfBusy c.cfg) (doneOf c.cfg))) 0

/-! ### The checks (R227) -/

/-- Byte interval [a, a+n) meets row j of the strided set for some j. -/
def meetsRows (a n base stride rows bytes : Nat) : Bool :=
  let j := if a < base + bytes then 0 else if stride = 0 then rows else (a - base - bytes) / stride + 1
  0 < n && 0 < bytes && j < rows && base + stride * j < a + n && a < base + stride * j + bytes

/-- Two operand uses touch a common byte, relative to one slot base. -/
def bytesMeet (x y : OpUse) : Bool :=
  (List.range x.rows).any fun i =>
    meetsRows (opdRow 0 x.desc i) x.bytes (opdRow 0 y.desc 0) (opdStride y.desc) y.rows y.bytes

/-- Two operand spans overlap, relative to one slot base (R201). -/
def spansMeet (x y : OpUse) : Bool :=
  let n := opdSpan x.desc x.rows x.bytes
  let m := opdSpan y.desc y.rows y.bytes
  0 < n && 0 < m && opdRow 0 x.desc 0 < opdRow 0 y.desc 0 + m && opdRow 0 y.desc 0 < opdRow 0 x.desc 0 + n

def coverOf (u : OpUse) : List Nat := opdCover u.desc u.rows u.bytes
def meets (a b : List Nat) : Bool := a.any fun x => b.contains x

/-- The descriptors a configuration carries. -/
def opdsOf (w : Words) : List Word64 :=
  if cfKind w = kArray then [word w 11, word w 12, word w 13, word w 14, word w 15]
  else if cfKind w = kVector then [word w 10, word w 11, word w 12, word w 13]
  else if cfKind w = kMove then [word w 11, word w 12]
  else if cfKind w = kMacro then [word w 11, word w 12, word w 13, word w 14, word w 15]
  else []

def zeroWords (w : Words) (lo hi : Nat) : Bool := (List.range (hi + 1 - lo)).all fun i => word w (lo + i) = 0

/-- Step 6 (R200, R202, R204, R206, R216, R222). -/
def shapeOk (ph w : Words) : Bool :=
  let k := cfKind w
  1 ≤ k && k ≤ 5 && cfVersion w = 1 && rsvd (word w 0) 49 48 && rsvd (word w 3) 31 0 && zeroWords w 4 7 && zeroWords w 16 63 &&
  cfRmask w = maskOf (regsRead ph w) && cfWmask w = maskOf (regsWritten w) &&
  (opdsOf w).all (fun d => rsvd d 17 11) &&
  (if k = kArray then rsvd (word w 8) 51 48 && rsvd (word w 8) 31 0
   else if k = kVector then rsvd (word w 8) 32 32 && rsvd (word w 9) 11 0 && rsvd (word w 14) 31 0 && word w 15 = 0
   else if k = kMove then rsvd (word w 8) 40 0 && zeroWords w 13 15
   else if k = kFence then rsvd (word w 8) 60 0 && zeroWords w 9 15
   else rsvd (word w 8) 19 0 && rsvd (word w 10) 31 0)

/-- Step 7 (R169, R177, R204). -/
def formatsOk (w : Words) : Bool :=
  if cfKind w = kArray then
    (domainOf (apWfmt w) (apXfmt w)).isSome && (!isMx (apXfmt w) || opdSlots (word w 14) ≠ 0) &&
      (!isMx (apWfmt w) || opdSlots (word w 15) ≠ 0)
  else if cfKind w = kMacro then
    (domainOf (mcWfmt w) (mcXfmt w)).isSome && (!isMx (mcXfmt w) || opdSlots (word w 14) ≠ 0) &&
      (!isMx (mcWfmt w) || opdSlots (word w 15) ≠ 0)
  else if cfKind w = kVector then
    (formatOf (voIfmt w)).isSome && (formatOf (voOfmt w)).isSome &&
      (match voDecode (voOp w) with
       | some .cvt => true
       | some .planes => voOfmt w = voIfmt w
       | _ => voOfmt w = fmtFp32)
  else true

/-- Step 8, START_DELTA aside. -/
def rangesOk (w : Words) : Bool :=
  (opdsOf w).all (fun d => opdSlots d ≤ 3072 && opdStride d % 64 = 0 && opdOffset d % 64 = 0) &&
  (if cfKind w = kArray then
     apShape w ≤ 3 && 1 ≤ apK w && apK w ≤ 2 ^ 24 && apCol0 w + apNv w ≤ apWcols w &&
     (if apShape w = 0 then 1 ≤ apM w && apM w ≤ 128 else apM w = shapeRows (apShape w)) &&
     1 ≤ apMv w && apMv w ≤ apM w && 1 ≤ apNv w && apNv w ≤ shapeCols (apShape w) && apCol0 w % 8 = 0
   else if cfKind w = kVector then
     (voDecode (voOp w)).isSome && 1 ≤ voN w && voN w ≤ 262144 &&
     (if voDecode (voOp w) = some .topk then 1 ≤ voK w && voK w ≤ 4096 else voK w = 0) && (!voToreg w || voRows w = 1)
   else if cfKind w = kMove then 1 ≤ mvKind w && mvKind w ≤ 4 && mvOffset w % 64 = 0
   else true)

/-- Step 8 for a configuration of the image. An expanded one has no START_DELTA: R224 fixes its start. -/
def fieldsOk (gen : Bool) (w : Words) : Bool := 8 ≤ cfDelta w && rangesOk w && (cfKind w ≠ kMacro || !mcOk w || mcFits w gen)

/-- Step 9: a use, and a move's destination, lie within the command's slots and the descriptor's. -/
def useFits (slots : Nat) (u : OpUse) : Bool :=
  opdSlot u.desc + opdSlots u.desc ≤ slots && opdSpan u.desc u.rows u.bytes + opdOffset u.desc ≤ opdSlots u.desc * 2048
def spansOk (slots : Nat) (w : Words) : Bool :=
  (opUses w (declaredRows w)).all (useFits slots) && (opDst w).all (useFits slots)

/-- Step 10. `outs` are the slots that OPD.OUT operands of the program write, `others` those of other configurations; the first `resident` slots hold a model's
weights and are neither written nor consumed (R276). A resumed reduction's records lie where its output goes (R189, R202). -/
def overlapsOk (resident : Nat) (outs others : List Nat) (ph w : Words) : Bool :=
  let n := declaredRows w
  let ws := opOuts w n ++ opDst w
  let here := opOuts w n ++ (if mvKind w = 4 then [] else opDst w)
  here.all (fun o => (opIns w n).all fun i => !meets (coverOf o) (coverOf i)) &&
  (opIns w n).all (fun i => !meets (coverOf i) outs) && (opResume w n).all (fun i => !meets (coverOf i) others) &&
  (ws ++ (opIns w n ++ opResume w n).filter fun u => opdConsume u.desc).all (fun u => (coverOf u).all fun s => resident ≤ s) &&
  (opIns w n ++ opResume w n).all (fun i => !opdConsume i.desc ||
    (coverOf i).all fun s => s < phInFirst ph || phInFirst ph + phInCount ph ≤ s)

/-- Slots of its own core that the program's OUT operands write. -/
def outSlots (cfgs : List Words) : List Nat :=
  cfgs.flatMap fun w => ((opOuts w (declaredRows w) ++ if mvKind w = 4 then [] else opDst w).filter fun u => opdOut u.desc).flatMap coverOf

/-- Step 11. -/
def moveRefOk (ph w : Words) : Bool :=
  cfKind w ≠ kMove || mvKind w = 4 ||
    (mvRef w < phRefs ph && bit (refW1 ph (mvRef w)) (64 - mvKind w) &&
      (mvOdyn w || mvOffset w + (if mvKind w = 1 then mvBytes w else mvBytes w * mvCount w) ≤ refLen ph (mvRef w)))

/-- Step 12. -/
def latencyOk (p : Planned) : Bool :=
  cfBusy p.cfg = modelBusy p.lead p.cfg && cfLand p.cfg = (if cfWmask p.cfg = 0 then 0 else cfBusy p.cfg)

/-- Every pair of planned configurations, the earlier first. -/
def pairsOf : List Planned → List (Planned × Planned)
  | [] => []
  | a :: l => l.map (fun b => (a, b)) ++ pairsOf l

def onEngine (w : Words) : Bool := 1 ≤ cfKind w && cfKind w ≤ 3

/-- Step 13: the engine rule for one pair. -/
def engineRule (a b : Planned) : Bool :=
  !(onEngine a.cfg && cfKind a.cfg = cfKind b.cfg) || a.start + cfBusy a.cfg ≤ b.start

/-- Two uses overlap as the scratchpad rule has it: their spans; of two passes of one expansion, their bytes, since R224 lets those follow
back to back and each writes its own columns. DEDUCED (log 20). -/
def usesMeet (a b : Planned) (x y : OpUse) : Bool :=
  if a.fed && b.fed && a.index = b.index then bytesMeet x y else spansMeet x y

/-- Step 14: the register and scratchpad rules for one pair (R213, R217). -/
def dataRule (a b : Planned) : Bool :=
  ((cfWmask a.cfg &&& (cfRmask b.cfg ||| cfWmask b.cfg)) = 0 || a.start + cfLand a.cfg + 1 ≤ b.start) &&
  (a.epoch ≠ b.epoch && cfKind a.cfg ≠ kMove || a.start + doneOf a.cfg + 1 ≤ b.start ||
    (opUses a.cfg (declaredRows a.cfg)).all fun x => (opUses b.cfg (declaredRows b.cfg)).all fun y =>
      !(x.write || y.write) || !usesMeet a b x y)

/-- Step 16: a macro's own fields, and the slots its operands and its expansion need. -/
def macroOk (slots : Nat) (w : Words) (fed : List Words) : Bool :=
  cfKind w ≠ kMacro ||
    (mcOk w && (opdsOf w).all (fun d => opdSlots d = 0 || opdSlot d + opdSlots d ≤ slots) && fed.all (spansOk slots))

/-- Step 5 for one reference. -/
def refOk (ph : Words) (j : Nat) : Bool :=
  let w1 := refW1 ph j
  let b := (refBase ph j).toNat
  let n := refLen ph j
  bits w1 63 61 ≠ 0 && !bit w1 60 && 1 ≤ n &&
  (refDyn ph j || (b % 64 = 0 && b / 2 ^ 38 = (b + n - 1) / 2 ^ 38 &&
    (!refLocal ph j || (b < 2 ^ 40 && inMap b && inMap (b + n - 1)))))

/-- The verifier over a header and its configurations, for a load into `count` regions from `first` (R227): nothing, or
the code and the index of the failing configuration, FFFFh for the header. A macro out of range has no expansion to check. -/
def verify (ph : Words) (cfgs : List Words) (first count abi resident : Nat) (gen : Bool) : Option (Word16 × Nat) :=
  let plan := (planOf cfgs gen).out
  let fed := fun i => (plan.filter fun p => p.fed && p.index = i).map (·.cfg)
  let bad := fun (own sub : Words → Bool) => (cfgs.zipIdx.find? fun p => !(own p.1 && (fed p.2).all sub)).map Prod.snd
  let badP := fun (ok : Planned → Bool) => (plan.find? fun p => !ok p).map (·.index)
  let badPair := fun (ok : Planned → Planned → Bool) => ((pairsOf plan).find? fun p => !ok p.1 p.2).map (·.2.index)
  let slots := phSlots ph
  let regions := phRegions ph + 1
  if phType ph ≠ 9 ∨ phVersion ph ≠ 1 ∨ ¬(rsvd (word ph 0) 39 32 ∧ rsvd (word ph 0) 15 0 ∧ rsvd (word ph 1) 7 0 ∧
      rsvd (word ph 3) 46 0 ∧ zeroWords ph 4 7 ∧ zeroWords ph 40 63 ∧
      (List.range 16).all fun j => rsvd (refW1 ph j) 51 40) ∨ phConfigs ph = 0 ∨ 32 * regions - 1 < phConfigs ph then
    some (0x201, 0xFFFF)
  else if 16 < first + regions ∨ regions ≠ count then some (0x202, 0xFFFF)
  else if phAbi ph ≠ abi then some (0x214, 0xFFFF)
  else if slots = 0 ∨ 3072 < slots ∨ slots < phInFirst ph + phInCount ph then some (0x207, 0xFFFF)
  else if 16 < phRefs ph ∨ ¬((List.range (phRefs ph)).all (refOk ph)) then some (0x20A, 0xFFFF)
  else match bad (shapeOk ph) (shapeOk ph) with
  | some i => some (0x205, i)
  | none => match bad formatsOk formatsOk with
  | some i => some (0x206, i)
  | none => match bad (fieldsOk gen) rangesOk with
  | some i => some (0x207, i)
  | none => match bad (fun w => cfKind w = kMacro || spansOk slots w) fun _ => true with
  | some i => some (0x208, i)
  | none => match badP fun p => overlapsOk resident (outSlots (plan.map (·.cfg)))
      (outSlots ((plan.filter fun q => q.index ≠ p.index).map (·.cfg))) ph p.cfg with
  | some i => some (0x209, i)
  | none => match badP fun p => moveRefOk ph p.cfg with
  | some i => some (0x20A, i)
  | none => match badP latencyOk with
  | some i => some (0x20D, i)
  | none => match badPair engineRule with
  | some i => some (0x20C, i)
  | none => match badPair dataRule with
  | some i => some (0x20B, i)
  | none => match bad (fun w => cfKind w ≠ kFence || bits (word w 8) 63 61 ≠ 0) fun _ => true with
  | some i => some (0x20E, i)
  | none => match (cfgs.zipIdx).find? fun p => !macroOk slots p.1 (fed p.2) with
  | some p => some (0x20F, p.2)
  | none =>
    if (cfgs.filter cfCommit).length = 1 ∧ cfCommit (cfgs.getLastD []) then none
    else some (0x210, cfgs.length - 1)

end Sys2Proof.Machine
end

