-- ==== Sys2Proof/Machine/Programs.lean ====
section
/-! DEFINITION. Core commands (R198 to R245): dispatch, the starts of configurations with slip detection, their ends, moves and
landings, fences, macros, commit, kill, scrubbing and release. Starts precede the other events of their c-cycle (R212). -/

namespace Sys2Proof.Machine

/-! ### The sequencer -/

/-- The core and its cluster run (R376, R434). -/
def State.coreUp (s : State) (k : Nat) : Bool :=
  s.inService k && s.inService (idCluster (clusterOf k)) && decide ((s.cluster (clusterOf k)).fn = .ready)

/-- A configuration of a program in a core's instruction memory: 0 is the header (R207, R218). -/
def Core.place (c : Core) (region i : Nat) : Words := wordsOf 64 (memRead c.imem (16384 * region + 512 * i) 512)

/-- The c-cycle at which the next expanded configuration is in the feed queue: 8 k-cycles after the one before it, and not before one of the
64 places is free (R226). DESIGN CHOICE (log 21): the first is written 8 k-cycles after the macro starts. -/
def Core.feedReady (c : Core) : Nat := max (c.feedAt + 16) (if c.fedStarts.length < 64 then 0 else c.fedStarts.getLastD 0)

/-- The configuration that starts next: its c-cycle, its words, and whether the feed holds it (R211, R226). -/
def Core.nextCfg (c : Core) : Option (Nat × Words × Bool) :=
  match c.cmds with
  | [] => none
  | q :: _ =>
    if c.fence.isSome then none
    else if c.inMacro then match c.feed with
      | (d, w) :: _ => some (max (c.lastStart + d) c.feedReady, w, true)
      | [] => none
    else if c.index < q.configs then
      let w := c.place q.cmd.region (c.index + 1)
      some (c.lastStart + cfDelta w, w, false)
    else none

/-- The index of the configuration that starts next: an expanded one has its macro's (R230). -/
def Core.nextIndex (c : Core) (fed : Bool) : Nat := if fed then c.index - 1 else c.index

/-- No start is planned at or before cycle t, so the events at the end of t may take effect. -/
def Core.startsPast (c : Core) (t : Nat) : Bool :=
  match c.nextCfg with
  | some (u, _, _) => t < u
  | none => true

/-- The slot base of the running command. -/
def Core.base (c : Core) : Nat := match c.cmds with | q :: _ => q.cmd.slotBase | [] => 0
def Core.headHandle (c : Core) : Option Word32 := match c.cmds with | q :: _ => q.cmd.handle | [] => none
def Core.attr (c : Core) (engine : Nat) : EvAttr :=
  match c.cmds with
  | q :: _ => { cmd := some q.cmd.cmdClass, engine := some engine, tenant := some q.cmd.tenant }
  | [] => { engine := some engine }

/-- Engines as CFG.MKIND numbers them (R453). -/
def engineNum : Engine → Nat
  | .array => 0 | .vector => 1 | .move => 2

/-- The running command ends and its request fails with a code (R207, R242). -/
def endCommand (k : Nat) (code : Word16) (s : State) : State :=
  match (s.core k).cmds with
  | [] => s
  | q :: _ =>
    match q.cmd.handle with
    | some h => if s.live h then failRequest (some h) code s else killAt k 0 s
    | none => killAt k 0 s

/-! ### Latches (R234, R235) -/

/-- The slots an operand's span covers on the core. -/
def coverAt (base : Nat) (u : OpUse) : List Nat := (opdCover u.desc u.rows u.bytes).map (base + ·)

/-- The operands a configuration reads. -/
def readsOf (w : Words) (rows : Nat) : List OpUse := opIns w rows ++ opResume w rows

/-- The first slot it reads whose latch is empty, with the first row it reads there. -/
def Core.emptyRead (c : Core) (w : Words) (rows : Nat) : Option (Nat × Nat) :=
  ((readsOf w rows).flatMap fun u => (coverAt c.base u).map fun i => (i, max (opdRow c.base u.desc 0 / 64) (32 * i))).find? fun p =>
    !(c.slotW p.1).latch

/-- Output latches at a start (R234). -/
def Core.openOutputs (c : Core) (w : Words) : Core :=
  (opOuts w (declaredRows w)).foldl (fun c u =>
    c.modSlots (coverAt c.base u) fun x =>
      if opdOut u.desc then { x with latch := false, pend := true } else { x with latch := false, epend := true, fill := 1 }) c

/-- Latches at DONE: outputs not pending become full (R234). -/
def Core.closeRun (c : Core) (w : Words) : Core :=
  (opOuts w (declaredRows w)).foldl (fun c u =>
    if opdOut u.desc then c else c.modSlots (coverAt c.base u) fun x => { x with latch := true, epend := false }) c

/-- Byte ranges of the rows of operands. -/
def rangesOf (base : Nat) (us : List OpUse) : List (Nat × Nat) :=
  us.flatMap fun u => (List.range u.rows).map fun i => (opdRow base u.desc i, u.bytes)

/-- The banks of the rows of some ranges. -/
def banksOf (ranges : List (Nat × Nat)) : List Nat :=
  (List.range 24).filter fun b => ranges.any fun p => p.2 ≠ 0 && (let r := p.1 / 64; r + (b + 24 - bankOf r) % 24 ≤ (p.1 + p.2 - 1) / 64)

/-- Which of the accesses of the banks meet others in one c-cycle follows from cycle timing alone: the conflicts and the freezes that
they bring about are free counts (R238, R239). -/
def bankCounts (k : Nat) (ranges : List (Nat × Nat)) (s : State) : State :=
  let u := s.hub.freeUsed
  let add := fun (n : Nat) (t : Table Word64) =>
    (banksOf ranges).foldl (fun t b => tmod 0 t b (· + BitVec.ofNat 64 (Config.freeCount u (n + b)))) t
  (s.modHub fun h => { h with freeUsed := h.freeUsed + 1 }).modCore k fun c => { c with conflicts := add 0 c.conflicts, freezes := add 24 c.freezes }

/-- The reads of a configuration (R234, R240): rows are decoded, and consumed slots empty. The model takes all reads of a configuration in
its start cycle: DESIGN CHOICE (log 22). -/
def takeReads (k : Nat) (us : List OpUse) (s : State) : State :=
  let base := (s.core k).base
  let s := (rangesOf base us).foldl (fun s p => touchRows k p.1 p.2 s) s
  s.modCore k fun c => (us.filter fun u => opdConsume u.desc).foldl (fun c u =>
    c.modSlots (coverAt base u) fun x => { x with latch := false, fill := 0 }) c

/-- A read finds an empty latch (R235): the core freezes, or slips when the awaited writer is its own engine (R214). -/
def freezeOn (k slot row index : Nat) (s : State) : State :=
  if ((s.core k).slotW slot).epend && (s.core k).slip then slipFault k 5 index s
  else s.modCore k fun c => { c with frozen := some ⟨slot, row, s.timeAt k⟩ }

/-- The state words of slots, and the tags of the rows of ranges, are read (R247). -/
def readControl (k : Nat) (slots : List Nat) (ranges : List (Nat × Nat)) (s : State) : State :=
  if (s.core k).stateErrs = [] then s
  else
    let s := slots.foldl (fun s i => readState k clsControl (slotAddr i) 4 s) s
    (ranges.filter fun p => p.2 ≠ 0).foldl (fun s p =>
      let lo := tagAddr (p.1 / 64)
      readState k clsControl lo (tagAddr ((p.1 + p.2 - 1) / 64) + 1 - lo) s) s

/-- What a start reads of the core's state memories: the registers it names, the words of the slots it reads and their tags. -/
def readForStart (k : Nat) (ph w : Words) (s : State) : State :=
  let us := readsOf w (declaredRows w)
  readControl k (us.flatMap (coverAt (s.core k).base)) (rangesOf (s.core k).base us)
    ((regsRead ph w).foldl (fun s r => readState k clsRegs (regAddr r) 8 s) s)

/-! ### Slips (R214, R215) -/

/-- The slip case a start at cycle t meets, if any, and the index of the configuration that slips. -/
def Core.slipCase (c : Core) (w : Words) (fed : Bool) (t : Nat) : Option (Nat × Nat) :=
  let pend := maskOf ((c.pendRegs.filter fun p => t ≤ p.land).map (·.reg))
  let i := c.nextIndex fed
  match c.pendRegs.find? fun p => p.land < t with
  | some p => some (4, p.index)
  | none =>
    if cfRmask w &&& pend ≠ 0 then some (1, i)
    else if cfWmask w &&& pend ≠ 0 then some (2, i)
    else if onEngine w && c.runs.any fun r => r.engine = engineOf (cfKind w) && t < r.busyEnd then some (3, i)
    else none

/-- A start on an occupied engine with the detector off: the running configuration is abandoned, its later writes never happen. How many of
its rows it has written by then is free, in their order (R215). -/
def abandonRun (k : Nat) (r : EngRun) (s : State) : State :=
  let (u, s) := s.fresh
  ((r.outs.take (u.toNat % max 1 r.outs.length)).foldl (fun s p => spadWrite k p.1 p.2 s) s).modCore k fun c =>
    { c with runs := c.runs.erase r, pendRegs := c.pendRegs.filter fun p => p.start ≠ r.start }

/-- The engine of a start at cycle t is given up by what still runs there. -/
def abandon (k : Nat) (w : Words) (t : Nat) (s : State) : State :=
  if onEngine w then ((s.core k).runs.filter fun r => r.engine = engineOf (cfKind w) && t < r.busyEnd).foldl (fun s r => abandonRun k r s) s
  else s

/-- The sequencer moves past a configuration started at cycle t. -/
def Core.advance (c : Core) (w : Words) (fed : Bool) (t : Nat) : Core :=
  let feed := if fed then c.feed.drop 1 else c.feed
  { c with
    now := max c.now t, lastStart := t, feed := feed
    feedAt := if fed then c.feedReady else c.feedAt
    fedStarts := if fed then (t :: c.fedStarts).take 64 else c.fedStarts
    index := if fed then c.index else c.index + 1
    inMacro := c.inMacro && !(fed && feed = [])
    fed := if fed then c.fed + 1 else 0
    fence := if fed && feed = [] then some (field 61 1) else c.fence
    committing := c.committing || cfCommit w }

/-- A row count read at a start, and whether its register is marked. -/
def Core.dynRows (c : Core) (ph w : Words) : Nat × Bool :=
  match regsRead ph w with
  | r :: _ => ((tget 0 c.regs r).toNat, tget false c.regPoison r)
  | [] => (declaredRows w, false)

/-- A start of the next configuration, when it has the kind named: its fetch, slips, and then `run` with its cycle (R211, R214, R218). -/
def startNext (kind k : Nat) (run : Words → Nat → Bool → State → State) (s : State) : State :=
  match (s.core k).nextCfg with
  | none => s
  | some (t, w, fed) =>
    if !s.coreUp k || (s.core k).frozen.isSome || cfKind w ≠ kind then s
    else
      let s := if fed then s else match (s.core k).cmds with
        | q :: _ => readState k clsImem (16384 * q.cmd.region + 512 * ((s.core k).index + 1)) 512 s
        | [] => s
      let c := s.core k
      if !s.coreUp k then s
      else match c.slipCase w fed t with
        | some (case, i) => if c.slip then slipFault k case i s else run w t fed (abandon k w t s)
        | none => run w t fed s

/-- What the record of a started configuration will say (R460); its fetch and its freezes follow from cycle timing alone. -/
def startSample (k : Nat) (w : Words) (s : State) : ConfSample :=
  let c := s.core k
  let u := s.hub.freeUsed
  let base : ConfSample :=
    { due := true, start := c.lastStart, region := 0, index := if c.fed ≠ 0 then c.fed - 1 else c.index - 1, kind := cfKind w, cls := 0,
      tenant := 0, handle := 0xFFFFFFFF, fetch := Config.freeWord u, begun := s.timeAt k, land := 0, done := 0,
      freeze := BitVec.ofNat 32 (Config.freeCount u 0) }
  match c.cmds with
  | [] => base
  | q :: _ => { base with
      region := q.cmd.region, cls := q.cmd.cmdClass, tenant := if q.cmd.handle.isSome then q.cmd.tenant else 0
      handle := q.cmd.handle.getD 0xFFFFFFFF }

/-- The events a start counts (R451): the configuration, and the cycles its engine is occupied; its wait on an empty feed queue (R226); and its
tagging (R459). -/
def countStart (k engine : Nat) (w : Words) (waited : Nat) (s : State) : State :=
  let a := (s.core k).attr engine
  let s := { s with coreE := { s.coreE with feedWaits := s.coreE.feedWaits + BitVec.ofNat 64 waited } }
  let s := (sampleStart k (startSample k w s) s).modHub fun h => { h with freeUsed := h.freeUsed + 1 }
  countEv k 1 0x0B 1 a (if engine < 3 then countEv k 1 (engine + 1) (cfBusy w) a s else s)

/-- The c-cycles by which the feed queue holds back the start of the next configuration at cycle t. -/
def Core.feedWait (c : Core) (fed : Bool) (t : Nat) : Nat :=
  match c.feed with
  | (d, _) :: _ => if fed then t - (c.lastStart + d) else 0
  | [] => 0

/-- A configuration is placed on its engine, with what it will write: rows, accumulators, and a register. -/
def Core.addRun (c : Core) (w : Words) (fed : Bool) (rows t : Nat) (outs : List (Nat × Marked)) (accs : Table LAcc) (scalar : Word64 × Bool) : Core :=
  let i := c.nextIndex fed
  let c := c.openOutputs w
  { c with
    runs := c.runs ++ [⟨engineOf (cfKind w), w, i, rows, t, t + cfBusy w, t + doneOf w, outs, accs⟩]
    pendRegs := c.pendRegs ++ (regsWritten w).map fun r => ⟨r, i, t, t + cfLand w, scalar.1, scalar.2⟩ }

/-- What an array or vector configuration writes (R202, R204). -/
def runWrites (c : Core) (w : Words) (rows : Nat) (mark : Bool) : List (Nat × Marked) :=
  if cfKind w = kArray then (arrayPass c c.base w rows mark).map fun x => x.2
  else if voToreg w then []
  else vectorOut c c.base w rows mark

/-- The accumulators a pass leaves (R188, R190). -/
def runAccs (c : Core) (w : Words) (rows : Nat) (mark : Bool) : Table LAcc :=
  if cfKind w = kArray then
    ((arrayPass c c.base w rows mark).zipIdx).foldl (fun t (x, m) =>
      (x.1.zipIdx).foldl (fun t (a, n) => tset {} t (shapeCols (apShape w) * m + n) a) t) c.acc
  else c.acc

/-- A start of an array or vector configuration: it takes its reads, or the core freezes ahead of them. -/
def runEngine (k : Nat) (w : Words) (t : Nat) (fed : Bool) (s : State) : State :=
  let s := readForStart k [] w s
  let c := s.core k
  let (rows, bad) := c.dynRows [] w
  let mark := bad || (fed && c.feedBad)
  if !s.coreUp k then s
  else if declaredRows w < rows then endCommand k 0x213 s
  else match c.emptyRead w rows with
    | some (slot, row) => freezeOn k slot row (c.nextIndex fed) s
    | none =>
      let scalar := if cfKind w = kVector && voToreg w then vectorScalar c c.base w mark else (0, false)
      countStart k (engineNum (engineOf (cfKind w))) w (c.feedWait fed t) ((takeReads k (readsOf w rows) s).modCore k fun d =>
        let d := d.addRun w fed rows t (runWrites c w rows mark) (runAccs c w rows mark) scalar
        ({ d with shape := if cfKind w = kArray then apShape w else d.shape } : Core).advance w fed t)

/-- ARRAY_PASS (R202). -/
def execArrayPass (core : Nat) (s : State) : Host.Outcome State Fault Refusal := .next (startNext kArray core (runEngine core) s)
/-- VECTOR_OP (R204). -/
def execVectorOp (core : Nat) (s : State) : Host.Outcome State Fault Refusal := .next (startNext kVector core (runEngine core) s)

/-! ### MOVE (R206, R207, R341) -/

/-- The pieces of a move (address, bytes), or the code it ends with, from a reference's base and a dynamic offset. -/
def movePieces (ph w : Words) (base off : Nat) (list : List Nat) : Word16 × List (Nat × Nat) :=
  let n := mvBytes w
  let len := refLen ph (mvRef w)
  let rows := if mvKind w = 1 then [base + off] else if mvKind w = 2 then list.map (base + off + ·) else list
  if rows.all fun a => base ≤ a && a + n ≤ base + len then (0, rows.map fun a => (a, n)) else (0x213, [])

/-- The packet of a hall read with a right, issued by an island with its request's epochs (R324, R331): rights 0 READ,
1 GATHER and 2 FETCH are packet types 1 to 3. -/
def accessPkt (s : State) (island right tclass tenant : Nat) (sys : Bool) (addr len : Nat) (sc : Nat × Nat × Nat × Nat)
    (tag : Nat) : PktF :=
  { type := right + 1, tclass := tclass, hops := s.fabric.hopLimit, dst := deviceOf addr, src := s.deviceId, island := island,
    tag := tag, tenant := tenant, sys := sys, addr := addr, scope := sc.1, scopeId := sc.2.1, epoch := sc.2.2.1,
    penRef := sc.2.2.2, rlen := len }

/-- A piece that this device itself serves (R31, R331): its HBM by local offset, or by hall address under the floor; its data, or a code. -/
def ownPiece (sc : Nat × Nat × Nat × Nat) (isLocal : Bool) (right addr len : Nat) (s : State) : Word16 × Piece × State :=
  let p : Piece := ⟨BitVec.ofNat 64 addr, len, right, isLocal, none, none⟩
  if !isLocal ∧ s.floorOk sc.1 sc.2.1 sc.2.2.1 sc.2.2.2 = false then
    (0x312, p, { s with publish := { s.publish with floorFails := s.publish.floorFails + 1 } })
  else
    let off := addr % 2 ^ 50
    let (m, code) := peekM s off len
    if code ≠ 0 then (code, p, s) else (0, { p with got := some m }, touch [(off, len)] s)

/-- The request's scope for accesses of a command. -/
def State.cmdScope (s : State) (q : CoreCmd) : Nat × Nat × Nat × Nat := match q.cmd.handle with | some h => s.scopeOf h | none => (0, 0, 0, 0)

/-- One piece of a hall move issued (R331, R341): none when it missed or could not be routed, with the state then. -/
def issuePiece (k id : Nat) (right addr len : Nat) (s : State) : Option Piece × State :=
  let c := s.core k
  match c.cmds with
  | [] => (none, s)
  | q :: _ =>
    let sys := q.cmd.handle.isNone
    let dev := deviceOf addr
    let sc := s.cmdScope q
    let isl := if dev = s.deviceId then some (s.loopIsland k)
      else (s.linkFor dev (accessKey s.deviceId k (tget 0 s.fabric.nextTag k))).map (· / 4)
    match isl with
    | none => (none, endCommand k 0x403 s)
    | some li =>
      let (ok, s) := keyCheck li right addr len q.cmd.tenant sys s
      if !ok ∧ s.keyring.reruns ≤ q.life.misses then (none, endCommand k 0x402 (unresolved (clusterOf k) q.cmd.tenant s))
      else if !ok then
        let s := requeueAt k 0 (fun l => { l with misses := l.misses + 1 }) s
        (none, modFabric (fun f => { f with misses := f.misses ++
          [⟨.coreMove k id, q.cmd.handle, BitVec.ofNat 64 addr, right, q.cmd.tenant, sys, clusterOf k⟩] }) s)
      else if dev = s.deviceId then
        match ownPiece sc false right addr len s with
        | (0, p, s) => (some p, s)
        | (code, _, s) => (none, endCommand k code s)
      else match issue k (.coreMove k id) (accessPkt s k right q.cmd.tclass q.cmd.tenant sys addr len sc) [] s with
        | (none, s) => (none, endCommand k 0x403 s)
        | (some tag, s) => (some ⟨BitVec.ofNat 64 addr, len, right, false, some (k, tag), none⟩, s)

/-- All pieces of a hall move in order, stopping when the command has ended. -/
def issueAll (k id right : Nat) : List (Nat × Nat) → List Piece → State → Option (List Piece) × State
  | [], got, s => (some got, s)
  | (a, n) :: l, got, s =>
    match issuePiece k id right a n s with
    | (some p, s) => issueAll k id right l (got ++ [p]) s
    | (none, s) => (none, s)

/-- All pieces of a local read in order: it passes no keyring (R31, R207). -/
def readLocal (k : Nat) : List (Nat × Nat) → List Piece → State → Option (List Piece) × State
  | [], got, s => (some got, s)
  | (a, n) :: l, got, s =>
    match ownPiece (0, 0, 0, 0) true 0 a n s with
    | (0, p, s) => readLocal k l (got ++ [p]) s
    | (code, _, s) => (none, endCommand k code s)

/-- The destination core of an outbound move. -/
def moveTarget (k : Nat) (w : Words) : Nat := if mvKind w = 4 then 16 * clusterOf k + mvCore w else k

/-- The move in flight that a start makes of its pieces. -/
def newMove (c : Core) (k id : Nat) (handle : Option Word32) (w : Words) (ps : List Piece) : MoveRun :=
  { id := id, handle := handle, core := moveTarget k w
    dstSlot := if mvKind w = 4 then opdSlot (word w 12) else c.base + opdSlot (word w 12)
    outbound := mvKind w = 4, pieces := ps, slots := mvSlots w, landed := 0, out := opdOut (word w 12), waiting := false, since := 0 }

/-- A start of a MOVE: marked registers and ranges are tested, its accesses issued, and the move is in flight. -/
def runMove (k : Nat) (w : Words) (t : Nat) (fed : Bool) (s : State) : State :=
  match (s.core k).cmds with
  | [] => s
  | q :: _ =>
    let ph := (s.core k).place q.cmd.region 0
    let s := readForStart k ph w s
    let c := s.core k
    if !s.coreUp k then s
    else match c.emptyRead w 1 with
    | some (slot, row) => freezeOn k slot row (c.nextIndex fed) s
    | none =>
      let src := c.read (opdRow c.base (word w 11) 0) (if mvKind w = 4 then mvBytes w else if mvKind w = 1 then 0 else 8 * mvCount w)
      if (regsRead ph w).any (fun r => tget false c.regPoison r) ∨ (mvKind w ≠ 4 ∧ Marked.bad src) then endCommand k 0x301 s
      else
        let off := mvOffset w + (if mvOdyn w then (tget 0 c.regs (mvXoff w)).toNat * mvBytes w else 0)
        let base := if refDyn ph (mvRef w) then (tget 0 c.regs (refXbase ph (mvRef w))).toNat else (refBase ph (mvRef w)).toNat
        let list := (List.range (mvCount w)).map fun i => leNat ((Marked.bytes src).drop (8 * i) |>.take 8)
        let (code, rows) := if mvKind w = 4 then (0, []) else movePieces ph w base off list
        if code ≠ 0 then endCommand k code s
        else
          let s := takeReads k (readsOf w 1) s
          let (pieces, s) : Option (List Piece) × State :=
            if mvKind w = 4 then (some [⟨0, mvBytes w, 0, true, none, some src⟩], s)
            else if refLocal ph (mvRef w) then readLocal k rows [] s
            else issueAll k c.nextMove (mvKind w - 1) (rows.flatMap fun p => blocksOf p.1 p.2) [] s
          match pieces with
          | none => s
          | some ps =>
            let mv := newMove c k c.nextMove q.cmd.handle w ps
            countStart k 2 w (c.feedWait fed t) (s.modCore k fun c =>
              let c := c.addRun w fed 1 t [] c.acc (0, false)
              ({ c with nextMove := c.nextMove + 1, moves := if mv.slots = 0 then c.moves else c.moves ++ [mv] } : Core).advance w fed t)

/-- MOVE (R206). -/
def execMoveOp (core : Nat) (s : State) : Host.Outcome State Fault Refusal := .next (startNext kMove core (runMove core) s)

/-! ### FENCE and MACRO (R216, R222 to R226) -/

/-- FENCE (R216): the sequencer holds until the named conditions do. -/
def execFence (core : Nat) (s : State) : Host.Outcome State Fault Refusal :=
  .next (startNext kFence core (fun w t fed s => countStart core 3 w 0 (s.modCore core fun c =>
    { c.advance w fed t with fence := some (word w 8) })) s)

/-- The conditions of a waiting fence hold (R216). -/
def Core.fenceHolds (c : Core) (f : Word64) : Bool :=
  (!bit f 63 || c.moves.all fun m => m.outbound) && (!bit f 62 || c.moves.all fun m => !m.outbound) &&
  (!bit f 61 || c.runs.all fun r => r.engine = .move)

/-- FENCE_RESOLVE (R216): the count goes on from the present c-cycle. -/
def execFenceResolve (core : Nat) (s : State) : Host.Outcome State Fault Refusal :=
  .next (match (s.core core).fence with
    | some f => if s.coreUp core && (s.core core).frozen.isNone && (s.core core).fenceHolds f then
        s.modCore core fun c => { c with fence := none, lastStart := c.now }
      else s
    | none => s)

/-- A macro's expansion with the rows M: its configurations, whose outputs are all poisoned when the register that M comes from is (R242). -/
def runMacro (k : Nat) (w : Words) (t : Nat) (fed : Bool) (s : State) : State :=
  let s := readForStart k [] w s
  let c := s.core k
  let m := if mcMdyn w then (tget 0 c.regs (mcXm w)).toNat else mcM w
  if !s.coreUp k then s
  else if mcM w < m then endCommand k 0x213 s
  else
    let feed := macroExpand w m ((s.cluster (clusterOf k)).role = 2) c.shape
    countStart k 3 w 0 ({ s with coreE := { s.coreE with macros := s.coreE.macros + 1 } }.modCore k fun c =>
      let c := c.advance w fed t
      { c with
        feed := feed, inMacro := feed ≠ [], feedAt := t, fedStarts := [], feedBad := mcMdyn w && tget false c.regPoison (mcXm w)
        fence := if feed = [] then some (field 61 1) else c.fence })

/-- MACRO (R226): the expansion, a function of the macro's fields and the register it names, fills the feed. -/
def execMacroOp (core : Nat) (s : State) : Host.Outcome State Fault Refusal := .next (startNext kMacro core (runMacro core) s)

/-! ### Ends of configurations (R209, R212, R234) -/

/-- The oldest run of an engine is removed. -/
def Core.dropRun (c : Core) (r : EngRun) : Core := { c with runs := c.runs.erase r, now := max c.now r.doneAt }

/-- A configuration reaches DONE: its rows are written and its latches turned (R234). -/
def finishRun (k : Nat) (r : EngRun) (s : State) : State :=
  let s := s.modCore k fun c => { c with samples := c.samples.map fun x => if x.start = r.start then { x with done := s.timeAt k } else x }
  let c := s.core k
  let ranges := rangesOf c.base (opUses r.words r.rows)
  let s := r.outs.foldl (fun s p => spadWrite k p.1 p.2 s) s
  let a := c.attr (engineNum r.engine)
  let s := ranges.foldl (fun s p => countEv k 1 7 p.2 { a with addr := some p } s) s
  let s := if r.engine = .array then countEv k 1 8 (r.rows * apNv r.words * apK r.words) a s else s
  bankCounts k ranges (s.modCore k fun c =>
    { (c.closeRun r.words).dropRun r with acc := if r.engine = .array then r.accs else c.acc })

/-- CONFIG_DONE (R234): the oldest configuration of an engine. -/
def execConfigDone (core : Nat) (engine : Engine) (s : State) : Host.Outcome State Fault Refusal :=
  .next (
    let c := s.core core
    match c.runs.find? fun r => r.engine = engine with
    | none => s
    | some r => if s.coreUp core && c.frozen.isNone && c.startsPast r.doneAt then finishRun core r s else s)

/-- An exchange-register write lands (R212). -/
def landReg (core : Nat) (p : PendingReg) (s : State) : State :=
  s.modCore core fun c =>
    { c.setReg p.reg p.value p.poison with
      pendRegs := c.pendRegs.erase p, now := max c.now p.land
      samples := c.samples.map fun x => if x.start = p.start then { x with land := s.timeAt core } else x }

/-- REGISTER_LAND (R212): the value is committed at the end of its landing cycle; one that has not landed by then is a slip, or lands when it
does (R214, R215). -/
def execRegisterLand (core reg : Nat) (s : State) : Host.Outcome State Fault Refusal :=
  .next (
    let c := s.core core
    match c.pendRegs.find? fun p => p.reg = reg with
    | none => s
    | some p =>
      if s.coreUp core && c.frozen.isNone && c.startsPast p.land then
        if p.land < c.now && c.slip then slipFault core 4 p.index s else landReg core p s
      else s)

/-! ### Dispatch, commit, kill (R208 to R210, R374, R375) -/

/-- Every region of the program on the core may be dispatched (R208). -/
def Core.regionsOk (c : Core) (first span : Nat) : Bool :=
  (List.range span).all fun i =>
    let r := tget {} c.regions (first + i)
    r.verified && !r.park && !r.quarantine && r.first = first

/-- The queued form of a command, as the header on the core declares it (R207, R208). -/
def mkCmd (s : State) (k : Nat) (cmd : DispatchCmd) (life : Life) : CoreCmd :=
  let c := s.core k
  let ph := c.place cmd.region 0
  let cfgs := (List.range (phConfigs ph)).map fun i => c.place cmd.region (i + 1)
  let resident := match cmd.model with
    | some m => mdlShard (s.model m).head
    | none => 0
  let slots := match cmd.model with
    | some m => (s.model m).rangeSlots
    | none => phSlots ph
  { cmd := cmd, life := life, slots := slots, inFirst := phInFirst ph, inCount := phInCount ph,
    span := phRegions ph + 1, configs := phConfigs ph, resident := resident, xparam := phXparam ph,
    solo := planCommit (planOf cfgs ((s.cluster (clusterOf k)).role = 2)) }

/-- Slots first … first + count − 1 of a core lie in no model slot's range (R276). -/
def State.clearOfModels (s : State) (k first count : Nat) : Bool :=
  s.models.all fun e => e.2.fn = .off || !bit e.2.clusters (clusterOf k) ||
    first + count ≤ e.2.base (clusterOf k) || e.2.base (clusterOf k) + e.2.rangeSlots ≤ first

/-- A command of a model slot runs one of the slot's programs in its range, and no other command touches such a range (R276). -/
def modelPlace (s : State) (k : Nat) (q : CoreCmd) : Bool :=
  match q.cmd.model with
  | some m =>
    let x := s.model m
    (x.fn = .ready || x.fn = .draining) && q.cmd.slotBase = x.base (clusterOf k) && x.programs.any fun p => p.1 = q.cmd.region
  | none => s.clearOfModels k q.cmd.slotBase q.slots

/-- The core takes the command (R208): regions, queue, and slots that no other command or tenant holds. -/
def dispatchOk (s : State) (k : Nat) (q : CoreCmd) : Bool :=
  let c := s.core k
  let b := q.cmd.slotBase
  s.coreUp k && modelPlace s k q && c.cmds.length < 4 && c.regionsOk q.cmd.region q.span && 1 ≤ q.slots && b + q.slots ≤ 3072 &&
  c.cmds.all (fun x => b + q.slots ≤ x.cmd.slotBase || x.cmd.slotBase + x.slots ≤ b) &&
  (q.cmd.model.isSome || (List.range q.slots).all fun i =>
    !(c.slotW (b + i)).alloc || (c.slotW (b + i)).tenant = q.cmd.tenant) &&
  (q.cmd.model.isNone || c.cmds.all fun x => x.cmd.model ≠ q.cmd.model)

/-- One slot of command input lands and is latched full (R208, R234). -/
def fillInput (k slot : Nat) (data : Marked) (s : State) : State :=
  (spadWrite k (2048 * slot) (data ++ List.replicate (2048 - data.length) (0, false)) s).modCore k fun c =>
    c.modSlots [slot] fun w => { w with latch := true, fill := 3 }

/-- The command is placed on the core, in front when it pre-empts (R208, R372). `keep`: its input slots stayed full there (R210); otherwise
they are allocated empty, and the input is moved in. -/
def placeCmd (k : Nat) (front keep : Bool) (q : CoreCmd) (s : State) : State :=
  let b := q.cmd.slotBase
  let s := (forgetHomes k b q.slots s).modCore k fun c =>
    let c := c.own q.cmd.region q.span (· + 1)
    let c := c.modSlots ((List.range q.slots).map (b + ·)) fun w => { w with alloc := true, tenant := q.cmd.tenant }
    let c := if keep then c else c.modSlots q.inSlots fun w => { w with latch := false, fill := 0 }
    let first := c.cmds = []
    let c := ({ c with cmds := if front then q :: c.cmds else c.cmds ++ [q], slip := s.coreE.slipDetect } : Core).renumber
    if first || front then c.startHead else c
  let s := (List.range q.inCount).foldl (fun s i =>
    if ((s.core k).slotW (b + q.inFirst + i)).latch then s
    else fillInput k (b + q.inFirst + i) ((q.cmd.input.drop (2048 * i)).take 2048) s) s
  countEv (idCluster (clusterOf k)) 2 1 1 { cmd := some q.cmd.cmdClass, tenant := some q.cmd.tenant } s

/-- A waiting command is the one dispatched: the core and the slots are the drover's choice. -/
def Waiting.same (w : Waiting) (c : DispatchCmd) : Bool :=
  w.cmd.handle = c.handle && w.cmd.params = c.params && w.cmd.input = c.input && w.cmd.cmdClass = c.cmdClass &&
  w.cmd.tenant = c.tenant && w.cmd.sharers = c.sharers && w.cmd.model = c.model

/-- A waiting command leaves its queue, with what it carries through its re-runs and the place it has kept. -/
def takeWaiting (k : Nat) (c : DispatchCmd) (s : State) : Life × Option (Nat × Nat × Nat) × State :=
  let n := clusterOf k
  match (s.cluster n).waiting.find? fun w => w.same c with
  | some w => (w.life, w.home, s.modCluster n fun x => { x with waiting := x.waiting.erase w })
  | none => match s.placement.held.find? fun w => w.same c with
    | some w => (w.life, w.home, { s with placement := { s.placement with held := s.placement.held.erase w } })
    | none => ({ placedAt := s.time }, none, s)

/-- A killed command is placed again where its input slots stayed full (R210). -/
def CoreCmd.atHome (q : CoreCmd) (k : Nat) (home : Option (Nat × Nat × Nat)) : Bool := home = some (k, q.cmd.slotBase, q.slots)

/-- A command that serves a request runs only while the request does (R60). -/
def State.serves (s : State) (c : DispatchCmd) : Bool := match c.handle with | some h => s.live h | none => true

/-- DISPATCH (R208): a refused command is held by its drover (R208, R371). -/
def execDispatch (core : Nat) (cmd : DispatchCmd) (s : State) : Host.Outcome State Fault Refusal :=
  .next (if s.alive && s.serves cmd then
    let s := readState core clsImem (16384 * cmd.region) 512 s
    let (life, home, s1) := takeWaiting core cmd s
    let q := mkCmd s core cmd life
    if dispatchOk s core q then placeCmd core false (q.atHome core home) q s1
    else s1.modCluster (clusterOf core) fun c => { c with waiting := insertWaiting ⟨cmd, life, s.time, home⟩ c.waiting }
  else s)

/-- A record of R375 after a commit with times A and S. -/
def Slowdown.commit (r : Slowdown) (a sol : Nat) : Slowdown :=
  let worst := if sol = 0 then (if a = 0 then 0 else 2 ^ 32 - 1) else min (2 ^ 32 - 1) (a * 1024 / sol)
  { r with
    actual := r.actual + BitVec.ofNat 64 a, solo := r.solo + BitVec.ofNat 64 sol, commands := r.commands + 1
    worst := if r.worst.toNat < worst then BitVec.ofNat 32 worst else r.worst }

/-- The records of a class and of tenants change alike (R369, R375). -/
def modSlowdowns (cls : Nat) (tenants : List Nat) (f : Slowdown → Slowdown) (s : State) : State :=
  { s with placement := { s.placement with
      classSlow := tmod {} s.placement.classSlow cls f
      tenantSlow := tenants.foldl (fun t n => tmod {} t n f) s.placement.tenantSlow } }

/-- A commit of a class for the tenants charged (R369, R375). -/
def recordSlowdown (tenants : List Nat) (cls a sol : Nat) : State → State := modSlowdowns cls tenants fun r => r.commit a sol

/-- The tenants charged with a command, each once, and the class it counts in: one that serves no tenant is the system's (R369). -/
def chargedTo (c : DispatchCmd) : List Nat := if c.handle.isSome then dedupBy id (c.tenant :: c.sharers) else []
def chargeClass (c : DispatchCmd) : Nat := if c.handle.isSome then c.cmdClass else 13

/-- Every condition of R209 holds. -/
def Core.mayCommit (c : Core) : Bool :=
  c.committing && c.nextCfg.isNone && c.fence.isNone && !c.inMacro && c.runs = [] && c.pendRegs = [] && c.moves = [] && c.frozen.isNone

/-- COMMAND_COMMIT (R209). -/
def execCommandCommit (core : Nat) (s : State) : Host.Outcome State Fault Refusal :=
  .next (match (s.core core).cmds with
    | [] => s
    | q :: _ =>
      if s.coreUp core && (s.core core).mayCommit then
        let s := recordSlowdown (chargedTo q.cmd) (chargeClass q.cmd) (s.time - q.life.placedAt).toNat (q.solo / 2) (sampleEnd core (some (s.timeAt core)) s)
        countEv core 1 9 1 { cmd := some q.cmd.cmdClass, tenant := some q.cmd.tenant } (s.modCore core fun c =>
          let outs := ((List.range q.slots).map (q.cmd.slotBase + ·)).filter fun i => (c.slotW i).pend
          let c := c.modSlots outs fun w => { w with latch := true, pend := false }
          let c := c.modSlots q.inSlots fun w => { w with latch := false }
          let c := c.own q.cmd.region q.span (· - 1)
          (({ c with cmds := c.cmds.drop 1 } : Core).renumber).startHead)
      else s)

/-- COMMAND_KILL (R210): the command goes back to its cluster's queue and may run again. -/
def execCommandKill (core pos : Nat) (s : State) : Host.Outcome State Fault Refusal :=
  .next (if s.alive then requeueAt core pos id s else s)

/-! ### Landings (R234 to R236) -/

/-- The absolute slot on the destination core at which a move's next slot lands: an outbound move counts from the slot base
of the command there that serves the same request (R206). -/
def landingSlot (s : State) (m : MoveRun) : Option Nat :=
  if m.outbound then ((s.core m.core).cmds.find? fun q => q.cmd.handle = m.handle).map fun q => q.cmd.slotBase + m.dstSlot + m.landed
  else some (m.dstSlot + m.landed)

/-- A whole slot lands (R234): its rows, its latch, and the freeze it ends. A slot of an OPD.OUT destination is pending until its command
commits. DEDUCED (R201, R209, R232; log 23). -/
def landSlot (d slot : Nat) (out : Bool) (data : Marked) (s : State) : State :=
  let s := spadWrite d (2048 * slot) (data ++ List.replicate (2048 - data.length) (0, false)) s
  if out then s.modCore d fun c => c.modSlots [slot] fun w => { w with pend := true, fill := 2 }
  else
    let thaws : Bool := match (s.core d).frozen with | some f => f.slot = slot | none => false
    (if thaws then chargeFreeze d s else s).modCore d fun c =>
      { c.modSlots [slot] fun w => { w with latch := true, fill := 2 } with frozen := if thaws then none else c.frozen }

def Core.setMove (c : Core) (m : MoveRun) : Core := { c with moves := c.moves.map fun x => if x.id = m.id then m else x }

/-- Rows that waiting landings hold in a core's landing buffer (R236). -/
def State.buffered (s : State) (d : Nat) : Nat :=
  (mates d).foldl (fun a j => ((s.core j).moves.filter fun m => m.waiting && m.core = d).foldl (fun a m => a + 32 * (m.slots - m.landed)) a) 0

/-- The next slot of a move whose data is all there lands, or waits for its slot (R234, R236). -/
def landNext (core slot : Nat) (m : MoveRun) (s : State) : State :=
  if !((s.core m.core).slotW slot).open_ then s.modCore core (·.setMove { m with waiting := true, since := s.timeAt m.core })
  else
    let data := (m.pieces.flatMap fun p => p.got.getD []).drop (2048 * m.landed) |>.take 2048
    let s := bankCounts m.core [(2048 * slot, 2048)] (landSlot m.core slot m.out data s)
    let s := countEv (idCluster (clusterOf core)) 2 2 2048 { tenant := none } s
    s.modCore core fun c =>
      if m.landed + 1 = m.slots then { c with moves := c.moves.filter fun x => x.id ≠ m.id }
      else c.setMove { m with landed := m.landed + 1 }

/-- MOVE_LANDING (R234): while 64 rows wait in the core's landing buffer, its port refuses further transfers (R236). -/
def execMoveLanding (core id : Nat) (s : State) : Host.Outcome State Fault Refusal :=
  .next (match (s.core core).moves.find? fun m => m.id = id with
    | none => s
    | some m =>
      if !s.coreUp core || !s.coreUp m.core || m.waiting || m.pieces.any (·.got.isNone) || 64 ≤ s.buffered m.core then s
      else match landingSlot s m with
        | none => s
        | some slot =>
          let s := readState m.core clsControl (slotAddr slot) 4 s
          if s.coreUp m.core then landNext core slot m s else s)

/-- LANDING_WAIT_END (R236): the slot is empty with both marks clear, so the landing goes on. -/
def execLandingWaitEnd (core slot : Nat) (s : State) : Host.Outcome State Fault Refusal :=
  .next (if s.coreUp core && ((s.core core).slotW slot).open_ then
    (mates core).foldl (fun s k =>
      let mine := fun m : MoveRun => m.waiting && m.core = core && landingSlot s m = some slot
      if (s.core k).moves.any mine then
        (((s.core k).moves.filter mine).foldl (fun s m => chargeWait m s) s).modCore k fun c =>
          { c with moves := c.moves.map fun m => if mine m then { m with waiting := false } else m }
      else s) s
  else s)

/-! ### Scrubbing and release (R243, R245) -/

/-- When the next row of a core's sweep falls due; while the scrubbers are stopped none does (R243). -/
def State.scrubAt (s : State) (k : Nat) : Word64 :=
  if (s.core k).scrubDue < s.coreE.scrubFrom then s.coreE.scrubFrom else (s.core k).scrubDue

/-- The next row of a core's scrub sweep is read; the one after it falls due SCRUB_PERIOD_S ÷ 98,304 after it did (R243). -/
def scrubOne (k : Nat) (s : State) : State :=
  let r := (s.core k).scrubRow
  let owed := s.coreE.scrubPeriod.toNat * 1000000000 + (s.core k).scrubFrac
  let due := s.scrubAt k + BitVec.ofNat 64 (owed / 98304)
  let s := readControl k [] [(64 * r, 64)] s
  if !s.inService k then s else
  let s := if (s.core k).rowValid r then decodeRow k r s else s
  let s := s.modCore k fun c => { c with scrubRow := if r + 1 = 98304 then 0 else r + 1, scrubDue := due, scrubFrac := owed % 98304 }
  if r + 1 = 98304 then { s with coreE := { s.coreE with scrubSweeps := s.coreE.scrubSweeps + 1 } } else s

/-- SCRUB (R243): a row's read is due and the scrubbers run. -/
def execScrub (core : Nat) (s : State) : Host.Outcome State Fault Refusal :=
  .next (if s.inService core && s.coreE.scrubPeriod ≠ 0 && s.scrubAt core ≤ s.time then scrubOne core s else s)

/-- SCRUB_FORCE (R243): SCRUB_FORCE_CC c-cycles have passed since the row fell due. -/
def execScrubForce (core : Nat) (s : State) : Host.Outcome State Fault Refusal :=
  .next (if s.inService core && s.coreE.scrubPeriod ≠ 0 && s.scrubAt core + BitVec.ofNat 64 (s.coreE.scrubForce.toNat / 2) ≤ s.time then
    scrubOne core s else s)

/-- SCRUB_PERIOD_S's effect: stopped scrubbers start at once (R243). -/
def setScrubPeriod (v : Nat) (s : State) : State :=
  { s with coreE := { s.coreE with
      scrubPeriod := BitVec.ofNat 32 v, scrubFrom := if s.coreE.scrubPeriod = 0 then s.time else s.coreE.scrubFrom } }

/-- INIT_MODE's effect: in native mode FILL_DONE_NS reads 0 (R246, R250). -/
def setInitMode (v : Nat) (s : State) : State :=
  { s with coreE := { s.coreE with initMode := v, fillDone := if v = 0 then 0 else s.coreE.fillDone } }

/-- ALLOCATION_RELEASE (R245): only slots of no queued or running command, and of no model slot's range (R276). -/
def execAllocationRelease (core first count : Nat) (s : State) : Host.Outcome State Fault Refusal :=
  .next (if s.coreUp core && first + count ≤ 3072 && s.clearOfModels core first count &&
      (s.core core).cmds.all fun q => first + count ≤ q.cmd.slotBase || q.cmd.slotBase + q.slots ≤ first then
    (forgetHomes core first count s).modCore core fun c => ((c.eraseSlots first count).modSlots ((List.range count).map (first + ·)) fun w =>
      { w with latch := false, alloc := false, fill := 0 })
  else s)

end Sys2Proof.Machine
end

