-- ==== Sys2Proof/Machine/Fabric.lean ====
section
/-! DEFINITION. Fabric commands (R320 to R348): packets served, replies and acks landed, kill notices, the link layer's
timers and states, routing images, and the keyring's refills, directory, pins and flushes. -/

namespace Sys2Proof.Machine

/-! ### Serving (R331, R334) -/

/-- READ (R331). -/
def execRead (link : Nat) (pkt : Packet) (s : State) : Host.Outcome State Fault Refusal :=
  .next (arrive 1 link pkt (serveRead pkt) s)
/-- GATHER (R331). -/
def execGather (link : Nat) (pkt : Packet) (s : State) : Host.Outcome State Fault Refusal :=
  .next (arrive 2 link pkt (serveRead pkt) s)
/-- FETCH (R331). -/
def execFetch (link : Nat) (pkt : Packet) (s : State) : Host.Outcome State Fault Refusal :=
  .next (arrive 3 link pkt (serveRead pkt) s)

/-- PUBLISH (R334). -/
def execPublish (link : Nat) (pkt : Packet) (s : State) : Host.Outcome State Fault Refusal :=
  .next (arrive 4 link pkt (servePublish pkt) s)

/-! ### Replies (R332, R333, R334) -/

/-- A reply that nothing awaits (R333). -/
def lateReply (s : State) : State := modFabric (fun f => { f with lateReplies := f.lateReplies + 1 }) s

/-- The payload of a reply with each line's poison, cut to the bytes of its segment (R331, R332). -/
def replyData (a : Access) (p : Packet) : Marked :=
  let addr := (word a.hdr 2).toNat
  let n := (segBytes addr p.seg (List.replicate (bits (word a.hdr 5) 63 32) (0, false))).length
  ((fit n p.payload).zipIdx).map fun (b, i) => (b, bit p.lpoison (i / 64))

/-- Segments in their order, joined. -/
def joinSegs (got : List (Nat × Marked)) : Marked := (sortBy (fun x y => x.1 ≤ y.1) got).flatMap Prod.snd

/-- The data of a whole reply reaches the piece of the move that asked for it. -/
def deliver (a : Access) (m : Marked) (s : State) : State :=
  match a.issuer with
  | .coreMove k id => s.modCore k fun c => { c with moves := c.moves.map fun r =>
      if r.id = id then { r with pieces := r.pieces.map fun p => if p.tag = some (a.island, a.tag) then { p with got := some m } else p }
      else r }
  | _ => s

/-- What an access was for fails with a code (R331, R333). -/
def failIssuer (i : Issuer) (code : Word16) (s : State) : State :=
  match i with
  | .coreMove k _ => endCommand k code s
  | .request n => failSlot n code s
  | .job n _ => stopWork n code s
  | .seal _ _ => s

/-- A reply packet lands for its tag (R333). -/
def landReply (type l : Nat) (p : Packet) (s : State) : State :=
  let s := if p.lpoison ≠ 0 then notable (linkIsland l) 7 p.src s else s
  match s.access p.island p.tag with
  | none => lateReply s
  | some a =>
    if bits (word a.hdr 0) 63 56 + 0x80 ≠ type then lateReply s
    else if p.code ≠ 0 then failIssuer a.issuer p.code (dropAccess p.island p.tag s)
    else
      let got := (a.got.filter fun g => g.1 ≠ p.seg) ++ [(p.seg, replyData a p)]
      if got.length = segCount (word a.hdr 2).toNat (bits (word a.hdr 5) 63 32) then
        deliver a (joinSegs got) (dropAccess p.island p.tag s)
      else modFabric (fun f => { f with accesses := f.accesses.map fun x =>
        if x.island = p.island && x.tag = p.tag then { x with got := got } else x }) s

/-- READ_REPLY (R333). -/
def execReadReply (link : Nat) (pkt : Packet) (s : State) : Host.Outcome State Fault Refusal :=
  .next (arrive 0x81 link pkt (landReply 0x81 link pkt) s)
/-- GATHER_REPLY (R333). -/
def execGatherReply (link : Nat) (pkt : Packet) (s : State) : Host.Outcome State Fault Refusal :=
  .next (arrive 0x82 link pkt (landReply 0x82 link pkt) s)
/-- FETCH_REPLY (R333). -/
def execFetchReply (link : Nat) (pkt : Packet) (s : State) : Host.Outcome State Fault Refusal :=
  .next (arrive 0x83 link pkt (landReply 0x83 link pkt) s)

/-- A page's ack: the page is acknowledged, or its job fails with the code (R81, R334). -/
def landAck (p : Packet) (s : State) : State :=
  match s.access p.island p.tag with
  | none => lateReply s
  | some a =>
    let s := dropAccess p.island p.tag s
    match a.issuer with
    | .job n _ => ackPage n p.code s
    | _ => lateReply s

/-- PUBLISH_ACK (R334). -/
def execPublishAck (link : Nat) (pkt : Packet) (s : State) : Host.Outcome State Fault Refusal :=
  .next (arrive 0x84 link pkt (landAck pkt) s)

/-! ### Kill notices (R336) -/

/-- KILL_NOTICE (R336). -/
def execKillNotice (body : Words) (s : State) : Host.Outcome State Fault Refusal :=
  .next (if s.hubUp && msgKind body = 0x0F && !s.killed (msgDevice body) (msgHandle body) then
    let s := killLocal (msgDevice body) (msgHandle body) s
    modFabric (fun f => { f with kills := f.kills ++
      [⟨msgDevice body, msgHandle body, s.time + BitVec.ofNat 64 (4 * s.fabric.timeout.toNat)⟩] }) s
  else s)

/-- KILL_NOTICE_WINDOW_END (R336). -/
def execKillNoticeWindowEnd (device : Nat) (handle : Word32) (s : State) : Host.Outcome State Fault Refusal :=
  .next (modFabric (fun f => { f with kills := f.kills.filter fun k =>
    !(k.device = device && k.handle = handle && k.until_ ≤ s.time) }) s)

/-! ### The link layer (R320 to R322) -/

/-- The link carries packets and its island serves. -/
def State.linkServes (s : State) (l : Nat) : Bool :=
  (decide ((s.link l).fn = .ready) || decide ((s.link l).fn = .draining)) && s.inService (linkIsland l)

/-- LINK_CONTROL (R320, R321). -/
def execLinkControl (link : Nat) (ctl : LinkCtl) (s : State) : Host.Outcome State Fault Refusal :=
  .next (if s.linkServes link then
    let s := s.modLink link fun k => { k with credits := ctl.credits.foldl (fun t c => tmod 0 t c.1 (· + c.2)) k.credits }
    let s := match ctl.ack with | some a => takeAck link a s | none => s
    match ctl.nak with | some x => takeNak link x s | none => s
  else s)

/-- Packet types that R325 assigns, link control among them. -/
def assignedTypes : List Nat := [1, 2, 3, 4, 0x10, 0x81, 0x82, 0x83, 0x84, 0x90, 0xF0]

/-- BAD_PACKET (R325). -/
def execBadPacket (link : Nat) (pkt : Packet) (s : State) : Host.Outcome State Fault Refusal :=
  .next (if assignedTypes.contains pkt.type then s
  else
    let (ok, s) := receive link pkt s
    if ok then modFabric (fun f => { f with badPackets := f.badPackets + 1 }) (returnCredit link pkt s) else s)

/-- PACKET_CRC_FAILURE (R320): discarded with every later packet up to the replay, and a NAK goes back. -/
def execPacketCrcFailure (link : Nat) (s : State) : Host.Outcome State Fault Refusal :=
  .next (if s.linkServes link then
    sendControl link ⟨none, some (s.link link).rxSeq, []⟩ (s.modLink link fun k => { k with discarding := true })
  else s)

/-- LINK_ACK_TIMEOUT (R320): a packet is unacknowledged and 10 µs have passed without an acknowledgement. -/
def execLinkAckTimeout (link : Nat) (s : State) : Host.Outcome State Fault Refusal :=
  .next (if s.linkServes link && (s.link link).replay ≠ [] && 10000 ≤ (s.time - (s.link link).lastAck).toNat then retrain link 2 s
  else s)

/-- LINK_ACK_INTERVAL (R320). -/
def execLinkAckInterval (link : Nat) (s : State) : Host.Outcome State Fault Refusal :=
  .next (if s.linkServes link && (s.link link).ackOwed then
    sendControl link ⟨some ((s.link link).rxSeq - 1), none, []⟩ (s.modLink link fun k => { k with ackOwed := false })
  else s)

/-- A start that was abandoned ends in Off (R485). -/
def abandonLink (l : Nat) (s : State) : State := setLinkFn l .off (s.modLink l fun k => { k with abandon := false })

/-- LINK_READY (R322): a peer with this device's own id leaves the link Starting. -/
def execLinkReady (n peer peerLink : Nat) (s : State) : Host.Outcome State Fault Refusal :=
  .next (if (s.link n).fn = .starting && s.inService (linkIsland n) then
    if (s.link n).abandon then abandonLink n s
    else if peer = s.deviceId then s.modLink n fun k => { k with peer := field 16 (peer % 2 ^ 14) ||| field 0 (peerLink % 64) }
    else linkUp n peer peerLink s
  else s)

/-- LINK_TRAINING_FAILED (R429): the link stays Off. -/
def execLinkTrainingFailed (n : Nat) (s : State) : Host.Outcome State Fault Refusal :=
  .next (if (s.link n).fn = .starting && s.inService (linkIsland n) then abandonLink n s else s)

/-- FAULT_IDLE_RECEIVED (R322). -/
def execFaultIdleReceived (link : Nat) (s : State) : Host.Outcome State Fault Refusal :=
  .next (if s.inService (linkIsland link) then retrain link 3 s else s)

/-! ### Timeouts (R333, R334) -/

/-- FABRIC_TIMEOUT_NS has passed since an access was sent. -/
def State.overdue (s : State) (a : Access) : Bool := s.fabric.timeout.toNat ≤ (s.time - a.sentAt).toNat

/-- FABRIC_TIMEOUT (R333): the command is killed and re-run, and after FABRIC_RERUNS re-runs its request fails. -/
def execFabricTimeout (island tag : Nat) (s : State) : Host.Outcome State Fault Refusal :=
  .next (match s.access island tag with
    | none => s
    | some a =>
      if !s.overdue a then s
      else match a.issuer with
        | .coreMove k _ => match (s.core k).cmds with
          | q :: _ =>
            if q.life.timeouts < s.fabric.reruns then requeueAt k 0 (fun l => { l with timeouts := l.timeouts + 1 }) s
            else endCommand k 0x404 (dropAccess island tag s)
          | [] => dropAccess island tag s
        | .request n => failSlot n 0x404 (dropAccess island tag s)
        | _ => s)

/-- PUBLISH_ACK_TIMEOUT (R334): the page is sent again, or fails. -/
def execPublishAckTimeout (island tag : Nat) (s : State) : Host.Outcome State Fault Refusal :=
  .next (match s.access island tag with
    | none => s
    | some a => match a.issuer with
      | .job n _ =>
        if !s.overdue a then s
        else if s.fabric.reruns ≤ a.reruns then stopWork n 0x404 s
        else
          let p : Packet := ⟨a.hdr, a.payload, 0⟩
          match s.linkFor p.dst (pktKey p) with
          | none => stopWork n 0x403 s
          | some l => modFabric (fun f => { f with accesses := f.accesses.map fun x =>
              if x.island = island && x.tag = tag then { x with reruns := x.reruns + 1, sentAt := s.time } else x }) (enqueue l p s)
      | _ => s)

/-! ### Routing images (R326) -/

/-- The 16,384 entries of an image. -/
def routeImage (s : State) (off : Nat) : Words := peekWords s off 16384

/-- The checks of R326: 0311h, 0407h or 0. -/
def routeCheck (s : State) (off : Nat) : Word16 :=
  if !readable s off 131072 then 0x311
  else
    let es := (routeImage s off).zipIdx
    if es.any fun (e, d) => !rsvd e 62 48 || (if d = s.deviceId then e ≠ field 63 1 else bit e 63 && bits e 47 0 = 0) then 0x407 else 0

/-- An accepted image replaces every copy. -/
def takeRoutes (off : Nat) (s : State) : State :=
  modFabric (fun f => { f with
    routed := true
    routes := ((routeImage s off).zipIdx.filter fun (e, _) => e ≠ 0).map fun (e, d) => (d, e) }) s

/-! ### The keyring (R342 to R348) -/

/-- A keyring entry's form (R338, R345). -/
def keyForm (w0 : Word64) : Bool :=
  bits w0 25 22 ≤ 12 && bits w0 63 26 % 2 ^ bits w0 25 22 = 0 && bits w0 15 14 ≠ 3 && bits w0 9 8 ≠ 3 && rsvd w0 7 0

def keyBase (w0 : Word64) : Nat := bits w0 63 26 * 2 ^ 26
def keySize (w0 : Word64) : Nat := 2 ^ (26 + bits w0 25 22)

/-- Entries of a directory at an offset, in order. -/
def dirCount (s : State) (off : Nat) : Nat := bits (peekWord s off) 31 0
def dirEntry (s : State) (off i : Nat) : Word64 × Word64 :=
  (peekWord s (off + 64 + 16 * i), peekWord s (off + 72 + 16 * i))

/-- Neighbouring entries coincide, or the second lies past the first (R342). -/
def dirOrder (a b : Word64) : Bool :=
  (keyBase a = keyBase b && keySize a = keySize b) || keyBase a + keySize a ≤ keyBase b

/-- The checks of R342: 0311h, 0406h or 0. -/
def dirCheck (s : State) (off : Nat) : Word16 :=
  if !readable s off 64 then 0x311
  else
    let h := recW s off 8
    let n := dirCount s off
    if bits (word h 0) 63 48 ≠ 0x0E ∨ !rsvd (word h 0) 47 32 ∨ n = 0 ∨ 2 ^ 20 < n ∨ (h.drop 1).any (· ≠ 0) then 0x406
    else if !readable s (off + 64) (16 * n) then 0x311
    else
      let ws := (List.range n).map fun i => (dirEntry s off i).1
      if (ws.all fun w => bit w 21 && bits w 15 14 ≤ 1 && keyForm w) && (ws.zip (ws.drop 1)).all fun p => dirOrder p.1 p.2 then 0
      else 0x406

/-- What that check reads. -/
def dirReads (s : State) (off : Nat) : List (Nat × Nat) :=
  (off, 64) :: if readable s off 64 && dirCount s off ≤ 2 ^ 20 then [(off + 64, 16 * dirCount s off)] else []

/-- KEYRING_DIR_CHECK_END (R342). -/
def execKeyringDirCheckEnd (s : State) : Host.Outcome State Fault Refusal :=
  .next (match s.keyring.dirCheck with
    | none => s
    | some off =>
      let code := dirCheck s off.toNat
      noteLong 0x3020 2 s.keyring.dirCode code (modKeyring (fun k => { k with
        dirCheck := none, dirCode := code, dir := if code = 0 then some off else k.dir }) (checkReads (dirReads s off.toNat) s)))

/-- The binary search of R343: the entries it probes, and the first whose segment ends above the address. -/
def dirSearch (s : State) (off addr : Nat) : Nat → Nat → Nat → List Nat → List Nat × Nat
  | 0, lo, _, ps => (ps, lo)
  | f + 1, lo, hi, ps =>
    if hi ≤ lo then (ps, lo)
    else
      let mid := (lo + hi) / 2
      let w := (dirEntry s off mid).1
      if keyBase w + keySize w ≤ addr then dirSearch s off addr f (mid + 1) hi (ps ++ [mid])
      else dirSearch s off addr f lo mid (ps ++ [mid])

/-- The entries of equal segment from an index on. -/
def dirRun (s : State) (off : Nat) (base size n : Nat) : Nat → Nat → List Nat
  | 0, _ => []
  | f + 1, i =>
    if i < n then
      let w := (dirEntry s off i).1
      if keyBase w = base && keySize w = size then i :: dirRun s off base size n f (i + 1) else []
    else []

/-- The line of a directory entry is poisoned. -/
def dirBad (s : State) (off i : Nat) : Bool := (peek s (off + 64 + 16 * i) 16).poison

/-- KEYRING_PINNED of a cluster, and KEYRING_HOST_PINS (R351). -/
def State.keyringPinned (s : State) (c : Nat) : Nat :=
  (s.keyring.entries.filter fun e => bits e.2.w0 15 14 = 1 && bits e.2.w0 13 10 = c).length
def State.hostPins (s : State) : Nat := (s.keyring.entries.filter fun e => bits e.2.w0 15 14 = 2).length

/-- The order of R344 among hints: 2, then 0, then 1. -/
def hintRank (h : Nat) : Nat := if h = 2 then 0 else if h = 0 then 1 else 2

/-- The victim of R344. -/
def State.victim (s : State) : Option Nat :=
  let es := (List.range 512).map fun i => (i, tget {} s.keyring.entries i)
  match es.find? fun e => !bit e.2.w0 21 with
  | some e => some e.1
  | none =>
    let key := fun (e : Nat × KeyEntry) => (hintRank (bits e.2.w0 9 8), e.2.used.toNat)
    let le := fun (x y : Nat × KeyEntry) => (key x).1 < (key y).1 || ((key x).1 = (key y).1 && (key x).2 ≤ (key y).2)
    ((sortBy le (es.filter fun e => bits e.2.w0 15 14 = 0)).head?).map Prod.fst

/-- An entry written over the victim in all copies; its last use is its installation (R343, R344). KEYRING_EVICTIONS counts what refills
replace (R351). -/
def installKey (refill : Bool) (w0 w1 : Word64) (s : State) : State :=
  match s.victim with
  | none => s
  | some v =>
    let old := tget {} s.keyring.entries v
    modKeyring (fun k => { k with
      evictions := if refill && bit old.w0 21 then k.evictions + 1 else k.evictions
      entries := tset {} k.entries v ⟨w0, w1, BitVec.ofNat 64 (s.time.toNat / 1000)⟩ }) s

/-- A directory entry as a refill installs it (R345): pinned to the cluster within its quota. -/
def refillEntry (w0 : Word64) (c : Nat) (s : State) : Word64 :=
  if bits w0 15 14 = 1 && s.keyringPinned c < (s.cluster c).quota then setBits (setBits w0 15 14 1) 13 10 c
  else setBits (setBits w0 15 14 0) 13 10 0

/-- What a refill's lookup finds: a code, or the entry that passes; with the entries it has probed (R343). -/
def lookupKey (m : Miss) (s : State) : Word16 × Option (Word64 × Word64) × List Nat :=
  match s.keyring.dir with
  | none => (0x402, none, [])
  | some d =>
    let off := d.toNat
    let addr := m.addr.toNat
    let n := dirCount s off
    if !s.stackUp (stackOf off) then (0x321, none, [])
    else
      let (ps, i) := dirSearch s off addr 21 0 n []
      let w := (dirEntry s off i).1
      if ps.any fun p => dirBad s off p then (0x301, none, ps)
      else if n ≤ i ∨ addr < keyBase w then (0x402, none, ps)
      else
        let run := dirRun s off (keyBase w) (keySize w) n (n - i) i
        if run.any fun p => dirBad s off p then (0x301, none, ps ++ run)
        else
          let group := tget 0 s.keyring.groups m.tenant
          match (run.map fun p => dirEntry s off p).find? fun e => keyPasses e.1 e.2 m.right addr 1 group m.sys with
          | some e => (0, some e, ps ++ run)
          | none => (0x401, none, ps ++ run)

/-- The probes of a lookup, as reads of the directory. -/
def touchProbes (ps : List Nat) (s : State) : State :=
  match s.keyring.dir with
  | none => s
  | some d => touch (ps.map fun p => (d.toNat + 64 + 16 * p, 16)) s

/-- The request or job of a miss fails (R343, R346); its waiting command goes with it. -/
def failMiss (m : Miss) (code : Word16) (s : State) : State :=
  let s := if code = 0x402 then unresolved m.cluster m.tenant s
    else if code = 0x401 then modKeyring (fun k => { k with denied := k.denied + 1 }) s else s
  match m.issuer with
  | .job n _ => stopWork n code s
  | _ => failRequest m.handle code s

/-- KEYRING_REFILL (R343 to R345): the oldest miss; its command then waits to be placed again, and its page goes on. -/
def execKeyringRefill (s : State) : Host.Outcome State Fault Refusal :=
  .next (match s.fabric.misses with
    | [] => s
    | m :: rest =>
      if !s.inService (idCluster m.cluster) then s
      else
        let s := modFabric (fun f => { f with misses := rest }) s
        let s := countEv (idCluster m.cluster) 2 3 1 { tenant := some m.tenant } s
        let (code, found, ps) := lookupKey m s
        let s := touchProbes ps s
        match found with
        | some (w0, w1) =>
          if (s.keyHit m.right m.addr.toNat 1 m.tenant m.sys).isSome then s
          else installKey true (refillEntry w0 m.cluster s) w1 s
        | none => failMiss m code s)

/-- The quotas of the clusters together (R345). -/
def State.quotaSum (s : State) : Nat := (List.range 16).foldl (fun a c => a + (s.cluster c).quota) 0

/-- A KEYRING_PIN value's form (R345). -/
def pinForm (w0 : Word64) : Bool := keyForm w0 && bit w0 21 && bits w0 15 14 = 2 && bits w0 13 10 = 0

/-- The change of a pin, unpin or flush is in every copy: KEYRING_RESULT leaves FFFFh (R348, R398). -/
def keyDone (s : State) : State := noteLong 0x3020 7 0xFFFF 0 (modKeyring (fun k => { k with result := 0 }) s)

/-- KEYRING_PIN's effect (R345): 0408h, or installed pinned by the host. -/
def pinKey (w0 w1 : Word64) (s : State) : Word16 × State :=
  if 480 < s.hostPins + 1 + s.quotaSum then (0x408, modKeyring (fun k => { k with result := 0x408 }) s)
  else (0, keyDone (installKey false w0 w1 s))

/-- KEYRING_UNPIN's effect (R345). -/
def unpinKey (i : Nat) (s : State) : State :=
  keyDone (modKeyring (fun k => { k with entries := tmod {} k.entries i fun e =>
    { e with w0 := setBits (setBits e.w0 15 14 0) 13 10 0 } }) s)

/-- KEYRING_FLUSH's effect (R345, R348): 1 unpinned, 2 cluster pins too, 3 every entry. -/
def flushKeys (v : Nat) (s : State) : State :=
  keyDone (modKeyring (fun k => { k with entries := k.entries.filter fun e =>
    !(bits e.2.w0 15 14 = 0 || (2 ≤ v && bits e.2.w0 15 14 = 1) || v = 3) }) s)

end Sys2Proof.Machine
end

