-- ==== Sys2Proof/Machine/TextOps.lean ====
section
/-! DEFINITION. Text objects and their arithmetic: vocabularies (R143, R144), the tokeniser (R145 to R151), the detokeniser
(R155), constraint sets (R156 to R158) and templates (R160). -/

namespace Sys2Proof.Machine

/-! ### Vocabularies (R143) -/

def vocType (h : Words) : Nat := bits (word h 0) 63 48
def vocTokens (h : Words) : Nat := bits (word h 0) 20 0
def vocAlgo (h : Words) : Nat := bits (word h 1) 63 56
def vocNfc (h : Words) : Bool := bit (word h 1) 55
def vocSplit (h : Words) : Bool := bit (word h 1) 54
def vocBlocks (h : Words) : Nat := bits (word h 1) 52 40
def vocMax (h : Words) : Nat := bits (word h 1) 39 32
def vocByteBase (h : Words) : Nat := bits (word h 1) 31 0
def vocIndex (h : Words) : Nat := (word h 2).toNat
def vocData (h : Words) : Nat := (word h 3).toNat
def vocLookup (h : Words) : Nat := (word h 4).toNat
def vocMerges (h : Words) : Nat := (word h 5).toNat
def vocMergeCount (h : Words) : Nat := bits (word h 6) 63 32
def vocClasses (h : Words) : Nat := (word h 7).toNat

/-- The header of a vocabulary slot, as its last start found it. -/
def State.vocHead (s : State) (n : Nat) : Words := (s.vocab n).head

def tokEntry (s : State) (h : Words) (t : Nat) : Word64 := peekWord s (vocIndex h + 8 * t)
/-- The byte string of a token. -/
def tokBytes (s : State) (h : Words) (t : Nat) : Bytes :=
  (peek s (vocData h + bits (tokEntry s h t) 55 0) (bits (tokEntry s h t) 63 56)).data

/-- A merge record: left, right, rank, result. -/
def mergeRec (s : State) (h : Words) (i : Nat) : Nat × Nat × Nat × Nat :=
  let a := peekWord s (vocMerges h + 16 * i)
  let b := peekWord s (vocMerges h + 16 * i + 8)
  (bits a 63 32, bits a 31 0, bits b 63 32, bits b 31 0)

/-- U16 element i at an offset. -/
def peekU16 (s : State) (off i : Nat) : Nat := leNat (peek s (off + 2 * i) 2).data

/-- Header fields lie within the ranges of R143. -/
def vocHeadOk (h : Words) : Bool :=
  vocType h = 6 && rsvd (word h 0) 47 21 && 256 ≤ vocTokens h && vocTokens h ≤ 2 ^ 20 && (vocAlgo h = 1 || vocAlgo h = 2) &&
  !bit (word h 1) 53 && rsvd (word h 6) 31 0 && 1 ≤ vocMax h && vocMax h ≤ 128 && vocByteBase h + 256 ≤ vocTokens h &&
  (if vocSplit h then 1 ≤ vocBlocks h && vocBlocks h ≤ 4352 else vocBlocks h = 0 && vocClasses h = 0) &&
  vocMergeCount h ≤ 4194304 && (vocAlgo h = 1 || vocMerges h = 0)

/-- Bytes of the token byte data that the index names. -/
def vocExtent (s : State) (h : Words) : Nat :=
  (List.range (vocTokens h)).foldl (fun m t => max m (bits (tokEntry s h t) 55 0 + bits (tokEntry s h t) 63 56)) 0

/-- The ranges of a vocabulary: offset and bytes. -/
def vocRanges (s : State) (h : Words) : List (Nat × Nat) :=
  [(vocIndex h, 8 * vocTokens h), (vocData h, vocExtent s h), (vocLookup h, 4 * vocTokens h)] ++
  (if vocAlgo h = 1 && vocMergeCount h ≠ 0 then [(vocMerges h, 16 * vocMergeCount h)] else []) ++
  (if vocSplit h then [(vocClasses h, 8736 + 128 * vocBlocks h)] else [])

/-- Byte strings in ascending order. -/
def bytesLt : Bytes → Bytes → Bool
  | [], [] => false
  | [], _ :: _ => true
  | _ :: _, [] => false
  | a :: as, b :: bs => a.toNat < b.toNat || (a = b && bytesLt as bs)

/-- Neighbours of a list satisfy a relation. -/
def chain {α : Type} (r : α → α → Bool) (l : List α) : Bool := (l.zip (l.drop 1)).all fun p => r p.1 p.2

/-- Classes of a block below 15, and block numbers below the count (R148). -/
def classTableOk (s : State) (h : Words) : Bool :=
  !vocSplit h ||
    (((List.range 4352).all fun j => peekU16 s (vocClasses h + 32) j < vocBlocks h) &&
     (peek s (vocClasses h + 8736) (128 * vocBlocks h)).data.all fun b => bits b 3 0 ≠ 15 && bits b 7 4 ≠ 15)

/-- The checks of R144 on the vocabulary at an offset: 0502h, 0311h or 0. -/
def vocCheck (s : State) (off : Nat) : Word16 :=
  if !readable s off 64 then 0x311
  else
    let h := recW s off 8
    if !vocHeadOk h then 0x502
    else if (vocRanges s h).any fun r => !readable s r.1 r.2 then 0x311
    else
      let toks := List.range (vocTokens h)
      let strs := toks.map (tokBytes s h)
      let ms := (List.range (vocMergeCount h)).map (mergeRec s h)
      let sorted := toks.map fun i => leNat (peek s (vocLookup h + 4 * i) 4).data
      if (toks.all fun t => 1 ≤ bits (tokEntry s h t) 63 56 && bits (tokEntry s h t) 63 56 ≤ vocMax h) &&
         ((List.range 256).all fun v => tokBytes s h (vocByteBase h + v) = [BitVec.ofNat 8 v]) &&
         strs.Nodup && sorted.all (· < vocTokens h) && chain (fun a b => bytesLt (tokBytes s h a) (tokBytes s h b)) sorted &&
         (vocAlgo h ≠ 1 || ((ms.map fun m => (m.1, m.2.1)).Nodup && (ms.map fun m => m.2.2.1).Nodup &&
           ms.all fun m => m.1 < vocTokens h && m.2.1 < vocTokens h && m.2.2.2 < vocTokens h)) &&
         classTableOk s h then 0
      else 0x502

/-- What that check reads. -/
def vocReads (s : State) (off : Nat) : List (Nat × Nat) :=
  (off, 64) :: if readable s off 64 && vocHeadOk (recW s off 8) then vocRanges s (recW s off 8) else []

/-! ### From bytes to characters (R145, R146) -/

/-- What decoding gives: a scalar value, or a byte that becomes a byte token. -/
inductive Chr where
  | scalar (c : Nat) (bytes : Bytes)
  | raw (b : Byte)
  deriving DecidableEq, Repr

/-- Length and bounds of the second byte by lead byte; length 0 for a byte that starts no character. -/
def utfLead (b : Nat) : Nat × Nat × Nat :=
  if b < 0x80 then (1, 0, 0)
  else if b < 0xC2 then (0, 0, 0)
  else if b < 0xE0 then (2, 0x80, 0xBF)
  else if b = 0xE0 then (3, 0xA0, 0xBF)
  else if b = 0xED then (3, 0x80, 0x9F)
  else if b < 0xF0 then (3, 0x80, 0xBF)
  else if b = 0xF0 then (4, 0x90, 0xBF)
  else if b < 0xF4 then (4, 0x80, 0xBF)
  else if b = 0xF4 then (4, 0x80, 0x8F)
  else (0, 0, 0)

/-- The scalar value of a well-formed sequence. -/
def utfScalar (bs : Bytes) : Nat :=
  match bs with
  | [] => 0
  | b :: rest =>
    let lead := match rest.length with | 0 => b.toNat | 1 => b.toNat % 32 | 2 => b.toNat % 16 | _ => b.toNat % 8
    rest.foldl (fun a x => a * 64 + x.toNat % 64) lead

/-- A scalar value's UTF-8 bytes. -/
def utfBytes (c : Nat) : Bytes :=
  (if c < 0x80 then [c]
   else if c < 0x800 then [0xC0 + c / 64, 0x80 + c % 64]
   else if c < 0x10000 then [0xE0 + c / 4096, 0x80 + c / 64 % 64, 0x80 + c % 64]
   else [0xF0 + c / 262144, 0x80 + c / 4096 % 64, 0x80 + c / 64 % 64, 0x80 + c % 64]).map (BitVec.ofNat 8)

/-- The byte is acceptable after those taken of a character (R145). -/
def utfAccepts (taken : Bytes) (b : Byte) : Bool :=
  match taken with
  | [] => false
  | l :: rest =>
    let (_, lo, hi) := utfLead l.toNat
    if rest = [] then lo ≤ b.toNat && b.toNat ≤ hi else 0x80 ≤ b.toNat && b.toNat ≤ 0xBF

/-- Decoding from the bytes taken of a character: the items, and the bytes still pending at the end. -/
def decodeUtf : Bytes → Bytes → List Chr × Bytes
  | taken, [] => ([], taken)
  | taken, b :: bs =>
    let begin_ : List Chr → List Chr × Bytes := fun pre =>
      match (utfLead b.toNat).1 with
      | 0 => let r := decodeUtf [] bs; (pre ++ .raw b :: r.1, r.2)
      | 1 => let r := decodeUtf [] bs; (pre ++ .scalar b.toNat [b] :: r.1, r.2)
      | _ => let r := decodeUtf [b] bs; (pre ++ r.1, r.2)
    if taken = [] then begin_ []
    else if utfAccepts taken b then
      if taken.length + 1 = (utfLead (taken.headD 0).toNat).1 then
        let r := decodeUtf [] bs
        (.scalar (utfScalar (taken ++ [b])) (taken ++ [b]) :: r.1, r.2)
      else decodeUtf (taken ++ [b]) bs
    else begin_ (taken.map .raw)

/-- The characters of a text, and its pending bytes; in a final text those become byte tokens (R146). -/
def charsOf (final : Bool) (text : Bytes) : List Chr × Bytes :=
  let (cs, pend) := decodeUtf [] text
  if final then (cs ++ pend.map .raw, []) else (cs, pend)

/-! ### Normalisation and pieces (R147 to R149) -/

/-- A span ends before this scalar value; ASCII is stable under NFC (log: NFC). -/
def nfcStarter (c : Nat) : Bool := c < 0x80 || Config.nfcStarter c
/-- NFC of a span; ASCII is its own NFC. -/
def nfcSpan (cs : List Nat) : List Nat := if cs.all (· < 0x80) then cs else Config.nfc cs

/-- A run of characters that the next one may still join, with its bytes. -/
structure Run where
  cs    : List Nat
  bytes : Nat
  deriving DecidableEq, Repr

/-- One character of normalisation: closed spans and byte tokens so far, and the open span. A span that reaches 1,024 bytes closes there. -/
def nfcStep (a : List Chr × Run) (x : Chr) : List Chr × Run :=
  let closed := fun (cs : List Nat) => (nfcSpan cs).map fun c => Chr.scalar c (utfBytes c)
  match x with
  | .raw b => (a.1 ++ closed a.2.cs ++ [.raw b], ⟨[], 0⟩)
  | .scalar c bs =>
    let (pre, r) := if a.2.cs ≠ [] ∧ (nfcStarter c ∨ 1024 < a.2.bytes + bs.length) then (a.1 ++ closed a.2.cs, (⟨[], 0⟩ : Run)) else a
    if r.bytes + bs.length = 1024 then (pre ++ closed (r.cs ++ [c]), ⟨[], 0⟩) else (pre, ⟨r.cs ++ [c], r.bytes + bs.length⟩)

/-- NFC of a text within its spans (R147): what is closed, and the open span. -/
def nfcText (cs : List Chr) : List Chr × Run := cs.foldl nfcStep ([], ⟨[], 0⟩)

/-- The class of a scalar value (R148). -/
def classOf (s : State) (h : Words) (c : Nat) : Nat :=
  let blk := peekU16 s (vocClasses h + 32) (c / 256)
  let b := leNat (peek s (vocClasses h + 8736 + 128 * blk + c % 256 / 2) 1).data
  if c % 2 = 0 then b % 16 else b / 16

/-- A boundary falls between two adjacent scalar values. -/
def splits (s : State) (h : Words) (a b : Nat) : Bool :=
  vocSplit h && peekU16 s (vocClasses h) (classOf s h a) / 2 ^ classOf s h b % 2 = 1

/-- A piece: bytes to tokenise, or a byte token of R145. -/
inductive Piece0 where
  | text (bs : Bytes)
  | byte (b : Byte)
  deriving DecidableEq, Repr

/-- One character of cutting: closed pieces, the open piece, and its last scalar value. -/
def cutStep (s : State) (h : Words) (a : List Piece0 × Bytes × Nat) (x : Chr) : List Piece0 × Bytes × Nat :=
  let close := if a.2.1 = [] then a.1 else a.1 ++ [.text a.2.1]
  match x with
  | .raw b => (close ++ [.byte b], [], 0)
  | .scalar c bs =>
    if a.2.1 ≠ [] ∧ (1024 ≤ a.2.1.length ∨ splits s h a.2.2 c) then (close, bs, c) else (a.1, a.2.1 ++ bs, c)

/-- The pieces of a text that are closed, and the bytes held back in the open part (R149). -/
def piecesOf (s : State) (h : Words) (final : Bool) (cs : List Chr) : List Piece0 × Nat :=
  let (done, span) := if vocNfc h then nfcText cs else (cs, ⟨[], 0⟩)
  let done := if final && vocNfc h then done ++ (nfcSpan span.cs).map fun c => .scalar c (utfBytes c) else done
  let (ps, rest, _) := done.foldl (cutStep s h) ([], [], 0)
  if final then (if rest = [] then ps else ps ++ [.text rest], 0) else (ps, rest.length + span.bytes)

/-! ### From pieces to tokens (R150, R151) -/

/-- The merge record of a pair: rank and result. -/
def mergeOf (s : State) (h : Words) (a b : Nat) : Option (Nat × Nat) :=
  (((List.range (vocMergeCount h)).map (mergeRec s h)).find? fun m => m.1 = a && m.2.1 = b).map fun m => m.2.2

/-- The lowest rank among adjacent pairs, if any pair has a record. -/
def bestRank (s : State) (h : Words) : List Nat → Option Nat
  | a :: b :: l => match mergeOf s h a b, bestRank s h (b :: l) with
    | some (r, _), some q => some (min r q)
    | some (r, _), none => some r
    | none, q => q
  | _ => none

/-- The leftmost pair of a rank replaced by its result. -/
def mergeFirst (s : State) (h : Words) (rank : Nat) : List Nat → List Nat
  | a :: b :: l => match mergeOf s h a b with
    | some (r, t) => if r = rank then t :: l else a :: mergeFirst s h rank (b :: l)
    | none => a :: mergeFirst s h rank (b :: l)
  | l => l

/-- Merging until no adjacent pair has a record (R150); each merge shortens the list. -/
def bpe (s : State) (h : Words) : Nat → List Nat → List Nat
  | 0, ts => ts
  | f + 1, ts => match bestRank s h ts with
    | some r => bpe s h f (mergeFirst s h r ts)
    | none => ts

/-- The token with a byte string. -/
def tokenOf (s : State) (h : Words) (bs : Bytes) : Option Nat := (List.range (vocTokens h)).find? fun t => tokBytes s h t = bs

/-- The longest token at the head of a piece, with its length; a byte token always matches. -/
def longest (s : State) (h : Words) (bs : Bytes) : Nat → Nat × Nat
  | 0 => (vocByteBase h + (bs.headD 0).toNat, 1)
  | n + 1 => if n + 1 ≤ bs.length then match tokenOf s h (bs.take (n + 1)) with
      | some t => (t, n + 1)
      | none => longest s h bs n
    else longest s h bs n

/-- Greedy longest match (R151). -/
def greedy (s : State) (h : Words) : Nat → Bytes → List Nat
  | 0, _ => []
  | f + 1, bs =>
    if bs = [] then []
    else
      let (t, n) := longest s h bs (vocMax h)
      t :: greedy s h f (bs.drop n)

/-- The tokens of a piece. -/
def pieceTokens (s : State) (h : Words) : Piece0 → List Nat
  | .byte b => [vocByteBase h + b.toNat]
  | .text bs =>
    if vocAlgo h = 1 then bpe s h bs.length (bs.map fun b => vocByteBase h + b.toNat) else greedy s h bs.length bs

/-- What a tokeniser pass gives: tokens, bytes held back, byte tokens of R145 and R146. -/
structure TokPass where
  tokens : List Nat
  held   : Nat
  falls  : Nat
  deriving DecidableEq, Repr

/-- One pass of a text in a vocabulary slot (R153). -/
def tokPass (s : State) (v : Nat) (final : Bool) (text : Bytes) : TokPass :=
  let h := s.vocHead v
  let (ps, held) := piecesOf s h final (charsOf final text).1
  ⟨ps.flatMap (pieceTokens s h), held, (ps.filter fun p => match p with | .byte _ => true | _ => false).length⟩

/-- The detokeniser (R155). -/
def detok (s : State) (v : Nat) (ts : List Nat) : Bytes := ts.flatMap (tokBytes s (s.vocHead v))

/-! ### The vocabulary cache (R154) -/

/-- The most recently used pages a text island holds. -/
def cachePages : Nat := 2048

/-- One look-up of a page: a hit, or a fetch that fills the cache; the code of a fetch that fails. -/
def lookPage (i v pg : Nat) (s : State) : Word16 × State :=
  let c := (s.textIsl i).cache
  if c.contains (v, pg) then
    (0, { s with text := { s.text with vocabHits := s.text.vocabHits + 1 } }.modText i fun t =>
      { t with cache := (v, pg) :: t.cache.erase (v, pg) })
  else
    let r := peek s (4096 * pg) 4096
    if r.code ≠ 0 then (r.code, s)
    else if r.poison then (0x301, touch [(4096 * pg, 4096)] s)
    else
      let s := countEv (idText i) 6 3 1 {} (touch [(4096 * pg, 4096)] s)
      (0, { s with text := { s.text with vocabMisses := s.text.vocabMisses + 1 } }.modText i fun t =>
        { t with cache := ((v, pg) :: t.cache).take cachePages })

/-- Pages that a range covers. -/
def pagesOver (r : Nat × Nat) : List Nat := if r.2 = 0 then [] else (List.range ((r.1 + r.2 - 1) / 4096 + 1 - r.1 / 4096)).map (r.1 / 4096 + ·)

/-- The pages of a vocabulary that a pass over a text looks up: its header's, and those its engine comes by (R154; which ones is the
engine's). -/
def passPages (s : State) (v : Nat) (text : Bytes) : List Nat :=
  let own := vocRanges s (s.vocHead v)
  (s.vocab v).desc.toNat / 4096 ::
    (Config.vocabPages v text).filter fun pg => own.any fun r => r.1 / 4096 ≤ pg && pg ≤ (r.1 + r.2 - 1) / 4096

/-- The pages that detokenising looks up: the header's, and each token's index entry and bytes (R155, R166). -/
def detokPages (s : State) (v : Nat) (ts : List Nat) : List Nat :=
  let h := s.vocHead v
  dedupBy id ((s.vocab v).desc.toNat / 4096 :: ts.flatMap fun t =>
    pagesOver (vocIndex h + 8 * t, 8) ++ pagesOver (vocData h + bits (tokEntry s h t) 55 0, bits (tokEntry s h t) 63 56))

/-- The look-ups of a pass, up to the first that fails. -/
def lookPages (i v : Nat) (pgs : List Nat) (s : State) : Word16 × State :=
  pgs.foldl (fun a pg => if a.1 ≠ 0 then a else lookPage i v pg a.2) (0, s)

/-- A vocabulary's stacks serve. -/
def State.vocServes (s : State) (v : Nat) : Bool :=
  s.stackUp (stackOf (s.vocab v).desc.toNat) && (vocRanges s (s.vocHead v)).all fun r => s.stackUp (stackOf r.1)

/-- A tokeniser pass on a text island over a text of which `prev` bytes were taken in before: its code, what it gives for the
whole text (R149), and the counts of what is new (R154, R166). -/
def runPass (i v : Nat) (final : Bool) (text : Bytes) (prev : Nat) (s : State) : Word16 × TokPass × State :=
  let p := tokPass s v final text
  let q : TokPass := if prev = 0 then ⟨[], 0, 0⟩ else tokPass s v false (text.take prev)
  let new := text.length - prev
  if !s.vocServes v then (0x321, p, s)
  else
    let (code, s) := lookPages i v (passPages s v text) s
    let s := { s with text := { s.text with
      tokenised := s.text.tokenised + BitVec.ofNat 64 new, fallbacks := s.text.fallbacks + BitVec.ofNat 64 (p.falls - q.falls) } }
    (code, p, countEv (idText i) 6 2 (p.tokens.length - q.tokens.length) {} (countEv (idText i) 6 1 new {} s))

/-- Tokens detokenised on a text island (R155): what its look-ups meet, and the bytes. -/
def runDetok (i v : Nat) (ts : List Nat) (s : State) : Word16 × Bytes × State :=
  if !s.vocServes v then (0x321, [], s)
  else
    let (code, s') := lookPages i v (detokPages s v ts) s
    (code, detok s v ts, s')

/-- The Ready text island that takes text work: the lowest, since each takes its work in at once (R153). -/
def State.textFor (s : State) : Option Nat :=
  (List.range 4).find? fun i => decide ((s.textIsl i).fn = .ready) && s.inService (idText i)

/-! ### Constraint sets (R156 to R158) -/

def cstVocab (h : Words) : Nat := bits (word h 0) 47 44
def cstBanned (h : Words) : Nat := bits (word h 0) 28 16
def cstForced (h : Words) : Nat := bits (word h 0) 8 0

/-- Record i of the set at an offset. -/
def cseqAt (s : State) (off i : Nat) : CSeq :=
  let w0 := peekWord s (off + 64 + 144 * i)
  ⟨bits w0 63 56, u32s (bits w0 55 48) (peek s (off + 80 + 144 * i) 128).data⟩

/-- The banned and the forced sequences of the set at an offset; none where there is no set. -/
def setAt (s : State) (off : Nat) : List CSeq × List CSeq :=
  let h := recW s off 8
  if off = 0 then ([], [])
  else ((List.range (cstBanned h)).map (cseqAt s off), (List.range (cstForced h)).map fun i => cseqAt s off (cstBanned h + i))

/-- A record keeps R156. -/
def cseqOk (s : State) (off i tokens : Nat) (banned : Bool) : Bool :=
  let w0 := peekWord s (off + 64 + 144 * i)
  let n := bits w0 55 48
  let ts := u32s 32 (peek s (off + 80 + 144 * i) 128).data
  (if banned then bits w0 63 56 = 1 else bits w0 63 56 = 2 || bits w0 63 56 = 3) && 1 ≤ n && n ≤ 32 && rsvd w0 47 0 &&
  peekWord s (off + 72 + 144 * i) = 0 && (ts.take n).all (· < tokens) && (ts.drop n).all (· = 0)

/-- The check of a constraint set for a model of a vocabulary (R156, R275): 0506h, 0311h or 0. -/
def constraintCheck (s : State) (off v : Nat) : Word16 :=
  if off = 0 then 0
  else if !readable s off 64 then 0x311
  else
    let h := recW s off 8
    let b := cstBanned h
    let f := cstForced h
    if bits (word h 0) 63 48 ≠ 8 ∨ cstVocab h ≠ v ∨ !rsvd (word h 0) 43 29 ∨ !rsvd (word h 0) 15 9 ∨ 4096 < b ∨ 256 < f ∨
        (h.drop 1).any (· ≠ 0) then 0x506
    else if !readable s (off + 64) (144 * (b + f)) then 0x311
    else if (List.range (b + f)).all fun i => cseqOk s off i (vocTokens (s.vocHead v)) (i < b) then 0 else 0x506

/-- What that check reads. -/
def cstReads (s : State) (off : Nat) : List (Nat × Nat) :=
  let h := recW s off 8
  if off = 0 then []
  else (off, 64) :: if readable s off 64 && cstBanned h ≤ 4096 && cstForced h ≤ 256 then [(off + 64, 144 * (cstBanned h + cstForced h))] else []

/-- A token is banned after the tokens emitted (R157). -/
def banned (bs : List CSeq) (o : List Nat) (t : Nat) : Bool :=
  bs.any fun b => b.tokens.length - 1 ≤ o.length && o.drop (o.length - (b.tokens.length - 1)) ++ [t] = b.tokens

/-- The forced sequences active while nothing has been emitted (R158): those forced at start, at place 0. -/
def activeAtStart (fs : List CSeq) : List (Nat × Nat) :=
  (fs.zipIdx.filter fun x => x.1.kind = 3).map fun x => (x.2, 0)

/-- A token is permissible (R158). -/
def permits (fs bs : List CSeq) (tokens : Nat) (o : List Nat) (act : List (Nat × Nat)) (t : Nat) : Bool :=
  t < tokens && !banned bs o t && act.all fun a => (fs.getD a.1 ⟨0, []⟩).tokens[a.2]? = some t

/-- The matcher after a token (R158): active sequences advance, and the token starts others when none was active. -/
def advanceMatch (fs : List CSeq) (act : List (Nat × Nat)) (t : Nat) : List (Nat × Nat) :=
  let next := if act = [] then (fs.zipIdx.filter fun x => x.1.tokens.head? = some t).map fun x => (x.2, 1)
    else (act.filter fun a => (fs.getD a.1 ⟨0, []⟩).tokens[a.2]? = some t).map fun a => (a.1, a.2 + 1)
  next.filter fun a => a.2 < (fs.getD a.1 ⟨0, []⟩).tokens.length

/-! ### Templates (R160) -/

def tplType (h : Words) : Nat := bits (word h 0) 63 48
def tplId (h : Words) : Nat := bits (word h 0) 47 32
def tplVocab (h : Words) : Nat := bits (word h 0) 31 28
def tplFit (h : Words) : Nat := bits (word h 0) 21 20
def tplLast (h : Words) : Bool := bit (word h 0) 19
def tplTrim (h : Words) : Bool := bit (word h 0) 18
def tplElements (h : Words) : Nat := bits (word h 0) 5 0
def tplMaxPassage (h : Words) : Nat := bits (word h 1) 63 48
def tplMinCut (h : Words) : Nat := bits (word h 1) 47 32
def tplPrefix (h : Words) : Nat × Nat := (bits (word h 2) 63 32, bits (word h 2) 31 0)
def tplSuffix (h : Words) : Nat × Nat := (bits (word h 3) 63 32, bits (word h 3) 31 0)
def tplSep (h : Words) : Nat × Nat := (bits (word h 4) 63 32, bits (word h 4) 31 0)
def tplRunTokens (h : Words) : Nat := bits (word h 5) 63 32

def telKind (e : Word64) : Nat := bits e 63 56
def telLen (e : Word64) : Nat := bits e 55 32
def telOff (e : Word64) : Nat := bits e 31 0

/-- The elements of the template at an offset. -/
def tplElems (s : State) (off : Nat) : List Word64 :=
  (List.range (tplElements (recW s off 8))).map fun i => peekWord s (off + 64 + 8 * i)

/-- A token run of the template at an offset. -/
def tplRun (s : State) (off : Nat) (r : Nat × Nat) : List Nat :=
  u32s r.2 (peek s (off + 64 + 8 * tplElements (recW s off 8) + 4 * r.1) (4 * r.2)).data

/-- One element keeps the element rules. -/
def elemOk (e : Word64) : Bool :=
  1 ≤ telKind e && telKind e ≤ 4 && (if telKind e = 1 then 1 ≤ telLen e && telLen e ≤ 65536 else telLen e = 0 && telOff e = 0)

/-- The header of a template keeps R160. -/
def tplHeadOk (h : Words) (id : Nat) : Bool :=
  tplType h = 7 && tplId h = id && rsvd (word h 0) 27 22 && tplFit h ≤ 2 && rsvd (word h 0) 17 6 && 1 ≤ tplElements h &&
  1 ≤ tplMaxPassage h && 1 ≤ tplMinCut h && rsvd (word h 1) 31 0 && (tplPrefix h).2 ≤ 256 && (tplSuffix h).2 ≤ 256 &&
  (tplSep h).2 ≤ 256 && rsvd (word h 5) 31 0 && word h 6 = 0 && word h 7 = 0

/-- The checks of R160 on a template slot: 0505h, 0311h or 0. -/
def templateCheck (s : State) (n : Nat) : Word16 :=
  let off := (s.template n).desc.toNat
  if !readable s off 64 then 0x311
  else
    let h := recW s off 8
    if !tplHeadOk h (s.template n).id.toNat then 0x505
    else if !readable s off (64 + 8 * tplElements h + 4 * tplRunTokens h) then 0x311
    else
      let es := tplElems s off
      let inRun := fun (r : Nat × Nat) => r.1 + r.2 ≤ tplRunTokens h
      let count := fun k => (es.filter fun e => telKind e = k).length
      if es.all elemOk && count 4 = 1 && count 2 ≤ 1 && count 3 ≤ 1 &&
         (es.all fun e => telKind e ≠ 1 || inRun (telOff e, telLen e)) && inRun (tplPrefix h) && inRun (tplSuffix h) && inRun (tplSep h) &&
         decide ((s.vocab (tplVocab h)).fn = .ready) &&
         (tplRun s off (0, tplRunTokens h)).all (· < vocTokens (s.vocHead (tplVocab h))) then 0
      else 0x505

/-- What that check reads. -/
def tplReads (s : State) (n : Nat) : List (Nat × Nat) :=
  let off := (s.template n).desc.toNat
  let h := recW s off 8
  (off, 64) :: if readable s off 64 && tplHeadOk h (s.template n).id.toNat then [(off + 64, 8 * tplElements h + 4 * tplRunTokens h)] else []

end Sys2Proof.Machine
end

