-- ==== Sys2Proof/Machine/Admission.lean ====
section
/-! DEFINITION. Submission rings and admission shared by request and table rings (R32 to R47, R302, R363, R381): which ring
is served, the entry taken, rejected or admitted. -/

namespace Sys2Proof.Machine

/-! ### Rings (R33, R36) -/

def Ring.size (r : Ring) : Nat := 2 ^ r.sizeLog2
def Ring.pending (r : Ring) : Bool := r.enable && r.head != r.tail

/-- The ring the hub serves next (R36): the one whose turn goes on, else the next with pending entries. -/
def State.servingRing (s : State) : Option Nat :=
  if s.hub.rrLeft ≠ 0 ∧ (s.ring s.hub.rrRing).pending then some s.hub.rrRing
  else ((List.range 64).map fun i => (s.hub.rrRing + 1 + i) % 64).find? fun n => (s.ring n).pending

/-- One entry of a turn is taken. -/
def takeTurn (n : Nat) (s : State) : State :=
  s.modHub fun h =>
    { h with rrRing := n, rrLeft := (if h.rrRing = n ∧ h.rrLeft ≠ 0 then h.rrLeft else (s.ring n).weight) - 1 }

/-- HEAD passes the entry (R35). -/
def passEntry (n : Nat) (s : State) : State := takeTurn n (s.modRing n fun r => { r with head := r.head + 1 })

/-- The entry waits in its ring, and the turn passes on (R35, R36). -/
def holdEntry (n : Nat) (s : State) : State := s.modHub fun h => { h with rrRing := n, rrLeft := 0 }

/-- The hub may take an entry of this ring now. -/
def State.mayTake (s : State) (n : Nat) : Bool := s.hostUp && s.fwReady && s.servingRing = some n

/-- Where the entry at HEAD lies (R33). -/
def State.entryAddr (s : State) (n : Nat) : Nat := (s.ring n).base.toNat + 128 * ((s.ring n).head.toNat % (s.ring n).size)

/-- The entry at HEAD: as this device holds it when its ring lies in the intake region (R40, R391), and otherwise as its read of host
memory delivered it. -/
def State.ringEntry (s : State) (n : Nat) (given : Words) : Words :=
  match s.windowOffset (s.entryAddr n) with
  | none => given
  | some off => wordsOf 16 (peek s (s.hbm.intakeBase.toNat + off) 128).data

/-- An entry whose mirror address is 0 or misaligned is skipped (R44, step 1). -/
def mirrorBad (d : Words) : Bool := dMirror d = 0 || dMirror d % 64 ≠ 0
def skipEntry (n : Nat) (s : State) : State := passEntry n (s.modRing n fun r => { r with errors := r.errors + 1 })

/-- The entry at HEAD is read: in the intake region once its page's snoops are answered, while the region is not served the entry waits,
and a poisoned one is skipped (R36, R388, R392). -/
def readRingEntry (n : Nat) (run : State → State) (s : State) : State :=
  if !s.mayTake n then s
  else
    let a := s.entryAddr n
    match s.windowOffset a with
    | none => run (hostRead a 128 s)
    | some off =>
      let l := s.hbm.intakeBase.toNat + off
      if s.intakeState ≠ 2 then s
      else withSnoops [(a, 128)] (fun s => if (peek s l 128).poison then skipEntry n (touch [(l, 128)] s) else run (touch [(l, 128)] s)) s

/-- A rejected descriptor (R46). What its mirror line says of an admission that did not take place is open. -/
def rejectEntry (n : Nat) (d : Words) (code : Word16) (s : State) : State :=
  let s := countEv idHub 7 2 1 { tenant := some (dTenant d) } (s.modHub fun h => { h with rejected := h.rejected + 1 })
  let (a, s) := s.fresh
  let (e, s) := s.fresh
  passEntry n (hostWrite (dMirror d)
    (mirrorLine (statusWord 0 ssFailed sgAdmit 0 0 code.toNat) 0xFFFFFFFF (dTag d) s.time a (BitVec.ofNat 32 (bits e 31 0))
      (if dPenEn d then BitVec.ofNat 32 (bits e 63 32) else 0)) s)

/-! ### Checks shared by every ring (R44) -/

/-- Check 3: the ring's lock and the tenant's enable bit. -/
def State.tenantOk (s : State) (n : Nat) (d : Words) : Bool :=
  let lock := (s.ring n).tenantLock
  (!bit lock 15 || bits lock 11 0 = dTenant d) && tget false s.hub.tenantEnable (dTenant d)

/-- Check 9: the tenant's policer at the colour of the ring; whether the descriptor passes (R363). -/
def policeTenant (n t : Nat) (s : State) : Bool × State :=
  let p := tget {} s.traffic.tenantPol t
  let b := tget {} s.traffic.tenantBuckets t
  let b := if b.used then b else fullBucket p.w1 s.time
  let (colour, b') := meter p.w0 p.w1 b s.time 65536 1000000000 (s.ring n).colour 65536
  (colour ≠ clRed, { s with traffic := { s.traffic with
    tenantPol := tmod {} s.traffic.tenantPol t fun p => p.counted colour
    tenantBuckets := tset {} s.traffic.tenantBuckets t b' } })

/-- Slots a tenant holds (R381, R385). -/
def State.slotsUsed (s : State) (t : Nat) : Nat :=
  (s.slots.filter fun e => stState e.2.status ≠ ssFree && dTenant e.2.desc = t).length

/-- The lowest free slot from n on. -/
def State.firstFree (s : State) : Nat → Nat → Option Nat
  | 0, _ => none
  | f + 1, n => if stState (s.slot n).status = ssFree then some n else s.firstFree f (n + 1)

/-- A slot for a tenant's descriptor, if there is one (R35, R381); which free slot is open, and the lowest is taken. -/
def State.slotFor (s : State) (t : Nat) : Option Nat :=
  if tget 65536 s.hub.quotas t ≤ s.slotsUsed t then none else s.firstFree 65536 0

/-- The generation after one, never 0 (R45). -/
def nextGen (g : Nat) : Nat := if g = 65535 then 1 else g + 1

/-- The deadline of R47. -/
def deadlineOf (s : State) (ns : Nat) : Word64 :=
  let d := if ns = 0 then s.hub.defaultDeadline.toNat else ns
  if d = 0 then BitVec.allOnes 64 else s.time + BitVec.ofNat 64 d

/-- A descriptor admitted into slot k with what its kind fixes (R45, R47): `fill` sets the epochs or versions. -/
def admitEntry (n k : Nat) (d : Words) (contWait : Bool) (fill : Slot → Slot) (s : State) : State :=
  let gen := nextGen (stGen (s.slot k).status)
  let flags := if contWait then 2 ^ (flContWait - 32) else 0
  let s := s.modSlot k fun _ => fill
    { status := statusWord gen ssAdmitted sgAdmit flags 0 0, ring := n, admitTime := s.time,
      deadline := deadlineOf s (dDeadline d), desc := d, committed := true, inputDone := !contWait : Slot }
  let s := countEv idHub 7 1 1 { tenant := some (dTenant d) } (s.modHub fun h => { h with admitted := h.admitted + 1 })
  passEntry n (writeMirror k s.time (sampleAdmit k s))

/-- A descriptor row (R44): `check` gives the code of checks 2 and 4 to 8 in their order around check 3, `fill` what is fixed
at admission. -/
def takeDescriptor (n : Nat) (d : Words) (form : Bool) (check : State → Word16) (contWait : Bool) (fill : State → Slot → Slot)
    (s : State) : State :=
  readRingEntry n (fun s =>
    if mirrorBad d then skipEntry n s
    else if dVersion d ≠ 1 ∨ !form then rejectEntry n d 0x101 s
    else if !s.tenantOk n d then rejectEntry n d 0x105 s
    else if check s ≠ 0 then rejectEntry n d (check s) s
    else match s.slotFor (dTenant d) with
      | none => holdEntry n s
      | some k =>
        let (ok, s) := policeTenant n (dTenant d) s
        if !ok then rejectEntry n d 0x106 s else admitEntry n k d contWait (fill s) s) s

end Sys2Proof.Machine
end

