-- ==== Sys2Proof/Machine/Requests.lean ====
section
/-! DEFINITION. Requests (R34, R39 to R63): doorbell, cancel, release, the request descriptors and continues, the final
commit, failures, expiry, retention, mirror writes and the observation of result buffers. -/

namespace Sys2Proof.Machine

/-! ### The request window (R34, R58, R60) -/

/-- DOORBELL (R34, R407, R410). -/
def execDoorbell (ring : Nat) (tail : Word32) (s : State) : Host.Outcome State Fault Refusal :=
  .next (if s.hostUp && ring < 64 then
    let s := countEv idHost 5 3 1 {} s
    let r := s.ring ring
    if !r.enable ∨ !s.fwReady ∨ r.size < (tail - r.head).toNat then s.modRing ring fun r => { r with errors := r.errors + 1 }
    else s.modRing ring fun r => { r with tail := tail }
  else s)

/-- CANCEL (R60). -/
def execCancel (handle : Word32) (s : State) : Host.Outcome State Fault Refusal :=
  .next (if s.hostUp then
    if s.live handle && !(s.slot (handleSlot handle)).commitsSent then endRequest (handleSlot handle) ssCancelled 0x103 s
    else s.modHub fun h => { h with cancelLate := h.cancelLate + 1 }
  else s)

/-- A terminal slot becomes free: of its status word only STATE changes (R53, R58). -/
def freeSlot (n : Nat) (s : State) : State :=
  s.modSlot n fun x => { status := setState ssFree x.status : Slot }

/-- RELEASE (R58). -/
def execRelease (handle : Word32) (s : State) : Host.Outcome State Fault Refusal :=
  .next (if s.hostUp then
    let w := (s.slot (handleSlot handle)).status
    if terminalState w && stGen w = handleGen handle then freeSlot (handleSlot handle) s
    else s.modHub fun h => { h with releaseIgnored := h.releaseIgnored + 1 }
  else s)

/-- SLOT_RETAIN_TIMEOUT (R58). -/
def execSlotRetainTimeout (slot : Nat) (s : State) : Host.Outcome State Fault Refusal :=
  .next (if s.hubUp && terminalState (s.slot slot).status && s.hub.slotRetain ≠ 0 &&
      s.hub.slotRetain.toNat ≤ (s.time - (s.slot slot).endTime).toNat then freeSlot slot s else s)

/-! ### Request descriptors (R39 to R47) -/

/-- Reserved bits of a request descriptor are 0. -/
def descForm (op : Nat) (d : Words) : Bool :=
  dOpcode d = op && !bit (word d 0) 48 && rsvd (word d 0) 35 32 && rsvd (word d 1) 11 0 && rsvd (word d 9) 7 0

/-- A result buffer keeps R40. -/
def bufOk (addr len : Nat) : Bool := addr % 64 = 0 && len % 64 = 0

/-- Check 4: ranges of the fields that the stages it runs read, the buffers of R41, and R40. -/
def descRanges (d : Words) : Bool :=
  let op := dOpcode d
  let within := fun (v hi : Nat) => 1 ≤ v && v ≤ hi
  bufOk (dShortlistBuf d) (dShortlistLen d) && bufOk (dRankedBuf d) (dRankedLen d) && bufOk (dOutputBuf d) (dOutputLen d) &&
  (if op = opRetrieve then dRankedBuf d ≠ 0 && dRankedLen d ≠ 0 else dOutputBuf d ≠ 0 && dOutputLen d ≠ 0) &&
  (op ≠ opPack && op ≠ opGenerate || 1 ≤ dTokenBudget d) &&
  (!searches d || ((dSharedEn d || dPenEn d) && within (dShortlist d) 4096 && within (dKFinal d) 4096 &&
    (!dCrossEn d || within (dCrossK d) 256) && (!dPenEn d || within (dPenK d) 4096) && (!dFilterEn d || within (dFilterLen d) 4096)))

/-- The registration slot that serves a corpus to new requests (R44, check 6). -/
def State.corpusFor (s : State) (id : Nat) : Option Nat :=
  (s.corpora.find? fun e => e.2.desc != 0 && e.2.id.toNat = id && e.2.enable && e.2.current != 0).map Prod.fst

/-- The enabled template slot with an id (R44, check 6; R160). -/
def State.templateFor (s : State) (id : Nat) : Option Nat :=
  (s.templates.find? fun e => e.2.enable && e.2.id.toNat = id).map Prod.fst

def dSearchShared (d : Words) : Bool := searches d && dSharedEn d
def dSearchPen (d : Words) : Bool := searches d && dPenEn d

/-- The model slots that the enabled stages name. -/
def modelsOf (d : Words) : List Nat :=
  dedupBy id ((if (stagesOf d).contains sgEmbed then [dEncSlot d] else []) ++
    (if (stagesOf d).contains sgRewrite then [dGenSlot d] else []) ++
    (if (stagesOf d).contains sgCross then [dCrossSlot d] else []))

/-- The pen's home is this device. -/
def State.penHere (s : State) (d : Words) : Bool := deviceOf (dPenRef d) = s.deviceId
def State.penHead (s : State) (d : Words) : Words := recW s (dPenRef d % 2 ^ 50) 8

/-- Check 8 for the scans that run. -/
def State.snapsOk (s : State) (d : Words) : Bool :=
  !dSnapExplicit d ||
    ((!dSearchShared d || match s.corpusFor (dCorpus d) with
      | some n => (s.corpus n).floor.toNat ≤ dSnapshot d && dSnapshot d ≤ (s.corpus n).current.toNat
      | none => false) &&
     (!dSearchPen d || !s.penHere d || !s.pointerAt (dPenRef d % 2 ^ 50) ||
      (penFloor (s.penHead d) ≤ dPenSnapshot d && dPenSnapshot d ≤ penEpochOf (s.penHead d))))

/-- Checks 4 to 8 of R44. -/
def descCheck (d : Words) (s : State) : Word16 :=
  if !descRanges d then 0x104
  else if s.hub.maxInput.toNat < dInputLen d + dCtxLen d then 0x10A
  else if (dSearchShared d && (s.corpusFor (dCorpus d)).isNone) || (dOpcode d = opPack && (s.templateFor (dTemplate d)).isNone) then 0x10D
  else if (modelsOf d).any fun m => (s.model m).fn ≠ .ready then 0x108
  else if !s.snapsOk d then 0x107
  else 0

/-- The items R47 fixes. -/
def descFill (d : Words) (s : State) (x : Slot) : Slot :=
  { x with
    corpusEpoch := if dSnapExplicit d then BitVec.ofNat 32 (dSnapshot d)
      else if dSearchShared d then match s.corpusFor (dCorpus d) with | some n => (s.corpus n).current | none => 0
      else 0
    penEpoch := if !dSearchPen d then 0 else if dSnapExplicit d then BitVec.ofNat 32 (dPenSnapshot d)
      else if s.penHere d then BitVec.ofNat 32 (penEpochOf (s.penHead d)) else 0
    gens := (modelsOf d).map fun m => (m, (s.model m).gen)
    template := (s.templateFor (dTemplate d)).getD 0
    received := dInputLen d }

/-- A request descriptor of an opcode is taken; `given` is what the entry reads as in host memory. -/
def takeRequest (op n : Nat) (given : Words) (s : State) : State :=
  let d := s.ringEntry n given
  if dOpcode d ≠ op ∨ (s.ring n).kind ≠ 0 then s
  else takeDescriptor n d (descForm op d) (descCheck d) (!dInputFinal d) (descFill d) s

/-- RETRIEVE_AND_PACK (R41). -/
def execRetrieveAndPack (ring : Nat) (desc : Words) (s : State) : Host.Outcome State Fault Refusal :=
  .next (takeRequest opPack ring desc s)
/-- RETRIEVE (R41). -/
def execRetrieve (ring : Nat) (desc : Words) (s : State) : Host.Outcome State Fault Refusal :=
  .next (takeRequest opRetrieve ring desc s)
/-- EMBED_ONLY (R41). -/
def execEmbedOnly (ring : Nat) (desc : Words) (s : State) : Host.Outcome State Fault Refusal :=
  .next (takeRequest opEmbed ring desc s)
/-- GENERATE (R41). -/
def execGenerate (ring : Nat) (desc : Words) (s : State) : Host.Outcome State Fault Refusal :=
  .next (takeRequest opGenerate ring desc s)

/-- Opcodes a ring of a kind assigns (R39, R302). -/
def assignedOps (kind : Nat) : List Nat := if kind = 1 then [0x10, 0x11, 0x12, 0x13] else [1, 2, 3, 4, 0x0E]

/-- OPCODE_UNASSIGNED (R44). -/
def execOpcodeUnassigned (ring : Nat) (desc : Words) (s : State) : Host.Outcome State Fault Refusal :=
  .next (
    let d := s.ringEntry ring desc
    if (assignedOps (s.ring ring).kind).contains (dOpcode d) then s
    else takeDescriptor ring d false (fun _ => 0) false (fun _ x => x) s)

/-! ### The final commit, failures, time (R57 to R62) -/

/-- Whether the current stage is the request's last. -/
def Slot.lastStage (x : Slot) : Bool := (stageAfter x.desc (stStage x.status)).isNone || 0x10 ≤ dOpcode x.desc

/-- COUNT at done (R53, R302). -/
def Slot.doneCount (x : Slot) : Nat := if dOpcode x.desc = opRetrieve then stCount x.status else x.outCount

/-- The deadline of a request is past (R61). -/
def State.pastDeadline (s : State) (n : Nat) : Bool := (s.slot n).deadline ≠ BitVec.allOnes 64 && (s.slot n).deadline < s.time

/-- FINAL_COMMIT (R62): the last stage has committed and its buffers are globally visible; a dead end of opcode 04h ends
done with CODE 0501h (R159). A commit that comes after the deadline finds the request expired (R61). -/
def execFinalCommit (slot : Nat) (s : State) : Host.Outcome State Fault Refusal :=
  .next (
    let x := s.slot slot
    if s.hubUp && stState x.status = ssRunning && x.committed && x.lastStage && x.observe = [] then
      if s.pastDeadline slot then endRequest slot ssExpired 0x102 s
      else finishRequest slot x.doneCount (if x.deadEnd then s.modSlot slot fun x => { x with status := setCode 0x501 x.status } else s)
    else s)

/-- REQUEST_FAILURE (R59): a failure reaches the hub; the first one decides. -/
def execRequestFailure (handle : Word32) (code : Word16) (s : State) : Host.Outcome State Fault Refusal :=
  .next (if s.hubUp && code ≠ 0 then failRequest (some handle) code s else s)

/-- EXPIRE (R61). -/
def execExpire (slot : Nat) (s : State) : Host.Outcome State Fault Refusal :=
  .next (if s.hubUp && liveState (s.slot slot).status && (s.slot slot).deadline ≠ BitVec.allOnes 64 && (s.slot slot).deadline ≤ s.time then
    endRequest slot ssExpired 0x102 s else s)

/-- MIRROR_COALESCE (R57): the latest of the merged changes is written. -/
def execMirrorCoalesce (slot : Nat) (s : State) : Host.Outcome State Fault Refusal :=
  .next (match (s.slot slot).mirrorPend with
    | some t => if s.hubUp then writeMirror slot t s else s
    | none => s)

/-- GLOBAL_OBSERVATION (R54): the oldest written buffer is globally visible, and what declares it complete is set; the
output buffer's state is set by the final commit. -/
def execGlobalObservation (slot : Nat) (s : State) : Host.Outcome State Fault Refusal :=
  .next (match (s.slot slot).observe with
    | [] => s
    | (b, count, flags) :: rest =>
      if !s.hubUp || !liveState (s.slot slot).status || !s.hostPath || (s.slot slot).cut then s
      else
        let s := s.modSlot slot fun x => { x with observe := rest }
        let more := fun w => w ||| field 32 (flags % 256)
        match b with
        | .shortlist => changeStatus slot true (fun w => setFlag flPartial true (setCount count (more w))) s
        | .ranked => changeStatus slot true (fun w => setFlag flRanked true (setCount count (more w))) s
        | .output =>
          let s := s.modSlot slot fun x => { x with outCount := count }
          if flags % 256 = 0 then s else changeStatus slot false more s)

end Sys2Proof.Machine
end

