-- ==== Sys2Proof/Machine/StageOps.lean ====
section
/-! DEFINITION. What every stage row shares: when a stage may run (R51), its commit, the wait for a function (R377), its reads of
hall memory (R48, R331, R341, R346), and result buffers (R53, R54). -/

namespace Sys2Proof.Machine

/-- The stage waits for the refill of one of its accesses (R341). -/
def State.missing (s : State) (n : Nat) : Bool :=
  s.fabric.misses.any fun m => match m.issuer with | .request k => k = n | _ => false

/-- Stage g of the request in slot n is the next to start. -/
def State.startsStage (s : State) (n g : Nat) : Bool :=
  let x := s.slot n
  liveState x.status && x.committed && (stageAfter x.desc (stStage x.status) == some g)

/-- Stage g may run now (R51): it starts, or it started and has not committed. Answers the state in which it runs. -/
def State.stageTurn (s : State) (n g : Nat) : Option State :=
  if !s.hubUp || 0x10 ≤ dOpcode (s.slot n).desc || s.missing n then none
  else if s.startsStage n g then
    some (startStage n g (s.modSlot n fun x => { x with committed := false, heldSince := none, reruns := 0 }))
  else if s.atStage n g && !(s.slot n).committed then some (s.modSlot n fun x => { x with heldSince := none })
  else none

/-- When stage g of a request started. -/
def Slot.startOf (x : Slot) (g : Nat) : Word64 :=
  match (x.stageTimes.reverse.find? fun p => p.1 = g) with
  | some p => p.2
  | none => x.admitTime

/-- The stage's results are in the slot (R51), and its work is charged to its class and tenant; the solo time follows from
cycle timing alone (R369, R374, R375). -/
def commitStage (n cls : Nat) (s : State) : State :=
  let x := s.slot n
  let (sol, s) := s.fresh
  recordSlowdown [dTenant x.desc] cls (s.time - x.startOf (stStage x.status)).toNat sol.toNat
    (s.modSlot n fun x => { x with committed := true, heldSince := none, reruns := 0 })

/-- No Ready function can take the stage: it waits in the hub's queue (R377). -/
def holdStage (n : Nat) (s : State) : State :=
  s.modSlot n fun x => { x with heldSince := some (x.heldSince.getD s.time) }

/-- A stage served by some function: without one it waits. -/
def runStage {α : Type} (n g : Nat) (serve : State → Option α) (run : α → State → State) (s : State) : State :=
  match s.stageTurn n g with
  | none => s
  | some s' => match serve s with
    | none => holdStage n s
    | some a => run a s'

/-! ### Hall reads of a stage -/

/-- The access a stage makes for its request (R48, R331, R379). -/
def stageAcc (s : State) (n : Nat) (island right addr len : Nat) (pen : Bool) : HallAcc :=
  let x := s.slot n
  { addr := addr, len := len, right := right, tenant := dTenant x.desc, island := island, tclass := dTclass x.desc
    scope := if pen then 2 else 1
    scopeId := if pen then 0 else dCorpus x.desc
    epoch := if pen then x.penEpoch.toNat else x.corpusEpoch.toNat
    penRef := if pen then dPenRef x.desc else 0 }

/-- The cluster whose drover refills for an access of an island (R341). -/
def refillerOf (island : Nat) : Nat :=
  if island < 0x100 then island / 16
  else if idMemory 0 ≤ island && island < idLink 0 then refillCluster (island - idMemory 0)
  else 4 * (island - idText 0)

/-- A miss kills the stage's command, which runs again after the refill, or fails (R341, R346). -/
def missStage (n : Nat) (a : HallAcc) (addr : Nat) (s : State) : State :=
  if s.keyring.reruns ≤ (s.slot n).reruns then failSlot n 0x402 (unresolved (refillerOf a.island) a.tenant s)
  else
    modFabric (fun f => { f with misses := f.misses ++
      [⟨.request n, some (s.handle n), BitVec.ofNat 64 addr, a.right, a.tenant, a.sys, refillerOf a.island⟩] })
      (s.modSlot n fun x => { x with reruns := x.reruns + 1 })

/-- The reads of a stage in order: what they delivered, or none when one failed, missed, or has no reply yet; a read that has
no reply leaves the state as it was. -/
def stageReads (n : Nat) (remote : List Fetch) (s0 : State) :
    List HallAcc → List (Bytes × Bool) → State → Option (List (Bytes × Bool)) × State
  | [], got, s => (some got, s)
  | a :: l, got, s =>
    match hallRead a remote s with
    | (.data bs p, s) => stageReads n remote s0 l (got ++ [(bs, p)]) s
    | (.fail code, s) => (none, failSlot n code s)
    | (.miss addr, s) => (none, missStage n a addr s)
    | (.absent, _) => (none, s0)

/-- Reads of a stage followed by its work on them; poisoned data fails the request (R263). -/
def withReads (n : Nat) (remote : List Fetch) (accs : List HallAcc) (run : List Bytes → State → State) (s : State) : State :=
  match stageReads n remote s accs [] s with
  | (none, s) => s
  | (some got, s) => if got.any (·.2) then failSlot n 0x301 s else run (got.map (·.1)) s

/-! ### Result buffers (R53, R54) -/

/-- A result buffer is written, once and whole; its flag or state waits for its global observation. -/
def writeBuffer (n : Nat) (b : Buf) (addr len : Nat) (bytes : Bytes) (count flags : Nat) (s : State) : State :=
  (hostWrite addr (bytes.take len) s).modSlot n fun x => { x with observe := x.observe ++ [(b, count, flags)] }

/-- Bits of the status word's flag byte (R52). -/
def fbTruncated : Nat := 2 ^ (flTruncated - 32)
def fbTieCut : Nat := 2 ^ (flTieCut - 32)
def fbShortfall : Nat := 2 ^ (flShortfall - 32)

/-! ### Clusters that may serve a stage (R284, R371, R376) -/

/-- A cluster that is Ready and in service. -/
def State.clusterUp (s : State) (c : Nat) : Bool := decide ((s.cluster c).fn = .ready) && s.inService (idCluster c)

/-- The cores of a cluster that are in service, ascending: a command runs on no other (R373, R438). -/
def State.servingCores (s : State) (c : Nat) : List Nat := ((List.range 16).map (16 * c + ·)).filter s.inService

/-- The work queued on a cluster: the solo estimates of its cores' commands (R370, R374). -/
def State.queueLoad (s : State) (c : Nat) : Nat :=
  ((List.range 16).flatMap fun i => (s.core (16 * c + i)).cmds.map (·.solo)).foldl (· + ·) 0

/-- The clusters that may serve a command class without a model slot (R142, R371), in the order of R370. DESIGN CHOICE (log 31): in its
steps 1 and 2 a stage row's clusters tie, so the least queued work comes first and then the lowest number. -/
def State.clustersFor (s : State) (cls : Nat) (p : Nat → Bool) : List Nat :=
  sortBy (fun a b => s.queueLoad a ≤ s.queueLoad b)
    ((List.range 16).filter fun c => s.clusterUp c && s.servingCores c ≠ [] && (cls < 4 || 6 < cls || bit s.hub.rerankMask c) && p c)

/-- The cluster that serves a command class without a model slot: the first of R370's order. -/
def State.clusterFor (s : State) (cls : Nat) (p : Nat → Bool) : Option Nat := (s.clustersFor cls p).head?

end Sys2Proof.Machine
end

