-- ==== Sys2Proof/Machine/Text.lean ====
section
/-! DEFINITION. Text commands (R43, R144, R153): continues, the tokenise stage and the start of a vocabulary. -/

namespace Sys2Proof.Machine

/-! ### The tokenise stage (R146, R149, R153) -/

/-- The header of a model slot, as its last start found it. -/
def State.modelHead (s : State) (m : Nat) : Words := (s.model m).head

/-- The vocabularies of a request: those of its enabled stages' models and of its template (R153). -/
def State.vocabsOf (s : State) (x : Slot) : List Nat :=
  dedupBy id ((modelsOf x.desc).map (fun m => mdlVocab (s.modelHead m)) ++
    (if dOpcode x.desc = opPack then [tplVocab (s.template x.template).head] else []))

/-- One vocabulary of the stage: the context once, and the query's text as far as it has come. -/
def tokeniseIn (n i v : Nat) (a : Word16 × Nat × List TokSet × State) : Word16 × Nat × List TokSet × State :=
  let (code, held, sets, s) := a
  if code ≠ 0 then a
  else
    let x := s.slot n
    let old := x.toks.find? fun t => t.vocab = v
    let (c1, ctx, s) : Word16 × List Nat × State := match old with
      | some t => (0, t.ctx, s)
      | none => let (c, p, s) := runPass i v true x.ctx 0 s; (c, p.tokens, s)
    let (c2, p, s) := runPass i v x.inputDone x.text x.taken s
    (if c1 ≠ 0 then c1 else c2, max held p.held, sets ++ [⟨v, p.tokens, ctx⟩], s)

/-- The stage's work on the text it has: a request that still waits for text keeps its pending and held bytes. -/
def tokeniseText (n i : Nat) (s : State) : State :=
  let (code, held, sets, s) := (s.vocabsOf (s.slot n)).foldl (fun a v => tokeniseIn n i v a) (0, 0, [], s)
  if code ≠ 0 then failSlot n code s
  else
    let s := s.modSlot n fun x =>
      { x with toks := sets, taken := x.text.length, pending := (charsOf x.inputDone x.text).2, held := BitVec.ofNat 32 held }
    if (s.slot n).inputDone then commitStage n 9 s else s

/-- The stage takes in the first buffer and the context when it starts. -/
def takeText (n : Nat) (text ctx : Bytes) (s : State) : Word16 × State :=
  let d := (s.slot n).desc
  let (c1, text, s) := readHost (dInputAddr d) (dInputLen d) text s
  let (c2, ctx, s) := readHost (dCtxAddr d) (dCtxLen d) ctx s
  (if c1 ≠ 0 then c1 else c2, s.modSlot n fun x => { x with text := text ++ x.text, ctx := ctx })

/-- TOKENISE (R153). -/
def execTokenise (slot : Nat) (text ctx : Bytes) (s : State) : Host.Outcome State Fault Refusal :=
  .next (
    let fresh := s.startsStage slot sgTokenise
    let d := (s.slot slot).desc
    withSnoops (if fresh then [(dInputAddr d, dInputLen d), (dCtxAddr d, dCtxLen d)] else [])
      (runStage slot sgTokenise State.textFor fun i s =>
        if fresh then
          match takeText slot text ctx s with
          | (0, s) => tokeniseText slot i s
          | (code, s) => failSlot slot code s
        else tokeniseText slot i s) s)

/-! ### Continues (R42, R43) -/

def cHandle (d : Words) : Word32 := BitVec.ofNat 32 (bits (word d 2) 31 0)

/-- Reserved bits of a continue descriptor are 0 (R42). -/
def contForm (d : Words) : Bool :=
  dOpcode d = opContinue && dVersion d = 1 && !bit (word d 0) 48 && rsvd (word d 0) 35 32 && rsvd (word d 1) 62 0 &&
  rsvd (word d 2) 63 32 && word d 3 = 0 && word d 4 = 0 && rsvd (word d 6) 31 0 && word d 7 = 0 && word d 8 = 0 && word d 9 = 0 &&
  (List.range 5).all fun i => word d (11 + i) = 0

/-- What R43 asks of the request continued. -/
def State.continues (s : State) (ring : Nat) (d : Words) : Bool :=
  let x := s.slot (handleSlot (cHandle d))
  s.live (cHandle d) && dOpcode x.desc < 0x10 && !x.inputDone && dTenant x.desc = dTenant d && x.ring = ring

/-- The text follows the request's earlier text (R43); the last buffer clears CONT_WAIT (R53). -/
def appendText (n : Nat) (d : Words) (text : Bytes) (s : State) : State :=
  let s := s.modSlot n fun x =>
    { x with text := x.text ++ text, received := x.received + dInputLen d, inputDone := dInputFinal d }
  let s := if dInputFinal d then changeStatus n false (clearFlag flContWait) s else s
  if s.atStage n sgTokenise then
    match s.textFor with
    | some i => tokeniseText n i s
    | none => holdStage n s
  else s

/-- CONTINUE (R43). -/
def execContinueText (ring : Nat) (desc : Words) (text : Bytes) (s : State) : Host.Outcome State Fault Refusal :=
  .next (
    let d := s.ringEntry ring desc
    if (s.ring ring).kind ≠ 0 ∨ dOpcode d ≠ opContinue then s
    else
      let s0 := s
      let n := handleSlot (cHandle d)
      readRingEntry ring (fun s =>
        if mirrorBad d then skipEntry ring s
        else if !contForm d then rejectEntry ring d 0x101 s
        else if !s.tenantOk ring d then rejectEntry ring d 0x105 s
        else if !s.continues ring d then rejectEntry ring d 0x109 s
        else if s.hub.maxInput.toNat < (s.slot n).received + dInputLen d + dCtxLen (s.slot n).desc then rejectEntry ring d 0x10A s
        else if !s.snooped [(dInputAddr d, dInputLen d)] then issueSnoops [(dInputAddr d, dInputLen d)] s0
        else
          let s := passEntry ring (clearSnoops [(dInputAddr d, dInputLen d)] s)
          match readHost (dInputAddr d) (dInputLen d) text s with
          | (0, bs, s) => appendText n d bs s
          | (code, _, s) => failSlot n code s) s)

/-! ### Vocabularies (R144, R485) -/

/-- VOCAB_READY (R144, R485): the checks end, or an abandoned start does. -/
def execVocabReady (n : Nat) (s : State) : Host.Outcome State Fault Refusal :=
  .next (
    let v := s.vocab n
    if !s.hubUp ∨ v.fn ≠ .starting then s
    else if v.abandon then setVocabFn n .off (s.modVocab n fun v => { v with abandon := false })
    else
      let code := vocCheck s v.desc.toNat
      setVocabFn n (if code = 0 then .ready else .off) ((checkReads (vocReads s v.desc.toNat) s).modVocab n fun v =>
        { v with code := code, head := if code = 0 then recW s v.desc.toNat 8 else v.head }))

end Sys2Proof.Machine
end

