-- ==== Sys2Proof/Machine/Models.lean ====
section
/-! DEFINITION. Model serving (R273 to R297): starting a model slot, instances and batches, prefill and generation steps, the
rewrite and embed stages, and cluster roles. -/

namespace Sys2Proof.Machine

/-! ### Model headers (R273, R274, R276) -/

/-- The header keeps R273. -/
def mdlOk (h : Words) : Bool :=
  let k := mdlKind h
  let gen := k = kindGen
  mdlType h = 0x0A && mdlVersion h = 1 && 1 ≤ k && k ≤ 3 && mdlSpan h ≤ 2 && rsvd (word h 0) 30 16 && (gen || mdlDraft h = 0) &&
  1 ≤ mdlMaxIn h && (gen || mdlEos h = 0) && (!gen || mdlOutA h = 0) && (k = kindEncoder || (mdlOutB h = 0 && mdlOutC h = 0)) &&
  (if gen then 1 ≤ mdlMaxOut h else mdlMaxOut h = 0) && 1 ≤ mdlShard h && mdlShard h ≤ 3071 && mdlRank h ≤ 128 &&
  (if gen then 1 ≤ mdlLayers h else mdlLayers h = 0) && (gen || mdlStep h = 0) &&
  (if gen then mdlKvBytes h % 64 = 0 && 64 ≤ mdlKvBytes h && mdlKvBytes h ≤ 65536 else mdlKvBytes h = 0) && rsvd (word h 7) 31 28

/-- Clusters of an instance. -/
def mdlWidth (h : Words) : Nat := 2 ^ mdlSpan h
/-- The clusters of instance i of a width. -/
def instClusters (w i : Nat) : List Nat := (List.range w).map (i * w + ·)

/-- MODEL_CLUSTERS consists of aligned groups (R274). -/
def maskOk (clusters : Word16) (w : Nat) : Bool :=
  clusters ≠ 0 && (List.range (16 / w)).all fun i =>
    let on := (instClusters w i).map (bit clusters ·)
    on.all id || on.all (!·)

/-- The program images a header names. -/
def mdlImages (h : Words) : List Nat := mdlPrefill h :: if mdlKind h = kindGen then [mdlStep h] else []

def imageHead (s : State) (off : Nat) : Words := recW s off 64
def imageRegions (s : State) (off : Nat) : Nat := phRegions (imageHead s off) + 1
def imageBytes (s : State) (off : Nat) : Nat := 512 * (phConfigs (imageHead s off) + 1)

/-- The slots of a model's range: the largest PH.SLOTS of its programs (R276). -/
def rangeOf (s : State) (h : Words) : Nat := (mdlImages h).foldl (fun m p => max m (phSlots (imageHead s p))) 0

/-! ### Starting (R275) -/

/-- Step 1. -/
def startHeader (n : Nat) (s : State) : Word16 :=
  let x := s.model n
  if x.head = [] then 0x311
  else
    let h := s.modelHead n
    if !mdlOk h then 0x601
    else if !maskOk x.clusters (mdlWidth h) then 0x607
    else if (mdlImages h).any fun p => !readable s p 512 then 0x311
    else if (mdlImages h).any fun p => phSlots (imageHead s p) ≤ mdlShard h then 0x601
    else if (s.vocab (mdlVocab h)).fn ≠ .ready then 0x601
    else 0

/-- Model slots that hold ranges and regions on a cluster of a mask. -/
def State.othersOn (s : State) (n : Nat) (clusters : Word16) : List Model :=
  (s.models.filter fun e => e.1 ≠ n && e.2.fn ≠ .off && e.2.clusters &&& clusters ≠ 0).map Prod.snd

/-- The clusters of a mask. -/
def clustersOf (mask : Word16) : List Nat := (List.range 16).filter (bit mask ·)

/-- The ranges that some slots hold on the cores of a cluster. -/
def rangesOn (c : Nat) (ms : List Model) : List (Nat × Nat) := ms.map fun m => (m.base c, m.rangeSlots)

/-- The lowest place of `need` slots that is clear of some ranges. -/
def placeFor (need : Nat) (taken : List (Nat × Nat)) : Option Nat :=
  (sortBy (· ≤ ·) (0 :: taken.map fun r => r.1 + r.2)).find? fun b => b + need ≤ 3072 &&
    taken.all fun r => b + need ≤ r.1 || r.1 + r.2 ≤ b

/-- What step 3 finds (R276). -/
inductive RangeFit where
  | fits (bases : Table Nat) | waits | full
  deriving DecidableEq, Repr

/-- Step 3: on the cores of each cluster the lowest place that is clear of every range held there. The ranges of the Ready slots and the new
one together must not exceed 3,072 slots; DESIGN CHOICE (log 24): they must also leave one place in one piece, and while only slots that start or
drain are in the way the start waits. -/
def startRange (n : Nat) (s : State) : RangeFit :=
  let x := s.model n
  let need := rangeOf s (s.modelHead n)
  let on := fun c => s.othersOn n (BitVec.ofNat 16 (2 ^ c))
  let ready := fun c => rangesOn c ((on c).filter fun m => m.fn = .ready)
  if (clustersOf x.clusters).any fun c => 3072 < (ready c).foldl (fun a r => a + r.2) need || (placeFor need (ready c)).isNone then .full
  else if (clustersOf x.clusters).any fun c => (placeFor need (rangesOn c (on c))).isNone then .waits
  else .fits ((clustersOf x.clusters).foldl (fun t c => tset 0 t c ((placeFor need (rangesOn c (on c))).getD 0)) [])

def Model.coversRegion (m : Model) (r : Nat) : Bool := m.programs.any fun p => p.1 ≤ r && r < p.1 + p.2
/-- Cores of a cluster mask. -/
def coresOf (clusters : Word16) : List Nat := (List.range 256).filter fun k => bit clusters (k / 16)

/-- Step 4's choice for the programs in turn: the lowest run of free regions, the same on every core. -/
def chooseRegions (n : Nat) (s : State) : List Nat → List (Nat × Nat) → Option (List (Nat × Nat))
  | [], got => some got
  | span :: l, got =>
    let x := s.model n
    let others := s.othersOn n x.clusters
    let free := fun r => !(others.any (·.coversRegion r)) && !(got.any fun p => p.1 ≤ r && r < p.1 + p.2) &&
      (coresOf x.clusters).all fun k => !(tget {} (s.core k).regions r).park
    match (List.range 16).find? fun f => f + span ≤ 16 && (List.range span).all fun i => free (f + i) with
    | some f => chooseRegions n s l (got ++ [(f, span)])
    | none => none

/-- Every target region of a core passed through f (R220). -/
def modRegions (k : Nat) (p : Nat × Nat) (f : Region → Region) (s : State) : State :=
  s.modCore k fun c => { c with regions := (List.range p.2).foldl (fun t i => tmod {} t (p.1 + i) f) c.regions }

/-- The generation after one in a region, never 0 once loaded (R219). -/
def nextImr (g : Byte) : Byte := if g = 0xFF then 1 else g + 1

/-- A region of a program is owned by a command on a core. -/
def Core.ownedAt (c : Core) (p : Nat × Nat) : Bool := (List.range p.2).any fun i => (tget {} c.regions (p.1 + i)).owners ≠ 0

/-- One image loaded on cores of a cluster and verified (R220, R227): rejected while a command owns a target region. A quarantine ends
only with a load that a program load or a model slot's start asks for (R219). -/
def loadImage (n c : Nat) (ks : List Nat) (asked : Bool) (off : Nat) (p : Nat × Nat) (s : State) : Word16 × State :=
  let h := s.modelHead n
  if !readable s off (imageBytes s off) then (0x311, checkReads [(off, imageBytes s off)] s)
  else if ks.any fun k => (s.core k).ownedAt p then
    (0x203, { s with coreE := { s.coreE with busyRejects := s.coreE.busyRejects + 1 } })
  else
    let image := (peek s off (min (imageBytes s off) (16384 * p.2))).data
    let ph := imageHead s off
    let cfgs := (List.range (phConfigs ph)).map fun i => recW s (off + 512 * (i + 1)) 64
    let s := touch [(off, imageBytes s off)] s
    let s := ks.foldl (fun s k => modRegions k p (fun r => { r with verified := false, first := p.1, span := p.2 - 1 })
      (s.modCore k fun k => { k.encode clsImem (16384 * p.1) image.length with imem := memWrite k.imem (16384 * p.1) image })) s
    match verify ph cfgs p.1 p.2 s.hub.resultAbi.toNat (mdlShard h) (mdlKind h = kindGen) with
    | some (code, i) => (code, { s with coreE := { s.coreE with
        verifyRejects := s.coreE.verifyRejects + 1
        lastVerify := field 48 code.toNat ||| field 32 (i % 2 ^ 16) ||| field 16 c } })
    | none =>
      let s := { s with coreE := { s.coreE with loads := s.coreE.loads + 1 } }
      (0, ks.foldl (fun s k => modRegions k p (fun r =>
        { r with verified := true, gen := nextImr r.gen, park := false, quarantine := r.quarantine && !asked }) s) s)

/-- One core's weight shard moved into its resident slots (R273, R275, R276). -/
def loadShard (n k : Nat) (s : State) : Word16 × State :=
  let h := s.modelHead n
  let bytes := 2048 * mdlShard h
  let off := mdlWeights h + (16 * (k / 16 % mdlWidth h) + k % 16) * bytes
  let base := (s.model n).base (clusterOf k)
  if !readable s off bytes then (0x311, checkReads [(off, bytes)] s)
  else
    let data := (peek s off bytes).data
    (0, (spadWrite k (2048 * base) (data.map fun b => (b, false)) (touch [(off, bytes)] s)).modCore k fun c =>
      c.modSlots ((List.range (mdlShard h)).map (base + ·)) fun w => { w with alloc := true, latch := true, fill := 2 })

/-- Steps until the first that fails. -/
def steps {α : Type} (l : List α) (f : α → State → Word16 × State) (s : State) : Word16 × State :=
  l.foldl (fun a x => if a.1 ≠ 0 then a else f x a.2) (0, s)

/-- Steps 4 and 5 on cores of one cluster (R275, R378, R435). -/
def loadCores (n c : Nat) (ks : List Nat) (asked : Bool) (s : State) : Word16 × State :=
  match steps ((mdlImages (s.modelHead n)).zip (s.model n).programs) (fun p s => loadImage n c ks asked p.1 p.2 s) s with
  | (0, s) => steps ks (loadShard n) s
  | r => r
/-- Steps 4 and 5 on one cluster. -/
def loadCluster (n c : Nat) (asked : Bool) (s : State) : Word16 × State := loadCores n c ((List.range 16).map (16 * c + ·)) asked s

/-- What a slot holds on its cores is given up (R276). -/
def releaseModel (n : Nat) (s : State) : State :=
  let x := s.model n
  let s := (coresOf x.clusters).foldl (fun s k => s.modCore k fun c =>
    (c.eraseSlots (x.base (clusterOf k)) x.rangeSlots).modSlots ((List.range x.rangeSlots).map (x.base (clusterOf k) + ·)) fun w =>
      { w with alloc := false, latch := false, fill := 0 }) s
  s.modModel n fun m => { m with programs := [], bases := [], rangeSlots := 0 }

/-- A chosen region is still owned by a command: it is parked, and the load waits (R220). -/
def State.owned (s : State) (n : Nat) : Bool :=
  (coresOf (s.model n).clusters).any fun k => (s.model n).programs.any fun p => (s.core k).ownedAt p

/-- Steps 1 to 3 and the choice of regions; with no code and no programs the start waits for room. -/
def startPlan (n : Nat) (s : State) : Word16 × State :=
  let x := s.model n
  let h := s.modelHead n
  let c1 := startHeader n s
  let c2 := constraintCheck s x.constraint.toNat (mdlVocab h)
  let set := setAt s x.constraint.toNat
  let fit := startRange n s
  let regions := chooseRegions n s ((mdlImages h).map (imageRegions s)) []
  let s := checkReads (((if mdlOk h then mdlImages h else []).map fun p => (p, 512)) ++ if c1 = 0 then cstReads s x.constraint.toNat else []) s
  if c1 ≠ 0 then (c1, s)
  else if c2 ≠ 0 then (c2, s)
  else match fit, regions with
    | .full, _ => (0x606, s)
    | .waits, _ => (0, s)
    | .fits _, none => (0x202, s)
    | .fits bs, some ps => (0, s.modModel n fun m => { m with
        bases := bs, rangeSlots := rangeOf s h, programs := ps, banned := set.1, forced := set.2 })

/-- Every target region is parked (R220). -/
def parkAll (n : Nat) (v : Bool) (s : State) : State :=
  (coresOf (s.model n).clusters).foldl (fun s k => (s.model n).programs.foldl (fun s p => modRegions k p (fun r => { r with park := v }) s) s) s

/-- A start that fails, or is abandoned, ends in Off (R275, R485). -/
def startFails (n : Nat) (code : Word16) (s : State) : State :=
  setModelFn n .off ((releaseModel n (parkAll n false s)).modModel n fun m => { m with code := code, abandon := false })

/-- Steps 4 and 5 on every cluster of MODEL_CLUSTERS (R275); one that is not Ready loads again when it becomes so (R378). -/
def startLoad (n : Nat) (s : State) : State :=
  match steps (clustersOf (s.model n).clusters) (loadCluster n · true) s with
  | (0, s) =>
    let s := (parkAll n false s).modModel n fun m => { m with code := 0, gen := if m.gen = 0xFFFF then 1 else m.gen + 1 }
    setModelFn n .ready (raiseEvent 4 0x7304 (BitVec.ofNat 8 (n + 1)) (s.model n).gen.toNat s)
  | (code, s) => startFails n code s

/-- MODEL_START_END (R275). -/
def execModelStartEnd (n : Nat) (s : State) : Host.Outcome State Fault Refusal :=
  .next (
    let x := s.model n
    if !s.hubUp ∨ x.fn ≠ .starting then s
    else if x.abandon then startFails n x.code s
    else
      let (code, s) := if x.programs = [] then startPlan n s else (0, s)
      if code ≠ 0 then startFails n code s
      else if (s.model n).programs = [] then s
      else
        let s := parkAll n true s
        if s.owned n then s else startLoad n s)

/-! ### Instances (R274, R284, R378) -/

/-- The role a kind serves in. -/
def roleOf (kind : Nat) : Nat := if kind = kindGen then 2 else 1

/-- An instance serves: its clusters are Ready in its role, and its programs may be dispatched on every core. -/
def State.instServes (s : State) (m inst : Nat) : Bool :=
  let x := s.model m
  let h := s.modelHead m
  let cs := instClusters (mdlWidth h) inst
  (x.fn = .ready || x.fn = .draining) && cs.all fun c =>
    c < 16 && bit x.clusters c && s.clusterUp c && (s.cluster c).role = roleOf (mdlKind h) &&
    (List.range 16).all fun q => s.inService (16 * c + q) && x.programs.all fun p => (s.core (16 * c + q)).regionsOk p.1 p.2

/-- The instance the hub chooses: the lowest that serves (R370). -/
def State.instFor (s : State) (m kind : Nat) : Option Nat :=
  if mdlKind (s.modelHead m) = kind then (List.range 16).find? fun i => s.instServes m i else none

/-! ### What an instance computes (R3, R128, R183, R184) -/

/-- The cores of an instance, in order of position. -/
def instCores (w inst : Nat) : List Nat := (instClusters w inst).flatMap fun c => (List.range 16).map (16 * c + ·)

/-- The bytes an instance's outputs are a function of: the header's first words, its programs, and its weights. -/
def State.instBytes (s : State) (m inst : Nat) : Bytes :=
  let x := s.model m
  bytesOf (x.head.take 4) ++ (instCores (mdlWidth x.head) inst).flatMap fun k =>
    x.programs.flatMap (fun p => memRead (s.core k).imem (16384 * p.1) (16384 * p.2)) ++
      ((s.core k).read (2048 * x.base (clusterOf k)) (2048 * mdlShard x.head)).bytes

/-- The rows of an instance's weights that are poisoned. -/
def State.instPoison (s : State) (m inst : Nat) : List Bool :=
  let x := s.model m
  (instCores (mdlWidth x.head) inst).flatMap fun k =>
    (List.range (32 * mdlShard x.head)).map fun r => (s.core k).rowBad (32 * x.base (clusterOf k) + r)

/-- An input's outputs carry poison. -/
def State.spoils (s : State) (m inst : Nat) (input : Bytes) : Bool :=
  let p := s.instPoison m inst
  p.any id && Config.readsPoison (s.instBytes m inst) p input

/-- Bytes of U32 values, padded to lines. -/
def u32Lines (l : List Nat) : Bytes := linesPad (l.flatMap (leBytes 4))

/-- A sequence's command input (R277). The row, the adapter index and the committed entries say where a step holds it, on which no result
depends (R183, R287). -/
def inputOf (toks : List Nat) (query : Nat) (adapted : Bool) (dropped : Nat) : Bytes :=
  bytesOf [field 48 (toks.length % 2 ^ 16) ||| field 32 (query % 2 ^ 16) ||| field 7 adapted.toNat, field 0 dropped, 0, 0, 0, 0, 0, 0] ++
    u32Lines toks

/-! ### Prompts (R277) -/

/-- The tokens of a request in a vocabulary. -/
def Slot.tokSet (x : Slot) (v : Nat) : TokSet := (x.toks.find? fun t => t.vocab = v).getD ⟨v, [], []⟩

/-- The prompt of a request for a model: context, then query, the oldest context dropped; none when the query alone is too
long. With it, the context tokens dropped. -/
def promptOf (x : Slot) (h : Words) : Option (List Nat × Nat) :=
  let t := x.tokSet (mdlVocab h)
  let drop := t.ctx.length + t.query.length - mdlMaxIn h
  if mdlMaxIn h < t.query.length then none else some (t.ctx.drop drop ++ t.query, drop)

/-! ### The rewrite stage and opcode 04h (R281, R282, R286) -/

/-- The token limit of a sequence (R282). -/
def limitOf (d h : Words) : Nat := if dOpcode d = opGenerate then min (mdlMaxOut h) (dTokenBudget d) else mdlMaxOut h

/-- A sequence joins its instance's queue; where its drover keeps its page list is the drover's choice (R288). -/
def startSeq (n m inst : Nat) (s : State) : State :=
  let h := s.modelHead m
  match promptOf (s.slot n) h with
  | none => failSlot n 0x604 s
  | some (prompt, drop) =>
    let (pages, s) := s.fresh
    let input := inputOf prompt ((s.slot n).tokSet (mdlVocab h)).query.length false drop
    let q : Seq := { slot := n, model := m, inst := inst, prompt := prompt, input := input, limit := limitOf (s.slot n).desc h, eos := mdlEos h, pages := pages }
    { s with serving := { s.serving with seqs := s.serving.seqs ++ [q] } }.modSlot n fun x => { x with ctxDropped := drop }

/-- The output of opcode 04h with its detokenised text (R281). -/
def genOutput (q : Seq) (text : Bytes) (dropped : Nat) : Bytes :=
  let toks := u32Lines q.emitted
  let n := q.emitted.length
  bytesOf [field 48 0x62 ||| field 32 (n % 2 ^ 16) ||| field 24 (q.stop.getD 0), field 32 text.length ||| field 0 (64 + toks.length),
    field 32 q.prompt.length ||| field 0 dropped, field 32 q.steps ||| field 0 q.accepted, 0, 0, 0, 0] ++ toks ++ linesPad text

/-- A constraint dead end is counted (R159, R166). -/
def countDeadEnd (s : State) : State := { s with text := { s.text with deadEnds := s.text.deadEnds + 1 } }

/-- Generation has stopped: a text island detokenises, and the output is written (R159, R281). -/
def finishGenerate (n i : Nat) (q : Seq) (s : State) : State :=
  match runDetok i (mdlVocab (s.modelHead q.model)) q.emitted s with
  | (0, text, s) =>
    let x := s.slot n
    let out := genOutput q text x.ctxDropped
    let s := if q.stop = some 3 then (countDeadEnd s).modSlot n fun x => { x with deadEnd := true } else s
    let len := dOutputLen x.desc
    commitStage n 2 (writeBuffer n .output (dOutputBuf x.desc) len out q.emitted.length (if len < out.length then fbTruncated else 0) s)
  | (code, _, s) => failSlot n code s

/-- The rewritten query in the request's other vocabularies (R153). -/
def retokenise (n i vGen : Nat) (text : Bytes) (s : State) : Word16 × List TokSet × State :=
  ((s.slot n).toks).foldl (fun a t =>
    let (code, sets, s) := a
    if code ≠ 0 ∨ t.vocab = vGen then (code, sets ++ [t], s)
    else let (c, p, s) := runPass i t.vocab true text 0 s; (c, sets ++ [{ t with query := p.tokens }], s)) (0, [], s)

/-- The rewrite has stopped: a text island detokenises the query and the filter part (R153, R282). -/
def finishRewrite (n i : Nat) (q : Seq) (s : State) : State :=
  if q.stop = some 3 then failSlot n 0x501 (countDeadEnd s)
  else
    let x := s.slot n
    let h := s.modelHead q.model
    let v := mdlVocab h
    let isMark := fun t => decide (t = mdlFilter h ∧ mdlFilter h ≠ 0xFFFFFFFF)
    let query := q.emitted.takeWhile fun t => !isMark t
    let rest := (q.emitted.dropWhile fun t => !isMark t).drop 1
    let marked := q.emitted.any isMark
    match runDetok i v query s with
    | (0, text, s) => match runDetok i v rest s with
      | (0, expr, s) => match retokenise n i v text s with
        | (0, sets, s) =>
          commitStage n 2 (s.modSlot n fun y => { y with
            rewritten := some query
            rewriteFilter := if marked && dFilterEn x.desc then some expr else none
            toks := sets.map fun t => if t.vocab = v then { t with query := query } else t })
        | (code, _, s) => failSlot n code s
      | (code, _, s) => failSlot n code s
    | (code, _, s) => failSlot n code s

/-- The sequence of a slot's request. -/
def State.seqOf (s : State) (n : Nat) : Option Seq := s.serving.seqs.find? fun q => q.slot = n

/-- What ends the stage once its sequence has stopped. -/
def settleSeq (n : Nat) (s : State) : State :=
  match s.seqOf n with
  | none => s
  | some q =>
    if q.stop.isNone ∨ !s.atStage n sgRewrite ∨ (s.slot n).committed then s
    else match s.textFor with
      | some i => if dOpcode (s.slot n).desc = opGenerate then finishGenerate n i q s else finishRewrite n i q s
      | none => holdStage n s

/-- REWRITE (R282): the stage starts, or goes on where it waited. -/
def execRewriteStage (slot : Nat) (s : State) : Host.Outcome State Fault Refusal :=
  .next (if (s.seqOf slot).isSome then settleSeq slot s
  else
    let m := dGenSlot (s.slot slot).desc
    runStage slot sgRewrite (fun s => s.instFor m kindGen) (fun inst s => startSeq slot m inst s) s)

/-! ### Batches (R283, R370) -/

/-- Sequences in order of their requests' admission. -/
def bySlot (s : State) (qs : List Seq) : List Seq :=
  sortBy (fun a b => (s.slot a.slot).admitTime.toNat < (s.slot b.slot).admitTime.toNat ||
    ((s.slot a.slot).admitTime = (s.slot b.slot).admitTime && a.slot ≤ b.slot)) qs

/-- A batch: sequences in turn until one would exceed the rows; the first always forms a step. -/
def takeRows (rows : Seq → Nat) (max : Nat) : Nat → List Seq → List Seq
  | _, [] => []
  | used, q :: l => if used ≠ 0 ∧ max < used + rows q then [] else q :: takeRows rows max (used + rows q) l

/-- The batch of a step of an instance; a sequence whose own instance no longer serves moves to it (R295, R376). -/
def batchOf (s : State) (m inst : Nat) (p : Seq → Bool) (rows : Seq → Nat) : List Seq :=
  takeRows rows s.serving.stepMaxRows 0 (bySlot s (s.serving.seqs.filter fun q =>
    q.model = m && q.stop.isNone && p q && (q.inst = inst || !s.instServes m q.inst)))

/-- The sequence record of a slot replaced. -/
def putSeq (q : Seq) (s : State) : State :=
  { s with serving := { s.serving with seqs := s.serving.seqs.map fun x => if x.slot = q.slot then q else x } }

/-! ### Choosing tokens (R285, R287) -/

/-- The permissible token with the highest canonical logit, the lowest id among ties (R285). -/
def choose (logits : List Word32) (ok : Nat → Bool) (tokens : Nat) : Option Nat :=
  ((List.range tokens).filter ok).foldl (fun best t => match best with
    | none => some t
    | some b => if selLe (canon (logits.getD b 0), b) (canon (logits.getD t 0), t) then some b else some t) none

/-- Rows of one sequence after the tokens emitted: the tokens g_0 to g_m chosen, and whether row m found no permissible token (R287, R295).
`logits` gives a row's logits from the tokens ahead of it. -/
def acceptRows (fs bs : List CSeq) (tokens : Nat) (logits : List Nat → List Word32) : List Nat → List Nat → List (Nat × Nat) → List Nat × Bool
  | drafts, o, act =>
    match choose (logits o) (permits fs bs tokens o act) tokens with
    | none => ([], true)
    | some g =>
      match drafts with
      | a :: ds =>
        if a = g then
          let (gs, dead) := acceptRows fs bs tokens logits ds (o ++ [g]) (advanceMatch fs act g)
          (g :: gs, dead)
        else ([g], false)
      | [] => ([g], false)

/-- Chosen tokens emitted up to the first stop (R286): what is emitted, and the stop. -/
def emitAll (limit eos : Nat) : List Nat → List Nat → List Nat × Option Nat
  | o, [] => (o, none)
  | o, g :: l =>
    if g = eos then (o, some 1)
    else if limit ≤ o.length + 1 then (o ++ [g], some 2)
    else emitAll limit eos (o ++ [g]) l

/-- Drafts kept before a step: those ahead of the first that is impermissible (R287). -/
def keepDrafts (fs bs : List CSeq) (tokens : Nat) : List Nat → List Nat → List (Nat × Nat) → List Nat
  | [], _, _ => []
  | a :: l, o, act => if permits fs bs tokens o act a then a :: keepDrafts fs bs tokens l (o ++ [a]) (advanceMatch fs act a) else []

/-- A sequence after its rows: tokens emitted, entries committed, drafts for the next step. -/
def Seq.stepped (q : Seq) (fs : List CSeq) (chosen : List Nat) (dead : Bool) (drafts : List Nat) (commit : Nat) : Seq :=
  let (o, stop) := emitAll q.limit q.eos q.emitted chosen
  { q with
    prefilled := true, emitted := o, stop := if stop.isNone && dead then some 3 else stop
    active := (o.drop q.emitted.length).foldl (advanceMatch fs) q.active
    drafts := drafts, commit := commit, len := commit }

/-! ### KV pages (R288, R289) -/

/-- HBM pages of a KV page of one layer. -/
def kvHbm (h : Words) : Nat := 64 * mdlKvBytes h / 4096

/-- Free pages of a slot's pool. -/
def State.poolFree (s : State) (m : Nat) : List Nat :=
  let x := s.model m
  let used := s.serving.seqs.flatMap (·.pool)
  ((List.range x.kvPages.toNat).map fun i => x.kvBase.toNat / 4096 + i).filter fun pg =>
    localOk (4096 * pg) && !s.inIntake (4096 * pg) && (s.page pg).kind = .free && !s.copying pg && !used.contains pg

/-- HBM page i of a sequence's KV page j: page j / LAYERS of layer j mod LAYERS (R288). -/
def State.kvPage (s : State) (q : Seq) (j i : Nat) : Bytes :=
  let n := mdlLayers (s.modelHead q.model)
  let toks := (q.prompt ++ q.emitted).take (64 * (j / n + 1))
  (List.range 4096).map fun b => Config.kvByte (s.instBytes q.model q.inst) q.input toks (j % n) (4096 * i + b)

/-- A drover's publish move (R260): the page in two consecutive full slots of a core to a free page of this device. A page poisoned in any row
leaves its destination reserved, for a FREE to return. -/
def publishMove (k slot pg : Nat) (s : State) : Word16 × State :=
  let m := (s.core k).read (2048 * slot) 4096
  if !localOk (4096 * pg) ∨ s.inIntake (4096 * pg) then (0x315, s)
  else if !s.stackUp (stackOfPage pg) then (0x321, s)
  else if (s.page pg).kind ≠ .free then (0x310, s)
  else
    let s := reservePage pg (touchRows k (2048 * slot) 4096 s)
    if m.bad then (0x311, s.modPage pg fun p => { p with orphan := true })
    else (0, writePage pg false m.bytes s)

/-- The lowest two consecutive slots of a core that nothing holds. -/
def Core.freePair (c : Core) : Option Nat := (List.range 3071).find? fun i => c.slotW i = {} && c.slotW (i + 1) = {}

/-- One page leaves a sequence's allocation of two slots of a core by a publish move (R232, R245, R260, R288). -/
def sealOne (k slot tenant pg : Nat) (bs : Bytes) (s : State) : Word16 × State :=
  let s := s.modCore k (·.modSlots [slot, slot + 1] fun _ => { tenant := tenant, alloc := true, latch := true })
  let (code, s) := publishMove k slot pg (spadWrite k (2048 * slot) (bs.map fun b => (b, false)) s)
  (code, s.modCore k fun c => (c.modSlots [slot, slot + 1] fun _ => {}).eraseSlots slot 2)

/-- Pages holding only committed entries are sealed and published into the pool (R288, R289): the code of a seal that fails. They pass through
the lowest free pair of slots of the instance's first core; without one they wait for a later step (DESIGN CHOICE, log 29). -/
def sealPages (q : Seq) (s : State) : Word16 × Seq × State :=
  let h := s.modelHead q.model
  let goal := mdlLayers h * (q.commit / 64)
  let need := (goal - q.sealed) * kvHbm h
  let pages := (s.poolFree q.model).take need
  let k := (instCores (mdlWidth h) q.inst).headD 0
  if need = 0 then (0, q, s)
  else if pages.length < need then (0x605, q, s)
  else if pages.any fun pg => !s.stackUp (stackOfPage pg) then (0x321, q, s)
  else match (s.core k).freePair with
    | none => (0, q, s)
    | some slot =>
      let tenant := dTenant (s.slot q.slot).desc
      let (code, s') := (pages.zipIdx).foldl (fun (a : Word16 × State) (pg, i) =>
        if a.1 ≠ 0 then a else sealOne k slot tenant pg (s.kvPage q (q.sealed + i / kvHbm h) (i % kvHbm h)) a.2) (0, s)
      (code, { q with sealed := goal, pool := q.pool ++ pages }, s')

/-- What the next step's gather of a sequence's sealed pages meets (R289, R331). -/
def poolCode (s : State) (q : Seq) : Word16 :=
  if q.pool.any fun pg => !s.stackUp (stackOfPage pg) then 0x321
  else if q.pool.any fun pg => (peek s (4096 * pg) 4096).poison then 0x301 else 0

/-- A sequence's step is committed: its record, its seals, and the end of its stage when it has stopped. -/
def settleStep (q : Seq) (s : State) : State :=
  match sealPages q s with
  | (0, q, s) => settleSeq q.slot (putSeq q s)
  | (code, q, s) => failSlot q.slot code (putSeq q s)

/-! ### Steps (R283, R287) -/

/-- A step is counted (R297), and charged to every tenant present (R369). -/
def countStep (batch : List Seq) (s : State) : State :=
  let (a, s) := s.fresh
  let (sol, s) := s.fresh
  let tenants := dedupBy id (batch.map fun q => dTenant (s.slot q.slot).desc)
  let s := recordSlowdown tenants 2 a.toNat sol.toNat s
  { s with serving := { s.serving with steps := s.serving.steps + 1 } }

/-- The logits of a row of a sequence on an instance, from the tokens ahead of it (R279, R285). -/
def State.logitsOf (s : State) (inst : Nat) (q : Seq) (o : List Nat) : List Word32 :=
  (List.range (vocTokens (s.vocHead (mdlVocab (s.modelHead q.model))))).map (Config.logit (s.instBytes q.model inst) q.input o)

/-- The drafts that a row delivers (R279, R287). -/
def State.draftsOf (s : State) (inst : Nat) (q : Seq) (o : List Nat) : List Nat :=
  (List.range (mdlDraft (s.modelHead q.model))).map fun j => Config.draft (s.instBytes q.model inst) q.input o j % 2 ^ 32

/-- What the rows of a step chose for a sequence, and whether its last row found no permissible token. -/
def State.chosen (s : State) (inst : Nat) (q : Seq) : List Nat × Bool :=
  let m := s.model q.model
  acceptRows m.forced m.banned (vocTokens (s.vocHead (mdlVocab m.head))) (s.logitsOf inst q) q.drafts q.emitted q.active

/-- A sequence after its prefill: its first token, chosen from its last row (R287). -/
def prefillOne (inst : Nat) (q : Seq) (s : State) : State :=
  let fs := (s.model q.model).forced
  let q := { q with inst := inst, active := activeAtStart fs, drafts := [], emitted := [] }
  if s.spoils q.model inst q.input then failSlot q.slot 0x301 s
  else
    let (chosen, dead) := s.chosen inst q
    settleStep (q.stepped fs chosen dead (s.draftsOf inst q []) q.prompt.length) s

/-- PREFILL_STEP of a generator (R283). -/
def execPrefillStep (model inst : Nat) (s : State) : Host.Outcome State Fault Refusal :=
  .next (
    let batch := batchOf s model inst (fun q => !q.prefilled) fun q => q.prompt.length
    if s.hubUp && s.instServes model inst && batch ≠ [] then batch.foldl (fun s q => prefillOne inst q s) (countStep batch s)
    else s)

/-- One sequence of a generation step (R287): m + 1 tokens come of it, and row m delivers the next drafts. -/
def generateOne (inst : Nat) (q : Seq) (s : State) : State :=
  let code := poolCode s q
  if code ≠ 0 then failSlot q.slot code s
  else if s.spoils q.model inst q.input then failSlot q.slot 0x301 s
  else
    let (chosen, dead) := s.chosen inst q
    let m := if dead then chosen.length else chosen.length - 1
    let drafts := s.draftsOf inst q (q.emitted ++ chosen.take m)
    let s := touch (q.pool.map fun pg => (4096 * pg, 4096)) { s with serving := { s.serving with
      draftsProposed := s.serving.draftsProposed + BitVec.ofNat 64 q.drafts.length
      draftsAccepted := s.serving.draftsAccepted + BitVec.ofNat 64 m } }
    let q' := ({ q with inst := inst } : Seq).stepped (s.model q.model).forced chosen dead drafts (q.commit + m + 1)
    settleStep { q' with steps := q.steps + 1, accepted := q.accepted + m } s

/-- The batch of a generation step, each sequence with the drafts it runs. -/
def genBatch (s : State) (model inst : Nat) : List Seq :=
  let m := s.model model
  let keep := fun (q : Seq) => { q with drafts := keepDrafts m.forced m.banned (vocTokens (s.vocHead (mdlVocab m.head))) q.drafts q.emitted q.active }
  (batchOf s model inst (fun q => q.prefilled) fun q => 1 + (keep q).drafts.length).map keep

/-- GENERATION_STEP (R287): one row for each sequence's last token and one for each draft. -/
def execGenerationStep (model inst : Nat) (s : State) : Host.Outcome State Fault Refusal :=
  .next (
    let batch := genBatch s model inst
    if s.hubUp && s.instServes model inst && batch ≠ [] then batch.foldl (fun s q => generateOne inst q s) (countStep batch s)
    else s)

/-! ### The embed stage (R91, R277, R280) -/

/-- An encoder's outputs for an input: the three vectors in order (R279). -/
def State.encoded (s : State) (m inst : Nat) (input : Bytes) : EmbedOut :=
  let h := s.modelHead m
  let out := Config.encoderOut (s.instBytes m inst) input
  ⟨(List.range (mdlOutA h)).map out, (List.range (mdlOutB h)).map fun j => out (mdlOutA h + j),
   (List.range (mdlOutC h)).map fun j => out (mdlOutA h + mdlOutB h + j)⟩

/-- The sketch of R92: bit j says that element j is above +0.0. -/
def sketchBytes (l : List Word32) : Bytes :=
  (chunks 8 (l.length / 8 + 1) l).map fun g => BitVec.ofNat 8 (packBits (fun i => fcmpLt 0 (g.getD i 0)) 8)

def f32Lines (l : List Word32) : Bytes := u32Lines (l.map (·.toNat))

/-- The output of opcode 03h (R280). -/
def embedOutput (h : Words) (gen : Word16) (o : EmbedOut) (tokens dropped : Nat) : Bytes :=
  let a := f32Lines o.corpus
  let b := f32Lines o.pen
  bytesOf [field 48 0x63 ||| field 32 (mdlOutA h) ||| field 16 (mdlOutB h) ||| field 0 (mdlOutC h), field 32 tokens ||| field 0 dropped,
    field 32 (64 + a.length) ||| field 0 (64 + a.length + b.length), field 48 gen.toNat, 0, 0, 0, 0] ++ a ++ b ++ linesPad (sketchBytes o.sketch)

/-- The encoder's outputs are delivered (R91, R280). -/
def takeEmbed (n : Nat) (o : EmbedOut) (tokens dropped : Nat) (s : State) : State :=
  let x := s.slot n
  let m := dEncSlot x.desc
  let gen := (x.gens.find? fun g => g.1 = m).elim 0 Prod.snd
  let s := { s with serving := { s.serving with steps := s.serving.steps + 1 } }.modSlot n fun x => { x with embed := some o }
  let len := dOutputLen x.desc
  let bytes := embedOutput (s.modelHead m) gen o tokens dropped
  let s := if dOpcode x.desc = opEmbed then
      writeBuffer n .output (dOutputBuf x.desc) len bytes 1 (if len < bytes.length then fbTruncated else 0) s
    else s
  commitStage n 1 s

/-- The embed stage on an instance (R91, R277): 0604h, 0301h, or the encoder's outputs. -/
def runEmbed (n inst : Nat) (s : State) : State :=
  let x := s.slot n
  let m := dEncSlot x.desc
  let h := s.modelHead m
  match promptOf x h with
  | none => failSlot n 0x604 s
  | some (prompt, drop) =>
    let input := inputOf prompt (x.tokSet (mdlVocab h)).query.length false drop
    if s.spoils m inst input then failSlot n 0x301 s else takeEmbed n (s.encoded m inst input) prompt.length drop s

/-- EMBED (R91). -/
def execEmbedStage (slot : Nat) (s : State) : Host.Outcome State Fault Refusal :=
  .next (runStage slot sgEmbed (fun s => s.instFor (dEncSlot (s.slot slot).desc) kindEncoder) (fun i s => runEmbed slot i s) s)

/-! ### Cluster roles (R284) -/

/-- A cluster's role changes: at once when it runs nothing, and otherwise through a drain (R284, R376). -/
def changeRole (c role : Nat) (s : State) : State :=
  let x := s.cluster c
  if x.role = role ∨ (x.role = 3 ∧ x.target = role) then s
  else if x.fn = .ready then
    setClusterFn c .draining ((holdCluster c s).modCluster c fun x => { x with role := 3, target := role })
  else if x.role = 3 then s.modCluster c fun x => { x with target := role }
  else { s with serving := { s.serving with roleChanges := s.serving.roleChanges + 1 } }.modCluster c fun x => { x with role := role, target := role }

/-- The role a cluster has or is changing to. -/
def Cluster.aim (c : Cluster) : Nat := if c.role = 3 then c.target else c.role

/-- The nearest multiple of `unit`; which one when two are as near is open. -/
def roundTo (num den unit : Nat) (up : Bool) : Nat :=
  let lo := num / (den * unit)
  let rest := 2 * (num - lo * den * unit)
  if rest < den * unit then lo * unit else if rest = den * unit && !up then lo * unit else (lo + 1) * unit

/-- The controller's move (R284). -/
def controlRoles (wp wg : Nat) (s : State) : State :=
  let e := (List.range 16).filter fun c => (s.cluster c).pin = 0
  let g := (e.filter fun c => (s.cluster c).aim = 2).length
  let v := s.serving
  let (tie, s) := s.fresh
  let want := max v.genMin (min v.genMax (roundTo (e.length * wg) (wp + wg) v.ratioUnit (bit tie 0)))
  let diff := if g ≤ want then want - g else g - want
  if wp + wg = 0 ∨ diff < v.ratioHyst then s
  else
    let g' := if g < want then g + v.ratioUnit else g - v.ratioUnit
    (e.zipIdx).foldl (fun s (c, i) => changeRole c (if e.length ≤ i + g' then 2 else 1) s) s

/-- The sum of LC.BUSY over the program in a region of a core. -/
def Core.busyOf (c : Core) (region : Nat) : Nat :=
  (List.range (phConfigs (c.place region 0))).foldl (fun a i => a + cfBusy (c.place region (i + 1))) 0

/-- The sum of LC.BUSY over program i of a model slot, on every core of an instance. -/
def State.modelBusy (s : State) (m i : Nat) : Nat :=
  let x := s.model m
  match x.programs[i]?, coresOf x.clusters with
  | some p, k :: _ => 16 * mdlWidth x.head * (s.core k).busyOf p.1
  | _, _ => 0

/-- The queued work in c-cycles of prefill and of generation commands (R284): commands on the clusters' queues, stages that wait in the hub for
an encoder or a cross-encoder, and generators' sequences, each as the command that its next step makes of it (log 17). -/
def State.queuedWork (s : State) : Nat × Nat :=
  let cmds := s.clusters.flatMap fun e => e.2.waiting.map fun w => (w.cmd.cmdClass, (s.core (16 * e.1)).busyOf w.cmd.region)
  let held := (s.slots.filter fun e => e.2.heldSince.isSome).map fun e =>
    if s.atStage e.1 sgEmbed then s.modelBusy (dEncSlot e.2.desc) 0
    else if s.atStage e.1 sgCross then s.modelBusy (dCrossSlot e.2.desc) 0 else 0
  let seqs := (s.serving.seqs.filter fun q => q.stop.isNone).map fun q => s.modelBusy q.model (if q.prefilled then 1 else 0)
  ((cmds.filter fun c => c.1 ≠ 2).foldl (fun a c => a + c.2) 0 + held.foldl (· + ·) 0,
   (cmds.filter fun c => c.1 = 2).foldl (fun a c => a + c.2) 0 + seqs.foldl (· + ·) 0)

/-- RATIO_CONTROL (R284). -/
def execRatioControl (s : State) : Host.Outcome State Fault Refusal :=
  .next (if s.hubUp && 1000 * s.serving.ratioPeriod.toNat ≤ (s.time - s.serving.ratioAt).toNat then
    let w := s.queuedWork
    controlRoles w.1 w.2 { s with serving := { s.serving with ratioAt := s.time } }
  else s)

end Sys2Proof.Machine
end

