-- ==== Sys2Proof/Machine/RankOps.lean ====
section
/-! DEFINITION. Scores and their order (R115 to R120, R125, R134), inner products of stored vectors (R93, R125) and the merge of
partial lists (R109, R120). -/

namespace Sys2Proof.Machine

/-! ### Vectors -/

/-- The elements of a stored vector as FP32 values (R125, R174). -/
def vecF32 (code d : Nat) (bs : Bytes) : List Word32 := (vecNums code d bs).map widen

/-- The exact score of a stored vector: canonical, and whether it was NaN (R115, R125). -/
def exactScore (q : List Word32) (code : Nat) (bs : Bytes) : Word32 × Bool :=
  let x := dotF q (vecF32 code q.length bs)
  (canon x, isNan x)

/-- A stored vector as the array takes it: unscaled elements, and the exponent of each block's scale (R180). -/
def arrayParts (code d : Nat) (bs : Bytes) : List Num × List (Option Int) :=
  match formatOf code with
  | some (f, mx) =>
    let n := leNat bs
    let off := ceilDiv (32 * ceilDiv d 32 * f.width) 8
    ((List.range d).map fun j => f.num (elemAt n f.width j),
     if mx then (List.range (ceilDiv d 32)).map fun i =>
        let x := (bs.getD (off + i) 0).toNat
        if x = 255 then none else some (mxExp f x)
      else [])
  | none => ([], [])

/-- An FP32 vector narrowed to a format with SAT, as it would be stored (R93, R172, R175, R176). -/
def narrowVec (code : Nat) (q : List Word32) : Bytes :=
  match formatOf code with
  | some (f, false) => leBytes (ceilDiv (q.length * f.width) 8) (packElems f.width (q.map fun x => narrow f true (numOf x)))
  | some (f, true) =>
    let blocks := (chunks 32 (q.length / 32 + 1) q).map fun b => narrowBlock f true (b.map numOf)
    let codes := blocks.flatMap fun b => b.2 ++ List.replicate (32 - b.2.length) 0
    leBytes (ceilDiv (codes.length * f.width) 8) (packElems f.width codes) ++ blocks.map fun b => BitVec.ofNat 8 b.1
  | none => []

/-- The array's inner product of two stored vectors of one format (R93, R177 to R182). -/
def arrayDot (code d : Nat) (x w : Bytes) : Word32 :=
  match domainOf code code with
  | some dom =>
    let (xs, ex) := arrayParts code d x
    let (ws, ew) := arrayParts code d w
    (accumulate dom {} xs ws ex ew).out
  | none => 0

/-! ### Order (R11, R115, R116) -/

/-- Descending canonical score, ties by ascending id (R116). -/
def scoreLe (a b : Word32 × Nat) : Bool := selLe a b

/-- The h best of a list by score and id (R116, R119). -/
def topBy {α : Type} (key : α → Word32 × Nat) (h : Nat) (l : List α) : List α :=
  (sortBy (fun a b => scoreLe (key a) (key b)) l).take h

/-! ### Mass (R134) -/

/-- One term of a mass sum. -/
def massTerm (m x : Word32) : Word32 :=
  if m = negInf then 0
  else if m = posInf then (if x = posInf then oneF else 0)
  else if x = negInf then 0
  else special .exp (fsub x m)

/-- A mass sum over scores in selection order. -/
def massSum (m : Word32) (xs : List Word32) : Word32 := xs.foldl (fun a x => fadd a (massTerm m x)) 0

/-! ### Partial lists (R109, R121) -/

/-- The merge key of a sweep entry: distance, id, owner, record (R121). -/
def sweepLe (a b : SweepEntry) : Bool :=
  a.dist < b.dist || (a.dist = b.dist && (a.id.toNat < b.id.toNat || (a.id = b.id &&
    (a.owner < b.owner || (a.owner = b.owner && a.recLo ≤ b.recLo)))))

/-- The hall address of the record of a sweep entry (R124). -/
def SweepEntry.addr (e : SweepEntry) : Nat := e.owner * 2 ^ 50 + e.recLo * 32

/-- Two 16-byte words of a sweep reply entry (R109). -/
def SweepEntry.words (e : SweepEntry) : Words := [e.id, field 48 (e.dist % 2 ^ 16) ||| field 0 (e.recLo % 2 ^ 45)]
def sweepEntryOf (owner : Nat) (a b : Word64) : SweepEntry := ⟨a, bits b 63 48, bits b 44 0, owner⟩

end Sys2Proof.Machine
end

