-- ==== Sys2Proof/Machine/Scan.lean ====
section
/-! DEFINITION. Sketch scans and flocks (R91 to R112): the scan stage, sweep and pen requests on their owners, flocks and sweeps,
replies, retries and pen epoch records. -/

namespace Sys2Proof.Machine

def modScan (f : Scan → Scan) (s : State) : State := { s with scan := f s.scan }

/-! ### Scan requests (R94, R95) -/

def srTclass (b : Words) : Nat := bits (word b 0) 51 49
def srTenant (b : Words) : Nat := bits (word b 0) 47 36
def srCorpus (b : Words) : Nat := bits (word b 1) 47 32
def srEpoch (b : Words) : Nat := bits (word b 1) 31 0
def srDepth (b : Words) : Nat := bits (word b 2) 63 51
def srLists (b : Words) : Nat := bits (word b 2) 27 16
def srQlen (b : Words) : Nat := bits (word b 2) 15 0
def srRemain (b : Words) : Word32 := BitVec.ofNat 32 (bits (word b 3) 63 32)
def srAttempt (b : Words) : Nat := bits (word b 3) 2 0
def srPenRef (b : Words) : Nat := (word b 4).toNat

/-- Nanoseconds left to a request's deadline, FFFF_FFFFh for none. -/
def State.remain (s : State) (n : Nat) : Nat :=
  let d := (s.slot n).deadline
  if d = BitVec.allOnes 64 then 0xFFFFFFFF else min 0xFFFFFFFE (d.toNat - s.time.toNat)

/-- The header of a scan request of a slot. -/
def scanHead (s : State) (n : Nat) (pen : Bool) (epoch depth lists qlen attempt : Nat) : Words :=
  let d := (s.slot n).desc
  [field 56 (if pen then 2 else 1) ||| field 52 1 ||| field 49 (dTclass d) ||| field 36 (dTenant d) ||| field 0 (s.handle n).toNat,
   field 50 (s.deviceId % 2 ^ 14) ||| field 32 (if pen then 0 else dCorpus d) ||| field 0 epoch,
   field 51 depth ||| field 16 lists ||| field 0 (qlen % 2 ^ 16),
   field 32 (s.remain n) ||| field 0 attempt,
   if pen then field 0 (dPenRef d) else 0, 0, 0, 0]

/-- Bytes as whole lines of words. -/
def lineWords (bs : Bytes) : Words := wordsOf (8 * ceilDiv bs.length 64) (linesPad bs)

/-- A scan request is sent, in the request's class, and its reply awaited (R94, R110); without a route the request fails (R328). -/
def sendScan (n dev : Nat) (pen : Bool) (body : Words) (s : State) : State :=
  let d := (s.slot n).desc
  let (ok, s) := sendMsg dev body false (dTclass d) (dTenant d) false idHub s
  if ok then s.modSlot n fun x => { x with awaited := x.awaited ++ [⟨pen, dev, srAttempt body, s.time, false, body⟩] }
  else failSlot n 0x403 s

/-! ### Probe selection (R93) -/

/-- The P lists with the highest probe scores, in that order, and how many scores were NaN (R93, R115). -/
def probesOf (s : State) (c : Words) (d : Words) (q : List Word32) : List Nat × Nat :=
  let p := if dProbes d = 0 then corpProbes c else dProbes d
  let fmt := corpFormat c
  let size := vecBytes fmt (corpDim c)
  let x := narrowVec fmt q
  let scores := (List.range (corpLists c)).map fun l => (l, arrayDot fmt (corpDim c) x (peek s (corpCentroids c + size * l) size).data)
  ((topBy (fun e => (canon e.2, e.1)) p scores).map Prod.fst, (scores.filter fun e => isNan e.2).length)

/-- Scores that were NaN are counted as they are replaced (R115, R142). -/
def countNans (k : Nat) (s : State) : State := s.modHub fun h => { h with nanScores := h.nanScores + BitVec.ofNat 64 k }

/-- DIR.HEAD of a list in a directory version (R70). -/
def dirHead (s : State) (v l : Nat) : Nat := (peekWord s (v + 4096 + 8 * l)).toNat

/-- One sweep request for each owner of the lists (R94). DESIGN CHOICE (log 11): its list entries stand in descending order of probe score;
R95 gives no order. -/
def sendSweeps (n : Nat) (v : Nat) (lists : List Nat) (sketch : Bytes) (s : State) : State :=
  let x := s.slot n
  let heads := lists.map fun l => (l, dirHead s v l)
  (devicesOf (heads.map fun h => deviceOf h.2)).foldl (fun s dev =>
    let own := heads.filter fun h => deviceOf h.2 = dev
    let body := scanHead s n false x.corpusEpoch.toNat (dShortlist x.desc) own.length (8 * sketch.length) 0 ++
      own.flatMap (fun h => [field 32 h.1, BitVec.ofNat 64 h.2]) ++ lineWords sketch
    if liveState (s.slot n).status then sendScan n dev false body s else s) s

/-- The code of a range of this device's memory that the stage consumes. -/
def rangeCode (s : State) (off n : Nat) : Word16 :=
  let r := peek s off n
  if r.code ≠ 0 then r.code else if r.poison then 0x301 else 0

/-- The shared part of the scan stage: checks, probe selection and sweep requests (R91, R93, R94). -/
def scanShared (n : Nat) (o : EmbedOut) (s : State) : State :=
  let x := s.slot n
  match s.corpusSlot (dCorpus x.desc) with
  | none => failSlot n 0x123 s
  | some k =>
    let off := (s.corpus k).desc.toNat
    let c := s.corpDesc k
    let code := rangeCode s off 64
    if code ≠ 0 then failSlot n code s
    else if o.corpus.length ≠ corpDim c ∨ o.sketch.length ≠ corpSketchBits c then failSlot n 0x120 s
    else if !corpOk c ∨ !localOk (corpDirHead c) then failSlot n 0x123 s
    else
      let c1 := rangeCode s (corpDirHead c) 8
      let w := walk s (peekWord s (corpDirHead c)).toNat x.corpusEpoch.toNat
      let c2 := (w.read.map fun v => rangeCode s v 16).find? (· ≠ 0)
      if c1 ≠ 0 then failSlot n c1 s
      else match c2, w.broken, w.version with
        | some code, _, _ => failSlot n code s
        | none, true, _ => failSlot n 0x123 s
        | none, false, none => s
        | none, false, some v =>
          let cents := (corpCentroids c, corpLists c * vecBytes (corpFormat c) (corpDim c))
          let dir := (v, 4096 + 8 * corpLists c)
          let c3 := rangeCode s cents.1 cents.2
          let c4 := rangeCode s dir.1 dir.2
          if bits (word (recW s v 1) 0) 63 48 ≠ 3 then failSlot n 0x123 s
          else if c3 ≠ 0 then failSlot n c3 s
          else if c4 ≠ 0 then failSlot n c4 s
          else
            let (lists, nans) := probesOf s c x.desc o.corpus
            let s := countNans nans (touch [(off, 64), (corpDirHead c, 8), cents, dir] s)
            sendSweeps n v lists (sketchBytes o.sketch) (s.modSlot n fun x => { x with probes := lists })

/-- The pen part: one pen request, at the epoch fixed at admission, or 0 to take it on arrival (R47, R94). -/
def scanPen (n : Nat) (o : EmbedOut) (s : State) : State :=
  let d := (s.slot n).desc
  let body := scanHead s n true (s.slot n).penEpoch.toNat (dPenK d) 0 o.pen.length 0 ++
    lineWords (o.pen.flatMap fun w => leBytes 4 w.toNat)
  sendScan n (deviceOf (dPenRef d)) true body s

/-- The scan stage commits when every reply awaited has been accepted (R51, R111). -/
def settleScan (n : Nat) (s : State) : State :=
  let x := s.slot n
  if s.atStage n sgScan && !x.committed && x.awaited.all (·.answered) then commitStage n 0 s else s

/-- SCAN (R93, R94). -/
def execScanStage (slot : Nat) (s : State) : Host.Outcome State Fault Refusal :=
  .next (if !s.startsStage slot sgScan then s
  else
    let d := (s.slot slot).desc
    runStage slot sgScan (fun s => if dSharedEn d then s.clusterFor 0 (fun c => (s.cluster c).role = 1) else some 0) (fun _ s =>
      let o := ((s.slot slot).embed).getD ⟨[], [], []⟩
      let s := if dSharedEn d then scanShared slot o s else s
      let s := if dPenEn d && liveState (s.slot slot).status then scanPen slot o s else s
      settleScan slot s) s)

/-! ### Replies (R109) -/

/-- A scan reply goes back to the entry device. -/
def sendReply (req : Words) (kind : Nat) (epoch : Nat) (count lists : Nat) (code : Word16) (visible flags : Nat) (entries : Words)
    (s : State) : State :=
  let body := [msgW0 kind 0 (msgHandle req), field 50 (s.deviceId % 2 ^ 14) ||| field 32 (srAttempt req) ||| field 0 epoch,
    field 51 count ||| field 16 lists ||| field 0 code.toNat, field 0 visible, field 56 flags, 0, 0, 0] ++ entries
  (sendMsg (msgDevice req) body true (srTclass req) (srTenant req) false idHub s).2

/-- What an owner keeps of a request, as the header it answers. -/
def OwnerReq.head (r : OwnerReq) : Words :=
  [field 49 r.tclass ||| field 36 r.tenant ||| field 0 r.handle.toNat, field 50 (r.entry % 2 ^ 14), 0, field 0 r.attempt]

/-- A sweep request ends with a code: none of its lists is swept, and the reply carries the code (R96, R105). -/
def failSweep (num : Nat) (code : Word16) (s : State) : State :=
  match s.scan.reqs.find? fun r => r.num = num with
  | none => s
  | some r => sendReply r.head 0x81 r.epoch.toNat 0 r.lists code 0 0 [] (dropScanReqs (fun q => q.num = num) s)

/-- A request whose lists are all resolved is answered: the h smallest keys over them (R109). One that has lost a list is not (R112). -/
def settleSweep (num : Nat) (s : State) : State :=
  match s.scan.reqs.find? fun r => r.num = num with
  | none => s
  | some r =>
    if r.open_ ≠ 0 then s
    else
      let l := (sortBy sweepLe r.results).take r.h
      let flags := (if r.tie then 128 else 0) + (if r.noRoot then 64 else 0)
      let s := dropScanReqs (fun q => q.num = num) s
      if r.lost then s
      else sendReply r.head 0x81 r.epoch.toNat l.length r.lists 0 r.visible.toNat flags (l.flatMap SweepEntry.words) s

/-! ### Sweep requests on their owner (R96, R97) -/

/-- Step 3 of R96 for one list: its code, and the root selected, if the list has one at the epoch. DESIGN CHOICE (log 12): a DIR.HEAD that
is not 8-byte aligned fails it too. -/
def listRoot (s : State) (b c : Words) (list head : Nat) : Word16 × Option Nat :=
  let off := head % 2 ^ 50
  if deviceOf head ≠ s.deviceId ∨ !localOk off ∨ off % 8 ≠ 0 then (0x123, none)
  else
    let c1 := rangeCode s off 8
    let w := walk s (peekWord s off).toNat (srEpoch b)
    if c1 ≠ 0 then (c1, none)
    else match (w.read.map fun v => rangeCode s v 4096).find? (· ≠ 0), w.broken, w.version with
      | some code, _, _ => (code, none)
      | none, true, _ => (0x123, none)
      | none, false, none => (0, none)
      | none, false, some v =>
        let r := recW s v 8
        if verType r ≠ 1 ∨ rootList r ≠ list ∨ rootCorpus r ≠ srCorpus b ∨ !((segsOf s v).all fun g => segOk g (corpSketchBits c / 8)) then
          (0x123, none)
        else (0, some v)

/-- The lists of a sweep request: number and DIR.HEAD. -/
def srEntries (b : Words) : List (Nat × Nat) :=
  (List.range (srLists b)).map fun i => (bits (word b (8 + 2 * i)) 63 32, (word b (9 + 2 * i)).toNat)

/-- The checks of R96 in their order: the first code, and the roots. DESIGN CHOICE (log 12): the owner's corpus descriptor (R69) is checked
between steps 2 and 3. -/
def sweepCheck (s : State) (b : Words) : Word16 × List (Nat × Option Nat) :=
  match s.corpusSlot (srCorpus b) with
  | none => (0x121, [])
  | some k =>
    let c := s.corpDesc k
    let cc := rangeCode s (s.corpus k).desc.toNat 64
    if srEpoch b < (s.corpus k).floor.toNat then (0x312, [])
    else if cc ≠ 0 then (cc, [])
    else if !corpOk c then (0x123, [])
    else (srEntries b).foldl (fun a l =>
      if a.1 ≠ 0 then a
      else
        let (code, root) := listRoot s b c l.1 l.2
        (if code ≠ 0 then code else if srQlen b ≠ corpSketchBits c then 0x120 else 0, a.2 ++ [(l.1, root)])) (0, [])

/-- A member enters the flocks of its root's island: it joins the open flock of its root, opens one behind the members that wait for a
record, or waits with them (R97, R98). -/
def addMember (root : Nat) (m : Member) (s : State) : State :=
  let i := stackOf root
  let max := s.scan.maxMembers
  let t := s.stack i
  if canJoin max root m t.flocks || (t.waiting = [] && tableRoom max root m t.flocks) then
    s.modStack i fun t => t.withFlocks max (joinFlock max root m t.flocks)
  else
    modScan (fun x => { x with tableFull := x.tableFull + 1 }) (s.modStack i fun t =>
      { t with waiting := t.waiting ++ [(root, m)] }.withFlocks max (fillFlocks max root m t.flocks))

/-- A sweep request that passes its checks is served. -/
def startSweeps (b : Words) (roots : List (Nat × Option Nat)) (s : State) : State :=
  let num := s.scan.nextReq
  let sketch := (bytesOf (b.drop (8 + 2 * srLists b))).take (srQlen b / 8)
  let found := roots.filterMap fun r => r.2.map fun v => (r.1, v)
  let req : OwnerReq :=
    { num := num, entry := msgDevice b, handle := msgHandle b, attempt := srAttempt b, tclass := srTclass b, tenant := srTenant b
      corpus := srCorpus b, epoch := BitVec.ofNat 32 (srEpoch b), h := srDepth b, lists := srLists b, open_ := found.length
      results := [], visible := 0, tie := false, noRoot := found.length ≠ roots.length, lost := false }
  let s := modScan (fun x => { x with nextReq := x.nextReq + 1, reqs := x.reqs ++ [req] }) s
  settleSweep num (found.foldl (fun s r =>
    addMember r.2 ⟨num, r.1, srDepth b, sketch, s.time, srRemain b⟩ s) s)

/-- SWEEP_REQUEST (R96). -/
def execSweepRequest (body : Words) (s : State) : Host.Outcome State Fault Refusal :=
  .next (if !s.hubUp ∨ msgKind body ≠ 1 then s
  else
    let s := takeLoop body s
    if s.killed (msgDevice body) (msgHandle body) then s
    else
      let (code, roots) := sweepCheck s body
      if code = 0 then startSweeps body roots s
      else
        let s := if code = 0x312 then { s with publish := { s.publish with floorFails := s.publish.floorFails + 1 } } else s
        sendReply body 0x81 (srEpoch body) 0 (srLists body) code 0 0 [] s)

/-! ### Flocks (R99, R100) -/

def Flock.isDue (f : Flock) : Bool := decide (f.state = .due)
def Flock.onEngine (f : Flock) (e : Nat) : Bool := decide (f.state = .sweeping e)
/-- The arrival of the oldest member, and its list. -/
def Flock.oldest (f : Flock) : Nat × Nat :=
  f.members.foldl (fun a m => if m.arrival.toNat < a.1 then (m.arrival.toNat, m.list) else a) (2 ^ 64, 0)
/-- The lowest-numbered idle engine of an island (R99). -/
def Stack.idleEngine (t : Stack) : Option Nat := (List.range 4).find? fun e => !t.flocks.any (·.onEngine e)

/-- A member's time left to its deadline is below FLOCK_URGENT_NS (R99). -/
def urgentMember (s : State) (m : Member) : Bool :=
  m.remain.toNat ≠ 0xFFFFFFFF && m.remain.toNat < (s.time - m.arrival).toNat + s.scan.urgentNs.toNat

/-- An open flock becomes due (R99, events 1 to 4). -/
def flockDueNow (s : State) (t : Stack) (f : Flock) : Bool :=
  f.opened && (s.scan.maxMembers ≤ f.members.length || f.members.any (urgentMember s) ||
    s.scan.waitNs.toNat ≤ s.time.toNat - f.oldest.1 ||
    (s.scan.eager && t.idleEngine.isSome && t.flocks.all fun g => !g.isDue))

/-- FLOCK_DUE (R99). -/
def execFlockDue (island key : Nat) (s : State) : Host.Outcome State Fault Refusal :=
  .next (if s.stackUp island then s.modStack island fun t =>
    t.withFlocks s.scan.maxMembers (t.flocks.map fun f => if f.key = key && flockDueNow s t f then { f with state := .due } else f)
  else s)

/-- The due flock that starts next: the one of the oldest member, ties by the lower list (R99). -/
def Stack.nextDue (t : Stack) : Option Flock :=
  (sortBy (fun a b => a.oldest.1 < b.oldest.1 || (a.oldest.1 = b.oldest.1 && a.oldest.2 ≤ b.oldest.2)) (t.flocks.filter (·.isDue))).head?

/-- SWEEP_START (R99). -/
def execSweepStart (island key : Nat) (s : State) : Host.Outcome State Fault Refusal :=
  .next (
    let t := s.stack island
    match t.idleEngine, t.nextDue with
    | some e, some f =>
      if s.stackUp island && f.key = key then s.modStack island fun t =>
        { t with flocks := t.flocks.map fun g => if g = f then { g with state := .sweeping e } else g }
      else s
    | _, _ => s)

/-! ### The sweep (R101 to R107) -/

/-- The number of 1 bits of two sketches' difference. -/
def hamming (a b : Bytes) : Nat :=
  (a.zip b).foldl (fun n p => n + ((List.range 8).filter fun i => bit (p.1 ^^^ p.2) i).length) 0

/-- A visible entry of a sweep: its segment and index, and its sketch. -/
structure Swept where
  seg    : Seg
  index  : Nat
  sketch : Bytes
  deriving DecidableEq, Repr

/-- The visible entries of a root (R78, R101). -/
def sweptOf (s : State) (root size : Nat) : List Swept :=
  (segsOf s root).flatMap fun g => (visibleIn s g).map fun i => ⟨g, i, (peek s (g.data + size * i) size).data⟩

/-- The sketch and bitmap ranges of a root. -/
def sweepRanges (s : State) (root size : Nat) : List (Nat × Nat) :=
  (segsOf s root).flatMap fun g => (g.data, g.count * size) :: if g.tomb = 0 then [] else [(g.tomb, tombBytes g)]

/-- What an engine keeps of a member while it sweeps (R102): the h smallest distances counted, which fix the cut; the candidate store; and the
mark of an overflow at the cut. -/
structure Store where
  counted : List Nat
  held    : List (Nat × Swept)
  ovfl    : Bool
  deriving DecidableEq, Repr

/-- The cut: the smallest distance at or below which h entries are counted, and SKETCH_BITS while fewer are. -/
def Store.cut (h size : Nat) (t : Store) : Nat := if t.counted.length < h then 8 * size else t.counted.getLastD 0

/-- An entry at distance d is counted, the store cut down, and the entry stored, or refused as a tie for which there is no place (R102). -/
def Store.offer (h size : Nat) (t : Store) (e : Nat × Swept) : Store :=
  let counted := (insertBy (fun a b => a ≤ b) e.1 t.counted).take h
  let t' : Store := ⟨counted, t.held, t.ovfl⟩
  let c := t'.cut h size
  let held := t.held.filter fun x => x.1 ≤ c
  let ovfl := t.ovfl && c == t.cut h size
  if c < e.1 then ⟨counted, held, ovfl⟩
  else if e.1 = c ∧ 2 * h ≤ held.length then ⟨counted, held, true⟩
  else ⟨counted, held ++ [e], ovfl⟩

/-- What one member gets: its stored entries, the ties at its cut when a tie pass ran for it, and its result. -/
structure MemberOut where
  held : List Swept
  ties : List Swept
  tie  : Bool
  best : List SweepEntry
  deriving DecidableEq, Repr

/-- The local offset of a swept entry's record (R72). -/
def Swept.record (e : Swept) : Nat := e.seg.entry + 32 * e.index

/-- A swept entry as it stands in a member's result (R102, R109). -/
def Swept.entry (s : State) (m : Member) (e : Swept) : SweepEntry :=
  ⟨word (recW s e.record 4) 0, hamming m.sketch e.sketch, e.record % 2 ^ 50 / 32, s.deviceId⟩

/-- A member's result over the visible entries, swept in order (R102, R103): the first h of the store, or of what lies below the cut and of
the ties that a tie pass finds. -/
def memberOut (s : State) (es : List Swept) (m : Member) : MemberOut :=
  let size := m.sketch.length
  let ds := es.map fun e => (hamming m.sketch e.sketch, e)
  let t := ds.foldl (Store.offer m.h size) ⟨[], [], false⟩
  let c := t.cut m.h size
  let ties := if t.ovfl then ds.filter fun d => d.1 = c else []
  let cand := ((if t.ovfl then t.held.filter fun d => d.1 < c else t.held) ++ ties).map fun d => d.2.entry s m
  ⟨t.held.map (·.2), ties.map (·.2), t.ovfl, (sortBy sweepLe cand).take m.h⟩

/-- A member's result reaches its request (R105, R109). -/
def giveResult (m : Member) (o : MemberOut) (visible solo : Nat) (s : State) : State :=
  let recs := (o.held ++ o.ties).map Swept.record
  match (recs.map fun a => rangeCode s a 32).find? (· ≠ 0) with
  | some code => failSweep m.req code s
  | none =>
    let tenants := ((s.scan.reqs.find? fun r => r.num = m.req).map (·.tenant)).toList
    settleSweep m.req (recordSlowdown tenants 8 (s.time - m.arrival).toNat solo (modScan (fun x => { x with
      sweepMembers := x.sweepMembers + 1
      reqs := x.reqs.map fun r => if r.num = m.req then { r with
          results := r.results ++ o.best, open_ := r.open_ - 1, visible := r.visible + BitVec.ofNat 64 visible, tie := r.tie || o.tie }
        else r }) s))

/-- Bytes of the sketches and bitmaps of a root, the bitmaps in whole 64-byte lines (R107). -/
def streamBytes (s : State) (root size : Nat) : Nat :=
  (segsOf s root).foldl (fun a g => a + g.count * size + if g.tomb = 0 then 0 else ceilDiv (ceilDiv g.count 8) 64 * 64) 0

/-- A flock is resolved: its members' results are formed and its record is free (R100 to R105, R107). -/
def resolveFlock (m : Nat) (f : Flock) (s : State) : State :=
  let size := (f.members.head?.map (·.sketch.length)).getD 0
  let ranges := sweepRanges s f.key size
  let bad := (((f.key, 4096) :: ranges).map fun r => rangeCode s r.1 r.2).find? (· ≠ 0)
  let es := sweptOf s f.key size
  let outs := f.members.map fun x => (x, memberOut s es x)
  let recs := dedupBy id (outs.flatMap fun o => o.2.held.map Swept.record)
  let ties := dedupBy id (outs.flatMap fun o => o.2.ties.map Swept.record)
  let tied := outs.any (·.2.tie)
  let stream := streamBytes s f.key size
  let bytes := 4096 + stream + 64 * recs.length + if tied then stream + 64 * ties.length else 0
  let s := s.modStack m fun t => t.withFlocks s.scan.maxMembers (t.flocks.filter (· ≠ f))
  let s := touch ((f.key, 4096) :: ranges ++ (if tied then ranges else []) ++ (recs ++ ties).map fun a => (a, 32)) s
  let s := countEv (idMemory m) 3 3 bytes {} s
  let s := modScan (fun x => { x with sweeps := x.sweeps + 1, tiePasses := x.tiePasses + if tied then 1 else 0 }) s
  match bad with
  | some code => f.members.foldl (fun s x => failSweep x.req code s) s
  | none => outs.foldl (fun s o => giveResult o.1 o.2 es.length (320 + bytes * 10 / 3072) s) s

/-- SWEEP_RESOLVE (R103). -/
def execSweepResolve (island engine : Nat) (s : State) : Host.Outcome State Fault Refusal :=
  .next (match (s.stack island).flocks.find? fun f => f.onEngine engine with
    | some f => if s.stackUp island then resolveFlock island f s else s
    | none => s)

/-! ### Pen scans (R108, R111) -/

/-- How long an epoch record is kept (R111). -/
def State.recordLife (s : State) : Nat := (s.scan.retries + 2) * s.scan.retryNs.toNat

/-- The epoch record of a request. -/
def State.penRecord (s : State) (b : Words) : Option PenRecord :=
  s.scan.penRecords.find? fun r => r.entry = msgDevice b && r.handle = msgHandle b

/-- The visible entries of a pen root: vector address and record address. -/
def penItems (s : State) (root size : Nat) : List (Nat × Nat) :=
  (segsOf s root).flatMap fun g => (visibleIn s g).map fun i => (g.data + size * i, g.entry + 32 * i)

/-- What a pen scan finds: its code, the entries kept, the number visible, how many scores were NaN, and the ranges read. -/
structure PenOut where
  code    : Word16
  entries : List PenEntry := []
  visible : Nat := 0
  nans    : Nat := 0
  reads   : List (Nat × Nat) := []
  deriving DecidableEq, Repr

/-- Steps 5 to 7 of R108 at an epoch. -/
def penScan (s : State) (b h : Words) (epoch : Nat) : PenOut :=
  let none_ := fun (code : Word16) => ({ code := code } : PenOut)
  let size := vecBytes (penFormat h) (penDim h)
  let w := walk s (penRoot h) epoch
  match (w.read.map fun v => rangeCode s v 4096).find? (· ≠ 0), w.broken, w.version with
  | some code, _, _ => none_ code
  | none, true, _ => none_ 0x124
  | none, false, none => none_ 0
  | none, false, some v =>
    let r := recW s v 8
    if verType r ≠ 2 ∨ rootList r ≠ 0 ∨ rootCorpus r ≠ 0 ∨ !((segsOf s v).all fun g => segOk g size) then none_ 0x124
    else
      let tombs := ((segsOf s v).filter fun g => g.tomb ≠ 0).map fun g => (g.tomb, tombBytes g)
      let items := penItems s v size
      let reads := (v, 4096) :: tombs ++ items.flatMap fun i => [(i.1, size), (i.2, 32)]
      match (reads.map fun r => rangeCode s r.1 r.2).find? (· ≠ 0) with
      | some code => none_ code
      | none =>
        let q := (u32s (srQlen b) (bytesOf (b.drop 8))).map (BitVec.ofNat 32)
        let es := items.map fun i => (i, exactScore q (penFormat h) (peek s i.1 size).data)
        { code := 0
          entries := topBy (fun e => (e.score, (entId e.record).toNat)) (srDepth b) (es.map fun e => ⟨recW s e.1.2 4, e.2.1⟩)
          visible := es.length
          nans := (es.filter fun e => e.2.2).length
          reads := reads }

/-- Steps 1 to 3 of R108: the header's code. -/
def penCheck (s : State) (b : Words) : Word16 :=
  let off := srPenRef b % 2 ^ 50
  let h := recW s off 8
  if !localOk off ∨ off % 64 ≠ 0 then 0x124
  else if rangeCode s off 64 ≠ 0 then rangeCode s off 64
  else if penTenant h ≠ srTenant b then 0x318
  else if penDim h ≠ srQlen b then 0x120
  else if !penOk h ∨ !s.pointerAt off then 0x124
  else 0

/-- The six words of a pen reply entry (R109). -/
def PenEntry.words (e : PenEntry) : Words := (List.range 4).map (word e.record) ++ [field 32 e.score.toNat, 0]

/-- A pen scan on the home device at an epoch, and its reply (R108, R109). -/
def runPen (b : Words) (epoch : Nat) (s : State) : State :=
  let off := srPenRef b % 2 ^ 50
  let h := recW s off 8
  if epoch < penFloor h then
    sendReply b 0x82 epoch 0 0 0x312 0 0 [] { s with publish := { s.publish with floorFails := s.publish.floorFails + 1 } }
  else
    let o := penScan s b h epoch
    let s := countNans o.nans (touch ((off, 64) :: o.reads) s)
    if o.code ≠ 0 then sendReply b 0x82 epoch 0 0 o.code 0 0 [] s
    else
      let noRoot := if (walk s (penRoot h) epoch).version.isNone then 64 else 0
      let (a, s) := s.fresh
      let (sol, s) := s.fresh
      sendReply b 0x82 epoch o.entries.length 0 0 o.visible noRoot (o.entries.flatMap PenEntry.words) (recordSlowdown [srTenant b] 7 a.toNat sol.toNat s)

/-- The epoch at which a pen request runs: the one it carries, or the one recorded for it (R47, R111). -/
def State.penEpochFor (s : State) (b : Words) : Option Nat :=
  if srEpoch b ≠ 0 then some (srEpoch b) else (s.penRecord b).map fun r => r.epoch.toNat

/-- A waiting pen request that carries no epoch takes the pen's present one, while a record is free for it (R47, R111). -/
def takePenEpoch (b : Words) (s : State) : State :=
  if penCheck s b ≠ 0 ∨ (s.penEpochFor b).isSome ∨ 65536 ≤ s.scan.penRecords.length then s
  else modScan (fun x => { x with penRecords := x.penRecords ++
    [⟨msgDevice b, msgHandle b, BitVec.ofNat 64 (srPenRef b), BitVec.ofNat 32 (penEpochOf (recW s (srPenRef b % 2 ^ 50) 8)), s.time⟩] }) s

/-- A pen request as a core runs it (R108). -/
def servePen (b : Words) (s : State) : State :=
  let code := penCheck s b
  if code ≠ 0 then sendReply b 0x82 (srEpoch b) 0 0 code 0 0 [] s
  else match s.penEpochFor b with
    | some e => runPen b e s
    | none => s

/-- A cluster that may run a pen scan (R108). -/
def State.penCluster (s : State) : Option Nat := s.clusterFor 7 fun c => (s.cluster c).role = 1

/-- The pen requests that wait are served in arrival order: each takes its epoch as soon as a record is free (R111), and runs as soon as a
core of a prefill cluster can take it (R377). -/
def servePens (s : State) : State :=
  let s := s.scan.penWaiting.foldl (fun s b => takePenEpoch b s) s
  if s.penCluster.isNone then s
  else
    let runs := fun b => penCheck s b ≠ 0 || (s.penEpochFor b).isSome
    (s.scan.penWaiting.filter runs).foldl (fun s b => servePen b s)
      (modScan (fun x => { x with penWaiting := x.penWaiting.filter fun b => !runs b }) s)

/-- PEN_REQUEST (R108, R111). -/
def execPenRequest (body : Words) (s : State) : Host.Outcome State Fault Refusal :=
  .next (if !s.hubUp ∨ msgKind body ≠ 2 then s
  else
    let s := takeLoop body s
    if s.killed (msgDevice body) (msgHandle body) then s
    else servePens (modScan (fun x => { x with penWaiting := x.penWaiting ++ [body] }) s))

/-- PEN_RECORD_LAPSE (R111): the record falls free, and the oldest request that waits for one takes it. -/
def execPenRecordLapse (entry : Nat) (handle : Word32) (s : State) : Host.Outcome State Fault Refusal :=
  .next (match s.scan.penRecords.find? fun r => r.entry = entry && r.handle = handle with
    | none => s
    | some r =>
      if !s.hubUp ∨ (s.time - r.at_).toNat < s.recordLife then s
      else servePens (modScan (fun x => { x with penRecords := x.penRecords.erase r }) s))

/-! ### Replies on the entry device (R110) -/

def spCount (b : Words) : Nat := bits (word b 2) 63 51
def spCode (b : Words) : Word16 := BitVec.ofNat 16 (bits (word b 2) 15 0)
def spEpoch (b : Words) : Word32 := BitVec.ofNat 32 (bits (word b 1) 31 0)

/-- A reply dropped as a duplicate (R110). -/
def dupReply (s : State) : State := modScan (fun x => { x with dupReplies := x.dupReplies + 1 }) s

/-- The first reply of an owner is accepted, its code failing the request; later ones are dropped (R110, R140). -/
def acceptReply (pen : Bool) (b : Words) (keep : Slot → Slot) (s : State) : State :=
  let n := handleSlot (msgHandle b)
  let same := fun (a : Awaited) => a.pen = pen && a.device = msgDevice b
  if !s.live (msgHandle b) then lateReply s
  else match (s.slot n).awaited.find? same with
    | none => s
    | some a =>
      if a.answered then dupReply s
      else if spCode b ≠ 0 then failSlot n (spCode b) s
      else settleScan n (s.modSlot n fun x => keep { x with awaited := x.awaited.map fun y => if same y then { y with answered := true } else y })

/-- SWEEP_REPLY (R109, R110). -/
def execSweepReply (body : Words) (s : State) : Host.Outcome State Fault Refusal :=
  .next (if !s.hubUp ∨ msgKind body ≠ 0x81 then s
  else acceptReply false body (fun x => { x with sweeps := x.sweeps ++
    [⟨msgDevice body, word body 3, (List.range (spCount body)).map fun i =>
      sweepEntryOf (msgDevice body) (word body (8 + 2 * i)) (word body (9 + 2 * i))⟩] }) (takeLoop body s))

/-- PEN_REPLY (R109, R110): with it comes the pen epoch taken on its home (R47). -/
def execPenReply (body : Words) (s : State) : Host.Outcome State Fault Refusal :=
  .next (if !s.hubUp ∨ msgKind body ≠ 0x82 then s
  else acceptReply true body (fun x => { x with
    penEpoch := spEpoch body
    penReply := some ⟨msgDevice body, spEpoch body, word body 3, (List.range (spCount body)).map fun i =>
      ⟨(List.range 4).map fun j => word body (8 + 6 * i + j), BitVec.ofNat 32 (bits (word body (12 + 6 * i)) 63 32)⟩⟩ }) (takeLoop body s))

/-- The attempt's number and what is left of the deadline, in a scan request sent again; a table message is sent as it was. -/
def againBody (s : State) (slot : Nat) (a : Awaited) : Words :=
  if 0x10 ≤ dOpcode (s.slot slot).desc then a.body
  else a.body.set 3 (field 32 (s.remain slot) ||| field 0 ((a.attempt + 1) % 8))

/-- A slot's messages are sent again while it scans, or runs a table command (R110, R316). -/
def State.retries (s : State) (slot : Nat) : Bool :=
  s.atStage slot sgScan || (s.hubUp && 0x10 ≤ dOpcode (s.slot slot).desc && stState (s.slot slot).status == ssRunning)

/-- SCAN_RETRY (R110): the request goes out again, or fails with 0122h after the last attempt; a table command whose commits are
sent goes on sending them (R310). -/
def execScanRetry (slot : Nat) (pen : Bool) (device : Nat) (s : State) : Host.Outcome State Fault Refusal :=
  .next (
    let same := fun (a : Awaited) => a.pen = pen && a.device = device && !a.answered
    match (s.slot slot).awaited.find? same with
    | none => s
    | some a =>
      if !s.retries slot ∨ (s.time - a.sentAt).toNat < s.scan.retryNs.toNat then s
      else if s.scan.retries ≤ a.attempt && !(s.slot slot).commitsSent then failSlot slot 0x122 s
      else
        let body := againBody s slot a
        let d := (s.slot slot).desc
        let (ok, s) := sendMsg device body false (if 0x10 ≤ dOpcode d then s.sysClass else dTclass d) (dTenant d) false idHub s
        let again := fun (y : Awaited) =>
          if same y then { y with attempt := a.attempt + 1, sentAt := s.time, body := body } else y
        if ok then s.modSlot slot fun x => { x with awaited := x.awaited.map again } else failSlot slot 0x403 s)

end Sys2Proof.Machine
end

