-- ==== Sys2Proof/Machine/Rank.lean ====
section
/-! DEFINITION. The ranking stages (R121 to R139) and packing (R161 to R163): shortlist, exact scores, cross-encoding, filters, the
ranked buffer and the prompt. -/

namespace Sys2Proof.Machine

/-! ### Lengths (R122) -/

def overF (d : Words) : Nat := if dFilterEn d then dOverfetch d + 1 else 1
def keepF (d : Words) : Nat := min 4096 (dKFinal d * overF d)
def keepX (d : Words) : Nat := if dCrossEn d then max (keepF d) (dCrossK d) else keepF d

/-- The core that issues a ranking stage's reads: the first in service of the lowest eligible cluster (R140, R371). -/
def State.rankCore (s : State) (cls : Nat) : Option Nat := (s.clusterFor cls fun _ => true).bind fun c => (s.servingCores c).head?

/-- The cores that share the exact stage: those in service of the first RERANK_CLUSTERS eligible clusters (R126, R142). -/
def State.exactCores (s : State) : List Nat := ((s.clustersFor 5 fun _ => true).take s.hub.rerankClusters).flatMap s.servingCores

/-- Copies removed, NaN scores and filter counts go to the device's totals (R142). -/
def countRank (dups nans evals passes : Nat) (s : State) : State :=
  s.modHub fun h => { h with
    dupsRemoved := h.dupsRemoved + BitVec.ofNat 64 dups, nanScores := h.nanScores + BitVec.ofNat 64 nans
    filterEvals := h.filterEvals + BitVec.ofNat 64 evals, filterPasses := h.filterPasses + BitVec.ofNat 64 passes }

/-! ### Shortlist (R121, R137) -/

/-- One merge step of sweep replies: the h smallest keys of two lists (R120). -/
def mergeSweeps (h : Nat) (a b : List SweepEntry) : List SweepEntry := (sortBy sweepLe (a ++ b)).take h

/-- The shortlist of a request's replies (R121). -/
def shortlistOf (x : Slot) : Shortlist :=
  let h := dShortlist x.desc
  let pens := match x.penReply with
    | some p => if dPenEn x.desc then p.entries.take (min (dPenK x.desc) h) else []
    | none => []
  let stream := x.sweeps.foldl (fun l r => mergeSweeps h l r.entries) []
  let distinct := dedupBy (fun e => e.id) stream
  { corpus := distinct.take (h - pens.length), pen := pens, dups := stream.length - distinct.length
    visible := x.sweeps.foldl (fun a r => a + r.visible) 0
    penVisible := if dPenEn x.desc then (x.penReply.map (·.visible)).getD 0 else 0 }

/-- The id no entry has (R117). -/
def sentinelId : Word64 := BitVec.allOnes 64

/-- The records of a pen at an epoch, by local offset: its root is walked on its home (R77, R108). -/
def penRecords (s : State) (off epoch : Nat) : List (Nat × Words) :=
  let h := recW s off 8
  match (walk s (penRoot h) epoch).version with
  | none => []
  | some v => (penItems s v (vecBytes (penFormat h) (penDim h))).map fun i => (i.2, recW s i.2 4)

/-- The hall address of the record of pen entry i of a shortlist (R137): on this device the place where the pen holds it, and the next one
for a record that occurs again. A pen reply gives no address (R109), so that of a record on another device is open (log 15). -/
def penAddr (s : State) (x : Slot) (l : List PenEntry) (i : Nat) : Nat :=
  let ref := dPenRef x.desc
  let e := (l.getD i ⟨[], 0⟩).record
  let nth := ((l.take i).filter fun p => p.record = e).length
  let places := if deviceOf ref = s.deviceId then (penRecords s (ref % 2 ^ 50) x.penEpoch.toNat).filter fun p => p.2 = e else []
  2 ^ 50 * deviceOf ref + ((places.map Prod.fst)[nth]?).getD (Config.penRecord ref x.penEpoch.toNat e nth % 2 ^ 50)

/-- The shortlist buffer (R137), the pen entries' record addresses given. -/
def shortlistBytes (x : Slot) (l : Shortlist) (rec_ : Nat → Nat) : Bytes :=
  let h := dShortlist x.desc
  let n := l.corpus.length + l.pen.length
  let cut := match l.corpus.getLast? with | some e => e.dist | none => 0xFFFF
  let head : Words :=
    [field 48 0x51 ||| field 32 h ||| field 16 n ||| field 0 l.pen.length, field 48 (l.dups % 2 ^ 16) ||| field 32 cut, l.visible,
     field 32 (l.penVisible.toNat % 2 ^ 32), field 32 x.corpusEpoch.toNat ||| field 0 (if dPenEn x.desc then x.penEpoch.toNat else 0), 0, 0, 0]
  let corpus := l.corpus.flatMap fun e => [e.id, field 32 e.dist, BitVec.ofNat 64 e.addr, 0]
  let pens := (l.pen.zipIdx).flatMap fun (e, i) => [entId e.record, field 62 1 ||| field 0 (canon e.score).toNat, BitVec.ofNat 64 (rec_ i), 0]
  let rest := (List.range (h - n)).flatMap fun _ => [sentinelId, field 62 3 ||| field 0 negInf.toNat, 0, 0]
  bytesOf (head ++ corpus ++ pens ++ rest)

/-- The shortlist stage's work. -/
def formShortlist (n : Nat) (s : State) : State :=
  let x := s.slot n
  let l := shortlistOf x
  let bytes := shortlistBytes x l (penAddr s x l.pen)
  let s := countRank l.dups 0 0 0 (s.modSlot n fun x => { x with short := l })
  let len := dShortlistLen x.desc
  let s := if dShortlistBuf x.desc = 0 then s
    else writeBuffer n .shortlist (dShortlistBuf x.desc) len bytes (l.corpus.length + l.pen.length) (if len < bytes.length then fbTruncated else 0) s
  commitStage n 4 s

/-- SHORTLIST (R121). -/
def execShortlistStage (slot : Nat) (s : State) : Host.Outcome State Fault Refusal :=
  .next (runStage slot sgShortlist (fun s => s.rankCore 4) (fun _ s => formShortlist slot s) s)

/-! ### The ranked buffer (R134 to R139) -/

/-- The score that ranks a candidate at the final cut (R135). -/
def Cand.score (c : Cand) : Word32 := c.cross.getD c.exact

/-- The ranked header and entries (R138). -/
def rankedBytes (x : Slot) (r : Rank) (maxX : Word32) : Bytes :=
  let k := dKFinal x.desc
  let n := r.final.length
  let inFinal := fun (c : Cand) => r.final.any fun f => f.id = c.id
  let exact := fun (keep : Bool) => massSum maxX ((r.scored.filter fun c => inFinal c == keep).map (·.exact))
  let maxC := ((r.crossed.head?).map Cand.score).getD 0
  let cross := fun (keep : Bool) => if r.crossed = [] then 0 else massSum maxC ((r.crossed.filter fun c => inFinal c == keep).map Cand.score)
  let head : Words :=
    [field 48 0x52 ||| field 32 k ||| field 16 n ||| field 0 (k - n),
     field 48 (r.tieF % 2 ^ 16) ||| field 32 (r.tieX % 2 ^ 16) ||| field 16 (r.dups % 2 ^ 16) ||| field 0 (r.nans % 2 ^ 16),
     field 48 r.evals ||| field 32 r.passes ||| field 16 r.crossC ||| field 0 (x.short.corpus.length + x.short.pen.length),
     field 32 maxX.toNat ||| field 0 maxC.toNat, field 32 (exact true).toNat ||| field 0 (exact false).toNat,
     field 32 (cross true).toNat ||| field 0 (cross false).toNat,
     field 32 x.corpusEpoch.toNat ||| field 0 (if dPenEn x.desc then x.penEpoch.toNat else 0), 0]
  let ents := r.final.flatMap fun c =>
    [c.id, field 32 c.score.toNat ||| field 30 c.pen.toNat ||| field 29 c.cross.isSome.toNat ||| field 0 (entTokens c.record),
     BitVec.ofNat 64 (entStr c.record), field 32 (entAttr c.record) ||| field 0 c.exact.toNat]
  let rest := (List.range (k - n)).flatMap fun _ => [sentinelId, field 32 negInf.toNat ||| field 30 3, 0, field 0 negInf.toNat]
  bytesOf (head ++ ents ++ rest)

/-- The final cut (R122, R133, R135) on the list that reaches it. -/
def Rank.cut (r : Rank) (k : Nat) (passing : List Cand) : Rank :=
  let final := passing.take k
  let last := final.getLast?
  { r with final := final, list := passing,
           tieF := ((passing.drop k).filter fun c => match last with | some l => c.score = l.score | none => false).length }

/-- The last ranking stage commits the final cut and writes the ranked buffer (R136, R138). -/
def finishRank (n cls : Nat) (passing : List Cand) (s : State) : State :=
  let x := s.slot n
  let k := dKFinal x.desc
  let r := x.rank.cut k passing
  let s := s.modSlot n fun x => { x with rank := r }
  let maxX := match x.rank.scored with | c :: _ => c.exact | [] => Config.maxOfNone
  let bytes := rankedBytes x r maxX
  let count := r.final.length
  let flags := (if 0 < r.tieF then fbTieCut else 0) + (if count < k then fbShortfall else 0)
  let len := dRankedLen x.desc
  let s :=
    if dRankedBuf x.desc ≠ 0 then
      writeBuffer n .ranked (dRankedBuf x.desc) len bytes count (flags + if len < bytes.length then fbTruncated else 0) s
    else if flags ≠ 0 then
      changeStatus n true (fun w => let w := w ||| field 32 flags; if count < k then setCount count w else w) s
    else s
  commitStage n cls s

/-- A ranking stage hands its list on, or finishes when it is the last one. -/
def passOn (n g cls : Nat) (list : List Cand) (s : State) : State :=
  let x := s.slot n
  let s := s.modSlot n fun x => { x with rank := { x.rank with list := list } }
  match stageAfter x.desc g with
  | some h => if h = sgPack then finishRank n cls list s else commitStage n cls s
  | none => finishRank n cls list s

/-! ### Exact scores (R124 to R126) -/

/-- Which of two copies of an id is kept (R126). -/
def copyLe (a b : Cand) : Bool :=
  let ka := selKey a.exact
  let kb := selKey b.exact
  ka < kb || (ka = kb && ((!a.pen && b.pen) || (a.pen = b.pen && a.recAddr.toNat ≤ b.recAddr.toNat)))

/-- Distinct ids in order of exact score (R116, R126). -/
def distinctCands (cs : List Cand) : List Cand :=
  topBy (fun c => (c.exact, c.id.toNat)) cs.length (dedupBy (fun c => c.id) (sortBy copyLe cs))

/-- Candidates left out of a cut of k whose score equals that of the last one kept (R135). -/
def tiesOut (k : Nat) (cs : List Cand) : Nat :=
  match (cs.take k).getLast? with
  | some l => ((cs.drop k).filter fun c => c.exact = l.exact).length
  | none => 0

/-- A merge step of scored lists: copies of an id are resolved as they meet (R120, R126). -/
def mergeCands (a b : List Cand) : List Cand := distinctCands (a ++ b)

/-- Place i's core of the cores that share a stage: entries are dealt out in turn. No result depends on who takes which (R119). -/
def shareOf (cores : List Nat) (i : Nat) : Nat := cores.getD (i % cores.length) 0

/-- Each core's share of the candidates selected, and the partial lists merged (R119, R120, R126). -/
def selectShares (cores : List Nat) (corpus pens : List Cand) : List Cand :=
  let shares := (List.range cores.length).map fun k => (corpus.zipIdx.filter fun p => p.2 % cores.length = k).map Prod.fst
  (shares ++ [pens]).foldl (fun l p => mergeCands l (distinctCands p)) []

/-- Copies, and the cut at K_X, of the distinct entries of `all` candidates (R122, R126). -/
def rankExact (n all : Nat) (d : List Cand) (nans : Nat) (s : State) : State :=
  let x := s.slot n
  let k := keepX x.desc
  let r : Rank := { scored := d, kept := d.take k, dups := all - d.length, nans := nans, tieX := tiesOut k d }
  passOn n sgExact 5 (d.take k) (countRank r.dups nans 0 0 (s.modSlot n fun x => { x with rank := r }))

/-- The exact stage on its cores: each reads its entries' records, then the vectors they name, and scores them (R124 to R126). -/
def runExact (n : Nat) (cores : List Nat) (remote : List Fetch) (s : State) : State :=
  let x := s.slot n
  let q := (x.embed.getD ⟨[], [], []⟩).corpus
  let cd := match s.corpusSlot (dCorpus x.desc) with | some k => s.corpDesc k | none => []
  let fmt := corpFormat cd
  let es := x.short.corpus
  withReads n remote (es.zipIdx.map fun e => stageAcc s n (shareOf cores e.2) 0 e.1.addr 32 false) (fun recs s =>
    let rows := recs.map (wordsOf 4)
    if (rows.zip es).any fun p => entId p.1 ≠ p.2.id then failSlot n 0x133 s
    else withReads n remote (rows.zipIdx.map fun r => stageAcc s n (shareOf cores r.2) 2 (entVec r.1) (vecBytes fmt (corpDim cd)) false)
      (fun vecs s =>
        let scores := vecs.map fun v => exactScore q fmt v
        let corpus := ((es.zip rows).zip scores).map fun p =>
          (⟨p.1.1.id, false, p.1.2, BitVec.ofNat 64 p.1.1.addr, p.2.1, none⟩ : Cand)
        let pens := x.short.pen.map fun e => (⟨entId e.record, true, e.record, 0, canon e.score, none⟩ : Cand)
        rankExact n (corpus.length + pens.length) (selectShares cores corpus pens) (scores.filter (·.2)).length s) s) s

/-- EXACT (R124 to R126). -/
def execExactStage (slot : Nat) (remote : List Fetch) (s : State) : Host.Outcome State Fault Refusal :=
  .next (runStage slot sgExact (fun s => if s.exactCores = [] then none else some s.exactCores) (fun cs s => runExact slot cs remote s) s)

/-! ### Cross-encoding (R127, R128, R278, R290, R291) -/

/-- The adapter of a request at the start of the stage (R291): 0602h, 0603h, or what its reads meet. -/
def adapterCode (s : State) (n : Nat) (h : Words) : Word16 :=
  let x := s.slot n
  let off := mdlAdapters h + 8 * dAdapter x.desc
  let c1 := rangeCode s off 8
  let a := (peekWord s off).toNat
  let w := recW s a 8
  if mdlAdapters h = 0 then 0x602
  else if c1 ≠ 0 then c1
  else if a = 0 then 0x602
  else if rangeCode s a 64 ≠ 0 then rangeCode s a 64
  else if bits (word w 0) 63 48 ≠ 0x0B ∨ bits (word w 0) 47 36 ≠ dTenant x.desc ∨ bits (word w 1) 63 32 ≠ mdlTag h then 0x602
  else if mdlRank h < bits (word w 0) 35 28 then 0x603
  else rangeCode s a (64 + bits (word w 2) 63 32 * 16 * mdlWidth h)

/-- The access to a candidate's token string (R127, R161). -/
def strAcc (s : State) (n isl : Nat) (c : Cand) : HallAcc := stageAcc s n isl 0 (entStr c.record) (4 * entTokens c.record) c.pen

/-- The list after the first C entries are rescored (R128). -/
def rescored (cs : List Cand) (c : Nat) (scores : List Word32) : List Cand :=
  let hot := ((cs.take c).zip scores).map fun p => { p.1 with cross := some (canon p.2) }
  topBy (fun x => (x.score, x.id.toNat)) c hot

/-- The passages of a pair: the string's head, as long as the program's limit and the pair allow (R127, R278). -/
def pairTokens (h : Words) (query : List Nat) (str : List Nat) : List Nat :=
  query ++ str.take (min (mdlOutA h) (mdlMaxIn h - query.length))

/-- What makes an adapter's scores: rank, format, scale and shards (R128, R290). -/
def adapterRange (s : State) (n : Nat) (h : Words) : Nat × Nat :=
  let a := (peekWord s (mdlAdapters h + 8 * dAdapter (s.slot n).desc)).toNat
  (a, 64 + bits (word (recW s a 8) 2) 63 32 * 16 * mdlWidth h)
def adapterImage (s : State) (n : Nat) (h : Words) : Bytes :=
  let r := adapterRange s n h
  let w := recW s r.1 8
  bytesOf [field 0 (bits (word w 0) 35 20), field 0 (bits (word w 1) 31 0)] ++ (peek s (r.1 + 64) (r.2 - 64)).data

/-- The adapter's image is read once, as the stage first runs, and used for all of it (R291, R295): 0, or the failing code. -/
def takeAdapter (n : Nat) (h : Words) (s : State) : Word16 × State :=
  let x := s.slot n
  if !dAdapterEn x.desc ∨ x.adapter.isSome then (0, s)
  else if adapterCode s n h ≠ 0 then (adapterCode s n h, s)
  else (0, (touch [(mdlAdapters h + 8 * dAdapter x.desc, 8), adapterRange s n h] s).modSlot n fun x =>
    { x with adapter := some (adapterImage s n h) })

/-- How many steps hold sequences of these rows, in turn (R283). -/
def stepsFor (max : Nat) : Nat → List Nat → Nat
  | used, [] => if used = 0 then 0 else 1
  | used, r :: l => if used ≠ 0 ∧ max < used + r then 1 + stepsFor max r l else stepsFor max (used + r) l

/-- The scores of a request's pairs on an instance: none when the program's output count differs (R127). -/
def State.crossScores (s : State) (n inst : Nat) (inputs : List Bytes) (image : Bytes) : Option (List Word32) :=
  let code := s.instBytes (dCrossSlot (s.slot n).desc) inst
  if inputs = [] ∨ Config.crossCount code inputs.length = inputs.length then some (inputs.map fun i => Config.crossScore code i image) else none

/-- The list after its first C entries are rescored, and the counts of it (R127, R128). -/
def takeCross (n c : Nat) (scores : List Word32) (s : State) : State :=
  let x := s.slot n
  let hot := rescored x.rank.list c scores
  let nans := (scores.filter isNan).length
  let s := countRank 0 nans 0 0 (s.modSlot n fun x => { x with rank := { x.rank with crossed := hot, crossC := c, nans := x.rank.nans + nans } })
  passOn n sgCross 3 ((hot ++ x.rank.list.drop c).take (keepF x.desc)) s

/-- The steps and gathers of a cross-encode stage are counted; how many shards the cores gather anew is theirs (R291, R297). -/
def countCross (n : Nat) (h : Words) (rows : List Nat) (s : State) : State :=
  let (g, s) := if dAdapterEn (s.slot n).desc then s.fresh else (0, s)
  let gathers := if dAdapterEn (s.slot n).desc then min g.toNat (16 * mdlWidth h) else 0
  { s with serving := { s.serving with
    steps := s.serving.steps + BitVec.ofNat 64 (stepsFor s.serving.stepMaxRows 0 rows)
    adapterGathers := s.serving.adapterGathers + BitVec.ofNat 64 gathers } }

/-- The cross-encode stage on an instance (R127, R128, R278, R291). -/
def runCross (n inst : Nat) (remote : List Fetch) (s : State) : State :=
  let x := s.slot n
  let m := dCrossSlot x.desc
  let h := s.modelHead m
  let c := min (dCrossK x.desc) x.rank.list.length
  let query := (x.tokSet (mdlVocab h)).query
  let (code, s) := takeAdapter n h s
  let image := (s.slot n).adapter.getD []
  if code ≠ 0 then failSlot n code s
  else if mdlMaxIn h - 1 < query.length then failSlot n 0x604 s
  else
    withReads n remote ((x.rank.list.take c).map fun e => strAcc s n (16 * inst * mdlWidth h) e) (fun strs s =>
      let pairs := ((x.rank.list.take c).zip strs).map fun p => pairTokens h query (u32s (entTokens p.1.record) p.2)
      let inputs := pairs.map fun p => inputOf p query.length (dAdapterEn x.desc) 0
      if inputs.any fun i => s.spoils m inst i then failSlot n 0x301 s
      else match s.crossScores n inst inputs image with
        | none => failSlot n 0x132 s
        | some scores => takeCross n c scores (countCross n h (pairs.map List.length) s)) s

/-- CROSS_ENCODE (R127). -/
def execCrossEncode (slot : Nat) (remote : List Fetch) (s : State) : Host.Outcome State Fault Refusal :=
  .next (runStage slot sgCross (fun s => s.instFor (dCrossSlot (s.slot slot).desc) kindCross) (fun i s => runCross slot i remote s) s)

/-! ### Filters (R129 to R133) -/

def fltOp (i : Word64) : Nat := bits i 63 56
def fltWord (i : Word64) : Nat := bits i 55 48
def fltShift (i : Word64) : Nat := bits i 47 40
def fltWidth (i : Word64) : Nat := bits i 39 32
def fltImm (i : Word64) : Nat := bits i 31 0

/-- Operations that compare a field. -/
def fltCompares (op : Nat) : Bool := 0x10 ≤ op && op ≤ 0x19

/-- The stack depth after an instruction, none when it is malformed (R130, R131). DESIGN CHOICE (log 16): a FLT.WIDTH of 0, which R130 gives no
meaning, is malformed. -/
def fltDepth (rowWords : Nat) (depth : Option Nat) (i : Word64) : Option Nat :=
  let op := fltOp i
  match depth with
  | none => none
  | some d =>
    let after :=
      if fltCompares op then
        if fltWord i < rowWords && 1 ≤ fltWidth i && fltShift i + fltWidth i ≤ 64 then some (d + 1) else none
      else if op = 0x30 ∨ op = 0x31 then some (d + 1)
      else if op = 0x20 ∨ op = 0x21 then (if 2 ≤ d then some (d - 1) else none)
      else if op = 0x22 then (if 1 ≤ d then some d else none)
      else none
    match after with
    | some d' => if d' ≤ 16 then some d' else none
    | none => none

/-- An expression's instructions, none when it is malformed (R131). DESIGN CHOICE (log 16): one above the 512 instructions of R130 is malformed. -/
def fltProgram (rowWords : Nat) (expr : Bytes) : Option Words :=
  let is := wordsOf (expr.length / 8) expr
  if expr.length % 8 = 0 ∧ expr.length ≤ 4096 ∧ is.foldl (fltDepth rowWords) (some 0) = some 1 then some is else none

/-- A comparison on a row (R130). -/
def fltTest (i : Word64) (row : Words) : Bool :=
  let n := (word row (fltWord i)).toNat / 2 ^ fltShift i % 2 ^ fltWidth i
  let m := fltImm i
  let sf := twos (fltWidth i) n
  let sm := twos 32 m
  let op := fltOp i
  if op = 0x10 then n = m
  else if op = 0x11 then n ≠ m
  else if op = 0x12 then n < m
  else if op = 0x13 then n ≤ m
  else if op = 0x14 then m < n
  else if op = 0x15 then m ≤ n
  else if op = 0x16 then n &&& m ≠ 0
  else if op = 0x17 then n &&& m = m
  else if op = 0x18 then sf < sm
  else sm < sf

/-- One instruction on the stack of booleans (R130). -/
def fltStep (row : Words) (st : List Bool) (i : Word64) : List Bool :=
  let op := fltOp i
  if fltCompares op then fltTest i row :: st
  else if op = 0x30 then true :: st
  else if op = 0x31 then false :: st
  else match st with
    | a :: b :: l => if op = 0x20 then (b && a) :: l else if op = 0x21 then (b || a) :: l else (!a) :: b :: l
    | [a] => [!a]
    | [] => []

/-- The value of an expression on a row. -/
def fltEval (is : Words) (row : Words) : Bool := (is.foldl (fltStep row) []).headD false

/-- The candidates that pass, the rows of those evaluated being at hand in list order (R132, R133). -/
def fltPass (is : Words) (read : Cand → Bool) : List Cand → List Bytes → List Cand
  | [], _ => []
  | c :: l, rows =>
    if c.pen then c :: fltPass is read l rows
    else if read c then match rows with
      | r :: rest => if fltEval is (wordsOf 32 (r ++ zeros (256 - r.length))) then c :: fltPass is read l rest else fltPass is read l rest
      | [] => fltPass is read l []
    else fltPass is read l rows

/-- The filter applied to the list with an attribute table's header; without a shared corpus there are pen candidates alone. -/
def applyFilter (n k : Nat) (is head : Words) (remote : List Fetch) (s : State) : State :=
  let x := s.slot n
  let cs := x.rank.list.take (keepF x.desc)
  let rw := bits (word head 0) 5 0
  let reads := fun (e : Cand) => !e.pen && entAttr e.record < (word head 1).toNat
  let rows := cs.filter reads
  withReads n remote (rows.map fun e => stageAcc s n k 0 ((word head 2).toNat + 8 * rw * entAttr e.record) (8 * rw) false)
    (fun data s =>
      let passing := fltPass is reads cs data
      let s := countRank 0 0 rows.length passing.length (s.modSlot n fun x => { x with rank :=
        { x.rank with evals := rows.length, passes := passing.length } })
      passOn n sgFilter 6 passing s) s

/-- The expression of a request: the rewritten one, or that of its filter buffer (R51, R131). -/
def filterExpr (n : Nat) (expr : Bytes) (s : State) : Word16 × Bytes × State :=
  let x := s.slot n
  match x.rewriteFilter with
  | some e => (0, e, s)
  | none => readHost (dFilterAddr x.desc) (dFilterLen x.desc) expr s

/-- The filter stage on a core (R131): 0130h, 0131h, or the passing list. DESIGN CHOICE (log 16): a request without a shared corpus has no
attribute table, so no header is read and WORD is held against the largest row. -/
def runFilter (n k : Nat) (expr : Bytes) (remote : List Fetch) (s : State) : State :=
  let x := s.slot n
  let apply := fun (rowWords : Nat) (head : Words) (e : Bytes) (s : State) => match fltProgram rowWords e with
    | none => failSlot n 0x131 s
    | some is => applyFilter n k is head remote s
  match filterExpr n expr s with
  | (0, e, s) =>
    if !dSharedEn x.desc then apply 32 [] e s
    else
      let cd := match s.corpusSlot (dCorpus x.desc) with | some k => s.corpDesc k | none => []
      withReads n remote [stageAcc s n k 0 (corpAttr cd) 64 false] (fun got s =>
        let head := wordsOf 8 (got.headD [])
        if bits (word head 0) 63 48 ≠ 5 ∨ bits (word head 0) 47 32 ≠ dCorpus x.desc then failSlot n 0x130 s
        else apply (bits (word head 0) 5 0) head e s) s
  | (code, _, s) => failSlot n code s

/-- FILTER (R130 to R133). -/
def execFilterStage (slot : Nat) (expr : Bytes) (remote : List Fetch) (s : State) : Host.Outcome State Fault Refusal :=
  .next (
    let x := s.slot slot
    withSnoops (if (s.stageTurn slot sgFilter).isSome && x.rewriteFilter.isNone then [(dFilterAddr x.desc, dFilterLen x.desc)] else [])
      (runStage slot sgFilter (fun s => s.rankCore 6) fun k s => runFilter slot k expr remote s) s)

/-! ### Packing (R160 to R163) -/

/-- A ranked entry with its token string. -/
structure Passage where
  cand  : Cand
  rank  : Nat
  toks  : List Nat
  deriving DecidableEq, Repr

/-- Two strings' ranges intersect without being equal, on one device (R162). -/
def overlaps (a b : Passage) : Bool :=
  let x := entStr a.cand.record
  let y := entStr b.cand.record
  let n := 4 * entTokens a.cand.record
  let m := 4 * entTokens b.cand.record
  deviceOf x = deviceOf y && x < y + m && y < x + n && !(x = y && n = m)

/-- Entries without those that duplicate or overlap a higher one still kept: kept, duplicates, overlaps (R162). -/
def dropCopies (ps : List Passage) : List Passage × Nat × Nat :=
  ps.foldl (fun a p =>
    if a.1.any fun k => k.toks = p.toks then (a.1, a.2.1 + 1, a.2.2)
    else if a.1.any fun k => overlaps k p then (a.1, a.2.1, a.2.2 + 1)
    else (a.1 ++ [p], a.2.1, a.2.2)) ([], 0, 0)

/-- A placed passage: its body is the head of its string. -/
structure Placed where
  psg  : Passage
  body : Nat
  deriving DecidableEq, Repr

/-- Placement in the room left (R161): what is placed, and how many entries do not fit. -/
def placeAll (t : Words) : Nat → List Placed → List Passage → List Placed × Nat
  | _, got, [] => (got, 0)
  | room, got, e :: l =>
    let body := min e.toks.length (tplMaxPassage t)
    let extra := (if got = [] then 0 else (tplSep t).2) + (tplPrefix t).2 + (tplSuffix t).2
    if extra + body ≤ room then placeAll t (room - (extra + body)) (got ++ [⟨e, body⟩]) l
    else if tplFit t = 1 then
      let (g, n) := placeAll t room got l
      (g, n + 1)
    else if tplFit t = 2 ∧ extra + tplMinCut t ≤ room then (got ++ [⟨e, room - extra⟩], l.length)
    else (got, l.length + 1)

/-- What a prompt is made of. -/
structure Prompt where
  query   : List Nat
  ctx     : List Nat
  dropped : Nat
  fixed   : Nat
  deriving DecidableEq, Repr

/-- The fixed part of a template for a request (R161); none when it exceeds the budget. -/
def fixedPart (es : List Word64) (t : Words) (x : Slot) : Option Prompt :=
  let has := fun (k : Nat) => es.any fun e => telKind e = k
  let lits := es.foldl (fun a e => if telKind e = 1 then a + telLen e else a) 0
  let k := x.tokSet (tplVocab t)
  let query := if has 2 then k.query else []
  let ctx := if has 3 then k.ctx else []
  let budget := dTokenBudget x.desc
  let full := lits + query.length + ctx.length
  let drop := if tplTrim t then min ctx.length (full - budget) else 0
  if budget < full - drop then none else some ⟨query, ctx.drop drop, drop, full - drop⟩

/-- Passages in emitted order with separators: the tokens, and where each body starts, counted from the first token. -/
def emitPassages (pre suf sep : List Nat) : Bool → Nat → List Placed → List Nat × List Nat
  | _, _, [] => ([], [])
  | first, at_, p :: l =>
    let lead := (if first then [] else sep) ++ pre
    let piece := lead ++ p.psg.toks.take p.body ++ suf
    let (ts, offs) := emitPassages pre suf sep false (at_ + piece.length) l
    (piece ++ ts, (at_ + lead.length) :: offs)

/-- The prompt's tokens, and the place of each passage's body (R161). -/
def promptTokens (s : State) (off : Nat) (t : Words) (p : Prompt) (placed : List Placed) : List Nat × List Nat :=
  (tplElems s off).foldl (fun a e =>
    if telKind e = 1 then (a.1 ++ tplRun s off (telOff e, telLen e), a.2)
    else if telKind e = 2 then (a.1 ++ p.query, a.2)
    else if telKind e = 3 then (a.1 ++ p.ctx, a.2)
    else
      let (ts, offs) := emitPassages (tplRun s off (tplPrefix t)) (tplRun s off (tplSuffix t)) (tplRun s off (tplSep t)) true a.1.length placed
      (a.1 ++ ts, offs)) ([], [])

/-- A passage map entry (R163). -/
def mapEntry (p : Placed) (at_ : Nat) : Words :=
  let r := p.psg.cand.record
  [p.psg.cand.id, field 32 at_ ||| field 16 p.body ||| field 0 (p.psg.rank % 2 ^ 16),
   field 32 p.psg.cand.score.toNat ||| field 16 (entTokens r) ||| field 0 (if p.body < entTokens r then 1 else 0), BitVec.ofNat 64 (entStr r)]

/-- The template's object is read (R164). -/
def tplCode (s : State) (off : Nat) : Word16 :=
  let h := recW s off 8
  if rangeCode s off 64 ≠ 0 then rangeCode s off 64
  else rangeCode s off (64 + 8 * tplElements h + 4 * tplRunTokens h)

/-- The prompt is packed and written (R161 to R163). -/
def packPrompt (n i : Nat) (off : Nat) (t : Words) (strs : List Bytes) (s : State) : State :=
  let x := s.slot n
  let ps := ((x.rank.final.zip strs).zipIdx).map fun (p, k) => (⟨p.1, k, u32s (entTokens p.1.record) p.2⟩ : Passage)
  if ps.any fun p => p.toks.any fun k => vocTokens (s.vocHead (tplVocab t)) ≤ k then failSlot n 0x504 s
  else match fixedPart (tplElems s off) t x with
    | none => failSlot n 0x503 s
    | some p =>
      let order := sortBy (fun a b => scoreLe (a.cand.score, a.cand.id.toNat) (b.cand.score, b.cand.id.toNat)) ps
      let (kept, dups, laps) := dropCopies order
      let (placed, missed) := placeAll t (dTokenBudget x.desc - p.fixed) [] kept
      let shown := if tplLast t then placed.reverse else placed
      let (toks, offs) := promptTokens s off t p shown
      let head : Words :=
        [field 48 0x61 ||| field 32 (tplId t) ||| field 16 placed.length ||| field 0 ps.length,
         field 32 toks.length ||| field 0 (dTokenBudget x.desc), field 32 p.fixed ||| field 0 (64 + 32 * placed.length),
         field 48 dups ||| field 32 laps ||| field 16 missed ||| field 0 (placed.filter fun q => q.body < q.psg.toks.length).length,
         field 32 p.dropped ||| field 0 p.query.length,
         field 32 x.corpusEpoch.toNat ||| field 0 (if dPenEn x.desc then x.penEpoch.toNat else 0), 0, 0]
      let bytes := linesPad (bytesOf (head ++ (shown.zip offs).flatMap fun q => mapEntry q.1 q.2) ++ toks.flatMap (leBytes 4))
      let len := dOutputLen x.desc
      let s := { s with text := { s.text with prompts := s.text.prompts + 1 } }
      commitStage n 10 (countEv (idText i) 6 2 toks.length {}
        (writeBuffer n .output (dOutputBuf x.desc) len bytes placed.length (if len < bytes.length then fbTruncated else 0) s))

/-- The pack stage on a text island: the template, then each entry's string (R161). -/
def runPack (n i : Nat) (remote : List Fetch) (s : State) : State :=
  let x := s.slot n
  let off := (s.template x.template).desc.toNat
  let code := tplCode s off
  let t := recW s off 8
  if code ≠ 0 then failSlot n code s
  else
    let s := touch [(off, 64 + 8 * tplElements t + 4 * tplRunTokens t)] s
    withReads n remote (x.rank.final.map fun c => strAcc s n (idText i) c) (fun strs s => packPrompt n i off t strs s) s

/-- PACK (R161). -/
def execPackStage (slot : Nat) (remote : List Fetch) (s : State) : Host.Outcome State Fault Refusal :=
  .next (runStage slot sgPack State.textFor (fun i s => runPack slot i remote s) s)

end Sys2Proof.Machine
end

