-- ==== Sys2Proof/Machine/Hbm.lean ====
section
/-! DEFINITION. The HBM tier (R261, R265 to R269) and the intake region of the host (R391, R392): hinges, the life of a stack,
host lines and snoop responses. -/

namespace Sys2Proof.Machine

/-! ### Enables (R485) -/

/-- A write of an enable by the function's state: the access result, and what it does. -/
def enableAct (fn : FnState) (on : Bool) (start abandon drain : State → State) (s : State) : Nat × State :=
  match fn, on with
  | .off, true => (0, start s)
  | .off, false => (0, s)
  | .starting, true => (0, s)
  | .starting, false => (0, abandon s)
  | .ready, true => (0, s)
  | .ready, false => (0, drain s)
  | .draining, true => (3, s)
  | .draining, false => (0, s)

/-! ### Hinges (R265 to R267) -/

/-- The copy of a page to its spare page ends: what its read delivered with a fresh code, the poison mark, and the entry active (R267).
Without its stack serving no copy ends. -/
def endHingeCopy (s : State) : State :=
  match s.hbm.hingeTarget with
  | none => s
  | some (m, j) =>
    let pg := 2 ^ 24 * m + (tget {} (s.stack m).hinge j).page
    let r := peek s (4096 * pg) 4096
    if !(s.page pg).kind.written then hingeActive m j false s
    else if r.code ≠ 0 then s
    else
      let s := touch [(4096 * pg, 4096)] s
      hingeActive m j (s.page pg).poison (putCells pg [] (putCells (sparePage m j) r.data s))

/-- HINGE_COPY_END (R267). -/
def execHingeCopyEnd (s : State) : Host.Outcome State Fault Refusal := .next (if s.hubUp then endHingeCopy s else s)

/-- The lowest entry of n that is not in use. -/
def freeEntry (n : Nat) (used : Nat → Bool) : Option Nat := (List.range n).find? fun j => !used j

/-- A page's install (R267): a page that holds nothing, or that a start is about to free, becomes active at once. -/
def installPage (m page : Nat) (s : State) : State :=
  let t := s.stack m
  if 0xF80000 ≤ page ∨ t.hinge.any (fun e => e.2.valid && e.2.page = page) then hingeDone 0x323 s
  else match freeEntry 16 fun j => (tget {} t.hinge j).valid with
    | none => hingeDone 0x322 s
    | some j =>
      let s := modHbm (fun h => { h with hingeResult := 0xFFFF, hingeTarget := some (m, j) })
        (s.modStack m fun t => { t with hinge := tset {} t.hinge j ⟨true, 1, false, page⟩ })
      if (s.page (2 ^ 24 * m + page)).kind.written && !(t.fromOff) then s else hingeActive m j false s

/-- A row's bytes go to spare line j of its bank: read with correction, written and encoded anew (R266, R267). -/
def moveRow (row j : Nat) (c : Core) : Core :=
  let line := 24 * (4096 + j) + bankOf row
  let c' := { c with
    hinge := tset {} c.hinge j ⟨true, true, row⟩
    wordErrs := c.wordErrs.filter fun e => e.1 / 8 ≠ row && e.1 / 8 ≠ line }
  if c.rowValid row then
    { c' with spad := memWrite (memClear c.spad (64 * row) 64) (64 * line) ((List.range 64).map (c.rowByte row)) }
  else c'

/-- A row's install (R267): two c-cycles of its bank, which an engine that runs waits out (R238, R239). -/
def installRow (k row : Nat) (s : State) : State :=
  let c := s.core k
  if 98304 ≤ row ∨ c.hinge.any (fun e => e.2.valid && e.2.row = row) then hingeDone 0x323 s
  else match freeEntry 8 fun j => (tget {} c.hinge j).valid with
    | none => hingeDone 0x322 s
    | some j =>
      let s := (if c.rowValid row then decodeRow k row s else s).modCore k (moveRow row j)
      let s := if c.runs = [] then s else
        let (u, s) := s.fresh
        s.modCore k fun c => { c with freezes := tmod 0 c.freezes (bankOf row) (· + BitVec.ofNat 64 (u.toNat % 3)) }
      hingeDone 0 (notable k 9 j s)

/-- The form of a HINGE_INSTALL value. -/
def hingeForm (v : Word64) : Bool :=
  rsvd v 54 36 && (match islandType (bits v 63 55) with
    | some .memory => rsvd v 11 0
    | some .core => rsvd v 35 17
    | _ => false)

/-- HINGE_INSTALL's effect. DESIGN CHOICE (log 26): an install under way is ended first, and given up where its stack does not serve. -/
def installHinge (v : Word64) (s : State) : State :=
  let s := dropHingeCopy (endHingeCopy s)
  let i := bits v 63 55
  if i < 0x100 then installRow i (bits v 16 0) s else installPage (i - 0x110) (bits v 35 12) s

/-! ### The life of a stack (R246, R268, R269) -/

/-- A start from Off. -/
def startStack (n : Nat) (s : State) : State :=
  let s := releaseHold (idMemory n) s
  setStackFn n .starting (s.modStack n fun t => { t with codeTInUse := t.codeT, fromOff := true, abandon := false })

/-- A drain: sweeps are killed and publish jobs on the stack fail. -/
def drainStack (n : Nat) (s : State) : State := setStackFn n .draining (failJobsOf n 0x321 (dropFlocks n s))

/-- Entries of MEM_HINGE in use are active at the end of Starting, without a copy (R268, R435): on a start from Off all of them, and after
a fault those that were, while one that was copying goes on. -/
def restoreHinge (fresh : Bool) (e : MemHinge) : MemHinge :=
  if e.valid && fresh then { e with state := 2, poison := false } else e

/-- Starting ends: the map zeroed on a start from Off and after 0831h, the hinges restored. -/
def stackUpNow (n : Nat) (s : State) : State :=
  let fresh := (s.stack n).fromOff
  let s := if fresh then endCopyOff n (eraseStack n s) else s
  let s := if fresh && s.coreE.initMode = 1 then { s with coreE := { s.coreE with fillDone := s.time } } else s
  backInService (idMemory n) (setStackFn n .ready (s.modStack n fun t =>
    { t with fromOff := false, hinge := tmap {} (fun _ e => restoreHinge fresh e) t.hinge }))

/-- STACK_READY (R264, R269, R485). -/
def execStackReady (n : Nat) (trained : Bool) (trainStep : Word32) (s : State) : Host.Outcome State Fault Refusal :=
  .next (if n < 12 && s.startable (idMemory n) && decide ((s.stack n).fn = .starting) then
    if (s.stack n).abandon then backInService (idMemory n) (stackOff n s)
    else if trained then stackUpNow n s
    else raiseFault (idMemory n) 0x833 trainStep 0 s
  else s)

/-! ### The intake region (R261, R391, R392) -/

/-- HDM_COMMIT (R391): `bi` is the BI Decoder's enable, which the host sets. -/
def execHdmCommit (base : Word64) (bi : Bool) (s : State) : Host.Outcome State Fault Refusal :=
  .next (if s.hostUp then
    if bi && decide ((s.stack s.intakeStack).fn = .ready) then
      noteReady s (s.modHost fun h => { h with committed := true, hdmBase := base, commitError := false })
    else s.modHost fun h => { h with commitError := true }
  else s)

/-- One line of the region is written under the on-die ECC alone. -/
def writeIntake (line : Nat) (data : Bytes) (s : State) : State :=
  let a := s.hbm.intakeBase.toNat + 64 * line
  countEv (idMemory s.intakeStack) 3 2 64 { priv := 1, addr := some (a, 64) }
    { s with
      mem := s.stored a (fit 64 data)
      hbm := { s.hbm with intakeErrs := tset 0 s.hbm.intakeErrs (a / 64) 0 }
      host := { s.host with intakeLines := s.host.intakeLines + 1 } }

/-- INTAKE_WRITE (R391): without the stack the line completes and is not stored. -/
def execIntakeWrite (line : Nat) (data : Bytes) (s : State) : Host.Outcome State Fault Refusal :=
  .next (if s.hostUp && s.host.committed && decide (line < 2 ^ 28) && s.intakeState = 2 then writeIntake line data s else s)

/-- INTAKE_READ (R391, R392): the stack's present data, or poison. -/
def execIntakeRead (line : Nat) (s : State) : Host.Outcome State Fault Refusal :=
  .next (if s.hostUp && s.host.committed && decide (line < 2 ^ 28) then
    let a := s.hbm.intakeBase.toNat + 64 * line
    if s.intakeState = 2 then
      (touch [(a, 64)] s).modHost fun h => { h with memRead := some ((peek s a 64).data, (peek s a 64).poison) }
    else s.modHost fun h => { h with memRead := some ([], true) }
  else s)

/-- BI_RESPONSE (R392): dirty lines are written, and the page may be read. -/
def execBiResponse (page : Nat) (dirty : List (Nat × Bytes)) (s : State) : Host.Outcome State Fault Refusal :=
  .next (if s.hostUp && s.host.snooping.contains page then
    let s := if s.intakeState = 2 then
        (dirty.filter fun d => d.1 < 64).foldl (fun s d => writeIntake (64 * page + d.1) d.2 s) s
      else s
    s.modHost fun h => { h with snooping := h.snooping.filter (· ≠ page), answered := h.answered ++ [page] }
  else s)

/-- HOST_SNOOP (R388): a miss and no data, since no line is kept. -/
def execHostSnoop (addr : Word64) (s : State) : Host.Outcome State Fault Refusal :=
  .next (if s.hostUp then s.modHost fun h => { h with snoopAnswer := some addr } else s)

end Sys2Proof.Machine
end

