-- ==== Sys2Proof/Machine/TableOps.lean ====
section
/-! DEFINITION. Embedding tables as a device reads and builds them (R298 to R301, R304, R305, R308, R309, R311 to R315): headers and
version roots, page maps and hot directories, the row cache with its sketch, and the version under construction. -/

namespace Sys2Proof.Machine

/-! ### Headers and version roots (R298, R300) -/

def tblId (h : Words) : Nat := bits (word h 0) 47 32
def tblFormat (h : Words) : Nat := bits (word h 0) 31 24
def tblRowLog2 (h : Words) : Nat := bits (word h 0) 23 20
def tblSharded (h : Words) : Bool := bits (word h 0) 19 18 = 1
def tblDepth (h : Words) : Nat := bits (word h 0) 17 15
def tblRows (h : Words) : Nat := bits (word h 1) 63 29
def tblDim (h : Words) : Nat := bits (word h 1) 15 0
def tblHotHome (h : Words) : Nat := bits (word h 2) 63 50
def tblShards (h : Words) : Nat := bits (word h 2) 35 24
def tblShardMap (h : Words) : Nat := (word h 3).toNat
def tblHead (h : Words) : Nat := (word h 4).toNat
def tblRowBytes (h : Words) : Nat := 2 ^ tblRowLog2 h
/-- R of R299: the rows of a page. -/
def tblPer (h : Words) : Nat := 4096 / tblRowBytes h

def tvrVersion (r : Words) : Nat := bits (word r 0) 31 0
def tvrPrev (r : Words) : Nat := (word r 1).toNat
def tvrMap (r : Words) : Nat := (word r 2).toNat
def tvrReplica (r : Words) : Nat := (word r 3).toNat
def tvrHotDir (r : Words) : Nat := (word r 4).toNat
def tvrHotCount (r : Words) : Nat := bits (word r 5) 63 32
def tvrDefault (r : Words) : Nat := (word r 6).toNat
def tvrRelease (r : Words) : Nat := (word r 7).toNat
def tvrReleaseCount (r : Words) : Nat := bits (word r 8) 63 32
def tvrReplaces (r : Words) : Bool := bit (word r 8) 31

/-- The header keeps R298 and R301. -/
def tblOk (h : Words) : Bool :=
  let size := tblRows h * tblRowBytes h
  bits (word h 0) 63 48 = 0xC && (formatOf (tblFormat h)).isSome && 6 ≤ tblRowLog2 h && tblRowLog2 h ≤ 12 &&
  bits (word h 0) 19 18 ≤ 1 && 1 ≤ tblDepth h && tblDepth h ≤ 4 && rsvd (word h 0) 14 0 && 1 ≤ tblRows h && tblRows h ≤ 2 ^ 34 &&
  rsvd (word h 1) 28 16 && vecBytes (tblFormat h) (tblDim h) ≤ tblRowBytes h && rsvd (word h 2) 49 36 && rsvd (word h 2) 23 0 &&
  (tblShards h ≠ 0) == tblSharded h && (size ≤ 2 ^ 28) == !tblSharded h &&
  tblHead h % 8 = 0 && word h 5 = 0 && word h 6 = 0 && word h 7 = 0

/-- An offset is 0 or a page's. -/
def pageOrNone (off : Nat) : Bool := off = 0 || (localOk off && off % 4096 = 0)

/-- The root keeps R300 and the bound of R301 on the hot set. -/
def rootOk (h r : Words) : Bool :=
  verType r = 0xD && rsvd (word r 0) 47 32 && rsvd (word r 5) 31 0 && rsvd (word r 8) 30 0 &&
  ((List.range 7).all fun i => word r (9 + i) = 0) && pageOrNone (tvrMap r) && pageOrNone (tvrReplica r) &&
  pageOrNone (tvrDefault r) && (tvrHotDir r = 0 || localOk (tvrHotDir r)) && (tvrRelease r = 0 || localOk (tvrRelease r)) &&
  tvrHotCount r * tblRowBytes h ≤ 2 ^ 28

/-- The header of a table slot, as its start read it (log 14), and the value of its head word. -/
def State.tblHeadOf (s : State) (n : Nat) : Words := (s.tableSlot n).head
def State.rootNow (s : State) (h : Words) : Nat := (peekWord s (tblHead h)).toNat

/-- A slot whose table this device serves. -/
def State.tableUp (s : State) (n : Nat) : Bool :=
  n < 64 && ((s.tableSlot n).fn = .ready || (s.tableSlot n).fn = .draining)

/-- The shard home of a page group (R299); the one home of a replicated table. -/
def State.homeOf (s : State) (n g : Nat) : Nat :=
  let h := s.tblHeadOf n
  if tblSharded h then (s.tableSlot n).shards.getD (hashH g % tblShards h) 0 else tblHotHome h

/-- The devices of the shard map, in ascending order. -/
def State.shardDevices (s : State) (n : Nat) : List Nat := devicesOf (s.tableSlot n).shards

/-! ### Table descriptors (R303) -/

/-- The table slot that a table descriptor names. -/
def dTable (d : Words) : Nat := bits (word d 1) 63 58
def tdPool (d : Words) : Nat := bits (word d 1) 57 56
def tdWeighted (d : Words) : Bool := bit (word d 1) 55
def tdExplicit (d : Words) : Bool := bit (word d 1) 54
def tdAdd (d : Words) : Bool := bit (word d 1) 53
def tdIndexAddr (d : Words) : Nat := (word d 2).toNat
def tdOffsetsAddr (d : Words) : Nat := (word d 3).toNat
def tdVersion (d : Words) : Nat := bits (word d 4) 63 32
def tdIndices (d : Words) : Nat := bits (word d 5) 63 32
def tdBags (d : Words) : Nat := bits (word d 5) 31 0
def tdWeightsAddr (d : Words) : Nat := (word d 6).toNat
def tdValuesAddr (d : Words) : Nat := (word d 7).toNat
def opGather : Nat := 0x10
def opUpdate : Nat := 0x11
def opPromote : Nat := 0x12
def opDemote : Nat := 0x13

/-- Admitted table commands of a slot. -/
def State.tableUsers (s : State) (n : Nat) : Nat :=
  (s.slots.filter fun e => liveState e.2.status && 0x10 ≤ dOpcode e.2.desc && dTable e.2.desc = n).length

/-- TABLE_OLDEST_HELD (R304): versions that live gathers admitted here hold; reads served for others end at once. -/
def State.tableHeld (s : State) (n : Nat) : Nat :=
  (lowest (s.slots.filterMap fun e =>
    if liveState e.2.status && dOpcode e.2.desc = opGather && dTable e.2.desc = n then some e.2.tableVersion.toNat else none)).getD 0xFFFFFFFF

/-! ### Page maps (R300) -/

/-- The page of number g under a map page of d levels, with the map entries read on the way. -/
def mapFind (s : State) (g : Nat) : Nat → Nat → List Nat → Option Nat × List Nat
  | 0, p, read => (if p = 0 then none else some p, read)
  | d + 1, p, read =>
    if p = 0 then (none, read)
    else
      let e := p + 8 * (g / 512 ^ d % 512)
      mapFind s g d (peekWord s e).toNat (read ++ [e])

/-- The pages that a map of d levels names, its own among them. -/
def mapPages (s : State) : Nat → Nat → List Nat
  | 0, p => if p = 0 then [] else [p]
  | d + 1, p => if p = 0 then [] else p :: (peekWords s p 512).flatMap fun w => mapPages s d w.toNat

/-- The hot directory of a root, as (row, hot slot) pairs (R300). -/
def hotDir (s : State) (r : Words) : List (Nat × Nat) :=
  if tvrHotDir r = 0 then []
  else (List.range (tvrHotCount r)).map fun i =>
    ((peekWord s (tvrHotDir r + 16 * i)).toNat, bits (peekWord s (tvrHotDir r + 16 * i + 8)) 31 0)

/-- Where the hot directory lies. -/
def hotRange (r : Words) : Nat × Nat := (tvrHotDir r, if tvrHotDir r = 0 then 0 else 16 * tvrHotCount r)

def hotSlotOf (dir : List (Nat × Nat)) (row : Nat) : Option Nat := (dir.find? fun e => e.1 = row).map Prod.snd

/-- The page number and the map root in which a row is found in a version: in the replica when it is hot or the table is
replicated, else in the shard. -/
def rowPlace (h r : Words) (dir : List (Nat × Nat)) (row : Nat) : Nat × Nat × Nat :=
  match hotSlotOf dir row with
  | some k => (tvrReplica r, k / tblPer h, k % tblPer h)
  | none => (if tblSharded h then tvrMap r else tvrReplica r, row / tblPer h, row % tblPer h)

/-- The bytes of a row in a version, absent pages as zeros; for building the next version. -/
def rowBytesAt (s : State) (h r : Words) (dir : List (Nat × Nat)) (row : Nat) : Bytes :=
  let (m, g, k) := rowPlace h r dir row
  match (mapFind s g (tblDepth h) m []).1 with
  | some p => (peek s (p + k * tblRowBytes h) (tblRowBytes h)).data
  | none => zeros (tblRowBytes h)

/-! ### The row cache (R308, R309) -/

def modTableE (f : TableEntries → TableEntries) (s : State) : State := { s with tableE := f s.tableE }

/-- The multipliers K_j. -/
def cmsK : Nat → Nat
  | 0 => 0x9E3779B9 | 1 => 0x85EBCA6B | 2 => 0xC2B2AE35 | _ => 0x27D4EB2F
/-- C_j(x), as the key of the counter in sketch row j. -/
def cmsKey (j x : Nat) : Nat := 32768 * j + ((x % 2 ^ 32 ^^^ x / 2 ^ 32) * cmsK j) % 2 ^ 32 / 2 ^ 17

def cmsAdd (x : Nat) (t : Table Nat) : Table Nat := (List.range 4).foldl (fun t j => tmod 0 t (cmsKey j x) fun c => min 255 (c + 1)) t
def cmsEst (x : Nat) (t : Table Nat) : Nat := (List.range 4).foldl (fun m j => min m (tget 0 t (cmsKey j x))) 255

/-- Every counter halved. -/
def cmsHalve (t : Stack) : Stack := { t with cms := tmap 0 (fun _ c => c / 2) t.cms, lookups := 0 }

/-- The ways of a set, by their index in the cache. -/
def waysOf (x : Nat) : List Nat := (List.range 8).map (8 * (hashH x % 2048) + ·)

/-- The way that admits a missed row, if one does: the first invalid one, else the one with the lowest estimate when the row's
own exceeds it. -/
def victim (t : Stack) (x : Nat) : Option Nat :=
  let est := fun w => cmsEst ((tget {} t.ways w).key / 64) t.cms
  match (waysOf x).find? fun w => !(tget {} t.ways w).valid with
  | some w => some w
  | none =>
    let low := (waysOf x).foldl (fun b w => if est w < est b then w else b) (8 * (hashH x % 2048))
    if est low < cmsEst x t.cms then some low else none

/-- A record of HOT_CANDIDATES, over the oldest (R309). -/
def noteHot (slot row : Nat) (s : State) : State :=
  modTableE (fun e => { e with
    hotCands := e.hotCands.set e.hotNext (field 58 slot ||| field 0 (row % 2 ^ 34)), hotNext := (e.hotNext + 1) % 16 }) s

/-- A counted look-up of a row: its sketch counters rise, after a halving that is due (R308, R309). -/
def cmsCount (slot row off : Nat) (s : State) : State :=
  let x := off / 64
  let due := fun t : Stack => if s.tableE.cmsDecay.toNat ≤ t.lookups then cmsHalve t else t
  let before := cmsEst x (due (s.stack (stackOf off))).cms
  let s := s.modStack (stackOf off) fun t => { due t with cms := cmsAdd x (due t).cms, lookups := (due t).lookups + 1 }
  if before < s.tableE.hotThreshold ∧ s.tableE.hotThreshold ≤ cmsEst x (s.stack (stackOf off)).cms then noteHot slot row s else s

/-- A row read through its island's row cache (R305, R308, R309): its bytes and their poison mark. -/
def cacheRead (slot row tenant off n : Nat) (s : State) : (Bytes × Bool) × State :=
  let isl := idMemory (stackOf off)
  let attr : EvAttr := { engine := some 5, tenant := some tenant, cmd := some 11 }
  let r := peek s off n
  let raw := touch [(off, n)] s
  if 1024 < n then ((r.data, r.poison), modTableE (fun e => { e with cacheBypass := e.cacheBypass + 1 }) raw)
  else
    let s := cmsCount slot row off s
    match (waysOf (off / 64)).find? fun w => (tget {} (s.stack (stackOf off)).ways w).valid && (tget {} (s.stack (stackOf off)).ways w).key == off with
    | some w =>
      let way := tget {} (s.stack (stackOf off)).ways w
      ((fit n way.data, way.poison),
       countEv isl 3 4 1 attr (modTableE (fun e => { e with cacheHits := e.cacheHits + 1 }) s))
    | none =>
      let s := countEv isl 3 5 1 attr (modTableE (fun e => { e with cacheMisses := e.cacheMisses + 1 }) (touch [(off, n)] s))
      let keep := if (s.page (pageNo off)).kind.written then victim (s.stack (stackOf off)) (off / 64) else none
      ((r.data, r.poison), match keep with
        | some w => s.modStack (stackOf off) fun t => { t with ways := tset {} t.ways w ⟨true, off, r.data, r.poison⟩ }
        | none => s)

/-! ### Reading rows at a version (R304, R305) -/

/-- The first code of some ranges that a read of them meets. -/
def firstCode (s : State) (ranges : List (Nat × Nat)) : Word16 :=
  ((ranges.map fun r => rangeCode s r.1 r.2).find? (· ≠ 0)).getD 0

/-- The walk of R77 from a table's head word, and the ranges that it reads. -/
def rootWalk (s : State) (n v : Nat) : Walk × List (Nat × Nat) :=
  let h := s.tblHeadOf n
  let w := walk s (s.rootNow h) v
  (w, (tblHead h, 8) :: w.read.map fun r => (r, 128))

/-- The root of a table at a version: its offset (0 for none), or the code of a failure. -/
def rootAt (s : State) (n v : Nat) : Nat × Word16 :=
  if v < (s.tableSlot n).floor.toNat then (0, 0x341)
  else
    let (w, reads) := rootWalk s n v
    let code := firstCode s reads
    if code ≠ 0 then (0, code) else if w.broken then (0, 0x340) else (w.version.getD 0, 0)

/-- What the walk of a root reads, counted. -/
def touchRoot (n v : Nat) (s : State) : State := touch (rootWalk s n v).2 s

/-- The words of a root; a version without one has an empty map. -/
def rootWords (s : State) (r : Nat) : Words := if r = 0 then [] else recW s r 16

/-- What a read of a row delivered. -/
structure RowOut where
  value  : Bytes
  absent : Bool
  poison : Bool
  code   : Word16
  deriving DecidableEq, Repr

/-- A row read in the page that a map names. -/
def readTableRow (n row tenant : Nat) (h : Words) (place : Nat × Nat × Nat) (s : State) : RowOut × State :=
  let len := tblRowBytes h
  let (found, path) := mapFind s place.2.1 (tblDepth h) place.1 []
  let bad := path.any fun e => (peek s e 8).poison
  let lost := (path.map fun e => (peek s e 8).code).find? (· ≠ 0)
  let s := touch (path.map fun e => (e, 8)) s
  match lost, found with
  | some code, _ => (⟨zeros len, false, false, code⟩, s)
  | none, none => (⟨zeros len, true, bad, 0⟩, s)
  | none, some p =>
    let off := p + place.2.2 * len
    let code := (peek s off len).code
    if code ≠ 0 then (⟨zeros len, false, false, code⟩, s)
    else
      let ((bs, poison), s) := cacheRead n row tenant off len s
      (⟨bs, false, bad || poison, 0⟩, s)

/-- The default row of a root. -/
def readDefault (h r : Words) (s : State) : RowOut × State :=
  let len := tblRowBytes h
  if r = [] then (⟨zeros len, true, false, 0⟩, s)
  else
    let x := peek s (tvrDefault r) len
    (⟨x.data, false, x.poison, x.code⟩, touch [(tvrDefault r, len)] s)

/-- Several rows read in turn. -/
def readTableRows (n tenant : Nat) (h : Words) (place : Nat → Nat × Nat × Nat) : List Nat → State → List RowOut × State
  | [], s => ([], s)
  | row :: l, s =>
    let (o, s) := readTableRow n row tenant h (place row) s
    let (os, s) := readTableRows n tenant h place l s
    (o :: os, s)

/-! ### Writing a version (R311, R312) -/

/-- The first page from the base of the head's stack from which k pages are free and outside the intake region: where a version
under construction puts its pages. -/
def State.freeRun (s : State) (stack k : Nat) : Option Nat :=
  let base := stack * 2 ^ 24
  let taken := fun p => p = 0 || (s.page p).kind ≠ .free || s.inIntake (4096 * p) || s.copying p
  let ends := (s.pageMap.map fun e => e.1 + 1) ++ [base, base + 1, s.hbm.intakeBase.toNat / 4096 + 2 ^ 22]
  let fits := fun c => base ≤ c && c + k ≤ base + 0xF80000 && (List.range k).all fun i => !taken (c + i)
  lowest (ends.filter fits)

/-- Whole pages written to fresh places, one after the other: the offset of the first (0 when there is no place). -/
def writeFresh (stack : Nat) (pages : List Bytes) (s : State) : Nat × State :=
  match s.freeRun stack pages.length with
  | none => (0, s)
  | some p => (4096 * p, (pages.zipIdx).foldl (fun s (bs, i) => writePage (p + i) false bs s) s)

/-- What a rewrite of map paths has produced. -/
structure Rewrite where
  owned   : List Nat
  release : List Nat
  state   : State

/-- A page takes another's place: the old one is freed when the same version wrote it, else it is superseded (R311). Without a free page
the old one stays (log 28). -/
def replacePage (stack old : Nat) (data : Bytes) (w : Rewrite) : Nat × Rewrite :=
  let mine := w.owned.contains old
  let s := if mine then freePage (pageNo old) w.state else w.state
  let (p, s) := writeFresh stack [data] s
  if p = 0 then (old, w)
  else (p, { owned := (if mine then w.owned.erase old else w.owned) ++ [p]
             release := if mine || old = 0 then w.release else w.release ++ [old], state := s })

/-- A map of d levels with the pages of some numbers replaced by new bytes: the place of its top page. A map page that cannot be read clean
stays as it is (R259, R263). -/
def rewriteMap (stack : Nat) : Nat → Nat → List (Nat × Bytes) → Rewrite → Nat × Rewrite
  | 0, old, es, w =>
    match es with
    | [] => (old, w)
    | e :: _ => replacePage stack old e.2 w
  | d + 1, old, es, w =>
    if es = [] ∨ (old ≠ 0 ∧ rangeCode w.state old 4096 ≠ 0) then (old, w)
    else
      let was : Words := if old = 0 then List.replicate 512 0 else peekWords w.state old 512
      let ks := dedupBy id (es.map fun e => e.1 / 512 ^ d % 512)
      let (now, w) := ks.foldl (fun (a : Words × Rewrite) k =>
        let (p, w) := rewriteMap stack d (word a.1 k).toNat (es.filter fun e => e.1 / 512 ^ d % 512 = k) a.2
        (a.1.set k (BitVec.ofNat 64 p), w)) (was, w)
      replacePage stack old (bytesOf now) w

/-- What a read of a page in a map, with the map entries on the way, meets: 0, or its first code. -/
def placeCode (s : State) (h : Words) (top g : Nat) : Word16 :=
  let (found, path) := mapFind s g (tblDepth h) top []
  firstCode s (path.map (fun e => (e, 8)) ++ match found with | some p => [(p, 4096)] | none => [])

/-- A page's bytes with some rows replaced. -/
def putRows (h : Words) (page : Bytes) (rows : List (Nat × Bytes)) : Bytes :=
  let len := tblRowBytes h
  rows.foldl (fun p e => p.take (e.1 * len) ++ fit len e.2 ++ p.drop (e.1 * len + len)) (fit 4096 page)

/-- The pages of a map with some rows, keyed by row number in it, replaced; a page that cannot be read clean is never written anew (R259,
R263). -/
def pagesWith (s : State) (h : Words) (top : Nat) (rows : List (Nat × Bytes)) : List (Nat × Bytes) :=
  ((dedupBy id (rows.map fun e => e.1 / tblPer h)).filter fun g => placeCode s h top g = 0).map fun g =>
    let was := match (mapFind s g (tblDepth h) top []).1 with | some p => (peek s p 4096).data | none => zeros 4096
    (g, putRows h was ((rows.filter fun e => e.1 / tblPer h = g).map fun e => (e.1 % tblPer h, e.2)))

/-- The shard pages of the version under construction, written for the rows that a command changed (R311). -/
def writeShard (n : Nat) (rows : List Nat) (s : State) : State :=
  let b := (s.tableSlot n).pend
  let h := s.tblHeadOf n
  let top := b.map.getD (tvrMap (rootWords s (s.rootNow h)))
  let es := (b.rows.filter fun e => rows.contains e.1)
  let pages := pagesWith s h top es
  let (p, w) := rewriteMap (stackOf (tblHead h)) (tblDepth h) top pages ⟨b.owned, b.release, s⟩
  if pages = [] then s
  else w.state.modTable n fun t => { t with pend := { t.pend with map := some p, owned := w.owned, release := w.release } }

end Sys2Proof.Machine
end

