-- ==== Sys2Proof/Machine/TableBuild.lean ====
section
/-! DEFINITION. The version under construction at the homes of a table (R310 to R316): applying commits, migrations, seals, the switch
to a new root, installs, advances and floors. -/

namespace Sys2Proof.Machine

/-! ### Table messages (R335) -/

def TableAct.code : TableAct → Nat
  | .replace => 0 | .add => 1 | .promote => 2 | .demote => 3
def actOf : Nat → TableAct
  | 0 => .replace | 1 => .add | 2 => .promote | _ => .demote

/-- Word 1 of a table message: the device, the table slot, what is done, and a version. -/
def tmW1 (s : State) (n : Nat) (act : TableAct) (version : Nat) : Word64 :=
  msgW1 s.deviceId (n % 64 + act.code * 2 ^ 8 + version % 2 ^ 32 * 2 ^ 10)
def tmSlot (b : Words) : Nat := bits (word b 1) 5 0
def tmAct (b : Words) : TableAct := actOf (bits (word b 1) 9 8)
def tmVersion (b : Words) : Nat := bits (word b 1) 41 10
def tmCode (b : Words) : Word16 := BitVec.ofNat 16 (bits (word b 1) 15 0)

/-- A table message leaves in SYS_TCLASS; one without a route is lost. -/
def sendTable (dst : Nat) (body : Words) (reply : Bool) (s : State) : State := (sendMsg dst body reply s.sysClass 0 false idHub s).2

/-- A row's value as words. -/
def rowWords (bs : Bytes) : Words := wordsOf (bs.length / 8) bs

/-! ### Values (R311) -/

/-- A row after an update: replaced, or each element widened, added to and narrowed with SAT. -/
def updated (h : Words) (act : TableAct) (value old : Bytes) : Bytes :=
  match act with
  | .add =>
    let vs := (u32s (tblDim h) value).map (BitVec.ofNat 32)
    let new := narrowVec (tblFormat h) (List.zipWith fadd (vecF32 (tblFormat h) (tblDim h) old) vs)
    new ++ (fit (tblRowBytes h) old).drop new.length
  | _ => fit (tblRowBytes h) value

/-- The version that a commit arriving now changes (R312). -/
def TableSlot.tagNow (t : TableSlot) : Nat := match t.marked with | some v => v + 1 | none => t.built + 1

def modPend (n : Nat) (late : Bool) (f : Build → Build) (s : State) : State :=
  s.modTable n fun t => if late then { t with next := f t.next } else { t with pend := f t.pend }

/-- A version tag belongs to the version after the pending one. -/
def State.late (s : State) (n tag : Nat) : Bool := (s.tableSlot n).built + 1 < tag

/-- What a read of what the version under construction rests on meets: the head word, the root and the hot directory (R263, R270). -/
def baseCode (s : State) (n : Nat) : Word16 :=
  let h := s.tblHeadOf n
  let root := s.rootNow h
  let r := rootWords s root
  firstCode s ((tblHead h, 8) :: if root = 0 then [] else [(root, 128), hotRange r])

/-- What a read of a row's newest value meets, where it is not in a version under construction. -/
def rowCode (s : State) (n : Nat) (h : Words) (row : Nat) : Word16 :=
  let r := rootWords s (s.rootNow h)
  let place := rowPlace h r (hotDir s r) row
  if baseCode s n ≠ 0 then baseCode s n else placeCode s h place.1 place.2.1

/-- The hot directory as a version under construction has it. -/
def dirNow (s : State) (n : Nat) (h : Words) (late : Bool) : List (Nat × Nat) :=
  let t := s.tableSlot n
  let step := fun (b : Build) (d : List (Nat × Nat)) => (d.filter fun e => !b.hotDel.contains e.1) ++ b.hotAdd
  let d := step t.pend (hotDir s (rootWords s (s.rootNow h)))
  if late then step t.next d else d

/-- The newest value of a shard row or a hot row, in the versions under construction up to a tag's, else in the root. -/
def rowNow (s : State) (n : Nat) (h : Words) (hot late : Bool) (row : Nat) : Bytes :=
  let t := s.tableSlot n
  let pick := fun b : Build => tget [] (if hot then b.hot else b.rows) row
  let r := rootWords s (s.rootNow h)
  let base := rowBytesAt s h r (if hot then hotDir s r else []) row
  if late && pick t.next ≠ [] then pick t.next else if pick t.pend ≠ [] then pick t.pend else base

def putRow (n tag row : Nat) (hot : Bool) (v : Bytes) (s : State) : State :=
  modPend n (s.late n tag) (fun b => if hot then { b with hot := tset [] b.hot row v } else { b with rows := tset [] b.rows row v }) s

def countRow (s : State) : State := modTableE (fun e => { e with rowUpdates := e.rowUpdates + 1 }) s
def countMigration (s : State) : State := modTableE (fun e => { e with migrations := e.migrations + 1 }) s

/-! ### Rows and their migration at the shard home (R315) -/

/-- A row's migration state. -/
def State.migOf (s : State) (n row : Nat) : MigRow :=
  let m := tget {} (s.tableSlot n).moving row
  let h := s.tblHeadOf n
  if m.listed then m
  else { listed := true, mig := if (hotSlotOf (hotDir s (rootWords s (s.rootNow h))) row).isSome then .forwarded else .homed }

def setMig (n row : Nat) (m : MigRow) (s : State) : State := s.modTable n fun t => { t with moving := tset {} t.moving row m }

/-- An update, promotion or demotion of one row applied in its turn at its home, for a version. -/
def applyRow (n tag row : Nat) (act : TableAct) (value : Bytes) (s : State) : State :=
  let h := s.tblHeadOf n
  let m := s.migOf n row
  let forward := fun m : MigRow => sendTable (tblHotHome h) (msgW0 9 0 0 :: tmW1 s n act tag :: BitVec.ofNat 64 row :: rowWords value) false
    (setMig n row { m with unacked := m.unacked ++ [tag] } s)
  if !tblSharded h then
    if act = .promote ∨ act = .demote then s
    else countRow (putRow n tag row true (updated h act value (rowNow s n h true (s.late n tag) row)) s)
  else match m.mig, act with
    | .migrating, _ => setMig n row { m with queue := m.queue ++ [(act, value, tag)] } s
    | .homed, .promote =>
      sendTable (tblHotHome h) (msgW0 8 0 0 :: tmW1 s n act tag :: BitVec.ofNat 64 row :: rowWords (rowNow s n h false (s.late n tag) row)) false
        (setMig n row { m with mig := .migrating, demote := false, version := tag } s)
    | .homed, .demote => s
    | .homed, _ => countRow (putRow n tag row false (updated h act value (rowNow s n h false (s.late n tag) row)) s)
    | .forwarded, .promote => s
    | .forwarded, .demote => forward { m with mig := .migrating, demote := true, version := tag }
    | .forwarded, _ => forward m

/-- The barrier of a row falls: what is queued behind it applies in its order, with the versions it was tagged with. -/
def lowerBarrier (n row : Nat) (mig : Mig) (s : State) : State :=
  let m := s.migOf n row
  let s := countMigration (setMig n row { m with mig := mig, queue := [] } s)
  writeShard n [row] (m.queue.foldl (fun s q => applyRow n q.2.2 row q.1 q.2.1 s) s)

/-- This home has nothing of version v left to move or to have applied elsewhere (R312, step 3). -/
def TableSlot.settled (t : TableSlot) (v : Nat) : Bool :=
  t.moving.all fun e => !(e.2.mig = .migrating && e.2.version ≤ v) && e.2.queue.all (fun q => v < q.2.2) && e.2.unacked.all (fun u => v < u)

/-- The report to the hot home, once. -/
def tryReport (n : Nat) (s : State) : State :=
  let t := s.tableSlot n
  match t.marked with
  | some v =>
    if !t.reported && t.settled v then
      sendTable (tblHotHome (s.tblHeadOf n)) [msgW0 0x86 0 0, tmW1 s n .replace 0, BitVec.ofNat 64 v] true
        (s.modTable n fun t => { t with reported := true })
    else s
  | none => s

/-- A forwarded row is acknowledged by the hot home. -/
def forwardAcked (n row version : Nat) (s : State) : State :=
  let m := s.migOf n row
  tryReport n (setMig n row { m with unacked := m.unacked.erase version } s)

/-! ### The hot home (R315) -/

/-- The lowest hot slot that neither version under construction uses. -/
def freeSlotOf (used : List Nat) : Nat := ((List.range (used.length + 1)).find? fun k => !used.contains k).getD 0

/-- A promoted row arrives: it gets a hot slot in its version, and its value. -/
def addHot (n tag row : Nat) (value : Bytes) (s : State) : State :=
  let h := s.tblHeadOf n
  let late := s.late n tag
  let used := (dirNow s n h false ++ dirNow s n h true).map Prod.snd
  if (hotSlotOf (dirNow s n h late) row).isSome then s
  else putRow n tag row true value (modPend n late (fun b => { b with hotAdd := b.hotAdd ++ [(row, freeSlotOf used)] }) s)

/-- A demoted row leaves the hot directory of its version; its newest value. -/
def removeHot (n tag row : Nat) (s : State) : Bytes × State :=
  let h := s.tblHeadOf n
  let late := s.late n tag
  (rowNow s n h true late row, modPend n late (fun b =>
    { b with hotAdd := b.hotAdd.filter fun e => e.1 ≠ row
             hotDel := if b.hotDel.contains row then b.hotDel else b.hotDel ++ [row]
             hot := tset [] b.hot row [] }) s)

/-! ### Sealing (R312) -/

/-- The replica pages changed in the pending version, by page number. -/
def replicaChanges (s : State) (n : Nat) : List (Nat × Bytes) :=
  let h := s.tblHeadOf n
  let dir := dirNow s n h false
  let rows := (s.tableSlot n).pend.hot.filterMap fun e =>
    if tblSharded h then (hotSlotOf dir e.1).map fun k => (k, e.2) else some (e.1, e.2)
  pagesWith s h (tvrReplica (rootWords s (s.rootNow h))) rows

/-- Devices a packet reaches from here, this one among them (R326, R327). -/
def State.reachable (s : State) : List Nat :=
  s.deviceId :: if s.fabric.routed then (s.fabric.routes.map Prod.fst).filter fun d => s.routeLinks d ≠ [] else []

/-- Some replica page that v changes cannot be read clean, so v cannot be built (R259, R263). -/
def replicaStuck (s : State) (n : Nat) : Bool :=
  let h := s.tblHeadOf n
  let dir := dirNow s n h false
  baseCode s n ≠ 0 || (s.tableSlot n).pend.hot.any fun e =>
    match if tblSharded h then hotSlotOf dir e.1 else some e.1 with
    | some k => placeCode s h (tvrReplica (rootWords s (s.rootNow h))) (k / tblPer h) ≠ 0
    | none => false

/-- The hot home broadcasts the replica pages of v to every device (R312, step 4; R337). DESIGN CHOICE (log 28): with a replica page that
cannot be read clean it does not, and TABLE_CODE takes 0311h. -/
def broadcastReplica (n v : Nat) (s : State) : State :=
  let h := s.tblHeadOf n
  let b := (s.tableSlot n).pend
  let pages := replicaChanges s n
  let dir := sortBy (fun a b => a.1 ≤ b.1) (dirNow s n h false)
  let moved := b.hotAdd ≠ [] || b.hotDel ≠ []
  let body := [msgW0 7 0 0, tmW1 s n .replace 0, BitVec.ofNat 64 v,
      field 32 pages.length ||| field 1 (if moved then dir.length else 0) ||| field 0 moved.toNat] ++
    (pages.flatMap fun e => BitVec.ofNat 64 e.1 :: wordsOf 512 e.2) ++
    (if moved then dir.flatMap fun e => [BitVec.ofNat 64 e.1, BitVec.ofNat 64 e.2] else [])
  let devs := devicesOf (s.shardDevices n ++ s.reachable)
  if replicaStuck s n then s.modTable n fun t => { t with code := 0x311 }
  else devs.foldl (fun s d => sendTable d body false s) (s.modTable n fun t => { t with switched := devs })

/-- TABLE_SEALED changes (event kind 4). -/
def noteSealed (n v : Nat) (s : State) : State :=
  raiseEvent 4 0x4509 (BitVec.ofNat 8 (n + 1)) v (s.modTable n fun t => { t with sealed := BitVec.ofNat 32 v })

def tableCode (n : Nat) (code : Word16) (s : State) : State := s.modTable n fun t => { t with code := code }

/-- TABLE_SEAL's effect (R312): its code. -/
def sealTable (n v : Nat) (s : State) : Word16 × State :=
  let t := s.tableSlot n
  let h := s.tblHeadOf n
  if !s.tableUp n ∨ tblHotHome h ≠ s.deviceId ∨ v ≠ t.sealed.toNat + 1 ∨ t.sealing.isSome then (0x346, tableCode n 0x346 s)
  else
    let devs := if tblSharded h then s.shardDevices n else []
    let s := tableCode n 0 (s.modTable n fun t => { t with sealing := some v, reports := devs })
    if devs = [] then (0, broadcastReplica n v (s.modTable n fun t => { t with marked := some v, reported := true }))
    else (0, devs.foldl (fun s d => sendTable d [msgW0 6 0 0, tmW1 s n .replace 0, BitVec.ofNat 64 v] false s) s)

/-- The words of a new root. -/
def newRoot (r : Words) (v old map replica dir dirCount release releases : Nat) : Words :=
  [field 48 0xD ||| field 0 (v % 2 ^ 32), BitVec.ofNat 64 old, BitVec.ofNat 64 map, BitVec.ofNat 64 replica, BitVec.ofNat 64 dir,
   field 32 dirCount, word r 6, BitVec.ofNat 64 release, field 32 releases, 0, 0, 0, 0, 0, 0, 0]

/-- Pages of a contiguous array. -/
def arrayPages (off n : Nat) : List Nat := if n = 0 ∨ off = 0 then [] else (List.range (ceilDiv (off % 4096 + n) 4096)).map (off / 4096 * 4096 + 4096 * ·)

/-- A record array written to fresh pages. -/
def writeArray (stack : Nat) (bs : Bytes) (s : State) : Nat × State :=
  if bs = [] then (0, s) else writeFresh stack (chunks 4096 (bs.length / 4096 + 1) bs) s

/-- The copy of the page of an offset to a spare page ends ahead of a write to it (R270). -/
def awaitCopy (off : Nat) (s : State) : State := if s.copying (pageNo off) then endHingeCopy s else s

/-- The switch of TBL.HEAD to the root of v, made of this device's pages and the changed replica pages (R312, step 5); the rows
committed since the seal mark are then the pending version's. A head word or root that cannot be read clean is never written anew, and
TABLE_CODE takes 0311h (R259; DESIGN CHOICE, log 28), as it takes 0310h where no page is free for the root. -/
def switchTable (n v : Nat) (pages : List (Nat × Bytes)) (dir : Option (List (Nat × Nat))) (s : State) : State :=
  let was := awaitCopy (tblHead (s.tblHeadOf n)) s
  let h := was.tblHeadOf n
  let b := (was.tableSlot n).pend
  let stack := stackOf (tblHead h)
  let old := was.rootNow h
  let r := rootWords was old
  let (replica, w) := rewriteMap stack (tblDepth h) (tvrReplica r) pages ⟨[], b.release, was⟩
  let (dirOff, dirCount, gone, s) := match dir with
    | none => (tvrHotDir r, tvrHotCount r, [], w.state)
    | some d =>
      let (off, s) := writeArray stack (bytesOf (d.flatMap fun e => [BitVec.ofNat 64 e.1, BitVec.ofNat 64 e.2])) w.state
      (off, d.length, arrayPages (tvrHotDir r) (16 * tvrHotCount r), s)
  let release := w.release ++ gone
  let (relOff, s) := writeArray stack (bytesOf (release.map (BitVec.ofNat 64 ·))) s
  let (root, s) := writeFresh stack [bytesOf (newRoot r v old (b.map.getD (tvrMap r)) replica dirOff dirCount relOff release.length)] s
  if baseCode was n ≠ 0 then tableCode n 0x311 was
  else if root = 0 then tableCode n 0x310 was
  else
    let s := rewriteIn was (tblHead h) (leBytes 8 root) s
    let s := s.modTable n fun t => { t with built := v, pend := t.next, next := {}, marked := none, reported := false }
    writeShard n ((s.tableSlot n).pend.rows.map Prod.fst) (if tblHotHome h = s.deviceId then s else noteSealed n v s)

/-! ### Enabling, advancing, installing, floors (R301, R313, R314) -/

/-- The checks of a table's start (R301, R486). -/
def tableCheck (n : Nat) (s : State) : Word16 :=
  let off := (s.tableSlot n).desc.toNat
  let h := recW s off 8
  let root := s.rootNow h
  if !readable s off 64 then 0x311
  else if off % 64 ≠ 0 ∨ !tblOk h then 0x340
  else if !readable s (tblHead h) 8 ∨ (tblSharded h && !readable s (tblShardMap h) (2 * tblShards h)) then 0x311
  else if !s.pointerAt (tblHead h) then 0x340
  else if !readable s root 128 then 0x311
  else if root % 4096 ≠ 0 ∨ !rootOk h (recW s root 16) then 0x340 else 0

/-- The header and the shard map of a slot, as a start reads them. -/
def readTable (n : Nat) (s : State) : State :=
  let off := (s.tableSlot n).desc.toNat
  let h := recW s off 8
  let map := (tblShardMap h, if tblSharded h then 2 * tblShards h else 0)
  s.modTable n fun t =>
    { t with head := h, shards := (u16s (map.2 / 2) (peek s map.1 map.2).data).map (· % 2 ^ 14) }

/-- What those checks read. -/
def tableReads (n : Nat) (s : State) : List (Nat × Nat) :=
  let off := (s.tableSlot n).desc.toNat
  let h := recW s off 8
  (off, 64) :: if readable s off 64 && tblOk h then
      [(tblShardMap h, if tblSharded h then 2 * tblShards h else 0), (tblHead h, 8), (s.rootNow h, 128)] else []

/-- A table slot starts: its checks end at once. -/
def startTable (n : Nat) (s : State) : State :=
  let s := setTableFn n .starting s
  let code := tableCheck n s
  setTableFn n (if code = 0 then .ready else .off) (tableCode n code (checkReads (tableReads n s) (if code = 0 then readTable n s else s)))

/-- TABLE_ENABLE's effect (R301, R485). -/
def enableTable (n : Nat) (on : Bool) (s : State) : Nat × State := enableAct (s.tableSlot n).fn on (startTable n) (fun s => s) (setTableFn n .draining) s

/-- TABLE_ADVANCE's effect (R313): its code. -/
def advanceTable (n v : Nat) (s : State) : Word16 × State :=
  let t := s.tableSlot n
  if t.current.toNat < v ∧ v ≤ t.sealed.toNat then
    (0, tableCode n 0 (s.modTable n fun t => { t with current := BitVec.ofNat 32 v }))
  else (0x346, tableCode n 0x346 s)

/-- A staged or uncommitted update exists for the pending version (R314). -/
def TableSlot.busy (t : TableSlot) : Bool := t.staged ≠ [] || t.pend ≠ {} || t.next ≠ {} || t.sealing.isSome || t.marked.isSome

/-- TABLE_INSTALL's effect (R314): its code; a head word that cannot be read clean is never written anew (0311h, R259). -/
def installTable (n v root : Nat) (s : State) : Word16 × State :=
  let s := awaitCopy (tblHead (s.tblHeadOf n)) s
  let t := s.tableSlot n
  let h := s.tblHeadOf n
  let r := recW s root 16
  if s.tableUp n && v = t.sealed.toNat + 1 && !t.busy && root % 4096 = 0 && readable s root 128 && rootOk h r && tvrVersion r = v &&
      tvrPrev r = s.rootNow h then
    if !readable s (tblHead h) 8 then (0x311, tableCode n 0x311 s)
    else
      let s := rewriteIn s (tblHead h) (leBytes 8 root) (touch [(root, 128)] s)
      (0, tableCode n 0 (noteSealed n v (s.modTable n fun t => { t with built := v, moving := [] })))
  else (0x345, tableCode n 0x345 s)

/-- Every page of a root but its own. -/
def rootPages (s : State) (h r : Words) : List Nat :=
  mapPages s (tblDepth h) (tvrMap r) ++ mapPages s (tblDepth h) (tvrReplica r) ++ arrayPages (tvrHotDir r) (16 * tvrHotCount r) ++
    (if tvrDefault r = 0 then [] else [tvrDefault r / 4096 * 4096])

/-- The roots from one back to (and with) the first at or below a version. -/
def rootsTo (s : State) (low : Nat) : Nat → Nat → List Nat
  | 0, _ => []
  | f + 1, r =>
    if !localOk r ∨ r = 0 ∨ !(s.page (pageNo r)).kind.written then []
    else if tvrVersion (recW s r 16) ≤ low then [r]
    else r :: rootsTo s low f (tvrPrev (recW s r 16))

/-- The pages that a rise of the floor from `low` to f frees (R314): those that the roots after the one kept for `low`, up to the
one for f, supersede, and the roots older than that with their lists. -/
def floorPages (s : State) (n low f : Nat) : List Nat :=
  let h := s.tblHeadOf n
  let chain := (rootsTo s low (s.pageMap.length + 1) (s.rootNow h)).dropWhile fun r => f < tvrVersion (recW s r 16)
  let gone := chain.flatMap fun o =>
    let r := recW s o 16
    if tvrVersion r ≤ low then []
    else if tvrReplaces r then (if tvrPrev r = 0 then [] else rootPages s h (rootWords s (tvrPrev r)))
    else (peekWords s (tvrRelease r) (tvrReleaseCount r)).map BitVec.toNat
  let old := (chain.drop 1).flatMap fun o => o :: arrayPages (tvrRelease (recW s o 16)) (8 * tvrReleaseCount (recW s o 16))
  dedupBy id ((gone ++ old).map pageNo)

/-- TABLE_FLOOR's effect (R314, R84): its code. -/
def raiseTableFloor (n f : Nat) (s : State) : Word16 × State :=
  let t := s.tableSlot n
  if t.floor.toNat ≤ f ∧ f ≤ t.current.toNat ∧ f ≤ s.tableHeld n then
    let pages := if s.tableUp n then (floorPages s n t.floor.toNat f).filter fun p => (s.page p).kind.written else []
    (0, pages.foldl (fun s p => freePage p s) (s.modTable n fun t => { t with floor := BitVec.ofNat 32 f }))
  else (0x314, s)

end Sys2Proof.Machine
end

