-- ==== Sys2Proof/Machine/Tables.lean ====
section
/-! DEFINITION. The commands of embedding tables (R302 to R318): gathers and their pooling, updates, promotions and demotions on their
entry device, and the table messages on the devices they reach. -/

namespace Sys2Proof.Machine

/-! ### Table descriptors (R302, R303) -/

/-- Reserved bits of a table descriptor are 0. -/
def tableForm (op : Nat) (d : Words) : Bool :=
  dOpcode d = op && !bit (word d 0) 48 && rsvd (word d 0) 35 32 && rsvd (word d 1) 52 0 && word d 8 = 0 && word d 9 = 0 &&
  word d 11 = 0 && word d 12 = 0 && word d 14 = 0 && rsvd (word d 15) 31 0

/-- Check 4 of R44 on the fields of R303. -/
def tableRanges (d : Words) : Bool :=
  let gather := dOpcode d = opGather
  1 ≤ tdIndices d && tdIndices d ≤ 2 ^ 24 && bufOk (dOutputBuf d) (dOutputLen d) && tdPool d ≤ 2 &&
  (if gather && tdPool d ≠ 0 then 1 ≤ tdBags d && tdBags d ≤ 65536 else tdBags d = 0) &&
  (!gather || (dOutputBuf d ≠ 0 && dOutputLen d ≠ 0))

/-- Checks 4, 6 and 8 (R302). -/
def tableDescCheck (d : Words) (s : State) : Word16 :=
  let t := s.tableSlot (dTable d)
  if !tableRanges d then 0x104
  else if t.fn ≠ .ready ∨ (bit t.tenant 15 && bits t.tenant 11 0 ≠ dTenant d) then 0x342
  else if dOpcode d = opGather && tdExplicit d && (tdVersion d < t.floor.toNat || t.current.toNat < tdVersion d) then 0x107
  else 0

/-- The version a gather records (R304). -/
def tableFill (d : Words) (s : State) (x : Slot) : Slot :=
  if dOpcode d ≠ opGather then x
  else { x with tableVersion := if tdExplicit d then BitVec.ofNat 32 (tdVersion d) else (s.tableSlot (dTable d)).current }

/-- A table descriptor is taken, and an admitted one starts: it reads its buffers (each an address, a length and what host memory
delivered), STAGE reads 2, and the slot's inputs are what `keep` makes of them. -/
def takeTable (op ring : Nat) (d : Words) (reads : List (Nat × Nat × Bytes)) (keep : List Bytes → Slot → Slot) (run : Nat → State → State)
    (s : State) : State :=
  if dOpcode d ≠ op ∨ (s.ring ring).kind ≠ 1 ∨ !s.mayTake ring then s
  else withSnoops (reads.map fun r => (r.1, r.2.1)) (fun s =>
    let k := (s.slotFor (dTenant d)).getD 0
    let t := takeDescriptor ring d (tableForm op d) (tableDescCheck d) false (tableFill d) s
    if t.hub.admitted = s.hub.admitted then t
    else
      let (code, got, t) := readHosts reads t
      let t := startStage k sgEmbed (t.modSlot k fun x => keep got { x with committed := false })
      if code ≠ 0 then failSlot k code t else run k t) s

/-- 32-bit words as bytes, and back. -/
def bytesOf32 (l : List Word32) : Bytes := l.flatMap fun w => leBytes 4 w.toNat
def words32 (n : Nat) (bs : Bytes) : List Word32 := (u32s n bs).map (BitVec.ofNat 32)

/-! ### Gathers (R305 to R307) -/

/-- The bag offsets keep R306. -/
def offsetsOk (d : Words) (offs : List Nat) : Bool :=
  offs.headD 1 = 0 && offs.getLastD 0 = tdIndices d && (offs.zip offs.tail).all fun p => p.1 ≤ p.2 && p.2 ≤ p.1 + 4096

/-- Rows whose values are still on their way. -/
def GatherRow.waits (g : GatherRow) : Bool := g.value.isNone
def Slot.gathered (x : Slot) : Bool := !x.rows.any GatherRow.waits

/-- The value a gather uses for an index. -/
def Slot.rowOf (x : Slot) (i : Word64) : GatherRow := (x.rows.find? fun g => g.index = i).getD ⟨i, 0, some [], true, false⟩

/-- One FP32 element of every output row: bags in order (R306). -/
def poolBag (pool : Nat) (dim : Nat) (rows : List (List Word32 × Word32)) : List Word32 :=
  let acc := rows.foldl (fun acc r => List.zipWith (fun x a => ffma r.2 x a) r.1 acc) (List.replicate dim 0)
  if pool = 2 ∧ rows ≠ [] then
    let c := special .recip (roundF (.fin false rows.length 0))
    acc.map fun a => fmul a c
  else acc

/-- The output rows of a gather. -/
def outRows (d h : Words) (x : Slot) : List (List Word32) :=
  let dim := tblDim h
  let rows := x.indices.map fun i => vecF32 (tblFormat h) dim ((x.rowOf i).value.getD [])
  if tdPool d = 0 then
    if tdWeighted d then List.zipWith (fun r w => r.map fun e => fmul e w) rows x.weights else rows
  else
    let ws := if tdWeighted d then x.weights else x.indices.map fun _ => oneF
    let pairs := rows.zip ws
    let offs := x.offsets.map BitVec.toNat
    (offs.zip offs.tail).map fun p => poolBag (tdPool d) dim ((pairs.drop p.1).take (p.2 - p.1))

/-- The output buffer of a gather (R307). -/
def gatherBytes (d h : Words) (x : Slot) (rows : List (List Word32)) : Bytes :=
  let stride := ceilDiv (4 * tblDim h) 64 * 64
  let defs := (x.indices.filter fun i => tblRows h ≤ i.toNat).length
  let abs := (x.indices.filter fun i => i.toNat < tblRows h && (x.rowOf i).absent).length
  let fits := min rows.length ((dOutputLen d - 64) / stride)
  bytesOf [field 48 0x64 ||| field 32 (tblId h) ||| field 0 rows.length, field 48 (tblDim h) ||| field 0 stride,
    field 32 defs ||| field 0 abs, field 32 x.tableVersion.toNat, 0, 0, 0, 0] ++
  (rows.take fits).flatMap fun r => fit stride (r.flatMap fun e => leBytes 4 e.toNat)

/-- A cluster that may pool (R306). -/
def State.poolCluster (s : State) : Option Nat := s.clusterFor 11 fun _ => true

/-- A gather that holds every row pools them on a core and writes its output; without a cluster it waits (R306, R307, R377). -/
def settleGather (n : Nat) (s : State) : State :=
  let x := s.slot n
  let d := x.desc
  if stState x.status ≠ ssRunning ∨ dOpcode d ≠ opGather ∨ x.committed ∨ !x.gathered then s
  else if s.poolCluster.isNone then holdStage n s
  else if x.rows.any (·.poison) then failSlot n 0x301 s
  else
    let h := s.tblHeadOf (dTable d)
    let rows := outRows d h x
    let len := dOutputLen d
    let stride := ceilDiv (4 * tblDim h) 64 * 64
    let defs := (x.indices.filter fun i => tblRows h ≤ i.toNat).length
    commitStage n 11 (writeBuffer n .output (dOutputBuf d) len (gatherBytes d h x rows) rows.length
      (if (len - 64) / stride < rows.length then fbTruncated else 0)
      (modTableE (fun e => { e with defaultRows := e.defaultRows + BitVec.ofNat 64 defs }) s))

/-- Gathers that waited for a cluster go on (R377). -/
def resumeGathers (s : State) : State :=
  ((s.slots.filter fun e => dOpcode e.2.desc = opGather && e.2.heldSince.isSome).map Prod.fst).foldl (fun s n => settleGather n s) s

/-- A message of a table command is sent to a device, and its reply awaited (R110). -/
def sendAwaited (n dev : Nat) (body : Words) (s : State) : State :=
  let (ok, s) := sendMsg dev body false s.sysClass (dTenant (s.slot n).desc) false idHub s
  if ok then s.modSlot n fun x => { x with awaited := x.awaited ++ [⟨false, dev, 0, s.time, false, body⟩] } else failSlot n 0x403 s

/-- Messages of a table command to devices in ascending order, while it lives. -/
def sendEach (n : Nat) (body : Nat → State → Words) (devs : List Nat) (s : State) : State :=
  devs.foldl (fun s d => if liveState (s.slot n).status then sendAwaited n d (body d s) s else s) s

/-- A row-read message (R335). -/
def rowReadBody (n dev : Nat) (s : State) : Words :=
  let x := s.slot n
  let is := (x.rows.filter fun g => g.waits && g.home = dev).map (·.index)
  [msgW0 3 0 (s.handle n), msgW1 s.deviceId 0, field 32 is.length ||| field 0 (dTable x.desc), field 0 x.tableVersion.toNat] ++ is

/-- Indices resolved in R305's order, each once: the default row, the local replica, or a shard home. -/
def resolveRows (n slot tenant : Nat) (h r : Words) (dir : List (Nat × Nat)) :
    List Word64 → State → List GatherRow → Word16 × List GatherRow × State
  | [], s, got => (0, got, s)
  | i :: l, s, got =>
    let row := i.toNat
    let home := s.homeOf slot (row / tblPer h)
    if tblRows h ≤ row then
      let (o, s) := readDefault h r s
      if o.code ≠ 0 then (o.code, got, s) else resolveRows n slot tenant h r dir l s (got ++ [⟨i, 0, some o.value, false, o.poison⟩])
    else if (hotSlotOf dir row).isSome || !tblSharded h then
      let (o, s) := readTableRow slot row tenant h (rowPlace h r dir row) s
      if o.code ≠ 0 then (o.code, got, s) else resolveRows n slot tenant h r dir l s (got ++ [⟨i, 0, some o.value, o.absent, o.poison⟩])
    else resolveRows n slot tenant h r dir l s (got ++ [⟨i, home, none, false, false⟩])

/-- A gather starts: its offsets are checked, its local rows read, and its row reads sent (R304 to R306). -/
def startGather (n : Nat) (s : State) : State :=
  let x := s.slot n
  let d := x.desc
  let t := dTable d
  let h := s.tblHeadOf t
  if tdPool d ≠ 0 && !offsetsOk d (x.offsets.map BitVec.toNat) then failSlot n 0x343 s
  else
    let (root, code) := rootAt s t x.tableVersion.toNat
    let r := rootWords s root
    let dirCode := firstCode s [hotRange r]
    if code ≠ 0 then failSlot n code s
    else if dirCode ≠ 0 then failSlot n dirCode s
    else
      let (code, rows, s) := resolveRows n t (dTenant d) h r (hotDir s r) (dedupBy id x.indices)
        (touch [hotRange r] (touchRoot t x.tableVersion.toNat s)) []
      if code ≠ 0 then failSlot n code s
      else
        let s := s.modSlot n fun x => { x with rows := rows }
        let homes := devicesOf ((rows.filter GatherRow.waits).map (·.home))
        settleGather n (sendEach n (rowReadBody n) homes s)

/-- TABLE_GATHER (R304). -/
def execTableGather (ring : Nat) (desc : Words) (indices : Words) (offsets weights : List Word32) (s : State) :
    Host.Outcome State Fault Refusal :=
  let d := s.ringEntry ring desc
  let n := tdIndices d
  let bags := if tdPool d = 0 then 0 else tdBags d + 1
  let ws := if tdWeighted d then n else 0
  .next (takeTable opGather ring d
    [(tdIndexAddr d, 8 * n, bytesOf indices), (tdOffsetsAddr d, 4 * bags, bytesOf32 offsets), (tdWeightsAddr d, 4 * ws, bytesOf32 weights)]
    (fun got x => { x with
      indices := wordsOf n (got.getD 0 []), offsets := words32 bags (got.getD 1 []), weights := words32 ws (got.getD 2 []) })
    startGather s)

/-- A reply to a table command's message is taken once from each device; `keep` uses the first (R110, R336). -/
def tableReply (kind : Nat) (b : Words) (keep : Nat → State → State) (s : State) : State :=
  let s := takeLoop b s
  let n := handleSlot (msgHandle b)
  let same := fun (a : Awaited) => a.device = msgDevice b && msgKind a.body + 0x80 = kind
  if !s.live (msgHandle b) then lateReply s
  else match (s.slot n).awaited.find? same with
    | none => s
    | some a =>
      if a.answered then dupReply s
      else if tmCode b ≠ 0 then failSlot n (tmCode b) s
      else keep n (s.modSlot n fun x => { x with awaited := x.awaited.map fun y => if same y then { y with answered := true } else y })

/-- ROW_READ_REPLY (R306): the rows of one device, in the order they were asked for. -/
def execRowReadReply (_src : Nat) (body : Words) (s : State) : Host.Outcome State Fault Refusal :=
  .next (if !s.hubUp ∨ msgKind body ≠ 0x83 then s
  else tableReply 0x83 body (fun n s =>
    let x := s.slot n
    let words := tblRowBytes (s.tblHeadOf (dTable x.desc)) / 8
    let asked := x.rows.filter fun g => g.waits && g.home = msgDevice body
    let absents := 2 + asked.length * words
    let filled := fun (g : GatherRow) =>
      let i := asked.findIdx fun a => a.index = g.index
      if g.waits && g.home = msgDevice body then
        { g with value := some (bytesOf ((List.range words).map fun j => word body (2 + i * words + j)))
                 absent := bit (word body (absents + i / 64)) (i % 64) }
      else g
    settleGather n (s.modSlot n fun x => { x with rows := x.rows.map filled })) s)

/-! ### Row reads at a shard home (R304, R305) -/

def rrCount (b : Words) : Nat := bits (word b 2) 63 32
def rrSlot (b : Words) : Nat := bits (word b 2) 15 0
def rrVersion (b : Words) : Nat := bits (word b 3) 31 0
def rrRows (b : Words) : List Nat := (List.range (min (rrCount b) (b.length - 4))).map fun i => (word b (4 + i)).toNat

/-- A reply of a table message goes back to where it came from. -/
def tableAnswer (b : Words) (rest : Nat) (more : Words) (s : State) : State :=
  sendTable (msgDevice b) (msgW0 (msgKind b + 0x80) 0 (msgHandle b) :: msgW1 s.deviceId rest :: more) true s

/-- A memory island is out of service, so that what it would have read or staged for a message is killed (R316). -/
def State.islandOut (s : State) : Bool := (List.range 12).any fun m => (s.island (idMemory m)).service ≠ .serving

/-- The rows of a row-read message, read at its version, and their reply; a read that meets a faulted island kills the message, and one
that meets a stack not Ready answers so (R270, R316). -/
def serveRows (b : Words) (s : State) : State :=
  let n := rrSlot b
  let h := s.tblHeadOf n
  if !s.tableUp n then tableAnswer b 0x342 [] s
  else
    let (root, code) := rootAt s n (rrVersion b)
    if code = 0x321 ∧ s.islandOut then s
    else if code ≠ 0 then tableAnswer b code.toNat [] s
    else
      let r := rootWords s root
      let rows := rrRows b
      let (outs, t) := readTableRows n (dTenant b) h (fun row => (tvrMap r, row / tblPer h, row % tblPer h)) rows (touchRoot n (rrVersion b) s)
      if (outs.any fun o => o.code = 0x321) && s.islandOut then s
      else match outs.find? fun o => o.code ≠ 0 with
        | some o => tableAnswer b o.code.toNat [] t
        | none =>
          if outs.any (·.poison) then tableAnswer b 0x301 [] t
          else tableAnswer b 0 ((outs.flatMap fun o => rowWords (fit (tblRowBytes h) o.value)) ++
            (List.range (ceilDiv rows.length 64)).map fun i =>
              BitVec.ofNat 64 (packBits (fun k => (outs[64 * i + k]?.map (·.absent)).getD false) 64)) t

/-- ROW_READ (R305). -/
def execRowRead (_src : Nat) (body : Words) (s : State) : Host.Outcome State Fault Refusal :=
  .next (if !s.hubUp ∨ msgKind body ≠ 3 then s
  else
    let s := takeLoop body s
    if s.killed (msgDevice body) (msgHandle body) then s else serveRows body s)

/-! ### Updates, promotions and demotions on the entry device (R310, R315) -/

/-- What a table command does to its rows. -/
def tdAct (d : Words) : TableAct :=
  if dOpcode d = opPromote then .promote else if dOpcode d = opDemote then .demote else if tdAdd d then .add else .replace

/-- Bytes of a value row. -/
def valueBytes (d h : Words) : Nat :=
  if dOpcode d ≠ opUpdate then 0 else if tdAdd d then ceilDiv (4 * tblDim h) 64 * 64 else tblRowBytes h

/-- The stage message of a home: its rows in index order (R335). -/
def stageBody (n dev : Nat) (s : State) : Words :=
  let x := s.slot n
  let h := s.tblHeadOf (dTable x.desc)
  let size := valueBytes x.desc h
  let mine := (x.indices.zipIdx).filter fun e => s.homeOf (dTable x.desc) (e.1.toNat / tblPer h) = dev
  [msgW0 4 0 (s.handle n), tmW1 s (dTable x.desc) (tdAct x.desc) 0, BitVec.ofNat 64 mine.length] ++
    mine.flatMap fun e => e.1 :: rowWords (fit size ((x.values.drop (e.2 * size)).take size))

/-- A promotion would make the hot set exceed R301's bound. -/
def hotFull (d : Words) (x : Slot) (s : State) : Bool :=
  let h := s.tblHeadOf (dTable d)
  let dir := hotDir s (rootWords s (s.rootNow h))
  let new := (dedupBy id x.indices).filter fun i => (hotSlotOf dir i.toNat).isNone
  dOpcode d = opPromote && tblSharded h && 2 ^ 28 < (dir.length + new.length) * tblRowBytes h

/-- The command's checks, and its rows staged at their homes (R310, steps 1 and 2). -/
def startUpdate (n : Nat) (s : State) : State :=
  let x := s.slot n
  let h := s.tblHeadOf (dTable x.desc)
  if x.indices.any fun i => tblRows h ≤ i.toNat then failSlot n 0x343 s
  else if hotFull x.desc x s then failSlot n 0x344 s
  else
    let homes := devicesOf (x.indices.map fun i => s.homeOf (dTable x.desc) (i.toNat / tblPer h))
    sendEach n (stageBody n) homes (s.modSlot n fun x => { x with homes := homes.map fun d => ⟨d, false, false⟩ })

/-- A row-changing command is taken. -/
def takeUpdate (op ring : Nat) (desc indices : Words) (values : Bytes) (s : State) : State :=
  let d := s.ringEntry ring desc
  let n := tdIndices d
  let size := n * valueBytes d (s.tblHeadOf (dTable d))
  takeTable op ring d [(tdIndexAddr d, 8 * n, bytesOf indices), (tdValuesAddr d, size, values)]
    (fun got x => { x with indices := wordsOf n (got.getD 0 []), values := got.getD 1 [] }) startUpdate s

/-- UPDATE (R310). -/
def execUpdate (ring : Nat) (desc indices : Words) (values : Bytes) (s : State) : Host.Outcome State Fault Refusal :=
  .next (takeUpdate opUpdate ring desc indices values s)
/-- PROMOTE (R315). -/
def execPromote (ring : Nat) (desc indices : Words) (s : State) : Host.Outcome State Fault Refusal :=
  .next (takeUpdate opPromote ring desc indices [] s)
/-- DEMOTE (R315). -/
def execDemote (ring : Nat) (desc indices : Words) (s : State) : Host.Outcome State Fault Refusal :=
  .next (takeUpdate opDemote ring desc indices [] s)

/-- TABLE_STAGE_REPLY (R310, step 3): with the last home's, the commits are sent. -/
def execTableStageReply (_src : Nat) (body : Words) (s : State) : Host.Outcome State Fault Refusal :=
  .next (if !s.hubUp ∨ msgKind body ≠ 0x84 then s
  else tableReply 0x84 body (fun n s =>
    let s := s.modSlot n fun x => { x with homes := x.homes.map fun h => if h.device = msgDevice body then { h with staged := true } else h }
    if (s.slot n).commitsSent then
      sendEach n (fun _ s => [msgW0 5 0 (s.handle n), msgW1 s.deviceId 0, field 0 (s.handle n).toNat]) ((s.slot n).homes.map (·.device)) s
    else s) s)

/-- TABLE_COMMIT_REPLY (R310, R335): with the last home's, the command has completed. -/
def execTableCommitReply (_src : Nat) (body : Words) (s : State) : Host.Outcome State Fault Refusal :=
  .next (if !s.hubUp ∨ msgKind body ≠ 0x85 then s
  else tableReply 0x85 body (fun n s =>
    let s := s.modSlot n fun x => { x with homes := x.homes.map fun h => if h.device = msgDevice body then { h with committed := true } else h }
    if (s.slot n).homes.all (·.committed) then commitStage n 12 (s.modSlot n fun x => { x with outCount := x.indices.length }) else s) s)

/-! ### Homes (R310, R311) -/

/-- The records of a stage message. -/
def stagedRows (b : Words) (words : Nat) : List (Nat × Bytes) :=
  (List.range (min (word b 2).toNat b.length)).map fun i =>
    let at_ := 3 + i * (1 + words)
    ((word b at_).toNat, bytesOf ((List.range words).map fun j => word b (at_ + 1 + j)))

/-- The words of a value row of a stage message. -/
def actWords (h : Words) (act : TableAct) : Nat :=
  match act with
  | .replace => tblRowBytes h / 8
  | .add => ceilDiv (4 * tblDim h) 64 * 8
  | _ => 0

/-- TABLE_STAGE (R310): the rows are staged, once, and acknowledged; a home whose stack is out of service drops the message (R316). -/
def execTableStage (_src : Nat) (body : Words) (s : State) : Host.Outcome State Fault Refusal :=
  .next (if !s.hubUp ∨ msgKind body ≠ 4 then s
  else
    let s := takeLoop body s
    let n := tmSlot body
    let h := s.tblHeadOf n
    let mine := fun g : Staged => g.src = msgDevice body && g.handle = msgHandle body
    if s.killed (msgDevice body) (msgHandle body) then s
    else if !s.tableUp n then tableAnswer body 0x342 [] s
    else if !s.stackUp (stackOf (tblHead h)) then if s.islandOut then s else tableAnswer body 0x321 [] s
    else if (s.tableSlot n).staged.any mine then tableAnswer body 0 [] s
    else tableAnswer body 0 [] (s.modTable n fun t => { t with staged := t.staged ++
      [⟨msgDevice body, msgHandle body, tmAct body, stagedRows body (actWords h (tmAct body))⟩] }))

/-- What applying rows at this home meets: 0, or the first code of what must be read for it; a poisoned page is 0311h (R259, R263). -/
def applyCode (n : Nat) (h : Words) (rows : List Nat) (s : State) : Word16 :=
  let t := s.tableSlot n
  let mine := rows.filter fun row => !tblSharded h || (s.migOf n row).mig = .homed
  let code := (mine.map fun row =>
    if tget [] t.pend.rows row ≠ [] || tget [] t.pend.hot row ≠ [] then baseCode s n
    else rowCode s n h row).find? (· ≠ 0)
  match code with
  | some c => if c = 0x301 then 0x311 else c
  | none => 0

/-- TABLE_COMMIT (R311): the staged rows apply in index order to the version that the seal mark's place decides. Where a page of theirs cannot be
read clean none applies, and the reply carries the code (DESIGN CHOICE, log 28); a faulted island kills the message (R316). -/
def execTableCommit (_src : Nat) (body : Words) (s : State) : Host.Outcome State Fault Refusal :=
  .next (if !s.hubUp ∨ msgKind body ≠ 5 then s
  else
    let s := takeLoop body s
    let mine := fun g : Staged => g.src = msgDevice body && g.handle = msgHandle body
    if s.killed (msgDevice body) (msgHandle body) then s
    else match s.tables.find? fun e => e.2.staged.any mine with
      | none => tableAnswer body 0 [] s
      | some (n, t) =>
        let rows := (t.staged.filter mine).flatMap fun g => g.rows.map fun r => (g.act, r)
        let code := applyCode n (s.tblHeadOf n) (rows.map (·.2.1)) s
        if code = 0x321 ∧ s.islandOut then s
        else
          let s := s.modTable n fun t => { t with staged := t.staged.filter fun g => !mine g }
          if code ≠ 0 then tableAnswer body code.toNat [] s
          else
            let s := rows.foldl (fun s r => applyRow n t.tagNow r.2.1 r.1 r.2.2 s) s
            tableAnswer body 0 [] (writeShard n (rows.map (·.2.1)) s))

/-! ### Seals (R312) -/

def smVersion (b : Words) : Nat := bits (word b 2) 31 0

/-- SEAL_MARK (R312, step 2). -/
def execSealMark (_src : Nat) (body : Words) (s : State) : Host.Outcome State Fault Refusal :=
  .next (if !s.hubUp ∨ msgKind body ≠ 6 then s
  else
    let s := takeLoop body s
    let n := tmSlot body
    let t := s.tableSlot n
    if s.tableUp n && t.built + 1 = smVersion body && t.marked.isNone then
      tryReport n (s.modTable n fun t => { t with marked := some (smVersion body), reported := false })
    else s)

/-- SEAL_MARK_REPLY (R312, step 3): with the last home's report, the replica pages are broadcast. -/
def execSealMarkReply (_src : Nat) (body : Words) (s : State) : Host.Outcome State Fault Refusal :=
  .next (if !s.hubUp ∨ msgKind body ≠ 0x86 then s
  else
    let s := takeLoop body s
    let n := tmSlot body
    let t := s.tableSlot n
    if t.sealing = some (smVersion body) && t.reports.contains (msgDevice body) then
      let s := s.modTable n fun t => { t with reports := t.reports.erase (msgDevice body) }
      if (s.tableSlot n).reports = [] then broadcastReplica n (smVersion body) s else s
    else s)

/-- The changed replica pages of a message, and its hot directory when it changed. -/
def rpPages (b : Words) : List (Nat × Bytes) :=
  (List.range (min (bits (word b 3) 63 32) b.length)).map fun i =>
    ((word b (4 + 513 * i)).toNat, bytesOf ((List.range 512).map fun j => word b (5 + 513 * i + j)))
def rpDir (b : Words) : Option (List (Nat × Nat)) :=
  let at_ := 4 + 513 * bits (word b 3) 63 32
  if bit (word b 3) 0 then
    some ((List.range (min (bits (word b 3) 31 1) b.length)).map fun i => ((word b (at_ + 2 * i)).toNat, (word b (at_ + 2 * i + 1)).toNat))
  else none

/-- REPLICA_PAGES (R312, step 5). -/
def execReplicaPages (_src : Nat) (body : Words) (s : State) : Host.Outcome State Fault Refusal :=
  .next (if !s.hubUp ∨ msgKind body ≠ 7 then s
  else
    let s := takeLoop body s
    let n := tmSlot body
    let v := smVersion body
    if !s.tableUp n ∨ !s.stackUp (stackOf (tblHead (s.tblHeadOf n))) then s
    else if v ≤ (s.tableSlot n).built then tableAnswer body (n % 64) [BitVec.ofNat 64 v] s
    else if v ≠ (s.tableSlot n).built + 1 then s
    else
      let t := switchTable n v (rpPages body) (rpDir body) s
      if (t.tableSlot n).built = v then tableAnswer body (n % 64) [BitVec.ofNat 64 v] t else t)

/-- REPLICA_PAGES_REPLY (R312): with the last device's switch, TABLE_SEALED reads v on the hot home. -/
def execReplicaPagesReply (_src : Nat) (body : Words) (s : State) : Host.Outcome State Fault Refusal :=
  .next (if !s.hubUp ∨ msgKind body ≠ 0x87 then s
  else
    let s := takeLoop body s
    let n := tmSlot body
    let t := s.tableSlot n
    if t.sealing = some (smVersion body) && t.switched.contains (msgDevice body) then
      let s := s.modTable n fun t => { t with switched := t.switched.erase (msgDevice body) }
      if (s.tableSlot n).switched = [] then noteSealed n (smVersion body) (s.modTable n fun t => { t with sealing := none }) else s
    else s)

/-! ### Migrations (R315) -/

def mcRow (b : Words) : Nat := (word b 2).toNat
def mcValue (b : Words) (words : Nat) : Bytes := fit (8 * words) (bytesOf (b.drop 3))

/-- MIGRATION_COPY (R315): the hot home gives a promoted row a hot slot; the shard home of a demoted row homes it, and what waited
for it applies. -/
def execMigrationCopy (_src : Nat) (body : Words) (s : State) : Host.Outcome State Fault Refusal :=
  .next (if !s.hubUp ∨ msgKind body ≠ 8 ∨ !s.tableUp (tmSlot body) then s
  else
    let s := takeLoop body s
    let n := tmSlot body
    let h := s.tblHeadOf n
    let value := mcValue body (tblRowBytes h / 8)
    let back := fun s : State => sendTable (msgDevice body) [msgW0 0x88 0 0, tmW1 s n (tmAct body) (tmVersion body), word body 2] true s
    if tmAct body = .promote then back (addHot n (tmVersion body) (mcRow body) value s)
    else if (s.migOf n (mcRow body)).mig = .migrating && (s.migOf n (mcRow body)).demote then
      tryReport n (back (lowerBarrier n (mcRow body) .homed (putRow n (tmVersion body) (mcRow body) false value s)))
    else s)

/-- MIGRATION_COPY_REPLY (R315, step 4): the barrier of a promoted row falls. -/
def execMigrationCopyReply (_src : Nat) (body : Words) (s : State) : Host.Outcome State Fault Refusal :=
  .next (if !s.hubUp ∨ msgKind body ≠ 0x88 ∨ !s.tableUp (tmSlot body) then s
  else
    let s := takeLoop body s
    let n := tmSlot body
    let m := s.migOf n (mcRow body)
    if tmAct body = .promote && m.mig = .migrating && !m.demote then tryReport n (lowerBarrier n (mcRow body) .forwarded s) else s)

/-- FORWARDED_UPDATE (R315, step 5): applied at the hot home in its turn; a demotion sends the row back. -/
def execForwardedUpdate (_src : Nat) (body : Words) (s : State) : Host.Outcome State Fault Refusal :=
  .next (if !s.hubUp ∨ msgKind body ≠ 9 ∨ !s.tableUp (tmSlot body) then s
  else
    let s := takeLoop body s
    let n := tmSlot body
    let h := s.tblHeadOf n
    let tag := tmVersion body
    let row := mcRow body
    let ack := fun s : State => sendTable (msgDevice body) [msgW0 0x89 0 0, tmW1 s n (tmAct body) tag, word body 2] true s
    if (tget [] (s.tableSlot n).pend.hot row = [] && tget [] (s.tableSlot n).next.hot row = []) && rowCode s n h row ≠ 0 then s
    else if tmAct body = .demote then
      let (value, s) := removeHot n tag row s
      sendTable (msgDevice body) (msgW0 8 0 0 :: tmW1 s n .demote tag :: word body 2 :: rowWords (fit (tblRowBytes h) value)) false (ack s)
    else
      let value := mcValue body (actWords h (tmAct body))
      ack (countRow (putRow n tag row true (updated h (tmAct body) value (rowNow s n h true (s.late n tag) row)) s)))

/-- FORWARDED_UPDATE_REPLY (R315, R335). -/
def execForwardedUpdateReply (_src : Nat) (body : Words) (s : State) : Host.Outcome State Fault Refusal :=
  .next (if !s.hubUp ∨ msgKind body ≠ 0x89 ∨ !s.tableUp (tmSlot body) then s
  else
    let s := takeLoop body s
    forwardAcked (tmSlot body) (mcRow body) (tmVersion body) s)

/-! ### The sketch (R308) -/

/-- CMS_DECAY (R308). -/
def execCmsDecay (island : Nat) (s : State) : Host.Outcome State Fault Refusal :=
  .next (if s.inService (idMemory island) && island < 12 && s.tableE.cmsDecay.toNat ≤ (s.stack island).lookups then
    s.modStack island cmsHalve else s)

end Sys2Proof.Machine
end

