-- ==== Sys2Proof/Machine/Placement.lean ====
section
/-! DEFINITION. Placement (R372 to R378): pre-emption, the lives of clusters and text islands, the ends of drains, and commands that
wait for a function too long. -/

namespace Sys2Proof.Machine

/-! ### Pre-emption (R372, R373) -/

/-- A command's request has less than PREEMPT_URGENT_NS left to its deadline. -/
def State.urgent (s : State) (c : DispatchCmd) : Bool :=
  match c.handle with
  | some h =>
    let d := (s.slot (handleSlot h)).deadline
    decide (d ≠ BitVec.allOnes 64) && decide (d.toNat < s.time.toNat + s.placement.urgentNs.toNat)
  | none => false

/-- U ranks above V, which has enough left and has not been pre-empted too often. -/
def State.mayPreempt (s : State) (k : Nat) (u : DispatchCmd) (v : CoreCmd) : Bool :=
  s.placement.preemptEnable && (v.cmd.tclass < u.tclass || (s.urgent u && !s.urgent v.cmd)) &&
  s.placement.minRemain.toNat < v.solo - (s.core k).now && v.life.preempted < s.placement.preemptMax

/-- Kills under R372 in the record of each set charged (R375). -/
def countPreempt (v : CoreCmd) (s : State) : State :=
  let s := modSlowdowns (chargeClass v.cmd) (chargedTo v.cmd) (fun r => { r with preempted := r.preempted + 1 }) s
  { s with placement := { s.placement with preemptions := s.placement.preemptions + 1 } }

/-- V is killed and goes back to the head of its class's queue, and U takes its place. -/
def preemptBy (k : Nat) (u : DispatchCmd) (v : CoreCmd) (s : State) : State :=
  let killed := requeueAt k 0 (fun l => { l with preempted := l.preempted + 1 }) s
  let (life, home, s') := takeWaiting k u killed
  let q := mkCmd killed k u life
  let b := u.slotBase
  if dispatchOk killed k q && (b + q.slots ≤ v.cmd.slotBase || v.cmd.slotBase + v.slots ≤ b) then
    placeCmd k true (q.atHome k home) q (countEv (idCluster (clusterOf k)) 2 4 1 { cmd := some v.cmd.cmdClass, tenant := some v.cmd.tenant }
      (countPreempt v s'))
  else s

/-- PREEMPT (R372). -/
def execPreempt (core : Nat) (cmd : DispatchCmd) (s : State) : Host.Outcome State Fault Refusal :=
  .next (match (s.core core).cmds with
    | [] => s
    | v :: _ => if s.coreUp core && s.serves cmd && s.mayPreempt core cmd v then preemptBy core cmd v s else s)

/-! ### Clusters (R376, R378, R422, R485) -/

/-- A start from Off: a hold of the cluster or of one of its cores is released (R437). -/
def startCluster (n : Nat) (s : State) : State :=
  let s := (List.range 16).foldl (fun s i => releaseHold (16 * n + i) s) (releaseHold (idCluster n) s)
  setClusterFn n .starting (s.modCluster n fun c => { c with abandon := false })

/-- A drain: uncommitted commands go back to the hub's queue. -/
def drainCluster (n : Nat) (s : State) : State := setClusterFn n .draining (holdCluster n s)

/-- CLUSTER_ENABLE's effect; a cluster that changes role drains to Off instead (R485). -/
def enableCluster (n : Nat) (on : Bool) (s : State) : Nat × State :=
  let mark := fun s : State => s.modCluster n fun c => { c with abandon := true }
  if (s.cluster n).fn = .draining && (s.cluster n).role = 3 && !on then (0, mark s)
  else enableAct (s.cluster n).fn on (startCluster n) mark (drainCluster n) s

/-- A stack fills its check region (R246, R422). -/
def State.filling (s : State) : Bool :=
  s.coreE.initMode = 1 && s.stackT.any fun e => e.2.fn = .starting && e.2.fromOff

/-- A core as a Starting cluster releases it: erased, its hinges installed (R245, R246, R268). -/
def Core.released (full : Bool) (c : Core) : Core :=
  { c.resetCore with filled := full, hinge := tmap {} (fun _ h => { h with active := h.valid }) c.hinge }

/-- Model slots that cores of a cluster hold are loaded again, their regions parked meanwhile (R220, R378, R435); where a load fails the
regions stay unverified, so that no command of the slot is dispatched there (log 25). -/
def reloadOn (n : Nat) (ks : List Nat) (s : State) : State :=
  let park := fun (m : Nat) (f : Region → Region) (s : State) =>
    ks.foldl (fun s k => (s.model m).programs.foldl (fun s p => modRegions k p f s) s) s
  ((s.models.filter fun e => (e.2.fn = .ready || e.2.fn = .draining) && bit e.2.clusters n).map Prod.fst).foldl (fun s m =>
    match loadCores m n ks false (park m (fun r => { r with park := true }) s) with
    | (0, s) => s
    | (_, s) => park m (fun r => { r with verified := false, park := false }) s) s

/-- Model slots that a cluster holds are loaded again (R378). -/
def reloadModels (n : Nat) (s : State) : State := reloadOn n ((List.range 16).map (16 * n + ·)) s

/-- A cluster has become Ready: what waited for one goes on (R377). -/
def clusterServes (s : State) : State := servePens (resumeGathers s)

/-- When a full fill of the cores of a cluster that has been Starting ends: 4,096 c-cycles after it began (R246). -/
def coreFillNs : Nat := 2048

/-- The cluster serves; FILL_DONE_NS takes the end of its cores' fill when that is the last (R246). -/
def clusterUpNow (n : Nat) (s : State) : State :=
  let full := s.coreE.initMode = 1
  let s := (List.range 16).foldl (fun s i => s.modCore (16 * n + i) (Core.released full)) s
  let fill := (s.cluster n).since + BitVec.ofNat 64 coreFillNs
  let fill := if s.time < fill then s.time else fill
  let s := if full ∧ s.coreE.fillDone < fill then { s with coreE := { s.coreE with fillDone := fill } } else s
  let s := reloadModels n (s.modCluster n fun c => { c with role := if c.role = 3 then c.target else c.role })
  clusterServes (backInService (idCluster n) (setClusterFn n .ready s))

/-- CLUSTER_READY (R422, R485): not while a stack fills its check region. -/
def execClusterReady (n : Nat) (s : State) : Host.Outcome State Fault Refusal :=
  .next (if n < 16 && s.startable (idCluster n) && decide ((s.cluster n).fn = .starting) then
    if (s.cluster n).abandon then backInService (idCluster n) (clusterOff n s)
    else if s.filling then s else clusterUpNow n s
  else s)

/-! ### Text islands (R376, R485) -/

def startText (n : Nat) (s : State) : State :=
  setTextFn n .starting ((releaseHold (idText n) s).modText n fun t => { t with abandon := false, cache := [] })
def textOff (n : Nat) (s : State) : State := setTextFn n .off (s.modText n fun t => { t with abandon := false, cache := [] })

/-- TEXT_READY (R411, R485). -/
def execTextReady (n : Nat) (s : State) : Host.Outcome State Fault Refusal :=
  .next (if n < 4 && s.startable (idText n) && decide ((s.textIsl n).fn = .starting) then
    backInService (idText n) (if (s.textIsl n).abandon then textOff n s else setTextFn n .ready s)
  else s)

/-! ### Ends of drains (R376) -/

/-- MODEL_USERS (R297): admitted requests that record the slot. -/
def State.modelUsers (s : State) (n : Nat) : Nat :=
  (s.slots.filter fun e => liveState e.2.status && e.2.gens.any fun g => g.1 = n).length

/-- A cluster has no command left: Off, or Ready in its new role (R376, R284). -/
def endClusterDrain (n : Nat) (s : State) : State :=
  let c := s.cluster n
  if (List.range 16).any fun i => (s.core (16 * n + i)).cmds ≠ [] then s
  else if c.role = 3 && !c.abandon then
    clusterServes (setClusterFn n .ready
      ({ s with serving := { s.serving with roleChanges := s.serving.roleChanges + 1 } }.modCluster n fun c => { c with role := c.target }))
  else clusterOff n s

/-- DRAIN_END (R376). -/
def execDrainEnd (fn : FnRef) (s : State) : Host.Outcome State Fault Refusal :=
  .next (if !s.alive then s
  else match fn with
    | .cluster n => if (s.cluster n).fn = .draining then endClusterDrain n s else s
    | .text n => if (s.textIsl n).fn = .draining then textOff n s else s
    | .stack n => if (s.stack n).fn = .draining then stackOff n s else s
    | .link n => if (s.link n).fn = .draining && (s.link n).replay = [] && (s.link n).queued = [] then
        setLinkFn n .off (s.modLink n fun k => { k with control := [], wireClass := none }) else s
    | .model n => if (s.model n).fn = .draining && s.modelUsers n = 0 then setModelFn n .off (releaseModel n s) else s
    | .table n => if (s.tableSlot n).fn = .draining && s.tableUsers n = 0 then setTableFn n .off s else s)

/-! ### Waiting for a function (R377) -/

/-- DRAIN_HOLD_NS has passed since a time. -/
def State.heldTooLong (s : State) (t : Word64) : Bool := s.placement.drainHold.toNat ≤ (s.time - t).toNat

/-- DRAIN_HOLD_TIMEOUT (R377). -/
def execDrainHoldTimeout (handle : Word32) (s : State) : Host.Outcome State Fault Refusal :=
  .next (
    let stage := match (s.slot (handleSlot handle)).heldSince with | some t => s.heldTooLong t | none => false
    let cmd := s.placement.held.any fun w => w.cmd.handle = some handle && s.heldTooLong w.since
    if s.hubUp && (stage || cmd) then failRequest (some handle) 0x140 s else s)

/-- SLOWDOWN_CLEAR's effect (R375). -/
def clearSlowdowns (v : Byte) (s : State) : State :=
  if v = 1 then { s with placement := { s.placement with tenantSlow := [], classSlow := [] } } else s

end Sys2Proof.Machine
end

