-- ==== Sys2Proof/Machine/Faults.lean ====
section
/-! DEFINITION. Fault collection and containment (R432 to R446), the return to service, injection in factory test mode, and what raises
faults by itself: watchdogs, clocks, sensors, beacons and the state-memory scrub (R20, R22, R247, R248, R480). -/

namespace Sys2Proof.Machine

def modFaults (f : Faults → Faults) (s : State) : State := { s with faults := f s.faults }

/-! ### The collector (R439 to R441) -/

/-- The notice the collector takes next: the first to arrive, and of those of one h-cycle the lowest island's (R439). -/
def nextNotice (ns : List FaultRec) : Option FaultRec :=
  match ns with
  | [] => none
  | r :: l => some ((l.filter fun x => x.hubTime = r.hubTime).foldl (fun b x => if x.island < b.island then x else b) r)

/-- A notice is taken: counted, in LAST_FAULT and the history, and captured when the collector is armed. -/
def collect (r : FaultRec) (s : State) : State :=
  let got := { r with hubTime := s.time }
  let s := countEv idHub 7 4 1 { priv := 0 } (pushHistory ⟨r.time, r.island, r.code, r.detail⟩ s)
  let first := !s.faults.captured
  let s := modFaults (fun f => { f with
    notices := f.notices.erase r, count := f.count + 1, last := some got
    captured := true, first := if first then some got else f.first, since := if first then f.since else f.since + 1 }) s
  if first then fireVector 0 s else s

/-- FAULT_NOTICE_ARRIVAL (R439). -/
def execFaultNoticeArrival (s : State) : Host.Outcome State Fault Refusal :=
  .next (if !s.alive then s else match nextNotice s.faults.notices with
    | none => s
    | some r => collect r s)

/-- FAULT_CLEAR's effect (R441). -/
def clearFault (v : Byte) (s : State) : State :=
  if v = 1 then modFaults (fun f => { f with first := none, captured := false, since := 0 }) s else s

/-! ### Returning to service (R435, R437) -/

/-- R437 holds the island off. -/
def State.heldBack (s : State) (i : Nat) : Bool :=
  !s.faults.autoRestart || s.faults.limit ≤ s.recentFaults i || (s.island i).wasStarting

/-- A held-off island's function reports Off. -/
def functionOff (i : Nat) (s : State) : State :=
  match islandType i with
  | some .cluster => clusterOff (i - 0x100) s
  | some .memory => stackOff (i - 0x110) s
  | some .text => textOff (i - 0x131) s
  | some .link => (List.range 4).foldl (fun s j => setLinkFn (4 * (i - 0x120) + j) .off s) s
  | _ => s

/-- A core's reset: rows erased, hinges reinstalled, and what its model slots keep on it loaded and verified again (R276, R435). -/
def returnCore (k : Nat) (s : State) : State := reloadOn (clusterOf k) [k] (s.modCore k (Core.released (s.coreE.initMode = 1)))

/-- The function of an island is Starting, so that its own READY or training command ends the return. -/
def State.returnsLater (s : State) (i : Nat) : Bool :=
  match islandType i with
  | some .cluster => decide ((s.cluster (i - 0x100)).fn = .starting)
  | some .memory => decide ((s.stack (i - 0x110)).fn = .starting)
  | some .text => decide ((s.textIsl (i - 0x131)).fn = .starting)
  | _ => false

/-- The reset of a faulted island has ended. -/
def returnIsland (i : Nat) (s : State) : State :=
  if s.heldBack i then
    notable i 0xB (s.island i).lastCode.toNat (functionOff i (s.modIsland i fun x => { x with service := .heldOff }))
  else
    let s := s.modIsland i fun x => { x with service := .returning }
    if s.returnsLater i then s
    else backInService i (if islandType i = some .core then returnCore i s else s)

/-- ISLAND_RETURN (R435, R437): the hub does not return. -/
def execIslandReturn (island : Nat) (s : State) : Host.Outcome State Fault Refusal :=
  .next (if s.alive && decide ((s.island island).service = .safe) && island ≠ idHub then returnIsland island s else s)

/-! ### Injection (R442 to R445) -/

/-- An island type that runs a control core (R432). -/
def IslandType.controls : IslandType → Bool
  | .hub => true | .cluster => true | .link => true | .memory => true | .text => true
  | _ => false

/-- The codes an island of a type can raise (R432). -/
def raises (t : IslandType) (code : Word16) : Bool :=
  if code = 0x801 ∨ code = 0x803 ∨ code = 0x804 ∨ code = 0x830 ∨ code = 0x8F0 then true
  else if code = 0x802 ∨ code = 0x805 then t.controls
  else if code = 0x810 then t ≠ .hub
  else if code = 0x820 then t = .core
  else if code = 0x831 ∨ code = 0x832 ∨ code = 0x833 then t = .memory
  else if code = 0x840 then t = .host
  else false

/-- FI_ARM may be written 01h (R443). -/
def fiOk (s : State) : Bool :=
  match islandType s.faults.fiIsland.toNat with
  | some t => raises t s.faults.fiCode
  | none => false

/-- The armed injection is due: its time has come, and its island is not held off (R443, R446). -/
def State.fiDue (s : State) : Bool :=
  s.faults.fiArmed && s.faults.fiAt ≤ s.time && (s.island s.faults.fiIsland.toNat).service ≠ .heldOff

/-- The injected fault is raised in its island. -/
def fireFi (s : State) : State :=
  raiseFault s.faults.fiIsland.toNat s.faults.fiCode s.faults.fiDetail 0 (modFaults (fun f => { f with fiArmed := false }) s)

/-- FI_ARM's effect (R443, R445). -/
def armFi (s : State) : State :=
  let s := modFaults (fun f => { f with fiArmed := true }) s
  if s.fiDue then fireFi s else s

/-- FI_FIRE (R443). -/
def execFiFire (s : State) : Host.Outcome State Fault Refusal := .next (if s.alive && s.fiDue then fireFi s else s)

/-- The n lowest bit positions. -/
def lowBits (n : Nat) : Nat := 2 ^ n - 1

/-- The poison injection that PI_KIND, PI_TARGET and PI_BITS name; none for one that names no target (R444). -/
def injectPi (s : State) : Option State :=
  let t := s.faults.piTarget
  let n := s.faults.piBits
  let flip := fun (w : Nat) (e : Nat) => e ^^^ lowBits (min n w)
  if s.faults.piKind = 1 then
    let core := bits t 63 48
    let row := bits t 16 0
    if core < 256 ∧ row < 98304 then
      some (s.modCore core fun c => { c with wordErrs := tmod 0 c.wordErrs (8 * c.cell row + bits t 22 20) (flip 72) })
    else none
  else if s.faults.piKind = 2 then
    let off := t.toNat
    if !localOk off then none
    else if s.inIntake off then
      some (modHbm (fun h => { h with intakeErrs := tmod 0 h.intakeErrs (off % 2 ^ 40 / 4096 * 64) (flip 128) }) s)
    else some (s.modPage (s.cell (pageNo off)) fun p => { p with errs := flip 128 p.errs })
  else if s.faults.piKind = 3 then
    let i := bits t 63 55
    let cls := bits t 31 28
    if (islandType i).isSome ∧ 1 ≤ cls ∧ cls ≤ 10 then
      some (setByteErr i cls (bits t 27 0) (flip 13 (s.byteErr i cls (bits t 27 0))) s)
    else none
  else none

/-! ### The state-memory scrub (R247, R248) -/

/-- STATE_MEMORY_SCRUB (R247, R248): the walk reaches a byte. -/
def execStateMemoryScrub (island cls addr : Nat) (s : State) : Host.Outcome State Fault Refusal :=
  .next (if s.alive && s.coreE.scrubPeriod ≠ 0 then decodeByte island cls addr s else s)

/-! ### Watchdogs, clocks, sensors, beacons -/

/-- WATCHDOG_TIMEOUT (R432). -/
def execWatchdogTimeout (island : Nat) (pc : Word32) (s : State) : Host.Outcome State Fault Refusal :=
  .next (match islandType island with
    | some t => if t.controls then raiseFault island 0x802 pc 0 s else s
    | none => s)

/-- CLOCK_LOCK_LOSS (R432). -/
def execClockLockLoss (island : Nat) (s : State) : Host.Outcome State Fault Refusal := .next (raiseFault island 0x804 0 0 s)

/-- TEMP_TRIP, 105 °C (R480, R483). -/
def tempTrip : Int := 840

/-- The numbers under which TEMP_SAMPLE reports the cold plate's inlet and outlet sensors (R480, R483). -/
def coolantInlet : Nat := 0x140
def coolantOutlet : Nat := 0x141

/-- One sensor's reading (R480). -/
def readSensor (i : Nat) (t : Int) (s : State) : State :=
  if i = coolantInlet then { s with module := { s.module with coolantIn := t } }
  else if i = coolantOutlet then { s with module := { s.module with coolantOut := t } }
  else if (islandType i).isNone then s
  else
    let s := s.modIsland i fun x => { x with temp := t, hottest := max x.hottest t }
    if tempTrip ≤ t then raiseFault i 0x803 (BitVec.ofInt 32 t) 0 s else s

/-- TEMP_SAMPLE (R480). -/
def execTempSample (readings : List (Nat × Int)) (s : State) : Host.Outcome State Fault Refusal :=
  .next (if s.alive then readings.foldl (fun s r => readSensor r.1 r.2 s) s else s)

/-- An island compares its copy with a beacon's time plus its calibrated delay: the difference is corrected over the next 1,000 ns; beyond
2 ns it is a fault, else it is recorded, in units of 0.125 ns, when it is the largest (R20, R22, R24). -/
def compareBeacon (a : BeaconArrival) (s : State) : State :=
  if (islandType a.island).isNone ∨ a.island = idHub then s
  else
    let x := s.island a.island
    let d := x.offset + a.transit - x.delay
    let s := s.modIsland a.island fun x => { x with fix := -d, fixLeft := 1000, drift := a.drift, heard := s.time }
    if 131072 < d.natAbs then raiseFault a.island 0x810 (BitVec.ofInt 32 (Int.tdiv d 8192)) 0 s
    else if s.hub.skewWorst.toNat < d.natAbs / 8192 then
      s.modHub fun h => { h with skewWorst := BitVec.ofNat 16 (d.natAbs / 8192), skewIsland := BitVec.ofNat 16 a.island }
    else s

/-- BEACON (R20): every 1,000 ns. -/
def execBeacon (arrivals : List BeaconArrival) (s : State) : Host.Outcome State Fault Refusal :=
  .next (if s.alive && s.time.toNat % 1000 = 0 then arrivals.foldl (fun s a => compareBeacon a s) s else s)

/-- BEACON_MISSING (R432). -/
def execBeaconMissing (island : Nat) (s : State) : Host.Outcome State Fault Refusal :=
  .next (if island = idHub ∨ (s.time - (s.island island).heard).toNat < 3000 then s else raiseFault island 0x810 0x80000000 0 s)

/-- SKEW_CLEAR's effect (R24). -/
def clearSkew (v : Byte) (s : State) : State :=
  if v = 1 then s.modHub fun h => { h with skewWorst := 0, skewIsland := 0 } else s

/-- AER_UNCORRECTABLE_ERROR (R432). -/
def execAerUncorrectableError (status : Word32) (s : State) : Host.Outcome State Fault Refusal :=
  .next (raiseFault idHost 0x840 status 0 s)

end Sys2Proof.Machine
end

