-- ==== Sys2Proof/Machine/Firmware.lean ====
section
/-! DEFINITION. Carriers of commands (R394, R400) and the firmware receipt (R413 to R420). -/

namespace Sys2Proof.Machine

/-! ### Carriers (R394, R400) -/

/-- LAST_REFUSAL's numbers of the carriers (R406). -/
def carrierCode : Carrier → Nat
  | .mailbox => 1 | .i3c => 2 | .vdm => 3

/-- A carrier reaches the hub: CXL.io needs the link, the sideband a dynamic address (R400, R409, R467). -/
def State.reaches (s : State) (via : Carrier) : Bool :=
  s.alive && s.ident.served && match via with
    | .i3c => s.host.i3cAddr ≠ 0
    | _ => s.linkUp && s.inService idHost

/-- A carrier's commands are served. -/
def State.carrierUp (s : State) (via : Carrier) : Bool := s.reaches via && s.hubUp

/-- The answer to a command, which has completed (R394, R406). -/
def answer (via : Carrier) (ret : Return) (payload : Bytes) (s : State) : State :=
  let a : Answer := ⟨ret, payload⟩
  s.modHost fun h =>
    let h := { h with commands := h.commands + 1 }
    match via with
    | .mailbox => { h with mailbox := a }
    | .i3c => { h with i3c := a }
    | .vdm => { h with vdm := a }

/-! ### The receipt (R415 to R417) -/

def modFw (f : Firmware → Firmware) (s : State) : State := { s with fw := f s.fw }

/-- FW_STATUS (R416). -/
def Firmware.status (f : Firmware) : Word64 :=
  field 60 f.phase ||| field 24 (f.received.length % 2 ^ 32) ||| field 16 f.sections ||| field 0 f.code.toNat

/-- The largest image. -/
def fwMax : Nat := 16777216
/-- The signature block (R413). -/
def sigBlock : Nat := 2880

/-- A receipt open to data from a carrier, with no fetch running. -/
def State.receiving (s : State) (via : Carrier) : Bool :=
  decide (s.fw.fn = .starting) && s.fw.phase == 1 && decide (s.fw.owner = some via) && s.fw.fetching.isNone

/-- The 16-bit code a receipt command returns. -/
def fwAnswer (via : Carrier) (code : Word16) (s : State) : State := answer via .success (leBytes 2 code.toNat) s

/-- FW_BEGIN (R415, R420). -/
def execFwBegin (via : Carrier) (total : Word32) (s : State) : Host.Outcome State Fault Refusal :=
  .next (if !s.carrierUp via then s
  else if s.fw.fn ≠ .off then fwAnswer via 0x705 s
  else if fwMax < total.toNat then fwAnswer via 0x708 s
  else fwAnswer via 0 (setFwFn .starting (modFw (fun f =>
    { f with phase := 1, received := [], total := total.toNat, owner := some via, fetching := none, sections := 0, code := 0 }) s)))

/-- FW_CHUNK (R415). -/
def execFwChunk (via : Carrier) (offset : Word32) (data : Bytes) (s : State) : Host.Outcome State Fault Refusal :=
  .next (if !s.carrierUp via then s
  else if data = [] ∨ 16376 < data.length then answer via .invalidInput [] s
  else if !s.receiving via ∨ offset.toNat ≠ s.fw.received.length ∨ s.fw.total < s.fw.received.length + data.length then fwAnswer via 0x705 s
  else fwAnswer via 0 (modFw (fun f => { f with received := f.received ++ data }) s))

/-- FW_FETCH (R415, R416): over the mailbox only. -/
def execFwFetch (via : Carrier) (addr : Word64) (len : Word32) (s : State) : Host.Outcome State Fault Refusal :=
  .next (if !s.carrierUp via then s
  else if via ≠ .mailbox then answer via .unsupported [] s
  else if !s.receiving via ∨ s.fw.total < s.fw.received.length + len.toNat then fwAnswer via 0x705 s
  else fwAnswer via 0 (modFw (fun f => { f with fetching := if len = 0 then none else some len.toNat }) (hostRead addr.toNat len.toNat s)))

/-- FW_FETCH_COMPLETION (R416): one read of the fetch. -/
def execFwFetchCompletion (data : Bytes) (ok : Bool) (s : State) : Host.Outcome State Fault Refusal :=
  .next (match s.fw.fetching with
    | none => s
    | some n =>
      if !s.hubUp ∨ !s.hostPath then s
      else if !ok then failReceipt 0x709 s
      else
        let bs := data.take n
        modFw (fun f => { f with received := f.received ++ bs, fetching := if bs.length = n then none else some (n - bs.length) }) s)

/-- FW_COMMIT (R417). -/
def execFwCommit (via : Carrier) (s : State) : Host.Outcome State Fault Refusal :=
  .next (if !s.carrierUp via then s
  else if s.receiving via && s.fw.received.length = s.fw.total then fwAnswer via 0 (modFw (fun f => { f with phase := 2 }) s)
  else fwAnswer via 0x705 s)

/-- FW_ABORT (R415). -/
def execFwAbort (via : Carrier) (s : State) : Host.Outcome State Fault Refusal :=
  .next (if !s.carrierUp via then s
  else if s.fw.fn = .starting ∧ s.fw.owner = some via then
    fwAnswer via 0 (setFwFn .off (modFw (fun f => { f with phase := 0, received := [], total := 0, owner := none, fetching := none }) s))
  else fwAnswer via 0x705 s)

/-! ### Verification and loading (R413, R414, R418, R419) -/

/-- The words of the signed part's header. -/
def fwHead (signed : Bytes) : Words := wordsOf 8 (signed.take 64)
/-- Section entry i. -/
def fwSection (signed : Bytes) (i : Nat) : Words := wordsOf 2 ((signed.drop (64 + 16 * i)).take 16)
/-- The largest section of a kind (R414). -/
def sectionMax (kind : Nat) : Nat := if kind = 1 then 2 ^ 20 else if kind = 2 then 2 ^ 19 else fwMax

/-- A section entry keeps R414 and lies in the signed part. -/
def sectionOk (signed : Bytes) (i : Nat) : Bool :=
  let w := fwSection signed i
  let off := bits (word w 0) 31 0
  let len := bits (word w 1) 63 32
  bits (word w 0) 63 56 = i + 1 && rsvd (word w 0) 55 32 && rsvd (word w 1) 31 0 && off % 64 = 0 && 64 ≤ len &&
  len ≤ sectionMax (i + 1) && off + len ≤ signed.length

/-- Check 1 of R418. -/
def fwFormOk (signed : Bytes) : Bool :=
  let h := fwHead signed
  64 + 96 ≤ signed.length && bits (word h 0) 63 48 = 0xF && bits (word h 0) 47 44 = 1 && rsvd (word h 0) 43 32 &&
  bits (word h 0) 31 0 = signed.length && signed.length % 64 = 0 && bits (word h 2) 31 16 = 6 && rsvd (word h 2) 15 0 &&
  word h 4 = 0 && word h 5 = 0 && word h 6 = 0 && word h 7 = 0 && (List.range 6).all fun i => sectionOk signed i

/-- The code of R418's checks, in their order. -/
def fwCheck (image : Bytes) (floor : Word32) : Word16 :=
  let signed := image.drop sigBlock
  let h := fwHead signed
  if !fwFormOk signed then 0x701
  else if !Config.xmssVerify (image.take 2820) signed then 0x702
  else if bits (word h 1) 63 48 ≠ Config.familyId ∨ bits (word h 1) 47 32 ≠ Config.member then 0x703
  else if bits (word h 1) 31 0 < floor.toNat then 0x704 else 0

/-- The bytes of section i (R414). -/
def sectionBytes (signed : Bytes) (i : Nat) : Bytes :=
  let w := fwSection signed i
  (signed.drop (bits (word w 0) 31 0)).take (bits (word w 1) 63 32)

/-- The islands that section i goes to (R414): the hub, every cluster, link, memory and text island; the last section is the latency
model and verifier tables, which the clusters' drovers read. -/
def sectionIslands (i : Nat) : List Nat :=
  match i with
  | 0 => [idHub]
  | 1 => (List.range 16).map idCluster
  | 2 => (List.range 12).map fun n => linkIsland (4 * n)
  | 3 => (List.range 12).map idMemory
  | 4 => (List.range 4).map idText
  | _ => []

/-- Every section copied into its islands' code memories (R419). -/
def copySections (signed : Bytes) (s : State) : State :=
  (List.range 5).foldl (fun s i =>
    (sectionIslands i).foldl (fun s n => s.modIsland n fun x => { x with code := sectionBytes signed i }) s) s

/-- The sections are loaded and the firmware is Ready (R419). -/
def loadFirmware (s : State) : State :=
  let signed := s.fw.received.drop sigBlock
  let h := fwHead signed
  let s := modFw (fun f => { f with
    phase := 4, sections := 6, code := 0, secver := BitVec.ofNat 32 (bits (word h 1) 31 0), digest := Config.sha3 signed,
    build := word h 3, store := signed, tables := sectionBytes signed 5, owner := none }) s
  let s := copySections signed s
  let s := s.modHub fun x => { x with resultAbi := BitVec.ofNat 32 (bits (word h 2) 63 32) }
  raiseEvent 2 0x8000 2 (bits s.fw.status 31 0) (setFwFn .ready s)

/-- FW_VERIFY_END (R418, R419). -/
def execFwVerifyEnd (s : State) : Host.Outcome State Fault Refusal :=
  .next (if !s.hubUp ∨ s.fw.fn ≠ .starting ∨ s.fw.phase ≠ 2 then s
  else
    let code := fwCheck s.fw.received s.fw.floor
    if code ≠ 0 then failReceipt code s else loadFirmware s)

/-- FW_FLOOR's effect (R420): the refusing code, and the state after. -/
def raiseFwFloor (v : Word32) (s : State) : Word16 × State :=
  if v.toNat < s.fw.floor.toNat then (0x704, s)
  else (0, { s with fw := { s.fw with floor := v }, flash := { s.flash with fwFloor := v } })

end Sys2Proof.Machine
end

