-- ==== Sys2Proof/Machine/Module.lean ====
section
/-! DEFINITION. The module and the host link (R386 to R392, R397, R408, R409, R411, R465 to R483): power and resets, the boot ROM, the
link's ups and downs, interrupts, DOE and the sideband's addresses, and the power limiter. -/

namespace Sys2Proof.Machine

def modModule (f : Module → Module) (s : State) : State := { s with module := f s.module }

/-! ### Power and reset (R408, R474, R476, R477, R481) -/

/-- What a reset keeps: the queue of commands, the module flash, the pins, the host's own memory, and the count of open values. -/
def wiped (m : Module) (s : State) : State :=
  { pending := s.pending, flash := s.flash, module := m
    host := { hostMem := s.host.hostMem : HostIf }, hub := { freeUsed := s.hub.freeUsed : Hub } : State }

/-- Every rail off. -/
def powerOff (latched : Bool) (s : State) : State := wiped { perst := s.module.perst, latchedOff := latched : Module } s

/-- POWER_ON (R476): the rails come up, unless a thermal shutdown holds the module off. -/
def execPowerOn (s : State) : Host.Outcome State Fault Refusal :=
  .next (if s.module.powered ∨ s.module.latchedOff then s else modModule (fun m => { m with powered := true }) s)

/-- POWER_FAULT (R477): V48 out of its range or absent, or a rail out of regulation. -/
def execPowerFault (s : State) : Host.Outcome State Fault Refusal := .next (powerOff false s)

/-- THERMAL_SHUTDOWN (R481): off until V48 has been absent. -/
def execThermalShutdown (s : State) : Host.Outcome State Fault Refusal := .next (if s.module.powered then powerOff true s else s)

/-- PERST_ASSERT (R408). -/
def execPerstAssert (s : State) : Host.Outcome State Fault Refusal :=
  .next (wiped { powered := s.module.powered, latchedOff := s.module.latchedOff, perst := true : Module } s)

/-! ### The boot ROM (R409, R423, R424, R428) -/

def modIdent (f : Identity → Identity) (s : State) : State := { s with ident := f s.ident }

/-- A label of R424 as ASCII bytes. -/
def uidLabel : Bytes := [0x4B, 0x51, 0x2D, 0x55, 0x49, 0x44]

/-- Steps 4 and 5: the identity from the seed, or none (R423, R424). With no identity, what FW_FLOOR reads is open. -/
def bootIdentity (seed : Option Bytes) (s : State) : State :=
  match seed with
  | none =>
    let (w, s) := s.fresh
    { s with ident := { s.ident with pufState := 3, code := 0x707 }, fw := { s.fw with floor := BitVec.ofNat 32 w.toNat } }
  | some d =>
    let key := Config.attestKey d
    noteReady s (modIdent (fun i => { i with pufState := 2, seed := d, pubkey := fit 68 key, uid := fit 32 (Config.shake256 (uidLabel ++ key) 32), code := 0x706 }) s)

/-- Step 6: the signing record and FW_FLOOR (R409, R428). -/
def bootRecord (s : State) : State :=
  if s.ident.pufState ≠ 2 then s
  else if s.flash.macOk && s.flash.count = s.flash.counter then
    noteReady s { s with ident := { s.ident with code := 0, leafLimit := s.flash.leafLimit, leafNext := s.flash.leafLimit }
                         fw := { s.fw with floor := s.flash.fwFloor } }
  else { s with fw := { s.fw with floor := 0xFFFFFFFF } }

/-- Steps 1 to 3. -/
def bootHub (s : State) : State := noteReady s (modIdent (fun i => { i with served := true, romDigest := fit 48 Config.romDigest }) s)

/-- PERST_RELEASE (R408, R409, R442, R467). -/
def execPerstRelease (boot : BootIn) (s : State) : Host.Outcome State Fault Refusal :=
  .next (if !s.module.powered ∨ !s.module.perst then s
  else
    let s := modModule (fun m => { m with perst := false, ids := boot.ids }) s
    let s := modFaults (fun f => { f with factory := boot.ftm }) s
    let s := (boot.delays.filter fun d => (islandType d.1).isSome).foldl (fun s d => s.modIsland d.1 fun x => { x with delay := d.2 }) s
    if boot.romOk then bootRecord (bootIdentity boot.seed (bootHub s)) else s)

/-! ### The host link (R386, R397, R407, R411) -/

/-- Sends what waits behind an unmasked vector (R397). -/
def sendPending (v : Nat) (s : State) : State :=
  if tget false s.host.pendingV v then fireVector v (s.modHost fun h => { h with pendingV := tset false h.pendingV v false }) else s

/-- Writes that waited for the link go out, in their order (R434, R435). -/
def flushHost (s : State) : State :=
  s.host.waiting.foldl (fun s w => hostWrite w.1 w.2 s) (s.modHost fun h => { h with waiting := [] })

/-- Requests whose writes a host fault cut off fail (R435, R447). -/
def failCut (s : State) : State :=
  ((s.slots.filter fun e => e.2.cut && liveState e.2.status).map Prod.fst).foldl (fun s n => failSlot n 0x840 s) s

/-- HOST_LINK_UP (R386, R406, R411). -/
def execHostLinkUp (flit256 : Bool) (s : State) : Host.Outcome State Fault Refusal :=
  .next (if s.inService idHost && !s.linkUp then
    let t := s.modHost fun h => { h with
      linkState := if flit256 then 2 else 3, linkRate := if flit256 then 64 else 32, linkWidth := 8
      retrains := if h.linkRate = 0 then h.retrains else h.retrains + 1 }
    failCut (flushHost (sendPending 1 (sendPending 0 (noteReady s t))))
  else s)

/-- HOST_LINK_DOWN (R407, R432): fault 0840h of the host island. -/
def execHostLinkDown (aer : Word32) (s : State) : Host.Outcome State Fault Refusal :=
  .next (if s.linkUp then raiseFault idHost 0x840 aer 0 (hostCut (noteReady s (s.modHost fun h => { h with linkState := 0 }))) else s)

/-- VECTOR_UNMASK (R397). -/
def execVectorUnmask (vector : Nat) (s : State) : Host.Outcome State Fault Refusal :=
  .next (if vector < 2 && s.reaches .mailbox then sendPending vector (s.modHost fun h => { h with unmasked := tset false h.unmasked vector true })
  else s)

/-! ### DOE (R386, R392) -/

/-- The protocols of the DOE mailbox, as vendor id and type; the numbers are those of the PCIe and CXL standards. -/
def doeProtocols : List (Nat × Nat) := [(0x0001, 0), (0x0001, 1), (0x0001, 2), (0x1E98, 2)]

/-- DOE_DISCOVERY (R386): a protocol, and the index of the next one, 0 after the last. -/
def execDoeDiscovery (index : Nat) (s : State) : Host.Outcome State Fault Refusal :=
  .next (if !s.reaches .mailbox ∨ !s.hubUp then s
  else
    let p := doeProtocols.getD index (0xFFFF, 0)
    s.modHost fun h => { h with doe := leBytes 2 p.1 ++ leBytes 1 p.2 ++ leBytes 1 (if index + 1 < doeProtocols.length then index + 1 else 0) })

/-- A DSLBIS structure: a data type, its base unit and value (R392); the layouts are those of the CDAT standard. -/
def dslbis (type unit value : Nat) : Bytes :=
  [1, 0, 24, 0, 0, 0] ++ leBytes 1 type ++ [0] ++ leBytes 8 unit ++ leBytes 2 value ++ zeros 6

/-- The CDAT's structures: the region, its latencies in units of 1,000 ps, and its bandwidths in MB/s (R392). -/
def cdatEntries : List Bytes :=
  [[0, 0, 24, 0, 0, 0, 0, 0] ++ zeros 8 ++ leBytes 8 (2 ^ 34), dslbis 1 1000 750, dslbis 2 1000 600, dslbis 4 1 60000, dslbis 5 1 60000]

/-- CDAT_TABLE_ACCESS (R392): a structure, and the handle of the next one, FFFFh after the last. -/
def execCdatTableAccess (entry : Nat) (s : State) : Host.Outcome State Fault Refusal :=
  .next (if !s.reaches .mailbox ∨ !s.hubUp then s
  else s.modHost fun h => { h with
    doe := [0, 0] ++ leBytes 2 (if entry + 1 < cdatEntries.length then entry + 1 else 0xFFFF) ++ cdatEntries.getD entry [] })

/-! ### The sideband's addresses and MCTP control messages (R400, R467) -/

/-- The I3C static address the straps select. -/
def State.staticAddr (s : State) : Nat := 0x30 + s.module.ids.toNat

/-- SETDASA (R467). -/
def execSetdasa (static dynamic : BitVec 7) (s : State) : Host.Outcome State Fault Refusal :=
  .next (if s.alive && s.ident.served && static.toNat = s.staticAddr then s.modHost fun h => { h with i3cAddr := dynamic.setWidth 8 } else s)

/-- ENTDAA (R467): a target without an address takes one. -/
def execEntdaa (dynamic : BitVec 7) (s : State) : Host.Outcome State Fault Refusal :=
  .next (if s.alive && s.ident.served && s.host.i3cAddr = 0 then s.modHost fun h => { h with i3cAddr := dynamic.setWidth 8 } else s)

/-- The bindings of Shoind (R400). -/
def binding : Carrier → Option Nat
  | .mailbox => none
  | .i3c => some 0
  | .vdm => some 1

/-- A control message is answered on its binding. -/
def mctpAnswer (via : Carrier) (bs : State → Bytes) (s : State) : State :=
  match binding via with
  | none => s
  | some b => if s.carrierUp via then s.modHost fun h => { h with mctp := tset [] h.mctp b (bs s) } else s

/-- The endpoint id on a binding (R406). -/
def State.eid (s : State) (via : Carrier) : Byte := if via = .i3c then s.host.eidI3c else s.host.eidPci

/-- SET_ENDPOINT_ID (R400): ids 0 and FFh cannot be assigned. -/
def execSetEndpointId (via : Carrier) (eid : Byte) (s : State) : Host.Outcome State Fault Refusal :=
  .next (if !s.carrierUp via then s
  else if eid = 0 ∨ eid = 0xFF then mctpAnswer via (fun _ => [2]) s
  else mctpAnswer via (fun s => [0, 0, s.eid via, 0]) (s.modHost fun h => match via with
    | .i3c => { h with eidI3c := eid }
    | .vdm => { h with eidPci := eid }
    | .mailbox => h))

/-- GET_ENDPOINT_ID (R400). -/
def execGetEndpointId (via : Carrier) (s : State) : Host.Outcome State Fault Refusal := .next (mctpAnswer via (fun s => [0, s.eid via, 0, 0]) s)

/-- GET_MCTP_VERSION_SUPPORT (R400). -/
def execGetMctpVersionSupport (via : Carrier) (s : State) : Host.Outcome State Fault Refusal :=
  .next (mctpAnswer via (fun _ => 0 :: Config.mctpVersions) s)

/-- GET_MESSAGE_TYPE_SUPPORT (R400, R401, R425). -/
def execGetMessageTypeSupport (via : Carrier) (s : State) : Host.Outcome State Fault Refusal :=
  .next (mctpAnswer via (fun _ => if via = .i3c then [0, 2, 5, 0x7E] else [0, 1, 0x7E]) s)

/-! ### Power (R478, R483) -/

/-- A trigger of R478 holds. -/
def Module.triggered (m : Module) : Bool := 1400 < m.p1 || 1000 ≤ m.over1200 || 1200 < m.p100

/-- POWER_REPORT (R478): the 10 µs just past were frozen at the fraction in force, and the fraction moves. -/
def execPowerReport (p1 p100 mv : Nat) (s : State) : Host.Outcome State Fault Refusal :=
  .next (if !s.hubUp then s
  else modModule (fun m =>
    let m := { m with
      p1 := p1, p100 := p100, inputMv := mv, peak := max m.peak p1, over1200 := if 1200 < p1 then m.over1200 + 1 else 0
      freezeCc := m.freezeCc + BitVec.ofNat 64 (256 * (20000 / 64) * m.fraction + 256 * (20000 % 64 * m.fraction / 64)) }
    if m.triggered then { m with fraction := min 48 (m.fraction + 1), sinceLower := 0 }
    else if 9 ≤ m.sinceLower then { m with fraction := m.fraction - 1, sinceLower := 0 }
    else { m with sinceLower := m.sinceLower + 1 }) s)

/-- ALERT# is driven low (R466). -/
def State.alertLow (s : State) : Bool :=
  s.faults.captured || s.islands.any fun e => e.2.service = .heldOff || s.module.tempWarn ≤ e.2.temp

/-- PWRGD is released (R465). -/
def State.powerGood (s : State) : Bool := s.module.powered

end Sys2Proof.Machine
end

