-- ==== Sys2Proof/Machine/Counters.lean ====
section
/-! DEFINITION. Counters and sampling as software sees them (R449 to R463): records, laps, configurations, and the tagging of
items. -/

namespace Sys2Proof.Machine

/-! ### Counter records (R450, R454, R456) -/

/-- An island type's clock, in cycles per 20 ns (R13). -/
def IslandType.clock : IslandType → Nat
  | .core => 40 | .text => 40 | .memory => 32 | .link => 35
  | .cluster => 20 | .host => 20 | .hub => 20

/-- The most cycles an island's clock can have made by a device time; an idle island gates its clock (R14). -/
def cyclesAt (i t : Nat) : Nat :=
  match islandType i with
  | some k => t * k.clock / 20
  | none => 0

/-- Counter c of an island. -/
def State.ctr (s : State) (i c : Nat) : Ctr := tget {} (s.island i).ctrs c

/-- The latch time of record j of a read (R454, R455). -/
def latchTime (s : State) (j : Nat) : Nat := s.time.toNat + 40 + 20 * j

/-- The count a read delivers. F0 to F2 follow from cycle timing alone: any count their clock allows. -/
def ctrCount (s : State) (i c j : Nat) : Nat :=
  if c ≤ 2 then (Config.freeWord s.hub.freeUsed).toNat % min (2 ^ 56) (cyclesAt i (latchTime s j) + 1)
  else (s.ctr i c).value.toNat

/-- The counter record that record j of a read gives. -/
def counterRecord (s : State) (i c j : Nat) : Bytes :=
  bytesOf [field 63 (if (s.ctr i c).lap then 1 else 0) ||| field 0 (ctrCount s i c j), BitVec.ofNat 64 (latchTime s j)]

/-- A read of F0 to F2 uses up its open value. -/
def useCount (c : Nat) (s : State) : State :=
  if c ≤ 2 then s.modHub fun h => { h with freeUsed := h.freeUsed + 1 } else s

/-! ### Wraps and laps (R456, R457) -/

/-- A counter of single events passes 2^56 - 1. -/
def wrapOne (i c : Nat) (s : State) : State :=
  let s := s.modIsland i fun x => { x with ctrs := tmod {} x.ctrs c fun k => { k with lap := true } }
  if tget false s.sampling.notify (16 * i + c) then raiseEvent 3 (BitVec.ofNat 16 (0x5100 + i)) (BitVec.ofNat 8 (c + 1)) 0 s else s

/-- COUNTER_WRAP (R456, R457): F0 to F2, when their clock can have come so far; the others wrap as they count. -/
def execCounterWrap (island counter : Nat) (s : State) : Host.Outcome State Fault Refusal :=
  .next (if s.alive && s.ident.served && decide (counter ≤ 2) && decide (2 ^ 56 ≤ cyclesAt island s.time.toNat) then wrapOne island counter s
  else s)

/-- LAP_CLEAR names a counter. -/
def lapOk (v : Nat) : Bool := v < 2 ^ 13 && (islandType (v / 16)).isSome && v % 16 < 12

/-- LAP_CLEAR's effect: the flag alone (R456). -/
def clearLap (v : Nat) (s : State) : State :=
  s.modIsland (v / 16) fun x => { x with ctrs := tmod {} x.ctrs (v % 16) fun k => { k with lap := false } }

/-! ### Configurations (R451, R452) -/

/-- The highest event number of a type's class. -/
def IslandType.events : IslandType → Nat
  | .core => 0xB | .cluster => 4 | .memory => 6 | .link => 6 | .host => 4 | .text => 3 | .hub => 4

/-- A configuration record an island may hold. -/
def cfgOk (i : Nat) (w : Words) : Bool :=
  rsvd (word w 0) 41 32 && rsvd (word w 0) 15 0 && rsvd (word w 1) 31 0 &&
  (match islandType i with
    | some t => bits (word w 0) 63 56 = 0 ||
        (bits (word w 0) 63 56 = t.eventClass && 1 ≤ bits (word w 0) 55 48 && bits (word w 0) 55 48 ≤ t.events)
    | none => false)

/-- The record of Pp is written: its counter and lap flag start again. -/
def setCfg (i p : Nat) (w : Words) (s : State) : State :=
  s.modIsland i fun x => { x with
    cfgs := tset {} x.cfgs p ⟨word w 0, word w 1, word w 2, word w 3⟩
    ctrs := tset {} x.ctrs (4 + p) {} }

/-! ### Sampling (R459, R461) -/

/-- SAMPLE_ENABLE's effect: from 0, every tagging island is seeded. -/
def enableSampling (v : Byte) (s : State) : State :=
  let old := s.sampling.enable
  let s := (s.cores.map Prod.fst).foldl (fun s k => settleCore k s) (settleHub s)
  let s := { s with sampling := { s.sampling with enable := v } }
  if old = 0 ∧ v ≠ 0 then (List.range 256).foldl (fun s k => seedIsland k s) (seedIsland idHub s) else s

/-- SAMPLE_TAG (R459): the item that has brought an island's down-count to 0 is tagged; the handle only names it. -/
def execSampleTag (island : Nat) (_handle : Word32) (s : State) : Host.Outcome State Fault Refusal :=
  .next (if !s.alive then s
  else if island = idHub then settleHub s
  else if island < 256 then settleCore island s else s)

/-- SAMPLE_RECORD's read removes the oldest record (R461). -/
def takeSample (s : State) : State := { s with sampling := { s.sampling with records := s.sampling.records.tail } }

end Sys2Proof.Machine
end

