-- ==== Sys2Proof/Machine/DictOps.lean ====
section
/-! DEFINITION. What a dictionary entry is (R402, R403), and the forms in which the entry tables are written. -/

namespace Sys2Proof.Machine

/-- Access kinds, numbered as ODL.ACCESS numbers them (R404). -/
inductive Access4 where
  | ro | rw | wo | rwo
  deriving DecidableEq, Repr

def Access4.code : Access4 → Nat
  | .ro => 0 | .rw => 1 | .wo => 2 | .rwo => 3

/-- An entry type: its code and length (R403). -/
structure EntType where
  code : Nat
  len  : Nat
  deriving DecidableEq, Repr

def tU8 : EntType := ⟨1, 1⟩
def tU16 : EntType := ⟨2, 2⟩
def tU32 : EntType := ⟨3, 4⟩
def tU64 : EntType := ⟨4, 8⟩
def tI32 : EntType := ⟨5, 4⟩
def tTime : EntType := ⟨7, 8⟩
def tBytes (n : Nat) : EntType := ⟨8, n⟩
def tStr (n : Nat) : EntType := ⟨9, n⟩

/-- The outcome of a write that has passed the tests before it: ODR.RESULT, ODR.CODE, and the state after. -/
structure WriteOut where
  result : Nat := 0
  code   : Word16 := 0
  state  : State

def wrote (s : State) : WriteOut := { state := s }
/-- Refused by the entry's own rule when the code is not 0 (06h). -/
def ruled (r : Word16 × State) : WriteOut := { result := if r.1 = 0 then 0 else 6, code := r.1, state := r.2 }
/-- An access result of its own. -/
def resulted (r : Nat × State) : WriteOut := { result := r.1, state := r.2 }

/-- Where an access lands: the index above the first of its entry's indices, the subindex above its first, and the place of the
record in its command. -/
structure At where
  i : Nat
  k : Nat
  j : Nat := 0
  deriving DecidableEq, Repr

/-- The entries of one line of an entry table: the indices and subindices, the type and access, what they read, what a read does,
whether they are writable now (03h), which values they take (04h), and what a write does. -/
structure Ent where
  lo   : Nat
  hi   : Nat
  slo  : Nat
  shi  : Nat
  type : EntType
  acc  : Access4
  get  : State → At → Bytes
  after : At → State → State
  may  : State → At → Bytes → Bool
  ok   : State → At → Bytes → Bool
  set  : At → Bytes → State → WriteOut

/-- A line whose entries are read only. -/
def roLine (index slo shi : Nat) (t : EntType) (get : State → Nat → Bytes) (after : Nat → State → State := fun _ s => s) : Ent where
  lo := index
  hi := index
  slo := slo
  shi := shi
  type := t
  acc := .ro
  get s a := get s a.k
  after a s := after a.k s
  may _ _ _ := true
  ok _ _ _ := true
  set _ _ s := wrote s

/-- A number as the value of a type. -/
def asVal (t : EntType) (n : Nat) : Bytes := leBytes t.len n

def ro (index sub : Nat) (t : EntType) (get : State → Nat) (after : State → State := id) : Ent :=
  roLine index sub sub t (fun s _ => asVal t (get s)) fun _ => after
def roN (index n : Nat) (t : EntType) (get : State → Nat → Nat) (after : Nat → State → State := fun _ s => s) : Ent :=
  roLine index 1 n t (fun s k => asVal t (get s k)) after
def roB (index sub n : Nat) (get : State → Bytes) : Ent := roLine index sub sub (tBytes n) fun s _ => fit n (get s)
def roBN (index n len : Nat) (get : State → Nat → Bytes) : Ent := roLine index 1 n (tBytes len) fun s k => fit len (get s k)

/-- A line of writable entries: the access, what they read, when they are writable, their range, and the write. -/
def rwLine (index slo shi : Nat) (t : EntType) (acc : Access4) (get : State → Nat → Bytes) (may : State → Nat → Bytes → Bool)
    (ok : State → Nat → Bytes → Bool) (set : Nat → Bytes → State → WriteOut) : Ent where
  lo := index
  hi := index
  slo := slo
  shi := shi
  type := t
  acc := acc
  get s a := get s a.k
  after _ s := s
  may s a v := may s a.k v
  ok s a v := ok s a.k v
  set a v s := set a.k v s

/-- One number entry that is always writable. -/
def rw (index sub : Nat) (t : EntType) (get : State → Nat) (ok : Nat → Bool) (set : Nat → State → State) : Ent :=
  rwLine index sub sub t .rw (fun s _ => asVal t (get s)) (fun _ _ _ => true) (fun _ _ v => ok (leNat v))
    fun _ v s => wrote (set (leNat v) s)

/-- One number entry of which a write may be refused. -/
def rwR (index sub : Nat) (t : EntType) (get : State → Nat) (ok : Nat → Bool) (set : Nat → State → WriteOut) : Ent :=
  rwLine index sub sub t .rw (fun s _ => asVal t (get s)) (fun _ _ _ => true) (fun _ _ v => ok (leNat v)) fun _ v s => set (leNat v) s

/-- n number entries, writable while `may` holds of the state, the unit and the value. -/
def rwN (index n : Nat) (t : EntType) (acc : Access4) (get : State → Nat → Nat) (may : State → Nat → Nat → Bool) (ok : Nat → Bool)
    (set : Nat → Nat → State → WriteOut) : Ent :=
  rwLine index 1 n t acc (fun s k => asVal t (get s k)) (fun s k v => may s k (leNat v)) (fun _ _ v => ok (leNat v))
    fun k v s => set k (leNat v) s

/-- A write-only number entry. -/
def wo (index sub : Nat) (t : EntType) (ok : Nat → Bool) (set : Nat → State → WriteOut) : Ent :=
  rwLine index sub sub t .wo (fun _ _ => []) (fun _ _ _ => true) (fun _ _ v => ok (leNat v)) fun _ v s => set (leNat v) s

def woN (index n : Nat) (t : EntType) (set : Nat → Nat → State → WriteOut) : Ent :=
  rwLine index 1 n t .wo (fun _ _ => []) (fun _ _ _ => true) (fun _ _ _ => true) fun k v s => set k (leNat v) s

/-- A byte-array entry. -/
def rwB (index sub n : Nat) (get : State → Bytes) (ok : Bytes → Bool) (set : Bytes → State → WriteOut) : Ent :=
  rwLine index sub sub (tBytes n) .rw (fun s _ => fit n (get s)) (fun _ _ _ => true) (fun _ _ v => ok v) fun _ v s => set v s
def rwBN (index n len : Nat) (acc : Access4) (get : State → Nat → Bytes) (may : State → Nat → Bool) (ok : Bytes → Bool)
    (set : Nat → Bytes → State → WriteOut) : Ent :=
  rwLine index 1 n (tBytes len) acc (fun s k => fit len (get s k)) (fun s k _ => may s k) (fun _ _ v => ok v) set

/-- Any value. -/
def anyVal (_ : Nat) : Bool := true
/-- A range. -/
def within (lo hi v : Nat) : Bool := lo ≤ v && v ≤ hi
/-- 0 or 1. -/
def isBit (v : Nat) : Bool := v ≤ 1
/-- Always writable. -/
def always (_ : State) (_ _ : Nat) : Bool := true

/-- n bits packed into bytes, bit b at bit b mod 8 of byte b div 8. -/
def packBytes (n : Nat) (f : Nat → Bool) : Bytes := (List.range n).map fun i => BitVec.ofNat 8 (packBits (fun b => f (8 * i + b)) 8)
/-- Bit b of bytes packed so. -/
def unpacked (bs : Bytes) (b : Nat) : Bool := bit (bs.getD (b / 8) 0) (b % 8)
/-- The table of the bits of bytes, by the default of the units it leaves out. -/
def bitTable (d : Bool) (n : Nat) (bs : Bytes) : Table Bool := ((List.range n).filter fun b => unpacked bs b ≠ d).map fun b => (b, unpacked bs b)
/-- The table of bytes, by the default of the units it leaves out. -/
def byteTable (d : Nat) (bs : Bytes) : Table Nat := (bs.zipIdx.filter fun (b, _) => b.toNat ≠ d).map fun (b, i) => (i, b.toNat)

/-- The ids of the islands there are (R15). -/
def islandIds : List Nat := (List.range 0x140).filter fun i => (islandType i).isSome

end Sys2Proof.Machine
end

