-- ==== Sys2Proof/Machine/EntriesA.lean ====
section
/-! DEFINITION. Dictionary entries of identity, time, requests, index objects, scans, ranking, text and model serving (R7, R24, R66,
R90, R114, R142, R166, R297). -/

namespace Sys2Proof.Machine

def setHub (f : Nat → Hub → Hub) (v : Nat) (s : State) : State := s.modHub (f v)
def b1 (b : Bool) : Nat := if b then 1 else 0

/-! ### Identity and time (R7, R15, R24) -/

/-- "KQ960-M12L". -/
def partNumber : Bytes := [0x4B, 0x51, 0x39, 0x36, 0x30, 0x2D, 0x4D, 0x31, 0x32, 0x4C]

def entIdentity : List Ent :=
  [ro 0x1000 1 tU16 fun _ => Config.familyId, ro 0x1000 2 tU16 fun _ => Config.member, ro 0x1000 3 tU8 fun _ => Config.stepping,
   roLine 0x1000 4 4 (tStr 16) fun _ _ => fit 16 partNumber,
   ro 0x1010 1 tU16 fun _ => Config.cores, ro 0x1010 2 tU8 fun _ => Config.clusters, ro 0x1010 3 tU8 fun _ => 2,
   ro 0x1010 4 tU8 fun _ => Config.stacks, ro 0x1010 5 tU8 fun _ => Config.links, ro 0x1010 6 tU8 fun _ => 0,
   ro 0x1010 7 tU32 fun _ => Config.formatMask, ro 0x1010 8 tU32 fun _ => Config.slots, ro 0x1010 9 tU16 fun _ => Config.tenants,
   ro 0x1010 0xA tU16 fun _ => 512, ro 0x1010 0xB tU8 fun _ => Config.texts, ro 0x1010 0xC tU8 fun _ => 16,
   ro 0x1020 1 tU32 fun s => s.hub.resultAbi.toNat,
   ro 0x2010 1 tTime fun s => s.time.toNat, ro 0x2010 2 tU32 fun _ => 1000, ro 0x2010 3 tU16 fun s => s.hub.skewWorst.toNat,
   ro 0x2010 4 tU16 fun s => s.hub.skewIsland.toNat, wo 0x2010 5 tU8 anyVal fun v s => wrote (clearSkew (BitVec.ofNat 8 v) s),
   ro 0x2011 1 tU16 fun _ => Config.islands]

/-! ### Requests (R66) -/

/-- SLOTS_IN_USE. -/
def State.slotsInUse (s : State) : Nat := (s.slots.filter fun e => stState e.2.status ≠ ssFree).length

/-- An entry of a ring that can change only while the ring is not served. -/
def ringIdle (s : State) (k _ : Nat) : Bool := !(s.ring k).enable

/-- RING_ENABLE's effect: from 0 to 1 both counts start at 0 (R33). -/
def enableRing (n : Nat) (on : Bool) (s : State) : State :=
  s.modRing n fun r => if on && !r.enable then { r with enable := true, head := 0, tail := 0 } else { r with enable := on }

def entRequests : List Ent :=
  [rw 0x7000 1 tU32 (fun s => s.hub.slotRetain.toNat) anyVal (setHub fun v h => { h with slotRetain := BitVec.ofNat 32 v }),
   rw 0x7000 2 tU32 (fun s => s.hub.defaultDeadline.toNat) anyVal (setHub fun v h => { h with defaultDeadline := BitVec.ofNat 32 v }),
   rw 0x7000 3 tU32 (fun s => s.hub.maxInput.toNat) (within 4096 1048576) (setHub fun v h => { h with maxInput := BitVec.ofNat 32 v }),
   rw 0x7000 4 tU16 (fun s => s.hub.coalesce.toNat) (within 0 10000) (setHub fun v h => { h with coalesce := BitVec.ofNat 16 v }),
   ro 0x7000 5 tU32 State.slotsInUse, ro 0x7000 6 tU64 fun s => s.hub.admitted.toNat, ro 0x7000 7 tU64 fun s => s.hub.rejected.toNat,
   ro 0x7000 8 tU32 fun s => s.hub.cancelLate.toNat, ro 0x7000 9 tU32 fun s => s.hub.releaseIgnored.toNat,
   rwB 0x7000 0xA 512 (fun s => packBytes 512 (tget false s.hub.tenantEnable)) (fun _ => true)
     fun v s => wrote (s.modHub fun h => { h with tenantEnable := bitTable false 4096 v }),
   rwN 0x7010 64 tU64 .rw (fun s k => (s.ring k).base.toNat) ringIdle (fun v => v % 4096 = 0)
     fun k v s => wrote (s.modRing k fun r => { r with base := BitVec.ofNat 64 v }),
   rwN 0x7011 64 tU8 .rw (fun s k => (s.ring k).sizeLog2) ringIdle (within 6 16)
     fun k v s => wrote (s.modRing k fun r => { r with sizeLog2 := v }),
   rwN 0x7012 64 tU16 .rw (fun s k => (s.ring k).tenantLock.toNat) ringIdle (fun v => v / 4096 % 8 = 0)
     fun k v s => wrote (s.modRing k fun r => { r with tenantLock := BitVec.ofNat 16 v }),
   rwN 0x7013 64 tU8 .rw (fun s k => (s.ring k).weight) always (within 1 16) fun k v s => wrote (s.modRing k fun r => { r with weight := v }),
   rwN 0x7014 64 tU8 .rw (fun s k => b1 (s.ring k).enable) always isBit fun k v s => wrote (enableRing k (v = 1) s),
   roN 0x7015 64 tU32 fun s k => (s.ring k).errors.toNat]

/-! ### Index objects and publishing (R90) -/

/-- A registration's id and descriptor can change while nothing holds them. -/
def corpusIdle (s : State) (k _ : Nat) : Bool := !(s.corpus k).enable && s.oldestHeld k = 0xFFFFFFFF

/-- A write of a slot's id or descriptor makes a new registration, whose CURRENT_EPOCH and floor start at 0 (R88). -/
def entIndex : List Ent :=
  [ro 0x4100 1 tU8 fun _ => Config.corpora, ro 0x4100 2 tU8 fun _ => Config.jobSlots,
   rwN 0x4110 64 tU16 .rw (fun s k => (s.corpus k).id.toNat) corpusIdle anyVal
     fun k v s => wrote (s.modCorpus k fun c => { c with id := BitVec.ofNat 16 v, current := 0, floor := 0 }),
   rwN 0x4111 64 tU64 .rw (fun s k => (s.corpus k).desc.toNat) corpusIdle anyVal
     fun k v s => wrote (s.modCorpus k fun c => { c with desc := BitVec.ofNat 64 v, current := 0, floor := 0 }),
   roN 0x4112 64 tU32 fun s k => (s.corpus k).current.toNat,
   woN 0x4113 64 tU32 fun k v s => ruled (advanceEpoch k v s),
   rwN 0x4114 64 tU32 .rw (fun s k => (s.corpus k).floor.toNat) always anyVal fun k v s => ruled (raiseFloor k v s),
   roN 0x4115 64 tU32 State.oldestHeld,
   rwN 0x4116 64 tU8 .rw (fun s k => b1 (s.corpus k).enable) (fun s k v => v ≠ 1 || (s.corpus k).desc ≠ 0) isBit
     fun k v s => wrote (s.modCorpus k fun c => { c with enable := v = 1 }),
   roN 0x4117 64 tU16 fun s k => s.switchesPending k none,
   roN 0x4120 16 tU64 fun s k => (s.job k).word.toNat,
   ro 0x4121 1 tU64 fun s => s.publish.pagesPublished.toNat, ro 0x4121 2 tU32 fun s => s.publish.switchConflicts.toNat,
   ro 0x4121 3 tU32 fun s => s.publish.floorFails.toNat, wo 0x4121 4 tU8 anyVal fun v s => wrote (releaseJob v s)]

/-! ### Scans and ranking (R114, R142) -/

def setScan (f : Nat → Scan → Scan) (v : Nat) (s : State) : State := { s with scan := f v s.scan }

def entScans : List Ent :=
  [rw 0x4130 1 tU8 (fun s => s.scan.reservePct) (within 0 50) (setScan fun v x => { x with reservePct := v }),
   rw 0x7100 1 tU8 (fun s => s.scan.maxMembers) (within 1 64) (setScan fun v x => { x with maxMembers := v }),
   rw 0x7100 2 tU32 (fun s => s.scan.waitNs.toNat) (within 0 1000000) (setScan fun v x => { x with waitNs := BitVec.ofNat 32 v }),
   rw 0x7100 3 tU32 (fun s => s.scan.urgentNs.toNat) anyVal (setScan fun v x => { x with urgentNs := BitVec.ofNat 32 v }),
   rw 0x7100 4 tU8 (fun s => b1 s.scan.eager) isBit (setScan fun v x => { x with eager := v = 1 }),
   rw 0x7100 5 tU32 (fun s => s.scan.retryNs.toNat) (within 100000 100000000) (setScan fun v x => { x with retryNs := BitVec.ofNat 32 v }),
   rw 0x7100 6 tU8 (fun s => s.scan.retries) (within 0 7) (setScan fun v x => { x with retries := v }),
   ro 0x7101 1 tU64 fun s => s.scan.sweeps.toNat, ro 0x7101 2 tU64 fun s => s.scan.sweepMembers.toNat,
   ro 0x7101 3 tU32 fun s => s.scan.tiePasses.toNat, ro 0x7101 4 tU32 fun s => s.scan.tableFull.toNat,
   ro 0x7101 5 tU32 fun s => s.scan.dupReplies.toNat]

def entRanking : List Ent :=
  [rw 0x7110 1 tU8 (fun s => s.hub.rerankClusters) (within 1 4) (setHub fun v h => { h with rerankClusters := v }),
   rw 0x7110 2 tU16 (fun s => s.hub.rerankMask.toNat) anyVal (setHub fun v h => { h with rerankMask := BitVec.ofNat 16 v }),
   ro 0x7111 1 tU64 fun s => s.hub.dupsRemoved.toNat, ro 0x7111 2 tU64 fun s => s.hub.nanScores.toNat,
   ro 0x7111 3 tU64 fun s => s.hub.filterEvals.toNat, ro 0x7111 4 tU64 fun s => s.hub.filterPasses.toNat,
   ro 0x7111 5 tU32 fun s => s.hub.shortfalls.toNat, ro 0x7111 6 tU32 fun s => s.hub.tieCuts.toNat]

/-! ### Text (R144, R160, R166) -/

/-- TEMPLATE_USERS (R166): admitted requests that name the template. -/
def State.templateUsers (s : State) (n : Nat) : Nat :=
  (s.slots.filter fun e => liveState e.2.status && dOpcode e.2.desc = opPack && e.2.template = n).length

/-- A template's id and descriptor can change. -/
def templateIdle (s : State) (k _ : Nat) : Bool := !(s.template k).enable && s.templateUsers k = 0

/-- A model slot or a template that is in use names the vocabulary (R144). -/
def State.vocabNamed (s : State) (n : Nat) : Bool :=
  (s.models.any fun e => e.2.fn ≠ .off && e.2.head ≠ [] && mdlVocab e.2.head = n) ||
  (s.templates.any fun e => (e.2.enable || s.templateUsers e.1 ≠ 0) && tplVocab e.2.head = n)

/-- VOCAB_ENABLE's effect (R144, R485). -/
def enableVocab (n : Nat) (on : Bool) (s : State) : Nat × State :=
  let r := enableAct (s.vocab n).fn on (setVocabFn n .starting) (fun s => s.modVocab n fun v => { v with abandon := true }) (setVocabFn n .off) s
  (r.1, r.2.modVocab n fun v => { v with enable := on })

/-- TEMPLATE_ENABLE's effect (R160): the refusing code, and the state after. -/
def enableTemplate (n : Nat) (on : Bool) (s : State) : Word16 × State :=
  if !on then (0, s.modTemplate n fun t => { t with enable := false })
  else if (s.template n).enable then (0, s)
  else
    let code := templateCheck s n
    (code, (checkReads (tplReads s n) s).modTemplate n fun t => { t with enable := code = 0, code := code, head := if code = 0 then recW s t.desc.toNat 8 else t.head })

/-- A model slot is Off: its RWO entries can be written. -/
def modelOff (s : State) (k _ : Nat) : Bool := decide ((s.model k).fn = .off)

def entText : List Ent :=
  [ro 0x1030 1 tU32 fun _ => 0x000F0100,
   rwN 0x7200 16 tU64 .rw (fun s k => (s.vocab k).desc.toNat) (fun s k _ => decide ((s.vocab k).fn = .off)) anyVal
     fun k v s => wrote (s.modVocab k fun x => { x with desc := BitVec.ofNat 64 v }),
   rwN 0x7201 16 tU8 .rw (fun s k => b1 (s.vocab k).enable) (fun s k v => v ≠ 0 || !s.vocabNamed k) isBit
     fun k v s => resulted (enableVocab k (v = 1) s),
   roN 0x7202 16 tU8 fun s k => (s.vocab k).fn.code, roN 0x7203 16 tU16 fun s k => (s.vocab k).code.toNat,
   rwN 0x7210 64 tU16 .rw (fun s k => (s.template k).id.toNat) templateIdle anyVal
     fun k v s => wrote (s.modTemplate k fun t => { t with id := BitVec.ofNat 16 v }),
   rwN 0x7211 64 tU64 .rw (fun s k => (s.template k).desc.toNat) templateIdle anyVal
     fun k v s => wrote (s.modTemplate k fun t => { t with desc := BitVec.ofNat 64 v }),
   rwN 0x7212 64 tU8 .rw (fun s k => b1 (s.template k).enable) always isBit fun k v s => ruled (enableTemplate k (v = 1) s),
   roN 0x7213 64 tU32 State.templateUsers, roN 0x7214 64 tU16 fun s k => (s.template k).code.toNat,
   rwN 0x7220 16 tU64 .rwo (fun s k => (s.model k).constraint.toNat) modelOff anyVal
     fun k v s => wrote (s.modModel k fun m => { m with constraint := BitVec.ofNat 64 v }),
   ro 0x7230 1 tU64 fun s => s.text.tokenised.toNat, ro 0x7230 2 tU64 fun s => s.text.vocabHits.toNat,
   ro 0x7230 3 tU64 fun s => s.text.vocabMisses.toNat, ro 0x7230 4 tU64 fun s => s.text.fallbacks.toNat,
   ro 0x7230 5 tU32 fun s => s.text.deadEnds.toNat, ro 0x7230 6 tU64 fun s => s.text.prompts.toNat]

/-! ### Model serving (R275, R284, R297, R485) -/

/-- A model slot enters Starting: its header is read (R275, step 1); a header that cannot be read leaves none (log 14). -/
def startModel (n : Nat) (s : State) : State :=
  setModelFn n .starting ((checkReads [((s.model n).desc.toNat, 64)] s).modModel n fun m => { m with head := if readable s m.desc.toNat 64 then recW s m.desc.toNat 8 else [] })

/-- MODEL_ENABLE's effect. -/
def enableModel (n : Nat) (on : Bool) (s : State) : Nat × State :=
  let r := enableAct (s.model n).fn on (startModel n) (fun s => s.modModel n fun m => { m with abandon := true })
    (setModelFn n .draining) s
  (r.1, if r.1 = 0 then r.2.modModel n fun m => { m with enable := on } else r.2)

/-- ROLE_PIN's effect (R284). -/
def pinRole (c v : Nat) (s : State) : State :=
  let s := s.modCluster c fun x => { x with pin := v }
  if v = 0 then s else changeRole c v s

def setServing (f : Nat → Serving → Serving) (v : Nat) (s : State) : State := { s with serving := f v s.serving }

def entServing : List Ent :=
  [rwN 0x7300 16 tU64 .rwo (fun s k => (s.model k).desc.toNat) modelOff anyVal
     fun k v s => wrote (s.modModel k fun m => { m with desc := BitVec.ofNat 64 v }),
   rwN 0x7301 16 tU8 .rw (fun s k => b1 (s.model k).enable) always isBit fun k v s => resulted (enableModel k (v = 1) s),
   roN 0x7302 16 tU8 fun s k => (s.model k).fn.code, roN 0x7303 16 tU16 fun s k => (s.model k).code.toNat,
   roN 0x7304 16 tU16 fun s k => (s.model k).gen.toNat,
   rwN 0x7305 16 tU16 .rwo (fun s k => (s.model k).clusters.toNat) modelOff anyVal
     fun k v s => wrote (s.modModel k fun m => { m with clusters := BitVec.ofNat 16 v }),
   roN 0x7306 16 tU32 State.modelUsers,
   rwN 0x7307 16 tU64 .rwo (fun s k => (s.model k).kvBase.toNat) modelOff anyVal
     fun k v s => wrote (s.modModel k fun m => { m with kvBase := BitVec.ofNat 64 v }),
   rwN 0x7308 16 tU32 .rwo (fun s k => (s.model k).kvPages.toNat) modelOff anyVal
     fun k v s => wrote (s.modModel k fun m => { m with kvPages := BitVec.ofNat 32 v }),
   rw 0x7310 1 tU32 (fun s => s.serving.ratioPeriod.toNat) (within 10 1000000) (setServing fun v x => { x with ratioPeriod := BitVec.ofNat 32 v }),
   rw 0x7310 2 tU8 (fun s => s.serving.ratioHyst) (within 1 16) (setServing fun v x => { x with ratioHyst := v }),
   rw 0x7310 3 tU8 (fun s => s.serving.ratioUnit) (fun v => v = 1 || v = 2 || v = 4) (setServing fun v x => { x with ratioUnit := v }),
   rw 0x7310 4 tU8 (fun s => s.serving.genMin) (within 0 16) (setServing fun v x => { x with genMin := v }),
   rw 0x7310 5 tU8 (fun s => s.serving.genMax) (within 0 16) (setServing fun v x => { x with genMax := v }),
   rw 0x7310 6 tU8 (fun s => s.serving.stepMaxRows) (within 1 128) (setServing fun v x => { x with stepMaxRows := v }),
   rwN 0x7311 16 tU8 .rw (fun s k => (s.cluster k).pin) always (within 0 2) fun k v s => wrote (pinRole k v s),
   roN 0x7312 16 tU8 fun s k => (s.cluster k).role,
   ro 0x7313 1 tU64 fun s => s.serving.steps.toNat, ro 0x7313 2 tU64 fun s => s.serving.draftsProposed.toNat,
   ro 0x7313 3 tU64 fun s => s.serving.draftsAccepted.toNat, ro 0x7313 4 tU32 fun s => s.serving.roleChanges.toNat,
   ro 0x7313 5 tU64 fun s => s.serving.rowsMasked.toNat, ro 0x7313 6 tU64 fun s => s.serving.adapterGathers.toNat]

end Sys2Proof.Machine
end

