-- ==== Sys2Proof/Machine/EntriesB.lean ====
section
/-! DEFINITION. Dictionary entries of cores and scratchpads, the HBM tier, tables, the fabric and the keyring (R230, R250, R272, R318,
R351). -/

namespace Sys2Proof.Machine

/-! ### Programs and scratchpads (R230, R250) -/

def setCoreE (f : Nat → CoreEntries → CoreEntries) (v : Nat) (s : State) : State := { s with coreE := f v s.coreE }

/-- A region map of a cluster. -/
def regionMap (p : Region → Bool) (s : State) (n : Nat) : Bytes :=
  packBytes 32 fun b => p (tget {} (s.core (16 * n + b / 16)).regions (b % 16))

/-- The core that the bank counts show. -/
def State.viewed (s : State) : Core := s.core s.coreE.bankView.toNat

/-- INIT_MODE's owning function is Off (R421). -/
def State.initWritable (s : State) : Bool :=
  s.clusters.all (fun e => decide (e.2.fn = .off)) && s.stackT.all fun e => decide (e.2.fn = .off)

def entCores : List Ent :=
  [rw 0x4300 1 tU8 (fun s => b1 s.coreE.slipDetect) isBit (setCoreE fun v x => { x with slipDetect := v = 1 }),
   rw 0x4300 2 tU8 (fun s => b1 s.coreE.slipQuarantine) isBit (setCoreE fun v x => { x with slipQuarantine := v = 1 }),
   ro 0x4300 3 tU32 fun s => s.coreE.slips.toNat, ro 0x4300 4 tU64 fun s => s.coreE.lastSlip.toNat,
   ro 0x4310 1 tU64 fun s => s.coreE.loads.toNat, ro 0x4310 2 tU32 fun s => s.coreE.busyRejects.toNat,
   ro 0x4310 3 tU32 fun s => s.coreE.verifyRejects.toNat, ro 0x4310 4 tU64 fun s => s.coreE.lastVerify.toNat,
   ro 0x4310 5 tU64 fun s => s.coreE.macros.toNat, ro 0x4310 6 tU64 fun s => s.coreE.feedWaits.toNat,
   roBN 0x4320 16 32 (regionMap fun r => r.owners ≠ 0), roBN 0x4321 16 32 (regionMap fun r => r.verified && !r.quarantine),
   rwLine 0x4200 1 1 tU8 .rwo (fun s _ => leBytes 1 s.coreE.initMode) (fun s _ _ => s.initWritable) (fun _ _ v => isBit (leNat v))
     fun _ v s => wrote (setInitMode (leNat v) s),
   rw 0x4200 2 tU32 (fun s => s.coreE.scrubPeriod.toNat) (within 0 86400) setScrubPeriod,
   rw 0x4200 3 tU32 (fun s => s.coreE.scrubForce.toNat) (within 256 1048576) (setCoreE fun v x => { x with scrubForce := BitVec.ofNat 32 v }),
   ro 0x4200 4 tU64 fun s => s.coreE.scrubSweeps.toNat, ro 0x4200 5 tU64 fun s => s.coreE.spadCorrected.toNat,
   ro 0x4200 6 tU64 fun s => s.coreE.spadPoisoned.toNat, ro 0x4200 7 tTime fun s => s.coreE.fillDone.toNat,
   rw 0x4201 1 tU16 (fun s => s.coreE.bankView.toNat) (within 0 255) (setCoreE fun v x => { x with bankView := BitVec.ofNat 16 v }),
   roN 0x4202 24 tU64 fun s k => (tget 0 s.viewed.conflicts k).toNat, roN 0x4203 24 tU64 fun s k => (tget 0 s.viewed.freezes k).toNat,
   ro 0x4204 1 tU64 fun s => s.viewed.landWaits.toNat,
   ro 0x4210 1 tU64 fun s => s.coreE.stateCorrected.toNat, ro 0x4210 2 tU32 fun s => s.coreE.stateResets.toNat]

/-! ### The HBM tier (R256, R261, R265 to R268, R272, R485) -/

/-- STACK_ENABLE's effect. -/
def enableStack (n : Nat) (on : Bool) (s : State) : Nat × State :=
  let r := enableAct (s.stack n).fn on (startStack n) (fun s => s.modStack n fun t => { t with abandon := true }) (drainStack n) s
  (r.1, if r.1 = 0 then r.2.modStack n fun t => { t with enable := on } else r.2)

def stackOffNow (s : State) (k _ : Nat) : Bool := decide ((s.stack k).fn = .off)

/-- A memory-island hinge entry as its word. -/
def MemHinge.word (e : MemHinge) : Nat := b1 e.valid * 2 ^ 63 + e.state * 2 ^ 61 + b1 e.poison * 2 ^ 60 + e.page * 4096
/-- An entry as the host writes it: its RO fields start at 0. -/
def memHingeOf (w : Nat) : MemHinge := { valid := w / 2 ^ 63 % 2 = 1, page := w / 4096 % 2 ^ 24 }
/-- No reserved bit or value is set. -/
def memHingeOk (w : Nat) : Bool := w % 4096 = 0 && w / 2 ^ 36 % 2 ^ 24 = 0 && w / 2 ^ 61 % 4 ≠ 3

/-- A core-island hinge entry as its word. -/
def CoreHinge.word (e : CoreHinge) : Nat := b1 e.valid * 2 ^ 31 + b1 e.active * 2 ^ 30 + e.row
def coreHingeOf (w : Nat) : CoreHinge := { valid := w / 2 ^ 31 % 2 = 1, row := w % 2 ^ 17 }
def coreHingeOk (w : Nat) : Bool := w / 2 ^ 17 % 2 ^ 13 = 0 && w % 2 ^ 17 < 98304

/-- Little-endian numbers of n bytes each. -/
def numsOf (n count : Nat) (bs : Bytes) : List Nat := (chunks n count bs).map leNat

/-- A table of units from a list of them. -/
def tableOf {α : Type} [DecidableEq α] (d : α) (l : List α) : Table α := (l.zipIdx.filter fun p => p.1 ≠ d).map fun p => (p.2, p.1)

/-- INTAKE_BASE's values (R261): 1 GiB aligned, its 16 GiB inside one stack's map. -/
def intakeOk (v : Nat) : Bool := v % 2 ^ 30 = 0 && localOk v && localOk (v + 2 ^ 34 - 1) && stackOf v = stackOf (v + 2 ^ 34 - 1)

def entHbm : List Ent :=
  [rwN 0x4400 12 tU8 .rwo (fun s k => (s.stack k).codeT) stackOffNow (fun v => v = 8 || v = 16 || v = 32 || v = 64)
     fun k v s => wrote (s.modStack k fun t => { t with codeT := v }),
   rwN 0x4401 12 tU8 .rw (fun s k => b1 (s.stack k).enable) always isBit fun k v s => resulted (enableStack k (v = 1) s),
   roN 0x4402 12 tU8 fun s k => (s.stack k).fn.code,
   rwBN 0x4403 12 128 .rwo (fun s k => (List.range 16).flatMap fun j => leBytes 8 (tget {} (s.stack k).hinge j).word)
     (fun s k => decide ((s.stack k).fn = .off)) (fun v => (numsOf 8 16 v).all memHingeOk)
     fun k v s => wrote (s.modStack k fun t => { t with hinge := tableOf {} ((numsOf 8 16 v).map memHingeOf) }),
   rwBN 0x4404 16 512 .rwo
     (fun s k => (List.range 16).flatMap fun c => (List.range 8).flatMap fun j => leBytes 4 (tget {} (s.core (16 * k + c)).hinge j).word)
     (fun s k => decide ((s.cluster k).fn = .off)) (fun v => (numsOf 4 128 v).all coreHingeOk)
     fun k v s => wrote ((List.range 16).foldl (fun s c => s.modCore (16 * k + c) fun x =>
       { x with hinge := tableOf {} ((numsOf 4 8 (v.drop (32 * c))).map coreHingeOf) }) s),
   wo 0x4405 1 tU64 (fun v => hingeForm (BitVec.ofNat 64 v)) fun v s => wrote (installHinge (BitVec.ofNat 64 v) s),
   ro 0x4405 2 tU16 fun s => s.hbm.hingeResult.toNat, roN 0x4406 12 tU64 fun s k => (s.stack k).remap.toNat,
   rw 0x4407 1 tU8 (fun s => s.hbm.remapBits) (within 1 64) fun v => modHbm fun h => { h with remapBits := v },
   ro 0x4407 2 tU64 fun s => s.hbm.corrected.toNat, ro 0x4407 3 tU64 fun s => s.hbm.poisoned.toNat,
   ro 0x4407 4 tU64 fun s => s.hbm.freeReads.toNat, ro 0x4407 5 tU64 fun s => s.hbm.retries.toNat,
   rwLine 0x4408 1 1 tU64 .rwo (fun s _ => leBytes 8 s.hbm.intakeBase.toNat) (fun s _ _ => !s.host.committed) (fun _ _ v => intakeOk (leNat v))
     fun _ v s => wrote (modHbm (fun h => { h with intakeBase := BitVec.ofNat 64 (leNat v) }) s)]

/-! ### Tables (R301, R312 to R318) -/

/-- TABLE_ENABLE's effect on the entry beside the slot's. -/
def writeTableEnable (n : Nat) (on : Bool) (s : State) : Nat × State :=
  let r := enableTable n on s
  (r.1, if r.1 = 0 then r.2.modTable n fun t => { t with enable := on } else r.2)

def entTables : List Ent :=
  [rwN 0x7016 64 tU8 .rw (fun s k => (s.ring k).kind) ringIdle isBit fun k v s => wrote (s.modRing k fun r => { r with kind := v }),
   ro 0x4500 1 tU8 fun _ => 64,
   rwN 0x4501 64 tU64 .rw (fun s k => (s.tableSlot k).desc.toNat) (fun s k _ => !(s.tableSlot k).enable) anyVal
     fun k v s => wrote (s.modTable k fun t => { t with desc := BitVec.ofNat 64 v }),
   rwN 0x4502 64 tU8 .rw (fun s k => b1 (s.tableSlot k).enable) always isBit fun k v s => resulted (writeTableEnable k (v = 1) s),
   roN 0x4503 64 tU8 fun s k => (s.tableSlot k).fn.code, roN 0x4504 64 tU32 fun s k => (s.tableSlot k).current.toNat,
   woN 0x4505 64 tU32 fun k v s => ruled (advanceTable k v s),
   rwN 0x4506 64 tU32 .rw (fun s k => (s.tableSlot k).floor.toNat) always anyVal fun k v s => ruled (raiseTableFloor k v s),
   roN 0x4507 64 tU32 State.tableHeld,
   woN 0x4508 64 tU32 fun k v s => ruled (sealTable k v s),
   roN 0x4509 64 tU32 fun s k => (s.tableSlot k).sealed.toNat,
   rwBN 0x450A 64 16 .wo (fun _ _ => []) (fun _ _ => true) (fun v => leNat ((v.drop 4).take 4) = 0)
     fun k v s => ruled (installTable k (leNat (v.take 4)) (leNat (v.drop 8)) s),
   roN 0x450B 64 tU16 fun s k => (s.tableSlot k).code.toNat,
   rwN 0x450C 64 tU16 .rw (fun s k => (s.tableSlot k).tenant.toNat) always (fun v => v / 4096 % 8 = 0)
     fun k v s => wrote (s.modTable k fun t => { t with tenant := BitVec.ofNat 16 v }),
   rw 0x4510 1 tU32 (fun s => s.tableE.cmsDecay.toNat) (within 65536 (2 ^ 30)) fun v => modTableE fun t => { t with cmsDecay := BitVec.ofNat 32 v },
   rw 0x4510 2 tU8 (fun s => s.tableE.hotThreshold) anyVal fun v => modTableE fun t => { t with hotThreshold := v },
   roB 0x4510 3 256 fun s => bytesOf s.tableE.hotCands,
   ro 0x4510 4 tU64 fun s => s.tableE.cacheHits.toNat, ro 0x4510 5 tU64 fun s => s.tableE.cacheMisses.toNat,
   ro 0x4510 6 tU64 fun s => s.tableE.cacheBypass.toNat, ro 0x4510 7 tU64 fun s => s.tableE.defaultRows.toNat,
   ro 0x4510 8 tU64 fun s => s.tableE.rowUpdates.toNat, ro 0x4510 9 tU32 fun s => s.tableE.migrations.toNat]

/-! ### The fabric (R322, R326, R351, R485) -/

def setFabric (f : Nat → Fabric → Fabric) (v : Nat) : State → State := modFabric (f v)

/-- LINK_ENABLE's effect: a start releases a hold of the link's island (R437). -/
def enableLink (n : Nat) (on : Bool) (s : State) : Nat × State :=
  let r := enableAct (s.link n).fn on
    (fun s => setLinkFn n .starting ((releaseHold (linkIsland n) s).modLink n fun k => { k with abandon := false }))
    (fun s => s.modLink n fun k => { k with abandon := true }) (setLinkFn n .draining) s
  (r.1, if r.1 = 0 then r.2.modLink n fun k => { k with enable := on } else r.2)

/-- ROUTE_TABLE's effect (R326): a refused image leaves the table and the entry. -/
def writeRoutes (v : Nat) (s : State) : Word16 × State :=
  let code := routeCheck s v
  let t := if code = 0 then modFabric (fun f => { f with routeOff := BitVec.ofNat 64 v, routeCode := 0 }) (takeRoutes v s)
    else modFabric (fun f => { f with routeCode := code }) s
  (code, checkReads [(v, 131072)] t)

/-- DEVICE_ID can change while every link is Off. -/
def State.linksOff (s : State) : Bool := s.links.all fun e => decide (e.2.fn = .off)

def entFabric : List Ent :=
  [rwLine 0x3000 1 1 tU16 .rwo (fun s _ => leBytes 2 s.fabric.deviceId) (fun s _ _ => s.linksOff) (fun _ _ v => within 0 16383 (leNat v))
     fun _ v s => wrote (setFabric (fun v f => { f with deviceId := v }) (leNat v) s),
   rw 0x3000 2 tU8 (fun s => s.fabric.hopLimit) (within 1 15) (setFabric fun v f => { f with hopLimit := v }),
   rw 0x3000 3 tU32 (fun s => s.fabric.timeout.toNat) (within 10000 100000000) (setFabric fun v f => { f with timeout := BitVec.ofNat 32 v }),
   rw 0x3000 4 tU8 (fun s => s.fabric.reruns) (within 0 7) (setFabric fun v f => { f with reruns := v }),
   rw 0x3000 5 tU8 (fun s => s.fabric.sysClass) (within 0 7) (setFabric fun v f => { f with sysClass := v }),
   ro 0x3000 6 tU64 fun s => s.fabric.lateReplies.toNat, ro 0x3000 7 tU64 fun s => s.fabric.badPackets.toNat,
   rwN 0x3001 48 tU8 .rw (fun s k => b1 (s.link k).enable) always isBit fun k v s => resulted (enableLink k (v = 1) s),
   roN 0x3002 48 tU8 fun s k => (s.link k).fn.code, roN 0x3003 48 tU32 fun s k => (s.link k).peer.toNat,
   roN 0x3004 48 tU64 fun s k => (s.link k).fec.toNat, roN 0x3005 48 tU64 fun s k => (s.link k).replays.toNat,
   roN 0x3006 48 tU32 fun s k => (s.link k).retrains.toNat,
   rwR 0x3010 1 tU64 (fun s => s.fabric.routeOff.toNat) anyVal fun v s => ruled (writeRoutes v s),
   ro 0x3010 2 tU16 fun s => s.fabric.routeCode.toNat, ro 0x3010 3 tU64 fun s => s.fabric.routeDrops.toNat]

/-! ### The keyring (R342 to R351) -/

/-- KEYRING_DIR's effect: a check starts. -/
def writeDir (v : Nat) (s : State) : State :=
  modKeyring (fun k => { k with dirEntry := BitVec.ofNat 64 v, dirCheck := some (BitVec.ofNat 64 v), dirCode := 0xFFFF }) s

/-- KEYRING_PIN_QUOTA's effect (R345): 0408h when host pins and quotas would pass 480. -/
def setQuota (c v : Nat) (s : State) : Word16 × State :=
  let s' := s.modCluster c fun x => { x with quota := v }
  if 480 < s.hostPins + s'.quotaSum then (0x408, s) else (0, s')

/-- The 16-byte value of an entry of R338. -/
def pairOf (v : Bytes) : Word64 × Word64 := (BitVec.ofNat 64 (leNat (v.take 8)), BitVec.ofNat 64 (leNat (v.drop 8)))

def entKeyring : List Ent :=
  [rw 0x3020 1 tU64 (fun s => s.keyring.dirEntry.toNat) anyVal writeDir,
   ro 0x3020 2 tU16 fun s => s.keyring.dirCode.toNat,
   rw 0x3020 3 tU8 (fun s => s.keyring.reruns) (within 1 15) fun v => modKeyring fun k => { k with reruns := v },
   rwLine 0x3020 4 4 (tBytes 16) .wo (fun _ _ => []) (fun _ _ _ => true) (fun _ _ v => pinForm (pairOf v).1)
     fun _ v s => ruled (pinKey (pairOf v).1 (pairOf v).2 s),
   wo 0x3020 5 tU16 (within 0 511) fun v s => wrote (unpinKey v s),
   wo 0x3020 6 tU8 (within 1 3) fun v s => wrote (flushKeys v s),
   ro 0x3020 7 tU16 fun s => s.keyring.result.toNat,
   rw 0x3020 8 tU16 (fun s => s.keyring.select.toNat) (within 0 511) fun v => modKeyring fun k => { k with select := BitVec.ofNat 16 v },
   roB 0x3020 9 16 (fun s => let e := tget {} s.keyring.entries s.keyring.select.toNat; bytesOf [e.w0, e.w1]),
   ro 0x3020 0xA tU16 State.hostPins, ro 0x3020 0xB tU64 fun s => s.keyring.misses.toNat,
   ro 0x3020 0xC tU64 fun s => s.keyring.evictions.toNat, ro 0x3020 0xD tU32 fun s => s.keyring.denied.toNat,
   ro 0x3020 0xE tU32 fun s => s.keyring.unresolved.toNat,
   rwN 0x3021 16 tU8 .rw (fun s k => (s.cluster k).quota) always (within 0 32) fun k v s => ruled (setQuota k v s),
   roN 0x3022 16 tU8 State.keyringPinned,
   rwB 0x3030 1 4096 (fun s => (List.range 4096).map fun t => BitVec.ofNat 8 (tget 0 s.keyring.groups t)) (fun v => v.all (·.toNat < 64))
     fun v s => wrote (modKeyring (fun k => { k with groups := byteTable 0 v }) s)]

end Sys2Proof.Machine
end

