-- ==== Sys2Proof/Machine/Traffic.lean ====
section
/-! DEFINITION. Traffic control (R352 to R364): egress selection, shapers, gates and their lists, and policer records. -/

namespace Sys2Proof.Machine

/-! ### Egress (R352, R353) -/

/-- EGRESS_SELECT (R353): link control goes ahead of every queue (R352). -/
def execEgressSelect (link : Nat) (s : State) : Host.Outcome State Fault Refusal :=
  .next (if s.inService (linkIsland link) && decide ((s.link link).fn = .ready) && s.boundary link then
    match (s.link link).control with
    | _ :: rest => countEv (linkIsland link) 4 1 64 { engine := some (link % 4) }
        (s.modLink link fun k => { k with control := rest, wireEnd := 100 * s.time.toNat + 64, wireClass := none })
    | [] => match s.bestQueue link with
      | some q => startPacket link q s
      | none => s.modLink link fun k => { k with wireClass := none }
  else s)

/-! ### Shapers (R357, R358) -/

/-- One l-cycle of a class's credit, in 1/1,750 B (R357): an l-cycle is 1/1,750 µs, so a slope in MB/s adds its number. -/
def creditStep (rate : Nat) (gateShut sending queued : Bool) (c : Int) : Int :=
  if rate = 0 ∨ gateShut then c
  else if sending then c + rate - 100000
  else if queued then c + rate
  else if 0 < c then 0
  else min 0 (c + rate)

/-- SHAPER_TICK (R357). -/
def execShaperTick (link : Nat) (s : State) : Host.Outcome State Fault Refusal :=
  .next (if s.inService (linkIsland link) && decide ((s.link link).fn = .ready) then
    s.modLink link fun k => { k with
      credit := (List.range 8).foldl (fun t c =>
        tmod 0 t c (creditStep (tget 0 k.rates c) (!s.gateOpen link c) (k.wireClass = some c && !s.boundary link)
          (tget [] k.queues (2 * c) ≠ [] || tget [] k.queues (2 * c + 1) ≠ []))) k.credit }
  else s)

/-- The rates a link may have (R358). -/
def ratesOk (rates : List Word32) : Bool :=
  rates.length = 8 && rates.all (fun r => r.toNat ≤ 100000) && rates.foldl (fun a r => a + r.toNat) 0 ≤ 100000

/-- An accepted SHAPER_RATE: the credits stay (R358). -/
def setRates (l : Nat) (rates : List Word32) (s : State) : State :=
  s.modLink l fun k => { k with rates := (rates.zipIdx).foldl (fun t (r, c) => tset 0 t c r.toNat) [] }

/-! ### Gates (R354 to R356) -/

/-- GATE_INTERVAL_END (R354): the next entry is in force. -/
def execGateIntervalEnd (link : Nat) (s : State) : Host.Outcome State Fault Refusal :=
  .next (match (s.link link).gateActive with
    | none => s
    | some g =>
      let now := s.timeAt (linkIsland link)
      if s.inService (linkIsland link) && g.base ≤ now && g.entryAt now ≠ (s.link link).gateEntry then
        s.modLink link fun k => { k with gateEntry := g.entryAt now, guard := 0 }
      else s)

/-- The classes whose gates close at the end of an entry (R355). -/
def GateList.closing (g : GateList) (i : Nat) : Byte :=
  let open_ := fun j => BitVec.ofNat 8 (bits (g.entries.getD j 0) 63 56)
  open_ i &&& ~~~(open_ ((i + 1) % g.entries.length))

/-- GUARD_BAND_START (R355): at most 41.76 ns are left of the entry in force. -/
def execGuardBandStart (link : Nat) (s : State) : Host.Outcome State Fault Refusal :=
  .next (match (s.link link).gateActive with
    | none => s
    | some g =>
      let now := s.timeAt (linkIsland link)
      let i := (s.link link).gateEntry
      if s.inService (linkIsland link) && g.base ≤ now && g.entryAt now = i && g.entryEnd i - g.phase now ≤ 42 then
        s.modLink link fun k => { k with guard := g.closing i }
      else s)

/-- The pending list of a link (R356). -/
def Link.pendingGates (k : Link) : GateList := ⟨k.gateBase, k.gateList.take k.gateCount⟩

/-- The checks of R356. -/
def GateList.ok (count : Nat) (g : GateList) : Bool :=
  1 ≤ count && count ≤ 32 && (g.entries.all fun e => rsvd e 55 32 && 64 ≤ bits e 31 0 && bits e 31 0 ≤ 10000000) &&
  1000 ≤ g.cycle && g.cycle ≤ 10000000

/-- The first cycle start of a list at or after a time. -/
def GateList.startFrom (g : GateList) (t : Nat) : Nat :=
  if t ≤ g.base.toNat then g.base.toNat else g.base.toNat + ceilDiv (t - g.base.toNat) g.cycle * g.cycle

/-- The end of the active list's cycle in progress, or now (R356). -/
def cycleEnd (old : Option GateList) (now : Nat) : Nat :=
  match old with
  | none => now
  | some g => if now < g.base.toNat then now else g.base.toNat + ((now - g.base.toNat) / g.cycle + 1) * g.cycle

/-- GATE_APPLY's effect (R356): the code, and the pending list scheduled. -/
def applyGates (l : Nat) (s : State) : Word16 × State :=
  let k := s.link l
  let g := k.pendingGates
  if g.ok k.gateCount then
    let at_ := g.startFrom (cycleEnd k.gateActive (s.timeAt (linkIsland l)).toNat)
    (0, s.modLink l fun k => { k with gateCode := 0, gateNext := some (g, BitVec.ofNat 64 at_) })
  else (0x409, s.modLink l fun k => { k with gateCode := 0x409 })

/-- GATE_LIST_SWITCH (R356). -/
def execGateListSwitch (link : Nat) (s : State) : Host.Outcome State Fault Refusal :=
  .next (match (s.link link).gateNext with
    | none => s
    | some (g, at_) =>
      let now := s.timeAt (linkIsland link)
      if s.inService (linkIsland link) && at_ ≤ now then
        s.modLink link fun k => { k with gateActive := some g, gateNext := none, gateEntry := g.entryAt now, guard := 0 }
      else s)

/-! ### Policer records (R360) -/

/-- A record of R360 may be written; `least` is the smallest bucket. -/
def polOk (least : Nat) (w0 w1 : Word64) : Bool :=
  rsvd w0 60 32 && bits w0 63 62 ≠ 3 &&
  (bits w0 63 62 = 0 || (bits w0 31 0 ≠ 0 && bits w1 63 32 ≠ 0 && (bits w0 63 62 ≠ 1 || bits w0 31 0 ≤ bits w1 63 32) &&
    least ≤ bits w1 31 16 && least ≤ bits w1 15 0))

def modTraffic (f : Traffic → Traffic) (s : State) : State := { s with traffic := f s.traffic }

/-- POLICER_CFG's effect: the record of the selected index, its buckets full in every link island. -/
def setPolicer (w0 w1 : Word64) (s : State) : State :=
  let i := s.traffic.select
  modTraffic (fun t => { t with
    policers := tmod {} t.policers i fun p => { p with w0 := w0, w1 := w1 }
    buckets := t.buckets.filter fun b => b.1 % 256 ≠ i }) s

/-- TENANT_POL_CFG's effect. -/
def setTenantPol (w0 w1 : Word64) (s : State) : State :=
  let i := s.traffic.tenantSelect
  modTraffic (fun t => { t with
    tenantPol := tmod {} t.tenantPol i fun p => { p with w0 := w0, w1 := w1 }
    tenantBuckets := t.tenantBuckets.filter fun b => b.1 ≠ i }) s

end Sys2Proof.Machine
end

