-- ==== Sys2Proof/Machine/EntriesC.lean ====
section
/-! DEFINITION. Dictionary entries of traffic control, placement, the host interface, firmware and identity, faults, counters and
sampling, and the module (R367, R385, R406, R431, R448, R463, R483). -/

namespace Sys2Proof.Machine

/-! ### Traffic control (R356 to R367) -/

def setTraffic (f : Nat → Traffic → Traffic) (v : Nat) : State → State := modTraffic (f v)

/-- A policer's counts. -/
def Policer.counts (p : Policer) : Bytes := bytesOf [p.green, p.yellow, p.red]

/-- POLICER_CFG's and TENANT_POL_CFG's rule: 040Bh, or the record is taken (R360). -/
def writePol (least : Nat) (take : Word64 → Word64 → State → State) (v : Bytes) (s : State) : Word16 × State :=
  let p := pairOf v
  if polOk least p.1 p.2 then (0, take p.1 p.2 s) else (0x40B, s)

/-- SHAPER_RATE's rule: 040Ah, or the rates are taken (R358). -/
def writeRates (l : Nat) (v : Bytes) (s : State) : Word16 × State :=
  let rates := (numsOf 4 8 v).map (BitVec.ofNat 32)
  if ratesOk rates then (0, setRates l rates s) else (0x40A, s)

/-- The largest delay of a queue of the shown link, and its reset by the read (R364). -/
def queueHwm (s : State) (q : Nat) : Nat := (tget 0 (s.link s.traffic.hwmLink).hwm q).toNat
def clearQueueHwm (q : Nat) (s : State) : State := s.modLink s.traffic.hwmLink fun k => { k with hwm := tset 0 k.hwm q 0 }
def clearClassHwm (c : Nat) : State → State := modTraffic fun t => { t with classHwm := tset 0 t.classHwm c 0 }

/-- Device bytes 4,096 k to 4,096 k + 4,095 of the policer choices. -/
def policeMap (s : State) (k : Nat) : Bytes := (List.range 4096).map fun d => BitVec.ofNat 8 (tget 255 s.traffic.map (4096 * k + d))
def setPoliceMap (k : Nat) (v : Bytes) : State → State :=
  modTraffic fun t => { t with map := (v.zipIdx).foldl (fun m (b, d) => tset 255 m (4096 * k + d) b.toNat) t.map }

def entTraffic : List Ent :=
  [rwN 0x3040 48 tU8 .rw (fun s k => b1 (s.link k).gateEnable) always isBit fun k v s => wrote (s.modLink k fun x => { x with gateEnable := v = 1 }),
   rwN 0x3041 48 tTime .rw (fun s k => (s.link k).gateBase.toNat) always anyVal
     fun k v s => wrote (s.modLink k fun x => { x with gateBase := BitVec.ofNat 64 v }),
   rwN 0x3042 48 tU8 .rw (fun s k => (s.link k).gateCount) always (within 1 32) fun k v s => wrote (s.modLink k fun x => { x with gateCount := v }),
   rwBN 0x3043 48 256 .rw (fun s k => bytesOf (s.link k).gateList) (fun _ _ => true) (fun v => (wordsOf 32 v).all fun w => rsvd w 55 32)
     fun k v s => wrote (s.modLink k fun x => { x with gateList := wordsOf 32 v }),
   rwN 0x3044 48 tU8 .wo (fun _ _ => 0) always (fun v => v = 1) fun k _ s => ruled (applyGates k s),
   roN 0x3045 48 tU16 fun s k => (s.link k).gateCode.toNat,
   rwBN 0x3046 48 32 .rw (fun s k => (List.range 8).flatMap fun c => leBytes 4 (tget 0 (s.link k).rates c)) (fun _ _ => true) (fun _ => true)
     fun k v s => ruled (writeRates k v s),
   rw 0x3050 1 tU8 (fun s => s.traffic.select) (within 0 254) (setTraffic fun v t => { t with select := v }),
   rwB 0x3050 2 16 (fun s => let p := tget {} s.traffic.policers s.traffic.select; bytesOf [p.w0, p.w1]) (fun _ => true)
     fun v s => ruled (writePol 66 setPolicer v s),
   roB 0x3050 3 24 fun s => (tget {} s.traffic.policers s.traffic.select).counts,
   rwB 0x3050 5 8 (fun s => (List.range 8).map fun c => BitVec.ofNat 8 (tget 0 s.traffic.colours c)) (fun v => v.all (·.toNat ≤ 2))
     fun v s => wrote (modTraffic (fun t => { t with colours := byteTable 0 v }) s),
   rwBN 0x3051 4 4096 .rw policeMap (fun _ _ => true) (fun _ => true) fun k v s => wrote (setPoliceMap k v s),
   rw 0x3060 1 tU8 (fun s => s.traffic.hwmLink) (within 0 47) (setTraffic fun v t => { t with hwmLink := v }),
   roN 0x3061 16 tU32 queueHwm clearQueueHwm, roN 0x3062 8 tU32 (fun s k => (tget 0 s.traffic.classHwm k).toNat) clearClassHwm,
   rwN 0x7017 64 tU8 .rw (fun s k => (s.ring k).colour) ringIdle (within 0 2) fun k v s => wrote (s.modRing k fun r => { r with colour := v }),
   rw 0x7020 1 tU16 (fun s => s.traffic.tenantSelect) (within 0 4095) (setTraffic fun v t => { t with tenantSelect := v }),
   rwB 0x7020 2 16 (fun s => let p := tget {} s.traffic.tenantPol s.traffic.tenantSelect; bytesOf [p.w0, p.w1]) (fun _ => true)
     fun v s => ruled (writePol 0 setTenantPol v s),
   roB 0x7020 3 24 fun s => (tget {} s.traffic.tenantPol s.traffic.tenantSelect).counts]

/-! ### Placement (R375, R376, R385, R485) -/

/-- CLUSTER_ENABLE's and TEXT_ENABLE's effects on the entry beside the function's. -/
def writeClusterEnable (n : Nat) (on : Bool) (s : State) : Nat × State :=
  let r := enableCluster n on s
  (r.1, if r.1 = 0 then r.2.modCluster n fun c => { c with enable := on } else r.2)
def enableText (n : Nat) (on : Bool) (s : State) : Nat × State :=
  let r := enableAct (s.textIsl n).fn on (startText n) (fun s => s.modText n fun t => { t with abandon := true }) (setTextFn n .draining) s
  (r.1, if r.1 = 0 then r.2.modText n fun t => { t with enable := on } else r.2)

def setPlacement (f : Nat → Placement → Placement) (v : Nat) (s : State) : State := { s with placement := f v s.placement }

/-- A slowdown record's words (R375). -/
def Slowdown.bytes (r : Slowdown) : Bytes :=
  bytesOf [r.actual, r.solo, field 32 r.commands.toNat ||| field 0 r.preempted.toNat, field 32 r.worst.toNat]

def entPlacement : List Ent :=
  [rwN 0x2020 16 tU8 .rw (fun s k => b1 (s.cluster k).enable) always isBit fun k v s => resulted (writeClusterEnable k (v = 1) s),
   roN 0x2021 16 tU8 fun s k => (s.cluster k).fn.code,
   rwN 0x2022 4 tU8 .rw (fun s k => b1 (s.textIsl k).enable) always isBit fun k v s => resulted (enableText k (v = 1) s),
   roN 0x2023 4 tU8 fun s k => (s.textIsl k).fn.code,
   rw 0x7400 1 tU8 (fun s => b1 s.placement.preemptEnable) isBit (setPlacement fun v p => { p with preemptEnable := v = 1 }),
   rw 0x7400 2 tU32 (fun s => s.placement.minRemain.toNat) (within 0 16777216) (setPlacement fun v p => { p with minRemain := BitVec.ofNat 32 v }),
   rw 0x7400 3 tU32 (fun s => s.placement.urgentNs.toNat) anyVal (setPlacement fun v p => { p with urgentNs := BitVec.ofNat 32 v }),
   rw 0x7400 4 tU8 (fun s => s.placement.preemptMax) (within 0 15) (setPlacement fun v p => { p with preemptMax := v }),
   rw 0x7400 5 tU32 (fun s => s.placement.drainHold.toNat) anyVal (setPlacement fun v p => { p with drainHold := BitVec.ofNat 32 v }),
   ro 0x7400 6 tU64 fun s => s.placement.preemptions.toNat, ro 0x7400 7 tU64 fun s => s.placement.requeues.toNat,
   rw 0x7401 1 tU16 (fun s => s.hub.quotaSelect.toNat) (within 0 4095) (setHub fun v h => { h with quotaSelect := BitVec.ofNat 16 v }),
   rw 0x7401 2 tU32 (fun s => tget 65536 s.hub.quotas s.hub.quotaSelect.toNat) (within 1 65536)
     (setHub fun v h => { h with quotas := tset 65536 h.quotas h.quotaSelect.toNat v }),
   ro 0x7401 3 tU32 fun s => s.slotsUsed s.hub.quotaSelect.toNat,
   rw 0x7402 1 tU16 (fun s => s.placement.slowTenant.toNat) (within 0 4095) (setPlacement fun v p => { p with slowTenant := BitVec.ofNat 16 v }),
   roB 0x7402 2 32 fun s => (tget {} s.placement.tenantSlow s.placement.slowTenant.toNat).bytes,
   wo 0x7402 3 tU8 anyVal fun v s => wrote (clearSlowdowns (BitVec.ofNat 8 v) s),
   roBN 0x7403 16 32 fun s k => (tget {} s.placement.classSlow k).bytes]

/-! ### The host interface (R406) -/

def entHost : List Ent :=
  [ro 0x2030 1 tU8 fun s => s.host.linkState, ro 0x2030 2 tU8 fun s => s.host.linkRate, ro 0x2030 3 tU8 fun s => s.host.linkWidth,
   ro 0x2030 4 tU32 fun s => s.host.retrains.toNat, ro 0x2030 5 tU8 fun s => s.host.ideState.toNat, ro 0x2030 6 tU8 State.intakeState,
   rw 0x2031 1 tU32 (fun s => s.host.eventMask.toNat) (within 0 31) fun v s => s.modHost fun h => { h with eventMask := BitVec.ofNat 32 v },
   ro 0x2031 2 tU32 fun s => s.host.eventsLost.toNat, ro 0x2031 3 tU16 fun s => s.host.events.length,
   ro 0x2032 1 tU64 fun s => s.host.commands.toNat, ro 0x2032 2 tU64 fun s => s.host.odWrites.toNat,
   ro 0x2032 3 tU32 fun s => s.host.odRefusals.toNat, ro 0x2032 4 tU64 fun s => s.host.lastRefusal.toNat,
   ro 0x2033 1 tU8 fun s => s.host.i3cAddr.toNat, roB 0x2033 2 2 fun s => [s.host.eidI3c, s.host.eidPci],
   ro 0x2034 1 tU64 fun s => s.host.biSnoops.toNat, ro 0x2034 2 tU64 fun s => s.host.intakeLines.toNat]

/-! ### Firmware and identity (R431) -/

def entFirmware : List Ent :=
  [roB 0x1040 1 16 fun s => leBytes 16 s.readyMap, roB 0x1050 1 48 fun s => s.ident.romDigest, roB 0x1050 2 32 fun s => s.ident.uid,
   ro 0x1050 3 tU8 fun s => s.ident.pufState,
   ro 0x8000 1 tU8 fun s => s.fw.fn.code, ro 0x8000 2 tU64 fun s => s.fw.status.toNat, ro 0x8000 3 tU32 fun s => s.fw.secver.toNat,
   rwLine 0x8000 4 4 tU32 .rw (fun s _ => leBytes 4 s.fw.floor.toNat) (fun s _ _ => !s.faults.factory) (fun _ _ _ => true)
     fun _ v s => ruled (raiseFwFloor (BitVec.ofNat 32 (leNat v)) s),
   roB 0x8000 5 48 fun s => s.fw.digest, ro 0x8000 6 tU64 fun s => s.fw.build.toNat,
   roB 0x8010 1 68 fun s => s.ident.pubkey, ro 0x8010 2 tU64 fun s => s.ident.leafNext, ro 0x8010 3 tU64 fun s => s.ident.leafLimit,
   rw 0x8010 4 tU16 (fun s => s.ident.maxRate) (within 1 1000) fun v => modIdent fun i => { i with maxRate := v },
   ro 0x8010 5 tU64 fun s => s.ident.signatures.toNat, ro 0x8010 6 tU32 fun s => s.flash.counter,
   ro 0x8010 7 tU16 fun s => s.ident.code.toNat, ro 0x8020 1 tU8 fun s => s.ident.sessions.length]

/-! ### Faults (R439 to R448) -/

/-- A fault record's words (R439). -/
def FaultRec.bytes (r : FaultRec) : Bytes :=
  bytesOf [r.time, field 55 r.island ||| field 32 r.code.toNat ||| field 0 r.detail.toNat, r.addr, r.hubTime]
/-- A history entry's words (R440). -/
def HistEntry.bytes (e : HistEntry) : Bytes := bytesOf [e.time, field 55 e.island ||| field 32 e.event.toNat ||| field 0 e.detail.toNat]

/-- ISLAND_STATE's numbers. -/
def Service.code : Service → Nat
  | .serving => 0 | .safe => 1 | .returning => 2 | .heldOff => 3

def setFaults (f : Nat → Faults → Faults) (v : Nat) : State → State := modFaults (f v)

/-- FI_ARM's effect: 1 arms, 0 takes an arm back (R443, R445). -/
def writeFi (v : Nat) (s : State) : WriteOut :=
  if v = 0 then wrote (modFaults (fun f => { f with fiArmed := false }) s)
  else if fiOk s then wrote (armFi s) else { result := 4, state := s }
/-- PI_ARM's effect (R444). -/
def writePi (v : Nat) (s : State) : WriteOut :=
  if v = 0 then wrote s else match injectPi s with
    | some s => wrote s
    | none => { result := 4, state := s }

def entFaults : List Ent :=
  [ro 0x6000 1 tU8 fun s => b1 s.faults.captured, roB 0x6000 2 32 fun s => (s.faults.first.map FaultRec.bytes).getD [],
   roB 0x6000 3 512 fun s => s.faults.history.flatMap HistEntry.bytes, ro 0x6000 4 tU8 fun s => s.faults.history.length,
   wo 0x6000 5 tU8 anyVal fun v s => wrote (clearFault (BitVec.ofNat 8 v) s),
   ro 0x6000 6 tU32 fun s => s.faults.count.toNat, roB 0x6000 7 32 fun s => (s.faults.last.map FaultRec.bytes).getD [],
   ro 0x6000 8 tU32 fun s => s.faults.since.toNat,
   rw 0x6010 1 tU8 (fun s => b1 s.faults.autoRestart) isBit (setFaults fun v f => { f with autoRestart := v = 1 }),
   rw 0x6010 2 tU8 (fun s => s.faults.limit) (within 1 255) (setFaults fun v f => { f with limit := v }),
   rw 0x6010 3 tU32 (fun s => s.faults.windowMs.toNat) (within 1 86400000) (setFaults fun v f => { f with windowMs := BitVec.ofNat 32 v }),
   rw 0x6010 4 tU16 (fun s => s.faults.eventMask.toNat) anyVal (setFaults fun v f => { f with eventMask := BitVec.ofNat 16 v }),
   rw 0x6011 1 tU16 (fun s => s.faults.select.toNat) (within 0 0x1FF) (setFaults fun v f => { f with select := BitVec.ofNat 16 v }),
   ro 0x6011 2 tU32 fun s => (s.island s.faults.select.toNat).faults.toNat, ro 0x6011 3 tU8 fun s => (s.island s.faults.select.toNat).service.code,
   roB 0x6012 1 64 fun s => packBytes 64 fun i => decide ((s.island i).service = .heldOff),
   ro 0x6020 1 tU8 fun s => b1 s.faults.factory,
   rw 0xF000 1 tU16 (fun s => s.faults.fiIsland.toNat) anyVal (setFaults fun v f => { f with fiIsland := BitVec.ofNat 16 v }),
   rw 0xF000 2 tU16 (fun s => s.faults.fiCode.toNat) anyVal (setFaults fun v f => { f with fiCode := BitVec.ofNat 16 v }),
   rw 0xF000 3 tU32 (fun s => s.faults.fiDetail.toNat) anyVal (setFaults fun v f => { f with fiDetail := BitVec.ofNat 32 v }),
   rw 0xF000 4 tTime (fun s => s.faults.fiAt.toNat) anyVal (setFaults fun v f => { f with fiAt := BitVec.ofNat 64 v }),
   rwR 0xF000 5 tU8 (fun s => b1 s.faults.fiArmed) isBit writeFi,
   rw 0xF001 1 tU8 (fun s => s.faults.piKind.toNat) anyVal (setFaults fun v f => { f with piKind := BitVec.ofNat 8 v }),
   rw 0xF001 2 tU64 (fun s => s.faults.piTarget.toNat) anyVal (setFaults fun v f => { f with piTarget := BitVec.ofNat 64 v }),
   rw 0xF001 3 tU8 (fun s => s.faults.piBits) (within 1 128) (setFaults fun v f => { f with piBits := v }),
   rwR 0xF001 4 tU8 (fun _ => 0) isBit writePi]

/-! ### Counters and sampling (R463) -/

def setSampling (f : Nat → Sampling → Sampling) (v : Nat) (s : State) : State := { s with sampling := f v s.sampling }

/-- The counter records of every island (5100h + i). -/
def entCounter : Ent where
  lo := 0x5100
  hi := 0x523F
  slo := 1
  shi := 12
  type := tBytes 16
  acc := .ro
  get s a := counterRecord s a.i a.k a.j
  after a s := useCount a.k s
  may _ _ _ := true
  ok _ _ _ := true
  set _ _ s := wrote s

/-- The counter configurations of every island (5300h + i). -/
def entCounterCfg : Ent where
  lo := 0x5300
  hi := 0x543F
  slo := 1
  shi := 8
  type := tBytes 32
  acc := .rw
  get s a := let c := tget {} (s.island a.i).cfgs a.k; bytesOf [c.w0, c.w1, c.w2, c.w3]
  after _ s := s
  may _ _ _ := true
  ok _ a v := cfgOk a.i (wordsOf 4 v)
  set a v s := wrote (setCfg a.i a.k (wordsOf 4 v) s)

def entCounters : List Ent :=
  [ro 0x5000 1 tU8 fun _ => 12, ro 0x5000 2 tU8 fun _ => 56, ro 0x5000 3 tU16 fun _ => 3624, ro 0x5000 4 tU16 fun _ => 40,
   wo 0x5000 5 tU16 lapOk fun v s => wrote (clearLap v s),
   rwB 0x5000 6 640 (fun s => packBytes 640 (tget false s.sampling.notify)) (fun _ => true)
     fun v s => wrote { s with sampling := { s.sampling with notify := bitTable false 5120 v } },
   entCounter, entCounterCfg,
   rw 0x5600 1 tU8 (fun s => s.sampling.enable.toNat) (within 0 3) fun v s => enableSampling (BitVec.ofNat 8 v) s,
   rw 0x5600 2 tU32 (fun s => s.sampling.n) (within 1 16777216) (setSampling fun v x => { x with n := v }),
   rw 0x5600 3 tU32 (fun s => s.sampling.seed.toNat) (within 1 0xFFFFFFFF) (setSampling fun v x => { x with seed := BitVec.ofNat 32 v }),
   rwB 0x5600 4 32 (fun s => packBytes 32 (tget true s.sampling.cores)) (fun _ => true)
     fun v s => wrote { s with sampling := { s.sampling with cores := bitTable true 256 v } },
   ro 0x5600 5 tU16 fun s => s.sampling.records.length, ro 0x5600 6 tU64 fun s => s.sampling.lost.toNat,
   roLine 0x5601 1 1 (tBytes 128) (fun s _ => fit 128 (bytesOf (s.sampling.records.headD []))) fun _ => takeSample]

/-! ### The module (R483) -/

def asI32 (t : Int) : Nat := (BitVec.ofInt 32 t).toNat

/-- The hottest island: the lowest of those with the largest latest reading. -/
def State.hottestIsland (s : State) : Nat :=
  islandIds.foldl (fun b i => if (s.island b).temp < (s.island i).temp then i else b) 0

def entModule : List Ent :=
  [ro 0x2040 1 tU32 fun s => s.module.inputMv, ro 0x2040 2 tU16 fun s => s.module.p1, ro 0x2040 3 tU16 fun s => s.module.p100,
   ro 0x2040 4 tU16 (fun s => s.module.peak) (modModule fun m => { m with peak := 0 }), ro 0x2040 5 tU8 fun s => s.module.fraction,
   ro 0x2040 6 tU64 fun s => s.module.freezeCc.toNat,
   rw 0x2041 1 tU16 (fun s => s.module.tempSelect.toNat) (within 0 0x1FF) fun v => modModule fun m => { m with tempSelect := BitVec.ofNat 16 v },
   ro 0x2041 2 tI32 fun s => asI32 (s.island s.module.tempSelect.toNat).temp, ro 0x2041 3 tI32 fun s => asI32 (s.island s.module.tempSelect.toNat).hottest,
   ro 0x2041 4 tI32 fun s => asI32 (s.island s.hottestIsland).temp, ro 0x2041 5 tU16 State.hottestIsland,
   rw 0x2041 6 tI32 (fun s => asI32 s.module.tempWarn) (within 480 800) fun v => modModule fun m => { m with tempWarn := v },
   ro 0x2041 7 tI32 fun _ => 840, ro 0x2042 1 tI32 fun s => asI32 s.module.coolantIn, ro 0x2042 2 tI32 fun s => asI32 s.module.coolantOut]

/-- The whole dictionary (R405). -/
def dictionary : List Ent :=
  entIdentity ++ entRequests ++ entIndex ++ entScans ++ entRanking ++ entText ++ entServing ++ entCores ++ entHbm ++ entTables ++ entFabric ++
  entKeyring ++ entTraffic ++ entPlacement ++ entHost ++ entFirmware ++ entFaults ++ entCounters ++ entModule

end Sys2Proof.Machine
end

