-- ==== Sys2Proof/Machine/Dictionary.lean ====
section
/-! DEFINITION. Dictionary accesses (R396, R402 to R406, R410) and the mailbox commands over them (R394, R395, R399, R401, R404, R455),
with the rows that are one entry's access. -/

namespace Sys2Proof.Machine

/-! ### Finding an entry (R402, R442, R463) -/

/-- The index answers here and now: the factory range only in factory test mode, an island's counters only where there is one. -/
def State.sees (s : State) (index : Nat) : Bool :=
  (index < 0xF000 || s.faults.factory) &&
  (if 0x5100 ≤ index ∧ index ≤ 0x523F then (islandType (index - 0x5100)).isSome
   else if 0x5300 ≤ index ∧ index ≤ 0x543F then (islandType (index - 0x5300)).isSome else true)

def Ent.covers (e : Ent) (index : Nat) : Bool := e.lo ≤ index && index ≤ e.hi
def Ent.holds (e : Ent) (index sub : Nat) : Bool := e.covers index && e.slo ≤ sub && sub ≤ e.shi
/-- Where an access lands in a line of the tables. -/
def Ent.place (e : Ent) (index sub j : Nat) : At := ⟨index - e.lo, sub - e.slo, j⟩

/-- The line that holds an entry. -/
def State.entry (s : State) (index sub : Nat) : Option Ent := if s.sees index then dictionary.find? fun e => e.holds index sub else none

/-- The highest subindex of an index that exists (subindex 00). -/
def State.highest (s : State) (index : Nat) : Option Nat :=
  match if s.sees index then dictionary.filter fun e => e.covers index else [] with
  | [] => none
  | e :: l => some (l.foldl (fun m x => max m x.shi) e.shi)

/-! ### Reads and writes (R396) -/

/-- The outcome of a read: ODR.RESULT, the value, and the state after. -/
structure ReadOut where
  result : Nat
  value  : Bytes
  state  : State

/-- One read, as record j of its command. -/
def readEntry (index sub j : Nat) (s : State) : ReadOut :=
  if sub = 0 then match s.highest index with
    | some m => ⟨0, leBytes 1 m, s⟩
    | none => ⟨1, [], s⟩
  else match s.entry index sub with
    | none => ⟨1, [], s⟩
    | some e => if e.acc = .wo then ⟨2, [], s⟩ else ⟨0, e.get s (e.place index sub j), e.after (e.place index sub j) s⟩

/-- Entries that can be written before the firmware is Ready (R410). -/
def earlyEntry (index sub : Nat) : Bool :=
  (0x8000 ≤ index && index < 0x9000) || (index = 0x4200 && sub = 1) || index = 0x4400 || index = 0x4403 || index = 0x4404 || index = 0x4408

/-- A value has the length of a type (R403). -/
def EntType.fits (t : EntType) (v : Bytes) : Bool := if t.code = 9 then 1 ≤ v.length && v.length ≤ t.len else v.length = t.len

/-- A refusal by one of the tests before the entry's own rule. -/
def refusedAt (r : Nat) (s : State) : WriteOut := { result := r, state := s }

/-- One write: the tests in the order 01h, 02h, 05h, 03h, 04h, 06h. -/
def writeEntry (index sub : Nat) (v : Bytes) (s : State) : WriteOut :=
  if sub = 0 then refusedAt (if (s.highest index).isSome then 2 else 1) s
  else match s.entry index sub with
    | none => refusedAt 1 s
    | some e =>
      let a := e.place index sub 0
      if e.acc = .ro then refusedAt 2 s
      else if !e.type.fits v then refusedAt 5 s
      else if !(s.fwReady || earlyEntry index sub) || !e.may s a v then refusedAt 3 s
      else if !e.ok s a v then refusedAt 4 s
      else e.set a v s

/-! ### Access records (R396, R406) -/

/-- An access record: its header, and for a read the value padded to a multiple of 8 bytes. -/
def accessRecord (index sub result : Nat) (code : Word16) (time : Word64) (value : Bytes) : Bytes :=
  bytesOf [field 48 index ||| field 40 sub ||| field 32 result ||| field 16 code.toNat ||| field 0 value.length, time] ++
  fit (ceilDiv value.length 8 * 8) value

/-- An access is counted at the hub (R451), and a refusal in its entries (R406). -/
def noteAccess (via : Carrier) (index sub result : Nat) (code : Word16) (write : Bool) (s : State) : State :=
  let s := countEv idHub 7 3 1 { priv := 1 } s
  if result ≠ 0 then s.modHost fun h => { h with
    odRefusals := h.odRefusals + 1
    lastRefusal := field 48 index ||| field 40 sub ||| field 32 result ||| field 16 code.toNat ||| field 8 (carrierCode via) }
  else if write then s.modHost fun h => { h with odWrites := h.odWrites + 1 } else s

/-- One read with its record. -/
def readRecord (via : Carrier) (index sub j : Nat) (s : State) : Bytes × State :=
  let r := readEntry index sub j s
  (accessRecord index sub r.result 0 s.time r.value, noteAccess via index sub r.result 0 false r.state)

/-- A read is answered: the hub serves, or the collector serves the fault entries in its place (R448). -/
def State.answersRead (s : State) (via : Carrier) (index : Nat) : Bool :=
  s.reaches via && (s.hubUp || (0x6000 ≤ index && index ≤ 0x6012))

/-- An OD_READ. -/
def accessRead (via : Carrier) (index sub : Nat) (s : State) : State :=
  if s.answersRead via index then
    let r := readRecord via index sub 0 s
    answer via .success r.1 r.2
  else s

/-- An OD_WRITE. -/
def accessWrite (via : Carrier) (index sub : Nat) (v : Bytes) (s : State) : State :=
  if s.carrierUp via then
    let w := writeEntry index sub v s
    answer via .success (accessRecord index sub w.result w.code s.time []) (noteAccess via index sub w.result w.code true w.state)
  else s

/-! ### The mailbox commands (R394, R395, R399, R404, R455) -/

/-- OD_READ (R394, R396, R402). -/
def execOdRead (via : Carrier) (index : Word16) (sub : Byte) (s : State) : Host.Outcome State Fault Refusal :=
  .next (accessRead via index.toNat sub.toNat s)

/-- OD_WRITE (R394, R396, R402). -/
def execOdWrite (via : Carrier) (index : Word16) (sub : Byte) (value : Bytes) (s : State) : Host.Outcome State Fault Refusal :=
  .next (accessWrite via index.toNat sub.toNat value s)

/-- The size of a read's record. -/
def recordSize (index sub : Nat) (s : State) : Nat :=
  16 + (let r := readEntry index sub 0 s; if r.result = 0 then ceilDiv r.value.length 8 * 8 else 0)

/-- The records of a multiple read, in order (R455). -/
def readAll (via : Carrier) (es : List (Nat × Nat)) (s : State) : Bytes × State :=
  (es.zipIdx).foldl (fun a (e, j) => let r := readRecord via e.1 e.2 j a.2; (a.1 ++ r.1, r.2)) ([], s)

/-- OD_READ_MULTI (R394, R455). -/
def execOdReadMulti (via : Carrier) (entries : List (Word16 × Byte)) (s : State) : Host.Outcome State Fault Refusal :=
  .next (
    let es := entries.map fun e => (e.1.toNat, e.2.toNat)
    if !(es.all fun e => s.answersRead via e.1) || !s.reaches via || es = [] && !s.hubUp then s
    else if es = [] ∨ 64 < es.length ∨ 16384 < es.foldl (fun n e => n + recordSize e.1 e.2 s) 0 then answer via .invalidInput [] s
    else
      let r := readAll via es s
      answer via .success r.1 r.2)

/-- The list records of an index (R404). -/
def listIndex (index : Nat) : List Word64 :=
  (sortBy (fun a b => a.1 ≤ b.1) ((dictionary.filter fun e => e.covers index).flatMap fun e =>
    (List.range (e.shi + 1 - e.slo)).map fun k => (e.slo + k, e))).map fun (sub, e) =>
      field 48 index ||| field 40 sub ||| field 32 e.type.code ||| field 30 e.acc.code ||| field 0 e.type.len

/-- The indices of a range that exist, ascending. -/
def State.indicesIn (s : State) (first last : Nat) : List Nat :=
  dedupBy id (sortBy (· ≤ ·) (dictionary.flatMap fun e =>
    ((List.range (e.hi + 1 - e.lo)).map (e.lo + ·)).filter fun i => first ≤ i && i ≤ last && s.sees i))

/-- Whole indices while their records fit in 2,048. -/
def listUpTo : Nat → List Nat → List Word64
  | _, [] => []
  | room, i :: l =>
    let rs := listIndex i
    if rs.length ≤ room then rs ++ listUpTo (room - rs.length) l else []

/-- OD_LIST (R404). -/
def execOdList (via : Carrier) (first last : Word16) (s : State) : Host.Outcome State Fault Refusal :=
  .next (if s.carrierUp via then answer via .success (bytesOf (listUpTo 2048 (s.indicesIn first.toNat last.toNat))) s else s)

/-- An event record (R399). -/
def Event.bytes (e : Event) : Bytes := bytesOf [e.time, field 48 e.index.toNat ||| field 40 e.sub.toNat ||| field 32 e.kind ||| field 0 e.value.toNat]

/-- The oldest records leave the queue; vector 1 fires when some are left (R398, R399). -/
def takeEvents (n : Nat) (s : State) : Bytes × State :=
  let es := s.host.events.take n
  let rest := s.host.events.drop n
  let s := s.modHost fun h => { h with events := rest }
  (leBytes 4 es.length ++ zeros 4 ++ es.flatMap Event.bytes, if rest = [] then s else fireVector 1 s)

/-- EVENT_READ (R394, R398, R399). -/
def execEventRead (via : Carrier) (max : Nat) (s : State) : Host.Outcome State Fault Refusal :=
  .next (if !s.carrierUp via then s
  else if max = 0 ∨ 256 < max then answer via .invalidInput [] s
  else
    let r := takeEvents max s
    answer via .success r.1 r.2)

/-- The opcodes of R394's and R415's tables on a carrier. -/
def assignedOpcode (via : Carrier) (op : Nat) : Bool :=
  (0xC000 ≤ op && op ≤ 0xC003) || op = 0xC010 || (0xC020 ≤ op && op ≤ 0xC024 && (op ≠ 0xC022 || via = .mailbox)) || op = 0xC030

/-- UNSUPPORTED (R394, R415). -/
def execUnsupported (via : Carrier) (opcode : Word16) (s : State) : Host.Outcome State Fault Refusal :=
  .next (if s.carrierUp via && !assignedOpcode via opcode.toNat then answer via .unsupported [] s else s)

/-- The answer of PUBLISH_JOB: slot, generation and code (R394). -/
def jobAnswer (n : Nat) (gen : Byte) (code : Word16) : Bytes := leBytes 1 n ++ [gen] ++ leBytes 2 code.toNat ++ zeros 4

/-- A job is submitted over a carrier (R395). -/
def publishOver (via : Carrier) (desc : Words) (s : State) : State :=
  let ((code, n, gen), s) := submitJob desc s
  answer via .success (jobAnswer n gen code) s

/-- PUBLISH_JOB (R394, R395, R410). -/
def execPublishJob (via : Carrier) (desc : Words) (s : State) : Host.Outcome State Fault Refusal :=
  .next (if !s.carrierUp via then s
  else if !s.fwReady then answer via .success (jobAnswer 0 0 0x705) s
  else publishOver via desc s)

/-! ### Accesses with rows of their own -/

/-- A number written to the entry of unit n. -/
def writeUnit (via : Carrier) (index n len v : Nat) (s : State) : State := if n < 255 then accessWrite via index (n + 1) (leBytes len v) s else s

/-- RING_ENABLE (R33, R66). -/
def execRingEnable (via : Carrier) (ring : Nat) (value : Byte) (s : State) : Host.Outcome State Fault Refusal :=
  .next (writeUnit via 0x7014 ring 1 value.toNat s)
/-- JOB_RELEASE (R83, R90). -/
def execJobRelease (via : Carrier) (value : Byte) (s : State) : Host.Outcome State Fault Refusal :=
  .next (accessWrite via 0x4121 4 [value] s)
/-- EPOCH_ADVANCE (R84). -/
def execEpochAdvance (via : Carrier) (corpus : Nat) (epoch : Word32) (s : State) : Host.Outcome State Fault Refusal :=
  .next (writeUnit via 0x4113 corpus 4 epoch.toNat s)
/-- EPOCH_FLOOR (R84, R87). -/
def execEpochFloor (via : Carrier) (corpus : Nat) (floor : Word32) (s : State) : Host.Outcome State Fault Refusal :=
  .next (writeUnit via 0x4114 corpus 4 floor.toNat s)
/-- VOCAB_ENABLE (R144). -/
def execVocabEnable (via : Carrier) (n : Nat) (value : Byte) (s : State) : Host.Outcome State Fault Refusal :=
  .next (writeUnit via 0x7201 n 1 value.toNat s)
/-- TEMPLATE_ENABLE (R160). -/
def execTemplateEnable (via : Carrier) (n : Nat) (value : Byte) (s : State) : Host.Outcome State Fault Refusal :=
  .next (writeUnit via 0x7212 n 1 value.toNat s)
/-- HINGE_INSTALL (R267). -/
def execHingeInstall (via : Carrier) (value : Word64) (s : State) : Host.Outcome State Fault Refusal :=
  .next (accessWrite via 0x4405 1 (leBytes 8 value.toNat) s)
/-- STACK_ENABLE (R269, R485). -/
def execStackEnable (via : Carrier) (n : Nat) (value : Byte) (s : State) : Host.Outcome State Fault Refusal :=
  .next (writeUnit via 0x4401 n 1 value.toNat s)
/-- MODEL_ENABLE (R275, R485). -/
def execModelEnable (via : Carrier) (n : Nat) (value : Byte) (s : State) : Host.Outcome State Fault Refusal :=
  .next (writeUnit via 0x7301 n 1 value.toNat s)
/-- ROLE_PIN (R284). -/
def execRolePin (via : Carrier) (cluster : Nat) (value : Byte) (s : State) : Host.Outcome State Fault Refusal :=
  .next (writeUnit via 0x7311 cluster 1 value.toNat s)
/-- TABLE_ENABLE (R301, R485). -/
def execTableEnable (via : Carrier) (n : Nat) (value : Byte) (s : State) : Host.Outcome State Fault Refusal :=
  .next (writeUnit via 0x4502 n 1 value.toNat s)
/-- TABLE_SEAL (R312). -/
def execTableSeal (via : Carrier) (n : Nat) (version : Word32) (s : State) : Host.Outcome State Fault Refusal :=
  .next (writeUnit via 0x4508 n 4 version.toNat s)
/-- TABLE_ADVANCE (R313). -/
def execTableAdvance (via : Carrier) (n : Nat) (version : Word32) (s : State) : Host.Outcome State Fault Refusal :=
  .next (writeUnit via 0x4505 n 4 version.toNat s)
/-- TABLE_INSTALL (R314). -/
def execTableInstall (via : Carrier) (n : Nat) (version : Word32) (root : Word64) (s : State) : Host.Outcome State Fault Refusal :=
  .next (writeUnit via 0x450A n 16 (version.toNat + 2 ^ 64 * root.toNat) s)
/-- TABLE_FLOOR (R314). -/
def execTableFloor (via : Carrier) (n : Nat) (floor : Word32) (s : State) : Host.Outcome State Fault Refusal :=
  .next (writeUnit via 0x4506 n 4 floor.toNat s)
/-- LINK_ENABLE (R322, R485). -/
def execLinkEnable (via : Carrier) (n : Nat) (value : Byte) (s : State) : Host.Outcome State Fault Refusal :=
  .next (writeUnit via 0x3001 n 1 value.toNat s)
/-- ROUTE_TABLE (R326). -/
def execRouteTable (via : Carrier) (offset : Word64) (s : State) : Host.Outcome State Fault Refusal :=
  .next (accessWrite via 0x3010 1 (leBytes 8 offset.toNat) s)
/-- KEYRING_DIR (R342). -/
def execKeyringDir (via : Carrier) (offset : Word64) (s : State) : Host.Outcome State Fault Refusal :=
  .next (accessWrite via 0x3020 1 (leBytes 8 offset.toNat) s)
/-- KEYRING_PIN (R345). -/
def execKeyringPin (via : Carrier) (w0 w1 : Word64) (s : State) : Host.Outcome State Fault Refusal :=
  .next (accessWrite via 0x3020 4 (bytesOf [w0, w1]) s)
/-- KEYRING_UNPIN (R345). -/
def execKeyringUnpin (via : Carrier) (index : Word16) (s : State) : Host.Outcome State Fault Refusal :=
  .next (accessWrite via 0x3020 5 (leBytes 2 index.toNat) s)
/-- KEYRING_FLUSH (R348). -/
def execKeyringFlush (via : Carrier) (value : Byte) (s : State) : Host.Outcome State Fault Refusal :=
  .next (accessWrite via 0x3020 6 [value] s)
/-- GATE_APPLY (R356). -/
def execGateApply (via : Carrier) (link : Nat) (value : Byte) (s : State) : Host.Outcome State Fault Refusal :=
  .next (writeUnit via 0x3044 link 1 value.toNat s)
/-- SHAPER_RATE (R358). -/
def execShaperRate (via : Carrier) (link : Nat) (rates : List Word32) (s : State) : Host.Outcome State Fault Refusal :=
  .next (if link < 255 then accessWrite via 0x3046 (link + 1) (rates.flatMap fun r => leBytes 4 r.toNat) s else s)
/-- POLICER_CFG (R360). -/
def execPolicerCfg (via : Carrier) (w0 w1 : Word64) (s : State) : Host.Outcome State Fault Refusal :=
  .next (accessWrite via 0x3050 2 (bytesOf [w0, w1]) s)
/-- TENANT_POL_CFG (R360, R363). -/
def execTenantPolCfg (via : Carrier) (w0 w1 : Word64) (s : State) : Host.Outcome State Fault Refusal :=
  .next (accessWrite via 0x7020 2 (bytesOf [w0, w1]) s)
/-- QUEUE_HWM (R364): a read that clears. -/
def execQueueHwm (via : Carrier) (sub : Nat) (s : State) : Host.Outcome State Fault Refusal :=
  .next (if sub < 256 then accessRead via 0x3061 sub s else s)
/-- CLASS_HWM (R364): a read that clears. -/
def execClassHwm (via : Carrier) (sub : Nat) (s : State) : Host.Outcome State Fault Refusal :=
  .next (if sub < 256 then accessRead via 0x3062 sub s else s)
/-- CLUSTER_ENABLE (R376, R485). -/
def execClusterEnable (via : Carrier) (n : Nat) (value : Byte) (s : State) : Host.Outcome State Fault Refusal :=
  .next (writeUnit via 0x2020 n 1 value.toNat s)
/-- TEXT_ENABLE (R376, R485). -/
def execTextEnable (via : Carrier) (n : Nat) (value : Byte) (s : State) : Host.Outcome State Fault Refusal :=
  .next (writeUnit via 0x2022 n 1 value.toNat s)
/-- SLOWDOWN_CLEAR (R375). -/
def execSlowdownClear (via : Carrier) (value : Byte) (s : State) : Host.Outcome State Fault Refusal :=
  .next (accessWrite via 0x7402 3 [value] s)
/-- FW_FLOOR (R420). -/
def execFwFloor (via : Carrier) (value : Word32) (s : State) : Host.Outcome State Fault Refusal :=
  .next (accessWrite via 0x8000 4 (leBytes 4 value.toNat) s)
/-- SKEW_CLEAR (R24). -/
def execSkewClear (via : Carrier) (value : Byte) (s : State) : Host.Outcome State Fault Refusal :=
  .next (accessWrite via 0x2010 5 [value] s)
/-- FAULT_CLEAR (R441). -/
def execFaultClear (via : Carrier) (value : Byte) (s : State) : Host.Outcome State Fault Refusal :=
  .next (accessWrite via 0x6000 5 [value] s)
/-- FI_ARM (R443). -/
def execFiArm (via : Carrier) (value : Byte) (s : State) : Host.Outcome State Fault Refusal :=
  .next (accessWrite via 0xF000 5 [value] s)
/-- PI_ARM (R444). -/
def execPiArm (via : Carrier) (value : Byte) (s : State) : Host.Outcome State Fault Refusal :=
  .next (accessWrite via 0xF001 4 [value] s)
/-- COUNTER_READ (R454). -/
def execCounterRead (via : Carrier) (island counter : Nat) (s : State) : Host.Outcome State Fault Refusal :=
  .next (if island < 0x140 ∧ counter < 255 then accessRead via (0x5100 + island) (counter + 1) s else s)
/-- COUNTER_CFG (R452). -/
def execCounterCfg (via : Carrier) (island counter : Nat) (words : Words) (s : State) : Host.Outcome State Fault Refusal :=
  .next (if island < 0x140 ∧ counter < 255 then accessWrite via (0x5300 + island) (counter + 1) (bytesOf words) s else s)
/-- LAP_CLEAR (R456). -/
def execLapClear (via : Carrier) (value : Word16) (s : State) : Host.Outcome State Fault Refusal :=
  .next (accessWrite via 0x5000 5 (leBytes 2 value.toNat) s)
/-- SAMPLE_ENABLE (R459). -/
def execSampleEnable (via : Carrier) (value : Byte) (s : State) : Host.Outcome State Fault Refusal :=
  .next (accessWrite via 0x5600 1 [value] s)
/-- SAMPLE_RECORD (R461): a read that removes. -/
def execSampleRecord (via : Carrier) (s : State) : Host.Outcome State Fault Refusal := .next (accessRead via 0x5601 1 s)
/-- POWER_PEAK_W (R483): a read that clears. -/
def execPowerPeakW (via : Carrier) (s : State) : Host.Outcome State Fault Refusal := .next (accessRead via 0x2040 4 s)

end Sys2Proof.Machine
end

