-- ==== Sys2Proof/Machine/Spdm.lean ====
section
/-! DEFINITION. The SPDM responder (R390, R423 to R428): its answers, measurements, signatures, sessions and IDE keys. The numbers
of messages and errors are those of the DMTF standard that R425 names. -/

namespace Sys2Proof.Machine

/-! ### Ports and answers (R410, R423, R425, R442) -/

def portNum : SpdmPort → Nat
  | .doe => 0 | .i3c => 1

/-- A request on the port reaches the responder. -/
def State.spdmUp (s : State) (p : SpdmPort) : Bool :=
  s.hubUp && match p with
    | .doe => s.linkUp && s.inService idHost
    | .i3c => s.host.i3cAddr ≠ 0

/-- A message: version 1.3, its code and parameters, and its body. -/
def spdmMsg (code p1 p2 : Nat) (body : Bytes) : Bytes := [0x13, BitVec.ofNat 8 code, BitVec.ofNat 8 p1, BitVec.ofNat 8 p2] ++ body
/-- An ERROR. -/
def spdmError (err : Nat) : Bytes := spdmMsg 0x7F err 0 []
def errInvalid : Nat := 1
def errSession : Nat := 2
def errBusy : Nat := 3
def errUnexpected : Nat := 4
def errUnspecified : Nat := 5
def errDecrypt : Nat := 6
def errLimit : Nat := 0xA

/-- The answer on a port. -/
def spdmSay (p : SpdmPort) (m : Bytes) (s : State) : State := modIdent (fun i => { i with answers := tset [] i.answers (portNum p) m }) s

/-- How far the port's negotiation is: 0 nothing, 1 version, 2 capabilities, 3 algorithms. -/
def State.spdmLevel (s : State) (p : SpdmPort) : Nat := tget 0 s.ident.negotiated (portNum p)
def setLevel (p : SpdmPort) (n : Nat) (s : State) : State := modIdent (fun i => { i with negotiated := tset 0 i.negotiated (portNum p) n }) s

/-- A request that needs a level is served: ERROR without an identity and in factory test mode (R423, R442), and out of order. -/
def spdmServe (p : SpdmPort) (level : Nat) (run : State → State) (s : State) : State :=
  if !s.spdmUp p then s
  else if s.ident.pufState ≠ 2 ∨ s.faults.factory then spdmSay p (spdmError errUnspecified) s
  else if s.spdmLevel p < level then spdmSay p (spdmError errUnexpected) s
  else run s

/-- GET_VERSION (R425). -/
def execGetVersion (port : SpdmPort) (s : State) : Host.Outcome State Fault Refusal :=
  .next (spdmServe port 0 (fun s => spdmSay port [0x10, 4, 0, 0, 0, 1, 0, 0x13] (setLevel port 1 s)) s)

/-- GET_CAPABILITIES (R425). -/
def execGetCapabilities (port : SpdmPort) (s : State) : Host.Outcome State Fault Refusal :=
  .next (spdmServe port 1 (fun s => spdmSay port (spdmMsg 0x61 0 0 Config.spdmCapabilities) (setLevel port (max 2 (s.spdmLevel port)) s)) s)

/-- NEGOTIATE_ALGORITHMS (R425). -/
def execNegotiateAlgorithms (port : SpdmPort) (s : State) : Host.Outcome State Fault Refusal :=
  .next (spdmServe port 2 (fun s => spdmSay port (spdmMsg 0x63 0 0 Config.spdmAlgorithms) (setLevel port 3 s)) s)

/-! ### Certificates (R425) -/

/-- The digest of the chain in slot 0. -/
def State.certDigest (s : State) : Bytes := fit 48 (Config.sha3 s.flash.certChain)

/-- GET_DIGESTS (R425): slot 0 only. -/
def execGetDigests (port : SpdmPort) (s : State) : Host.Outcome State Fault Refusal :=
  .next (spdmServe port 3 (fun s => spdmSay port (spdmMsg 1 0 1 s.certDigest) s) s)

/-- GET_CERTIFICATE (R425): a part of the chain and how much is left. -/
def execGetCertificate (port : SpdmPort) (certSlot offset len : Nat) (s : State) : Host.Outcome State Fault Refusal :=
  .next (spdmServe port 3 (fun s =>
    let chain := s.flash.certChain
    if certSlot ≠ 0 ∨ chain.length < offset then spdmSay port (spdmError errInvalid) s
    else
      let part := (chain.drop offset).take len
      spdmSay port (spdmMsg 2 0 0 (leBytes 2 part.length ++ leBytes 2 (chain.length - offset - part.length) ++ part)) s) s)

/-! ### Signatures (R427, R428) -/

/-- Signatures of the last second. -/
def State.signedLately (s : State) : List Word64 := s.ident.signTimes.filter fun t => (s.time - t).toNat < 1000000000

/-- SIGNING_CODE becomes 0706h. -/
def signingStops (s : State) : State := noteReady s (modIdent (fun i => { i with code := 0x706 }) s)

/-- A new signing record: 1,024 more leaves. -/
def newRecord (s : State) : State :=
  { s with
    flash := { s.flash with leafLimit := s.flash.leafLimit + 1024, count := s.flash.count + 1, counter := s.flash.counter + 1 }
    ident := { s.ident with leafLimit := s.ident.leafLimit + 1024 } }

/-- A leaf is taken. -/
def takeLeaf (s : State) : Nat × State :=
  (s.ident.leafNext, modIdent (fun i => { i with leafNext := i.leafNext + 1, signatures := i.signatures + 1, signTimes := s.signedLately ++ [s.time] }) s)

/-- A signature's leaf, or the ERROR (R427, R428); `flashOk`: a record write succeeds. -/
def signLeaf (flashOk : Bool) (s : State) : Option Nat × Nat × State :=
  if s.ident.code ≠ 0 then (none, errUnspecified, s)
  else if s.ident.maxRate ≤ s.signedLately.length then (none, errBusy, s)
  else if s.ident.leafNext ≠ s.ident.leafLimit then
    let r := takeLeaf s
    (some r.1, 0, r.2)
  else if 2 ^ 40 ≤ s.ident.leafLimit ∨ !flashOk then (none, errUnspecified, signingStops s)
  else
    let r := takeLeaf (newRecord s)
    (some r.1, 0, r.2)

/-- The responder's own nonce: 32 open bytes. -/
def State.freeNonce (s : State) : Bytes := (List.range 4).flatMap fun i => leBytes 8 (Config.freeWord (s.hub.freeUsed + i)).toNat

/-- A response with a signature over what it says and what the requester sent. -/
def spdmSigned (p : SpdmPort) (flashOk : Bool) (sent : Bytes) (msg : State → Bytes) (more : State → State) (s : State) : State :=
  match signLeaf flashOk s with
  | (none, err, s) => spdmSay p (spdmError err) s
  | (some leaf, _, s) =>
    let body := msg s ++ s.freeNonce
    more (spdmSay p (body ++ fit 18469 (Config.attestSign s.ident.seed leaf (sent ++ body))) (s.modHub fun h => { h with freeUsed := h.freeUsed + 4 }))

/-- CHALLENGE (R428). -/
def execChallenge (port : SpdmPort) (nonce : Bytes) (flashOk : Bool) (s : State) : Host.Outcome State Fault Refusal :=
  .next (spdmServe port 3 (spdmSigned port flashOk nonce (fun s => spdmMsg 3 0 1 s.certDigest) id) s)

/-! ### Measurements (R426) -/

/-- The value of every RWO entry, in ascending entry order. -/
def State.rwoValues (s : State) : Bytes :=
  (sortBy (fun a b => a.lo < b.lo || (a.lo = b.lo && a.slo ≤ b.slo)) (dictionary.filter fun e => e.acc = .rwo)).flatMap fun e =>
    (List.range (e.shi + 1 - e.slo)).flatMap fun k => e.get s ⟨0, k, 0⟩

/-- The value of a measurement block, raw for block 3. -/
def State.measured (s : State) : Nat → Bytes
  | 1 => fit 48 s.ident.romDigest
  | 2 => if s.fw.fn = .ready then fit 48 s.fw.digest else zeros 48
  | 3 => leBytes 4 s.fw.secver.toNat ++ leBytes 4 s.fw.floor.toNat
  | 4 => fit 48 (Config.sha3 s.rwoValues)
  | _ => fit 48 (Config.sha3 s.ident.uid)

/-- A DMTF measurement block. -/
def State.block (s : State) (i : Nat) : Bytes :=
  let v := s.measured i
  [BitVec.ofNat 8 i, 1] ++ leBytes 2 (v.length + 3) ++ [if i = 3 then 0x80 else 0] ++ leBytes 2 v.length ++ v

/-- The MEASUREMENTS response: how many blocks there are, one block, or all. -/
def State.measurements (s : State) (index : Nat) : Bytes :=
  if index = 0 then spdmMsg 0x60 5 0 [0, 0, 0, 0]
  else
    let is := if index = 0xFF then [1, 2, 3, 4, 5] else [index]
    let record := is.flatMap s.block
    spdmMsg 0x60 0 0 ([BitVec.ofNat 8 is.length] ++ leBytes 3 record.length ++ record)

/-- GET_MEASUREMENTS (R426, R428). -/
def execGetMeasurements (port : SpdmPort) (index : Nat) (signed : Bool) (nonce : Bytes) (flashOk : Bool) (s : State) :
    Host.Outcome State Fault Refusal :=
  .next (spdmServe port 3 (fun s =>
    if 5 < index ∧ index ≠ 0xFF then spdmSay port (spdmError errInvalid) s
    else if signed then spdmSigned port flashOk nonce (·.measurements index) id s
    else spdmSay port (s.measurements index) s) s)

/-! ### Sessions (R425) -/

def State.session (s : State) (p : SpdmPort) (id : Nat) : Option Session := s.ident.sessions.find? fun x => x.id = id && x.port = p
def modSession (id : Nat) (f : Session → Session) : State → State :=
  modIdent fun i => { i with sessions := i.sessions.map fun x => if x.id = id then f x else x }
def dropSession (id : Nat) : State → State := modIdent fun i => { i with sessions := i.sessions.filter fun x => x.id ≠ id }

/-- A session is opened, its handshake not finished. -/
def openSession (p : SpdmPort) (s : State) : State :=
  modIdent (fun i => { i with sessions := i.sessions ++ [⟨i.nextSession, p, false, 0⟩], nextSession := i.nextSession + 1 }) s

/-- KEY_EXCHANGE (R425): at most 4 sessions. -/
def execKeyExchange (port : SpdmPort) (pub : Bytes) (flashOk : Bool) (s : State) : Host.Outcome State Fault Refusal :=
  .next (spdmServe port 3 (fun s =>
    if 4 ≤ s.ident.sessions.length then spdmSay port (spdmError errLimit) s
    else spdmSigned port flashOk pub
      (fun s => spdmMsg 0x64 0 0 (leBytes 2 s.ident.nextSession ++ Config.spdmExchange s.ident.nextSession pub)) (openSession port) s) s)

/-- A request inside a session that has or has not finished its handshake. -/
def inSession (p : SpdmPort) (id : Nat) (ready : Bool) (run : State → State) (s : State) : State :=
  spdmServe p 3 (fun s => match s.session p id with
    | none => spdmSay p (spdmError errSession) s
    | some x => if x.ready = ready then run s else spdmSay p (spdmError errUnexpected) s) s

/-- FINISH (R425). -/
def execFinish (port : SpdmPort) (session : Nat) (verify : Bytes) (s : State) : Host.Outcome State Fault Refusal :=
  .next (inSession port session false (fun s =>
    if Config.finishOk session verify then spdmSay port (spdmMsg 0x65 0 0 []) (modSession session (fun x => { x with ready := true }) s)
    else spdmSay port (spdmError errDecrypt) (dropSession session s)) s)

/-- HEARTBEAT (R425). -/
def execHeartbeat (port : SpdmPort) (session : Nat) (s : State) : Host.Outcome State Fault Refusal :=
  .next (inSession port session true (spdmSay port (spdmMsg 0x68 0 0 [])) s)

/-- KEY_UPDATE (R425). -/
def execKeyUpdate (port : SpdmPort) (session : Nat) (s : State) : Host.Outcome State Fault Refusal :=
  .next (inSession port session true (fun s => spdmSay port (spdmMsg 0x69 0 0 []) (modSession session (fun x => { x with keyGen := x.keyGen + 1 }) s)) s)

/-- END_SESSION (R425). -/
def execEndSession (port : SpdmPort) (session : Nat) (s : State) : Host.Outcome State Fault Refusal :=
  .next (inSession port session true (fun s => spdmSay port (spdmMsg 0x6C 0 0 []) (dropSession session s)) s)

/-! ### IDE keys (R390, R406) -/

/-- A bit of IDE_STATE. -/
def setIde (b : Nat) (on : Bool) (s : State) : State :=
  s.modHost fun h => { h with ideState := if on then h.ideState ||| BitVec.ofNat 8 (2 ^ b) else h.ideState &&& ~~~(BitVec.ofNat 8 (2 ^ b)) }

/-- A vendor-defined answer. -/
def sayVendor (id : Nat) (on : Bool) : State → State := spdmSay .doe (spdmMsg 0x7E 0 0 (Config.ideAnswer id on))

/-- IDE_KM (R390): stream 0 is the link stream, 1 and 2 the selective streams. -/
def execIdeKm (session stream : Nat) (on : Bool) (s : State) : Host.Outcome State Fault Refusal :=
  .next (inSession .doe session true (fun s =>
    if 2 < stream then spdmSay .doe (spdmError errInvalid) s else sayVendor stream on (setIde stream on s)) s)

/-- CXL_IDE_KM (R390): the mode is the host's choice when it programs the key. -/
def execCxlIdeKm (session : Nat) (on containment : Bool) (s : State) : Host.Outcome State Fault Refusal :=
  .next (inSession .doe session true (fun s => sayVendor 3 on (setIde 4 (on && containment) (setIde 3 on s))) s)

end Sys2Proof.Machine
end

