-- ==== Sys2Proof/Machine/Dispatch.lean ====
section
/-! DEFINITION. exec: the effect of each command on everything but the queue, one arm a row of spec/opcode_table.json. -/

namespace Sys2Proof.Machine

def exec (i : Instr) (s : State) : Host.Outcome State Fault Refusal :=
  match i with
  | .doorbell ring tail => Sys2Proof.Machine.execDoorbell ring tail s
  | .cancel handle => Sys2Proof.Machine.execCancel handle s
  | .release handle => Sys2Proof.Machine.execRelease handle s
  | .ringEnable via ring value => Sys2Proof.Machine.execRingEnable via ring value s
  | .retrieveAndPack ring desc => Sys2Proof.Machine.execRetrieveAndPack ring desc s
  | .retrieve ring desc => Sys2Proof.Machine.execRetrieve ring desc s
  | .embedOnly ring desc => Sys2Proof.Machine.execEmbedOnly ring desc s
  | .generate ring desc => Sys2Proof.Machine.execGenerate ring desc s
  | .continueText ring desc text => Sys2Proof.Machine.execContinueText ring desc text s
  | .tokenise slot text ctx => Sys2Proof.Machine.execTokenise slot text ctx s
  | .rewriteStage slot => Sys2Proof.Machine.execRewriteStage slot s
  | .embedStage slot => Sys2Proof.Machine.execEmbedStage slot s
  | .scanStage slot => Sys2Proof.Machine.execScanStage slot s
  | .shortlistStage slot => Sys2Proof.Machine.execShortlistStage slot s
  | .exactStage slot remote => Sys2Proof.Machine.execExactStage slot remote s
  | .crossEncode slot remote => Sys2Proof.Machine.execCrossEncode slot remote s
  | .filterStage slot expr remote => Sys2Proof.Machine.execFilterStage slot expr remote s
  | .packStage slot remote => Sys2Proof.Machine.execPackStage slot remote s
  | .finalCommit slot => Sys2Proof.Machine.execFinalCommit slot s
  | .requestFailure handle code => Sys2Proof.Machine.execRequestFailure handle code s
  | .expire slot => Sys2Proof.Machine.execExpire slot s
  | .slotRetainTimeout slot => Sys2Proof.Machine.execSlotRetainTimeout slot s
  | .mirrorCoalesce slot => Sys2Proof.Machine.execMirrorCoalesce slot s
  | .globalObservation slot => Sys2Proof.Machine.execGlobalObservation slot s
  | .publishJob via desc => Sys2Proof.Machine.execPublishJob via desc s
  | .pages job src => Sys2Proof.Machine.execPages job src s
  | .switchJob job => Sys2Proof.Machine.execSwitchJob job s
  | .freeJob job => Sys2Proof.Machine.execFreeJob job s
  | .loadJob job ops writable => Sys2Proof.Machine.execLoadJob job ops writable s
  | .jobRelease via value => Sys2Proof.Machine.execJobRelease via value s
  | .epochAdvance via corpus epoch => Sys2Proof.Machine.execEpochAdvance via corpus epoch s
  | .epochFloor via corpus floor => Sys2Proof.Machine.execEpochFloor via corpus floor s
  | .sweepRequest body => Sys2Proof.Machine.execSweepRequest body s
  | .penRequest body => Sys2Proof.Machine.execPenRequest body s
  | .flockDue island key => Sys2Proof.Machine.execFlockDue island key s
  | .sweepStart island key => Sys2Proof.Machine.execSweepStart island key s
  | .sweepResolve island engine => Sys2Proof.Machine.execSweepResolve island engine s
  | .sweepReply body => Sys2Proof.Machine.execSweepReply body s
  | .penReply body => Sys2Proof.Machine.execPenReply body s
  | .scanRetry slot pen device => Sys2Proof.Machine.execScanRetry slot pen device s
  | .penRecordLapse entry handle => Sys2Proof.Machine.execPenRecordLapse entry handle s
  | .vocabEnable via n value => Sys2Proof.Machine.execVocabEnable via n value s
  | .vocabReady n => Sys2Proof.Machine.execVocabReady n s
  | .templateEnable via n value => Sys2Proof.Machine.execTemplateEnable via n value s
  | .arrayPass core => Sys2Proof.Machine.execArrayPass core s
  | .vectorOp core => Sys2Proof.Machine.execVectorOp core s
  | .moveOp core => Sys2Proof.Machine.execMoveOp core s
  | .fence core => Sys2Proof.Machine.execFence core s
  | .fenceResolve core => Sys2Proof.Machine.execFenceResolve core s
  | .macroOp core => Sys2Proof.Machine.execMacroOp core s
  | .configDone core engine => Sys2Proof.Machine.execConfigDone core engine s
  | .registerLand core reg => Sys2Proof.Machine.execRegisterLand core reg s
  | .dispatch core cmd => Sys2Proof.Machine.execDispatch core cmd s
  | .commandCommit core => Sys2Proof.Machine.execCommandCommit core s
  | .commandKill core pos => Sys2Proof.Machine.execCommandKill core pos s
  | .moveLanding core id => Sys2Proof.Machine.execMoveLanding core id s
  | .landingWaitEnd core slot => Sys2Proof.Machine.execLandingWaitEnd core slot s
  | .scrub core => Sys2Proof.Machine.execScrub core s
  | .scrubForce core => Sys2Proof.Machine.execScrubForce core s
  | .allocationRelease core first count => Sys2Proof.Machine.execAllocationRelease core first count s
  | .hingeInstall via value => Sys2Proof.Machine.execHingeInstall via value s
  | .hingeCopyEnd => Sys2Proof.Machine.execHingeCopyEnd s
  | .stackEnable via n value => Sys2Proof.Machine.execStackEnable via n value s
  | .stackReady n trained trainStep => Sys2Proof.Machine.execStackReady n trained trainStep s
  | .intakeWrite line data => Sys2Proof.Machine.execIntakeWrite line data s
  | .intakeRead line => Sys2Proof.Machine.execIntakeRead line s
  | .biResponse page dirty => Sys2Proof.Machine.execBiResponse page dirty s
  | .hdmCommit base bi => Sys2Proof.Machine.execHdmCommit base bi s
  | .modelEnable via n value => Sys2Proof.Machine.execModelEnable via n value s
  | .modelStartEnd n => Sys2Proof.Machine.execModelStartEnd n s
  | .prefillStep model inst => Sys2Proof.Machine.execPrefillStep model inst s
  | .generationStep model inst => Sys2Proof.Machine.execGenerationStep model inst s
  | .ratioControl => Sys2Proof.Machine.execRatioControl s
  | .rolePin via cluster value => Sys2Proof.Machine.execRolePin via cluster value s
  | .tableGather ring desc indices offsets weights => Sys2Proof.Machine.execTableGather ring desc indices offsets weights s
  | .update ring desc indices values => Sys2Proof.Machine.execUpdate ring desc indices values s
  | .promote ring desc indices => Sys2Proof.Machine.execPromote ring desc indices s
  | .demote ring desc indices => Sys2Proof.Machine.execDemote ring desc indices s
  | .tableEnable via n value => Sys2Proof.Machine.execTableEnable via n value s
  | .tableSeal via n version => Sys2Proof.Machine.execTableSeal via n version s
  | .tableAdvance via n version => Sys2Proof.Machine.execTableAdvance via n version s
  | .tableInstall via n version root => Sys2Proof.Machine.execTableInstall via n version root s
  | .tableFloor via n floor => Sys2Proof.Machine.execTableFloor via n floor s
  | .rowRead src body => Sys2Proof.Machine.execRowRead src body s
  | .rowReadReply src body => Sys2Proof.Machine.execRowReadReply src body s
  | .tableStage src body => Sys2Proof.Machine.execTableStage src body s
  | .tableStageReply src body => Sys2Proof.Machine.execTableStageReply src body s
  | .tableCommit src body => Sys2Proof.Machine.execTableCommit src body s
  | .sealMark src body => Sys2Proof.Machine.execSealMark src body s
  | .sealMarkReply src body => Sys2Proof.Machine.execSealMarkReply src body s
  | .replicaPages src body => Sys2Proof.Machine.execReplicaPages src body s
  | .replicaPagesReply src body => Sys2Proof.Machine.execReplicaPagesReply src body s
  | .migrationCopy src body => Sys2Proof.Machine.execMigrationCopy src body s
  | .migrationCopyReply src body => Sys2Proof.Machine.execMigrationCopyReply src body s
  | .forwardedUpdate src body => Sys2Proof.Machine.execForwardedUpdate src body s
  | .cmsDecay island => Sys2Proof.Machine.execCmsDecay island s
  | .read link pkt => Sys2Proof.Machine.execRead link pkt s
  | .gather link pkt => Sys2Proof.Machine.execGather link pkt s
  | .fetch link pkt => Sys2Proof.Machine.execFetch link pkt s
  | .publish link pkt => Sys2Proof.Machine.execPublish link pkt s
  | .readReply link pkt => Sys2Proof.Machine.execReadReply link pkt s
  | .gatherReply link pkt => Sys2Proof.Machine.execGatherReply link pkt s
  | .fetchReply link pkt => Sys2Proof.Machine.execFetchReply link pkt s
  | .publishAck link pkt => Sys2Proof.Machine.execPublishAck link pkt s
  | .killNotice body => Sys2Proof.Machine.execKillNotice body s
  | .killNoticeWindowEnd device handle => Sys2Proof.Machine.execKillNoticeWindowEnd device handle s
  | .linkControl link ctl => Sys2Proof.Machine.execLinkControl link ctl s
  | .badPacket link pkt => Sys2Proof.Machine.execBadPacket link pkt s
  | .fabricTimeout island tag => Sys2Proof.Machine.execFabricTimeout island tag s
  | .publishAckTimeout island tag => Sys2Proof.Machine.execPublishAckTimeout island tag s
  | .linkAckTimeout link => Sys2Proof.Machine.execLinkAckTimeout link s
  | .linkAckInterval link => Sys2Proof.Machine.execLinkAckInterval link s
  | .linkEnable via n value => Sys2Proof.Machine.execLinkEnable via n value s
  | .linkReady n peer peerLink => Sys2Proof.Machine.execLinkReady n peer peerLink s
  | .faultIdleReceived link => Sys2Proof.Machine.execFaultIdleReceived link s
  | .routeTable via offset => Sys2Proof.Machine.execRouteTable via offset s
  | .keyringRefill => Sys2Proof.Machine.execKeyringRefill s
  | .keyringDir via offset => Sys2Proof.Machine.execKeyringDir via offset s
  | .keyringDirCheckEnd => Sys2Proof.Machine.execKeyringDirCheckEnd s
  | .keyringPin via w0 w1 => Sys2Proof.Machine.execKeyringPin via w0 w1 s
  | .keyringUnpin via index => Sys2Proof.Machine.execKeyringUnpin via index s
  | .keyringFlush via value => Sys2Proof.Machine.execKeyringFlush via value s
  | .egressSelect link => Sys2Proof.Machine.execEgressSelect link s
  | .shaperTick link => Sys2Proof.Machine.execShaperTick link s
  | .gateIntervalEnd link => Sys2Proof.Machine.execGateIntervalEnd link s
  | .guardBandStart link => Sys2Proof.Machine.execGuardBandStart link s
  | .gateApply via link value => Sys2Proof.Machine.execGateApply via link value s
  | .gateListSwitch link => Sys2Proof.Machine.execGateListSwitch link s
  | .shaperRate via link rates => Sys2Proof.Machine.execShaperRate via link rates s
  | .policerCfg via w0 w1 => Sys2Proof.Machine.execPolicerCfg via w0 w1 s
  | .tenantPolCfg via w0 w1 => Sys2Proof.Machine.execTenantPolCfg via w0 w1 s
  | .queueHwm via sub => Sys2Proof.Machine.execQueueHwm via sub s
  | .classHwm via sub => Sys2Proof.Machine.execClassHwm via sub s
  | .preempt core cmd => Sys2Proof.Machine.execPreempt core cmd s
  | .clusterEnable via n value => Sys2Proof.Machine.execClusterEnable via n value s
  | .clusterReady n => Sys2Proof.Machine.execClusterReady n s
  | .textEnable via n value => Sys2Proof.Machine.execTextEnable via n value s
  | .textReady n => Sys2Proof.Machine.execTextReady n s
  | .drainEnd fn => Sys2Proof.Machine.execDrainEnd fn s
  | .drainHoldTimeout handle => Sys2Proof.Machine.execDrainHoldTimeout handle s
  | .slowdownClear via value => Sys2Proof.Machine.execSlowdownClear via value s
  | .odRead via index sub => Sys2Proof.Machine.execOdRead via index sub s
  | .odWrite via index sub value => Sys2Proof.Machine.execOdWrite via index sub value s
  | .odReadMulti via entries => Sys2Proof.Machine.execOdReadMulti via entries s
  | .odList via first last => Sys2Proof.Machine.execOdList via first last s
  | .eventRead via max => Sys2Proof.Machine.execEventRead via max s
  | .unsupported via opcode => Sys2Proof.Machine.execUnsupported via opcode s
  | .setEndpointId via eid => Sys2Proof.Machine.execSetEndpointId via eid s
  | .getEndpointId via => Sys2Proof.Machine.execGetEndpointId via s
  | .getMctpVersionSupport via => Sys2Proof.Machine.execGetMctpVersionSupport via s
  | .getMessageTypeSupport via => Sys2Proof.Machine.execGetMessageTypeSupport via s
  | .setdasa static dynamic => Sys2Proof.Machine.execSetdasa static dynamic s
  | .entdaa dynamic => Sys2Proof.Machine.execEntdaa dynamic s
  | .fwBegin via total => Sys2Proof.Machine.execFwBegin via total s
  | .fwChunk via offset data => Sys2Proof.Machine.execFwChunk via offset data s
  | .fwFetch via addr len => Sys2Proof.Machine.execFwFetch via addr len s
  | .fwFetchCompletion data ok => Sys2Proof.Machine.execFwFetchCompletion data ok s
  | .fwCommit via => Sys2Proof.Machine.execFwCommit via s
  | .fwVerifyEnd => Sys2Proof.Machine.execFwVerifyEnd s
  | .fwAbort via => Sys2Proof.Machine.execFwAbort via s
  | .fwFloor via value => Sys2Proof.Machine.execFwFloor via value s
  | .getVersion port => Sys2Proof.Machine.execGetVersion port s
  | .getCapabilities port => Sys2Proof.Machine.execGetCapabilities port s
  | .negotiateAlgorithms port => Sys2Proof.Machine.execNegotiateAlgorithms port s
  | .getDigests port => Sys2Proof.Machine.execGetDigests port s
  | .getCertificate port certSlot offset len => Sys2Proof.Machine.execGetCertificate port certSlot offset len s
  | .challenge port nonce flashOk => Sys2Proof.Machine.execChallenge port nonce flashOk s
  | .getMeasurements port index signed nonce flashOk => Sys2Proof.Machine.execGetMeasurements port index signed nonce flashOk s
  | .keyExchange port pub flashOk => Sys2Proof.Machine.execKeyExchange port pub flashOk s
  | .finish port session verify => Sys2Proof.Machine.execFinish port session verify s
  | .heartbeat port session => Sys2Proof.Machine.execHeartbeat port session s
  | .keyUpdate port session => Sys2Proof.Machine.execKeyUpdate port session s
  | .endSession port session => Sys2Proof.Machine.execEndSession port session s
  | .ideKm session stream on => Sys2Proof.Machine.execIdeKm session stream on s
  | .cxlIdeKm session on containment => Sys2Proof.Machine.execCxlIdeKm session on containment s
  | .powerOn => Sys2Proof.Machine.execPowerOn s
  | .perstRelease boot => Sys2Proof.Machine.execPerstRelease boot s
  | .perstAssert => Sys2Proof.Machine.execPerstAssert s
  | .powerFault => Sys2Proof.Machine.execPowerFault s
  | .thermalShutdown => Sys2Proof.Machine.execThermalShutdown s
  | .hostLinkUp flit256 => Sys2Proof.Machine.execHostLinkUp flit256 s
  | .hostLinkDown aer => Sys2Proof.Machine.execHostLinkDown aer s
  | .beacon arrivals => Sys2Proof.Machine.execBeacon arrivals s
  | .beaconMissing island => Sys2Proof.Machine.execBeaconMissing island s
  | .skewClear via value => Sys2Proof.Machine.execSkewClear via value s
  | .watchdogTimeout island pc => Sys2Proof.Machine.execWatchdogTimeout island pc s
  | .clockLockLoss island => Sys2Proof.Machine.execClockLockLoss island s
  | .tempSample readings => Sys2Proof.Machine.execTempSample readings s
  | .faultNoticeArrival => Sys2Proof.Machine.execFaultNoticeArrival s
  | .islandReturn island => Sys2Proof.Machine.execIslandReturn island s
  | .faultClear via value => Sys2Proof.Machine.execFaultClear via value s
  | .fiArm via value => Sys2Proof.Machine.execFiArm via value s
  | .fiFire => Sys2Proof.Machine.execFiFire s
  | .piArm via value => Sys2Proof.Machine.execPiArm via value s
  | .counterRead via island counter => Sys2Proof.Machine.execCounterRead via island counter s
  | .counterCfg via island counter words => Sys2Proof.Machine.execCounterCfg via island counter words s
  | .counterWrap island counter => Sys2Proof.Machine.execCounterWrap island counter s
  | .lapClear via value => Sys2Proof.Machine.execLapClear via value s
  | .sampleEnable via value => Sys2Proof.Machine.execSampleEnable via value s
  | .sampleTag island handle => Sys2Proof.Machine.execSampleTag island handle s
  | .sampleRecord via => Sys2Proof.Machine.execSampleRecord via s
  | .powerReport p1 p100 mv => Sys2Proof.Machine.execPowerReport p1 p100 mv s
  | .powerPeakW via => Sys2Proof.Machine.execPowerPeakW via s
  | .opcodeUnassigned ring desc => Sys2Proof.Machine.execOpcodeUnassigned ring desc s
  | .tableCommitReply src body => Sys2Proof.Machine.execTableCommitReply src body s
  | .forwardedUpdateReply src body => Sys2Proof.Machine.execForwardedUpdateReply src body s
  | .packetCrcFailure link => Sys2Proof.Machine.execPacketCrcFailure link s
  | .linkTrainingFailed n => Sys2Proof.Machine.execLinkTrainingFailed n s
  | .hostSnoop addr => Sys2Proof.Machine.execHostSnoop addr s
  | .vectorUnmask vector => Sys2Proof.Machine.execVectorUnmask vector s
  | .doeDiscovery index => Sys2Proof.Machine.execDoeDiscovery index s
  | .cdatTableAccess entry => Sys2Proof.Machine.execCdatTableAccess entry s
  | .aerUncorrectableError status => Sys2Proof.Machine.execAerUncorrectableError status s
  | .stateMemoryScrub island cls addr => Sys2Proof.Machine.execStateMemoryScrub island cls addr s

end Sys2Proof.Machine
end

