-- ==== Sys2Proof/Safety.lean ====
section
/-! DEFINITION. What every command keeps of every state, and what a command may note beside its effect: counts, events and the
record of a dictionary access. -/

namespace Sys2Proof

open Machine

/-- The unit tables of a state are in canonical form. -/
def Safety.tablesWf (s : State) : Bool :=
  twf {} s.rings && twf {} s.slots && twf {} s.corpora && twf {} s.jobs &&
  twf {} s.vocabs && twf {} s.templates && twf {} s.texts && twf {} s.cores &&
  twf {} s.pageMap && twf {} s.stackT && twf {} s.models && twf {} s.clusters &&
  twf {} s.tables && twf {} s.links && twf {} s.islands

/-- The memory of the HBM tier and the host memory the device wrote are in canonical form. -/
def Safety.memoryWf (s : State) : Bool := memWf s.mem && memWf s.host.hostMem

/-- Tables and memories are in canonical form. -/
def Safety.wf (s : State) : Bool := Safety.tablesWf s && Safety.memoryWf s

/-- Signing runs: the identity stands and SIGNING_CODE is 0000h (R428). -/
def Safety.signing (s : State) : Bool := decide (s.ident.pufState = 2) && decide (s.ident.code = 0)

/-- While signing runs, LEAF_NEXT is not past LEAF_LIMIT, which is the limit of the record in flash (R428). -/
def Safety.leavesOk (s : State) : Prop :=
  Safety.signing s = true → s.ident.leafNext ≤ s.ident.leafLimit ∧ s.ident.leafLimit = s.flash.leafLimit

/-- The lowest leaf the device may still sign with: LEAF_NEXT, or the flash record's limit while no leaf can be taken (R428). -/
def Safety.nextLeaf (s : State) : Nat := if Safety.signing s then s.ident.leafNext else s.flash.leafLimit

/-- What every command keeps, from the state before to the state after. -/
structure Safety.Kept (s t : State) : Prop where
  /-- The queue of waiting commands is not touched. -/
  pending : t.pending = s.pending
  /-- Device time stands, but for a reset, which puts it to 0 (R19). -/
  clock : t.time = s.time ∨ t.time = 0
  /-- Tables and memories keep their canonical form. -/
  wf : Safety.wf s = true → Safety.wf t = true
  /-- No leaf is taken back (R428). -/
  leaves : Safety.leavesOk s → Safety.leavesOk t ∧ Safety.nextLeaf s ≤ Safety.nextLeaf t

/-- t is s but for what the counters, the event queue and its interrupts took note of (R397, R398, R449). -/
structure Safety.Noted (s t : State) : Prop where
  islands : ∀ i, { t.island i with ctrs := [] } = { s.island i with ctrs := [] }
  rest : ∃ isl ev lost pv sent, t = { s with
    islands := isl, host := { s.host with events := ev, eventsLost := lost, pendingV := pv, sentMsi := sent } }

/-- s with a command of a carrier answered: counted, and its return code and payload where the carrier finds them (R394, R406). -/
def Safety.answered (via : Carrier) (ret : Return) (payload : Bytes) (s : State) : State :=
  { s with host := { s.host with
    commands := s.host.commands + 1
    mailbox := if via = .mailbox then ⟨ret, payload⟩ else s.host.mailbox
    i3c := if via = .i3c then ⟨ret, payload⟩ else s.host.i3c
    vdm := if via = .vdm then ⟨ret, payload⟩ else s.host.vdm } }

/-- What writing to the host, sending, reading memory, sampling and killing work leave alone: the rings and the slots (but for
the sampling tag, R459), the registrations, the firmware, the identity and the module. -/
structure Safety.Aside (s t : State) : Prop where
  pending : t.pending = s.pending
  time : t.time = s.time
  rings : t.rings = s.rings
  slots : twf {} s.slots = true → twf {} t.slots = true ∧ ∀ n, { t.slot n with tagged := false } = { s.slot n with tagged := false }
  corpora : t.corpora = s.corpora
  jobs : t.jobs = s.jobs
  vocabs : t.vocabs = s.vocabs
  templates : t.templates = s.templates
  texts : t.texts = s.texts
  models : t.models = s.models
  flash : t.flash = s.flash
  fw : t.fw = s.fw
  ident : t.ident = s.ident
  module : t.module = s.module

end Sys2Proof
end

