-- ==== Sys2Proof/Effects.lean ====
section
/-! DEFINITION. The words of the statements: what a command leaves of a unit, where more than one statement says it. -/

namespace Sys2Proof

open Machine

/-- The request of slot n has ended with a state and a code at this moment, and its mirror line is due no more (R57 to R62). -/
def Safety.endedSlot (n state code : Nat) (s : State) : Slot :=
  { s.slot n with
    status := setFlag flPoisoned (code = 0x301) (setCode code (setState state (s.slot n).status))
    mirrorAt := s.time }.ended s.time

/-- A descriptor of ring n is rejected with a code (R46); an admission that did not take place has no time and no epochs, and what the
mirror line says there is free (log 32). -/
def Safety.rejected (n : Nat) (d : Words) (code : Word16) (admitted : Word64) (ce pe : Word32) (s : State) : State :=
  passEntry n (hostWrite (dMirror d)
    (mirrorLine (statusWord 0 ssFailed sgAdmit 0 0 code.toNat) 0xFFFFFFFF (dTag d) s.time admitted ce pe)
    (s.modHub fun h => { h with rejected := h.rejected + 1, freeUsed := h.freeUsed + 2 }))

/-- The state in which the entry at HEAD of ring n has been read (R33, R391, R392): host memory's at once; the intake region's when its
page's snoops are answered and its bytes are not poisoned; none where the entry waits or is skipped. -/
def Safety.entryRead (n : Nat) (s : State) : Option State :=
  let a := s.entryAddr n
  match s.windowOffset a with
  | none => some s
  | some off =>
    let l := s.hbm.intakeBase.toNat + off
    let u := clearSnoops [(a, 128)] s
    if s.intakeState = 2 ∧ s.hostPath = true ∧ s.snooped [(a, 128)] = true ∧ (peek u l 128).poison = false then some (touch [(l, 128)] u)
    else none

/-- What an admission from ring n puts into slot k (R45, R47). -/
def Safety.entrySlot (n k : Nat) (d : Words) (contWait : Bool) (fill : Slot → Slot) (s : State) : Slot :=
  fill { status := statusWord (nextGen (stGen (s.slot k).status)) ssAdmitted sgAdmit (if contWait then 2 ^ (flContWait - 32) else 0) 0 0,
         ring := n, admitTime := s.time, deadline := deadlineOf s (dDeadline d), desc := d, committed := true,
         inputDone := !contWait : Slot }

/-- The slot of a request just admitted from ring n: its mirror line is written (R45, R47). -/
def Safety.admittedSlot (n k : Nat) (d : Words) (contWait : Bool) (fill : Slot → Slot) (s : State) : Slot :=
  { Safety.entrySlot n k d contWait fill s with mirrorAt := s.time, mirrorPend := none }

/-- A descriptor of ring n is admitted into slot k (R35, R45, R47). -/
def Safety.Admitted (n k : Nat) (d : Words) (contWait : Bool) (fill : Slot → Slot) (s t : State) : Prop :=
  Safety.Aside ((s.modRing n fun r => { r with head := r.head + 1 }).modSlot k fun _ => Safety.admittedSlot n k d contWait fill s) t

/-- The checks of R44 but for the free slot and the policer: the code of the first that fails, 0 where none does. -/
def Safety.checkCode (n : Nat) (d : Words) (form : Bool) (check : State → Word16) (s : State) : Word16 :=
  if dVersion d ≠ 1 ∨ form = false then 0x101 else if s.tenantOk n d = false then 0x105 else check s

/-- The four request commands with the opcodes of their descriptors (R41). -/
def Safety.requestRows (n : Nat) (d : Words) : List (Nat × Instr) :=
  [(opPack, .retrieveAndPack n d), (opRetrieve, .retrieve n d), (opEmbed, .embedOnly n d), (opGenerate, .generate n d)]

/-- What the end of work leaves alone (R434 to R437): rings, registrations, the identity, the module, the faults but for the history, and
the islands but for their counters and sampling. -/
structure Safety.Still (s t : State) : Prop where
  pending : t.pending = s.pending
  time : t.time = s.time
  rings : t.rings = s.rings
  corpora : t.corpora = s.corpora
  vocabs : t.vocabs = s.vocabs
  templates : t.templates = s.templates
  models : t.models = s.models
  flash : t.flash = s.flash
  ident : t.ident = s.ident
  module : t.module = s.module
  faults : { t.faults with history := [] } = { s.faults with history := [] }
  islands : twf {} s.islands = true → twf {} t.islands = true ∧
    ∀ i, { t.island i with ctrs := [], lfsr := 0, down := 0 } = { s.island i with ctrs := [], lfsr := 0, down := 0 }

/-- A fault of an island is detected (R432 to R434): its notice is on its way, the island counts it, and one that serves, or whose
function is on its way back from its Starting, goes into its safe state. -/
def Safety.Faulted (i : Nat) (code : Word16) (detail : Word32) (addr : Word64) (s t : State) : Prop :=
  let note : FaultRec := ⟨s.timeAt i, i, code, detail, addr, s.time⟩
  let stops : Prop := (s.island i).service = .serving ∨ ((s.island i).service = .returning ∧ s.fnStarting i = true)
  let u : State := { s with faults := { s.faults with notices := s.faults.notices ++ [note] } }
  (stops → Safety.Still (u.modIsland i fun x => { x with
    faults := x.faults + 1
    times := x.times ++ [s.time]
    lastCode := code
    service := .safe
    wasStarting := s.fnStarting i }) t) ∧
  (¬ stops → Safety.Still (u.modIsland i fun x => { x with
    faults := x.faults + 1
    times := x.times ++ [s.time]
    lastCode := code }) t)

/-- A packet a link has accepted (R320, R321, R359): sequence and acknowledgement taken, policed, its credit on its way back. -/
def Safety.packetTaken (l : Nat) (p : Packet) (s : State) : State :=
  returnCredit l p (police l p (takeAck l p.lack (s.modLink l fun k => { k with rxSeq := p.lseq + 1, ackOwed := true, discarding := false }))).2

/-- The packet commands with their types and what serves them at their destination (R325). -/
def Safety.packetRows (l : Nat) (p : Packet) : List (Nat × Instr × (State → State)) :=
  [(1, .read l p, serveRead p), (2, .gather l p, serveRead p), (3, .fetch l p, serveRead p), (4, .publish l p, servePublish p),
   (0x81, .readReply l p, landReply 0x81 l p), (0x82, .gatherReply l p, landReply 0x82 l p), (0x83, .fetchReply l p, landReply 0x83 l p),
   (0x84, .publishAck l p, landAck p)]

/-- A table command c takes descriptor d from ring n (R46, R302, R392): its reads of host memory are snooped first; a descriptor that
fails a check is rejected; one that passes them is admitted, its inputs read and kept, and runs from slot k, or fails with the code of a
buffer that cannot be read. -/
def Safety.TableTaken (op n : Nat) (d : Words) (reads : List (Nat × Nat × Bytes)) (keep : List Bytes → Slot → Slot)
    (run : Nat → State → State) (c : Instr) (s : State) : Prop :=
  let ranges := reads.map fun r => (r.1, r.2.1)
  dOpcode d = op → s.mayTake n = true → (s.ring n).kind = 1 → (readsHost ranges = true → s.hostPath = true) →
  (s.snooped ranges = false → exec c s = .next (issueSnoops ranges s)) ∧
  (∀ u, s.snooped ranges = true → Safety.entryRead n (clearSnoops ranges s) = some u → mirrorBad d = false →
    let code := Safety.checkCode n d (tableForm op d) (tableDescCheck d) u
    (code ≠ 0 → ∃ t a ce pe, exec c s = .next t ∧ Safety.Noted (Safety.rejected n d code a ce pe u) t) ∧
    (∀ k, code = 0 → u.slotFor (dTenant d) = some k → (policeTenant n (dTenant d) u).1 = true →
      ∃ v, Safety.Admitted n k d false (tableFill d u) u v ∧
        (let (fail, got, w) := readHosts reads v
         let t := startStage k sgEmbed (w.modSlot k fun x => keep got { x with committed := false })
         exec c s = .next (if fail ≠ 0 then failSlot k fail t else run k t))))

/-- The device of a table message's answer, for the messages this one is a reply to (R110). -/
def Safety.answers (kind : Nat) (b : Words) (a : Awaited) : Bool := a.device = msgDevice b && msgKind a.body + 0x80 = kind

/-- The awaited messages that a reply answers are marked (R110). -/
def Safety.markAnswered (kind : Nat) (b : Words) (s : State) : State :=
  let mark := fun y : Awaited => if Safety.answers kind b y then { y with answered := true } else y
  s.modSlot (handleSlot (msgHandle b)) fun x => { x with awaited := x.awaited.map mark }

/-- One stage command: its stage, the state it runs in, whether its host reads may go ahead, and its work on what takes it, none
when nothing does (R377). -/
structure Safety.StageRow where
  stage : Nat
  cmd   : Instr
  at_   : State
  ready : Bool
  work  : Option (State → State)

/-- A stage command that reads host memory: snoops first (R392). -/
def Safety.readingRow (g : Nat) (c : Instr) (reads : List (Nat × Nat)) (work : Option (State → State)) (s : State) : Safety.StageRow :=
  ⟨g, c, clearSnoops reads s, (!readsHost reads || s.hostPath) && s.snooped reads, work⟩

/-- The tokenise stage takes in its first buffer and the context as it starts, and tokenises what text it has (R153). -/
def Safety.tokenise (n : Nat) (text ctx : Bytes) (fresh : Bool) (i : Nat) (u : State) : State :=
  if fresh then
    match takeText n text ctx u with
    | (0, v) => tokeniseText n i v
    | (code, v) => failSlot n code v
  else tokeniseText n i u

/-- The scan stage of descriptor d sends the sweeps of the shared part, then the pen request (R93, R94). -/
def Safety.scan (n : Nat) (d : Words) (u : State) : State :=
  let o := ((u.slot n).embed).getD ⟨[], [], []⟩
  let v := if dSharedEn d then scanShared n o u else u
  settleScan n (if dPenEn d && liveState (v.slot n).status then scanPen n o v else v)

/-- The nine stage commands of a request in slot n (R51). -/
def Safety.stageRows (n : Nat) (text ctx expr : Bytes) (remote : List Fetch) (s : State) : List Safety.StageRow :=
  let d := (s.slot n).desc
  let fresh := s.startsStage n sgTokenise
  [Safety.readingRow sgTokenise (.tokenise n text ctx) (if fresh then [(dInputAddr d, dInputLen d), (dCtxAddr d, dCtxLen d)] else [])
      (s.textFor.map (Safety.tokenise n text ctx fresh)) s,
   ⟨sgRewrite, .rewriteStage n, s, (s.seqOf n).isNone, (s.instFor (dGenSlot d) kindGen).map (startSeq n (dGenSlot d))⟩,
   ⟨sgEmbed, .embedStage n, s, true, (s.instFor (dEncSlot d) kindEncoder).map (runEmbed n)⟩,
   ⟨sgScan, .scanStage n, s, s.startsStage n sgScan,
      if dSharedEn d && (s.clusterFor 0 fun c => (s.cluster c).role = 1).isNone then none else some (Safety.scan n d)⟩,
   ⟨sgShortlist, .shortlistStage n, s, true, if (s.rankCore 4).isNone then none else some (formShortlist n)⟩,
   ⟨sgExact, .exactStage n remote, s, true, if s.exactCores = [] then none else some (runExact n s.exactCores remote)⟩,
   ⟨sgCross, .crossEncode n remote, s, true, (s.instFor (dCrossSlot d) kindCross).map fun i => runCross n i remote⟩,
   Safety.readingRow sgFilter (.filterStage n expr remote)
      (if (s.stageTurn n sgFilter).isSome && (s.slot n).rewriteFilter.isNone then [(dFilterAddr d, dFilterLen d)] else [])
      ((s.rankCore 6).map fun c => runFilter n c expr remote) s,
   ⟨sgPack, .packStage n remote, s, true, s.textFor.map fun i => runPack n i remote⟩]

/-- Tokens that passages placed one after the other take up (R161). -/
def Safety.room (t : Words) : Bool → List Placed → Nat
  | _, [] => 0
  | first, p :: l => (if first then 0 else (tplSep t).2) + (tplPrefix t).2 + (tplSuffix t).2 + p.body + Safety.room t false l

/-- The state in which the next configuration of core k has been fetched: one of an expansion comes from the feed, any other from the
instruction memory, whose bytes are decoded (R218, R226, R247). -/
def Safety.fetched (k : Nat) (fed : Bool) (s : State) : State :=
  if fed then s else match (s.core k).cmds with
    | q :: _ => readState k clsImem (16384 * q.cmd.region + 512 * ((s.core k).index + 1)) 512 s
    | [] => s

/-- The five commands that start a configuration: the kind they start, and what the start does (R202, R204, R206, R216, R226). -/
def Safety.startRows (k : Nat) : List (Nat × Instr × (Words → Nat → Bool → State → State)) :=
  [(kArray, .arrayPass k, runEngine k), (kVector, .vectorOp k, runEngine k), (kMove, .moveOp k, runMove k),
   (kFence, .fence k, fun w t fed s => countStart k 3 w 0 (s.modCore k fun c => { c.advance w fed t with fence := some (word w 8) })),
   (kMacro, .macroOp k, runMacro k)]

/-- The counts of a write that has been answered with a result (R406). -/
def Safety.accessed (via : Carrier) (index sub result : Nat) (code : Word16) (s : State) : State :=
  s.modHost fun h => if result = 0 then { h with odWrites := h.odWrites + 1 } else { h with
    odRefusals := h.odRefusals + 1
    lastRefusal := field 48 index ||| field 40 sub ||| field 32 result ||| field 16 code.toNat ||| field 8 (carrierCode via) }

/-- A write command c of an entry is answered with a result and a code, and leaves u beside the answer and its counts (R396, R406). -/
def Safety.Replies (via : Carrier) (index sub result : Nat) (code : Word16) (c : Instr) (s u : State) : Prop :=
  ∃ t, exec c s = .next t ∧ Safety.Noted
    (Safety.answered via .success (accessRecord index sub result code s.time []) (Safety.accessed via index sub result code u)) t

/-- A read command c of an entry is answered with a value, and leaves u beside the answer (R396). -/
def Safety.Reads (via : Carrier) (index sub : Nat) (value : Bytes) (c : Instr) (s u : State) : Prop :=
  ∃ t, exec c s = .next t ∧ Safety.Noted (Safety.answered via .success (accessRecord index sub 0 0 s.time value) u) t

/-- One enable command: its entry, the units there are, its function's state, whether it may be written 0, and what starts the function,
abandons a start, drains the function, and keeps the entry's value. -/
structure Safety.EnableRow where
  cmd     : Instr
  index   : Nat
  units   : Nat
  fn      : FnState
  mayStop : Bool := true
  start   : State → State
  abandon : State → State
  drain   : State → State
  keep    : State → State

/-- The enables of R485 for unit n, written v. -/
def Safety.enableRows (via : Carrier) (n : Nat) (v : Byte) (s : State) : List Safety.EnableRow :=
  let on : Bool := v.toNat = 1
  [{ cmd := .stackEnable via n v, index := 0x4401, units := 12, fn := (s.stack n).fn
     start := startStack n
     abandon := fun s => s.modStack n fun t => { t with abandon := true }
     drain := drainStack n
     keep := fun s => s.modStack n fun t => { t with enable := on } },
   { cmd := .modelEnable via n v, index := 0x7301, units := 16, fn := (s.model n).fn
     start := startModel n
     abandon := fun s => s.modModel n fun t => { t with abandon := true }
     drain := setModelFn n .draining
     keep := fun s => s.modModel n fun t => { t with enable := on } },
   { cmd := .tableEnable via n v, index := 0x4502, units := 64, fn := (s.tableSlot n).fn
     start := startTable n
     abandon := id
     drain := setTableFn n .draining
     keep := fun s => s.modTable n fun t => { t with enable := on } },
   { cmd := .linkEnable via n v, index := 0x3001, units := 48, fn := (s.link n).fn
     start := fun s => setLinkFn n .starting ((releaseHold (linkIsland n) s).modLink n fun k => { k with abandon := false })
     abandon := fun s => s.modLink n fun t => { t with abandon := true }
     drain := setLinkFn n .draining
     keep := fun s => s.modLink n fun t => { t with enable := on } },
   { cmd := .textEnable via n v, index := 0x2022, units := 4, fn := (s.textIsl n).fn
     start := startText n
     abandon := fun s => s.modText n fun t => { t with abandon := true }
     drain := setTextFn n .draining
     keep := fun s => s.modText n fun t => { t with enable := on } },
   { cmd := .clusterEnable via n v, index := 0x2020, units := 16, fn := (s.cluster n).fn
     start := startCluster n
     abandon := fun s => s.modCluster n fun t => { t with abandon := true }
     drain := drainCluster n
     keep := fun s => s.modCluster n fun t => { t with enable := on } },
   { cmd := .vocabEnable via n v, index := 0x7201, units := 16, fn := (s.vocab n).fn
     mayStop := !s.vocabNamed n
     start := setVocabFn n .starting
     abandon := fun s => s.modVocab n fun t => { t with abandon := true }
     drain := setVocabFn n .off
     keep := fun s => s.modVocab n fun t => { t with enable := on } }]

end Sys2Proof
end

