-- ==== Sys2Proof/Certificates/Slice0/Obligations.lean ====
section
/-! DEFINITION. The statements for the provers. -/

section

open Sys2Proof Sys2Proof.Machine

set_option maxRecDepth 8000

/-- A step with a command at the front of the queue is that command's effect on the state with the queue's rest. -/
def Obligations.stepRunsFrontCommand : Prop :=
  ∀ (c : Instr) (q : List Instr) (s : State), s.pending = c :: q → step s = exec c { s with pending := q }

/-- On an empty queue device time goes on by a nanosecond, with every island's copy, once the hub is past boot (the model's own, log 2). -/
def Obligations.idleStepIsATick : Prop :=
  ∀ s : State, s.pending = [] → ∃ t, step s = .next t ∧
    (s.alive = true → s.ident.served = true → t = { s with
      time := s.time + 1
      islands := tmap {} (fun _ => slewIsland) s.islands }) ∧
    ((s.alive && s.ident.served) = false → t = s)

/-- Nothing is queued, tabled or written right after reset, and no leaf is out of order. -/
def Obligations.resetIsCanonical : Prop :=
  State.reset.pending = [] ∧ Safety.wf State.reset = true ∧ Safety.leavesOk State.reset ∧
  State.reset.module.powered = false ∧ State.reset.module.perst = true ∧ State.reset.readyMap = 0

/-- Every step from a state in canonical form answers a state in canonical form. -/
def Obligations.everyStepKeepsTheForm : Prop :=
  ∀ s t : State, Safety.wf s = true → step s = .next t → Safety.wf t = true

/-- While signing runs LEAF_NEXT is never past the limit of the record in flash, and no step brings the lowest leaf that may still be used
down (R428). -/
def Obligations.noStepTakesALeafBack : Prop :=
  ∀ s t : State, Safety.leavesOk s → step s = .next t → Safety.leavesOk t ∧ Safety.nextLeaf s ≤ Safety.nextLeaf t

/-- Every command completes, leaves the queue alone, and moves device time only to 0. -/
def Obligations.everyCommandCompletes : Prop :=
  ∀ (c : Instr) (s : State), ∃ t, exec c s = .next t ∧ t.pending = s.pending ∧ (t.time = s.time ∨ t.time = 0)

/-- DOORBELL (R34): a value within the ring's size is the new TAIL; one past it, or one of a ring that is not enabled or not served yet (R407,
R410), is ignored and counted in RING_ERRORS. -/
def Obligations.doorbell : Prop :=
  ∀ (ring : Nat) (tail : Word32) (s : State),
    (s.hostUp = true → ring < 64 → ∃ t, exec (.doorbell ring tail) s = .next t ∧
      (if (s.ring ring).enable = true ∧ s.fwReady = true ∧ (tail - (s.ring ring).head).toNat ≤ (s.ring ring).size
       then Safety.Noted (s.modRing ring fun r => { r with tail := tail }) t
       else Safety.Noted (s.modRing ring fun r => { r with errors := r.errors + 1 }) t)) ∧
    ((s.hostUp = false ∨ 64 ≤ ring) → exec (.doorbell ring tail) s = .next s)

/-- A request descriptor at the head of a served ring, as it lies in host memory or in the intake region, that passes every check is admitted:
its slot, generation, deadline, epochs and input as R45 and R47 give them, its mirror line written, HEAD past it; one that passes but
finds no free slot waits (R35), and one whose mirror address is bad is skipped and counted (R44, step 1). -/
def Obligations.requestIsAdmitted : Prop :=
  ∀ (n k : Nat) (given : Words) (s u : State), twf {} s.slots = true → s.mayTake n = true → (s.ring n).kind = 0 →
    Safety.entryRead n s = some u → ∀ r ∈ Safety.requestRows n given,
      let d := s.ringEntry n given
      dOpcode d = r.1 →
      (mirrorBad d = false → Safety.checkCode n d (descForm r.1 d) (descCheck d) u = 0 →
        u.slotFor (dTenant d) = some k → (policeTenant n (dTenant d) u).1 = true →
        ∃ t, exec r.2 s = .next t ∧
          Safety.Admitted n k d (!dInputFinal d) (descFill d u) u t ∧ t.hub.admitted = s.hub.admitted + 1) ∧
      (mirrorBad d = false → Safety.checkCode n d (descForm r.1 d) (descCheck d) u = 0 →
        u.slotFor (dTenant d) = none → ∃ t, exec r.2 s = .next t ∧ Safety.Noted (holdEntry n u) t) ∧
      (mirrorBad d = true → ∃ t, exec r.2 s = .next t ∧
        Safety.Noted (passEntry n (u.modRing n fun r => { r with errors := r.errors + 1 })) t)

/-- R46: a rejected descriptor takes no slot, its mirror line says failed at admit with the code, HEAD passes it, and nothing else is written.
The code is that of the first failing check of R44, 0106h for the policer, and 0101h for an opcode the ring does not assign. -/
def Obligations.rejectedDescriptor : Prop :=
  ∀ (n : Nat) (given : Words) (s u : State), s.mayTake n = true → Safety.entryRead n s = some u →
    let d := s.ringEntry n given
    mirrorBad d = false →
    (∀ r ∈ Safety.requestRows n given, (s.ring n).kind = 0 → dOpcode d = r.1 →
      (∀ code, Safety.checkCode n d (descForm r.1 d) (descCheck d) u = code → code ≠ 0 →
        ∃ t a ce pe, exec r.2 s = .next t ∧ Safety.Noted (Safety.rejected n d code a ce pe u) t) ∧
      (∀ k, Safety.checkCode n d (descForm r.1 d) (descCheck d) u = 0 → u.slotFor (dTenant d) = some k →
        (policeTenant n (dTenant d) u).1 = false →
        ∃ t a ce pe, exec r.2 s = .next t ∧
          Safety.Noted (Safety.rejected n d 0x106 a ce pe (policeTenant n (dTenant d) u).2) t)) ∧
    ((assignedOps (s.ring n).kind).contains (dOpcode d) = false →
      ∃ t a ce pe, exec (.opcodeUnassigned n given) s = .next t ∧ Safety.Noted (Safety.rejected n d 0x101 a ce pe u) t)

/-- A continue descriptor that R43 accepts adds its text to the request's, and with INPUT_FINAL clears CONT_WAIT (R53); HEAD passes it and it
takes no slot; a buffer that cannot be read fails the request. One that R43 refuses is rejected with 0109h. -/
def Obligations.continueAddsText : Prop :=
  ∀ (n : Nat) (given : Words) (text : Bytes) (s u : State), twf {} s.slots = true → s.mayTake n = true →
    (s.ring n).kind = 0 → Safety.entryRead n s = some u →
    let d := s.ringEntry n given
    dOpcode d = opContinue → mirrorBad d = false → contForm d = true → u.tenantOk n d = true →
    (let k := handleSlot (cHandle d)
     let r := readHost (dInputAddr d) (dInputLen d) text u
     u.continues n d = true → (u.slot k).received + dInputLen d + dCtxLen (u.slot k).desc ≤ s.hub.maxInput.toNat →
      u.snooped [(dInputAddr d, dInputLen d)] = true →
      (r.1 ≠ 0 → ∃ w, exec (.continueText n given text) s = .next (failSlot k r.1 w) ∧
        Safety.Aside (u.modRing n fun r => { r with head := r.head + 1 }) w) ∧
      (r.1 = 0 → u.atStage k sgTokenise = false → ∃ t, exec (.continueText n given text) s = .next t ∧
        Safety.Aside ((u.modRing n fun r => { r with head := r.head + 1 }).modSlot k fun x =>
          let y : Slot := { x with
            text := x.text ++ r.2.1
            received := x.received + dInputLen d
            inputDone := dInputFinal d }
          if dInputFinal d = false then y
          else if s.hub.coalesce = 0 ∨ s.hub.coalesce.toNat ≤ (s.time - x.mirrorAt).toNat
          then { y with status := clearFlag flContWait x.status, mirrorAt := s.time, mirrorPend := none }
          else { y with status := clearFlag flContWait x.status, mirrorPend := some s.time }) t)) ∧
    (u.continues n d = false →
      ∃ t a ce pe, exec (.continueText n given text) s = .next t ∧ Safety.Noted (Safety.rejected n d 0x109 a ce pe u) t)

/-- CANCEL, EXPIRE and REQUEST_FAILURE of a live request end it with cancelled and 0103h, expired and 0102h, or failed and the code (R59 to
R61); a CANCEL of no live request, or of a table command whose commits are sent (R310), is counted in CANCEL_LATE. -/
def Obligations.requestEnds : Prop :=
  ∀ (handle : Word32) (s : State), twf {} s.slots = true →
    (s.hostUp = true → s.live handle = true → (s.slot (handleSlot handle)).commitsSent = false →
      ∃ t, exec (.cancel handle) s = .next t ∧
        Safety.Aside (s.modSlot (handleSlot handle) fun _ => Safety.endedSlot (handleSlot handle) ssCancelled 0x103 s) t) ∧
    (s.hostUp = true → (s.live handle && !(s.slot (handleSlot handle)).commitsSent) = false →
      exec (.cancel handle) s = .next (s.modHub fun h => { h with cancelLate := h.cancelLate + 1 })) ∧
    (∀ n : Nat, s.hubUp = true → liveState (s.slot n).status = true → (s.slot n).commitsSent = false →
      (s.slot n).deadline ≠ BitVec.allOnes 64 → (s.slot n).deadline ≤ s.time →
      ∃ t, exec (.expire n) s = .next t ∧
        Safety.Aside (s.modSlot n fun _ => Safety.endedSlot n ssExpired 0x102 s) t) ∧
    (∀ code : Word16, s.hubUp = true → code ≠ 0 → s.live handle = true → (s.slot (handleSlot handle)).commitsSent = false →
      ∃ t, exec (.requestFailure handle code) s = .next t ∧
        Safety.Aside (s.modSlot (handleSlot handle) fun _ => Safety.endedSlot (handleSlot handle) ssFailed code.toNat s) t) ∧
    (∀ code : Word16, s.live handle = false → exec (.requestFailure handle code) s = .next s)

/-- FINAL_COMMIT ends a running request whose last stage has committed and whose buffers are globally visible: done, with COUNT as R53 gives
it, and CODE 0501h where every candidate ran into a dead end (R62, R159); one that comes past the deadline finds it expired (R61). -/
def Obligations.finalCommitIsDone : Prop :=
  ∀ (n : Nat) (s : State), twf {} s.slots = true → s.hubUp = true →
    stState (s.slot n).status = ssRunning → (s.slot n).committed = true → (s.slot n).lastStage = true →
    (s.slot n).observe = [] →
    (((s.slot n).deadline = BitVec.allOnes 64 ∨ s.time ≤ (s.slot n).deadline) →
      ∃ t, exec (.finalCommit n) s = .next t ∧
        Safety.Aside (s.modSlot n fun x => Slot.ended { x with
          status := setCount x.doneCount (setState ssDone (if x.deadEnd then setCode 0x501 x.status else x.status))
          mirrorAt := s.time } s.time) t) ∧
    ((s.slot n).deadline ≠ BitVec.allOnes 64 → (s.slot n).deadline < s.time → (s.slot n).commitsSent = false →
      ∃ t, exec (.finalCommit n) s = .next t ∧ Safety.Aside (s.modSlot n fun _ => Safety.endedSlot n ssExpired 0x102 s) t)

/-- RELEASE and SLOT_RETAIN_TIMEOUT free a slot in a terminal state: of its status word STATE alone changes (R53, R58; log 6), and nothing
else of it stays; a RELEASE of any other is counted in RELEASE_IGNORED. -/
def Obligations.slotIsFreed : Prop :=
  ∀ s : State,
    (∀ handle : Word32, s.hostUp = true →
      exec (.release handle) s = .next
        (if terminalState (s.slot (handleSlot handle)).status ∧
            stGen (s.slot (handleSlot handle)).status = handleGen handle
         then s.modSlot (handleSlot handle) fun x =>
           { status := setState ssFree x.status }
         else s.modHub fun h => { h with releaseIgnored := h.releaseIgnored + 1 })) ∧
    (∀ n : Nat, s.hubUp = true → terminalState (s.slot n).status = true →
      exec (.slotRetainTimeout n) s = .next
        (if s.hub.slotRetain ≠ 0 ∧ s.hub.slotRetain.toNat ≤ (s.time - (s.slot n).endTime).toNat
         then s.modSlot n fun x => { status := setState ssFree x.status }
         else s))

/-- MIRROR_COALESCE writes the latest status to the mirror line (R56, R57). GLOBAL_OBSERVATION declares the oldest written buffer complete:
PARTIAL or RANKED with COUNT, or the count that the final commit gives; TRUNCATED and its like are mirrored as any change is (R53, R54,
R57). -/
def Obligations.mirrorLinesAndBuffers : Prop :=
  (∀ (n : Nat) (at_ : Word64) (s : State), memWf s.host.hostMem = true → s.hubUp = true → s.hostPath = true →
     (s.slot n).mirrorPend = some at_ → s.windowOffset (dMirror (s.slot n).desc) = none →
     ∃ t, exec (.mirrorCoalesce n) s = .next t ∧
       Safety.Aside (s.modSlot n fun x => { x with mirrorAt := s.time, mirrorPend := none }) t ∧
       ∀ a, memGet t.host.hostMem a =
         if dMirror (s.slot n).desc ≤ a ∧ a < dMirror (s.slot n).desc + 64
         then (mirrorLine (s.slot n).status (s.handle n) (dTag (s.slot n).desc) at_ (s.slot n).admitTime
           (s.slot n).corpusEpoch (if dPenEn (s.slot n).desc then (s.slot n).penEpoch else 0)).getD
             (a - dMirror (s.slot n).desc) 0
         else memGet s.host.hostMem a) ∧
  (∀ (n : Nat) (b : Buf) (count flags : Nat) (rest : List (Buf × Nat × Nat)) (s : State), twf {} s.slots = true →
     s.hubUp = true → s.hostPath = true → liveState (s.slot n).status = true → (s.slot n).cut = false →
     (s.slot n).observe = (b, count, flags) :: rest →
     ∃ t, exec (.globalObservation n) s = .next t ∧
       Safety.Aside (s.modSlot n fun x =>
         let w := x.status ||| field 32 (flags % 256)
         match b with
         | .shortlist => { x with
             observe := rest
             mirrorAt := s.time
             mirrorPend := none
             status := setFlag flPartial true (setCount count w) }
         | .ranked => { x with
             observe := rest
             mirrorAt := s.time
             mirrorPend := none
             status := setFlag flRanked true (setCount count w) }
         | .output =>
           let y : Slot := { x with
             observe := rest
             outCount := count }
           if flags % 256 = 0 then y
           else if s.hub.coalesce = 0 ∨ s.hub.coalesce.toNat ≤ (s.time - x.mirrorAt).toNat
           then { y with status := w, mirrorAt := s.time, mirrorPend := none }
           else { y with status := w, mirrorPend := some s.time }) t)

/-- A stage runs when its turn has come (R51): it starts, or goes on where it waited, on the function that takes it; without one it waits
(R377), and out of its turn nothing happens. A request whose sequence runs settles its rewrite. -/
def Obligations.stagesRun : Prop :=
  ∀ (n : Nat) (text ctx expr : Bytes) (remote : List Fetch) (s : State),
    (∀ r ∈ Safety.stageRows n text ctx expr remote s, r.ready = true →
      (r.at_.stageTurn n r.stage = none → exec r.cmd s = .next r.at_) ∧
      (∀ v, r.at_.stageTurn n r.stage = some v → exec r.cmd s = .next (match r.work with
        | none => holdStage n r.at_
        | some f => f v)) ∧
      (r.at_.hubUp = true → dOpcode (r.at_.slot n).desc < 0x10 → r.at_.missing n = false →
        (r.at_.startsStage n r.stage = true → r.at_.stageTurn n r.stage =
          some (startStage n r.stage (r.at_.modSlot n fun x => { x with committed := false, heldSince := none, reruns := 0 }))) ∧
        (r.at_.startsStage n r.stage = false → r.at_.atStage n r.stage = true → (r.at_.slot n).committed = false →
          r.at_.stageTurn n r.stage = some (r.at_.modSlot n fun x => { x with heldSince := none })))) ∧
    ((s.seqOf n).isSome = true → exec (.rewriteStage n) s = .next (settleSeq n s))

/-- What the stages do (R91, R121, R127, R128, R131, R263, R277, R280, R282, R291): their results go into the slot and the stage commits, or
the request fails with the stage's code. -/
def Obligations.stageResults : Prop :=
  ∀ (n i : Nat) (s : State),
    (let x := s.slot n
     let l := shortlistOf x
     let bytes := shortlistBytes x l (penAddr s x l.pen)
     let u := countRank l.dups 0 0 0 (s.modSlot n fun x => { x with short := l })
     (dShortlistBuf x.desc = 0 → formShortlist n s = commitStage n 4 u) ∧
     (dShortlistBuf x.desc ≠ 0 → formShortlist n s = commitStage n 4 (writeBuffer n .shortlist (dShortlistBuf x.desc) (dShortlistLen x.desc) bytes
        (l.corpus.length + l.pen.length) (if dShortlistLen x.desc < bytes.length then fbTruncated else 0) u))) ∧
    (∀ m, (promptOf (s.slot n) (s.modelHead m) = none → startSeq n m i s = failSlot n 0x604 s) ∧
      (∀ p drop, promptOf (s.slot n) (s.modelHead m) = some (p, drop) →
        let q : Seq := { slot := n, model := m, inst := i, prompt := p
                         input := inputOf p ((s.slot n).tokSet (mdlVocab (s.modelHead m))).query.length false drop
                         limit := limitOf (s.slot n).desc (s.modelHead m), eos := mdlEos (s.modelHead m), pages := s.fresh.1 }
        startSeq n m i s = { s.fresh.2 with serving := { s.serving with seqs := s.serving.seqs ++ [q] } }.modSlot n fun x =>
          { x with ctxDropped := drop })) ∧
    (let x := s.slot n
     let m := dEncSlot x.desc
     let h := s.modelHead m
     (promptOf x h = none → runEmbed n i s = failSlot n 0x604 s) ∧
     (∀ p drop, promptOf x h = some (p, drop) →
        let input := inputOf p (x.tokSet (mdlVocab h)).query.length false drop
        (s.spoils m i input = true → runEmbed n i s = failSlot n 0x301 s) ∧
        (s.spoils m i input = false → dOpcode x.desc ≠ opEmbed → runEmbed n i s = commitStage n 1
          ({ s with serving := { s.serving with steps := s.serving.steps + 1 } }.modSlot n fun x =>
            { x with embed := some (s.encoded m i input) })))) ∧
    (∀ remote : List Fetch,
      let x := s.slot n
      let m := dCrossSlot x.desc
      let h := s.modelHead m
      let c := min (dCrossK x.desc) x.rank.list.length
      let query := (x.tokSet (mdlVocab h)).query
      let a := takeAdapter n h s
      (a.1 ≠ 0 → runCross n i remote s = failSlot n a.1 a.2) ∧
      (a.1 = 0 → mdlMaxIn h - 1 < query.length → runCross n i remote s = failSlot n 0x604 a.2) ∧
      (∀ data u, a.1 = 0 → query.length ≤ mdlMaxIn h - 1 →
        stageReads n remote a.2 ((x.rank.list.take c).map fun e => strAcc a.2 n (16 * i * mdlWidth h) e) [] a.2 = (some data, u) →
        (∀ d ∈ data, d.2 = false) →
        let pairs := ((x.rank.list.take c).zip (data.map (·.1))).map fun p => pairTokens h query (u32s (entTokens p.1.record) p.2)
        let inputs := pairs.map fun p => inputOf p query.length (dAdapterEn x.desc) 0
        (inputs.any (u.spoils m i) = true → runCross n i remote s = failSlot n 0x301 u) ∧
        (inputs.any (u.spoils m i) = false →
          (u.crossScores n i inputs ((a.2.slot n).adapter.getD []) = none → runCross n i remote s = failSlot n 0x132 u) ∧
          (∀ scores, u.crossScores n i inputs ((a.2.slot n).adapter.getD []) = some scores →
            runCross n i remote s = takeCross n c scores (countCross n h (pairs.map List.length) u))))) ∧
    (∀ (expr : Bytes) (remote : List Fetch) (e : Bytes) (u : State), filterExpr n expr s = (0, e, u) →
      (dSharedEn (s.slot n).desc = false → runFilter n i expr remote s = match fltProgram 32 e with
        | none => failSlot n 0x131 u
        | some is => applyFilter n i is [] remote u) ∧
      (∀ k got v, dSharedEn (s.slot n).desc = true → u.corpusSlot (dCorpus (s.slot n).desc) = some k →
        stageReads n remote u [stageAcc u n i 0 (corpAttr (u.corpDesc k)) 64 false] [] u = (some [(got, false)], v) →
        let head := wordsOf 8 got
        (bits (word head 0) 63 48 ≠ 5 ∨ bits (word head 0) 47 32 ≠ dCorpus (s.slot n).desc → runFilter n i expr remote s = failSlot n 0x130 v) ∧
        (bits (word head 0) 63 48 = 5 → bits (word head 0) 47 32 = dCorpus (s.slot n).desc →
          runFilter n i expr remote s = match fltProgram (bits (word head 0) 5 0) e with
            | none => failSlot n 0x131 v
            | some is => applyFilter n i is head remote v)))

/-- The lists keep their bounds (R121, R122, R126, R161, R162): a shortlist holds at most its length, with each corpus id once; exact
candidates have each id once; kept passages are copies of none; and placed passages take no more than the room. -/
def Obligations.listsKeepTheirBounds : Prop :=
  (∀ x : Slot, let l := shortlistOf x
    l.corpus.length + l.pen.length ≤ dShortlist x.desc ∧ l.pen.length ≤ dPenK x.desc ∧ (l.corpus.map (·.id)).Nodup) ∧
  (∀ cs : List Cand, ((distinctCands cs).map (·.id)).Nodup ∧ ∀ c ∈ cs, ∃ d ∈ distinctCands cs, d.id = c.id) ∧
  (∀ ps : List Passage, let r := dropCopies ps
    (r.1.map (·.toks)).Nodup ∧ r.1.length + r.2.1 + r.2.2 = ps.length ∧ r.1.Sublist ps) ∧
  (∀ (t : Words) (room : Nat) (ps : List Passage), let r := placeAll t room [] ps
    Safety.room t true r.1 ≤ room ∧ r.1.length + r.2 = ps.length ∧ ∀ p ∈ r.1, p.body ≤ tplMaxPassage t)

/-- A sketch (R92): bit j is 1 when element j is greater than +0.0, and 0 otherwise, for +0.0, -0.0 and NaN too; bit j stands at bit j mod 8
of byte j div 8, as R72 orders them. -/
def Obligations.sketchBits : Prop :=
  ∀ (l : List Word32) (j : Nat), j < l.length →
    (let x := (l.getD j 0).toNat
     ((sketchBytes l).getD (j / 8) 0).getLsbD (j % 8) = true ↔ 0 < x ∧ x ≤ 0x7F800000)

/-- Sweeps on their owner (R96 to R105): a request is served, or answered with the code of its check; an open flock becomes due; the due flock
of the oldest member starts on the lowest idle engine; a swept flock is resolved, and its record is free. -/
def Obligations.sweepsOnTheirOwner : Prop :=
  ∀ (b : Words) (i key e : Nat) (s : State),
    (s.hubUp = true → msgKind b = 1 →
      let u := takeLoop b s
      let c := sweepCheck u b
      let deny := sendReply b 0x81 (srEpoch b) 0 (srLists b) c.1 0 0 []
      (u.killed (msgDevice b) (msgHandle b) = true → exec (.sweepRequest b) s = .next u) ∧
      (u.killed (msgDevice b) (msgHandle b) = false →
        (c.1 = 0 → exec (.sweepRequest b) s = .next (startSweeps b c.2 u)) ∧
        (c.1 = 0x312 → exec (.sweepRequest b) s =
          .next (deny { u with publish := { u.publish with floorFails := u.publish.floorFails + 1 } })) ∧
        (c.1 ≠ 0 → c.1 ≠ 0x312 → exec (.sweepRequest b) s = .next (deny u)))) ∧
    (s.stackUp i = true →
      (let due := fun f : Flock => if f.key = key && flockDueNow s (s.stack i) f then { f with state := .due } else f
       exec (.flockDue i key) s = .next (s.modStack i fun t => t.withFlocks s.scan.maxMembers (t.flocks.map due))) ∧
      (∀ f, (s.stack i).idleEngine = some e → (s.stack i).nextDue = some f → f.key = key →
        let start := fun g : Flock => if g = f then { g with state := .sweeping e } else g
        exec (.sweepStart i key) s = .next (s.modStack i fun t => { t with flocks := t.flocks.map start })) ∧
      ((s.stack i).idleEngine = none ∨ (s.stack i).nextDue = none → exec (.sweepStart i key) s = .next s) ∧
      (∀ f, (s.stack i).flocks.find? (fun f => f.onEngine e) = some f → exec (.sweepResolve i e) s = .next (resolveFlock i f s)))

/-- What a member of a resolved flock gets (R102 to R105): as many entries as it asked for, or all that are visible where fewer are; each is a
visible entry at its distance; they stand in the order of R109; none that it lacks stands before one that it got; and a tie pass runs only
where more than 2h entries lie up to its cut. -/
def Obligations.membersGetTheirNearest : Prop :=
  ∀ (s : State) (es : List Swept) (m : Member), 1 ≤ m.h → let o := memberOut s es m
    o.best.length = min m.h es.length ∧
    (∀ b ∈ o.best, ∃ e ∈ es, b = e.entry s m) ∧
    o.best.Pairwise (fun a b => sweepLe a b = true) ∧
    (∀ e ∈ es, e.entry s m ∈ o.best ∨ ∀ b ∈ o.best, sweepLe b (e.entry s m) = true) ∧
    (o.tie = true → 2 * m.h < es.length)

/-- Pen scans, replies and retries (R108 to R111): a pen request waits in arrival order, takes the pen's epoch as soon as a record is free,
and runs at the epoch it carries, or the one recorded for it, as soon as a core of a prefill cluster can take it; the first reply of an
owner is taken, with a code it fails the request; an attempt whose time is past is sent again, or the request fails after the last. -/
def Obligations.pensRepliesRetries : Prop :=
  ∀ (b : Words) (s : State),
    (s.hubUp = true → msgKind b = 2 →
      let u := takeLoop b s
      exec (.penRequest b) s = .next (if u.killed (msgDevice b) (msgHandle b) = true then u else
        servePens { u with scan := { u.scan with penWaiting := u.scan.penWaiting ++ [b] } })) ∧
    (∀ (dev : Nat) (h : Word32) (r : PenRecord), s.hubUp = true →
      s.scan.penRecords.find? (fun r => r.entry = dev && r.handle = h) = some r → s.recordLife ≤ (s.time - r.at_).toNat →
      exec (.penRecordLapse dev h) s = .next (servePens { s with scan := { s.scan with penRecords := s.scan.penRecords.erase r } })) ∧
    (∀ e, penCheck s b = 0 → s.penEpochFor b = some e → servePen b s = runPen b e s) ∧
    (penCheck s b = 0 → srEpoch b = 0 → s.penRecord b = none →
      let e := penEpochOf (recW s (srPenRef b % 2 ^ 50) 8)
      (s.scan.penRecords.length < 65536 → takePenEpoch b s = { s with scan := { s.scan with penRecords := s.scan.penRecords ++
        [⟨msgDevice b, msgHandle b, BitVec.ofNat 64 (srPenRef b), BitVec.ofNat 32 e, s.time⟩] } }) ∧
      (65536 ≤ s.scan.penRecords.length → takePenEpoch b s = s)) ∧
    (s.scan.penWaiting = [b] → let u := takePenEpoch b s
      (s.penCluster = none → servePens s = u) ∧
      (u.penCluster.isSome = true → penCheck u b = 0 →
        (∀ e, u.penEpochFor b = some e → servePens s = servePen b { u with scan := { u.scan with penWaiting := [] } }) ∧
        (u.penEpochFor b = none → servePens s = { u with scan := { u.scan with penWaiting := [b] } }))) ∧
    (s.hubUp = true → ∀ pen : Bool, msgKind b = (if pen then 0x82 else 0x81) →
      let c : Instr := if pen then .penReply b else .sweepReply b
      let u := takeLoop b s
      let n := handleSlot (msgHandle b)
      let same := fun a : Awaited => a.pen = pen && a.device = msgDevice b
      (u.live (msgHandle b) = false → exec c s = .next (lateReply u)) ∧
      (u.live (msgHandle b) = true → ∀ a, (u.slot n).awaited.find? same = some a →
        (a.answered = true → exec c s = .next (dupReply u)) ∧
        (a.answered = false → spCode b ≠ 0 → exec c s = .next (failSlot n (spCode b) u)) ∧
        (a.answered = false → spCode b = 0 → ∃ keep : Slot → Slot, exec c s = .next (settleScan n (u.modSlot n fun x =>
            keep { x with awaited := x.awaited.map fun y => if same y then { y with answered := true } else y })) ∧
          ∀ x, (pen = true → (keep x).penEpoch = spEpoch b ∧ (keep x).sweeps = x.sweeps) ∧
            (pen = false → keep x = { x with sweeps := x.sweeps ++ [⟨msgDevice b, word b 3, (List.range (spCount b)).map fun i =>
              sweepEntryOf (msgDevice b) (word b (8 + 2 * i)) (word b (9 + 2 * i))⟩] })))) ∧
    (∀ (n dev : Nat) (pen : Bool) (a : Awaited),
      let same := fun a : Awaited => a.pen = pen && a.device = dev && !a.answered
      (s.slot n).awaited.find? same = some a → s.retries n = true → s.scan.retryNs.toNat ≤ (s.time - a.sentAt).toNat →
      (s.scan.retries ≤ a.attempt → (s.slot n).commitsSent = false → exec (.scanRetry n pen dev) s = .next (failSlot n 0x122 s)) ∧
      (a.attempt < s.scan.retries → 
        let d := (s.slot n).desc
        let r := sendMsg dev (againBody s n a) false (if 0x10 ≤ dOpcode d then s.sysClass else dTclass d) (dTenant d) false idHub s
        let again := fun y : Awaited => if same y then { y with attempt := a.attempt + 1, sentAt := r.2.time, body := againBody s n a } else y
        exec (.scanRetry n pen dev) s = .next (if r.1 then r.2.modSlot n fun x => { x with awaited := x.awaited.map again } else failSlot n 0x403 r.2)))

/-- Publish jobs (R80 to R84, R87, R88, R270): a submission is answered with its slot; a job whose turn has come runs. PAGES takes its pages
in turn; SWITCH and FREE end it done, or failed with their code, a SWITCH waiting while its target's page is being copied; a LOAD reads
its array once to record its switches, and then runs the operations that its second read delivers. A switch writes its target only where
every check of R82 holds; the first that fails gives the code, and nothing else changes but what reading the target may have found. -/
def Obligations.publishJobs : Prop :=
  (∀ (via : Carrier) (n : Nat) (desc : Words) (src : List SrcPage) (ops : List LoadOp) (writable : Bool) (s : State),
     (s.carrierUp via = true → s.fwReady = false →
       exec (.publishJob via desc) s = .next (Safety.answered via .success (jobAnswer 0 0 0x705) s)) ∧
     (s.carrierUp via = true → s.fwReady = true →
       let r := submitJob desc s
       exec (.publishJob via desc) s = .next (Safety.answered via .success (jobAnswer r.1.2.1 r.1.2.2 r.1.1) r.2)) ∧
     (s.hubUp = true → s.jobMayRun n = true →
       let d := (s.job n).desc
       let u := s.modJob n fun j => { j with state := .running }
       let done := fun r : Word16 × State => if r.1 ≠ 0 then failJob n r.1 r.2 else endJob n r.2
       ((s.job n).kind = jkPages → twf {} s.jobs = true →
         (pagesDst (s.job n).cur u = false → exec (.pages n src) s = .next (stopWork n 0x315 u)) ∧
         (pagesDst (s.job n).cur u = true → exec (.pages n src) s = .next (settlePages n (src.foldl (fun s p =>
           if (s.job n).state = .running ∧ (s.job n).cur ≠ [] ∧ (s.job n).issued < jbCount (s.job n).cur ∧ s.jobMissing n = false then
             withSnoops [(jbSrc (s.job n).cur + 4096 * (s.job n).issued, 4096)] (pageOf n (s.job n).issued p) s
           else s) u)))) ∧
       ((s.job n).kind = jkSwitch →
         (s.copying (pageNo (jbDst d)) = false → exec (.switchJob n) s = .next (done (runSwitch (s.priorFailed n) d s))) ∧
         (s.copying (pageNo (jbDst d)) = true → exec (.switchJob n) s = .next s)) ∧
       ((s.job n).kind = jkFree → exec (.freeJob n) s = .next (done ((runFree d s).1,
         (runFree d s).2.2.modJob n fun j => { j with progress := BitVec.ofNat 32 (runFree d s).2.1 })))) ∧
     (s.hubUp = true → s.hostPath = true → (s.job n).held = true → (s.job n).kind = jkLoad →
       let j := s.job n
       ((j.read = false ∨ s.jobMayRun n = true) → exec (.loadJob n none writable) s = .next (failJob n 0x311 s) ∧
         (arrayReadable j.desc = false → exec (.loadJob n (some ops) writable) s = .next (failJob n 0x311 s))) ∧
       (arrayReadable j.desc = true →
         let run := if j.read then loadRuns n ops writable else loadFirst n (ops.map LoadOp.desc)
         let range := loadRange j (if j.read then ops.length else 0)
         (j.read = false ∨ s.jobMayRun n = true) → ((!readsHost range || s.hostPath) && s.snooped range) = true →
           exec (.loadJob n (some ops) writable) s = .next (run (clearSnoops range s))) ∧
       (j.read = true → s.jobMayRun n = false → arrayReadable j.desc = true → exec (.loadJob n (some ops) writable) s = .next s)) ∧
     (∀ (given ds : List Words) (u : State), readOps (s.job n).desc 0 (jbCount (s.job n).desc) given s = (0, ds, u) →
       loadFirst n given s = u.modJob n fun j => { j with read := true, switches := switchesOf ds }) ∧
     (s.hubUp = true → s.jobMayRun n = false → exec (.pages n src) s = .next s ∧ exec (.switchJob n) s = .next s ∧
       exec (.freeJob n) s = .next s)) ∧
  (∀ (prior : Bool) (d : Words) (s : State),
     let n := if jbWide d then 64 else 8
     let r := peek s (jbDst d) n
     let u := touch [(jbDst d, n)] s
     let held := leNat (r.data.take 8)
     let c := (runSwitch prior d s).1
     (prior = true → runSwitch prior d s = (0x319, s)) ∧
     (prior = false → (localOk (jbDst d) = false ∨ s.inIntake (jbDst d) = true) → runSwitch prior d s = (0x315, s)) ∧
     (prior = false → localOk (jbDst d) = true → s.inIntake (jbDst d) = false →
       (switchAway d s = true → runSwitch prior d s = (0x321, s)) ∧
       (switchAway d s = false → (s.pointerAt (jbDst d) = false ∨ scopeMatches d s = false) → runSwitch prior d s = (0x315, s)) ∧
       (switchAway d s = false → s.pointerAt (jbDst d) = true → scopeMatches d s = true →
       (r.poison = true ∨ r.code ≠ 0 → runSwitch prior d s = (0x311, u)) ∧
       (r.poison = false → r.code = 0 → held ≠ jbExpect d →
         runSwitch prior d s = (0x316, { u with publish := { u.publish with switchConflicts := u.publish.switchConflicts + 1 } })) ∧
       (r.poison = false → r.code = 0 → held = jbExpect d → newOk d u = false → runSwitch prior d s = (0x315, u)) ∧
       (r.poison = false → r.code = 0 → held = jbExpect d → newOk d u = true → epochLater d u = false → runSwitch prior d s = (0x317, u)) ∧
       (r.poison = false → r.code = 0 → held = jbExpect d → jbScope d ≠ 0 → newOk d u = true → epochLater d u = true →
         runSwitch prior d s = (0, rewriteIn s (jbDst d) (leBytes 8 (jbNew d)) u)) ∧
       (r.poison = false → r.code = 0 → held = jbExpect d → jbScope d = 0 → newOk d u = true → epochLater d u = true →
         ((u.penHeld (jbDst d)).getD (2 ^ 32) < jbPenFloor d → runSwitch prior d s = (0x314, u)) ∧
         (jbPenFloor d ≤ (u.penHeld (jbDst d)).getD (2 ^ 32) → runSwitch prior d s = (0, sweepRetiring 0 (jbDst d)
           (rewriteIn s (jbDst d) (leBytes 8 (jbNew d) ++ leBytes 4 (jbPenFloor d) ++ leBytes 4 (jbEpoch d)) u)))))) ∧
     (c = 0 → prior = false ∧ s.pointerAt (jbDst d) = true ∧ held = jbExpect d ∧ newOk d u = true ∧ epochLater d u = true))

/-- EPOCH_ADVANCE and EPOCH_FLOOR (R84): e is accepted when it is past CURRENT_EPOCH, no SWITCH job of the slot with an epoch up to e is
accepted or running, be it an operation of a LOAD whose array was read, and no LOAD's array is still unread, and is then CURRENT_EPOCH;
any other write is refused with 0313h. f is accepted when it is not below the floor, nor past CURRENT_EPOCH, nor past OLDEST_HELD, and is
then the floor, and what waited for it is free; any other write is refused with 0314h. -/
def Obligations.epochAdvances : Prop :=
  ∀ (via : Carrier) (n : Nat) (e : Word32) (s : State), s.carrierUp via = true → s.fwReady = true → n < 64 →
    (let waits : Prop := (∃ j ∈ s.jobs, j.2.held = true ∧ ∃ o ∈ j.2.switches, o.scope = n + 1 ∧ o.ended = false ∧ o.epoch ≤ e) ∨
       ∃ j ∈ s.jobs, j.2.held = true ∧ j.2.kind = jkLoad ∧ j.2.read = false
     ((s.corpus n).current < e → ¬ waits →
       Safety.Replies via 0x4113 (n + 1) 0 0 (.epochAdvance via n e) s (s.modCorpus n fun c => { c with current := e })) ∧
     (e ≤ (s.corpus n).current ∨ waits → Safety.Replies via 0x4113 (n + 1) 6 0x313 (.epochAdvance via n e) s s)) ∧
    (let fits : Prop := (s.corpus n).floor ≤ e ∧ e ≤ (s.corpus n).current ∧ e.toNat ≤ s.oldestHeld n
     (fits → Safety.Replies via 0x4114 (n + 1) 0 0 (.epochFloor via n e) s
       (sweepRetiring (n + 1) 0 (s.modCorpus n fun c => { c with floor := e }))) ∧
     (¬ fits → Safety.Replies via 0x4114 (n + 1) 6 0x314 (.epochFloor via n e) s s))

/-- The start of a configuration (R211 to R216): it starts when its cycle has come; one that meets a slip case faults its core, or with the
detector off takes the engine from what ran there. -/
def Obligations.configurationsStart : Prop :=
  ∀ (k : Nat) (s : State), ∀ r ∈ Safety.startRows k,
    ((s.coreUp k = false ∨ (s.core k).frozen.isSome = true ∨ (s.core k).nextCfg = none) → exec r.2.1 s = .next s) ∧
    (s.coreUp k = true → (s.core k).frozen = none → ∀ t w fed, (s.core k).nextCfg = some (t, w, fed) →
      (cfKind w ≠ r.1 → exec r.2.1 s = .next s) ∧
      (cfKind w = r.1 →
        let u := Safety.fetched k fed s
        (u.coreUp k = false → exec r.2.1 s = .next u) ∧
        (u.coreUp k = true →
          ((u.core k).slipCase w fed t = none → exec r.2.1 s = .next (r.2.2 w t fed u)) ∧
          (∀ case i, (u.core k).slipCase w fed t = some (case, i) → exec r.2.1 s = .next (if (u.core k).slip then slipFault k case i u
            else r.2.2 w t fed (abandon k w t u))))))

/-- What the starts on the engines do (R202, R204, R206, R207, R216, R222, R235, R242): an empty source freezes the core; a row count past the
declared one ends the command with 0213h, a marked source of a move with 0301h; else the configuration runs with the rows it will write,
the move of a core's own scratchpad is in flight, the macro fills the feed. -/
def Obligations.enginesTake : Prop :=
  ∀ (k : Nat) (w : Words) (t : Nat) (fed : Bool) (s : State),
    (let u := readForStart k [] w s
     let c := u.core k
     let r := c.dynRows [] w
     let mark := r.2 || (fed && c.feedBad)
     let scalar := if cfKind w = kVector && voToreg w then vectorScalar c c.base w mark else (0, false)
     u.coreUp k = true →
     (declaredRows w < r.1 → runEngine k w t fed s = endCommand k 0x213 u) ∧
     (r.1 ≤ declaredRows w → ∀ slot row, c.emptyRead w r.1 = some (slot, row) →
      runEngine k w t fed s = freezeOn k slot row (c.nextIndex fed) u) ∧
     (r.1 ≤ declaredRows w → c.emptyRead w r.1 = none →
      runEngine k w t fed s = countStart k (engineNum (engineOf (cfKind w))) w (c.feedWait fed t)
        ((takeReads k (readsOf w r.1) u).modCore k fun d =>
          let d := d.addRun w fed r.1 t (runWrites c w r.1 mark) (runAccs c w r.1 mark) scalar
          ({ d with shape := if cfKind w = kArray then apShape w else d.shape } : Core).advance w fed t))) ∧
    (∀ q rest, (s.core k).cmds = q :: rest →
      let ph := (s.core k).place q.cmd.region 0
      let u := readForStart k ph w s
      let c := u.core k
      let src := c.read (opdRow c.base (word w 11) 0) (mvBytes w)
      let marked := (regsRead ph w).any fun r => tget false c.regPoison r
      u.coreUp k = true →
      (∀ slot row, c.emptyRead w 1 = some (slot, row) → runMove k w t fed s = freezeOn k slot row (c.nextIndex fed) u) ∧
      (c.emptyRead w 1 = none → marked = true → runMove k w t fed s = endCommand k 0x301 u) ∧
      (c.emptyRead w 1 = none → marked = false → mvKind w = 4 →
        let mv := newMove c k c.nextMove q.cmd.handle w [⟨0, mvBytes w, 0, true, none, some src⟩]
        runMove k w t fed s = countStart k 2 w (c.feedWait fed t) ((takeReads k (readsOf w 1) u).modCore k fun c =>
          let c := c.addRun w fed 1 t [] c.acc (0, false)
          ({ c with nextMove := c.nextMove + 1, moves := if mv.slots = 0 then c.moves else c.moves ++ [mv] } : Core).advance w fed t))) ∧
    (let u := readForStart k [] w s
     let c := u.core k
     let m := if mcMdyn w then (tget 0 c.regs (mcXm w)).toNat else mcM w
     let feed := macroExpand w m ((u.cluster (clusterOf k)).role = 2) c.shape
     u.coreUp k = true →
     (mcM w < m → runMacro k w t fed s = endCommand k 0x213 u) ∧
     (m ≤ mcM w → runMacro k w t fed s =
      countStart k 3 w 0 ({ u with coreE := { u.coreE with macros := u.coreE.macros + 1 } }.modCore k fun c =>
        let c := c.advance w fed t
        { c with
          feed := feed, inMacro := feed ≠ [], feedAt := t, fedStarts := [], feedBad := mcMdyn w && tget false c.regPoison (mcXm w)
          fence := if feed = [] then some (field 61 1) else c.fence })))

/-- The ends on a core (R209, R212, R214 to R216, R234): a fence that holds, a run that is done, a register that lands, or slips when its
landing cycle has passed. -/
def Obligations.configurationsEnd : Prop :=
  ∀ (k : Nat) (s : State), s.coreUp k = true → (s.core k).frozen = none →
    (∀ f, (s.core k).fence = some f → exec (.fenceResolve k) s = .next (if (s.core k).fenceHolds f then
      s.modCore k fun c => { c with fence := none, lastStart := c.now } else s)) ∧
    (∀ e r, (s.core k).runs.find? (fun r => r.engine = e) = some r →
      ((s.core k).startsPast r.doneAt = false → exec (.configDone k e) s = .next s) ∧
      ((s.core k).startsPast r.doneAt = true → exec (.configDone k e) s = .next (finishRun k r s))) ∧
    (∀ reg p, (s.core k).pendRegs.find? (fun p => p.reg = reg) = some p →
      ((s.core k).startsPast p.land = false → exec (.registerLand k reg) s = .next s) ∧
      ((s.core k).startsPast p.land = true → (p.land < (s.core k).now ∧ (s.core k).slip = true) →
        exec (.registerLand k reg) s = .next (slipFault k 4 p.index s)) ∧
      ((s.core k).startsPast p.land = true → ¬ (p.land < (s.core k).now ∧ (s.core k).slip = true) →
        exec (.registerLand k reg) s = .next (s.modCore k fun c =>
          { c.setReg p.reg p.value p.poison with
            pendRegs := c.pendRegs.erase p, now := max c.now p.land
            samples := c.samples.map fun x => if x.start = p.start then { x with land := s.timeAt k } else x })))

/-- Commands and memories of a core (R208 to R210, R234 to R236, R243, R245): dispatch, commit and kill; a landing, and the wait for its slot;
scrubbing; and the release of slots that no command holds. -/
def Obligations.commandsOnCores : Prop :=
  ∀ (k : Nat) (s : State),
    (∀ cmd, s.alive = true → s.serves cmd = true →
      let u := readState k clsImem (16384 * cmd.region) 512 s
      let w := takeWaiting k cmd u
      let q := mkCmd u k cmd w.1
      exec (.dispatch k cmd) s = .next (if dispatchOk u k q then placeCmd k false (q.atHome k w.2.1) q w.2.2
        else w.2.2.modCluster (clusterOf k) fun c => { c with waiting := insertWaiting ⟨cmd, w.1, u.time, w.2.1⟩ c.waiting })) ∧
    (∀ cmd, s.serves cmd = false → exec (.dispatch k cmd) s = .next s) ∧
    (∀ q rest, (s.core k).cmds = q :: rest → s.coreUp k = true →
      ((s.core k).mayCommit = false → exec (.commandCommit k) s = .next s) ∧
      ((s.core k).mayCommit = true →
        let u := recordSlowdown (if q.cmd.handle.isSome then dedupBy id (q.cmd.tenant :: q.cmd.sharers) else [])
          (if q.cmd.handle.isSome then q.cmd.cmdClass else 13)
          (s.time - q.life.placedAt).toNat (q.solo / 2) (sampleEnd k (some (s.timeAt k)) s)
        ∃ t, exec (.commandCommit k) s = .next t ∧ Safety.Noted (u.modCore k fun c =>
          let outs := ((List.range q.slots).map (q.cmd.slotBase + ·)).filter fun i => (c.slotW i).pend
          let c := c.modSlots outs fun w => { w with latch := true, pend := false }
          let c := (c.modSlots q.inSlots fun w => { w with latch := false }).own q.cmd.region q.span (· - 1)
          let c : Core := { c with cmds := c.cmds.drop 1 }
          c.renumber.startHead) t)) ∧
    (∀ pos, s.alive = true → exec (.commandKill k pos) s = .next (requeueAt k pos id s)) ∧
    (∀ id m, (s.core k).moves.find? (fun m => m.id = id) = some m → s.coreUp k = true → s.coreUp m.core = true →
      (m.waiting = true ∨ (∃ p ∈ m.pieces, p.got = none) ∨ 64 ≤ s.buffered m.core → exec (.moveLanding k id) s = .next s) ∧
      (m.waiting = false → (∀ p ∈ m.pieces, p.got ≠ none) → s.buffered m.core < 64 → ∀ slot, landingSlot s m = some slot →
        let u := readState m.core clsControl (slotAddr slot) 4 s
        u.coreUp m.core = true →
        (((u.core m.core).slotW slot).open_ = false →
          exec (.moveLanding k id) s = .next (u.modCore k (·.setMove { m with waiting := true, since := u.timeAt m.core }))) ∧
        (((u.core m.core).slotW slot).open_ = true →
          let data := ((m.pieces.flatMap fun p => p.got.getD []).drop (2048 * m.landed)).take 2048
          ∃ t, Safety.Noted (bankCounts m.core [(2048 * slot, 2048)] (landSlot m.core slot m.out data u)) t ∧
            exec (.moveLanding k id) s = .next (t.modCore k fun c =>
              if m.landed + 1 = m.slots then { c with moves := c.moves.filter fun x => x.id ≠ id }
              else c.setMove { m with landed := m.landed + 1 })))) ∧
    (∀ slot, s.coreUp k = true →
      (((s.core k).slotW slot).open_ = false → exec (.landingWaitEnd k slot) s = .next s) ∧
      (((s.core k).slotW slot).open_ = true →
        let mine := fun (s : State) (m : MoveRun) => m.waiting && m.core = k && landingSlot s m = some slot
        exec (.landingWaitEnd k slot) s = .next ((mates k).foldl (fun s i => if (s.core i).moves.any (mine s) then
          (((s.core i).moves.filter (mine s)).foldl (fun s m => chargeWait m s) s).modCore i fun c =>
            { c with moves := c.moves.map fun m => if mine s m then { m with waiting := false } else m }
          else s) s))) ∧
    (s.inService k = true →
      (s.coreE.scrubPeriod ≠ 0 → s.scrubAt k ≤ s.time → exec (.scrub k) s = .next (scrubOne k s)) ∧
      (s.coreE.scrubPeriod ≠ 0 → s.scrubAt k + BitVec.ofNat 64 (s.coreE.scrubForce.toNat / 2) ≤ s.time →
        exec (.scrubForce k) s = .next (scrubOne k s)) ∧
      (s.coreE.scrubPeriod = 0 → exec (.scrub k) s = .next s ∧ exec (.scrubForce k) s = .next s)) ∧
    (∀ first n, s.coreUp k = true → first + n ≤ 3072 →
      let apart := s.clearOfModels k first n = true ∧ ∀ q ∈ (s.core k).cmds, first + n ≤ q.cmd.slotBase ∨ q.cmd.slotBase + q.slots ≤ first
      (apart → exec (.allocationRelease k first n) s = .next ((forgetHomes k first n s).modCore k fun c =>
        (c.eraseSlots first n).modSlots ((List.range n).map (first + ·)) fun w => { w with latch := false, alloc := false, fill := 0 })) ∧
      (¬ apart → exec (.allocationRelease k first n) s = .next s))

/-- Steps, roles and starts (R144, R275, R283, R284, R287, R485): a step runs the batch of an instance that serves; a controller's period
over, the roles move to the ratio; a start ends in Ready or, with its code, in Off. -/
def Obligations.modelsAndVocabularies : Prop :=
  ∀ (m inst n : Nat) (s : State), s.hubUp = true → twf {} s.vocabs = true →
    (s.instServes m inst = true →
      (let batch := batchOf s m inst (fun q => !q.prefilled) fun q => q.prompt.length
       batch ≠ [] → exec (.prefillStep m inst) s = .next (batch.foldl (fun s q => prefillOne inst q s) (countStep batch s))) ∧
      (let batch := genBatch s m inst
       batch ≠ [] → exec (.generationStep m inst) s = .next (batch.foldl (fun s q => generateOne inst q s) (countStep batch s)))) ∧
    (s.instServes m inst = false → exec (.prefillStep m inst) s = .next s ∧ exec (.generationStep m inst) s = .next s) ∧
    (let due := 1000 * s.serving.ratioPeriod.toNat ≤ (s.time - s.serving.ratioAt).toNat
     let u := ({ s with serving := { s.serving with ratioAt := s.time } } : State)
     let e := (List.range 16).filter fun c => (u.cluster c).pin = 0
     let g := (e.filter fun c => (u.cluster c).aim = 2).length
     let v := u.serving
     let w := s.queuedWork
     let want := max v.genMin (min v.genMax (roundTo (e.length * w.2) (w.1 + w.2) v.ratioUnit (bit u.fresh.1 0)))
     let diff := if g ≤ want then want - g else g - want
     let new := if g < want then g + v.ratioUnit else g - v.ratioUnit
     (due → w.1 + w.2 = 0 ∨ diff < v.ratioHyst → exec .ratioControl s = .next u.fresh.2) ∧
     (due → w.1 + w.2 ≠ 0 → v.ratioHyst ≤ diff → exec .ratioControl s =
      .next (e.zipIdx.foldl (fun s p => changeRole p.1 (if e.length ≤ p.2 + new then 2 else 1) s) u.fresh.2)) ∧
     (¬ due → exec .ratioControl s = .next s)) ∧
    (let x := s.model n
     let plan := if x.programs = [] then startPlan n s else (0, s)
     x.fn = .starting → 
      (x.abandon = true → exec (.modelStartEnd n) s = .next (startFails n x.code s)) ∧
      (x.abandon = false → plan.1 ≠ 0 → exec (.modelStartEnd n) s = .next (startFails n plan.1 plan.2)) ∧
      (x.abandon = false → plan.1 = 0 → (plan.2.model n).programs = [] → exec (.modelStartEnd n) s = .next plan.2) ∧
      (x.abandon = false → plan.1 = 0 → (plan.2.model n).programs ≠ [] → exec (.modelStartEnd n) s =
        .next (if (parkAll n true plan.2).owned n then parkAll n true plan.2 else startLoad n (parkAll n true plan.2)))) ∧
    (let v := s.vocab n
     let code := vocCheck s v.desc.toNat
     let off := fun u : State => { u with texts := tmap {} (fun _ t => { t with cache := t.cache.filter fun e => e.1 ≠ n }) u.texts }
     v.fn = .starting →
      (v.abandon = true → ∃ t, exec (.vocabReady n) s = .next t ∧
        Safety.Noted (off (s.modVocab n fun v => { v with abandon := false, fn := .off })) t) ∧
      (v.abandon = false → code ≠ 0 → ∃ t, exec (.vocabReady n) s = .next t ∧
        Safety.Noted (off ((checkReads (vocReads s v.desc.toNat) s).modVocab n fun v => { v with code := code, fn := .off })) t) ∧
      (v.abandon = false → code = 0 → ∃ t, exec (.vocabReady n) s = .next t ∧
        Safety.Noted ((checkReads (vocReads s v.desc.toNat) s).modVocab n fun v =>
          { v with code := 0, head := recW s v.desc.toNat 8, fn := .ready }) t))

/-- What a step's rows give (R285 to R287): every chosen token but the last is the draft that was run; a draft that differs ends the rows;
each chosen token is permissible with the greatest logit; and what is emitted never passes the limit nor contains the end token. -/
def Obligations.acceptedTokens : Prop :=
  (∀ (fs bs : List CSeq) (tokens : Nat) (logits : List Nat → List Word32) (drafts o : List Nat) (act : List (Nat × Nat)),
    let r := acceptRows fs bs tokens logits drafts o act
    r.1.dropLast <+: drafts ∧ r.1.length ≤ drafts.length + 1 ∧ (r.2 = false → r.1 ≠ []) ∧
    (∀ i g, r.1[i]? = some g → ∃ act' : List (Nat × Nat),
      choose (logits (o ++ r.1.take i)) (permits fs bs tokens (o ++ r.1.take i) act') tokens = some g)) ∧
  (∀ (logits : List Word32) (ok : Nat → Bool) (tokens t : Nat), choose logits ok tokens = some t → t < tokens ∧ ok t = true) ∧
  (∀ (limit eos : Nat) (o gs : List Nat), let r := emitAll limit eos o gs
    o <+: r.1 ∧ r.1.length ≤ max limit (o.length + 1) ∧ (∀ t ∈ r.1, t ∈ o ∨ t ∈ gs ∧ t ≠ eos) ∧
    (r.2 = none → r.1 = o ++ gs) ∧ (r.2 = some 2 → limit ≤ r.1.length))

/-- The HBM tier (R245, R264, R265, R267 to R269, R485): the end of a page's copy puts what its read delivered into the spare page with a
fresh code, empties the page's own cells, and the entry is active, marked where the page is poisoned; a stack whose Starting ends is
Ready, erased and its hinges restored where it comes from Off, Off and erased where its enable was taken back, and faulted with 0833h
where it does not train. -/
def Obligations.hingesAndStacks : Prop :=
  ∀ s : State,
    (s.hubUp = true → ∀ m j : Nat, s.hbm.hingeTarget = some (m, j) →
      let pg := 2 ^ 24 * m + (tget {} (s.stack m).hinge j).page
      let r := peek s (4096 * pg) 4096
      let u := touch [(4096 * pg, 4096)] s
      ((s.page pg).kind.written = false → exec .hingeCopyEnd s = .next (hingeActive m j false s)) ∧
      ((s.page pg).kind.written = true → r.code ≠ 0 → exec .hingeCopyEnd s = .next s) ∧
      ((s.page pg).kind.written = true → r.code = 0 →
        exec .hingeCopyEnd s = .next (hingeActive m j (u.page pg).poison (putCells pg [] (putCells (sparePage m j) r.data u))))) ∧
    (∀ (m j : Nat) (bad : Bool), s.hbm.held = [] →
      let n := notable (idMemory m) 9 j (s.modStack m fun x => { x with hinge := tmod {} x.hinge j fun e => { e with state := 2, poison := bad } })
      Safety.Noted { n with hbm := { n.hbm with hingeResult := 0, hingeTarget := none } } (hingeActive m j bad s)) ∧
    (s.hbm.hingeTarget = none → exec .hingeCopyEnd s = .next s) ∧
    (∀ (n : Nat) (step : Word32), n < 12 → s.startable (idMemory n) = true → (s.stack n).fn = .starting → twf {} s.stackT = true →
      (∀ trained : Bool, (s.stack n).abandon = true → ∃ u, exec (.stackReady n trained step) s = .next (backInService (idMemory n) (endCopyOff n u)) ∧
        Safety.Noted ((eraseStack n s).modStack n fun t => { t with
          ways := [], cms := [], lookups := 0, fromOff := true, abandon := false, fn := .off }) u) ∧
      ((s.stack n).abandon = false → (s.stack n).fromOff = false → ∃ u, exec (.stackReady n true step) s = .next (backInService (idMemory n) u) ∧
        Safety.Noted (s.modStack n fun t => { t with
          fromOff := false, fn := .ready, hinge := tmap {} (fun _ e => e) t.hinge }) u) ∧
      ((s.stack n).abandon = false → (s.stack n).fromOff = true →
        let w := endCopyOff n (eraseStack n s)
        let w := if w.coreE.initMode = 1 then { w with coreE := { w.coreE with fillDone := w.time } } else w
        exec (.stackReady n true step) s = .next (backInService (idMemory n) (setStackFn n .ready (w.modStack n fun t => { t with
          fromOff := false, hinge := tmap {} (fun _ e => if e.valid then { e with state := 2, poison := false } else e) t.hinge })))) ∧
      ((s.stack n).abandon = false → twf {} s.islands = true → ∃ t, exec (.stackReady n false step) s = .next t ∧
        Safety.Faulted (idMemory n) 0x833 step 0 s t))

/-- The intake region (R261, R391, R392): the decoder commits where the back-invalidate decoder is on and the stack Ready; a line of a
committed region is written and read in the stack, not stored and poisoned without it; a snooped page's dirty lines are written and it is
answered. -/
def Obligations.intakeRegion : Prop :=
  ∀ s : State, s.hostUp = true →
    (∀ (base : Word64) (bi : Bool), if bi = true ∧ (s.stack s.intakeStack).fn = .ready
      then ∃ t, exec (.hdmCommit base bi) s = .next t ∧
        Safety.Noted (s.modHost fun h => { h with committed := true, hdmBase := base, commitError := false }) t
      else exec (.hdmCommit base bi) s = .next (s.modHost fun h => { h with commitError := true })) ∧
    (∀ line : Nat, s.host.committed = true → line < 2 ^ 28 →
      (let a := s.hbm.intakeBase.toNat + 64 * line
       ((s.stack s.intakeStack).fn = .ready → memWf s.mem = true → a % 64 = 0 →
        (∀ data : Bytes, ∃ t, exec (.intakeWrite line data) s = .next t ∧
          (Safety.Noted { s with
            mem := t.mem
            hbm := { s.hbm with intakeErrs := tset 0 s.hbm.intakeErrs (a / 64) 0 }
            host := { s.host with intakeLines := s.host.intakeLines + 1 } } t) ∧
          ∀ b, memGet t.mem b = if s.cellAddr a ≤ b ∧ b < s.cellAddr a + 64 then (fit 64 data).getD (b - s.cellAddr a) 0
            else memGet s.mem b) ∧
        ∃ t, exec (.intakeRead line) s = .next t ∧ Safety.Aside s t ∧ t.mem = s.mem ∧
          t.host.memRead = some ((peek s a 64).data, (peek s a 64).poison)) ∧
       ((s.stack s.intakeStack).fn ≠ .ready →
        (∀ data : Bytes, exec (.intakeWrite line data) s = .next s) ∧
        exec (.intakeRead line) s = .next (s.modHost fun h => { h with memRead := some ([], true) })))) ∧
    (∀ (page : Nat) (dirty : List (Nat × Bytes)),
      (page ∈ s.host.snooping → ∃ u : State, (exec (.biResponse page dirty) s = .next (u.modHost fun h => { h with
          snooping := h.snooping.filter (· ≠ page)
          answered := h.answered ++ [page] })) ∧
        u = if s.intakeState = 2 then (dirty.filter fun d => d.1 < 64).foldl (fun s d => writeIntake (64 * page + d.1) d.2 s) s else s) ∧
      (page ∉ s.host.snooping → exec (.biResponse page dirty) s = .next s))

/-- The four commands of embedding tables take their descriptors: a gather keeps its indices, offsets and weights, an update its rows and
values, a promotion and a demotion their rows (R302 to R304, R310, R315). What a taken table command does first (R304 to R306, R310): a
bad offset or row, a missing version, a directory or a row that cannot be read, or too large a hot set fails it; else a gather has its
rows or asks their homes for them, and an update is staged at the homes of its rows. -/
def Obligations.tableCommandsStart : Prop :=
  (∀ (n : Nat) (given indices : Words) (offsets weights : List Word32) (values : Bytes) (s : State), twf {} s.slots = true →
     (let d := s.ringEntry n given
      let m := tdIndices d
      let bags := if tdPool d = 0 then 0 else tdBags d + 1
      let ws := if tdWeighted d then m else 0
      Safety.TableTaken opGather n d [(tdIndexAddr d, 8 * m, bytesOf indices), (tdOffsetsAddr d, 4 * bags, bytesOf32 offsets),
         (tdWeightsAddr d, 4 * ws, bytesOf32 weights)]
       (fun got x => { x with
         indices := wordsOf m (got.getD 0 []), offsets := words32 bags (got.getD 1 []), weights := words32 ws (got.getD 2 []) })
       startGather (.tableGather n given indices offsets weights) s) ∧
     (∀ r ∈ ([(opUpdate, Instr.update n given indices values, values), (opPromote, .promote n given indices, []),
         (opDemote, .demote n given indices, [])] : List (Nat × Instr × Bytes)),
       let d := s.ringEntry n given
       let m := tdIndices d
       Safety.TableTaken r.1 n d [(tdIndexAddr d, 8 * m, bytesOf indices),
           (tdValuesAddr d, m * valueBytes d (s.tblHeadOf (dTable d)), r.2.2)]
         (fun got x => { x with indices := wordsOf m (got.getD 0 []), values := got.getD 1 [] }) startUpdate r.2.1 s)) ∧
  (∀ (k : Nat) (s : State),
     (let x := s.slot k
      let t := dTable x.desc
      let h := s.tblHeadOf t
      let root := rootAt s t x.tableVersion.toNat
      let words := rootWords s root.1
      let dirCode := firstCode s [hotRange words]
      let bad := tdPool x.desc ≠ 0 ∧ offsetsOk x.desc (x.offsets.map BitVec.toNat) = false
      (bad → startGather k s = failSlot k 0x343 s) ∧
      (¬ bad → root.2 ≠ 0 → startGather k s = failSlot k root.2 s) ∧
      (¬ bad → root.2 = 0 → dirCode ≠ 0 → startGather k s = failSlot k dirCode s) ∧
      (¬ bad → root.2 = 0 → dirCode = 0 → ∀ code rows u,
         resolveRows k t (dTenant x.desc) h words (hotDir s words) (dedupBy id x.indices)
           (touch [hotRange words] (touchRoot t x.tableVersion.toNat s)) [] = (code, rows, u) →
         startGather k s = if code ≠ 0 then failSlot k code u
           else settleGather k (sendEach k (rowReadBody k) (devicesOf ((rows.filter GatherRow.waits).map (·.home)))
             (u.modSlot k fun x => { x with rows := rows })))) ∧
     (let x := s.slot k
      let t := dTable x.desc
      let bad := ∃ i ∈ x.indices, tblRows (s.tblHeadOf t) ≤ i.toNat
      let homes := devicesOf (x.indices.map fun i => s.homeOf t (i.toNat / tblPer (s.tblHeadOf t)))
      (bad → startUpdate k s = failSlot k 0x343 s) ∧
      (¬ bad → hotFull x.desc x s = true → startUpdate k s = failSlot k 0x344 s) ∧
      (¬ bad → hotFull x.desc x s = false → startUpdate k s = sendEach k (stageBody k) homes
         (s.modSlot k fun x => { x with homes := homes.map fun d => ⟨d, false, false⟩ }))))

/-- A reply to a table command's message (R110, R306, R310, R335, R336): one that comes late, a second time, or with a code; and the first
good one: its rows are taken, its home has staged, or its home has committed. -/
def Obligations.tableReplies : Prop :=
  ∀ (src : Nat) (b : Words) (s : State), s.hubUp = true →
    (let n := handleSlot (msgHandle b)
     let u := takeLoop b s
     let first := fun (kind : Nat) (c : Instr) (good : State) =>
      msgKind b = kind →
      (u.live (msgHandle b) = false → exec c s = .next (lateReply u)) ∧
      (u.live (msgHandle b) = true →
        ((u.slot n).awaited.find? (Safety.answers kind b) = none → exec c s = .next u) ∧
        (∀ a, (u.slot n).awaited.find? (Safety.answers kind b) = some a →
          exec c s = .next (if a.answered then dupReply u else if tmCode b ≠ 0 then failSlot n (tmCode b) u else good)))
     let v := fun kind => Safety.markAnswered kind b u
     let words := tblRowBytes ((v 0x83).tblHeadOf (dTable ((v 0x83).slot n).desc)) / 8
     let asked := ((v 0x83).slot n).rows.filter fun g => g.waits && g.home = msgDevice b
     let place := fun g : GatherRow => asked.findIdx fun a => a.index = g.index
     let land := fun g : GatherRow => if g.waits && g.home = msgDevice b then
          { g with
            value := some (bytesOf ((List.range words).map fun j => word b (2 + place g * words + j)))
            absent := bit (word b (2 + asked.length * words + place g / 64)) (place g % 64) }
        else g
     first 0x83 (.rowReadReply src b) (settleGather n ((v 0x83).modSlot n fun x => { x with rows := x.rows.map land })) ∧
     (let w := (v 0x84).modSlot n fun x => { x with homes := x.homes.map fun h => if h.device = msgDevice b then { h with staged := true } else h }
      first 0x84 (.tableStageReply src b) (if (w.slot n).commitsSent then
        sendEach n (fun _ s => [msgW0 5 0 (s.handle n), msgW1 s.deviceId 0, field 0 (s.handle n).toNat]) ((w.slot n).homes.map (·.device)) w
        else w)) ∧
     (let w := (v 0x85).modSlot n fun x => { x with homes := x.homes.map fun h => if h.device = msgDevice b then { h with committed := true } else h }
      first 0x85 (.tableCommitReply src b) (if (w.slot n).homes.all (·.committed) then
        commitStage n 12 (w.modSlot n fun x => { x with outCount := x.indices.length }) else w)))

/-- Table messages at a home (R305, R310, R311, R316, R336): rows are read at their version, rows are staged once, and a commit applies the
staged rows in their order to the version that the seal mark's place decides, or none of them where a page of theirs cannot be read clean;
each is acknowledged with its code, and none is served for a request whose kill came first. The messages of a seal (R312): a mark is taken
once and the home reports when nothing of the version is on its way; the last report has the replica pages broadcast; a device switches to
the new root; the last switch seals the version. -/
def Obligations.tableHomesAndSeals : Prop :=
  (∀ (src : Nat) (b : Words) (s : State), s.hubUp = true →
     (let u := takeLoop b s
      let dead := u.killed (msgDevice b) (msgHandle b)
      let mine := fun g : Staged => g.src = msgDevice b && g.handle = msgHandle b
      (msgKind b = 3 → dead = true → exec (.rowRead src b) s = .next u) ∧
      (msgKind b = 3 → dead = false →
       (u.tableUp (rrSlot b) = false → exec (.rowRead src b) s = .next (tableAnswer b 0x342 [] u)) ∧
       (u.tableUp (rrSlot b) = true →
         let h := u.tblHeadOf (rrSlot b)
         let root := rootAt u (rrSlot b) (rrVersion b)
         let r := rootWords u root.1
         let got := readTableRows (rrSlot b) (dTenant b) h (fun row => (tvrMap r, row / tblPer h, row % tblPer h)) (rrRows b)
           (touchRoot (rrSlot b) (rrVersion b) u)
         (root.2 ≠ 0 → exec (.rowRead src b) s = .next (if root.2 = 0x321 ∧ u.islandOut = true then u else tableAnswer b root.2.toNat [] u)) ∧
         (∀ o, root.2 = 0 → (got.1.any (fun o => o.code = 0x321) && u.islandOut) = false → got.1.find? (fun o => o.code ≠ 0) = some o →
           exec (.rowRead src b) s = .next (tableAnswer b o.code.toNat [] got.2)) ∧
         (root.2 = 0 → (∀ o ∈ got.1, o.code = 0 ∧ o.poison = false) → exec (.rowRead src b) s = .next (tableAnswer b 0
           ((got.1.flatMap fun o => rowWords (fit (tblRowBytes h) o.value)) ++ (List.range (ceilDiv (rrRows b).length 64)).map fun i =>
             BitVec.ofNat 64 (packBits (fun k => (got.1[64 * i + k]?.map (·.absent)).getD false) 64)) got.2)))) ∧
      (msgKind b = 4 → (dead = true → exec (.tableStage src b) s = .next u) ∧
       (dead = false →
         let n := tmSlot b
         let h := u.tblHeadOf n
         (u.tableUp n = false → exec (.tableStage src b) s = .next (tableAnswer b 0x342 [] u)) ∧
         (u.tableUp n = true → u.stackUp (stackOf (tblHead h)) = true → exec (.tableStage src b) s = .next (tableAnswer b 0 []
           (if (u.tableSlot n).staged.any mine then u
           else u.modTable n fun t => { t with staged := t.staged ++
             [⟨msgDevice b, msgHandle b, tmAct b, stagedRows b (actWords h (tmAct b))⟩] }))))) ∧
      (msgKind b = 5 → (dead = true → exec (.tableCommit src b) s = .next u) ∧
       (dead = false → u.tables.find? (fun e => e.2.staged.any mine) = none → exec (.tableCommit src b) s = .next (tableAnswer b 0 [] u)) ∧
       (∀ n t, dead = false → u.tables.find? (fun e => e.2.staged.any mine) = some (n, t) →
         let rows := (t.staged.filter mine).flatMap fun g => g.rows.map fun r => (g.act, r)
         let code := applyCode n (u.tblHeadOf n) (rows.map (·.2.1)) u
         let w := u.modTable n fun t => { t with staged := t.staged.filter fun g => !mine g }
         (code = 0 → exec (.tableCommit src b) s = .next (tableAnswer b 0 [] (writeShard n (rows.map (·.2.1))
           (rows.foldl (fun s r => applyRow n t.tagNow r.2.1 r.1 r.2.2 s) w)))) ∧
         (code ≠ 0 → exec (.tableCommit src b) s =
           .next (if code = 0x321 ∧ u.islandOut = true then u else tableAnswer b code.toNat [] w)))))) ∧
  (∀ (src : Nat) (b : Words) (s : State), s.hubUp = true →
     (let u := takeLoop b s
      let n := tmSlot b
      let v := smVersion b
      let t := u.tableSlot n
      (msgKind b = 6 → exec (.sealMark src b) s = .next (if u.tableUp n ∧ t.built + 1 = v ∧ t.marked = none then
         tryReport n (u.modTable n fun t => { t with marked := some v, reported := false }) else u)) ∧
      (msgKind b = 0x86 → exec (.sealMarkReply src b) s = .next (if t.sealing = some v ∧ msgDevice b ∈ t.reports then
         (let w := u.modTable n fun t => { t with reports := t.reports.erase (msgDevice b) }
          if (w.tableSlot n).reports = [] then broadcastReplica n v w else w) else u)) ∧
      (msgKind b = 7 → u.tableUp n = true → u.stackUp (stackOf (tblHead (u.tblHeadOf n))) = true →
       (v ≤ t.built → exec (.replicaPages src b) s = .next (tableAnswer b (n % 64) [BitVec.ofNat 64 v] u)) ∧
       (v = t.built + 1 → exec (.replicaPages src b) s =
         .next (let w := switchTable n v (rpPages b) (rpDir b) u
           if (w.tableSlot n).built = v then tableAnswer b (n % 64) [BitVec.ofNat 64 v] w else w)) ∧
       (t.built + 1 < v → exec (.replicaPages src b) s = .next u)) ∧
      (msgKind b = 0x87 → exec (.replicaPagesReply src b) s = .next (if t.sealing = some v ∧ msgDevice b ∈ t.switched then
         (let w := u.modTable n fun t => { t with switched := t.switched.erase (msgDevice b) }
          if (w.tableSlot n).switched = [] then noteSealed n v (w.modTable n fun t => { t with sealing := none }) else w) else u))))

/-- Migrations (R315) and the sketch (R308): a promoted row gets its hot slot, a demoted one is homed and what waited for it applies;
acknowledgements let a barrier fall; the hot home applies forwarded updates in their turn; a counter that has seen its lookups halves. -/
def Obligations.migrations : Prop :=
  ∀ (src island : Nat) (b : Words) (s : State),
    (s.hubUp = true → s.tableUp (tmSlot b) = true →
      let u := takeLoop b s
      let n := tmSlot b
      let h := u.tblHeadOf n
      let row := mcRow b
      let value := mcValue b (tblRowBytes h / 8)
      let m := u.migOf n row
      let back := fun kind w => sendTable (msgDevice b) [msgW0 kind 0 0, tmW1 w n (tmAct b) (tmVersion b), word b 2] true w
      (msgKind b = 8 →
        (tmAct b = .promote → exec (.migrationCopy src b) s = .next (back 0x88 (addHot n (tmVersion b) row value u))) ∧
        (tmAct b ≠ .promote → exec (.migrationCopy src b) s = .next (if m.mig = .migrating ∧ m.demote then
          tryReport n (back 0x88 (lowerBarrier n row .homed (putRow n (tmVersion b) row false value u))) else u))) ∧
      (msgKind b = 0x88 → exec (.migrationCopyReply src b) s =
        .next (if tmAct b = .promote ∧ m.mig = .migrating ∧ m.demote = false then tryReport n (lowerBarrier n row .forwarded u) else u)) ∧
      let held := tget [] (u.tableSlot n).pend.hot row ≠ [] ∨ tget [] (u.tableSlot n).next.hot row ≠ []
      (msgKind b = 9 → (¬ held → rowCode u n h row ≠ 0 → exec (.forwardedUpdate src b) s = .next u)) ∧
      (msgKind b = 9 → held ∨ rowCode u n h row = 0 →
        (tmAct b ≠ .demote → exec (.forwardedUpdate src b) s = .next (back 0x89 (countRow (putRow n (tmVersion b) row true
          (updated h (tmAct b) (mcValue b (actWords h (tmAct b))) (rowNow u n h true (u.late n (tmVersion b)) row)) u)))) ∧
        (tmAct b = .demote → exec (.forwardedUpdate src b) s = .next (
          let w := back 0x89 (removeHot n (tmVersion b) row u).2
          sendTable (msgDevice b) (msgW0 8 0 0 :: tmW1 (removeHot n (tmVersion b) row u).2 n .demote (tmVersion b) :: word b 2 ::
            rowWords (fit (tblRowBytes h) (removeHot n (tmVersion b) row u).1)) false w))) ∧
      (msgKind b = 0x89 → exec (.forwardedUpdateReply src b) s = .next (forwardAcked n row (tmVersion b) u))) ∧
    (island < 12 → s.inService (idMemory island) = true →
      exec (.cmsDecay island) s = .next (if s.tableE.cmsDecay.toNat ≤ (s.stack island).lookups then s.modStack island cmsHalve else s))

/-- Packets at a link (R320, R321, R325, R328, R359 to R362): one out of its sequence is discarded and asks for a replay; one in sequence is
taken, and dropped by its policer, sent on towards another device, or served here. -/
def Obligations.packetArrival : Prop :=
  ∀ (l : Nat) (p : Packet) (s : State), s.linkServes l = true → ∀ r ∈ Safety.packetRows l p, p.type = r.1 →
    (seqOk (s.link l) p = false → ∃ t, exec r.2.1 s = .next t ∧
      Safety.Noted (if (s.link l).discarding then s
        else sendControl l ⟨none, some (s.link l).rxSeq, []⟩ (s.modLink l fun k => { k with discarding := true })) t) ∧
    (seqOk (s.link l) p = true → (police l p s).1 = false → ∃ t, exec r.2.1 s = .next t ∧ Safety.Noted (Safety.packetTaken l p s) t) ∧
    (seqOk (s.link l) p = true → (police l p s).1 = true → ∃ u, Safety.Noted (Safety.packetTaken l p s) u ∧
      exec r.2.1 s = .next (if p.dst = s.deviceId then r.2.2 u else forward p u))

/-- What a packet does where it is served (R331 to R334): a read is answered with its data in segments, or with one reply of its failure; a
page is written and acknowledged, or waits while the page is being copied to a spare one; a reply that nothing awaits is counted, one with
a code fails what it was for, and the last segment delivers the bytes of all. -/
def Obligations.packetsAreServed : Prop :=
  ∀ (l : Nat) (p : Packet) (s : State),
    (let ok := s.floorOk (bits (word p.hdr 3) 63 62) (bits (word p.hdr 3) 47 32) (bits (word p.hdr 3) 31 0) (word p.hdr 4).toNat
     let off := p.addr % 2 ^ 50
     serveRead p s =
      if ok = false then
        routeOut (replyTo p s.deviceId s.fabric.hopLimit 0 0x312 []) { s with publish := { s.publish with floorFails := s.publish.floorFails + 1 } }
      else if (peek s off p.rlen).code ≠ 0 then routeOut (replyTo p s.deviceId s.fabric.hopLimit 0 (peek s off p.rlen).code []) s
      else (List.range (segCount off p.rlen)).foldl (fun u i =>
        routeOut (replyTo p u.deviceId u.fabric.hopLimit i 0 (segBytes off i (peekM s off p.rlen).1)) u) (touch [(off, p.rlen)] s)) ∧
    (s.copying (pageNo p.addr) = false → servePublish p s = (let w := acceptPage false (p.addr % 2 ^ 50) p.payload s
      routeOut (replyTo p w.2.deviceId w.2.fabric.hopLimit 0 w.1 []) w.2)) ∧
    (s.copying (pageNo p.addr) = true → servePublish p s = { s with hbm := { s.hbm with held := s.hbm.held ++ [p] } }) ∧
    (∀ type, p.lpoison = 0 → s.access p.island p.tag = none →
      landReply type l p s = { s with fabric := { s.fabric with lateReplies := s.fabric.lateReplies + 1 } }) ∧
    (∀ type a, p.lpoison = 0 → s.access p.island p.tag = some a → bits (word a.hdr 0) 63 56 + 0x80 = type →
      (p.code ≠ 0 → landReply type l p s = failIssuer a.issuer p.code (dropAccess p.island p.tag s)) ∧
      (p.code = 0 →
        let got := (a.got.filter fun g => g.1 ≠ p.seg) ++ [(p.seg, replyData a p)]
        let here := fun x : Access => if x.island = p.island && x.tag = p.tag then { x with got := got } else x
        (got.length = segCount (word a.hdr 2).toNat (bits (word a.hdr 5) 63 32) →
          landReply type l p s = deliver a (joinSegs got) (dropAccess p.island p.tag s)) ∧
        (got.length ≠ segCount (word a.hdr 2).toNat (bits (word a.hdr 5) 63 32) →
          landReply type l p s = { s with fabric := { s.fabric with accesses := s.fabric.accesses.map here } }))) ∧
    (∀ a n i, s.access p.island p.tag = some a → a.issuer = .job n i →
      (p.code ≠ 0 → landAck p s = stopWork n p.code (dropAccess p.island p.tag s)) ∧
      (p.code = 0 → landAck p s = settlePages n ((dropAccess p.island p.tag s).modJob n fun j =>
        { j with pages := j.pages + 1, progress := if j.kind = jkPages then BitVec.ofNat 32 (j.pages + 1) else j.progress })))

/-- The link layer (R320 to R322, R325, R429, R485): control input, bad types, failed CRCs, the two acknowledgement timers, training's ends
and a peer's fault idle. A Ready link that retrains is Starting, counts it, and its packets leave for other links (R320, R322). -/
def Obligations.linkLayer : Prop :=
  (∀ (l : Nat) (s : State), twf {} s.links = true →
     (s.linkServes l = true →
       (∀ c : List (Nat × Nat), exec (.linkControl l ⟨none, none, c⟩) s = .next (s.modLink l fun k =>
         { k with credits := c.foldl (fun t c => tmod 0 t c.1 (· + c.2)) k.credits })) ∧
       (∀ a : Word16, exec (.linkControl l ⟨some a, none, []⟩) s = .next (takeAck l a s)) ∧
       (∀ x : Word16, exec (.linkControl l ⟨none, some x, []⟩) s = .next (takeNak l x s)) ∧
       exec (.packetCrcFailure l) s =
         .next (sendControl l ⟨none, some (s.link l).rxSeq, []⟩ (s.modLink l fun k => { k with discarding := true })) ∧
       (∀ p : Packet, assignedTypes.contains p.type = false → seqOk (s.link l) p = true → ∃ t, exec (.badPacket l p) s = .next t ∧
         Safety.Noted (returnCredit l p (takeAck l p.lack ({ s with fabric := { s.fabric with badPackets := s.fabric.badPackets + 1 } }.modLink l
           fun k => { k with rxSeq := p.lseq + 1, ackOwed := true, discarding := false }))) t) ∧
       ((s.link l).replay ≠ [] → 10000 ≤ (s.time - (s.link l).lastAck).toNat → exec (.linkAckTimeout l) s = .next (retrain l 2 s)) ∧
       ((s.link l).ackOwed = true → exec (.linkAckInterval l) s =
         .next (sendControl l ⟨some ((s.link l).rxSeq - 1), none, []⟩ (s.modLink l fun k => { k with ackOwed := false })))) ∧
     (s.inService (linkIsland l) = true →
       exec (.faultIdleReceived l) s = .next (retrain l 3 s) ∧
       ((s.link l).fn = .starting →
         (∃ t, exec (.linkTrainingFailed l) s = .next t ∧ Safety.Noted (s.modLink l fun k => { k with abandon := false, fn := .off }) t) ∧
         (∀ peer port : Nat, (s.link l).abandon = false →
           (peer = s.deviceId → exec (.linkReady l peer port) s = .next (s.modLink l fun k => { k with
             peer := field 16 (peer % 2 ^ 14) ||| field 0 (port % 64) })) ∧
           (peer ≠ s.deviceId → ∃ t, exec (.linkReady l peer port) s = .next t ∧
             Safety.Noted (s.modLink l fun k => { k with
               peer := field 16 (peer % 2 ^ 14) ||| field 0 (port % 64), txSeq := 0, rxSeq := 0, ackOwed := false
               discarding := false, replay := [], control := [], lastAck := s.time, credit := [], wireClass := none
               credits := (List.range 16).map fun q => (q, 32768), fn := .ready }) t)) ∧
         (∀ peer port : Nat, (s.link l).abandon = true → ∃ t, exec (.linkReady l peer port) s = .next t ∧
           Safety.Noted (s.modLink l fun k => { k with abandon := false, fn := .off }) t)))) ∧
  (∀ (l : Nat) (s : State), twf {} s.links = true → s.linkServes l = true → (s.link l).fn = .ready →
     (s.link l).replay = [] → (∀ q, tget [] (s.link l).queues q = []) →
     ∃ t, exec (.faultIdleReceived l) s = .next t ∧ ∃ hist,
       Safety.Noted ({ s with faults := { s.faults with history := hist } }.modLink l fun k => { k with
         retrains := k.retrains + 1, fn := .starting, replay := [], queues := [] }) t)

/-- Accesses whose time is past (R333, R334): a core's command is killed and queued again, and after FABRIC_RERUNS of these its request fails
with 0404h, as a request's own access does at once; a page is sent again, and after as many its job's work ends with 0404h. An access that
is not overdue, or that nothing awaits, is left alone. -/
def Obligations.fabricTimeouts : Prop :=
  ∀ (island tag : Nat) (s : State),
    (∀ a, s.access island tag = some a → s.overdue a = true →
      (∀ k m q rest, a.issuer = .coreMove k m → (s.core k).cmds = q :: rest →
        (q.life.timeouts < s.fabric.reruns →
          exec (.fabricTimeout island tag) s = .next (requeueAt k 0 (fun l => { l with timeouts := l.timeouts + 1 }) s)) ∧
        (s.fabric.reruns ≤ q.life.timeouts →
          exec (.fabricTimeout island tag) s = .next (endCommand k 0x404 (dropAccess island tag s)))) ∧
      (∀ n, a.issuer = .request n → exec (.fabricTimeout island tag) s = .next (failSlot n 0x404 (dropAccess island tag s))) ∧
      (∀ n i, a.issuer = .job n i →
        (s.fabric.reruns ≤ a.reruns → exec (.publishAckTimeout island tag) s = .next (stopWork n 0x404 s)) ∧
        (a.reruns < s.fabric.reruns → s.linkFor (⟨a.hdr, a.payload, 0⟩ : Packet).dst (pktKey ⟨a.hdr, a.payload, 0⟩) = none →
          exec (.publishAckTimeout island tag) s = .next (stopWork n 0x403 s)) ∧
        (∀ l, a.reruns < s.fabric.reruns → s.linkFor (⟨a.hdr, a.payload, 0⟩ : Packet).dst (pktKey ⟨a.hdr, a.payload, 0⟩) = some l →
          exec (.publishAckTimeout island tag) s = .next (
            let p : Packet := ⟨a.hdr, a.payload, 0⟩
            let u := s.modLink l fun k => { k with queues := tmod [] k.queues p.queue fun q => q ++ [{ pkt := p, at_ := s.timeAt (linkIsland l) }] }
            { u with fabric := { s.fabric with accesses := s.fabric.accesses.map fun x =>
              if x.island = island && x.tag = tag then { x with reruns := x.reruns + 1, sentAt := s.time } else x } })))) ∧
    ((∀ a, s.access island tag = some a → s.overdue a = false) →
      exec (.fabricTimeout island tag) s = .next s ∧ exec (.publishAckTimeout island tag) s = .next s)

/-- A kill notice removes its request's work here (R336): on the request's own device the commands, and everywhere its sweep members and sweep
requests, its waiting pen scans and its staged rows; and it opens the window of 4 × FABRIC_TIMEOUT_NS in which messages of that handle are
discarded. A second one within it does nothing. The window's end takes windows that have run out. -/
def Obligations.killNotices : Prop :=
  ∀ (b : Words) (s : State),
    (s.hubUp = true → msgKind b = 0x0F → s.killed (msgDevice b) (msgHandle b) = false →
      let d := msgDevice b
      let h := msgHandle b
      let u := dropScanReqs (fun r => r.entry = d && r.handle = h) (if d = s.deviceId then dropCmds h s else s)
      let v : State := { u with
        scan := { u.scan with penWaiting := u.scan.penWaiting.filter fun b => !(msgHandle b = h && msgDevice b = d) }
        tables := tmap {} (fun _ t => { t with staged := t.staged.filter fun g => !(g.src = d && g.handle = h) }) u.tables }
      let w : State := { v with fabric := { v.fabric with kills := v.fabric.kills ++
        [⟨d, h, v.time + BitVec.ofNat 64 (4 * v.fabric.timeout.toNat)⟩] } }
      exec (.killNotice b) s = .next w ∧ Safety.Aside s w ∧ w.time = s.time ∧
      w.scan.reqs = s.scan.reqs.filter (fun r => !(r.entry = d && r.handle = h)) ∧
      w.scan.penWaiting = s.scan.penWaiting.filter (fun w => !(msgHandle w = h && msgDevice w = d)) ∧
      (s.fabric.timeout ≠ 0 → s.time.toNat + 4 * s.fabric.timeout.toNat < 2 ^ 64 → w.killed d h = true)) ∧
    (s.hubUp = true → msgKind b = 0x0F → s.killed (msgDevice b) (msgHandle b) = true → exec (.killNotice b) s = .next s) ∧
    (∀ (dev : Nat) (h : Word32), exec (.killNoticeWindowEnd dev h) s = .next { s with fabric := { s.fabric with
      kills := s.fabric.kills.filter fun k => !(k.device = dev && k.handle = h && k.until_ ≤ s.time) } })

/-- The keyring (R342 to R346): a directory's check ends with its code, and a good one is in force; a refill takes the oldest miss, and
installs the entry that passes over the victim, or fails what missed. -/
def Obligations.keyringWorks : Prop :=
  ∀ s : State,
    (∀ off, s.keyring.dirCheck = some off → ∃ t, exec .keyringDirCheckEnd s = .next t ∧
      let u := checkReads (dirReads s off.toNat) s
      Safety.Noted { u with keyring := { u.keyring with
        dirCheck := none, dirCode := dirCheck s off.toNat
        dir := if dirCheck s off.toNat = 0 then some off else u.keyring.dir } } t) ∧
    (∀ m rest, s.fabric.misses = m :: rest → s.inService (idCluster m.cluster) = true →
      ∃ u, Safety.Noted { s with fabric := { s.fabric with misses := rest } } u ∧
        exec .keyringRefill s = .next (
          let f := lookupKey m u
          let v := touchProbes f.2.2 u
          match f.2.1 with
          | some (w0, w1) =>
            if (v.keyHit m.right m.addr.toNat 1 m.tenant m.sys).isSome then v else installKey true (refillEntry w0 m.cluster v) w1 v
          | none => failMiss m f.1 v)) ∧
    (∀ refill w0 w1, (s.victim = none → installKey refill w0 w1 s = s) ∧
      (∀ v, s.victim = some v → installKey refill w0 w1 s = { s with keyring := { s.keyring with
        evictions := s.keyring.evictions + (if refill = true ∧ bit (tget {} s.keyring.entries v).w0 21 = true then 1 else 0)
        entries := tset {} s.keyring.entries v ⟨w0, w1, BitVec.ofNat 64 (s.time.toNat / 1000)⟩ } }))

/-- A link's egress (R352, R353, R364): at a packet boundary a link control flit goes first, else the head packet of the highest queue that
may start, replies ahead of requests within a class; away from a boundary nothing starts. Gates and shapers (R354 to R357): a list is
switched to at its time, its entry follows the time, the classes that close at an entry's end are guarded over its last 41.76 ns, and each
l-cycle moves the credit of every class by its rule. -/
def Obligations.egressGatesAndShapers : Prop :=
  (∀ (l : Nat) (s : State), s.inService (linkIsland l) = true → (s.link l).fn = .ready →
     (s.boundary l = false → exec (.egressSelect l) s = .next s) ∧
     (s.boundary l = true →
       (∀ c rest, (s.link l).control = c :: rest → ∃ t, exec (.egressSelect l) s = .next t ∧
         Safety.Noted (s.modLink l fun k => { k with control := rest, wireEnd := 100 * s.time.toNat + 64, wireClass := none }) t) ∧
       ((s.link l).control = [] → (∀ q < 16, s.eligible l q = false) →
         exec (.egressSelect l) s = .next (s.modLink l fun k => { k with wireClass := none })) ∧
       (∀ (q : Nat) (p : QPkt) (rest : List QPkt), (s.link l).control = [] → q < 16 → s.eligible l q = true →
         (∀ j, q < j → j < 16 → s.eligible l j = false) → tget [] (s.link l).queues q = p :: rest →
         ∃ t, exec (.egressSelect l) s = .next t ∧
           (let sent := p.pkt.hdr.take 6 ++ [field 48 (s.link l).txSeq.toNat ||| field 32 ((s.link l).rxSeq - 1).toNat, 0]
            let pkt : Packet := { p.pkt with hdr := sent.take 7 ++ [BitVec.ofNat 64 (headerCrc sent)] }
            let delay := BitVec.ofNat 32 (min (2 ^ 32 - 1) (s.timeAt (linkIsland l) - p.at_).toNat)
            let longer := fun h : Word32 => if h < delay then delay else h
            let u := s.modLink l fun k => { k with
              queues := tset [] k.queues q rest
              replay := k.replay ++ [{ pkt := pkt, at_ := p.at_ }]
              lastAck := if k.replay = [] then s.time else k.lastAck
              txSeq := k.txSeq + 1
              ackOwed := false
              credits := tmod 0 k.credits q (· - pkt.cost)
              hwm := tmod 0 k.hwm q longer
              wireEnd := 100 * s.time.toNat + pkt.wire
              wireClass := some (q / 2) }
            Safety.Noted { u with traffic := { s.traffic with classHwm := tmod 0 s.traffic.classHwm (q / 2) longer } } t)))) ∧
  (∀ (l : Nat) (s : State), s.inService (linkIsland l) = true →
     (let now := s.timeAt (linkIsland l)
      (∀ g at_, (s.link l).gateNext = some (g, at_) → exec (.gateListSwitch l) s = .next (if at_ ≤ now then
         s.modLink l fun k => { k with gateActive := some g, gateNext := none, gateEntry := g.entryAt now, guard := 0 } else s)) ∧
      (∀ g, (s.link l).gateActive = some g → (s.link l).gateEntry < g.entries.length →
         exec (.gateIntervalEnd l) s = .next (if g.base ≤ now ∧ g.entryAt now ≠ (s.link l).gateEntry then
           s.modLink l fun k => { k with gateEntry := g.entryAt now, guard := 0 } else s) ∧
         (g.base ≤ now → g.entryAt now = (s.link l).gateEntry → 42 < g.entryEnd (s.link l).gateEntry - g.phase now →
           exec (.guardBandStart l) s = .next s) ∧
         (g.base ≤ now → g.entryAt now = (s.link l).gateEntry → g.entryEnd (s.link l).gateEntry - g.phase now ≤ 42 →
           ∃ v : Byte, exec (.guardBandStart l) s = .next (s.modLink l fun k => { k with guard := v }) ∧
             ∀ c < 8, v.getLsbD c = (bit (g.entries.getD (s.link l).gateEntry 0) (56 + c) &&
               !bit (g.entries.getD (((s.link l).gateEntry + 1) % g.entries.length) 0) (56 + c)))) ∧
      ((s.link l).fn = .ready → twf 0 (s.link l).credit = true → ∃ credit, exec (.shaperTick l) s = .next (s.modLink l fun k => { k with credit := credit }) ∧
         ∀ c < 8, (let old := tget 0 (s.link l).credit c
           let rate := tget 0 (s.link l).rates c
           let sending : Prop := (s.link l).wireClass = some c ∧ s.boundary l = false
           let queued : Prop := tget [] (s.link l).queues (2 * c) ≠ [] ∨ tget [] (s.link l).queues (2 * c + 1) ≠ []
           tget 0 credit c = if rate = 0 ∨ s.gateOpen l c = false then old
             else if sending then old + rate - 100000
             else if queued then old + rate
             else if 0 < old then 0 else min 0 (old + rate)))))

/-- Pre-emption (R372, R373, R375): a running command gives way only under the conditions of R372; it then goes back to the head of its
class's queue, killed, one pre-emption more to its account, and the command it gave way to is placed in front. -/
def Obligations.preemption : Prop :=
  ∀ (k : Nat) (c : DispatchCmd) (s : State), s.coreUp k = true → s.serves c = true →
    ((s.core k).cmds = [] → exec (.preempt k c) s = .next s) ∧
    (∀ v rest, (s.core k).cmds = v :: rest →
      (let may : Prop := s.placement.preemptEnable = true ∧ (v.cmd.tclass < c.tclass ∨ (s.urgent c = true ∧ s.urgent v.cmd = false)) ∧
         s.placement.minRemain.toNat < v.solo - (s.core k).now ∧ v.life.preempted < s.placement.preemptMax
       let killed := requeueAt k 0 (fun l => { l with preempted := l.preempted + 1 }) s
       let taken := takeWaiting k c killed
       let q := mkCmd killed k c taken.1
       let apart : Prop := c.slotBase + q.slots ≤ v.cmd.slotBase ∨ v.cmd.slotBase + v.slots ≤ c.slotBase
       (¬ may → exec (.preempt k c) s = .next s) ∧
       (may → dispatchOk killed k q = false ∨ ¬ apart → exec (.preempt k c) s = .next s) ∧
       (may → dispatchOk killed k q = true → apart → ∃ u, Safety.Noted (countPreempt v taken.2.2) u ∧
         exec (.preempt k c) s = .next (placeCmd k true (q.atHome k taken.2.1) q u))))

/-- How clusters and text islands come up (R246, R275, R376, R378, R422, R437, R485): a cluster whose Starting ends has its cores erased, is
in its role, reloads its models' slots and serves, what waited for one going on, unless its enable was taken back or a stack fills its
check region. The ends of drains (R284, R376, R377): a function that drains is Off, or in its new role, once nothing of what it holds
remains, and not before; what has waited for a function longer than DRAIN_HOLD_NS fails with 0140h. -/
def Obligations.functionsComeUpAndDrain : Prop :=
  (∀ (n : Nat) (s : State),
     (n < 16 → s.startable (idCluster n) = true → (s.cluster n).fn = .starting → twf {} s.clusters = true →
       ((s.cluster n).abandon = true → ∃ u, exec (.clusterReady n) s = .next (backInService (idCluster n) u) ∧
         Safety.Noted (((List.range 16).foldl (fun s i => s.modCore (16 * n + i) (·.resetCore)) (releasePins n s)).modCluster n fun c =>
           { c with role := if c.role = 3 then c.target else c.role, abandon := false, fn := .off }) u) ∧
       ((s.cluster n).abandon = false → s.filling = true → exec (.clusterReady n) s = .next s) ∧
       ((s.cluster n).abandon = false → s.filling = false →
         (let full := s.coreE.initMode = 1
          let u := (List.range 16).foldl (fun s i => s.modCore (16 * n + i) (Core.released full)) s
          let end_ := (u.cluster n).since + 2048
          let fill := if u.time < end_ then u.time else end_
          let v : State := if full ∧ u.coreE.fillDone < fill then { u with coreE := { u.coreE with fillDone := fill } } else u
          let w := reloadModels n (v.modCluster n fun c => { c with role := if c.role = 3 then c.target else c.role })
          ∃ x, Safety.Noted (w.modCluster n fun c => { c with fn := .ready }) x ∧
            exec (.clusterReady n) s = .next (servePens (resumeGathers (backInService (idCluster n) x)))))) ∧
     (n < 4 → s.startable (idText n) = true → (s.textIsl n).fn = .starting → twf {} s.texts = true →
       ∃ u, exec (.textReady n) s = .next (backInService (idText n) u) ∧
         Safety.Noted (s.modText n fun t => if t.abandon then { t with abandon := false, cache := [], fn := .off } else { t with fn := .ready }) u) ∧
     ((s.cluster n).fn ≠ .starting → exec (.clusterReady n) s = .next s) ∧ ((s.textIsl n).fn ≠ .starting → exec (.textReady n) s = .next s)) ∧
  (∀ (n : Nat) (s : State), s.alive = true →
     ((s.cluster n).fn = .draining → twf {} s.clusters = true →
       ((∃ i < 16, (s.core (16 * n + i)).cmds ≠ []) → exec (.drainEnd (.cluster n)) s = .next s) ∧
       ((∀ i < 16, (s.core (16 * n + i)).cmds = []) →
         ((s.cluster n).role = 3 ∧ (s.cluster n).abandon = false → ∃ u, exec (.drainEnd (.cluster n)) s = .next (servePens (resumeGathers u)) ∧
           Safety.Noted ({ s with serving := { s.serving with roleChanges := s.serving.roleChanges + 1 } }.modCluster n fun c =>
             { c with role := c.target, fn := .ready }) u) ∧
         (¬ ((s.cluster n).role = 3 ∧ (s.cluster n).abandon = false) → ∃ t, exec (.drainEnd (.cluster n)) s = .next t ∧
           Safety.Noted (((List.range 16).foldl (fun s i => s.modCore (16 * n + i) (·.resetCore)) (releasePins n s)).modCluster n fun c =>
             { c with role := if c.role = 3 then c.target else c.role, abandon := false, fn := .off }) t))) ∧
     ((s.textIsl n).fn = .draining → twf {} s.texts = true → ∃ t, exec (.drainEnd (.text n)) s = .next t ∧
       Safety.Noted (s.modText n fun t => { t with abandon := false, cache := [], fn := .off }) t) ∧
     ((s.stack n).fn = .draining → twf {} s.stackT = true → ∃ u, exec (.drainEnd (.stack n)) s = .next (endCopyOff n u) ∧
       Safety.Noted ((eraseStack n s).modStack n fun t => { t with
         ways := [], cms := [], lookups := 0, fromOff := true, abandon := false, fn := .off }) u) ∧
     ((s.link n).fn = .draining → twf {} s.links = true →
       ((s.link n).replay = [] → (s.link n).queued = [] → ∃ t, exec (.drainEnd (.link n)) s = .next t ∧
         Safety.Noted (s.modLink n fun k => { k with control := [], wireClass := none, fn := .off }) t) ∧
       ((s.link n).replay ≠ [] ∨ (s.link n).queued ≠ [] → exec (.drainEnd (.link n)) s = .next s)) ∧
     ((s.model n).fn = .draining →
       (s.modelUsers n = 0 → ∃ t, exec (.drainEnd (.model n)) s = .next t ∧
         Safety.Noted ((releaseModel n s).modModel n fun m => { m with fn := .off }) t) ∧
       (s.modelUsers n ≠ 0 → exec (.drainEnd (.model n)) s = .next s)) ∧
     ((s.tableSlot n).fn = .draining →
       (s.tableUsers n = 0 → ∃ t, exec (.drainEnd (.table n)) s = .next t ∧ Safety.Noted (s.modTable n fun x => { x with fn := .off }) t) ∧
       (s.tableUsers n ≠ 0 → exec (.drainEnd (.table n)) s = .next s)) ∧
     (∀ h : Word32, s.hubUp = true → s.live h = true → twf {} s.slots = true → (s.slot (handleSlot h)).commitsSent = false →
       (∀ since, (s.slot (handleSlot h)).heldSince = some since → s.placement.drainHold.toNat ≤ (s.time - since).toNat →
         ∃ t, exec (.drainHoldTimeout h) s = .next t ∧
           Safety.Aside (s.modSlot (handleSlot h) fun _ => Safety.endedSlot (handleSlot h) ssFailed 0x140 s) t) ∧
       ((s.slot (handleSlot h)).heldSince = none → (∀ w ∈ s.placement.held, w.cmd.handle = some h →
           (s.time - w.since).toNat < s.placement.drainHold.toNat) → exec (.drainHoldTimeout h) s = .next s)))

/-- The enables (R410, R485): a write of 1 starts a function that is Off, and one of 0 abandons its start, or drains it; a write of 1 to a
function that drains is refused with 03h, and so is any write before the firmware is Ready; a change of role that drains a cluster becomes
a drain to Off. -/
def Obligations.enablesFollowTheState : Prop :=
  ∀ (via : Carrier) (n : Nat) (v : Byte) (s : State), s.carrierUp via = true → ∀ r ∈ Safety.enableRows via n v s, n < r.units →
    (s.fwReady = false → Safety.Replies via r.index (n + 1) 3 0 r.cmd s s) ∧
    (s.fwReady = true →
      (v.toNat = 0 → r.mayStop = false → Safety.Replies via r.index (n + 1) 3 0 r.cmd s s) ∧
      (1 < v.toNat → r.mayStop = true → Safety.Replies via r.index (n + 1) 4 0 r.cmd s s) ∧
      (v.toNat = 1 →
        (r.fn = .off → Safety.Replies via r.index (n + 1) 0 0 r.cmd s (r.keep (r.start s))) ∧
        (r.fn = .starting ∨ r.fn = .ready → Safety.Replies via r.index (n + 1) 0 0 r.cmd s (r.keep s)) ∧
        (r.fn = .draining → r.index ≠ 0x7201 → Safety.Replies via r.index (n + 1) 3 0 r.cmd s s)) ∧
      (v.toNat = 0 → r.mayStop = true →
        (r.fn = .off → Safety.Replies via r.index (n + 1) 0 0 r.cmd s (r.keep s)) ∧
        (r.fn = .starting → Safety.Replies via r.index (n + 1) 0 0 r.cmd s (r.keep (r.abandon s))) ∧
        (r.fn = .ready → Safety.Replies via r.index (n + 1) 0 0 r.cmd s (r.keep (r.drain s))) ∧
        (r.fn = .draining → Safety.Replies via r.index (n + 1) 0 0 r.cmd s
          (if r.index = 0x2020 ∧ (s.cluster n).role = 3 then r.keep (r.abandon s) else r.keep s))))

/-- Writes to the entries of rings, jobs, corpora' floors and templates (R33, R66, R83, R87, R90, R160): each takes the effect its rule gives
it, or is refused with its rule's code. -/
def Obligations.entriesOfRequests : Prop :=
  ∀ (via : Carrier) (n : Nat) (s : State), s.carrierUp via = true → s.fwReady = true →
    (∀ v : Byte, n < 64 →
      (v.toNat ≤ 1 → Safety.Replies via 0x7014 (n + 1) 0 0 (.ringEnable via n v) s (s.modRing n fun r =>
        if v.toNat = 1 ∧ r.enable = false then { r with enable := true, head := 0, tail := 0 } else { r with enable := v.toNat = 1 })) ∧
      (1 < v.toNat → Safety.Replies via 0x7014 (n + 1) 4 0 (.ringEnable via n v) s s)) ∧
    (∀ v : Byte, Safety.Replies via 0x4121 4 0 0 (.jobRelease via v) s
      (if v.toNat < 16 ∧ ((s.job v.toNat).state = .done ∨ (s.job v.toNat).state = .failed)
       then s.modJob v.toNat fun j => { gen := j.gen } else s)) ∧
    (∀ f : Word32, n < 64 → if (s.corpus n).floor.toNat ≤ f.toNat ∧ f.toNat ≤ (s.corpus n).current.toNat ∧ f.toNat ≤ s.oldestHeld n
      then Safety.Replies via 0x4114 (n + 1) 0 0 (.epochFloor via n f) s (sweepRetiring (n + 1) 0 (s.modCorpus n fun c => { c with floor := f }))
      else Safety.Replies via 0x4114 (n + 1) 6 0x314 (.epochFloor via n f) s s) ∧
    (∀ v : Byte, n < 64 →
      (v.toNat = 0 → Safety.Replies via 0x7212 (n + 1) 0 0 (.templateEnable via n v) s (s.modTemplate n fun t => { t with enable := false })) ∧
      (v.toNat = 1 → (s.template n).enable = true → Safety.Replies via 0x7212 (n + 1) 0 0 (.templateEnable via n v) s s) ∧
      (v.toNat = 1 → (s.template n).enable = false → templateCheck s n = 0 →
        Safety.Replies via 0x7212 (n + 1) 0 0 (.templateEnable via n v) s ((checkReads (tplReads s n) s).modTemplate n fun t =>
          { t with enable := true, code := 0, head := recW s t.desc.toNat 8 })) ∧
      (v.toNat = 1 → (s.template n).enable = false → templateCheck s n ≠ 0 →
        Safety.Replies via 0x7212 (n + 1) 6 (templateCheck s n) (.templateEnable via n v) s
          ((checkReads (tplReads s n) s).modTemplate n fun t => { t with enable := false, code := templateCheck s n })))

/-- Writes to the entries of table slots, hinges and roles (R267, R284, R312 to R314): each takes the effect its rule gives it, or is refused
with its rule's code. -/
def Obligations.entriesOfTablesAndHinges : Prop :=
  ∀ (via : Carrier) (n : Nat) (s : State), s.carrierUp via = true → s.fwReady = true →
    (n < 64 → (let t := s.tableSlot n
      let h := s.tblHeadOf n
      let code := fun (c : Word16) (s : State) => s.modTable n fun t => { t with code := c }
      (∀ v : Word32, if t.current.toNat < v.toNat ∧ v.toNat ≤ t.sealed.toNat
        then Safety.Replies via 0x4505 (n + 1) 0 0 (.tableAdvance via n v) s (code 0 (s.modTable n fun t => { t with current := v }))
        else Safety.Replies via 0x4505 (n + 1) 6 0x346 (.tableAdvance via n v) s (code 0x346 s)) ∧
      (∀ f : Word32, if t.floor.toNat ≤ f.toNat ∧ f.toNat ≤ t.current.toNat ∧ f.toNat ≤ s.tableHeld n
        then Safety.Replies via 0x4506 (n + 1) 0 0 (.tableFloor via n f) s
          ((if s.tableUp n then (floorPages s n t.floor.toNat f.toNat).filter fun p => (s.page p).kind.written else []).foldl
            (fun s p => freePage p s) (s.modTable n fun t => { t with floor := f }))
        else Safety.Replies via 0x4506 (n + 1) 6 0x314 (.tableFloor via n f) s s) ∧
      (∀ v : Word32, (s.tableUp n = false ∨ tblHotHome h ≠ s.deviceId ∨ v.toNat ≠ t.sealed.toNat + 1 ∨ t.sealing.isSome = true →
          Safety.Replies via 0x4508 (n + 1) 6 0x346 (.tableSeal via n v) s (code 0x346 s)) ∧
        (s.tableUp n = true → tblHotHome h = s.deviceId → v.toNat = t.sealed.toNat + 1 → t.sealing = none →
          (let devs := if tblSharded h then s.shardDevices n else []
           let u := code 0 (s.modTable n fun t => { t with sealing := some v.toNat, reports := devs })
           Safety.Replies via 0x4508 (n + 1) 0 0 (.tableSeal via n v) s (if devs = []
             then broadcastReplica n v.toNat (u.modTable n fun t => { t with marked := some v.toNat, reported := true })
             else devs.foldl (fun s d => sendTable d [msgW0 6 0 0, tmW1 s n .replace 0, BitVec.ofNat 64 v.toNat] false s) u)))) ∧
      (∀ (v : Word32) (root : Word64),
        (let s' := awaitCopy (tblHead h) s
         let t := s'.tableSlot n
         let h := s'.tblHeadOf n
         let r := recW s' root.toNat 16
         let good : Prop := s'.tableUp n = true ∧ v.toNat = t.sealed.toNat + 1 ∧ t.busy = false ∧ root.toNat % 4096 = 0 ∧
           readable s' root.toNat 128 = true ∧ rootOk h r = true ∧ tvrVersion r = v.toNat ∧ tvrPrev r = s'.rootNow h
         let head : Prop := readable s' (tblHead h) 8 = true
         (good → head → ∃ u, Safety.Replies via 0x450A (n + 1) 0 0 (.tableInstall via n v root) s (code 0 u) ∧
           Safety.Noted (((rewriteIn s' (tblHead h) (leBytes 8 root.toNat) (touch [(root.toNat, 128)] s')).modTable n fun t => { t with
             built := v.toNat, moving := [] }).modTable n fun t => { t with sealed := v }) u) ∧
         (good → ¬ head → Safety.Replies via 0x450A (n + 1) 6 0x311 (.tableInstall via n v root) s (code 0x311 s')) ∧
         (¬ good → Safety.Replies via 0x450A (n + 1) 6 0x345 (.tableInstall via n v root) s (code 0x345 s')))))) ∧
    (∀ v : Byte, n < 16 →
      (v.toNat = 0 → Safety.Replies via 0x7311 (n + 1) 0 0 (.rolePin via n v) s (s.modCluster n fun x => { x with pin := 0 })) ∧
      (v.toNat = 1 ∨ v.toNat = 2 → Safety.Replies via 0x7311 (n + 1) 0 0 (.rolePin via n v) s
        (changeRole n v.toNat (s.modCluster n fun x => { x with pin := v.toNat }))) ∧
      (2 < v.toNat → Safety.Replies via 0x7311 (n + 1) 4 0 (.rolePin via n v) s s)) ∧
    (∀ v : Word64, (hingeForm v = false → Safety.Replies via 0x4405 1 4 0 (.hingeInstall via v) s s) ∧
      (hingeForm v = true → ∃ w, Safety.Replies via 0x4405 1 0 0 (.hingeInstall via v) s w ∧
        (let u := dropHingeCopy (endHingeCopy s)
         let i := bits v 63 55
         if i < 0x100 then
           let row := bits v 16 0
           let es := (u.core i).hinge
           if 98304 ≤ row ∨ es.any (fun e => e.2.valid && e.2.row = row) then w = hingeDone 0x323 u
           else match (List.range 8).find? fun j => !(tget {} es j).valid with
             | none => w = hingeDone 0x322 u
             | some j =>
               let x := (if (u.core i).rowValid row then decodeRow i row u else u).modCore i (moveRow row j)
               if (u.core i).runs = [] then w = hingeDone 0 (notable i 9 j x)
               else ∃ k, k ≤ 2 ∧ w = hingeDone 0 (notable i 9 j ((x.modHub fun h => { h with freeUsed := h.freeUsed + 1 }).modCore i fun c =>
                 { c with freezes := tmod 0 c.freezes (bankOf row) (· + BitVec.ofNat 64 k) }))
         else
           let m := i - 0x110
           let page := bits v 35 12
           let es := (u.stack m).hinge
           if 0xF80000 ≤ page ∨ es.any (fun e => e.2.valid && e.2.page = page) then w = hingeDone 0x323 u
           else match (List.range 16).find? fun j => !(tget {} es j).valid with
             | none => w = hingeDone 0x322 u
             | some j =>
               let x := modHbm (fun h => { h with hingeResult := 0xFFFF, hingeTarget := some (m, j) })
                 (u.modStack m fun t => { t with hinge := tset {} t.hinge j ⟨true, 1, false, page⟩ })
               let copies := (u.page (2 ^ 24 * m + page)).kind.written && !(u.stack m).fromOff
               w = if copies then x else hingeActive m j false x)))

/-- Writes to the keyring's entries (R342, R345, R348): a pin, unpin or flush is done at once, and a pin past 480 host pins and quotas refused
with 0408h; a new directory is checked; a route table is taken whole or refused, and what its pages' codes corrected is noted (R256).
Traffic entries (R354 to R364): a gate list is scheduled or refused with 0409h, rates taken or refused with 040Ah, a policer's record
taken with its buckets full, or refused with 040Bh; the delays' high-water marks are cleared as they are read. -/
def Obligations.entriesOfKeyringAndTraffic : Prop :=
  (∀ (via : Carrier) (s : State), s.carrierUp via = true → s.fwReady = true →
     (let done := fun (f : Keyring → Keyring) (s : State) => { s with keyring := { f s.keyring with result := 0 } }
      (∀ off : Word64, Safety.Replies via 0x3020 1 0 0 (.keyringDir via off) s
        { s with keyring := { s.keyring with dirEntry := off, dirCheck := some off, dirCode := 0xFFFF } }) ∧
      (∀ w0 w1 : Word64,
        (pinForm w0 = false → Safety.Replies via 0x3020 4 4 0 (.keyringPin via w0 w1) s s) ∧
        (pinForm w0 = true → 480 < s.hostPins + 1 + s.quotaSum → Safety.Replies via 0x3020 4 6 0x408 (.keyringPin via w0 w1) s
          { s with keyring := { s.keyring with result := 0x408 } }) ∧
        (∀ v, pinForm w0 = true → s.hostPins + 1 + s.quotaSum ≤ 480 → s.victim = some v →
          Safety.Replies via 0x3020 4 0 0 (.keyringPin via w0 w1) s (done (fun k => { k with
            entries := tset {} k.entries v ⟨w0, w1, BitVec.ofNat 64 (s.time.toNat / 1000)⟩ }) s))) ∧
      (∀ i : Word16,
        (i.toNat < 512 → Safety.Replies via 0x3020 5 0 0 (.keyringUnpin via i) s (done (fun k => { k with
          entries := tmod {} k.entries i.toNat fun e => { e with w0 := setBits (setBits e.w0 15 14 0) 13 10 0 } }) s)) ∧
        (512 ≤ i.toNat → Safety.Replies via 0x3020 5 4 0 (.keyringUnpin via i) s s)) ∧
      (∀ v : Byte,
        (1 ≤ v.toNat → v.toNat ≤ 3 → Safety.Replies via 0x3020 6 0 0 (.keyringFlush via v) s (done (fun k => { k with
          entries := k.entries.filter fun e => !(bits e.2.w0 15 14 = 0 || (2 ≤ v.toNat && bits e.2.w0 15 14 = 1) || v.toNat = 3) }) s)) ∧
        (v.toNat = 0 ∨ 3 < v.toNat → Safety.Replies via 0x3020 6 4 0 (.keyringFlush via v) s s)) ∧
      (∀ off : Word64,
        (routeCheck s off.toNat = 0 → Safety.Replies via 0x3010 1 0 0 (.routeTable via off) s
          (checkReads [(off.toNat, 131072)] (modFabric (fun f => { f with routeOff := off, routeCode := 0 }) (takeRoutes off.toNat s)))) ∧
        (routeCheck s off.toNat ≠ 0 → Safety.Replies via 0x3010 1 6 (routeCheck s off.toNat) (.routeTable via off) s
          (checkReads [(off.toNat, 131072)] (modFabric (fun f => { f with routeCode := routeCheck s off.toNat }) s)))))) ∧
  (∀ (via : Carrier) (s : State), s.carrierUp via = true → s.fwReady = true →
     (∀ (l : Nat) (v : Byte), l < 48 →
       (let g : GateList := ⟨(s.link l).gateBase, (s.link l).gateList.take (s.link l).gateCount⟩
        (v.toNat ≠ 1 → Safety.Replies via 0x3044 (l + 1) 4 0 (.gateApply via l v) s s) ∧
        (v.toNat = 1 → g.ok (s.link l).gateCount = false →
          Safety.Replies via 0x3044 (l + 1) 6 0x409 (.gateApply via l v) s (s.modLink l fun k => { k with gateCode := 0x409 })) ∧
        (v.toNat = 1 → g.ok (s.link l).gateCount = true →
          Safety.Replies via 0x3044 (l + 1) 0 0 (.gateApply via l v) s (s.modLink l fun k => { k with
            gateCode := 0
            gateNext := some (g, BitVec.ofNat 64 (g.startFrom (cycleEnd (s.link l).gateActive (s.timeAt (linkIsland l)).toNat))) })))) ∧
     (∀ (l : Nat) (rates : List Word32), l < 48 → rates.length = 8 →
       if (∀ r ∈ rates, r.toNat ≤ 100000) ∧ rates.foldl (fun a r => a + r.toNat) 0 ≤ 100000
       then ∃ t, Safety.Replies via 0x3046 (l + 1) 0 0 (.shaperRate via l rates) s (s.modLink l fun k => { k with rates := t }) ∧
         ∀ c < 8, tget 0 t c = (rates.getD c 0).toNat
       else Safety.Replies via 0x3046 (l + 1) 6 0x40A (.shaperRate via l rates) s s) ∧
     (∀ w0 w1 : Word64,
       (if polOk 66 w0 w1 then Safety.Replies via 0x3050 2 0 0 (.policerCfg via w0 w1) s { s with traffic := { s.traffic with
           policers := tmod {} s.traffic.policers s.traffic.select fun p => { p with w0 := w0, w1 := w1 }
           buckets := s.traffic.buckets.filter fun b => b.1 % 256 ≠ s.traffic.select } }
        else Safety.Replies via 0x3050 2 6 0x40B (.policerCfg via w0 w1) s s) ∧
       (if polOk 0 w0 w1 then Safety.Replies via 0x7020 2 0 0 (.tenantPolCfg via w0 w1) s { s with traffic := { s.traffic with
           tenantPol := tmod {} s.traffic.tenantPol s.traffic.tenantSelect fun p => { p with w0 := w0, w1 := w1 }
           tenantBuckets := s.traffic.tenantBuckets.filter fun b => b.1 ≠ s.traffic.tenantSelect } }
        else Safety.Replies via 0x7020 2 6 0x40B (.tenantPolCfg via w0 w1) s s)) ∧
     (∀ q < 16, Safety.Reads via 0x3061 (q + 1) (leBytes 4 (tget 0 (s.link s.traffic.hwmLink).hwm q).toNat) (.queueHwm via (q + 1)) s
       (s.modLink s.traffic.hwmLink fun k => { k with hwm := tset 0 k.hwm q 0 })) ∧
     (∀ c < 8, Safety.Reads via 0x3062 (c + 1) (leBytes 4 (tget 0 s.traffic.classHwm c).toNat) (.classHwm via (c + 1)) s
       { s with traffic := { s.traffic with classHwm := tset 0 s.traffic.classHwm c 0 } }))

/-- Entries of faults and the module (R24, R375, R420, R441, R443 to R445, R483): clears, the firmware's floor, which never falls, and the
injections that factory test mode arms. -/
def Obligations.entriesOfFaults : Prop :=
  ∀ (via : Carrier) (s : State), s.carrierUp via = true → s.fwReady = true →
    (∀ v : Byte,
      Safety.Replies via 0x7402 3 0 0 (.slowdownClear via v) s
        (if v = 1 then { s with placement := { s.placement with tenantSlow := [], classSlow := [] } } else s) ∧
      Safety.Replies via 0x2010 5 0 0 (.skewClear via v) s (if v = 1 then s.modHub fun h => { h with skewWorst := 0, skewIsland := 0 } else s) ∧
      Safety.Replies via 0x6000 5 0 0 (.faultClear via v) s
        (if v = 1 then { s with faults := { s.faults with first := none, captured := false, since := 0 } } else s)) ∧
    (∀ v : Word32,
      (s.faults.factory = true → Safety.Replies via 0x8000 4 3 0 (.fwFloor via v) s s) ∧
      (s.faults.factory = false → v.toNat < s.fw.floor.toNat → Safety.Replies via 0x8000 4 6 0x704 (.fwFloor via v) s s) ∧
      (s.faults.factory = false → s.fw.floor.toNat ≤ v.toNat → Safety.Replies via 0x8000 4 0 0 (.fwFloor via v) s
        { s with fw := { s.fw with floor := v }, flash := { s.flash with fwFloor := v } })) ∧
    (s.faults.factory = false → ∀ v : Byte, Safety.Replies via 0xF000 5 1 0 (.fiArm via v) s s ∧ Safety.Replies via 0xF001 4 1 0 (.piArm via v) s s) ∧
    (s.faults.factory = true → ∀ v : Byte,
      (1 < v.toNat → Safety.Replies via 0xF000 5 4 0 (.fiArm via v) s s ∧ Safety.Replies via 0xF001 4 4 0 (.piArm via v) s s) ∧
      (v.toNat = 0 → Safety.Replies via 0xF000 5 0 0 (.fiArm via v) s { s with faults := { s.faults with fiArmed := false } } ∧
        Safety.Replies via 0xF001 4 0 0 (.piArm via v) s s) ∧
      (v.toNat = 1 →
        (fiOk s = false → Safety.Replies via 0xF000 5 4 0 (.fiArm via v) s s) ∧
        (fiOk s = true → (s.island s.faults.fiIsland.toNat).service ≠ .heldOff → s.faults.fiAt ≤ s.time → twf {} s.islands = true →
          ∃ u, Safety.Replies via 0xF000 5 0 0 (.fiArm via v) s u ∧
            Safety.Faulted s.faults.fiIsland.toNat s.faults.fiCode s.faults.fiDetail 0 { s with faults := { s.faults with fiArmed := false } } u) ∧
        (fiOk s = true → (s.island s.faults.fiIsland.toNat).service = .heldOff ∨ s.time < s.faults.fiAt →
          Safety.Replies via 0xF000 5 0 0 (.fiArm via v) s { s with faults := { s.faults with fiArmed := true } }) ∧
        (let t := s.faults.piTarget
         let flip := fun (w e : Nat) => e ^^^ (2 ^ min s.faults.piBits w - 1)
         (s.faults.piKind = 1 → (bits t 63 48 < 256 ∧ bits t 16 0 < 98304) → Safety.Replies via 0xF001 4 0 0 (.piArm via v) s
           (s.modCore (bits t 63 48) fun c => { c with wordErrs := tmod 0 c.wordErrs (8 * c.cell (bits t 16 0) + bits t 22 20) (flip 72) })) ∧
         (s.faults.piKind = 2 → localOk t.toNat = true → s.inIntake t.toNat = false → Safety.Replies via 0xF001 4 0 0 (.piArm via v) s
           (s.modPage (s.cell (pageNo t.toNat)) fun p => { p with errs := flip 128 p.errs })) ∧
         (s.faults.piKind = 2 → localOk t.toNat = false → Safety.Replies via 0xF001 4 4 0 (.piArm via v) s s) ∧
         (s.faults.piKind = 3 → (islandType (bits t 63 55)).isSome = true → (1 ≤ bits t 31 28 ∧ bits t 31 28 ≤ 10) →
           Safety.Replies via 0xF001 4 0 0 (.piArm via v) s (setByteErr (bits t 63 55) (bits t 31 28) (bits t 27 0)
             (flip 13 (s.byteErr (bits t 63 55) (bits t 31 28) (bits t 27 0))) s)) ∧
         (s.faults.piKind = 0 ∨ 3 < s.faults.piKind.toNat → Safety.Replies via 0xF001 4 4 0 (.piArm via v) s s)))) ∧
    Safety.Reads via 0x2040 4 (leBytes 2 s.module.peak) (.powerPeakW via) s { s with module := { s.module with peak := 0 } }

/-- Entries of counters and samples (R450 to R454, R456, R459, R461): a counter's record says its lap and count, F0 to F2 within what their
clock can have counted (the count itself is open, log 33); a new configuration starts its counter at 0; sampling that starts seeds every
tagging island; and a sample leaves the buffer as it is read. -/
def Obligations.entriesOfCounters : Prop :=
  ∀ (via : Carrier) (i p : Nat) (s : State), s.carrierUp via = true → s.fwReady = true → i < 0x140 → (islandType i).isSome = true →
    (∀ c, 3 ≤ c → c < 12 → Safety.Reads via (0x5100 + i) (c + 1)
      (bytesOf [field 63 (if (s.ctr i c).lap then 1 else 0) ||| field 0 (s.ctr i c).value.toNat, BitVec.ofNat 64 (s.time.toNat + 40)])
      (.counterRead via i c) s s) ∧
    (∀ c, c < 3 → ∃ count, count ≤ cyclesAt i (s.time.toNat + 40) ∧ count < 2 ^ 56 ∧ Safety.Reads via (0x5100 + i) (c + 1)
      (bytesOf [field 63 (if (s.ctr i c).lap then 1 else 0) ||| field 0 count, BitVec.ofNat 64 (s.time.toNat + 40)])
      (.counterRead via i c) s (s.modHub fun h => { h with freeUsed := h.freeUsed + 1 })) ∧
    (∀ w0 w1 w2 w3 : Word64, p < 8 →
      (cfgOk i [w0, w1, w2, w3] = false → Safety.Replies via (0x5300 + i) (p + 1) 4 0 (.counterCfg via i p [w0, w1, w2, w3]) s s) ∧
      (cfgOk i [w0, w1, w2, w3] = true → Safety.Replies via (0x5300 + i) (p + 1) 0 0 (.counterCfg via i p [w0, w1, w2, w3]) s
        (s.modIsland i fun x => { x with cfgs := tset {} x.cfgs p ⟨w0, w1, w2, w3⟩, ctrs := tset {} x.ctrs (4 + p) {} }))) ∧
    (∀ v : Word16,
      (v.toNat / 16 = i → v.toNat % 16 < 12 → Safety.Replies via 0x5000 5 0 0 (.lapClear via v) s
        (s.modIsland i fun x => { x with ctrs := tmod {} x.ctrs (v.toNat % 16) fun k => { k with lap := false } })) ∧
      (12 ≤ v.toNat % 16 ∨ 2 ^ 13 ≤ v.toNat → Safety.Replies via 0x5000 5 4 0 (.lapClear via v) s s)) ∧
    (∀ v : Byte,
      (3 < v.toNat → Safety.Replies via 0x5600 1 4 0 (.sampleEnable via v) s s) ∧
      (v.toNat ≤ 3 → ∃ u, Safety.Aside s u ∧ Safety.Replies via 0x5600 1 0 0 (.sampleEnable via v) s
        (let w : State := { u with sampling := { u.sampling with enable := v } }
         if s.sampling.enable = 0 ∧ v ≠ 0 then (List.range 256).foldl (fun s k => seedIsland k s) (seedIsland idHub w) else w))) ∧
    Safety.Reads via 0x5601 1 (fit 128 (bytesOf (s.sampling.records.headD []))) (.sampleRecord via) s
      { s with sampling := { s.sampling with records := s.sampling.records.tail } }

/-- The dictionary over its carriers (R394 to R396, R399, R402, R404, R406, R410, R415, R448, R455): a write passes the tests 01h, 02h, 05h,
03h and 04h in that order and then follows its entry's rule; a read answers its value; several are read in order; the list, the events and
an opcode that is not assigned are answered; a carrier that is not served hears nothing. -/
def Obligations.dictionaryAnswers : Prop :=
  ∀ (via : Carrier) (s : State),
    let say := fun (ret : Return) (bs : Bytes) => Safety.answered via ret bs s
    (∀ (index : Word16) (sub : Byte) (v : Bytes),
      let c := Instr.odWrite via index sub v
      let replies := Safety.Replies via index.toNat sub.toNat
      (s.carrierUp via = false → exec c s = .next s) ∧
      (s.carrierUp via = true →
        (sub = 0 → s.highest index.toNat = none → replies 1 0 c s s) ∧
        (∀ m, sub = 0 → s.highest index.toNat = some m → replies 2 0 c s s) ∧
        (sub ≠ 0 → s.entry index.toNat sub.toNat = none → replies 1 0 c s s) ∧
        (∀ e, sub ≠ 0 → s.entry index.toNat sub.toNat = some e →
          (let at_ := e.place index.toNat sub.toNat 0
           let early := earlyEntry index.toNat sub.toNat
           (e.acc = .ro → replies 2 0 c s s) ∧
           (e.acc ≠ .ro → e.type.fits v = false → replies 5 0 c s s) ∧
           (e.acc ≠ .ro → e.type.fits v = true →
             ((s.fwReady = false ∧ early = false) ∨ e.may s at_ v = false → replies 3 0 c s s) ∧
             (s.fwReady = true ∨ early = true → e.may s at_ v = true →
               (e.ok s at_ v = false → replies 4 0 c s s) ∧
               (e.ok s at_ v = true → replies (e.set at_ v s).result (e.set at_ v s).code c s (e.set at_ v s).state))))))) ∧
    (∀ (index : Word16) (sub : Byte),
      let c := Instr.odRead via index sub
      (s.answersRead via index.toNat = false → exec c s = .next s) ∧
      (s.answersRead via index.toNat = true →
        (sub = 0 → s.highest index.toNat = none → Safety.Replies via index.toNat sub.toNat 1 0 c s s) ∧
        (∀ m, sub = 0 → s.highest index.toNat = some m → Safety.Reads via index.toNat sub.toNat (leBytes 1 m) c s s) ∧
        (sub ≠ 0 → s.entry index.toNat sub.toNat = none → Safety.Replies via index.toNat sub.toNat 1 0 c s s) ∧
        (∀ e, sub ≠ 0 → s.entry index.toNat sub.toNat = some e →
          (e.acc = .wo → Safety.Replies via index.toNat sub.toNat 2 0 c s s) ∧
          (e.acc ≠ .wo → Safety.Reads via index.toNat sub.toNat (e.get s (e.place index.toNat sub.toNat 0)) c s
            (e.after (e.place index.toNat sub.toNat 0) s))))) ∧
    (∀ es : List (Word16 × Byte),
      let c := Instr.odReadMulti via es
      let size := es.foldl (fun n e => n + recordSize e.1.toNat e.2.toNat s) 0
      (s.carrierUp via = true → es = [] ∨ 64 < es.length ∨ 16384 < size → exec c s = .next (say .invalidInput [])) ∧
      (es ≠ [] → es.length ≤ 64 → size ≤ 16384 → (∀ e ∈ es, s.answersRead via e.1.toNat = true) →
        ∃ (records : List Bytes) (u : State), records.length = es.length ∧ exec c s = .next (Safety.answered via .success records.flatten u)) ∧
      ((∃ e ∈ es, s.answersRead via e.1.toNat = false) → exec c s = .next s)) ∧
    (s.carrierUp via = true →
      (∀ first last : Word16, exec (.odList via first last) s =
        .next (say .success (bytesOf (listUpTo 2048 (s.indicesIn first.toNat last.toNat))))) ∧
      (∀ max : Nat, max = 0 ∨ 256 < max → exec (.eventRead via max) s = .next (say .invalidInput [])) ∧
      (∀ max : Nat, 1 ≤ max → max ≤ 256 → ∃ t, exec (.eventRead via max) s = .next t ∧ t.host.events = s.host.events.drop max ∧
        (let es := s.host.events.take max
         Safety.Noted (say .success (leBytes 4 es.length ++ zeros 4 ++ es.flatMap fun e => bytesOf [e.time, field 48 e.index.toNat |||
           field 40 e.sub.toNat ||| field 32 e.kind ||| field 0 e.value.toNat])) t)) ∧
      (∀ op : Word16, exec (.unsupported via op) s = .next (if assignedOpcode via op.toNat then s else say .unsupported []))) ∧
    (s.carrierUp via = false → ∀ (first last op : Word16) (max : Nat),
      exec (.odList via first last) s = .next s ∧ exec (.eventRead via max) s = .next s ∧ exec (.unsupported via op) s = .next s)

/-- The receipt commands over a carrier whose commands are served (R415 to R417): FW_BEGIN opens a receipt of at most 16 MiB, FW_CHUNK appends
at the next offset, FW_COMMIT ends a whole receipt, and FW_ABORT gives it up; each is refused with 0705h otherwise, and a longer image
with 0708h. FW_FETCH over the mailbox and the completions of its reads (R415, R416): an accepted fetch is under way until its bytes have
come, and a read that fails ends the receipt with 0709h. -/
def Obligations.firmwareReceipt : Prop :=
  (∀ (via : Carrier) (s : State), s.carrierUp via = true →
     (∀ total : Word32, ∃ t, exec (.fwBegin via total) s = .next t ∧
       (if s.fw.fn ≠ .off then t = Safety.answered via .success [0x05, 0x07] s
        else if 16777216 < total.toNat then t = Safety.answered via .success [0x08, 0x07] s
        else Safety.Noted (Safety.answered via .success [0, 0] { s with fw := { s.fw with
          fn := .starting, phase := 1, received := [], total := total.toNat, owner := some via, fetching := none, sections := 0, code := 0 } }) t)) ∧
     (∀ (offset : Word32) (data : Bytes), data ≠ [] → data.length ≤ 16376 →
       (if s.fw.fn = .starting ∧ s.fw.phase = 1 ∧ s.fw.owner = some via ∧ s.fw.fetching = none ∧
           offset.toNat = s.fw.received.length ∧ s.fw.received.length + data.length ≤ s.fw.total
        then exec (.fwChunk via offset data) s =
          .next (Safety.answered via .success [0, 0] { s with fw := { s.fw with received := s.fw.received ++ data } })
        else exec (.fwChunk via offset data) s = .next (Safety.answered via .success [0x05, 0x07] s))) ∧
     (if s.fw.fn = .starting ∧ s.fw.phase = 1 ∧ s.fw.owner = some via ∧ s.fw.fetching = none ∧ s.fw.received.length = s.fw.total
      then exec (.fwCommit via) s = .next (Safety.answered via .success [0, 0] { s with fw := { s.fw with phase := 2 } })
      else exec (.fwCommit via) s = .next (Safety.answered via .success [0x05, 0x07] s)) ∧
     (∃ t, exec (.fwAbort via) s = .next t ∧
       (if s.fw.fn = .starting ∧ s.fw.owner = some via
        then Safety.Noted (Safety.answered via .success [0, 0] { s with fw := { s.fw with
          fn := .off, phase := 0, received := [], total := 0, owner := none, fetching := none } }) t
        else t = Safety.answered via .success [0x05, 0x07] s))) ∧
  (∀ s : State,
     (∀ (addr : Word64) (len : Word32), s.carrierUp .mailbox = true → s.fw.fn = .starting → s.fw.phase = 1 → s.fw.owner = some .mailbox →
       s.fw.fetching = none → s.fw.received.length + len.toNat ≤ s.fw.total → len ≠ 0 →
       ∃ t, exec (.fwFetch .mailbox addr len) s = .next t ∧
         Safety.Noted (Safety.answered .mailbox .success [0, 0] { s with fw := { s.fw with fetching := some len.toNat } }) t) ∧
     (∀ (via : Carrier) (addr : Word64) (len : Word32), via ≠ .mailbox → s.carrierUp via = true →
       exec (.fwFetch via addr len) s = .next (Safety.answered via .unsupported [] s)) ∧
     (∀ (data : Bytes) (n : Nat), s.hubUp = true → s.hostPath = true → s.fw.fetching = some n →
       exec (.fwFetchCompletion data true) s = .next { s with fw := { s.fw with
         received := s.fw.received ++ data.take n, fetching := if n ≤ data.length then none else some (n - data.length) } } ∧
       ∃ t, exec (.fwFetchCompletion data false) s = .next t ∧
         Safety.Noted { s with fw := { s.fw with fn := .off, phase := 5, code := 0x709, owner := none, fetching := none } } t))

/-- The verification of a committed image ends (R418, R419): with no failing check the firmware is Ready with the image's security version,
digest and result ABI; with one the receipt ends with its code, and the firmware is Off. -/
def Obligations.firmwareVerify : Prop :=
  ∀ s : State, s.hubUp = true → s.fw.fn = .starting → s.fw.phase = 2 →
    (fwCheck s.fw.received s.fw.floor = 0 → ∃ t, exec .fwVerifyEnd s = .next t ∧
      t.fw.fn = .ready ∧ t.fw.phase = 4 ∧ t.fw.code = 0 ∧ t.fw.floor = s.fw.floor ∧ t.fw.digest = Config.sha3 (s.fw.received.drop 2880) ∧
      t.fw.secver = (word (wordsOf 8 ((s.fw.received.drop 2880).take 64)) 1).setWidth 32 ∧
      t.hub.resultAbi = (word (wordsOf 8 ((s.fw.received.drop 2880).take 64)) 2).extractLsb' 32 32 ∧
      t.rings = s.rings ∧ t.slots = s.slots ∧ t.cores = s.cores ∧ t.mem = s.mem ∧ t.flash = s.flash ∧ t.ident = s.ident) ∧
    (fwCheck s.fw.received s.fw.floor ≠ 0 → ∃ t, exec .fwVerifyEnd s = .next t ∧
      Safety.Noted { s with fw := { s.fw with
        fn := .off, phase := 5, code := fwCheck s.fw.received s.fw.floor, owner := none, fetching := none } } t)

/-- The attestation answers (R423, R425 to R428, R442): a port without an identity, in factory test mode or out of order answers ERROR;
version, capabilities, algorithms, digests, the certificate chain in slot 0 and measurements are answered; a signed answer takes the next
leaf, within the rate, and no answer is signed once SIGNING_CODE is not 0. (The numbers of messages and errors are presumed, log 34.)
Sessions and the keys of IDE (R390, R425): at most 4 sessions; a session serves its port alone, opens for requests with a good FINISH and
is gone with a bad one or at its end; IDE_KM and CXL_IDE_KM set the bits of IDE_STATE. -/
def Obligations.attestationAndSessions : Prop :=
  (∀ (p : SpdmPort) (s : State),
     let say := fun (m : Bytes) (s : State) => { s with ident := { s.ident with answers := tset [] s.ident.answers (portNum p) m } }
     let level := fun (n : Nat) (s : State) => { s with ident := { s.ident with negotiated := tset 0 s.ident.negotiated (portNum p) n } }
     let error := fun n : Nat => ([0x13, 0x7F, BitVec.ofNat 8 n, 0] : Bytes)
     let now := tget 0 s.ident.negotiated (portNum p)
     (∀ (off len idx : Nat) (signed flash : Bool) (nonce : Bytes),
       ∀ r ∈ [(0, Instr.getVersion p), (1, .getCapabilities p), (2, .negotiateAlgorithms p), (3, .getDigests p), (3, .getCertificate p 0 off len),
         (3, .challenge p nonce flash), (3, .getMeasurements p idx signed nonce flash)],
         (s.spdmUp p = false → exec r.2 s = .next s) ∧
         (s.spdmUp p = true → s.ident.pufState ≠ 2 ∨ s.faults.factory = true → exec r.2 s = .next (say (error 5) s)) ∧
         (s.spdmUp p = true → s.ident.pufState = 2 → s.faults.factory = false → now < r.1 → exec r.2 s = .next (say (error 4) s))) ∧
     (s.spdmUp p = true → s.ident.pufState = 2 → s.faults.factory = false →
       exec (.getVersion p) s = .next (say [0x10, 4, 0, 0, 0, 1, 0, 0x13] (level 1 s)) ∧
       (1 ≤ now → exec (.getCapabilities p) s = .next (say ([0x13, 0x61, 0, 0] ++ Config.spdmCapabilities) (level (max 2 now) s))) ∧
       (2 ≤ now → exec (.negotiateAlgorithms p) s = .next (say ([0x13, 0x63, 0, 0] ++ Config.spdmAlgorithms) (level 3 s))) ∧
       (3 ≤ now →
         exec (.getDigests p) s = .next (say ([0x13, 1, 0, 1] ++ fit 48 (Config.sha3 s.flash.certChain)) s) ∧
         (∀ off len : Nat, off ≤ s.flash.certChain.length →
           (let part := (s.flash.certChain.drop off).take len
            exec (.getCertificate p 0 off len) s = .next (say ([0x13, 2, 0, 0] ++ (leBytes 2 part.length ++
              leBytes 2 (s.flash.certChain.length - off - part.length) ++ part)) s))) ∧
         (∀ k off len : Nat, k ≠ 0 ∨ s.flash.certChain.length < off → exec (.getCertificate p k off len) s = .next (say (error 1) s)) ∧
         (∀ (idx : Nat) (nonce : Bytes) (flash : Bool), idx ≤ 5 ∨ idx = 0xFF →
           exec (.getMeasurements p idx false nonce flash) s = .next (say (s.measurements idx) s)) ∧
         (∀ (idx : Nat) (signed flash : Bool) (nonce : Bytes), 5 < idx → idx ≠ 0xFF →
           exec (.getMeasurements p idx signed nonce flash) s = .next (say (error 1) s)) ∧
         (∀ (nonce : Bytes) (flash : Bool), ∀ c ∈ [(Instr.challenge p nonce flash, fun s : State => spdmMsg 3 0 1 s.certDigest)] ++
             ((List.range 6 ++ [0xFF]).map fun i => (Instr.getMeasurements p i true nonce flash, fun s : State => s.measurements i)),
           (s.ident.code ≠ 0 → exec c.1 s = .next (say (error 5) s)) ∧
           (s.ident.code = 0 → s.ident.maxRate ≤ s.signedLately.length → exec c.1 s = .next (say (error 3) s)) ∧
           (s.ident.code = 0 → s.signedLately.length < s.ident.maxRate →
             (let sent := fun (s : State) => c.2 s ++ s.freeNonce
              let sign := fun (s : State) => say (sent s ++ fit 18469 (Config.attestSign s.ident.seed (s.ident.leafNext - 1) (nonce ++ sent s)))
                (s.modHub fun h => { h with freeUsed := h.freeUsed + 4 })
              let take := fun s : State => { s with ident := { s.ident with
                leafNext := s.ident.leafNext + 1, signatures := s.ident.signatures + 1, signTimes := s.signedLately ++ [s.time] } }
              (s.ident.leafNext ≠ s.ident.leafLimit → exec c.1 s = .next (sign (take s))) ∧
              (s.ident.leafNext = s.ident.leafLimit → s.ident.leafLimit < 2 ^ 40 → flash = true → exec c.1 s = .next (sign (take { s with
                flash := { s.flash with leafLimit := s.flash.leafLimit + 1024, count := s.flash.count + 1, counter := s.flash.counter + 1 }
                ident := { s.ident with leafLimit := s.ident.leafLimit + 1024 } }))) ∧
              (s.ident.leafNext = s.ident.leafLimit → 2 ^ 40 ≤ s.ident.leafLimit ∨ flash = false → ∃ u, exec c.1 s = .next (say (error 5) u) ∧
                Safety.Noted { s with ident := { s.ident with code := 0x706 } } u))))))) ∧
  (∀ (p : SpdmPort) (s : State), s.spdmUp p = true → s.ident.pufState = 2 → s.faults.factory = false →
     tget 0 s.ident.negotiated (portNum p) = 3 →
     let say := fun (m : Bytes) (s : State) => { s with ident := { s.ident with answers := tset [] s.ident.answers (portNum p) m } }
     let error := fun n : Nat => ([0x13, 0x7F, BitVec.ofNat 8 n, 0] : Bytes)
     let sessions := fun (l : List Session) (s : State) => { s with ident := { s.ident with sessions := l } }
     (∀ (pub : Bytes) (flash : Bool),
       (4 ≤ s.ident.sessions.length → exec (.keyExchange p pub flash) s = .next (say (error 0xA) s)) ∧
       (s.ident.sessions.length < 4 → s.ident.code = 0 → s.signedLately.length < s.ident.maxRate → s.ident.leafNext ≠ s.ident.leafLimit →
         ∃ t, exec (.keyExchange p pub flash) s = .next t ∧ t.ident.leafNext = s.ident.leafNext + 1 ∧
           t.ident.sessions = s.ident.sessions ++ [⟨s.ident.nextSession, p, false, 0⟩] ∧ t.ident.nextSession = s.ident.nextSession + 1 ∧
           { t with ident := s.ident, hub := s.hub } = s)) ∧
     (∀ (n : Nat) (x : Session) (verify : Bytes) (k : Nat) (on containment : Bool), s.ident.sessions.find? (fun x => x.id = n && x.port = p) = some x →
       (x.ready = true → exec (.finish p n verify) s = .next (say (error 4) s)) ∧
       (x.ready = false →
         (Config.finishOk n verify = true → exec (.finish p n verify) s = .next (say [0x13, 0x65, 0, 0]
           (sessions (s.ident.sessions.map fun x => if x.id = n then { x with ready := true } else x) s))) ∧
         (Config.finishOk n verify = false → exec (.finish p n verify) s = .next (say (error 6) (sessions (s.ident.sessions.filter fun x => x.id ≠ n) s))) ∧
         ∀ c ∈ [Instr.heartbeat p n, .keyUpdate p n, .endSession p n], exec c s = .next (say (error 4) s)) ∧
       (x.ready = true →
         exec (.heartbeat p n) s = .next (say [0x13, 0x68, 0, 0] s) ∧
         exec (.keyUpdate p n) s = .next (say [0x13, 0x69, 0, 0]
           (sessions (s.ident.sessions.map fun x => if x.id = n then { x with keyGen := x.keyGen + 1 } else x) s)) ∧
         exec (.endSession p n) s = .next (say [0x13, 0x6C, 0, 0] (sessions (s.ident.sessions.filter fun x => x.id ≠ n) s)) ∧
         (p = .doe →
           (2 < k → exec (.ideKm n k on) s = .next (say (error 1) s)) ∧
           (k ≤ 2 → ∃ bits : Byte, exec (.ideKm n k on) s = .next (say (spdmMsg 0x7E 0 0 (Config.ideAnswer k on)) (s.modHost fun h => { h with ideState := bits })) ∧
             ∀ b < 8, bits.getLsbD b = if b = k then on else s.host.ideState.getLsbD b) ∧
           (∃ bits : Byte, exec (.cxlIdeKm n on containment) s = .next (say (spdmMsg 0x7E 0 0 (Config.ideAnswer 3 on)) (s.modHost fun h => { h with ideState := bits })) ∧
             ∀ b < 8, bits.getLsbD b = if b = 3 then on else if b = 4 then on && containment else s.host.ideState.getLsbD b)))) ∧
     (∀ (n : Nat) (verify : Bytes), s.ident.sessions.find? (fun x => x.id = n && x.port = p) = none →
       ∀ c ∈ [Instr.finish p n verify, .heartbeat p n, .keyUpdate p n, .endSession p n], exec c s = .next (say (error 2) s)))

/-- Power and resets (R408, R474, R476, R477, R481): the rails come up unless a thermal shutdown holds the module off; a power fault, a
thermal shutdown and PERST# put the device to its state after reset but for the module's own pins, its flash, the queue and what the host
holds. -/
def Obligations.moduleResets : Prop :=
  ∀ s : State,
    (s.module.powered = false → s.module.latchedOff = false →
      exec .powerOn s = .next { s with module := { s.module with powered := true } }) ∧
    (s.module.latchedOff = true → exec .powerOn s = .next s) ∧
    (∀ r ∈ [(Instr.perstAssert, ({ powered := s.module.powered, latchedOff := s.module.latchedOff, perst := true } : Module)),
            (Instr.powerFault, { perst := s.module.perst, latchedOff := false }),
            (Instr.thermalShutdown, { perst := s.module.perst, latchedOff := true })],
      (r.1 = .thermalShutdown → s.module.powered = true) →
      ∃ t, exec r.1 s = .next t ∧ t.pending = s.pending ∧ t.flash = s.flash ∧ t.module = r.2 ∧ t.host.hostMem = s.host.hostMem ∧
        { t with
          pending := [], flash := State.reset.flash, module := State.reset.module
          host := { t.host with hostMem := [] }, hub := { t.hub with freeUsed := 0 } } = State.reset)

/-- The release of PERST# runs the boot ROM (R20, R408, R409, R423, R428, R442): straps and the measured delays of the beacon tree are taken,
and with a good ROM image the hub serves; a seed gives the identity and the record in flash the floor and the leaves, no seed 0707h, a bad
record 0706h and the highest floor. -/
def Obligations.bootRom : Prop :=
  ∀ (b : BootIn) (s : State), s.module.powered = true → s.module.perst = true →
    (let u : State := (b.delays.filter fun d => (islandType d.1).isSome).foldl (fun s d => s.modIsland d.1 fun x => { x with delay := d.2 })
      { s with
        module := { s.module with perst := false, ids := b.ids }
        faults := { s.faults with factory := b.ftm } }
     (b.romOk = false → exec (.perstRelease b) s = .next u) ∧
     (b.romOk = true → b.seed = none → ∃ floor t, exec (.perstRelease b) s = .next t ∧
      Safety.Noted { u with
        ident := { s.ident with served := true, romDigest := fit 48 Config.romDigest, pufState := 3, code := 0x707 }
        fw := { s.fw with floor := floor }
        hub := { s.hub with freeUsed := s.hub.freeUsed + 1 } } t) ∧
     (∀ d, b.romOk = true → b.seed = some d → ∃ t, exec (.perstRelease b) s = .next t ∧
      (let id : Identity := { s.ident with
        served := true, romDigest := fit 48 Config.romDigest, pufState := 2, seed := d, pubkey := fit 68 (Config.attestKey d)
        uid := fit 32 (Config.shake256 ([0x4B, 0x51, 0x2D, 0x55, 0x49, 0x44] ++ Config.attestKey d) 32), code := 0x706 }
       if s.flash.macOk = true ∧ s.flash.count = s.flash.counter
       then Safety.Noted { u with
          ident := { id with code := 0, leafLimit := s.flash.leafLimit, leafNext := s.flash.leafLimit }
          fw := { s.fw with floor := s.flash.fwFloor } } t
       else Safety.Noted { u with ident := id, fw := { s.fw with floor := 0xFFFFFFFF } } t)))

/-- The host link (R386, R397, R407, R411, R432, R434, R435): a link that comes up has its rate and width, and what waited goes out; one that
goes down is a fault 0840h of the host island; an unmasked vector sends what is pending. The sideband's addresses, MCTP control and DOE
(R386, R392, R400, R467): each message is answered on its binding, an assigned address or endpoint id is kept. -/
def Obligations.hostLinkAndSideband : Prop :=
  (∀ s : State,
     (∀ flit256 : Bool, s.inService idHost = true → s.linkUp = false → ∃ t u, exec (.hostLinkUp flit256) s = .next t ∧
       t = failCut (flushHost u) ∧ Safety.Noted { s with host := { s.host with
         linkState := if flit256 then 2 else 3
         linkRate := if flit256 then 64 else 32
         linkWidth := 8
         retrains := if s.host.linkRate = 0 then s.host.retrains else s.host.retrains + 1 } } u) ∧
     (∀ aer : Word32, s.linkUp = true → s.alive = true → twf {} s.islands = true → ∃ t, exec (.hostLinkDown aer) s = .next t ∧
       Safety.Faulted idHost 0x840 aer 0 s t ∧ t.host.linkState = 0) ∧
     (∀ v : Nat, v < 2 → s.reaches .mailbox = true → ∃ t, exec (.vectorUnmask v) s = .next t ∧
       Safety.Noted { s with host := { s.host with unmasked := tset false s.host.unmasked v true } } t ∧
       (s.hostUp = true → t.host.sentMsi =
         if tget false s.host.pendingV v then tset 0 s.host.sentMsi v (tget 0 s.host.sentMsi v + 1) else s.host.sentMsi))) ∧
  (∀ s : State,
     (∀ static dynamic : BitVec 7, s.alive = true → s.ident.served = true →
       exec (.setdasa static dynamic) s = .next (if static.toNat = 0x30 + s.module.ids.toNat
         then { s with host := { s.host with i3cAddr := dynamic.setWidth 8 } } else s) ∧
       exec (.entdaa dynamic) s = .next (if s.host.i3cAddr = 0 then { s with host := { s.host with i3cAddr := dynamic.setWidth 8 } } else s)) ∧
     (∀ (via : Carrier) (b : Nat), binding via = some b → s.carrierUp via = true →
       (let said := fun (r : Bytes) (h : HostIf) => { s with host := { h with mctp := tset [] h.mctp b r } }
        (∀ eid : Byte, exec (.setEndpointId via eid) s = .next (if eid = 0 ∨ eid = 0xFF then said [2] s.host
           else said [0, 0, eid, 0] (if via = .i3c then { s.host with eidI3c := eid } else { s.host with eidPci := eid }))) ∧
        exec (.getEndpointId via) s = .next (said [0, if via = .i3c then s.host.eidI3c else s.host.eidPci, 0, 0] s.host) ∧
        exec (.getMctpVersionSupport via) s = .next (said (0 :: Config.mctpVersions) s.host) ∧
        exec (.getMessageTypeSupport via) s = .next (said (if via = .i3c then [0, 2, 5, 0x7E] else [0, 1, 0x7E]) s.host))) ∧
     (∀ n : Nat, s.reaches .mailbox = true → s.hubUp = true →
       (∃ t, exec (.doeDiscovery n) s = .next t ∧ { t with host := { t.host with doe := s.host.doe } } = s ∧ t.host.doe.length = 4 ∧
         (n + 1 < 4 → t.host.doe.getD 3 0 = BitVec.ofNat 8 (n + 1)) ∧ (4 ≤ n + 1 → t.host.doe.getD 3 0 = 0)) ∧
       (∃ t, exec (.cdatTableAccess n) s = .next t ∧ { t with host := { t.host with doe := s.host.doe } } = s ∧
         (n < 5 → t.host.doe.length = 28) ∧
         t.host.doe.take 4 = [0, 0] ++ leBytes 2 (if n + 1 < 5 then n + 1 else 0xFFFF))) ∧
     (∀ addr : Word64, s.hostUp = true → exec (.hostSnoop addr) s = .next { s with host := { s.host with snoopAnswer := some addr } }))

/-- What raises a fault by itself (R22, R432, R443): a watchdog, a lost clock, an uncorrectable error, a missing beacon, an injection that is
due. The collector takes a notice (R439 to R441): FAULT_COUNT and LAST_FAULT say it, and the first one on an armed collector is captured
with a message on vector 0, later ones are counted. A faulted island's return (R435, R437): one that R437 holds back is held off and its
function is Off; any other goes back towards service, at once where no function of its own has to start. The hub never returns by itself. -/
def Obligations.faultsAreRaisedAndCollected : Prop :=
  (∀ (i : Nat) (ty : IslandType) (s : State), s.alive = true → islandType i = some ty → twf {} s.islands = true →
     (∀ pc : Word32, if ty.controls then ∃ t, exec (.watchdogTimeout i pc) s = .next t ∧ Safety.Faulted i 0x802 pc 0 s t
       else exec (.watchdogTimeout i pc) s = .next s) ∧
     (∃ t, exec (.clockLockLoss i) s = .next t ∧ Safety.Faulted i 0x804 0 0 s t) ∧
     (let silent := i ≠ idHub ∧ 3000 ≤ (s.time - (s.island i).heard).toNat
      (silent → ∃ t, exec (.beaconMissing i) s = .next t ∧ Safety.Faulted i 0x810 0x80000000 0 s t) ∧
      (¬ silent → exec (.beaconMissing i) s = .next s)) ∧
     (∀ status : Word32, ∃ t, exec (.aerUncorrectableError status) s = .next t ∧ Safety.Faulted idHost 0x840 status 0 s t) ∧
     (s.fiDue = true → s.faults.fiIsland.toNat = i → ∃ t, exec .fiFire s = .next t ∧
       Safety.Faulted i s.faults.fiCode s.faults.fiDetail 0 { s with faults := { s.faults with fiArmed := false } } t)) ∧
  (∀ (r : FaultRec) (s : State), s.alive = true → nextNotice s.faults.notices = some r →
     ∃ t hist, exec .faultNoticeArrival s = .next t ∧
       Safety.Noted { s with faults := { s.faults with
         notices := s.faults.notices.erase r
         count := s.faults.count + 1
         last := some { r with hubTime := s.time }
         captured := true
         first := if s.faults.captured then s.faults.first else some { r with hubTime := s.time }
         since := if s.faults.captured then s.faults.since + 1 else s.faults.since
         history := hist } } t ∧
       hist = (if s.faults.captured then s.faults.history
         else (s.faults.history ++ [(⟨r.time, r.island, r.code, r.detail⟩ : HistEntry)]).drop (s.faults.history.length + 1 - 32))) ∧
  (∀ (i : Nat) (s : State), s.alive = true → twf {} s.islands = true → (s.island i).service = .safe → i ≠ idHub →
     (s.heldBack i = true → ∃ t, exec (.islandReturn i) s = .next t ∧
       Safety.Still (s.modIsland i fun x => { x with service := .heldOff }) t) ∧
     (s.heldBack i = false → s.returnsLater i = true →
       exec (.islandReturn i) s = .next (s.modIsland i fun x => { x with service := .returning })) ∧
     (s.heldBack i = false → s.returnsLater i = false → ∃ t, exec (.islandReturn i) s = .next t ∧
       (t.island i).service = .serving ∧ (t.island i).wasStarting = false ∧ ∀ j, j ≠ i → (t.island j).service = (s.island j).service))

/-- The state-memory scrub (R247, R248): one flipped bit of a byte is corrected and counted, more are a fault 0830h of the island, of the hub
for the section store (R436). R457: a wrap of a counter whose LAP_NOTIFY bit is set queues event kind 3 with the counter's index and
subindex and the low bits of its value; and a wrap sets the lap flag (R456). SAMPLE_TAG (R459): the request that brought the hub's count
to 0 is tagged, and the hub draws its next interval. -/
def Obligations.scrubsWrapsAndTags : Prop :=
  (∀ (i cls addr : Nat) (s : State), s.alive = true → twf {} s.islands = true → s.coreE.scrubPeriod ≠ 0 →
     (let e := popCount 13 (s.byteErr i cls addr)
      let i' := if cls = 10 then idHub else i
      let clean := setByteErr i cls addr 0 s
      (e = 0 → exec (.stateMemoryScrub i cls addr) s = .next s) ∧
      (e = 1 → ∃ t, exec (.stateMemoryScrub i cls addr) s = .next t ∧ Safety.Still s t ∧
       t.coreE = { clean.coreE with stateCorrected := s.coreE.stateCorrected + 1 } ∧ t.cores = clean.cores) ∧
      (2 ≤ e → (islandType i').isSome = true → ∃ t, exec (.stateMemoryScrub i cls addr) s = .next t ∧
       Safety.Faulted i' 0x830 (field 28 cls ||| field 0 (addr % 2 ^ 28)) 0 clean t))) ∧
  (∀ (i c : Nat) (s : State), s.alive = true → s.ident.served = true → c ≤ 2 → 2 ^ 56 ≤ cyclesAt i s.time.toNat →
     ∃ t, exec (.counterWrap i c) s = .next t ∧
       (let w := s.modIsland i fun x => { x with ctrs := tmod {} x.ctrs c fun k => { k with lap := true } }
        (tget false s.sampling.notify (16 * i + c) = false → t = w) ∧
        (tget false s.sampling.notify (16 * i + c) = true → bit s.host.eventMask 3 = true → s.host.events.length < 256 →
         t.host.events = s.host.events ++ [(⟨s.time, BitVec.ofNat 16 (0x5100 + i), BitVec.ofNat 8 (c + 1), 3, 0⟩ : Event)] ∧
         Safety.Noted w t))) ∧
  (∀ (h : Word32) (s : State), s.alive = true →
     (∀ k, s.sampling.due = some k →
       exec (.sampleTag idHub h) s = .next (drawInterval idHub ({ s with sampling := { s.sampling with due := none } }.modSlot k fun x =>
         { x with tagged := true }))) ∧
     (s.sampling.due = none → exec (.sampleTag idHub h) s = .next s) ∧
     (∀ k, k < 256 → (s.core k).samples.any (·.due) = true →
       exec (.sampleTag k h) s = .next (drawInterval k (s.modCore k fun c => { c with samples := c.samples.map fun x => { x with due := false } }))))

/-- Sensors and beacons, one reading after the other (R20, R22, R24, R480): a temperature is kept with the highest, and at 105 °C is a fault
0803h; the difference of a copy and of a beacon's time plus the copy's measured delay is corrected over the next 1,000 ns, beyond 2 ns it
is a fault 0810h, and else the largest is kept in eighths of a nanosecond. How the correction is spread and what drifts are the model's
choices (logs 4 and 5). The power limiter (R478): a report that triggers it raises the frozen fraction by a 64th up to 48, and ten in a
row that do not lower it by one. -/
def Obligations.sensorsAndPower : Prop :=
  (∀ (i : Nat) (s : State), s.alive = true → twf {} s.islands = true →
     (∀ (v : Int) (rest : List (Nat × Int)), ∃ u, exec (.tempSample [(i, v)]) s = .next u ∧
       (u.alive = true → exec (.tempSample ((i, v) :: rest)) s = exec (.tempSample rest) u) ∧
       ((islandType i).isSome = true → (let w := s.modIsland i fun x => { x with temp := v, hottest := max x.hottest v }
         if 840 ≤ v then Safety.Faulted i 0x803 (BitVec.ofInt 32 v) 0 w u else u = w)) ∧
       (i = 0x140 → u = { s with module := { s.module with coolantIn := v } }) ∧
       (i = 0x141 → u = { s with module := { s.module with coolantOut := v } })) ∧
     exec (.beacon []) s = .next s ∧
     (∀ (a : BeaconArrival) (rest : List BeaconArrival), a.island = i → s.time.toNat % 1000 = 0 →
       ∃ u, exec (.beacon [a]) s = .next u ∧ exec (.beacon (a :: rest)) s = exec (.beacon rest) u ∧
         ((islandType i).isNone = true ∨ i = idHub → u = s) ∧
         ((islandType i).isSome = true → i ≠ idHub →
           (let d := (s.island i).offset + a.transit - (s.island i).delay
            let w := s.modIsland i fun x => { x with fix := -d, fixLeft := 1000, drift := a.drift, heard := s.time }
            if 2 * 65536 < d.natAbs then Safety.Faulted i 0x810 (BitVec.ofInt 32 (Int.tdiv d 8192)) 0 w u
            else u = if s.hub.skewWorst.toNat < d.natAbs / 8192
             then w.modHub fun h => { h with skewWorst := BitVec.ofNat 16 (d.natAbs / 8192), skewIsland := BitVec.ofNat 16 i } else w))) ∧
     (∀ l : List BeaconArrival, s.time.toNat % 1000 ≠ 0 → exec (.beacon l) s = .next s)) ∧
  (∀ (p1 p100 mv : Nat) (s : State), s.hubUp = true → ∃ t, exec (.powerReport p1 p100 mv) s = .next t ∧
     { t with module := s.module } = s ∧ t.module.p1 = p1 ∧ t.module.p100 = p100 ∧ t.module.inputMv = mv ∧
     t.module.peak = max s.module.peak p1 ∧
     (let hot := 1400 < p1 ∨ 1000 ≤ t.module.over1200 ∨ 1200 < p100
      (hot → t.module.fraction = min 48 (s.module.fraction + 1) ∧ t.module.sinceLower = 0) ∧
      (¬ hot → 9 ≤ s.module.sinceLower → t.module.fraction = s.module.fraction - 1 ∧ t.module.sinceLower = 0) ∧
      (¬ hot → s.module.sinceLower < 9 → t.module.fraction = s.module.fraction ∧ t.module.sinceLower = s.module.sinceLower + 1)) ∧
     t.module.over1200 = (if 1200 < p1 then s.module.over1200 + 1 else 0))

end
end

