-- ==== Sys2Proof/Laws/Table.lean ====
section
/-! SUPPORT. Laws of tables and memories: what a read finds after a write, and that every write keeps the canonical form. -/

namespace Sys2Proof.Machine

variable {α : Type} [DecidableEq α] {d : α}

/-! ### Read after write -/

theorem tget_of_lt_head {lo : Nat} {t : Table α} (h : twfFrom d (some lo) t = true) {k : Nat} (hk : k ≤ lo) : tget d t k = d := by
  induction t generalizing lo with
  | nil => rfl
  | cons e t ih =>
    obtain ⟨k', v⟩ := e
    simp only [twfFrom, Bool.and_eq_true, decide_eq_true_eq] at h
    have : k' ≠ k := by omega
    simp only [tget, this, ↓reduceIte]
    exact ih h.2 (by omega)

theorem twfFrom_weaken {lo : Nat} {t : Table α} (h : twfFrom d (some lo) t = true) : twfFrom d none t = true := by
  cases t with
  | nil => rfl
  | cons e t =>
    simp only [twfFrom, Bool.and_eq_true, Bool.true_and] at h ⊢
    exact ⟨h.1.2, h.2⟩

theorem twfFrom_mono {a b : Nat} {t : Table α} (hab : a ≤ b) (h : twfFrom d (some b) t = true) : twfFrom d (some a) t = true := by
  cases t with
  | nil => rfl
  | cons e t =>
    simp only [twfFrom, Bool.and_eq_true, decide_eq_true_eq] at h ⊢
    exact ⟨⟨by omega, h.1.2⟩, h.2⟩

/-- Unit k after a write of unit k holds what was written. -/
theorem tget_tset_self {t : Table α} (h : twf d t = true) (k : Nat) (v : α) : tget d (tset d t k v) k = v := by
  induction t with
  | nil => by_cases hv : v = d <;> simp [tset, tget, hv]
  | cons e t ih =>
    obtain ⟨k', v'⟩ := e
    simp only [twf, twfFrom, Bool.and_eq_true, Bool.true_and] at h
    have ht : tget d t k' = d := tget_of_lt_head h.2 le_rfl
    by_cases h1 : k < k'
    · have hne : k' ≠ k := by omega
      have := tget_of_lt_head h.2 (k := k) (by omega)
      by_cases hv : v = d <;> simp [tset, tget, h1, hv, hne, this]
    · by_cases h2 : k = k'
      · subst h2; by_cases hv : v = d <;> simp [tset, tget, hv, ht]
      · have hne : k' ≠ k := fun e => h2 e.symm
        simp only [tset, h1, h2, ↓reduceIte, tget, hne]
        exact ih (twfFrom_weaken h.2)

/-- Every other unit is as it was. -/
theorem tget_tset_of_ne {t : Table α} {k j : Nat} (hj : j ≠ k) (v : α) : tget d (tset d t k v) j = tget d t j := by
  induction t with
  | nil => by_cases hv : v = d <;> simp [tset, tget, hv, Ne.symm hj]
  | cons e t ih =>
    obtain ⟨k', v'⟩ := e
    by_cases h1 : k < k'
    · by_cases hv : v = d <;> simp [tset, tget, h1, hv, Ne.symm hj]
    · by_cases h2 : k = k'
      · subst h2; by_cases hv : v = d <;> simp [tset, tget, hv, Ne.symm hj]
      · simp only [tset, h1, h2, ↓reduceIte, tget, ih]

theorem tget_tset {t : Table α} (h : twf d t = true) (k j : Nat) (v : α) :
    tget d (tset d t k v) j = if j = k then v else tget d t j := by
  split
  · next e => subst e; exact tget_tset_self h j v
  · next e => exact tget_tset_of_ne e v

theorem tget_tmod_self {t : Table α} (h : twf d t = true) (k : Nat) (f : α → α) : tget d (tmod d t k f) k = f (tget d t k) :=
  tget_tset_self h k _

theorem tget_tmod_of_ne {t : Table α} {k j : Nat} (hj : j ≠ k) (f : α → α) : tget d (tmod d t k f) j = tget d t j :=
  tget_tset_of_ne hj _

/-! ### The canonical form is kept -/

theorem twfFrom_tset {lo : Option Nat} {t : Table α} (h : twfFrom d lo t = true) (k : Nat) (v : α)
    (hk : ∀ l, lo = some l → l < k) : twfFrom d lo (tset d t k v) = true := by
  induction t generalizing lo with
  | nil => by_cases hv : v = d <;> cases lo <;> simp_all [tset, twfFrom]
  | cons e t ih =>
    obtain ⟨k', v'⟩ := e
    simp only [twfFrom, Bool.and_eq_true, decide_eq_true_eq] at h
    obtain ⟨⟨hlo, hv'⟩, ht⟩ := h
    unfold tset
    by_cases h1 : k < k'
    · rw [if_pos h1]
      by_cases hv : v = d
      · rw [if_pos hv]; simp only [twfFrom, Bool.and_eq_true, decide_eq_true_eq]; exact ⟨⟨hlo, hv'⟩, ht⟩
      · rw [if_neg hv]
        cases lo <;> simp_all [twfFrom]
    · rw [if_neg h1]
      by_cases h2 : k = k'
      · rw [if_pos h2]; subst h2
        by_cases hv : v = d
        · rw [if_pos hv]
          cases lo with
          | none => exact twfFrom_weaken ht
          | some l => exact twfFrom_mono (by have := hk l rfl; omega) ht
        · rw [if_neg hv]; cases lo <;> simp_all [twfFrom]
      · rw [if_neg h2]
        have := ih ht (by intro l hl; cases hl; omega)
        cases lo <;> simp_all [twfFrom]

theorem twf_tset {t : Table α} (h : twf d t = true) (k : Nat) (v : α) : twf d (tset d t k v) = true :=
  twfFrom_tset h k v (by simp)

theorem twf_tmod {t : Table α} (h : twf d t = true) (k : Nat) (f : α → α) : twf d (tmod d t k f) = true := twf_tset h k _

theorem twfFrom_tmap {lo : Option Nat} {t : Table α} (h : twfFrom d lo t = true) (f : Nat → α → α) :
    twfFrom d lo (tmap d f t) = true := by
  induction t generalizing lo with
  | nil => rfl
  | cons e t ih =>
    obtain ⟨k, v⟩ := e
    simp only [twfFrom, Bool.and_eq_true, decide_eq_true_eq] at h
    obtain ⟨⟨hlo, -⟩, ht⟩ := h
    unfold tmap
    split
    · refine ih ?_
      cases lo with
      | none => exact twfFrom_weaken ht
      | some l => simp only [decide_eq_true_eq] at hlo; exact twfFrom_mono (by omega) ht
    · have := ih ht
      cases lo <;> simp_all [twfFrom]

theorem twf_tmap {t : Table α} (h : twf d t = true) (f : Nat → α → α) : twf d (tmap d f t) = true := twfFrom_tmap h f

theorem twfFrom_filter {lo : Option Nat} {t : Table α} (h : twfFrom d lo t = true) (p : Nat × α → Bool) :
    twfFrom d lo (t.filter p) = true := by
  induction t generalizing lo with
  | nil => rfl
  | cons e t ih =>
    obtain ⟨k, v⟩ := e
    simp only [twfFrom, Bool.and_eq_true, decide_eq_true_eq] at h
    obtain ⟨⟨hlo, hv⟩, ht⟩ := h
    by_cases hp : p (k, v)
    · rw [List.filter_cons_of_pos hp]
      have := ih ht
      cases lo <;> simp_all [twfFrom]
    · rw [List.filter_cons_of_neg hp]
      refine ih ?_
      cases lo with
      | none => exact twfFrom_weaken ht
      | some l => simp only [decide_eq_true_eq] at hlo; exact twfFrom_mono (by omega) ht

theorem twf_filter {t : Table α} (h : twf d t = true) (p : Nat × α → Bool) : twf d (t.filter p) = true := twfFrom_filter h p

/-! ### Canonical tables are equal when their units are -/

/-- A canonical table is what its units are. -/
theorem twfFrom_ext {lo : Option Nat} {t u : Table α} (ht : twfFrom d lo t = true) (hu : twfFrom d lo u = true)
    (h : ∀ k, tget d t k = tget d u k) : t = u := by
  induction t generalizing lo u with
  | nil =>
    cases u with
    | nil => rfl
    | cons e u =>
      have := h e.1
      simp [twfFrom, tget] at hu this
      exact absurd this.symm hu.1.2
  | cons e t ih =>
    cases u with
    | nil =>
      have := h e.1
      simp [twfFrom, tget] at ht this
      exact absurd this ht.1.2
    | cons f u =>
      obtain ⟨k, v⟩ := e; obtain ⟨j, w⟩ := f
      simp only [twfFrom, Bool.and_eq_true, ne_eq, decide_eq_true_eq] at ht hu
      rcases Nat.lt_trichotomy k j with c | c | c
      · have := h k
        simp only [tget, ↓reduceIte, if_neg (Nat.ne_of_gt c), tget_of_lt_head hu.2 (Nat.le_of_lt c)] at this
        simp [this] at ht
      · subst c
        have hv := h k
        simp only [tget, ↓reduceIte] at hv
        subst hv
        congr 1
        refine ih ht.2 hu.2 fun i => ?_
        have := h i
        simp only [tget] at this
        by_cases hi : k = i
        · subst hi; rw [tget_of_lt_head ht.2 (Nat.le_refl _), tget_of_lt_head hu.2 (Nat.le_refl _)]
        · simpa [hi] using this
      · have := h j
        simp only [tget, ↓reduceIte, if_neg (Nat.ne_of_gt c), tget_of_lt_head ht.2 (Nat.le_of_lt c)] at this
        simp [← this] at hu

theorem twf_ext {t u : Table α} (ht : twf d t = true) (hu : twf d u = true) (h : ∀ k, tget d t k = tget d u k) : t = u :=
  twfFrom_ext ht hu h

theorem tset_tset {t : Table α} (h : twf d t = true) (k : Nat) (v w : α) : tset d (tset d t k v) k w = tset d t k w := by
  refine twf_ext (twf_tset (twf_tset h ..) ..) (twf_tset h ..) fun j => ?_
  rw [tget_tset (twf_tset h ..), tget_tset h, tget_tset h]
  split <;> rfl

theorem tmod_congr {α : Type} [DecidableEq α] {d : α} {t : Table α} {k : Nat} {f g : α → α} (h : f (tget d t k) = g (tget d t k)) :
    tmod d t k f = tmod d t k g := by unfold tmod; rw [h]

theorem tmod_tmod {t : Table α} (h : twf d t = true) (k : Nat) (f g : α → α) : tmod d (tmod d t k f) k g = tmod d t k fun x => g (f x) := by
  simp only [tmod]; rw [tset_tset h, tget_tset_self h]

/-! ### Memories -/

theorem memGet_memSet {m : List Host.Cell} (h : memWf m = true) (a b : Nat) (v : Byte) :
    memGet (memSet m a v) b = if b = a then v else memGet m b := tget_tset h a b v

theorem memWf_memSet {m : List Host.Cell} (h : memWf m = true) (a : Nat) (v : Byte) : memWf (memSet m a v) = true := twf_tset h a v

theorem memWf_memWrite {m : List Host.Cell} (h : memWf m = true) (a : Nat) (bs : Bytes) : memWf (memWrite m a bs) = true := by
  induction bs generalizing m a with
  | nil => exact h
  | cons b bs ih => exact ih (memWf_memSet h a b) (a + 1)

theorem memWf_memClear {m : List Host.Cell} (h : memWf m = true) (a n : Nat) : memWf (memClear m a n) = true := twf_filter h _

theorem memWf_filter {m : List Host.Cell} (h : memWf m = true) (p : Host.Cell → Bool) : memWf (m.filter p) = true := twf_filter h p

/-- A byte after a write of bytes: the byte written there, or what was there. -/
theorem memGet_memWrite {m : List Host.Cell} (h : memWf m = true) (a b : Nat) (bs : Bytes) :
    memGet (memWrite m a bs) b = if a ≤ b ∧ b < a + bs.length then bs.getD (b - a) 0 else memGet m b := by
  induction bs generalizing m a with
  | nil => simp only [memWrite, List.length_nil]; rw [if_neg (by omega)]
  | cons v bs ih =>
    simp only [memWrite, ih (memWf_memSet h a v), memGet_memSet h, List.length_cons]
    by_cases h1 : b = a
    · subst h1; rw [if_neg (by omega), if_pos rfl, if_pos (by omega)]; simp
    · by_cases h2 : a + 1 ≤ b ∧ b < a + 1 + bs.length
      · rw [if_pos h2, if_pos (by omega)]
        have : b - a = b - (a + 1) + 1 := by omega
        rw [this]; simp
      · rw [if_neg h2, if_neg h1, if_neg (by omega)]

end Sys2Proof.Machine
end

