-- ==== Sys2Proof/Laws/State.lean ====
section
/-! SUPPORT. What an update of one unit leaves as it was, field by field and unit by unit, and what the unit then holds. -/

namespace Sys2Proof.Machine

/-! ### modRing -/

section
variable (s : State) (n k : Nat) (f : Ring → Ring)

theorem modRing_rings : (s.modRing n f).rings = tmod {} s.rings n f := rfl
theorem ring_modRing (h : twf {} s.rings = true) : (s.modRing n f).ring n = f (s.ring n) := tget_tmod_self h n f
theorem ring_modRing_ne (h : k ≠ n) : (s.modRing n f).ring k = s.ring k := tget_tmod_of_ne h f
@[simp] theorem modRing_pending : (s.modRing n f).pending = s.pending := rfl
@[simp] theorem modRing_time : (s.modRing n f).time = s.time := rfl
@[simp] theorem modRing_hub : (s.modRing n f).hub = s.hub := rfl
@[simp] theorem modRing_slots : (s.modRing n f).slots = s.slots := rfl
@[simp] theorem modRing_corpora : (s.modRing n f).corpora = s.corpora := rfl
@[simp] theorem modRing_jobs : (s.modRing n f).jobs = s.jobs := rfl
@[simp] theorem modRing_publish : (s.modRing n f).publish = s.publish := rfl
@[simp] theorem modRing_scan : (s.modRing n f).scan = s.scan := rfl
@[simp] theorem modRing_vocabs : (s.modRing n f).vocabs = s.vocabs := rfl
@[simp] theorem modRing_templates : (s.modRing n f).templates = s.templates := rfl
@[simp] theorem modRing_texts : (s.modRing n f).texts = s.texts := rfl
@[simp] theorem modRing_text : (s.modRing n f).text = s.text := rfl
@[simp] theorem modRing_cores : (s.modRing n f).cores = s.cores := rfl
@[simp] theorem modRing_coreE : (s.modRing n f).coreE = s.coreE := rfl
@[simp] theorem modRing_mem : (s.modRing n f).mem = s.mem := rfl
@[simp] theorem modRing_pageMap : (s.modRing n f).pageMap = s.pageMap := rfl
@[simp] theorem modRing_stackT : (s.modRing n f).stackT = s.stackT := rfl
@[simp] theorem modRing_hbm : (s.modRing n f).hbm = s.hbm := rfl
@[simp] theorem modRing_models : (s.modRing n f).models = s.models := rfl
@[simp] theorem modRing_clusters : (s.modRing n f).clusters = s.clusters := rfl
@[simp] theorem modRing_serving : (s.modRing n f).serving = s.serving := rfl
@[simp] theorem modRing_tables : (s.modRing n f).tables = s.tables := rfl
@[simp] theorem modRing_tableE : (s.modRing n f).tableE = s.tableE := rfl
@[simp] theorem modRing_fabric : (s.modRing n f).fabric = s.fabric := rfl
@[simp] theorem modRing_links : (s.modRing n f).links = s.links := rfl
@[simp] theorem modRing_keyring : (s.modRing n f).keyring = s.keyring := rfl
@[simp] theorem modRing_traffic : (s.modRing n f).traffic = s.traffic := rfl
@[simp] theorem modRing_placement : (s.modRing n f).placement = s.placement := rfl
@[simp] theorem modRing_host : (s.modRing n f).host = s.host := rfl
@[simp] theorem modRing_flash : (s.modRing n f).flash = s.flash := rfl
@[simp] theorem modRing_fw : (s.modRing n f).fw = s.fw := rfl
@[simp] theorem modRing_ident : (s.modRing n f).ident = s.ident := rfl
@[simp] theorem modRing_islands : (s.modRing n f).islands = s.islands := rfl
@[simp] theorem modRing_faults : (s.modRing n f).faults = s.faults := rfl
@[simp] theorem modRing_sampling : (s.modRing n f).sampling = s.sampling := rfl
@[simp] theorem modRing_module : (s.modRing n f).module = s.module := rfl
@[simp] theorem slot_modRing : (s.modRing n f).slot k = s.slot k := rfl
@[simp] theorem corpus_modRing : (s.modRing n f).corpus k = s.corpus k := rfl
@[simp] theorem job_modRing : (s.modRing n f).job k = s.job k := rfl
@[simp] theorem vocab_modRing : (s.modRing n f).vocab k = s.vocab k := rfl
@[simp] theorem template_modRing : (s.modRing n f).template k = s.template k := rfl
@[simp] theorem textIsl_modRing : (s.modRing n f).textIsl k = s.textIsl k := rfl
@[simp] theorem core_modRing : (s.modRing n f).core k = s.core k := rfl
@[simp] theorem page_modRing : (s.modRing n f).page k = s.page k := rfl
@[simp] theorem stack_modRing : (s.modRing n f).stack k = s.stack k := rfl
@[simp] theorem model_modRing : (s.modRing n f).model k = s.model k := rfl
@[simp] theorem cluster_modRing : (s.modRing n f).cluster k = s.cluster k := rfl
@[simp] theorem tableSlot_modRing : (s.modRing n f).tableSlot k = s.tableSlot k := rfl
@[simp] theorem link_modRing : (s.modRing n f).link k = s.link k := rfl
@[simp] theorem island_modRing : (s.modRing n f).island k = s.island k := rfl

end

/-! ### modSlot -/

section
variable (s : State) (n k : Nat) (f : Slot → Slot)

theorem modSlot_slots : (s.modSlot n f).slots = tmod {} s.slots n f := rfl
theorem slot_modSlot (h : twf {} s.slots = true) : (s.modSlot n f).slot n = f (s.slot n) := tget_tmod_self h n f
theorem slot_modSlot_ne (h : k ≠ n) : (s.modSlot n f).slot k = s.slot k := tget_tmod_of_ne h f
@[simp] theorem modSlot_pending : (s.modSlot n f).pending = s.pending := rfl
@[simp] theorem modSlot_time : (s.modSlot n f).time = s.time := rfl
@[simp] theorem modSlot_hub : (s.modSlot n f).hub = s.hub := rfl
@[simp] theorem modSlot_rings : (s.modSlot n f).rings = s.rings := rfl
@[simp] theorem modSlot_corpora : (s.modSlot n f).corpora = s.corpora := rfl
@[simp] theorem modSlot_jobs : (s.modSlot n f).jobs = s.jobs := rfl
@[simp] theorem modSlot_publish : (s.modSlot n f).publish = s.publish := rfl
@[simp] theorem modSlot_scan : (s.modSlot n f).scan = s.scan := rfl
@[simp] theorem modSlot_vocabs : (s.modSlot n f).vocabs = s.vocabs := rfl
@[simp] theorem modSlot_templates : (s.modSlot n f).templates = s.templates := rfl
@[simp] theorem modSlot_texts : (s.modSlot n f).texts = s.texts := rfl
@[simp] theorem modSlot_text : (s.modSlot n f).text = s.text := rfl
@[simp] theorem modSlot_cores : (s.modSlot n f).cores = s.cores := rfl
@[simp] theorem modSlot_coreE : (s.modSlot n f).coreE = s.coreE := rfl
@[simp] theorem modSlot_mem : (s.modSlot n f).mem = s.mem := rfl
@[simp] theorem modSlot_pageMap : (s.modSlot n f).pageMap = s.pageMap := rfl
@[simp] theorem modSlot_stackT : (s.modSlot n f).stackT = s.stackT := rfl
@[simp] theorem modSlot_hbm : (s.modSlot n f).hbm = s.hbm := rfl
@[simp] theorem modSlot_models : (s.modSlot n f).models = s.models := rfl
@[simp] theorem modSlot_clusters : (s.modSlot n f).clusters = s.clusters := rfl
@[simp] theorem modSlot_serving : (s.modSlot n f).serving = s.serving := rfl
@[simp] theorem modSlot_tables : (s.modSlot n f).tables = s.tables := rfl
@[simp] theorem modSlot_tableE : (s.modSlot n f).tableE = s.tableE := rfl
@[simp] theorem modSlot_fabric : (s.modSlot n f).fabric = s.fabric := rfl
@[simp] theorem modSlot_links : (s.modSlot n f).links = s.links := rfl
@[simp] theorem modSlot_keyring : (s.modSlot n f).keyring = s.keyring := rfl
@[simp] theorem modSlot_traffic : (s.modSlot n f).traffic = s.traffic := rfl
@[simp] theorem modSlot_placement : (s.modSlot n f).placement = s.placement := rfl
@[simp] theorem modSlot_host : (s.modSlot n f).host = s.host := rfl
@[simp] theorem modSlot_flash : (s.modSlot n f).flash = s.flash := rfl
@[simp] theorem modSlot_fw : (s.modSlot n f).fw = s.fw := rfl
@[simp] theorem modSlot_ident : (s.modSlot n f).ident = s.ident := rfl
@[simp] theorem modSlot_islands : (s.modSlot n f).islands = s.islands := rfl
@[simp] theorem modSlot_faults : (s.modSlot n f).faults = s.faults := rfl
@[simp] theorem modSlot_sampling : (s.modSlot n f).sampling = s.sampling := rfl
@[simp] theorem modSlot_module : (s.modSlot n f).module = s.module := rfl
@[simp] theorem ring_modSlot : (s.modSlot n f).ring k = s.ring k := rfl
@[simp] theorem corpus_modSlot : (s.modSlot n f).corpus k = s.corpus k := rfl
@[simp] theorem job_modSlot : (s.modSlot n f).job k = s.job k := rfl
@[simp] theorem vocab_modSlot : (s.modSlot n f).vocab k = s.vocab k := rfl
@[simp] theorem template_modSlot : (s.modSlot n f).template k = s.template k := rfl
@[simp] theorem textIsl_modSlot : (s.modSlot n f).textIsl k = s.textIsl k := rfl
@[simp] theorem core_modSlot : (s.modSlot n f).core k = s.core k := rfl
@[simp] theorem page_modSlot : (s.modSlot n f).page k = s.page k := rfl
@[simp] theorem stack_modSlot : (s.modSlot n f).stack k = s.stack k := rfl
@[simp] theorem model_modSlot : (s.modSlot n f).model k = s.model k := rfl
@[simp] theorem cluster_modSlot : (s.modSlot n f).cluster k = s.cluster k := rfl
@[simp] theorem tableSlot_modSlot : (s.modSlot n f).tableSlot k = s.tableSlot k := rfl
@[simp] theorem link_modSlot : (s.modSlot n f).link k = s.link k := rfl
@[simp] theorem island_modSlot : (s.modSlot n f).island k = s.island k := rfl

end

/-! ### modCorpus -/

section
variable (s : State) (n k : Nat) (f : Corpus → Corpus)

theorem modCorpus_corpora : (s.modCorpus n f).corpora = tmod {} s.corpora n f := rfl
theorem corpus_modCorpus (h : twf {} s.corpora = true) : (s.modCorpus n f).corpus n = f (s.corpus n) := tget_tmod_self h n f
theorem corpus_modCorpus_ne (h : k ≠ n) : (s.modCorpus n f).corpus k = s.corpus k := tget_tmod_of_ne h f
@[simp] theorem modCorpus_pending : (s.modCorpus n f).pending = s.pending := rfl
@[simp] theorem modCorpus_time : (s.modCorpus n f).time = s.time := rfl
@[simp] theorem modCorpus_hub : (s.modCorpus n f).hub = s.hub := rfl
@[simp] theorem modCorpus_rings : (s.modCorpus n f).rings = s.rings := rfl
@[simp] theorem modCorpus_slots : (s.modCorpus n f).slots = s.slots := rfl
@[simp] theorem modCorpus_jobs : (s.modCorpus n f).jobs = s.jobs := rfl
@[simp] theorem modCorpus_publish : (s.modCorpus n f).publish = s.publish := rfl
@[simp] theorem modCorpus_scan : (s.modCorpus n f).scan = s.scan := rfl
@[simp] theorem modCorpus_vocabs : (s.modCorpus n f).vocabs = s.vocabs := rfl
@[simp] theorem modCorpus_templates : (s.modCorpus n f).templates = s.templates := rfl
@[simp] theorem modCorpus_texts : (s.modCorpus n f).texts = s.texts := rfl
@[simp] theorem modCorpus_text : (s.modCorpus n f).text = s.text := rfl
@[simp] theorem modCorpus_cores : (s.modCorpus n f).cores = s.cores := rfl
@[simp] theorem modCorpus_coreE : (s.modCorpus n f).coreE = s.coreE := rfl
@[simp] theorem modCorpus_mem : (s.modCorpus n f).mem = s.mem := rfl
@[simp] theorem modCorpus_pageMap : (s.modCorpus n f).pageMap = s.pageMap := rfl
@[simp] theorem modCorpus_stackT : (s.modCorpus n f).stackT = s.stackT := rfl
@[simp] theorem modCorpus_hbm : (s.modCorpus n f).hbm = s.hbm := rfl
@[simp] theorem modCorpus_models : (s.modCorpus n f).models = s.models := rfl
@[simp] theorem modCorpus_clusters : (s.modCorpus n f).clusters = s.clusters := rfl
@[simp] theorem modCorpus_serving : (s.modCorpus n f).serving = s.serving := rfl
@[simp] theorem modCorpus_tables : (s.modCorpus n f).tables = s.tables := rfl
@[simp] theorem modCorpus_tableE : (s.modCorpus n f).tableE = s.tableE := rfl
@[simp] theorem modCorpus_fabric : (s.modCorpus n f).fabric = s.fabric := rfl
@[simp] theorem modCorpus_links : (s.modCorpus n f).links = s.links := rfl
@[simp] theorem modCorpus_keyring : (s.modCorpus n f).keyring = s.keyring := rfl
@[simp] theorem modCorpus_traffic : (s.modCorpus n f).traffic = s.traffic := rfl
@[simp] theorem modCorpus_placement : (s.modCorpus n f).placement = s.placement := rfl
@[simp] theorem modCorpus_host : (s.modCorpus n f).host = s.host := rfl
@[simp] theorem modCorpus_flash : (s.modCorpus n f).flash = s.flash := rfl
@[simp] theorem modCorpus_fw : (s.modCorpus n f).fw = s.fw := rfl
@[simp] theorem modCorpus_ident : (s.modCorpus n f).ident = s.ident := rfl
@[simp] theorem modCorpus_islands : (s.modCorpus n f).islands = s.islands := rfl
@[simp] theorem modCorpus_faults : (s.modCorpus n f).faults = s.faults := rfl
@[simp] theorem modCorpus_sampling : (s.modCorpus n f).sampling = s.sampling := rfl
@[simp] theorem modCorpus_module : (s.modCorpus n f).module = s.module := rfl
@[simp] theorem ring_modCorpus : (s.modCorpus n f).ring k = s.ring k := rfl
@[simp] theorem slot_modCorpus : (s.modCorpus n f).slot k = s.slot k := rfl
@[simp] theorem job_modCorpus : (s.modCorpus n f).job k = s.job k := rfl
@[simp] theorem vocab_modCorpus : (s.modCorpus n f).vocab k = s.vocab k := rfl
@[simp] theorem template_modCorpus : (s.modCorpus n f).template k = s.template k := rfl
@[simp] theorem textIsl_modCorpus : (s.modCorpus n f).textIsl k = s.textIsl k := rfl
@[simp] theorem core_modCorpus : (s.modCorpus n f).core k = s.core k := rfl
@[simp] theorem page_modCorpus : (s.modCorpus n f).page k = s.page k := rfl
@[simp] theorem stack_modCorpus : (s.modCorpus n f).stack k = s.stack k := rfl
@[simp] theorem model_modCorpus : (s.modCorpus n f).model k = s.model k := rfl
@[simp] theorem cluster_modCorpus : (s.modCorpus n f).cluster k = s.cluster k := rfl
@[simp] theorem tableSlot_modCorpus : (s.modCorpus n f).tableSlot k = s.tableSlot k := rfl
@[simp] theorem link_modCorpus : (s.modCorpus n f).link k = s.link k := rfl
@[simp] theorem island_modCorpus : (s.modCorpus n f).island k = s.island k := rfl

end

/-! ### modJob -/

section
variable (s : State) (n k : Nat) (f : Job → Job)

theorem modJob_jobs : (s.modJob n f).jobs = tmod {} s.jobs n f := rfl
theorem job_modJob (h : twf {} s.jobs = true) : (s.modJob n f).job n = f (s.job n) := tget_tmod_self h n f
theorem job_modJob_ne (h : k ≠ n) : (s.modJob n f).job k = s.job k := tget_tmod_of_ne h f
@[simp] theorem modJob_pending : (s.modJob n f).pending = s.pending := rfl
@[simp] theorem modJob_time : (s.modJob n f).time = s.time := rfl
@[simp] theorem modJob_hub : (s.modJob n f).hub = s.hub := rfl
@[simp] theorem modJob_rings : (s.modJob n f).rings = s.rings := rfl
@[simp] theorem modJob_slots : (s.modJob n f).slots = s.slots := rfl
@[simp] theorem modJob_corpora : (s.modJob n f).corpora = s.corpora := rfl
@[simp] theorem modJob_publish : (s.modJob n f).publish = s.publish := rfl
@[simp] theorem modJob_scan : (s.modJob n f).scan = s.scan := rfl
@[simp] theorem modJob_vocabs : (s.modJob n f).vocabs = s.vocabs := rfl
@[simp] theorem modJob_templates : (s.modJob n f).templates = s.templates := rfl
@[simp] theorem modJob_texts : (s.modJob n f).texts = s.texts := rfl
@[simp] theorem modJob_text : (s.modJob n f).text = s.text := rfl
@[simp] theorem modJob_cores : (s.modJob n f).cores = s.cores := rfl
@[simp] theorem modJob_coreE : (s.modJob n f).coreE = s.coreE := rfl
@[simp] theorem modJob_mem : (s.modJob n f).mem = s.mem := rfl
@[simp] theorem modJob_pageMap : (s.modJob n f).pageMap = s.pageMap := rfl
@[simp] theorem modJob_stackT : (s.modJob n f).stackT = s.stackT := rfl
@[simp] theorem modJob_hbm : (s.modJob n f).hbm = s.hbm := rfl
@[simp] theorem modJob_models : (s.modJob n f).models = s.models := rfl
@[simp] theorem modJob_clusters : (s.modJob n f).clusters = s.clusters := rfl
@[simp] theorem modJob_serving : (s.modJob n f).serving = s.serving := rfl
@[simp] theorem modJob_tables : (s.modJob n f).tables = s.tables := rfl
@[simp] theorem modJob_tableE : (s.modJob n f).tableE = s.tableE := rfl
@[simp] theorem modJob_fabric : (s.modJob n f).fabric = s.fabric := rfl
@[simp] theorem modJob_links : (s.modJob n f).links = s.links := rfl
@[simp] theorem modJob_keyring : (s.modJob n f).keyring = s.keyring := rfl
@[simp] theorem modJob_traffic : (s.modJob n f).traffic = s.traffic := rfl
@[simp] theorem modJob_placement : (s.modJob n f).placement = s.placement := rfl
@[simp] theorem modJob_host : (s.modJob n f).host = s.host := rfl
@[simp] theorem modJob_flash : (s.modJob n f).flash = s.flash := rfl
@[simp] theorem modJob_fw : (s.modJob n f).fw = s.fw := rfl
@[simp] theorem modJob_ident : (s.modJob n f).ident = s.ident := rfl
@[simp] theorem modJob_islands : (s.modJob n f).islands = s.islands := rfl
@[simp] theorem modJob_faults : (s.modJob n f).faults = s.faults := rfl
@[simp] theorem modJob_sampling : (s.modJob n f).sampling = s.sampling := rfl
@[simp] theorem modJob_module : (s.modJob n f).module = s.module := rfl
@[simp] theorem ring_modJob : (s.modJob n f).ring k = s.ring k := rfl
@[simp] theorem slot_modJob : (s.modJob n f).slot k = s.slot k := rfl
@[simp] theorem corpus_modJob : (s.modJob n f).corpus k = s.corpus k := rfl
@[simp] theorem vocab_modJob : (s.modJob n f).vocab k = s.vocab k := rfl
@[simp] theorem template_modJob : (s.modJob n f).template k = s.template k := rfl
@[simp] theorem textIsl_modJob : (s.modJob n f).textIsl k = s.textIsl k := rfl
@[simp] theorem core_modJob : (s.modJob n f).core k = s.core k := rfl
@[simp] theorem page_modJob : (s.modJob n f).page k = s.page k := rfl
@[simp] theorem stack_modJob : (s.modJob n f).stack k = s.stack k := rfl
@[simp] theorem model_modJob : (s.modJob n f).model k = s.model k := rfl
@[simp] theorem cluster_modJob : (s.modJob n f).cluster k = s.cluster k := rfl
@[simp] theorem tableSlot_modJob : (s.modJob n f).tableSlot k = s.tableSlot k := rfl
@[simp] theorem link_modJob : (s.modJob n f).link k = s.link k := rfl
@[simp] theorem island_modJob : (s.modJob n f).island k = s.island k := rfl

end

/-! ### modVocab -/

section
variable (s : State) (n k : Nat) (f : Vocab → Vocab)

theorem modVocab_vocabs : (s.modVocab n f).vocabs = tmod {} s.vocabs n f := rfl
theorem vocab_modVocab (h : twf {} s.vocabs = true) : (s.modVocab n f).vocab n = f (s.vocab n) := tget_tmod_self h n f
theorem vocab_modVocab_ne (h : k ≠ n) : (s.modVocab n f).vocab k = s.vocab k := tget_tmod_of_ne h f
@[simp] theorem modVocab_pending : (s.modVocab n f).pending = s.pending := rfl
@[simp] theorem modVocab_time : (s.modVocab n f).time = s.time := rfl
@[simp] theorem modVocab_hub : (s.modVocab n f).hub = s.hub := rfl
@[simp] theorem modVocab_rings : (s.modVocab n f).rings = s.rings := rfl
@[simp] theorem modVocab_slots : (s.modVocab n f).slots = s.slots := rfl
@[simp] theorem modVocab_corpora : (s.modVocab n f).corpora = s.corpora := rfl
@[simp] theorem modVocab_jobs : (s.modVocab n f).jobs = s.jobs := rfl
@[simp] theorem modVocab_publish : (s.modVocab n f).publish = s.publish := rfl
@[simp] theorem modVocab_scan : (s.modVocab n f).scan = s.scan := rfl
@[simp] theorem modVocab_templates : (s.modVocab n f).templates = s.templates := rfl
@[simp] theorem modVocab_texts : (s.modVocab n f).texts = s.texts := rfl
@[simp] theorem modVocab_text : (s.modVocab n f).text = s.text := rfl
@[simp] theorem modVocab_cores : (s.modVocab n f).cores = s.cores := rfl
@[simp] theorem modVocab_coreE : (s.modVocab n f).coreE = s.coreE := rfl
@[simp] theorem modVocab_mem : (s.modVocab n f).mem = s.mem := rfl
@[simp] theorem modVocab_pageMap : (s.modVocab n f).pageMap = s.pageMap := rfl
@[simp] theorem modVocab_stackT : (s.modVocab n f).stackT = s.stackT := rfl
@[simp] theorem modVocab_hbm : (s.modVocab n f).hbm = s.hbm := rfl
@[simp] theorem modVocab_models : (s.modVocab n f).models = s.models := rfl
@[simp] theorem modVocab_clusters : (s.modVocab n f).clusters = s.clusters := rfl
@[simp] theorem modVocab_serving : (s.modVocab n f).serving = s.serving := rfl
@[simp] theorem modVocab_tables : (s.modVocab n f).tables = s.tables := rfl
@[simp] theorem modVocab_tableE : (s.modVocab n f).tableE = s.tableE := rfl
@[simp] theorem modVocab_fabric : (s.modVocab n f).fabric = s.fabric := rfl
@[simp] theorem modVocab_links : (s.modVocab n f).links = s.links := rfl
@[simp] theorem modVocab_keyring : (s.modVocab n f).keyring = s.keyring := rfl
@[simp] theorem modVocab_traffic : (s.modVocab n f).traffic = s.traffic := rfl
@[simp] theorem modVocab_placement : (s.modVocab n f).placement = s.placement := rfl
@[simp] theorem modVocab_host : (s.modVocab n f).host = s.host := rfl
@[simp] theorem modVocab_flash : (s.modVocab n f).flash = s.flash := rfl
@[simp] theorem modVocab_fw : (s.modVocab n f).fw = s.fw := rfl
@[simp] theorem modVocab_ident : (s.modVocab n f).ident = s.ident := rfl
@[simp] theorem modVocab_islands : (s.modVocab n f).islands = s.islands := rfl
@[simp] theorem modVocab_faults : (s.modVocab n f).faults = s.faults := rfl
@[simp] theorem modVocab_sampling : (s.modVocab n f).sampling = s.sampling := rfl
@[simp] theorem modVocab_module : (s.modVocab n f).module = s.module := rfl
@[simp] theorem ring_modVocab : (s.modVocab n f).ring k = s.ring k := rfl
@[simp] theorem slot_modVocab : (s.modVocab n f).slot k = s.slot k := rfl
@[simp] theorem corpus_modVocab : (s.modVocab n f).corpus k = s.corpus k := rfl
@[simp] theorem job_modVocab : (s.modVocab n f).job k = s.job k := rfl
@[simp] theorem template_modVocab : (s.modVocab n f).template k = s.template k := rfl
@[simp] theorem textIsl_modVocab : (s.modVocab n f).textIsl k = s.textIsl k := rfl
@[simp] theorem core_modVocab : (s.modVocab n f).core k = s.core k := rfl
@[simp] theorem page_modVocab : (s.modVocab n f).page k = s.page k := rfl
@[simp] theorem stack_modVocab : (s.modVocab n f).stack k = s.stack k := rfl
@[simp] theorem model_modVocab : (s.modVocab n f).model k = s.model k := rfl
@[simp] theorem cluster_modVocab : (s.modVocab n f).cluster k = s.cluster k := rfl
@[simp] theorem tableSlot_modVocab : (s.modVocab n f).tableSlot k = s.tableSlot k := rfl
@[simp] theorem link_modVocab : (s.modVocab n f).link k = s.link k := rfl
@[simp] theorem island_modVocab : (s.modVocab n f).island k = s.island k := rfl

end

/-! ### modTemplate -/

section
variable (s : State) (n k : Nat) (f : Template → Template)

theorem modTemplate_templates : (s.modTemplate n f).templates = tmod {} s.templates n f := rfl
theorem template_modTemplate (h : twf {} s.templates = true) : (s.modTemplate n f).template n = f (s.template n) := tget_tmod_self h n f
theorem template_modTemplate_ne (h : k ≠ n) : (s.modTemplate n f).template k = s.template k := tget_tmod_of_ne h f
@[simp] theorem modTemplate_pending : (s.modTemplate n f).pending = s.pending := rfl
@[simp] theorem modTemplate_time : (s.modTemplate n f).time = s.time := rfl
@[simp] theorem modTemplate_hub : (s.modTemplate n f).hub = s.hub := rfl
@[simp] theorem modTemplate_rings : (s.modTemplate n f).rings = s.rings := rfl
@[simp] theorem modTemplate_slots : (s.modTemplate n f).slots = s.slots := rfl
@[simp] theorem modTemplate_corpora : (s.modTemplate n f).corpora = s.corpora := rfl
@[simp] theorem modTemplate_jobs : (s.modTemplate n f).jobs = s.jobs := rfl
@[simp] theorem modTemplate_publish : (s.modTemplate n f).publish = s.publish := rfl
@[simp] theorem modTemplate_scan : (s.modTemplate n f).scan = s.scan := rfl
@[simp] theorem modTemplate_vocabs : (s.modTemplate n f).vocabs = s.vocabs := rfl
@[simp] theorem modTemplate_texts : (s.modTemplate n f).texts = s.texts := rfl
@[simp] theorem modTemplate_text : (s.modTemplate n f).text = s.text := rfl
@[simp] theorem modTemplate_cores : (s.modTemplate n f).cores = s.cores := rfl
@[simp] theorem modTemplate_coreE : (s.modTemplate n f).coreE = s.coreE := rfl
@[simp] theorem modTemplate_mem : (s.modTemplate n f).mem = s.mem := rfl
@[simp] theorem modTemplate_pageMap : (s.modTemplate n f).pageMap = s.pageMap := rfl
@[simp] theorem modTemplate_stackT : (s.modTemplate n f).stackT = s.stackT := rfl
@[simp] theorem modTemplate_hbm : (s.modTemplate n f).hbm = s.hbm := rfl
@[simp] theorem modTemplate_models : (s.modTemplate n f).models = s.models := rfl
@[simp] theorem modTemplate_clusters : (s.modTemplate n f).clusters = s.clusters := rfl
@[simp] theorem modTemplate_serving : (s.modTemplate n f).serving = s.serving := rfl
@[simp] theorem modTemplate_tables : (s.modTemplate n f).tables = s.tables := rfl
@[simp] theorem modTemplate_tableE : (s.modTemplate n f).tableE = s.tableE := rfl
@[simp] theorem modTemplate_fabric : (s.modTemplate n f).fabric = s.fabric := rfl
@[simp] theorem modTemplate_links : (s.modTemplate n f).links = s.links := rfl
@[simp] theorem modTemplate_keyring : (s.modTemplate n f).keyring = s.keyring := rfl
@[simp] theorem modTemplate_traffic : (s.modTemplate n f).traffic = s.traffic := rfl
@[simp] theorem modTemplate_placement : (s.modTemplate n f).placement = s.placement := rfl
@[simp] theorem modTemplate_host : (s.modTemplate n f).host = s.host := rfl
@[simp] theorem modTemplate_flash : (s.modTemplate n f).flash = s.flash := rfl
@[simp] theorem modTemplate_fw : (s.modTemplate n f).fw = s.fw := rfl
@[simp] theorem modTemplate_ident : (s.modTemplate n f).ident = s.ident := rfl
@[simp] theorem modTemplate_islands : (s.modTemplate n f).islands = s.islands := rfl
@[simp] theorem modTemplate_faults : (s.modTemplate n f).faults = s.faults := rfl
@[simp] theorem modTemplate_sampling : (s.modTemplate n f).sampling = s.sampling := rfl
@[simp] theorem modTemplate_module : (s.modTemplate n f).module = s.module := rfl
@[simp] theorem ring_modTemplate : (s.modTemplate n f).ring k = s.ring k := rfl
@[simp] theorem slot_modTemplate : (s.modTemplate n f).slot k = s.slot k := rfl
@[simp] theorem corpus_modTemplate : (s.modTemplate n f).corpus k = s.corpus k := rfl
@[simp] theorem job_modTemplate : (s.modTemplate n f).job k = s.job k := rfl
@[simp] theorem vocab_modTemplate : (s.modTemplate n f).vocab k = s.vocab k := rfl
@[simp] theorem textIsl_modTemplate : (s.modTemplate n f).textIsl k = s.textIsl k := rfl
@[simp] theorem core_modTemplate : (s.modTemplate n f).core k = s.core k := rfl
@[simp] theorem page_modTemplate : (s.modTemplate n f).page k = s.page k := rfl
@[simp] theorem stack_modTemplate : (s.modTemplate n f).stack k = s.stack k := rfl
@[simp] theorem model_modTemplate : (s.modTemplate n f).model k = s.model k := rfl
@[simp] theorem cluster_modTemplate : (s.modTemplate n f).cluster k = s.cluster k := rfl
@[simp] theorem tableSlot_modTemplate : (s.modTemplate n f).tableSlot k = s.tableSlot k := rfl
@[simp] theorem link_modTemplate : (s.modTemplate n f).link k = s.link k := rfl
@[simp] theorem island_modTemplate : (s.modTemplate n f).island k = s.island k := rfl

end

/-! ### modText -/

section
variable (s : State) (n k : Nat) (f : TextIsland → TextIsland)

theorem modText_texts : (s.modText n f).texts = tmod {} s.texts n f := rfl
theorem textIsl_modText (h : twf {} s.texts = true) : (s.modText n f).textIsl n = f (s.textIsl n) := tget_tmod_self h n f
theorem textIsl_modText_ne (h : k ≠ n) : (s.modText n f).textIsl k = s.textIsl k := tget_tmod_of_ne h f
@[simp] theorem modText_pending : (s.modText n f).pending = s.pending := rfl
@[simp] theorem modText_time : (s.modText n f).time = s.time := rfl
@[simp] theorem modText_hub : (s.modText n f).hub = s.hub := rfl
@[simp] theorem modText_rings : (s.modText n f).rings = s.rings := rfl
@[simp] theorem modText_slots : (s.modText n f).slots = s.slots := rfl
@[simp] theorem modText_corpora : (s.modText n f).corpora = s.corpora := rfl
@[simp] theorem modText_jobs : (s.modText n f).jobs = s.jobs := rfl
@[simp] theorem modText_publish : (s.modText n f).publish = s.publish := rfl
@[simp] theorem modText_scan : (s.modText n f).scan = s.scan := rfl
@[simp] theorem modText_vocabs : (s.modText n f).vocabs = s.vocabs := rfl
@[simp] theorem modText_templates : (s.modText n f).templates = s.templates := rfl
@[simp] theorem modText_text : (s.modText n f).text = s.text := rfl
@[simp] theorem modText_cores : (s.modText n f).cores = s.cores := rfl
@[simp] theorem modText_coreE : (s.modText n f).coreE = s.coreE := rfl
@[simp] theorem modText_mem : (s.modText n f).mem = s.mem := rfl
@[simp] theorem modText_pageMap : (s.modText n f).pageMap = s.pageMap := rfl
@[simp] theorem modText_stackT : (s.modText n f).stackT = s.stackT := rfl
@[simp] theorem modText_hbm : (s.modText n f).hbm = s.hbm := rfl
@[simp] theorem modText_models : (s.modText n f).models = s.models := rfl
@[simp] theorem modText_clusters : (s.modText n f).clusters = s.clusters := rfl
@[simp] theorem modText_serving : (s.modText n f).serving = s.serving := rfl
@[simp] theorem modText_tables : (s.modText n f).tables = s.tables := rfl
@[simp] theorem modText_tableE : (s.modText n f).tableE = s.tableE := rfl
@[simp] theorem modText_fabric : (s.modText n f).fabric = s.fabric := rfl
@[simp] theorem modText_links : (s.modText n f).links = s.links := rfl
@[simp] theorem modText_keyring : (s.modText n f).keyring = s.keyring := rfl
@[simp] theorem modText_traffic : (s.modText n f).traffic = s.traffic := rfl
@[simp] theorem modText_placement : (s.modText n f).placement = s.placement := rfl
@[simp] theorem modText_host : (s.modText n f).host = s.host := rfl
@[simp] theorem modText_flash : (s.modText n f).flash = s.flash := rfl
@[simp] theorem modText_fw : (s.modText n f).fw = s.fw := rfl
@[simp] theorem modText_ident : (s.modText n f).ident = s.ident := rfl
@[simp] theorem modText_islands : (s.modText n f).islands = s.islands := rfl
@[simp] theorem modText_faults : (s.modText n f).faults = s.faults := rfl
@[simp] theorem modText_sampling : (s.modText n f).sampling = s.sampling := rfl
@[simp] theorem modText_module : (s.modText n f).module = s.module := rfl
@[simp] theorem ring_modText : (s.modText n f).ring k = s.ring k := rfl
@[simp] theorem slot_modText : (s.modText n f).slot k = s.slot k := rfl
@[simp] theorem corpus_modText : (s.modText n f).corpus k = s.corpus k := rfl
@[simp] theorem job_modText : (s.modText n f).job k = s.job k := rfl
@[simp] theorem vocab_modText : (s.modText n f).vocab k = s.vocab k := rfl
@[simp] theorem template_modText : (s.modText n f).template k = s.template k := rfl
@[simp] theorem core_modText : (s.modText n f).core k = s.core k := rfl
@[simp] theorem page_modText : (s.modText n f).page k = s.page k := rfl
@[simp] theorem stack_modText : (s.modText n f).stack k = s.stack k := rfl
@[simp] theorem model_modText : (s.modText n f).model k = s.model k := rfl
@[simp] theorem cluster_modText : (s.modText n f).cluster k = s.cluster k := rfl
@[simp] theorem tableSlot_modText : (s.modText n f).tableSlot k = s.tableSlot k := rfl
@[simp] theorem link_modText : (s.modText n f).link k = s.link k := rfl
@[simp] theorem island_modText : (s.modText n f).island k = s.island k := rfl

end

/-! ### modCore -/

section
variable (s : State) (n k : Nat) (f : Core → Core)

theorem modCore_cores : (s.modCore n f).cores = tmod {} s.cores n f := rfl
theorem core_modCore (h : twf {} s.cores = true) : (s.modCore n f).core n = f (s.core n) := tget_tmod_self h n f
theorem core_modCore_ne (h : k ≠ n) : (s.modCore n f).core k = s.core k := tget_tmod_of_ne h f
@[simp] theorem modCore_pending : (s.modCore n f).pending = s.pending := rfl
@[simp] theorem modCore_time : (s.modCore n f).time = s.time := rfl
@[simp] theorem modCore_hub : (s.modCore n f).hub = s.hub := rfl
@[simp] theorem modCore_rings : (s.modCore n f).rings = s.rings := rfl
@[simp] theorem modCore_slots : (s.modCore n f).slots = s.slots := rfl
@[simp] theorem modCore_corpora : (s.modCore n f).corpora = s.corpora := rfl
@[simp] theorem modCore_jobs : (s.modCore n f).jobs = s.jobs := rfl
@[simp] theorem modCore_publish : (s.modCore n f).publish = s.publish := rfl
@[simp] theorem modCore_scan : (s.modCore n f).scan = s.scan := rfl
@[simp] theorem modCore_vocabs : (s.modCore n f).vocabs = s.vocabs := rfl
@[simp] theorem modCore_templates : (s.modCore n f).templates = s.templates := rfl
@[simp] theorem modCore_texts : (s.modCore n f).texts = s.texts := rfl
@[simp] theorem modCore_text : (s.modCore n f).text = s.text := rfl
@[simp] theorem modCore_coreE : (s.modCore n f).coreE = s.coreE := rfl
@[simp] theorem modCore_mem : (s.modCore n f).mem = s.mem := rfl
@[simp] theorem modCore_pageMap : (s.modCore n f).pageMap = s.pageMap := rfl
@[simp] theorem modCore_stackT : (s.modCore n f).stackT = s.stackT := rfl
@[simp] theorem modCore_hbm : (s.modCore n f).hbm = s.hbm := rfl
@[simp] theorem modCore_models : (s.modCore n f).models = s.models := rfl
@[simp] theorem modCore_clusters : (s.modCore n f).clusters = s.clusters := rfl
@[simp] theorem modCore_serving : (s.modCore n f).serving = s.serving := rfl
@[simp] theorem modCore_tables : (s.modCore n f).tables = s.tables := rfl
@[simp] theorem modCore_tableE : (s.modCore n f).tableE = s.tableE := rfl
@[simp] theorem modCore_fabric : (s.modCore n f).fabric = s.fabric := rfl
@[simp] theorem modCore_links : (s.modCore n f).links = s.links := rfl
@[simp] theorem modCore_keyring : (s.modCore n f).keyring = s.keyring := rfl
@[simp] theorem modCore_traffic : (s.modCore n f).traffic = s.traffic := rfl
@[simp] theorem modCore_placement : (s.modCore n f).placement = s.placement := rfl
@[simp] theorem modCore_host : (s.modCore n f).host = s.host := rfl
@[simp] theorem modCore_flash : (s.modCore n f).flash = s.flash := rfl
@[simp] theorem modCore_fw : (s.modCore n f).fw = s.fw := rfl
@[simp] theorem modCore_ident : (s.modCore n f).ident = s.ident := rfl
@[simp] theorem modCore_islands : (s.modCore n f).islands = s.islands := rfl
@[simp] theorem modCore_faults : (s.modCore n f).faults = s.faults := rfl
@[simp] theorem modCore_sampling : (s.modCore n f).sampling = s.sampling := rfl
@[simp] theorem modCore_module : (s.modCore n f).module = s.module := rfl
@[simp] theorem ring_modCore : (s.modCore n f).ring k = s.ring k := rfl
@[simp] theorem slot_modCore : (s.modCore n f).slot k = s.slot k := rfl
@[simp] theorem corpus_modCore : (s.modCore n f).corpus k = s.corpus k := rfl
@[simp] theorem job_modCore : (s.modCore n f).job k = s.job k := rfl
@[simp] theorem vocab_modCore : (s.modCore n f).vocab k = s.vocab k := rfl
@[simp] theorem template_modCore : (s.modCore n f).template k = s.template k := rfl
@[simp] theorem textIsl_modCore : (s.modCore n f).textIsl k = s.textIsl k := rfl
@[simp] theorem page_modCore : (s.modCore n f).page k = s.page k := rfl
@[simp] theorem stack_modCore : (s.modCore n f).stack k = s.stack k := rfl
@[simp] theorem model_modCore : (s.modCore n f).model k = s.model k := rfl
@[simp] theorem cluster_modCore : (s.modCore n f).cluster k = s.cluster k := rfl
@[simp] theorem tableSlot_modCore : (s.modCore n f).tableSlot k = s.tableSlot k := rfl
@[simp] theorem link_modCore : (s.modCore n f).link k = s.link k := rfl
@[simp] theorem island_modCore : (s.modCore n f).island k = s.island k := rfl

end

/-! ### modPage -/

section
variable (s : State) (n k : Nat) (f : Page → Page)

theorem modPage_pageMap : (s.modPage n f).pageMap = tmod {} s.pageMap n f := rfl
theorem page_modPage (h : twf {} s.pageMap = true) : (s.modPage n f).page n = f (s.page n) := tget_tmod_self h n f
theorem page_modPage_ne (h : k ≠ n) : (s.modPage n f).page k = s.page k := tget_tmod_of_ne h f
@[simp] theorem modPage_pending : (s.modPage n f).pending = s.pending := rfl
@[simp] theorem modPage_time : (s.modPage n f).time = s.time := rfl
@[simp] theorem modPage_hub : (s.modPage n f).hub = s.hub := rfl
@[simp] theorem modPage_rings : (s.modPage n f).rings = s.rings := rfl
@[simp] theorem modPage_slots : (s.modPage n f).slots = s.slots := rfl
@[simp] theorem modPage_corpora : (s.modPage n f).corpora = s.corpora := rfl
@[simp] theorem modPage_jobs : (s.modPage n f).jobs = s.jobs := rfl
@[simp] theorem modPage_publish : (s.modPage n f).publish = s.publish := rfl
@[simp] theorem modPage_scan : (s.modPage n f).scan = s.scan := rfl
@[simp] theorem modPage_vocabs : (s.modPage n f).vocabs = s.vocabs := rfl
@[simp] theorem modPage_templates : (s.modPage n f).templates = s.templates := rfl
@[simp] theorem modPage_texts : (s.modPage n f).texts = s.texts := rfl
@[simp] theorem modPage_text : (s.modPage n f).text = s.text := rfl
@[simp] theorem modPage_cores : (s.modPage n f).cores = s.cores := rfl
@[simp] theorem modPage_coreE : (s.modPage n f).coreE = s.coreE := rfl
@[simp] theorem modPage_mem : (s.modPage n f).mem = s.mem := rfl
@[simp] theorem modPage_stackT : (s.modPage n f).stackT = s.stackT := rfl
@[simp] theorem modPage_hbm : (s.modPage n f).hbm = s.hbm := rfl
@[simp] theorem modPage_models : (s.modPage n f).models = s.models := rfl
@[simp] theorem modPage_clusters : (s.modPage n f).clusters = s.clusters := rfl
@[simp] theorem modPage_serving : (s.modPage n f).serving = s.serving := rfl
@[simp] theorem modPage_tables : (s.modPage n f).tables = s.tables := rfl
@[simp] theorem modPage_tableE : (s.modPage n f).tableE = s.tableE := rfl
@[simp] theorem modPage_fabric : (s.modPage n f).fabric = s.fabric := rfl
@[simp] theorem modPage_links : (s.modPage n f).links = s.links := rfl
@[simp] theorem modPage_keyring : (s.modPage n f).keyring = s.keyring := rfl
@[simp] theorem modPage_traffic : (s.modPage n f).traffic = s.traffic := rfl
@[simp] theorem modPage_placement : (s.modPage n f).placement = s.placement := rfl
@[simp] theorem modPage_host : (s.modPage n f).host = s.host := rfl
@[simp] theorem modPage_flash : (s.modPage n f).flash = s.flash := rfl
@[simp] theorem modPage_fw : (s.modPage n f).fw = s.fw := rfl
@[simp] theorem modPage_ident : (s.modPage n f).ident = s.ident := rfl
@[simp] theorem modPage_islands : (s.modPage n f).islands = s.islands := rfl
@[simp] theorem modPage_faults : (s.modPage n f).faults = s.faults := rfl
@[simp] theorem modPage_sampling : (s.modPage n f).sampling = s.sampling := rfl
@[simp] theorem modPage_module : (s.modPage n f).module = s.module := rfl
@[simp] theorem ring_modPage : (s.modPage n f).ring k = s.ring k := rfl
@[simp] theorem slot_modPage : (s.modPage n f).slot k = s.slot k := rfl
@[simp] theorem corpus_modPage : (s.modPage n f).corpus k = s.corpus k := rfl
@[simp] theorem job_modPage : (s.modPage n f).job k = s.job k := rfl
@[simp] theorem vocab_modPage : (s.modPage n f).vocab k = s.vocab k := rfl
@[simp] theorem template_modPage : (s.modPage n f).template k = s.template k := rfl
@[simp] theorem textIsl_modPage : (s.modPage n f).textIsl k = s.textIsl k := rfl
@[simp] theorem core_modPage : (s.modPage n f).core k = s.core k := rfl
@[simp] theorem stack_modPage : (s.modPage n f).stack k = s.stack k := rfl
@[simp] theorem model_modPage : (s.modPage n f).model k = s.model k := rfl
@[simp] theorem cluster_modPage : (s.modPage n f).cluster k = s.cluster k := rfl
@[simp] theorem tableSlot_modPage : (s.modPage n f).tableSlot k = s.tableSlot k := rfl
@[simp] theorem link_modPage : (s.modPage n f).link k = s.link k := rfl
@[simp] theorem island_modPage : (s.modPage n f).island k = s.island k := rfl

end

/-! ### modStack -/

section
variable (s : State) (n k : Nat) (f : Stack → Stack)

theorem modStack_stackT : (s.modStack n f).stackT = tmod {} s.stackT n f := rfl
theorem stack_modStack (h : twf {} s.stackT = true) : (s.modStack n f).stack n = f (s.stack n) := tget_tmod_self h n f
theorem stack_modStack_ne (h : k ≠ n) : (s.modStack n f).stack k = s.stack k := tget_tmod_of_ne h f
@[simp] theorem modStack_pending : (s.modStack n f).pending = s.pending := rfl
@[simp] theorem modStack_time : (s.modStack n f).time = s.time := rfl
@[simp] theorem modStack_hub : (s.modStack n f).hub = s.hub := rfl
@[simp] theorem modStack_rings : (s.modStack n f).rings = s.rings := rfl
@[simp] theorem modStack_slots : (s.modStack n f).slots = s.slots := rfl
@[simp] theorem modStack_corpora : (s.modStack n f).corpora = s.corpora := rfl
@[simp] theorem modStack_jobs : (s.modStack n f).jobs = s.jobs := rfl
@[simp] theorem modStack_publish : (s.modStack n f).publish = s.publish := rfl
@[simp] theorem modStack_scan : (s.modStack n f).scan = s.scan := rfl
@[simp] theorem modStack_vocabs : (s.modStack n f).vocabs = s.vocabs := rfl
@[simp] theorem modStack_templates : (s.modStack n f).templates = s.templates := rfl
@[simp] theorem modStack_texts : (s.modStack n f).texts = s.texts := rfl
@[simp] theorem modStack_text : (s.modStack n f).text = s.text := rfl
@[simp] theorem modStack_cores : (s.modStack n f).cores = s.cores := rfl
@[simp] theorem modStack_coreE : (s.modStack n f).coreE = s.coreE := rfl
@[simp] theorem modStack_mem : (s.modStack n f).mem = s.mem := rfl
@[simp] theorem modStack_pageMap : (s.modStack n f).pageMap = s.pageMap := rfl
@[simp] theorem modStack_hbm : (s.modStack n f).hbm = s.hbm := rfl
@[simp] theorem modStack_models : (s.modStack n f).models = s.models := rfl
@[simp] theorem modStack_clusters : (s.modStack n f).clusters = s.clusters := rfl
@[simp] theorem modStack_serving : (s.modStack n f).serving = s.serving := rfl
@[simp] theorem modStack_tables : (s.modStack n f).tables = s.tables := rfl
@[simp] theorem modStack_tableE : (s.modStack n f).tableE = s.tableE := rfl
@[simp] theorem modStack_fabric : (s.modStack n f).fabric = s.fabric := rfl
@[simp] theorem modStack_links : (s.modStack n f).links = s.links := rfl
@[simp] theorem modStack_keyring : (s.modStack n f).keyring = s.keyring := rfl
@[simp] theorem modStack_traffic : (s.modStack n f).traffic = s.traffic := rfl
@[simp] theorem modStack_placement : (s.modStack n f).placement = s.placement := rfl
@[simp] theorem modStack_host : (s.modStack n f).host = s.host := rfl
@[simp] theorem modStack_flash : (s.modStack n f).flash = s.flash := rfl
@[simp] theorem modStack_fw : (s.modStack n f).fw = s.fw := rfl
@[simp] theorem modStack_ident : (s.modStack n f).ident = s.ident := rfl
@[simp] theorem modStack_islands : (s.modStack n f).islands = s.islands := rfl
@[simp] theorem modStack_faults : (s.modStack n f).faults = s.faults := rfl
@[simp] theorem modStack_sampling : (s.modStack n f).sampling = s.sampling := rfl
@[simp] theorem modStack_module : (s.modStack n f).module = s.module := rfl
@[simp] theorem ring_modStack : (s.modStack n f).ring k = s.ring k := rfl
@[simp] theorem slot_modStack : (s.modStack n f).slot k = s.slot k := rfl
@[simp] theorem corpus_modStack : (s.modStack n f).corpus k = s.corpus k := rfl
@[simp] theorem job_modStack : (s.modStack n f).job k = s.job k := rfl
@[simp] theorem vocab_modStack : (s.modStack n f).vocab k = s.vocab k := rfl
@[simp] theorem template_modStack : (s.modStack n f).template k = s.template k := rfl
@[simp] theorem textIsl_modStack : (s.modStack n f).textIsl k = s.textIsl k := rfl
@[simp] theorem core_modStack : (s.modStack n f).core k = s.core k := rfl
@[simp] theorem page_modStack : (s.modStack n f).page k = s.page k := rfl
@[simp] theorem model_modStack : (s.modStack n f).model k = s.model k := rfl
@[simp] theorem cluster_modStack : (s.modStack n f).cluster k = s.cluster k := rfl
@[simp] theorem tableSlot_modStack : (s.modStack n f).tableSlot k = s.tableSlot k := rfl
@[simp] theorem link_modStack : (s.modStack n f).link k = s.link k := rfl
@[simp] theorem island_modStack : (s.modStack n f).island k = s.island k := rfl

end

/-! ### modModel -/

section
variable (s : State) (n k : Nat) (f : Model → Model)

theorem modModel_models : (s.modModel n f).models = tmod {} s.models n f := rfl
theorem model_modModel (h : twf {} s.models = true) : (s.modModel n f).model n = f (s.model n) := tget_tmod_self h n f
theorem model_modModel_ne (h : k ≠ n) : (s.modModel n f).model k = s.model k := tget_tmod_of_ne h f
@[simp] theorem modModel_pending : (s.modModel n f).pending = s.pending := rfl
@[simp] theorem modModel_time : (s.modModel n f).time = s.time := rfl
@[simp] theorem modModel_hub : (s.modModel n f).hub = s.hub := rfl
@[simp] theorem modModel_rings : (s.modModel n f).rings = s.rings := rfl
@[simp] theorem modModel_slots : (s.modModel n f).slots = s.slots := rfl
@[simp] theorem modModel_corpora : (s.modModel n f).corpora = s.corpora := rfl
@[simp] theorem modModel_jobs : (s.modModel n f).jobs = s.jobs := rfl
@[simp] theorem modModel_publish : (s.modModel n f).publish = s.publish := rfl
@[simp] theorem modModel_scan : (s.modModel n f).scan = s.scan := rfl
@[simp] theorem modModel_vocabs : (s.modModel n f).vocabs = s.vocabs := rfl
@[simp] theorem modModel_templates : (s.modModel n f).templates = s.templates := rfl
@[simp] theorem modModel_texts : (s.modModel n f).texts = s.texts := rfl
@[simp] theorem modModel_text : (s.modModel n f).text = s.text := rfl
@[simp] theorem modModel_cores : (s.modModel n f).cores = s.cores := rfl
@[simp] theorem modModel_coreE : (s.modModel n f).coreE = s.coreE := rfl
@[simp] theorem modModel_mem : (s.modModel n f).mem = s.mem := rfl
@[simp] theorem modModel_pageMap : (s.modModel n f).pageMap = s.pageMap := rfl
@[simp] theorem modModel_stackT : (s.modModel n f).stackT = s.stackT := rfl
@[simp] theorem modModel_hbm : (s.modModel n f).hbm = s.hbm := rfl
@[simp] theorem modModel_clusters : (s.modModel n f).clusters = s.clusters := rfl
@[simp] theorem modModel_serving : (s.modModel n f).serving = s.serving := rfl
@[simp] theorem modModel_tables : (s.modModel n f).tables = s.tables := rfl
@[simp] theorem modModel_tableE : (s.modModel n f).tableE = s.tableE := rfl
@[simp] theorem modModel_fabric : (s.modModel n f).fabric = s.fabric := rfl
@[simp] theorem modModel_links : (s.modModel n f).links = s.links := rfl
@[simp] theorem modModel_keyring : (s.modModel n f).keyring = s.keyring := rfl
@[simp] theorem modModel_traffic : (s.modModel n f).traffic = s.traffic := rfl
@[simp] theorem modModel_placement : (s.modModel n f).placement = s.placement := rfl
@[simp] theorem modModel_host : (s.modModel n f).host = s.host := rfl
@[simp] theorem modModel_flash : (s.modModel n f).flash = s.flash := rfl
@[simp] theorem modModel_fw : (s.modModel n f).fw = s.fw := rfl
@[simp] theorem modModel_ident : (s.modModel n f).ident = s.ident := rfl
@[simp] theorem modModel_islands : (s.modModel n f).islands = s.islands := rfl
@[simp] theorem modModel_faults : (s.modModel n f).faults = s.faults := rfl
@[simp] theorem modModel_sampling : (s.modModel n f).sampling = s.sampling := rfl
@[simp] theorem modModel_module : (s.modModel n f).module = s.module := rfl
@[simp] theorem ring_modModel : (s.modModel n f).ring k = s.ring k := rfl
@[simp] theorem slot_modModel : (s.modModel n f).slot k = s.slot k := rfl
@[simp] theorem corpus_modModel : (s.modModel n f).corpus k = s.corpus k := rfl
@[simp] theorem job_modModel : (s.modModel n f).job k = s.job k := rfl
@[simp] theorem vocab_modModel : (s.modModel n f).vocab k = s.vocab k := rfl
@[simp] theorem template_modModel : (s.modModel n f).template k = s.template k := rfl
@[simp] theorem textIsl_modModel : (s.modModel n f).textIsl k = s.textIsl k := rfl
@[simp] theorem core_modModel : (s.modModel n f).core k = s.core k := rfl
@[simp] theorem page_modModel : (s.modModel n f).page k = s.page k := rfl
@[simp] theorem stack_modModel : (s.modModel n f).stack k = s.stack k := rfl
@[simp] theorem cluster_modModel : (s.modModel n f).cluster k = s.cluster k := rfl
@[simp] theorem tableSlot_modModel : (s.modModel n f).tableSlot k = s.tableSlot k := rfl
@[simp] theorem link_modModel : (s.modModel n f).link k = s.link k := rfl
@[simp] theorem island_modModel : (s.modModel n f).island k = s.island k := rfl

end

/-! ### modCluster -/

section
variable (s : State) (n k : Nat) (f : Cluster → Cluster)

theorem modCluster_clusters : (s.modCluster n f).clusters = tmod {} s.clusters n f := rfl
theorem cluster_modCluster (h : twf {} s.clusters = true) : (s.modCluster n f).cluster n = f (s.cluster n) := tget_tmod_self h n f
theorem cluster_modCluster_ne (h : k ≠ n) : (s.modCluster n f).cluster k = s.cluster k := tget_tmod_of_ne h f
@[simp] theorem modCluster_pending : (s.modCluster n f).pending = s.pending := rfl
@[simp] theorem modCluster_time : (s.modCluster n f).time = s.time := rfl
@[simp] theorem modCluster_hub : (s.modCluster n f).hub = s.hub := rfl
@[simp] theorem modCluster_rings : (s.modCluster n f).rings = s.rings := rfl
@[simp] theorem modCluster_slots : (s.modCluster n f).slots = s.slots := rfl
@[simp] theorem modCluster_corpora : (s.modCluster n f).corpora = s.corpora := rfl
@[simp] theorem modCluster_jobs : (s.modCluster n f).jobs = s.jobs := rfl
@[simp] theorem modCluster_publish : (s.modCluster n f).publish = s.publish := rfl
@[simp] theorem modCluster_scan : (s.modCluster n f).scan = s.scan := rfl
@[simp] theorem modCluster_vocabs : (s.modCluster n f).vocabs = s.vocabs := rfl
@[simp] theorem modCluster_templates : (s.modCluster n f).templates = s.templates := rfl
@[simp] theorem modCluster_texts : (s.modCluster n f).texts = s.texts := rfl
@[simp] theorem modCluster_text : (s.modCluster n f).text = s.text := rfl
@[simp] theorem modCluster_cores : (s.modCluster n f).cores = s.cores := rfl
@[simp] theorem modCluster_coreE : (s.modCluster n f).coreE = s.coreE := rfl
@[simp] theorem modCluster_mem : (s.modCluster n f).mem = s.mem := rfl
@[simp] theorem modCluster_pageMap : (s.modCluster n f).pageMap = s.pageMap := rfl
@[simp] theorem modCluster_stackT : (s.modCluster n f).stackT = s.stackT := rfl
@[simp] theorem modCluster_hbm : (s.modCluster n f).hbm = s.hbm := rfl
@[simp] theorem modCluster_models : (s.modCluster n f).models = s.models := rfl
@[simp] theorem modCluster_serving : (s.modCluster n f).serving = s.serving := rfl
@[simp] theorem modCluster_tables : (s.modCluster n f).tables = s.tables := rfl
@[simp] theorem modCluster_tableE : (s.modCluster n f).tableE = s.tableE := rfl
@[simp] theorem modCluster_fabric : (s.modCluster n f).fabric = s.fabric := rfl
@[simp] theorem modCluster_links : (s.modCluster n f).links = s.links := rfl
@[simp] theorem modCluster_keyring : (s.modCluster n f).keyring = s.keyring := rfl
@[simp] theorem modCluster_traffic : (s.modCluster n f).traffic = s.traffic := rfl
@[simp] theorem modCluster_placement : (s.modCluster n f).placement = s.placement := rfl
@[simp] theorem modCluster_host : (s.modCluster n f).host = s.host := rfl
@[simp] theorem modCluster_flash : (s.modCluster n f).flash = s.flash := rfl
@[simp] theorem modCluster_fw : (s.modCluster n f).fw = s.fw := rfl
@[simp] theorem modCluster_ident : (s.modCluster n f).ident = s.ident := rfl
@[simp] theorem modCluster_islands : (s.modCluster n f).islands = s.islands := rfl
@[simp] theorem modCluster_faults : (s.modCluster n f).faults = s.faults := rfl
@[simp] theorem modCluster_sampling : (s.modCluster n f).sampling = s.sampling := rfl
@[simp] theorem modCluster_module : (s.modCluster n f).module = s.module := rfl
@[simp] theorem ring_modCluster : (s.modCluster n f).ring k = s.ring k := rfl
@[simp] theorem slot_modCluster : (s.modCluster n f).slot k = s.slot k := rfl
@[simp] theorem corpus_modCluster : (s.modCluster n f).corpus k = s.corpus k := rfl
@[simp] theorem job_modCluster : (s.modCluster n f).job k = s.job k := rfl
@[simp] theorem vocab_modCluster : (s.modCluster n f).vocab k = s.vocab k := rfl
@[simp] theorem template_modCluster : (s.modCluster n f).template k = s.template k := rfl
@[simp] theorem textIsl_modCluster : (s.modCluster n f).textIsl k = s.textIsl k := rfl
@[simp] theorem core_modCluster : (s.modCluster n f).core k = s.core k := rfl
@[simp] theorem page_modCluster : (s.modCluster n f).page k = s.page k := rfl
@[simp] theorem stack_modCluster : (s.modCluster n f).stack k = s.stack k := rfl
@[simp] theorem model_modCluster : (s.modCluster n f).model k = s.model k := rfl
@[simp] theorem tableSlot_modCluster : (s.modCluster n f).tableSlot k = s.tableSlot k := rfl
@[simp] theorem link_modCluster : (s.modCluster n f).link k = s.link k := rfl
@[simp] theorem island_modCluster : (s.modCluster n f).island k = s.island k := rfl

end

/-! ### modTable -/

section
variable (s : State) (n k : Nat) (f : TableSlot → TableSlot)

theorem modTable_tables : (s.modTable n f).tables = tmod {} s.tables n f := rfl
theorem tableSlot_modTable (h : twf {} s.tables = true) : (s.modTable n f).tableSlot n = f (s.tableSlot n) := tget_tmod_self h n f
theorem tableSlot_modTable_ne (h : k ≠ n) : (s.modTable n f).tableSlot k = s.tableSlot k := tget_tmod_of_ne h f
@[simp] theorem modTable_pending : (s.modTable n f).pending = s.pending := rfl
@[simp] theorem modTable_time : (s.modTable n f).time = s.time := rfl
@[simp] theorem modTable_hub : (s.modTable n f).hub = s.hub := rfl
@[simp] theorem modTable_rings : (s.modTable n f).rings = s.rings := rfl
@[simp] theorem modTable_slots : (s.modTable n f).slots = s.slots := rfl
@[simp] theorem modTable_corpora : (s.modTable n f).corpora = s.corpora := rfl
@[simp] theorem modTable_jobs : (s.modTable n f).jobs = s.jobs := rfl
@[simp] theorem modTable_publish : (s.modTable n f).publish = s.publish := rfl
@[simp] theorem modTable_scan : (s.modTable n f).scan = s.scan := rfl
@[simp] theorem modTable_vocabs : (s.modTable n f).vocabs = s.vocabs := rfl
@[simp] theorem modTable_templates : (s.modTable n f).templates = s.templates := rfl
@[simp] theorem modTable_texts : (s.modTable n f).texts = s.texts := rfl
@[simp] theorem modTable_text : (s.modTable n f).text = s.text := rfl
@[simp] theorem modTable_cores : (s.modTable n f).cores = s.cores := rfl
@[simp] theorem modTable_coreE : (s.modTable n f).coreE = s.coreE := rfl
@[simp] theorem modTable_mem : (s.modTable n f).mem = s.mem := rfl
@[simp] theorem modTable_pageMap : (s.modTable n f).pageMap = s.pageMap := rfl
@[simp] theorem modTable_stackT : (s.modTable n f).stackT = s.stackT := rfl
@[simp] theorem modTable_hbm : (s.modTable n f).hbm = s.hbm := rfl
@[simp] theorem modTable_models : (s.modTable n f).models = s.models := rfl
@[simp] theorem modTable_clusters : (s.modTable n f).clusters = s.clusters := rfl
@[simp] theorem modTable_serving : (s.modTable n f).serving = s.serving := rfl
@[simp] theorem modTable_tableE : (s.modTable n f).tableE = s.tableE := rfl
@[simp] theorem modTable_fabric : (s.modTable n f).fabric = s.fabric := rfl
@[simp] theorem modTable_links : (s.modTable n f).links = s.links := rfl
@[simp] theorem modTable_keyring : (s.modTable n f).keyring = s.keyring := rfl
@[simp] theorem modTable_traffic : (s.modTable n f).traffic = s.traffic := rfl
@[simp] theorem modTable_placement : (s.modTable n f).placement = s.placement := rfl
@[simp] theorem modTable_host : (s.modTable n f).host = s.host := rfl
@[simp] theorem modTable_flash : (s.modTable n f).flash = s.flash := rfl
@[simp] theorem modTable_fw : (s.modTable n f).fw = s.fw := rfl
@[simp] theorem modTable_ident : (s.modTable n f).ident = s.ident := rfl
@[simp] theorem modTable_islands : (s.modTable n f).islands = s.islands := rfl
@[simp] theorem modTable_faults : (s.modTable n f).faults = s.faults := rfl
@[simp] theorem modTable_sampling : (s.modTable n f).sampling = s.sampling := rfl
@[simp] theorem modTable_module : (s.modTable n f).module = s.module := rfl
@[simp] theorem ring_modTable : (s.modTable n f).ring k = s.ring k := rfl
@[simp] theorem slot_modTable : (s.modTable n f).slot k = s.slot k := rfl
@[simp] theorem corpus_modTable : (s.modTable n f).corpus k = s.corpus k := rfl
@[simp] theorem job_modTable : (s.modTable n f).job k = s.job k := rfl
@[simp] theorem vocab_modTable : (s.modTable n f).vocab k = s.vocab k := rfl
@[simp] theorem template_modTable : (s.modTable n f).template k = s.template k := rfl
@[simp] theorem textIsl_modTable : (s.modTable n f).textIsl k = s.textIsl k := rfl
@[simp] theorem core_modTable : (s.modTable n f).core k = s.core k := rfl
@[simp] theorem page_modTable : (s.modTable n f).page k = s.page k := rfl
@[simp] theorem stack_modTable : (s.modTable n f).stack k = s.stack k := rfl
@[simp] theorem model_modTable : (s.modTable n f).model k = s.model k := rfl
@[simp] theorem cluster_modTable : (s.modTable n f).cluster k = s.cluster k := rfl
@[simp] theorem link_modTable : (s.modTable n f).link k = s.link k := rfl
@[simp] theorem island_modTable : (s.modTable n f).island k = s.island k := rfl

end

/-! ### modLink -/

section
variable (s : State) (n k : Nat) (f : Link → Link)

theorem modLink_links : (s.modLink n f).links = tmod {} s.links n f := rfl
theorem link_modLink (h : twf {} s.links = true) : (s.modLink n f).link n = f (s.link n) := tget_tmod_self h n f
theorem link_modLink_ne (h : k ≠ n) : (s.modLink n f).link k = s.link k := tget_tmod_of_ne h f
@[simp] theorem modLink_pending : (s.modLink n f).pending = s.pending := rfl
@[simp] theorem modLink_time : (s.modLink n f).time = s.time := rfl
@[simp] theorem modLink_hub : (s.modLink n f).hub = s.hub := rfl
@[simp] theorem modLink_rings : (s.modLink n f).rings = s.rings := rfl
@[simp] theorem modLink_slots : (s.modLink n f).slots = s.slots := rfl
@[simp] theorem modLink_corpora : (s.modLink n f).corpora = s.corpora := rfl
@[simp] theorem modLink_jobs : (s.modLink n f).jobs = s.jobs := rfl
@[simp] theorem modLink_publish : (s.modLink n f).publish = s.publish := rfl
@[simp] theorem modLink_scan : (s.modLink n f).scan = s.scan := rfl
@[simp] theorem modLink_vocabs : (s.modLink n f).vocabs = s.vocabs := rfl
@[simp] theorem modLink_templates : (s.modLink n f).templates = s.templates := rfl
@[simp] theorem modLink_texts : (s.modLink n f).texts = s.texts := rfl
@[simp] theorem modLink_text : (s.modLink n f).text = s.text := rfl
@[simp] theorem modLink_cores : (s.modLink n f).cores = s.cores := rfl
@[simp] theorem modLink_coreE : (s.modLink n f).coreE = s.coreE := rfl
@[simp] theorem modLink_mem : (s.modLink n f).mem = s.mem := rfl
@[simp] theorem modLink_pageMap : (s.modLink n f).pageMap = s.pageMap := rfl
@[simp] theorem modLink_stackT : (s.modLink n f).stackT = s.stackT := rfl
@[simp] theorem modLink_hbm : (s.modLink n f).hbm = s.hbm := rfl
@[simp] theorem modLink_models : (s.modLink n f).models = s.models := rfl
@[simp] theorem modLink_clusters : (s.modLink n f).clusters = s.clusters := rfl
@[simp] theorem modLink_serving : (s.modLink n f).serving = s.serving := rfl
@[simp] theorem modLink_tables : (s.modLink n f).tables = s.tables := rfl
@[simp] theorem modLink_tableE : (s.modLink n f).tableE = s.tableE := rfl
@[simp] theorem modLink_fabric : (s.modLink n f).fabric = s.fabric := rfl
@[simp] theorem modLink_keyring : (s.modLink n f).keyring = s.keyring := rfl
@[simp] theorem modLink_traffic : (s.modLink n f).traffic = s.traffic := rfl
@[simp] theorem modLink_placement : (s.modLink n f).placement = s.placement := rfl
@[simp] theorem modLink_host : (s.modLink n f).host = s.host := rfl
@[simp] theorem modLink_flash : (s.modLink n f).flash = s.flash := rfl
@[simp] theorem modLink_fw : (s.modLink n f).fw = s.fw := rfl
@[simp] theorem modLink_ident : (s.modLink n f).ident = s.ident := rfl
@[simp] theorem modLink_islands : (s.modLink n f).islands = s.islands := rfl
@[simp] theorem modLink_faults : (s.modLink n f).faults = s.faults := rfl
@[simp] theorem modLink_sampling : (s.modLink n f).sampling = s.sampling := rfl
@[simp] theorem modLink_module : (s.modLink n f).module = s.module := rfl
@[simp] theorem ring_modLink : (s.modLink n f).ring k = s.ring k := rfl
@[simp] theorem slot_modLink : (s.modLink n f).slot k = s.slot k := rfl
@[simp] theorem corpus_modLink : (s.modLink n f).corpus k = s.corpus k := rfl
@[simp] theorem job_modLink : (s.modLink n f).job k = s.job k := rfl
@[simp] theorem vocab_modLink : (s.modLink n f).vocab k = s.vocab k := rfl
@[simp] theorem template_modLink : (s.modLink n f).template k = s.template k := rfl
@[simp] theorem textIsl_modLink : (s.modLink n f).textIsl k = s.textIsl k := rfl
@[simp] theorem core_modLink : (s.modLink n f).core k = s.core k := rfl
@[simp] theorem page_modLink : (s.modLink n f).page k = s.page k := rfl
@[simp] theorem stack_modLink : (s.modLink n f).stack k = s.stack k := rfl
@[simp] theorem model_modLink : (s.modLink n f).model k = s.model k := rfl
@[simp] theorem cluster_modLink : (s.modLink n f).cluster k = s.cluster k := rfl
@[simp] theorem tableSlot_modLink : (s.modLink n f).tableSlot k = s.tableSlot k := rfl
@[simp] theorem island_modLink : (s.modLink n f).island k = s.island k := rfl

end

/-! ### modIsland -/

section
variable (s : State) (n k : Nat) (f : Island → Island)

theorem modIsland_islands : (s.modIsland n f).islands = tmod {} s.islands n f := rfl
theorem island_modIsland (h : twf {} s.islands = true) : (s.modIsland n f).island n = f (s.island n) := tget_tmod_self h n f
theorem island_modIsland_ne (h : k ≠ n) : (s.modIsland n f).island k = s.island k := tget_tmod_of_ne h f
@[simp] theorem modIsland_pending : (s.modIsland n f).pending = s.pending := rfl
@[simp] theorem modIsland_time : (s.modIsland n f).time = s.time := rfl
@[simp] theorem modIsland_hub : (s.modIsland n f).hub = s.hub := rfl
@[simp] theorem modIsland_rings : (s.modIsland n f).rings = s.rings := rfl
@[simp] theorem modIsland_slots : (s.modIsland n f).slots = s.slots := rfl
@[simp] theorem modIsland_corpora : (s.modIsland n f).corpora = s.corpora := rfl
@[simp] theorem modIsland_jobs : (s.modIsland n f).jobs = s.jobs := rfl
@[simp] theorem modIsland_publish : (s.modIsland n f).publish = s.publish := rfl
@[simp] theorem modIsland_scan : (s.modIsland n f).scan = s.scan := rfl
@[simp] theorem modIsland_vocabs : (s.modIsland n f).vocabs = s.vocabs := rfl
@[simp] theorem modIsland_templates : (s.modIsland n f).templates = s.templates := rfl
@[simp] theorem modIsland_texts : (s.modIsland n f).texts = s.texts := rfl
@[simp] theorem modIsland_text : (s.modIsland n f).text = s.text := rfl
@[simp] theorem modIsland_cores : (s.modIsland n f).cores = s.cores := rfl
@[simp] theorem modIsland_coreE : (s.modIsland n f).coreE = s.coreE := rfl
@[simp] theorem modIsland_mem : (s.modIsland n f).mem = s.mem := rfl
@[simp] theorem modIsland_pageMap : (s.modIsland n f).pageMap = s.pageMap := rfl
@[simp] theorem modIsland_stackT : (s.modIsland n f).stackT = s.stackT := rfl
@[simp] theorem modIsland_hbm : (s.modIsland n f).hbm = s.hbm := rfl
@[simp] theorem modIsland_models : (s.modIsland n f).models = s.models := rfl
@[simp] theorem modIsland_clusters : (s.modIsland n f).clusters = s.clusters := rfl
@[simp] theorem modIsland_serving : (s.modIsland n f).serving = s.serving := rfl
@[simp] theorem modIsland_tables : (s.modIsland n f).tables = s.tables := rfl
@[simp] theorem modIsland_tableE : (s.modIsland n f).tableE = s.tableE := rfl
@[simp] theorem modIsland_fabric : (s.modIsland n f).fabric = s.fabric := rfl
@[simp] theorem modIsland_links : (s.modIsland n f).links = s.links := rfl
@[simp] theorem modIsland_keyring : (s.modIsland n f).keyring = s.keyring := rfl
@[simp] theorem modIsland_traffic : (s.modIsland n f).traffic = s.traffic := rfl
@[simp] theorem modIsland_placement : (s.modIsland n f).placement = s.placement := rfl
@[simp] theorem modIsland_host : (s.modIsland n f).host = s.host := rfl
@[simp] theorem modIsland_flash : (s.modIsland n f).flash = s.flash := rfl
@[simp] theorem modIsland_fw : (s.modIsland n f).fw = s.fw := rfl
@[simp] theorem modIsland_ident : (s.modIsland n f).ident = s.ident := rfl
@[simp] theorem modIsland_faults : (s.modIsland n f).faults = s.faults := rfl
@[simp] theorem modIsland_sampling : (s.modIsland n f).sampling = s.sampling := rfl
@[simp] theorem modIsland_module : (s.modIsland n f).module = s.module := rfl
@[simp] theorem ring_modIsland : (s.modIsland n f).ring k = s.ring k := rfl
@[simp] theorem slot_modIsland : (s.modIsland n f).slot k = s.slot k := rfl
@[simp] theorem corpus_modIsland : (s.modIsland n f).corpus k = s.corpus k := rfl
@[simp] theorem job_modIsland : (s.modIsland n f).job k = s.job k := rfl
@[simp] theorem vocab_modIsland : (s.modIsland n f).vocab k = s.vocab k := rfl
@[simp] theorem template_modIsland : (s.modIsland n f).template k = s.template k := rfl
@[simp] theorem textIsl_modIsland : (s.modIsland n f).textIsl k = s.textIsl k := rfl
@[simp] theorem core_modIsland : (s.modIsland n f).core k = s.core k := rfl
@[simp] theorem page_modIsland : (s.modIsland n f).page k = s.page k := rfl
@[simp] theorem stack_modIsland : (s.modIsland n f).stack k = s.stack k := rfl
@[simp] theorem model_modIsland : (s.modIsland n f).model k = s.model k := rfl
@[simp] theorem cluster_modIsland : (s.modIsland n f).cluster k = s.cluster k := rfl
@[simp] theorem tableSlot_modIsland : (s.modIsland n f).tableSlot k = s.tableSlot k := rfl
@[simp] theorem link_modIsland : (s.modIsland n f).link k = s.link k := rfl

end

/-! ### modHub -/

section
variable (s : State) (k : Nat) (f : Hub → Hub)

@[simp] theorem modHub_hub : (s.modHub f).hub = f s.hub := rfl
@[simp] theorem modHub_pending : (s.modHub f).pending = s.pending := rfl
@[simp] theorem modHub_time : (s.modHub f).time = s.time := rfl
@[simp] theorem modHub_rings : (s.modHub f).rings = s.rings := rfl
@[simp] theorem modHub_slots : (s.modHub f).slots = s.slots := rfl
@[simp] theorem modHub_corpora : (s.modHub f).corpora = s.corpora := rfl
@[simp] theorem modHub_jobs : (s.modHub f).jobs = s.jobs := rfl
@[simp] theorem modHub_publish : (s.modHub f).publish = s.publish := rfl
@[simp] theorem modHub_scan : (s.modHub f).scan = s.scan := rfl
@[simp] theorem modHub_vocabs : (s.modHub f).vocabs = s.vocabs := rfl
@[simp] theorem modHub_templates : (s.modHub f).templates = s.templates := rfl
@[simp] theorem modHub_texts : (s.modHub f).texts = s.texts := rfl
@[simp] theorem modHub_text : (s.modHub f).text = s.text := rfl
@[simp] theorem modHub_cores : (s.modHub f).cores = s.cores := rfl
@[simp] theorem modHub_coreE : (s.modHub f).coreE = s.coreE := rfl
@[simp] theorem modHub_mem : (s.modHub f).mem = s.mem := rfl
@[simp] theorem modHub_pageMap : (s.modHub f).pageMap = s.pageMap := rfl
@[simp] theorem modHub_stackT : (s.modHub f).stackT = s.stackT := rfl
@[simp] theorem modHub_hbm : (s.modHub f).hbm = s.hbm := rfl
@[simp] theorem modHub_models : (s.modHub f).models = s.models := rfl
@[simp] theorem modHub_clusters : (s.modHub f).clusters = s.clusters := rfl
@[simp] theorem modHub_serving : (s.modHub f).serving = s.serving := rfl
@[simp] theorem modHub_tables : (s.modHub f).tables = s.tables := rfl
@[simp] theorem modHub_tableE : (s.modHub f).tableE = s.tableE := rfl
@[simp] theorem modHub_fabric : (s.modHub f).fabric = s.fabric := rfl
@[simp] theorem modHub_links : (s.modHub f).links = s.links := rfl
@[simp] theorem modHub_keyring : (s.modHub f).keyring = s.keyring := rfl
@[simp] theorem modHub_traffic : (s.modHub f).traffic = s.traffic := rfl
@[simp] theorem modHub_placement : (s.modHub f).placement = s.placement := rfl
@[simp] theorem modHub_host : (s.modHub f).host = s.host := rfl
@[simp] theorem modHub_flash : (s.modHub f).flash = s.flash := rfl
@[simp] theorem modHub_fw : (s.modHub f).fw = s.fw := rfl
@[simp] theorem modHub_ident : (s.modHub f).ident = s.ident := rfl
@[simp] theorem modHub_islands : (s.modHub f).islands = s.islands := rfl
@[simp] theorem modHub_faults : (s.modHub f).faults = s.faults := rfl
@[simp] theorem modHub_sampling : (s.modHub f).sampling = s.sampling := rfl
@[simp] theorem modHub_module : (s.modHub f).module = s.module := rfl
@[simp] theorem ring_modHub : (s.modHub f).ring k = s.ring k := rfl
@[simp] theorem slot_modHub : (s.modHub f).slot k = s.slot k := rfl
@[simp] theorem corpus_modHub : (s.modHub f).corpus k = s.corpus k := rfl
@[simp] theorem job_modHub : (s.modHub f).job k = s.job k := rfl
@[simp] theorem vocab_modHub : (s.modHub f).vocab k = s.vocab k := rfl
@[simp] theorem template_modHub : (s.modHub f).template k = s.template k := rfl
@[simp] theorem textIsl_modHub : (s.modHub f).textIsl k = s.textIsl k := rfl
@[simp] theorem core_modHub : (s.modHub f).core k = s.core k := rfl
@[simp] theorem page_modHub : (s.modHub f).page k = s.page k := rfl
@[simp] theorem stack_modHub : (s.modHub f).stack k = s.stack k := rfl
@[simp] theorem model_modHub : (s.modHub f).model k = s.model k := rfl
@[simp] theorem cluster_modHub : (s.modHub f).cluster k = s.cluster k := rfl
@[simp] theorem tableSlot_modHub : (s.modHub f).tableSlot k = s.tableSlot k := rfl
@[simp] theorem link_modHub : (s.modHub f).link k = s.link k := rfl
@[simp] theorem island_modHub : (s.modHub f).island k = s.island k := rfl

end

/-! ### modHost -/

section
variable (s : State) (k : Nat) (f : HostIf → HostIf)

@[simp] theorem modHost_host : (s.modHost f).host = f s.host := rfl
@[simp] theorem modHost_pending : (s.modHost f).pending = s.pending := rfl
@[simp] theorem modHost_time : (s.modHost f).time = s.time := rfl
@[simp] theorem modHost_hub : (s.modHost f).hub = s.hub := rfl
@[simp] theorem modHost_rings : (s.modHost f).rings = s.rings := rfl
@[simp] theorem modHost_slots : (s.modHost f).slots = s.slots := rfl
@[simp] theorem modHost_corpora : (s.modHost f).corpora = s.corpora := rfl
@[simp] theorem modHost_jobs : (s.modHost f).jobs = s.jobs := rfl
@[simp] theorem modHost_publish : (s.modHost f).publish = s.publish := rfl
@[simp] theorem modHost_scan : (s.modHost f).scan = s.scan := rfl
@[simp] theorem modHost_vocabs : (s.modHost f).vocabs = s.vocabs := rfl
@[simp] theorem modHost_templates : (s.modHost f).templates = s.templates := rfl
@[simp] theorem modHost_texts : (s.modHost f).texts = s.texts := rfl
@[simp] theorem modHost_text : (s.modHost f).text = s.text := rfl
@[simp] theorem modHost_cores : (s.modHost f).cores = s.cores := rfl
@[simp] theorem modHost_coreE : (s.modHost f).coreE = s.coreE := rfl
@[simp] theorem modHost_mem : (s.modHost f).mem = s.mem := rfl
@[simp] theorem modHost_pageMap : (s.modHost f).pageMap = s.pageMap := rfl
@[simp] theorem modHost_stackT : (s.modHost f).stackT = s.stackT := rfl
@[simp] theorem modHost_hbm : (s.modHost f).hbm = s.hbm := rfl
@[simp] theorem modHost_models : (s.modHost f).models = s.models := rfl
@[simp] theorem modHost_clusters : (s.modHost f).clusters = s.clusters := rfl
@[simp] theorem modHost_serving : (s.modHost f).serving = s.serving := rfl
@[simp] theorem modHost_tables : (s.modHost f).tables = s.tables := rfl
@[simp] theorem modHost_tableE : (s.modHost f).tableE = s.tableE := rfl
@[simp] theorem modHost_fabric : (s.modHost f).fabric = s.fabric := rfl
@[simp] theorem modHost_links : (s.modHost f).links = s.links := rfl
@[simp] theorem modHost_keyring : (s.modHost f).keyring = s.keyring := rfl
@[simp] theorem modHost_traffic : (s.modHost f).traffic = s.traffic := rfl
@[simp] theorem modHost_placement : (s.modHost f).placement = s.placement := rfl
@[simp] theorem modHost_flash : (s.modHost f).flash = s.flash := rfl
@[simp] theorem modHost_fw : (s.modHost f).fw = s.fw := rfl
@[simp] theorem modHost_ident : (s.modHost f).ident = s.ident := rfl
@[simp] theorem modHost_islands : (s.modHost f).islands = s.islands := rfl
@[simp] theorem modHost_faults : (s.modHost f).faults = s.faults := rfl
@[simp] theorem modHost_sampling : (s.modHost f).sampling = s.sampling := rfl
@[simp] theorem modHost_module : (s.modHost f).module = s.module := rfl
@[simp] theorem ring_modHost : (s.modHost f).ring k = s.ring k := rfl
@[simp] theorem slot_modHost : (s.modHost f).slot k = s.slot k := rfl
@[simp] theorem corpus_modHost : (s.modHost f).corpus k = s.corpus k := rfl
@[simp] theorem job_modHost : (s.modHost f).job k = s.job k := rfl
@[simp] theorem vocab_modHost : (s.modHost f).vocab k = s.vocab k := rfl
@[simp] theorem template_modHost : (s.modHost f).template k = s.template k := rfl
@[simp] theorem textIsl_modHost : (s.modHost f).textIsl k = s.textIsl k := rfl
@[simp] theorem core_modHost : (s.modHost f).core k = s.core k := rfl
@[simp] theorem page_modHost : (s.modHost f).page k = s.page k := rfl
@[simp] theorem stack_modHost : (s.modHost f).stack k = s.stack k := rfl
@[simp] theorem model_modHost : (s.modHost f).model k = s.model k := rfl
@[simp] theorem cluster_modHost : (s.modHost f).cluster k = s.cluster k := rfl
@[simp] theorem tableSlot_modHost : (s.modHost f).tableSlot k = s.tableSlot k := rfl
@[simp] theorem link_modHost : (s.modHost f).link k = s.link k := rfl
@[simp] theorem island_modHost : (s.modHost f).island k = s.island k := rfl

end

end Sys2Proof.Machine
end

