-- ==== Sys2Proof/Laws/Kept.lean ====
section
/-! SUPPORT. Safety.Kept goes on through every update of a state. -/

namespace Sys2Proof.Machine

open Safety

variable {s0 s : State} {α β γ : Type}

theorem Kept.refl (s : State) : Kept s s := ⟨rfl, .inl rfl, id, fun h => ⟨h, le_rfl⟩⟩

theorem Kept.trans {s t u : State} (h : Kept s t) (k : Kept t u) : Kept s u :=
  ⟨k.pending.trans h.pending,
   by rcases k.clock with e | e
      · rw [e]; exact h.clock
      · exact .inr e,
   k.wf ∘ h.wf,
   fun o => ⟨(k.leaves (h.leaves o).1).1, (h.leaves o).2.trans (k.leaves (h.leaves o).1).2⟩⟩

/-- An update that leaves the queue, the clock, the tables, the memories and the leaves alone. -/
theorem Kept.raw {hub publish scan text coreE hbm serving tableE fabric keyring traffic placement host fw ident faults sampling module}
    (h : Kept s0 s) (hm : host.hostMem = s.host.hostMem) (h1 : ident.pufState = s.ident.pufState) (h2 : ident.code = s.ident.code)
    (h3 : ident.leafNext = s.ident.leafNext) (h4 : ident.leafLimit = s.ident.leafLimit) :
    Kept s0 ⟨s.pending, s.time, hub, s.rings, s.slots, s.corpora, s.jobs, publish, scan, s.vocabs, s.templates, s.texts, text,
      s.cores, coreE, s.mem, s.pageMap, s.stackT, hbm, s.models, s.clusters, serving, s.tables, tableE, fabric, s.links, keyring,
      traffic, placement, host, s.flash, fw, ident, s.islands, faults, sampling, module⟩ := by
  refine Kept.trans h ⟨rfl, .inl rfl, ?_, ?_⟩
  · simp only [wf, tablesWf, memoryWf, hm]; exact id
  · simp only [leavesOk, nextLeaf, signing, h1, h2, h3, h4]; exact fun h => ⟨h, le_rfl⟩

/-- The same as a rewriting rule. -/
theorem Kept.raw_iff {hub publish scan text coreE hbm serving tableE fabric keyring traffic placement host fw ident faults sampling module}
    (hm : host.hostMem = s.host.hostMem) (h1 : ident.pufState = s.ident.pufState) (h2 : ident.code = s.ident.code)
    (h3 : ident.leafNext = s.ident.leafNext) (h4 : ident.leafLimit = s.ident.leafLimit) :
    Kept s0 ⟨s.pending, s.time, hub, s.rings, s.slots, s.corpora, s.jobs, publish, scan, s.vocabs, s.templates, s.texts, text,
      s.cores, coreE, s.mem, s.pageMap, s.stackT, hbm, s.models, s.clusters, serving, s.tables, tableE, fabric, s.links, keyring,
      traffic, placement, host, s.flash, fw, ident, s.islands, faults, sampling, module⟩ ↔ Kept s0 s := by
  refine ⟨fun h => ?_, fun h => Kept.raw h hm h1 h2 h3 h4⟩
  exact Kept.raw (s := ⟨s.pending, s.time, hub, s.rings, s.slots, s.corpora, s.jobs, publish, scan, s.vocabs, s.templates, s.texts, text,
      s.cores, coreE, s.mem, s.pageMap, s.stackT, hbm, s.models, s.clusters, serving, s.tables, tableE, fabric, s.links, keyring,
      traffic, placement, host, s.flash, fw, ident, s.islands, faults, sampling, module⟩) h hm.symm h1.symm h2.symm h3.symm h4.symm

/-- An update that writes the memories and keeps them in canonical form. -/
theorem Kept.rawMem {hub publish scan text coreE hbm serving tableE fabric keyring traffic placement host fw faults sampling module mem}
    (h : Kept s0 s) (hm : memWf s.host.hostMem = true → memWf host.hostMem = true) (hmem : memWf s.mem = true → memWf mem = true) :
    Kept s0 ⟨s.pending, s.time, hub, s.rings, s.slots, s.corpora, s.jobs, publish, scan, s.vocabs, s.templates, s.texts, text,
      s.cores, coreE, mem, s.pageMap, s.stackT, hbm, s.models, s.clusters, serving, s.tables, tableE, fabric, s.links, keyring,
      traffic, placement, host, s.flash, fw, s.ident, s.islands, faults, sampling, module⟩ := by
  refine Kept.trans h ⟨rfl, .inl rfl, ?_, ?_⟩
  · simp only [wf, tablesWf, memoryWf, Bool.and_eq_true]
    exact fun w => ⟨w.1, hmem w.2.1, hm w.2.2⟩
  · simp only [leavesOk, nextLeaf, signing]; exact fun h => ⟨h, le_rfl⟩

/-- An update of tables and memories that keeps each in canonical form. -/
theorem Kept.tables {t : State} (h : Kept s0 s) (hp : t.pending = s.pending) (hc : t.time = s.time) (hi : t.ident = s.ident)
    (hf : t.flash = s.flash) (hw : wf s = true → wf t = true) : Kept s0 t := by
  refine Kept.trans h ⟨hp, .inl hc, hw, ?_⟩
  simp only [leavesOk, nextLeaf, signing, hi, hf]; exact fun h => ⟨h, le_rfl⟩

section
variable (n : Nat)
theorem Kept.modRing (h : Kept s0 s) (f : Ring → Ring) : Kept s0 (s.modRing n f) :=
  Kept.tables h rfl rfl rfl rfl fun w => by
    simp only [wf, tablesWf, memoryWf, State.modRing, Bool.and_eq_true] at w ⊢
    simp only [w, twf_tmod, and_self]
theorem Kept.modSlot (h : Kept s0 s) (f : Slot → Slot) : Kept s0 (s.modSlot n f) :=
  Kept.tables h rfl rfl rfl rfl fun w => by
    simp only [wf, tablesWf, memoryWf, State.modSlot, Bool.and_eq_true] at w ⊢
    simp only [w, twf_tmod, and_self]
theorem Kept.modCorpus (h : Kept s0 s) (f : Corpus → Corpus) : Kept s0 (s.modCorpus n f) :=
  Kept.tables h rfl rfl rfl rfl fun w => by
    simp only [wf, tablesWf, memoryWf, State.modCorpus, Bool.and_eq_true] at w ⊢
    simp only [w, twf_tmod, and_self]
theorem Kept.modJob (h : Kept s0 s) (f : Job → Job) : Kept s0 (s.modJob n f) :=
  Kept.tables h rfl rfl rfl rfl fun w => by
    simp only [wf, tablesWf, memoryWf, State.modJob, Bool.and_eq_true] at w ⊢
    simp only [w, twf_tmod, and_self]
theorem Kept.modVocab (h : Kept s0 s) (f : Vocab → Vocab) : Kept s0 (s.modVocab n f) :=
  Kept.tables h rfl rfl rfl rfl fun w => by
    simp only [wf, tablesWf, memoryWf, State.modVocab, Bool.and_eq_true] at w ⊢
    simp only [w, twf_tmod, and_self]
theorem Kept.modTemplate (h : Kept s0 s) (f : Template → Template) : Kept s0 (s.modTemplate n f) :=
  Kept.tables h rfl rfl rfl rfl fun w => by
    simp only [wf, tablesWf, memoryWf, State.modTemplate, Bool.and_eq_true] at w ⊢
    simp only [w, twf_tmod, and_self]
theorem Kept.modText (h : Kept s0 s) (f : TextIsland → TextIsland) : Kept s0 (s.modText n f) :=
  Kept.tables h rfl rfl rfl rfl fun w => by
    simp only [wf, tablesWf, memoryWf, State.modText, Bool.and_eq_true] at w ⊢
    simp only [w, twf_tmod, and_self]
theorem Kept.modCore (h : Kept s0 s) (f : Core → Core) : Kept s0 (s.modCore n f) :=
  Kept.tables h rfl rfl rfl rfl fun w => by
    simp only [wf, tablesWf, memoryWf, State.modCore, Bool.and_eq_true] at w ⊢
    simp only [w, twf_tmod, and_self]
theorem Kept.modPage (h : Kept s0 s) (f : Page → Page) : Kept s0 (s.modPage n f) :=
  Kept.tables h rfl rfl rfl rfl fun w => by
    simp only [wf, tablesWf, memoryWf, State.modPage, Bool.and_eq_true] at w ⊢
    simp only [w, twf_tmod, and_self]
theorem Kept.modStack (h : Kept s0 s) (f : Stack → Stack) : Kept s0 (s.modStack n f) :=
  Kept.tables h rfl rfl rfl rfl fun w => by
    simp only [wf, tablesWf, memoryWf, State.modStack, Bool.and_eq_true] at w ⊢
    simp only [w, twf_tmod, and_self]
theorem Kept.modModel (h : Kept s0 s) (f : Model → Model) : Kept s0 (s.modModel n f) :=
  Kept.tables h rfl rfl rfl rfl fun w => by
    simp only [wf, tablesWf, memoryWf, State.modModel, Bool.and_eq_true] at w ⊢
    simp only [w, twf_tmod, and_self]
theorem Kept.modCluster (h : Kept s0 s) (f : Cluster → Cluster) : Kept s0 (s.modCluster n f) :=
  Kept.tables h rfl rfl rfl rfl fun w => by
    simp only [wf, tablesWf, memoryWf, State.modCluster, Bool.and_eq_true] at w ⊢
    simp only [w, twf_tmod, and_self]
theorem Kept.modTable (h : Kept s0 s) (f : TableSlot → TableSlot) : Kept s0 (s.modTable n f) :=
  Kept.tables h rfl rfl rfl rfl fun w => by
    simp only [wf, tablesWf, memoryWf, State.modTable, Bool.and_eq_true] at w ⊢
    simp only [w, twf_tmod, and_self]
theorem Kept.modLink (h : Kept s0 s) (f : Link → Link) : Kept s0 (s.modLink n f) :=
  Kept.tables h rfl rfl rfl rfl fun w => by
    simp only [wf, tablesWf, memoryWf, State.modLink, Bool.and_eq_true] at w ⊢
    simp only [w, twf_tmod, and_self]
theorem Kept.modIsland (h : Kept s0 s) (f : Island → Island) : Kept s0 (s.modIsland n f) :=
  Kept.tables h rfl rfl rfl rfl fun w => by
    simp only [wf, tablesWf, memoryWf, State.modIsland, Bool.and_eq_true] at w ⊢
    simp only [w, twf_tmod, and_self]
end

theorem Kept.modHub (h : Kept s0 s) (f : Hub → Hub) : Kept s0 (s.modHub f) := Kept.raw h rfl rfl rfl rfl rfl

theorem Kept.modHost (h : Kept s0 s) (f : HostIf → HostIf) (hf : ∀ x, (f x).hostMem = x.hostMem) : Kept s0 (s.modHost f) :=
  Kept.raw h (hf _) rfl rfl rfl rfl

theorem Kept.fold (g : State → α → State) (hg : ∀ s a, Kept s0 s → Kept s0 (g s a)) (h : Kept s0 s) (l : List α) :
    Kept s0 (l.foldl g s) := by
  induction l generalizing s with
  | nil => exact h
  | cons a l ih => exact ih (hg s a h)

theorem Kept.foldBy (π : β → State) (g : β → α → β) (hg : ∀ b a, Kept s0 (π b) → Kept s0 (π (g b a))) (b : β) (h : Kept s0 (π b))
    (l : List α) : Kept s0 (π (l.foldl g b)) := by
  induction l generalizing b with
  | nil => exact h
  | cons a l ih => exact ih (g b a) (hg b a h)

theorem Kept.foldSnd (g : β × State → α → β × State) (hg : ∀ p a, Kept s0 p.2 → Kept s0 (g p a).2) (p : β × State)
    (h : Kept s0 p.2) (l : List α) : Kept s0 (l.foldl g p).2 := Kept.foldBy Prod.snd g hg p h l

theorem Kept.ofSnd {p : α × State} {a : α} (e : p = (a, s)) (h : Kept s0 p.2) : Kept s0 s := by subst e; exact h

theorem Kept.ofThd {p : α × β × State} {a : α} {b : β} (e : p = (a, b, s)) (h : Kept s0 p.2.2) : Kept s0 s := by subst e; exact h

end Sys2Proof.Machine
end

