-- ==== Sys2Proof/Laws/KeptOps.lean ====
section
/-! SUPPORT. Safety.Kept goes on through the shared operations over units, memory, the fabric, cores, requests and links. -/

namespace Sys2Proof.Machine

open Safety

set_option maxRecDepth 8000
set_option linter.unreachableTactic false
set_option linter.unusedTactic false
set_option linter.unusedSimpArgs false

variable {s0 : State}

/-! ### Ops -/

theorem kept_fresh (s) (h1 : Kept s0 s) : Kept s0 (State.fresh s).2 := by
  unfold State.fresh
  repeat' with_reducible first
    | assumption | apply Kept.modHub

theorem kept_fireVector (v s) (h2 : Kept s0 s) : Kept s0 (fireVector v s) := by
  unfold fireVector
  repeat' with_reducible first
    | assumption | apply Kept.modHost | intro _ | split | dsimp only

theorem kept_raiseEvent (kind index sub value s) (h5 : Kept s0 s) : Kept s0 (raiseEvent kind index sub value s) := by
  unfold raiseEvent
  repeat' with_reducible first
    | assumption | apply Kept.modHost | apply kept_fireVector | intro _ | split | dsimp only

theorem kept_bumpCtr (i c n s) (h4 : Kept s0 s) : Kept s0 (bumpCtr i c n s) := by
  unfold bumpCtr
  repeat' with_reducible first
    | assumption | apply Kept.modIsland | apply kept_raiseEvent | split | dsimp only

theorem kept_countEv (i cls ev n a s) (h6 : Kept s0 s) : Kept s0 (countEv i cls ev n a s) := by
  unfold countEv
  repeat' with_reducible first
    | assumption | apply kept_bumpCtr | rfl | intro _ | apply Kept.fold

theorem kept_countCorrected (i n s) (h3 : Kept s0 s) : Kept s0 (countCorrected i n s) := by
  unfold countCorrected
  repeat' with_reducible first
    | assumption | apply kept_bumpCtr

theorem kept_noteReady (old new) (_ : Kept s0 old) (h2 : Kept s0 new) : Kept s0 (noteReady old new) := by
  unfold noteReady
  repeat' with_reducible first
    | assumption | apply kept_raiseEvent | split

theorem kept_noteFn (index n a b old new) (h5 : Kept s0 old) (h6 : Kept s0 new) : Kept s0 (noteFn index n a b old new) := by
  unfold noteFn
  repeat' with_reducible first
    | assumption | apply kept_noteReady | apply kept_raiseEvent | split

theorem kept_setClusterFn (n v s) (h3 : Kept s0 s) : Kept s0 (setClusterFn n v s) := by
  unfold setClusterFn
  repeat' with_reducible first
    | assumption | apply kept_noteFn | apply Kept.modCluster

theorem kept_setTextFn (n v s) (h3 : Kept s0 s) : Kept s0 (setTextFn n v s) := by
  unfold setTextFn
  repeat' with_reducible first
    | assumption | apply kept_noteFn | apply Kept.modText

theorem kept_setLinkFn (n v s) (h3 : Kept s0 s) : Kept s0 (setLinkFn n v s) := by
  unfold setLinkFn
  repeat' with_reducible first
    | assumption | apply kept_noteFn | apply Kept.modLink

theorem kept_setStackFn (n v s) (h3 : Kept s0 s) : Kept s0 (setStackFn n v s) := by
  unfold setStackFn
  repeat' with_reducible first
    | assumption | apply kept_noteFn | apply Kept.modStack

theorem kept_setTableFn (n v s) (h3 : Kept s0 s) : Kept s0 (setTableFn n v s) := by
  unfold setTableFn
  repeat' with_reducible first
    | assumption | apply kept_noteFn | apply Kept.modTable

theorem kept_setVocabFn (n : ℕ) (v : FnState) (s : State) (h : Kept s0 s) : Kept s0 (setVocabFn n v s) := by
  refine kept_noteFn _ _ _ _ _ _ h ?_
  split
  · refine Kept.tables (Kept.modVocab n h fun c => { c with fn := v }) rfl rfl rfl rfl fun w => ?_
    simp only [wf, tablesWf, memoryWf, Bool.and_eq_true] at w ⊢
    simp only [w, twf_tmap, and_self]
  · exact Kept.modVocab _ h _

theorem kept_setModelFn (n v s) (h3 : Kept s0 s) : Kept s0 (setModelFn n v s) := by
  unfold setModelFn
  repeat' with_reducible first
    | assumption | apply kept_noteFn | apply Kept.modModel

theorem kept_setFwFn (v s) (h2 : Kept s0 s) : Kept s0 (setFwFn v s) := by
  unfold setFwFn
  repeat' with_reducible first
    | assumption | apply kept_noteFn | simp only [Kept.raw_iff]

theorem kept_noteLong (index sub old new s) (h5 : Kept s0 s) : Kept s0 (noteLong index sub old new s) := by
  unfold noteLong
  repeat' with_reducible first
    | assumption | apply kept_raiseEvent | split

theorem kept_pushHistory (e s) (h2 : Kept s0 s) : Kept s0 (pushHistory e s) := by
  unfold pushHistory
  repeat' with_reducible first
    | assumption | simp only [Kept.raw_iff] | split | dsimp only

theorem kept_notable (island ev detail s) (h4 : Kept s0 s) : Kept s0 (notable island ev detail s) := by
  unfold notable
  repeat' with_reducible first
    | assumption | apply kept_pushHistory | split

theorem memWf_stored {t : State} {m : List Host.Cell} (e : t.mem = m) (h : memWf m = true) (a : ℕ) (bs : Bytes) : memWf (t.stored a bs) = true := by
  unfold State.stored
  split
  · exact memWf_memWrite (e ▸ h) _ _
  · subst e
    generalize bs.zipIdx = l
    generalize t.mem = m at h
    induction l generalizing m with
    | nil => exact h
    | cons b l ih => exact ih _ (memWf_memSet h _ _)

theorem kept_hostWrite (a0 : ℕ) (a1 : Bytes) {s : State} (h : Kept s0 s) : Kept s0 (hostWrite a0 a1 s) := by
  unfold hostWrite
  split
  · dsimp only; split
    · exact Kept.rawMem h id fun w => memWf_stored rfl w _ _
    · exact h
  · split
    · exact Kept.modHost h _ fun _ => rfl
    · exact kept_countEv _ _ _ _ _ _ (Kept.rawMem h (fun w => memWf_memWrite w _ _) id)

theorem kept_hostRead (addr n s) (h3 : Kept s0 s) : Kept s0 (hostRead addr n s) := by
  unfold hostRead
  repeat' with_reducible first
    | assumption | apply kept_countEv

/-! ### HbmOps -/

theorem kept_modHbm (f s) (h2 : Kept s0 s) : Kept s0 (modHbm f s) := by
  unfold modHbm
  repeat' with_reducible first
    | assumption | simp only [Kept.raw_iff]

theorem kept_touchPage (k off n s) (h4 : Kept s0 s) : Kept s0 (touchPage k off n s) := by
  unfold touchPage
  repeat' with_reducible first
    | assumption | apply kept_notable | apply kept_modHbm | apply Kept.modPage | apply kept_countCorrected | apply Kept.modStack | rfl
    | intro _ | apply Kept.fold | apply Kept.foldSnd | simp only [Kept.raw_iff] | dsimp only | split

theorem kept_touch (ranges s) (h2 : Kept s0 s) : Kept s0 (touch ranges s) := by
  unfold touch
  repeat' with_reducible first
    | assumption | apply kept_countEv | apply kept_touchPage | apply Kept.modHub | rfl | intro _ | apply Kept.fold | apply Kept.foldSnd
    | simp only [Kept.raw_iff] | dsimp only | split

theorem kept_checkReads (ranges s) (h2 : Kept s0 s) : Kept s0 (checkReads ranges s) := by
  unfold checkReads
  repeat' with_reducible first
    | assumption | apply kept_touch

theorem kept_dropRows (pg s) (h2 : Kept s0 s) : Kept s0 (dropRows pg s) := by
  unfold dropRows
  repeat' with_reducible first
    | assumption | apply Kept.modStack

theorem kept_putCells (pg : ℕ) (bs : Bytes) (s : State) (h : Kept s0 s) : Kept s0 (putCells pg bs s) :=
  Kept.modPage _ (Kept.rawMem h id fun w => memWf_memWrite (memWf_memClear w _ _) _ _) _

theorem kept_freePage (a0 : ℕ) {s : State} (h : Kept s0 s) : Kept s0 (freePage a0 s) :=
  kept_dropRows _ _ (Kept.modPage _ (kept_putCells _ _ _ h) _)

theorem kept_reservePage (pg s) (h2 : Kept s0 s) : Kept s0 (reservePage pg s) := by
  unfold reservePage
  repeat' with_reducible first
    | assumption | apply Kept.modPage

theorem kept_writePage (a0 : ℕ) (a1 : Bool) (a2 : Bytes) (s : State) (h : Kept s0 s) : Kept s0 (writePage a0 a1 a2 s) := by
  unfold writePage
  refine kept_countEv _ _ _ _ _ _ (kept_countEv _ _ _ _ _ _ (Kept.raw ?_ rfl rfl rfl rfl rfl))
  exact Kept.modStack _ (Kept.modPage _ (kept_putCells _ _ _ h) _) _

theorem kept_rewriteIn (was : State) (a0 : ℕ) (a1 : Bytes) (s : State) (h : Kept s0 s) : Kept s0 (rewriteIn was a0 a1 s) := by
  have h1 : Kept s0 (if was.slips (pageNo a0) then putCells (s.cell (pageNo a0)) (peekIn was (4096 * pageNo a0) 4096) s else s) := by
    split
    · exact kept_putCells _ _ _ h
    · exact h
  exact kept_countEv _ _ _ _ _ _ (Kept.modPage _ (Kept.rawMem h1 id fun w => memWf_stored rfl w _ _) _)

theorem kept_issueSnoops (ranges s) (h2 : Kept s0 s) : Kept s0 (issueSnoops ranges s) := by
  unfold issueSnoops
  repeat' with_reducible first
    | assumption | apply kept_countEv | apply Kept.modHost | intro _ | split | dsimp only

theorem kept_clearSnoops (ranges s) (h2 : Kept s0 s) : Kept s0 (clearSnoops ranges s) := by
  unfold clearSnoops
  repeat' with_reducible first
    | assumption | apply Kept.modHost | intro _ | split | dsimp only

theorem kept_withSnoops (ranges) (run : State → State) (s) (h2 : ∀ y0, Kept s0 y0 → Kept s0 (run y0)) (h3 : Kept s0 s) : Kept s0 (withSnoops ranges run s) := by
  unfold withSnoops
  repeat' with_reducible first
    | assumption | apply h2 | apply kept_clearSnoops | apply kept_issueSnoops | split

theorem kept_readHost (addr n given s) (h4 : Kept s0 s) : Kept s0 (readHost addr n given s).2.2 := by
  unfold readHost
  repeat' with_reducible first
    | assumption | apply kept_hostRead | apply kept_touch | split

theorem kept_readHosts (reads : List (ℕ × ℕ × Bytes)) (s : State) (h : Kept s0 s) : Kept s0 (readHosts reads s).2.2 :=
  Kept.foldBy (fun a : Word16 × List Bytes × State => a.2.2) _ (fun _ _ hp => kept_readHost _ _ _ _ hp) _ h _

theorem kept_eraseStack (a0 : ℕ) (s : State) (h : Kept s0 s) : Kept s0 (eraseStack a0 s) := by
  refine Kept.tables h rfl rfl rfl rfl fun w => ?_
  simp only [wf, tablesWf, memoryWf, eraseStack, Bool.and_eq_true] at w ⊢
  simp only [w, twf_filter, memWf_filter, and_self]

/-! ### FabricOps -/

theorem kept_modFabric (f s) (h2 : Kept s0 s) : Kept s0 (modFabric f s) := by
  unfold modFabric
  repeat' with_reducible first
    | assumption | simp only [Kept.raw_iff]

theorem kept_modKeyring (f s) (h2 : Kept s0 s) : Kept s0 (modKeyring f s) := by
  unfold modKeyring
  repeat' with_reducible first
    | assumption | simp only [Kept.raw_iff]

theorem kept_keyCheck (isl right addr n tenant sys s) (h7 : Kept s0 s) : Kept s0 (keyCheck isl right addr n tenant sys s).2 := by
  unfold keyCheck
  repeat' with_reducible first
    | assumption | apply kept_countEv | apply kept_modKeyring | split | dsimp only

theorem kept_enqueue (l p s) (h3 : Kept s0 s) : Kept s0 (enqueue l p s) := by
  unfold enqueue
  repeat' with_reducible first
    | assumption | apply Kept.modLink

theorem kept_takeTag (island s) (h2 : Kept s0 s) : Kept s0 (takeTag island s).2 := by
  unfold takeTag
  repeat' with_reducible first
    | assumption | apply kept_modFabric

theorem kept_sendAccess (a addr len s) (h4 : Kept s0 s) : Kept s0 (sendAccess a addr len s) := by
  unfold sendAccess
  repeat' with_reducible first
    | assumption | apply kept_takeTag | apply kept_enqueue | simp only [Kept.raw_iff] | split | dsimp only

theorem kept_unresolved (cluster tenant s) (h3 : Kept s0 s) : Kept s0 (unresolved cluster tenant s) := by
  unfold unresolved
  repeat' with_reducible first
    | assumption | apply kept_notable | apply kept_modKeyring

theorem kept_hallPiece (a remote addr len s) (h5 : Kept s0 s) : Kept s0 (hallPiece a remote addr len s).2 := by
  unfold hallPiece
  repeat' with_reducible first
    | assumption | apply kept_keyCheck | apply kept_touch | apply kept_sendAccess | simp only [Kept.raw_iff] | split | dsimp only

theorem kept_hallRead (a remote s) (h3 : Kept s0 s) : Kept s0 (hallRead a remote s).2 := by
  unfold hallRead
  repeat' with_reducible first
    | assumption | apply kept_hallPiece | rfl | intro _ | apply Kept.fold | apply Kept.foldSnd | simp only [Kept.raw_iff] | dsimp only
    | split | refine Kept.ofSnd (by with_reducible assumption) ?_ | refine Kept.ofThd (by with_reducible assumption) ?_

theorem kept_sendMsg (dst body reply tclass tenant sys island s) (h8 : Kept s0 s) : Kept s0 (sendMsg dst body reply tclass tenant sys island s).2 := by
  unfold sendMsg
  repeat' with_reducible first
    | assumption | apply kept_modFabric | apply kept_takeTag | apply kept_enqueue | rfl | intro _ | apply Kept.fold | apply Kept.foldSnd
    | simp only [Kept.raw_iff] | dsimp only | split

theorem kept_takeLoop (body s) (h2 : Kept s0 s) : Kept s0 (takeLoop body s) := by
  unfold takeLoop
  repeat' with_reducible first
    | assumption | apply kept_modFabric

/-! ### SampleOps -/

theorem kept_drawInterval (i s) (h2 : Kept s0 s) : Kept s0 (drawInterval i s) := by
  unfold drawInterval
  repeat' with_reducible first
    | assumption | apply Kept.modIsland

theorem kept_seedIsland (i s) (h2 : Kept s0 s) : Kept s0 (seedIsland i s) := by
  unfold seedIsland
  repeat' with_reducible first
    | assumption | apply kept_drawInterval | apply Kept.modIsland

theorem kept_settleHub (s) (h1 : Kept s0 s) : Kept s0 (settleHub s) := by
  unfold settleHub
  repeat' with_reducible first
    | assumption | apply kept_drawInterval | apply Kept.modSlot | simp only [Kept.raw_iff] | split | dsimp only

theorem kept_settleCore (k s) (h2 : Kept s0 s) : Kept s0 (settleCore k s) := by
  unfold settleCore
  repeat' with_reducible first
    | assumption | apply kept_drawInterval | apply Kept.modCore | split

theorem kept_sampleAdmit (n s) (h2 : Kept s0 s) : Kept s0 (sampleAdmit n s) := by
  unfold sampleAdmit
  repeat' with_reducible first
    | assumption | apply kept_settleHub | apply Kept.modIsland | simp only [Kept.raw_iff] | split | dsimp only

theorem kept_sampleStart (k mk s) (h3 : Kept s0 s) : Kept s0 (sampleStart k mk s) := by
  unfold sampleStart
  repeat' with_reducible first
    | assumption | apply kept_settleCore | apply Kept.modIsland | apply Kept.modCore | split | dsimp only

theorem kept_addSample (r s) (h2 : Kept s0 s) : Kept s0 (addSample r s) := by
  unfold addSample
  repeat' with_reducible first
    | assumption | simp only [Kept.raw_iff]

theorem kept_sampleEnd (k commit s) (h3 : Kept s0 s) : Kept s0 (sampleEnd k commit s) := by
  unfold sampleEnd
  repeat' with_reducible first
    | assumption | apply kept_settleCore | apply Kept.modCore | apply kept_addSample | rfl | intro _ | apply Kept.fold

theorem kept_sampleRequest (n s) (h2 : Kept s0 s) : Kept s0 (sampleRequest n s) := by
  unfold sampleRequest
  repeat' with_reducible first
    | assumption | apply kept_settleHub | apply kept_addSample | split | dsimp only

/-! ### CoreOps -/

theorem kept_decodeRow (k r s) (h3 : Kept s0 s) : Kept s0 (decodeRow k r s) := by
  unfold decodeRow
  repeat' with_reducible first
    | assumption | apply Kept.modCore | apply kept_countCorrected | apply kept_notable | simp only [Kept.raw_iff] | split | dsimp only

theorem kept_touchRows (k a n s) (h4 : Kept s0 s) : Kept s0 (touchRows k a n s) := by
  unfold touchRows
  repeat' with_reducible first
    | assumption | apply kept_decodeRow | rfl | intro _ | apply Kept.fold | apply Kept.foldSnd | simp only [Kept.raw_iff] | dsimp only
    | split

theorem kept_writeRow (k a m s) (h4 : Kept s0 s) : Kept s0 (writeRow k a m s) := by
  unfold writeRow
  repeat' with_reducible first
    | assumption | apply kept_decodeRow | apply Kept.modCore | split

theorem kept_spadWrite (k a m s) (h4 : Kept s0 s) : Kept s0 (spadWrite k a m s) := by
  unfold spadWrite
  repeat' with_reducible first
    | assumption | apply kept_writeRow | rfl | intro _ | apply Kept.fold

theorem kept_chargeFreeze (k s) (h2 : Kept s0 s) : Kept s0 (chargeFreeze k s) := by
  unfold chargeFreeze
  repeat' with_reducible first
    | assumption | apply kept_fresh | apply Kept.modCore | split

theorem kept_chargeWait (m s) (h2 : Kept s0 s) : Kept s0 (chargeWait m s) := by
  unfold chargeWait
  repeat' with_reducible first
    | assumption | apply kept_fresh | apply Kept.modCore | split

theorem kept_dropInbound (k q s) (h3 : Kept s0 s) : Kept s0 (dropInbound k q s) := by
  unfold dropInbound
  repeat' with_reducible first
    | assumption | apply Kept.modCore | apply kept_chargeWait | rfl | intro _ | apply Kept.fold | apply Kept.foldSnd
    | simp only [Kept.raw_iff] | dsimp only | split | refine Kept.ofSnd (by with_reducible assumption) ?_
    | refine Kept.ofThd (by with_reducible assumption) ?_

theorem kept_killAt (k pos s) (h3 : Kept s0 s) : Kept s0 (killAt k pos s) := by
  unfold killAt
  repeat' with_reducible first
    | assumption | apply kept_dropInbound | apply kept_chargeWait | apply kept_chargeFreeze | apply kept_modFabric | apply kept_sampleEnd
    | apply kept_countEv | apply Kept.modCore | rfl | intro _ | apply Kept.fold | apply Kept.foldSnd | simp only [Kept.raw_iff]
    | dsimp only | split | refine Kept.ofSnd (by with_reducible assumption) ?_ | refine Kept.ofThd (by with_reducible assumption) ?_

theorem kept_requeueAt (k pos f s) (h4 : Kept s0 s) : Kept s0 (requeueAt k pos f s) := by
  unfold requeueAt
  repeat' with_reducible first
    | assumption | apply Kept.modCluster | apply kept_killAt | split

theorem kept_forgetHomes (k first count : ℕ) (s : State) (h : Kept s0 s) : Kept s0 (forgetHomes k first count s) := by
  unfold forgetHomes
  refine Kept.tables h rfl rfl rfl rfl fun w => ?_
  simp only [wf, tablesWf, memoryWf, Bool.and_eq_true] at w ⊢
  simp only [w, twf_tmap, and_self]

theorem kept_dropCmds (a0 : Word32) (s : State) (h : Kept s0 s) : Kept s0 (dropCmds a0 s) := by
  unfold dropCmds
  refine Kept.tables (Kept.fold _ (fun s e h => kept_killAt _ _ _ h) h _) rfl rfl rfl rfl fun w => ?_
  simp only [wf, tablesWf, memoryWf, Bool.and_eq_true] at w ⊢
  simp only [w, twf_tmap, and_self]

/-! ### RequestOps -/

theorem kept_writeMirror (n a1 s) (h3 : Kept s0 s) : Kept s0 (writeMirror n a1 s) := by
  unfold writeMirror
  repeat' with_reducible first
    | assumption | apply kept_hostWrite | apply Kept.modSlot

theorem kept_changeStatus (n force f s) (h4 : Kept s0 s) : Kept s0 (changeStatus n force f s) := by
  unfold changeStatus
  repeat' with_reducible first
    | assumption | apply Kept.modSlot | apply kept_writeMirror | split | dsimp only

theorem kept_dropScanReqs (p : OwnerReq → Bool) (s : State) (h : Kept s0 s) : Kept s0 (dropScanReqs p s) := by
  refine Kept.tables h rfl rfl rfl rfl fun w => ?_
  simp only [wf, tablesWf, memoryWf, dropScanReqs, Bool.and_eq_true] at w ⊢
  simp only [w, twf_tmap, and_self]

theorem kept_freeSeq (q s) (h2 : Kept s0 s) : Kept s0 (freeSeq q s) := by
  unfold freeSeq
  repeat' with_reducible first
    | assumption | apply kept_freePage | rfl | intro _ | apply Kept.fold

theorem kept_dropSeqs (slot masks s) (h3 : Kept s0 s) : Kept s0 (dropSeqs slot masks s) := by
  unfold dropSeqs
  repeat' with_reducible first
    | assumption | apply kept_fresh | apply kept_freeSeq | rfl | intro _ | apply Kept.fold | apply Kept.foldSnd
    | simp only [Kept.raw_iff] | dsimp only | split

theorem kept_killLocal (a0 : ℕ) (a1 : Word32) (s : State) (h : Kept s0 s) : Kept s0 (killLocal a0 a1 s) := by
  unfold killLocal
  have h1 : Kept s0 (if a0 = s.deviceId then dropCmds a1 s else s) := by
    split
    · exact kept_dropCmds _ _ h
    · exact h
  refine Kept.tables (kept_dropScanReqs (fun r => r.entry = a0 && r.handle = a1) _ h1) rfl rfl rfl rfl fun w => ?_
  simp only [wf, tablesWf, memoryWf, Bool.and_eq_true] at w ⊢
  simp only [w, twf_tmap, and_self]

theorem kept_sendKills (n code s) (h3 : Kept s0 s) : Kept s0 (sendKills n code s) := by
  unfold sendKills
  repeat' with_reducible first
    | assumption | apply kept_sendMsg | rfl | intro _ | apply Kept.fold

theorem kept_countEnd (n s) (h2 : Kept s0 s) : Kept s0 (countEnd n s) := by
  unfold countEnd
  repeat' with_reducible first
    | assumption | apply Kept.modHub

theorem kept_endRequest (n state code s) (h4 : Kept s0 s) : Kept s0 (endRequest n state code s) := by
  unfold endRequest
  repeat' with_reducible first
    | assumption | apply kept_changeStatus | apply kept_dropSeqs | apply kept_killLocal | apply kept_sendKills | apply kept_modFabric
    | apply kept_countEnd | apply Kept.modSlot | apply kept_sampleRequest | split

theorem kept_failRequest (a0 code s) (h3 : Kept s0 s) : Kept s0 (failRequest a0 code s) := by
  unfold failRequest
  repeat' with_reducible first
    | assumption | apply kept_endRequest | split

theorem kept_failSlot (n code s) (h3 : Kept s0 s) : Kept s0 (failSlot n code s) := by
  unfold failSlot
  repeat' with_reducible first
    | assumption | apply kept_failRequest

theorem kept_finishRequest (n count s) (h3 : Kept s0 s) : Kept s0 (finishRequest n count s) := by
  unfold finishRequest
  repeat' with_reducible first
    | assumption | apply kept_dropSeqs | apply kept_changeStatus | apply kept_countEnd | apply Kept.modSlot | apply kept_sampleRequest

theorem kept_startStage (n g s) (h3 : Kept s0 s) : Kept s0 (startStage n g s) := by
  unfold startStage
  repeat' with_reducible first
    | assumption | apply kept_changeStatus | apply Kept.modSlot

/-! ### LinkOps -/

theorem kept_routeOut (p s) (h2 : Kept s0 s) : Kept s0 (routeOut p s) := by
  unfold routeOut
  repeat' with_reducible first
    | assumption | apply kept_enqueue | split

theorem kept_moveOut (l s) (h2 : Kept s0 s) : Kept s0 (moveOut l s) := by
  unfold moveOut
  repeat' with_reducible first
    | assumption | apply Kept.modLink | apply kept_routeOut | rfl | intro _ | apply Kept.fold

theorem kept_retrain (l cause s) (h3 : Kept s0 s) : Kept s0 (retrain l cause s) := by
  unfold retrain
  repeat' with_reducible first
    | assumption | apply kept_setLinkFn | apply Kept.modLink | apply kept_notable | apply kept_moveOut | split | dsimp only

theorem kept_linkUp (l peer peerLink s) (h4 : Kept s0 s) : Kept s0 (linkUp l peer peerLink s) := by
  unfold linkUp
  repeat' with_reducible first
    | assumption | apply kept_setLinkFn | apply Kept.modLink

theorem kept_sendControl (l c s) (h3 : Kept s0 s) : Kept s0 (sendControl l c s) := by
  unfold sendControl
  repeat' with_reducible first
    | assumption | apply Kept.modLink

theorem kept_returnCredit (l p s) (h3 : Kept s0 s) : Kept s0 (returnCredit l p s) := by
  unfold returnCredit
  repeat' with_reducible first
    | assumption | apply kept_sendControl

theorem kept_takeAck (l a s) (h3 : Kept s0 s) : Kept s0 (takeAck l a s) := by
  unfold takeAck
  repeat' with_reducible first
    | assumption | apply Kept.modLink

theorem kept_takeNak (l x s) (h3 : Kept s0 s) : Kept s0 (takeNak l x s) := by
  unfold takeNak
  repeat' with_reducible first
    | assumption | apply Kept.modLink | apply kept_countEv | apply kept_retrain | split | dsimp only

theorem kept_receive (l p s) (h3 : Kept s0 s) : Kept s0 (receive l p s).2 := by
  unfold receive
  repeat' with_reducible first
    | assumption | apply kept_countEv | apply kept_takeAck | apply Kept.modLink | apply kept_sendControl | split | dsimp only

theorem kept_police (l p s) (h3 : Kept s0 s) : Kept s0 (police l p s).2 := by
  unfold police
  repeat' with_reducible first
    | assumption | apply kept_countEv | simp only [Kept.raw_iff] | split | dsimp only

theorem kept_forward (p s) (h2 : Kept s0 s) : Kept s0 (forward p s) := by
  unfold forward
  repeat' with_reducible first
    | assumption | apply kept_modFabric | apply kept_routeOut | split

theorem kept_arrive (type l p) (serve : State → State) (s) (h4 : ∀ y0, Kept s0 y0 → Kept s0 (serve y0)) (h5 : Kept s0 s) : Kept s0 (arrive type l p serve s) := by
  unfold arrive
  repeat' with_reducible first
    | assumption | apply h4 | apply kept_receive | apply kept_police | apply kept_returnCredit | apply kept_forward
    | simp only [Kept.raw_iff] | split | dsimp only

theorem kept_serveRead (p s) (h2 : Kept s0 s) : Kept s0 (serveRead p s) := by
  unfold serveRead
  repeat' with_reducible first
    | assumption | apply kept_routeOut | apply kept_touch | rfl | intro _ | apply Kept.fold | apply Kept.foldSnd
    | simp only [Kept.raw_iff] | dsimp only | split

theorem kept_issue (island issuer f payload s) (h5 : Kept s0 s) : Kept s0 (issue island issuer f payload s).2 := by
  unfold issue
  repeat' with_reducible first
    | assumption | apply kept_takeTag | apply kept_modFabric | apply kept_enqueue | simp only [Kept.raw_iff] | split | dsimp only

theorem kept_dropAccess (island tag s) (h3 : Kept s0 s) : Kept s0 (dropAccess island tag s) := by
  unfold dropAccess
  repeat' with_reducible first
    | assumption | apply kept_modFabric

theorem kept_startPacket (l q s) (h3 : Kept s0 s) : Kept s0 (startPacket l q s) := by
  unfold startPacket
  repeat' with_reducible first
    | assumption | apply Kept.modLink | apply kept_countEv | simp only [Kept.raw_iff] | split | dsimp only

end Sys2Proof.Machine
end

