-- ==== Sys2Proof/Laws/KeptRuns.lean ====
section
/-! SUPPORT. Safety.Kept goes on through publish jobs, containment, cores at work and the fabric. -/

namespace Sys2Proof.Machine

open Safety

set_option maxRecDepth 8000
set_option linter.unreachableTactic false
set_option linter.unusedTactic false
set_option linter.unusedSimpArgs false

variable {s0 : State}

/-! ### Publish -/

theorem kept_pagesReserve (d s) (h2 : Kept s0 s) : Kept s0 (pagesReserve d s) := by
  unfold pagesReserve
  repeat' with_reducible first
    | assumption | apply kept_reservePage | rfl | intro _ | apply Kept.fold | apply Kept.foldSnd | simp only [Kept.raw_iff] | dsimp only
    | split

theorem kept_submitJob (d s) (h2 : Kept s0 s) : Kept s0 (submitJob d s).2 := by
  unfold submitJob
  repeat' with_reducible first
    | assumption | apply kept_pagesReserve | apply Kept.modJob | simp only [Kept.raw_iff] | split | dsimp only

theorem kept_noteJob (n s) (h2 : Kept s0 s) : Kept s0 (noteJob n s) := by
  unfold noteJob
  repeat' with_reducible first
    | assumption | apply kept_raiseEvent

theorem kept_orphanPages (d s) (h2 : Kept s0 s) : Kept s0 (orphanPages d s) := by
  unfold orphanPages
  repeat' with_reducible first
    | assumption | apply Kept.modPage | rfl | intro _ | apply Kept.fold | apply Kept.foldSnd | simp only [Kept.raw_iff] | dsimp only
    | split | refine Kept.ofSnd (by with_reducible assumption) ?_ | refine Kept.ofThd (by with_reducible assumption) ?_

theorem kept_dropJobAccesses (n a1) (h2 : Kept s0 a1) : Kept s0 (dropJobAccesses n a1) := by
  unfold dropJobAccesses
  repeat' with_reducible first
    | assumption | apply kept_modFabric

theorem kept_failJob (n code s) (h3 : Kept s0 s) : Kept s0 (failJob n code s) := by
  unfold failJob
  repeat' with_reducible first
    | assumption | apply kept_dropJobAccesses | apply kept_noteJob | apply Kept.modJob | apply kept_orphanPages | rfl | intro _
    | apply Kept.fold | apply Kept.foldSnd | simp only [Kept.raw_iff] | dsimp only | split

theorem kept_endJob (n s) (h2 : Kept s0 s) : Kept s0 (endJob n s) := by
  unfold endJob
  repeat' with_reducible first
    | assumption | apply kept_noteJob | apply Kept.modJob

theorem kept_endOp (n code s) (h3 : Kept s0 s) : Kept s0 (endOp n code s) := by
  unfold endOp
  repeat' with_reducible first
    | assumption | apply kept_dropJobAccesses | apply Kept.modJob | apply kept_orphanPages | split

theorem kept_stopWork (n code s) (h3 : Kept s0 s) : Kept s0 (stopWork n code s) := by
  unfold stopWork
  repeat' with_reducible first
    | assumption | apply kept_endOp | apply kept_endJob | apply kept_failJob | split

theorem kept_failJobsOf (stack code s) (h3 : Kept s0 s) : Kept s0 (failJobsOf stack code s) := by
  unfold failJobsOf
  repeat' with_reducible first
    | assumption | apply kept_stopWork | rfl | intro _ | apply Kept.fold

theorem kept_sourcePage (d a src s) (h4 : Kept s0 s) : Kept s0 (sourcePage d a src s).2 := by
  unfold sourcePage
  repeat' with_reducible first
    | assumption | apply kept_hallRead | apply kept_hostRead | apply kept_touch | split

theorem kept_acceptPage (pointer off data s) (h4 : Kept s0 s) : Kept s0 (acceptPage pointer off data s).2 := by
  unfold acceptPage
  repeat' with_reducible first
    | assumption | apply kept_writePage | split | dsimp only

theorem kept_servePublish (p s) (h2 : Kept s0 s) : Kept s0 (servePublish p s) := by
  unfold servePublish
  repeat' with_reducible first
    | assumption | apply kept_modHbm | apply kept_acceptPage | apply kept_routeOut | split

theorem kept_missPage (n i addr right code s) (h6 : Kept s0 s) : Kept s0 (missPage n i addr right code s) := by
  unfold missPage
  repeat' with_reducible first
    | assumption | apply kept_stopWork | apply kept_unresolved | apply kept_modFabric | apply Kept.modJob | split

theorem kept_pageSent (n i s) (h3 : Kept s0 s) : Kept s0 (pageSent n i s) := by
  unfold pageSent
  repeat' with_reducible first
    | assumption | apply Kept.modJob

theorem kept_pageDone (n s) (h2 : Kept s0 s) : Kept s0 (pageDone n s) := by
  unfold pageDone
  repeat' with_reducible first
    | assumption | apply Kept.modJob

theorem kept_putPage (n i data s) (h4 : Kept s0 s) : Kept s0 (putPage n i data s) := by
  unfold putPage
  repeat' with_reducible first
    | assumption | apply kept_pageDone | apply kept_pageSent | apply kept_writePage | apply kept_stopWork | apply kept_keyCheck
    | apply kept_missPage | apply kept_acceptPage | apply kept_issue | rfl | intro _ | apply Kept.fold | apply Kept.foldSnd
    | simp only [Kept.raw_iff] | dsimp only | split | refine Kept.ofSnd (by with_reducible assumption) ?_
    | refine Kept.ofThd (by with_reducible assumption) ?_

theorem kept_pageOf (n i src s) (h4 : Kept s0 s) : Kept s0 (pageOf n i src s) := by
  unfold pageOf
  repeat' with_reducible first
    | assumption | apply kept_sourcePage | apply kept_stopWork | apply kept_putPage | apply kept_missPage | rfl | intro _
    | apply Kept.fold | apply Kept.foldSnd | simp only [Kept.raw_iff] | dsimp only | split
    | refine Kept.ofSnd (by with_reducible assumption) ?_ | refine Kept.ofThd (by with_reducible assumption) ?_

theorem kept_settlePages (n s) (h2 : Kept s0 s) : Kept s0 (settlePages n s) := by
  unfold settlePages
  repeat' with_reducible first
    | assumption | apply kept_stopWork | split | dsimp only

theorem kept_runPages (n src s) (h3 : Kept s0 s) : Kept s0 (runPages n src s) := by
  unfold runPages
  repeat' with_reducible first
    | assumption | apply kept_stopWork | apply kept_settlePages | apply kept_withSnoops | apply kept_pageOf | rfl | intro _
    | apply Kept.fold | apply Kept.foldSnd | simp only [Kept.raw_iff] | dsimp only | split

theorem kept_startJob (n s) (h2 : Kept s0 s) : Kept s0 (startJob n s) := by
  unfold startJob
  repeat' with_reducible first
    | assumption | apply Kept.modJob

theorem kept_execPages (job src s) (h3 : Kept s0 s) : ∃ t, execPages job src s = .next t ∧ Kept s0 t := by
  unfold execPages
  refine ⟨_, rfl, ?_⟩
  repeat' with_reducible first
    | assumption | apply kept_runPages | apply kept_startJob | split

theorem kept_ackPage (n code s) (h3 : Kept s0 s) : Kept s0 (ackPage n code s) := by
  unfold ackPage
  repeat' with_reducible first
    | assumption | apply kept_stopWork | apply kept_settlePages | apply kept_pageDone | split

theorem kept_sweepRetiring (scope pen s) (h3 : Kept s0 s) : Kept s0 (sweepRetiring scope pen s) := by
  unfold sweepRetiring
  repeat' with_reducible first
    | assumption | apply kept_freePage | rfl | intro _ | apply Kept.fold

theorem kept_freeOne (d p s) (h3 : Kept s0 s) : Kept s0 (freeOne d p s).2 := by
  unfold freeOne
  repeat' with_reducible first
    | assumption | apply Kept.modPage | apply kept_freePage | split | dsimp only

theorem kept_runFree (d : Words) (s : State) (h : Kept s0 s) : Kept s0 (runFree d s).2.2 := by
  unfold runFree
  split
  · exact h
  split
  · exact h
  refine Kept.foldBy (fun a : Word16 × ℕ × State => a.2.2) _ (fun a p ha => ?_) _ h _
  dsimp only
  split <;> exact kept_freeOne _ _ _ ha

theorem kept_execFreeJob (job s) (h2 : Kept s0 s) : ∃ t, execFreeJob job s = .next t ∧ Kept s0 t := by
  unfold execFreeJob
  refine ⟨_, rfl, ?_⟩
  repeat' with_reducible first
    | assumption | apply kept_runFree | apply Kept.modJob | apply kept_failJob | apply kept_endJob | rfl | intro _ | apply Kept.fold
    | apply Kept.foldSnd | simp only [Kept.raw_iff] | dsimp only | split | refine Kept.ofSnd (by with_reducible assumption) ?_
    | refine Kept.ofThd (by with_reducible assumption) ?_

theorem kept_runSwitch (prior : Bool) (d : Words) (s : State) (h : Kept s0 s) : Kept s0 (runSwitch prior d s).2 := by
  have h1 : Kept s0 (touch [(jbDst d, if jbWide d then 64 else 8)] s) := kept_touch _ _ h
  revert h1
  unfold runSwitch
  dsimp only
  generalize (if jbWide d then 64 else 8) = k
  generalize touch [(jbDst d, k)] s = t
  intro h1
  repeat' split
  all_goals first
    | exact h
    | exact h1
    | exact Kept.raw h1 rfl rfl rfl rfl rfl
    | exact kept_sweepRetiring _ _ _ (kept_rewriteIn _ _ _ _ h1)
    | exact kept_rewriteIn _ _ _ _ h1

theorem kept_execSwitchJob (job s) (h2 : Kept s0 s) : ∃ t, execSwitchJob job s = .next t ∧ Kept s0 t := by
  unfold execSwitchJob
  refine ⟨_, rfl, ?_⟩
  repeat' with_reducible first
    | assumption | apply kept_runSwitch | apply kept_failJob | apply kept_endJob | simp only [Kept.raw_iff] | split | dsimp only

theorem kept_readOps (d k n given s) (h5 : Kept s0 s) : Kept s0 (readOps d k n given s).2.2 := by
  unfold readOps
  repeat' with_reducible first
    | assumption | apply kept_readHost | split

theorem kept_loadLine (n writable s) (h3 : Kept s0 s) : Kept s0 (loadLine n writable s) := by
  unfold loadLine
  repeat' with_reducible first
    | assumption | apply kept_failJob | apply Kept.modJob | apply kept_hostWrite | apply kept_endJob | split | dsimp only

theorem kept_beginOp (n prior d s) (h4 : Kept s0 s) : Kept s0 (beginOp n prior d s) := by
  unfold beginOp
  repeat' with_reducible first
    | assumption | apply kept_endOp | apply Kept.modJob | apply kept_pagesReserve | apply kept_runFree | apply kept_runSwitch | split
    | dsimp only

theorem kept_loadOp (n writable o s) (h4 : Kept s0 s) : Kept s0 (loadOp n writable o s) := by
  unfold loadOp
  repeat' with_reducible first
    | assumption | apply kept_loadLine | apply kept_runPages | apply kept_readOps | apply kept_failJob | apply kept_beginOp | split
    | dsimp only

theorem kept_loadFirst (n ops s) (h3 : Kept s0 s) : Kept s0 (loadFirst n ops s) := by
  unfold loadFirst
  repeat' with_reducible first
    | assumption | apply kept_readOps | apply kept_failJob | apply Kept.modJob | split | dsimp only

theorem kept_loadRuns (n ops writable s) (h4 : Kept s0 s) : Kept s0 (loadRuns n ops writable s) := by
  unfold loadRuns
  repeat' with_reducible first
    | assumption | apply kept_loadLine | apply kept_loadOp | apply kept_startJob | rfl | intro _ | apply Kept.fold | apply Kept.foldSnd
    | simp only [Kept.raw_iff] | dsimp only | split | refine Kept.ofSnd (by with_reducible assumption) ?_
    | refine Kept.ofThd (by with_reducible assumption) ?_

theorem kept_execLoadJob (job ops writable s) (h4 : Kept s0 s) : ∃ t, execLoadJob job ops writable s = .next t ∧ Kept s0 t := by
  unfold execLoadJob
  refine ⟨_, rfl, ?_⟩
  repeat' with_reducible first
    | assumption | apply kept_failJob | apply kept_withSnoops | apply kept_loadFirst | apply kept_loadRuns | rfl | intro _
    | apply Kept.fold | apply Kept.foldSnd | simp only [Kept.raw_iff] | dsimp only | split

theorem kept_releaseJob (v s) (h2 : Kept s0 s) : Kept s0 (releaseJob v s) := by
  unfold releaseJob
  repeat' with_reducible first
    | assumption | apply Kept.modJob | split

theorem kept_advanceEpoch (n e s) (h3 : Kept s0 s) : Kept s0 (advanceEpoch n e s).2 := by
  unfold advanceEpoch
  repeat' with_reducible first
    | assumption | apply kept_raiseEvent | apply Kept.modCorpus | split

theorem kept_raiseFloor (n f s) (h3 : Kept s0 s) : Kept s0 (raiseFloor n f s).2 := by
  unfold raiseFloor
  repeat' with_reducible first
    | assumption | apply kept_sweepRetiring | apply Kept.modCorpus | split | dsimp only

/-! ### FaultOps -/

theorem kept_countRequeue (s) (h1 : Kept s0 s) : Kept s0 (countRequeue s) := by
  unfold countRequeue
  repeat' with_reducible first
    | assumption | simp only [Kept.raw_iff]

theorem kept_requeueCore (k s) (h2 : Kept s0 s) : Kept s0 (requeueCore k s) := by
  unfold requeueCore
  repeat' with_reducible first
    | assumption | apply kept_forgetHomes | apply kept_countRequeue | apply kept_requeueAt | rfl | intro _ | apply Kept.fold

theorem kept_holdCluster (n s) (h2 : Kept s0 s) : Kept s0 (holdCluster n s) := by
  unfold holdCluster
  repeat' with_reducible first
    | assumption | apply kept_requeueCore | apply Kept.modCluster | rfl | intro _ | apply Kept.fold | apply Kept.foldSnd
    | simp only [Kept.raw_iff] | dsimp only | split

theorem kept_releasePins (n s) (h2 : Kept s0 s) : Kept s0 (releasePins n s) := by
  unfold releasePins
  repeat' with_reducible first
    | assumption | apply kept_modKeyring

theorem kept_dropFlocks (m s) (h2 : Kept s0 s) : Kept s0 (dropFlocks m s) := by
  unfold dropFlocks
  repeat' with_reducible first
    | assumption | apply Kept.modStack | simp only [Kept.raw_iff]

theorem kept_clusterOff (n s) (h2 : Kept s0 s) : Kept s0 (clusterOff n s) := by
  unfold clusterOff
  repeat' with_reducible first
    | assumption | apply Kept.modCore | apply kept_releasePins | apply kept_setClusterFn | apply Kept.modCluster | rfl | intro _
    | apply Kept.fold

theorem kept_hingeDone (code s) (h2 : Kept s0 s) : Kept s0 (hingeDone code s) := by
  unfold hingeDone
  repeat' with_reducible first
    | assumption | apply kept_noteLong | apply kept_modHbm

theorem kept_serveHeld (s) (h1 : Kept s0 s) : Kept s0 (serveHeld s) := by
  unfold serveHeld
  repeat' with_reducible first
    | assumption | apply kept_servePublish | apply kept_modHbm | rfl | intro _ | apply Kept.fold | apply Kept.foldSnd
    | simp only [Kept.raw_iff] | dsimp only | split | refine Kept.ofSnd (by with_reducible assumption) ?_
    | refine Kept.ofThd (by with_reducible assumption) ?_

theorem kept_hingeActive (m j bad s) (h4 : Kept s0 s) : Kept s0 (hingeActive m j bad s) := by
  unfold hingeActive
  repeat' with_reducible first
    | assumption | apply kept_serveHeld | apply kept_hingeDone | apply kept_notable | apply Kept.modStack

theorem kept_dropHingeCopy (s) (h1 : Kept s0 s) : Kept s0 (dropHingeCopy s) := by
  unfold dropHingeCopy
  repeat' with_reducible first
    | assumption | apply kept_serveHeld | apply kept_hingeDone | apply Kept.modStack | split

theorem kept_endCopyOff (m s) (h2 : Kept s0 s) : Kept s0 (endCopyOff m s) := by
  unfold endCopyOff
  repeat' with_reducible first
    | assumption | apply kept_hingeActive | split

theorem kept_stackOff (m s) (h2 : Kept s0 s) : Kept s0 (stackOff m s) := by
  unfold stackOff
  repeat' with_reducible first
    | assumption | apply kept_endCopyOff | apply kept_setStackFn | apply Kept.modStack | apply kept_eraseStack

theorem kept_backInService (i s) (h2 : Kept s0 s) : Kept s0 (backInService i s) := by
  unfold backInService
  repeat' with_reducible first
    | assumption | apply kept_notable | apply Kept.modIsland | split

theorem kept_releaseHold (i s) (h2 : Kept s0 s) : Kept s0 (releaseHold i s) := by
  unfold releaseHold
  repeat' with_reducible first
    | assumption | apply Kept.modIsland

theorem kept_failReceipt (code s) (h2 : Kept s0 s) : Kept s0 (failReceipt code s) := by
  unfold failReceipt
  repeat' with_reducible first
    | assumption | apply kept_raiseEvent | apply kept_setFwFn | simp only [Kept.raw_iff]

theorem kept_hostCut (s) (h1 : Kept s0 s) : Kept s0 (hostCut s) := by
  unfold hostCut
  repeat' with_reducible first
    | assumption | apply kept_failReceipt | apply kept_fresh | apply Kept.modSlot | rfl | intro _ | apply Kept.fold | apply Kept.foldSnd
    | simp only [Kept.raw_iff] | dsimp only | split

theorem kept_contain (i slip s) (h3 : Kept s0 s) : Kept s0 (contain i slip s) := by
  unfold contain
  repeat' with_reducible first
    | assumption | apply kept_failRequest | apply kept_killAt | apply kept_requeueCore | apply kept_modFabric | apply kept_clusterOff
    | apply kept_holdCluster | apply kept_setClusterFn | apply kept_releasePins | apply kept_failJobsOf | apply kept_dropFlocks
    | apply kept_stackOff | apply kept_setStackFn | apply Kept.modStack | apply kept_moveOut | apply kept_setLinkFn | apply Kept.modLink
    | apply kept_setTextFn | apply Kept.modText | apply kept_hostCut | apply kept_noteReady | apply Kept.modHost | rfl | intro _
    | apply Kept.fold | apply Kept.foldSnd | simp only [Kept.raw_iff] | dsimp only | split

theorem kept_raiseFault (i code detail addr s) (h5 : Kept s0 s) : Kept s0 (raiseFault i code detail addr s) := by
  unfold raiseFault
  repeat' with_reducible first
    | assumption | apply Kept.modIsland | apply Kept.modStack | apply kept_contain | simp only [Kept.raw_iff] | split | dsimp only

theorem kept_slipFault (k case index s) (h4 : Kept s0 s) : Kept s0 (slipFault k case index s) := by
  unfold slipFault
  repeat' with_reducible first
    | assumption | apply Kept.modCore | apply kept_raiseFault | simp only [Kept.raw_iff] | split | dsimp only

theorem kept_stateFault (i cls addr s) (h4 : Kept s0 s) : Kept s0 (stateFault i cls addr s) := by
  unfold stateFault
  repeat' with_reducible first
    | assumption | apply kept_raiseFault | simp only [Kept.raw_iff]

theorem kept_setByteErr (i cls addr e s) (h5 : Kept s0 s) : Kept s0 (setByteErr i cls addr e s) := by
  unfold setByteErr
  repeat' with_reducible first
    | assumption | apply Kept.modCore | rfl | intro _ | apply Kept.fold | apply Kept.foldSnd | simp only [Kept.raw_iff] | dsimp only
    | split | refine Kept.ofSnd (by with_reducible assumption) ?_ | refine Kept.ofThd (by with_reducible assumption) ?_

theorem kept_decodeByte (island cls addr s) (h4 : Kept s0 s) : Kept s0 (decodeByte island cls addr s) := by
  unfold decodeByte
  repeat' with_reducible first
    | assumption | apply kept_notable | apply kept_countCorrected | apply kept_setByteErr | apply kept_stateFault | rfl | intro _
    | apply Kept.fold | apply Kept.foldSnd | simp only [Kept.raw_iff] | dsimp only | split
    | refine Kept.ofSnd (by with_reducible assumption) ?_ | refine Kept.ofThd (by with_reducible assumption) ?_

theorem kept_readState (island cls addr n s) (h5 : Kept s0 s) : Kept s0 (readState island cls addr n s) := by
  unfold readState
  repeat' with_reducible first
    | assumption | apply kept_decodeByte | rfl | intro _ | apply Kept.fold | apply Kept.foldSnd | simp only [Kept.raw_iff] | dsimp only
    | split | refine Kept.ofSnd (by with_reducible assumption) ?_ | refine Kept.ofThd (by with_reducible assumption) ?_

theorem kept_writeState (island cls addr n s) (h5 : Kept s0 s) : Kept s0 (writeState island cls addr n s) := by
  unfold writeState
  repeat' with_reducible first
    | assumption | simp only [Kept.raw_iff]

/-! ### Programs -/

theorem kept_endCommand (k code s) (h3 : Kept s0 s) : Kept s0 (endCommand k code s) := by
  unfold endCommand
  repeat' with_reducible first
    | assumption | apply kept_failRequest | apply kept_killAt | split

theorem kept_bankCounts (k ranges s) (h3 : Kept s0 s) : Kept s0 (bankCounts k ranges s) := by
  unfold bankCounts
  repeat' with_reducible first
    | assumption | apply Kept.modCore | apply Kept.modHub

theorem kept_takeReads (k us s) (h3 : Kept s0 s) : Kept s0 (takeReads k us s) := by
  unfold takeReads
  repeat' with_reducible first
    | assumption | apply kept_touchRows | apply Kept.modCore | rfl | intro _ | apply Kept.fold | apply Kept.foldSnd
    | simp only [Kept.raw_iff] | dsimp only | split | refine Kept.ofSnd (by with_reducible assumption) ?_
    | refine Kept.ofThd (by with_reducible assumption) ?_

theorem kept_freezeOn (k slot row index s) (h5 : Kept s0 s) : Kept s0 (freezeOn k slot row index s) := by
  unfold freezeOn
  repeat' with_reducible first
    | assumption | apply kept_slipFault | apply Kept.modCore | split

theorem kept_readControl (k slots ranges s) (h4 : Kept s0 s) : Kept s0 (readControl k slots ranges s) := by
  unfold readControl
  repeat' with_reducible first
    | assumption | apply kept_readState | rfl | intro _ | apply Kept.fold | apply Kept.foldSnd | simp only [Kept.raw_iff] | dsimp only
    | split | refine Kept.ofSnd (by with_reducible assumption) ?_ | refine Kept.ofThd (by with_reducible assumption) ?_

theorem kept_readForStart (k ph w s) (h4 : Kept s0 s) : Kept s0 (readForStart k ph w s) := by
  unfold readForStart
  repeat' with_reducible first
    | assumption | apply kept_readControl | apply kept_readState | rfl | intro _ | apply Kept.fold | apply Kept.foldSnd
    | simp only [Kept.raw_iff] | dsimp only | split | refine Kept.ofSnd (by with_reducible assumption) ?_
    | refine Kept.ofThd (by with_reducible assumption) ?_

theorem kept_abandonRun (k r s) (h3 : Kept s0 s) : Kept s0 (abandonRun k r s) := by
  unfold abandonRun
  repeat' with_reducible first
    | assumption | apply kept_fresh | apply Kept.modCore | apply kept_spadWrite | rfl | intro _ | apply Kept.fold | apply Kept.foldSnd
    | simp only [Kept.raw_iff] | dsimp only | split | refine Kept.ofSnd (by with_reducible assumption) ?_
    | refine Kept.ofThd (by with_reducible assumption) ?_

theorem kept_abandon (k w t s) (h4 : Kept s0 s) : Kept s0 (abandon k w t s) := by
  unfold abandon
  repeat' with_reducible first
    | assumption | apply kept_abandonRun | rfl | intro _ | apply Kept.fold | apply Kept.foldSnd | simp only [Kept.raw_iff] | dsimp only
    | split | refine Kept.ofSnd (by with_reducible assumption) ?_ | refine Kept.ofThd (by with_reducible assumption) ?_

theorem kept_startNext (kind k) (run : Words → ℕ → Bool → State → State) (s) (h3 : ∀ y0 y1 y2 y3, Kept s0 y3 → Kept s0 (run y0 y1 y2 y3)) (h4 : Kept s0 s) : Kept s0 (startNext kind k run s) := by
  unfold startNext
  repeat' with_reducible first
    | assumption | apply h3 | apply kept_readState | apply kept_slipFault | apply kept_abandon | split | dsimp only

theorem kept_countStart (k engine w waited s) (h5 : Kept s0 s) : Kept s0 (countStart k engine w waited s) := by
  unfold countStart
  repeat' with_reducible first
    | assumption | apply Kept.modHub | apply kept_sampleStart | apply kept_countEv | rfl | intro _ | apply Kept.fold | apply Kept.foldSnd
    | simp only [Kept.raw_iff] | dsimp only | split | refine Kept.ofSnd (by with_reducible assumption) ?_
    | refine Kept.ofThd (by with_reducible assumption) ?_

theorem kept_runEngine (k w t fed s) (h5 : Kept s0 s) : Kept s0 (runEngine k w t fed s) := by
  unfold runEngine
  repeat' with_reducible first
    | assumption | apply kept_readForStart | apply kept_endCommand | apply kept_freezeOn | apply kept_countStart | apply Kept.modCore
    | apply kept_takeReads | split | dsimp only

theorem kept_execArrayPass (core s) (h2 : Kept s0 s) : ∃ t, execArrayPass core s = .next t ∧ Kept s0 t := by
  unfold execArrayPass
  refine ⟨_, rfl, ?_⟩
  repeat' with_reducible first
    | assumption | apply kept_startNext | apply kept_runEngine

theorem kept_execVectorOp (core s) (h2 : Kept s0 s) : ∃ t, execVectorOp core s = .next t ∧ Kept s0 t := by
  unfold execVectorOp
  refine ⟨_, rfl, ?_⟩
  repeat' with_reducible first
    | assumption | apply kept_startNext | apply kept_runEngine

theorem kept_ownPiece (sc isLocal right addr len s) (h6 : Kept s0 s) : Kept s0 (ownPiece sc isLocal right addr len s).2.2 := by
  unfold ownPiece
  repeat' with_reducible first
    | assumption | apply kept_touch | rfl | intro _ | apply Kept.fold | apply Kept.foldSnd | simp only [Kept.raw_iff] | dsimp only
    | split | refine Kept.ofSnd (by with_reducible assumption) ?_ | refine Kept.ofThd (by with_reducible assumption) ?_

theorem kept_issuePiece (k id right addr len s) (h6 : Kept s0 s) : Kept s0 (issuePiece k id right addr len s).2 := by
  unfold issuePiece
  repeat' with_reducible first
    | assumption | apply kept_endCommand | apply kept_keyCheck | apply kept_unresolved | apply kept_requeueAt | apply kept_modFabric
    | apply kept_ownPiece | apply kept_issue | rfl | intro _ | apply Kept.fold | apply Kept.foldSnd | simp only [Kept.raw_iff]
    | dsimp only | split | refine Kept.ofSnd (by with_reducible assumption) ?_ | refine Kept.ofThd (by with_reducible assumption) ?_

theorem kept_issueAll (k id right a3 a4 a5) (h6 : Kept s0 a5) : Kept s0 (issueAll k id right a3 a4 a5).2 := by
  induction a3 generalizing a4 a5 with
  | nil =>
    unfold issueAll
    repeat' with_reducible first
    | assumption | rfl | intro _ | dsimp only | split
  | cons _ _ ih =>
    unfold issueAll
    repeat' with_reducible first
    | assumption | apply kept_issuePiece | apply ih | rfl | intro _ | dsimp only | split
    | refine Kept.ofSnd (by with_reducible assumption) ?_ | refine Kept.ofThd (by with_reducible assumption) ?_

theorem kept_readLocal (k : ℕ) (l : List (ℕ × ℕ)) (got : List Piece) (s : State) (h : Kept s0 s) : Kept s0 (readLocal k l got s).2 := by
  induction l generalizing got s with
  | nil => exact h
  | cons a l ih =>
    unfold readLocal
    split
    · next e => exact ih _ _ (Kept.ofThd e (kept_ownPiece _ _ _ _ _ _ h))
    · next e => exact kept_endCommand _ _ _ (Kept.ofThd e (kept_ownPiece _ _ _ _ _ _ h))

theorem kept_runMove (k w t fed s) (h5 : Kept s0 s) : Kept s0 (runMove k w t fed s) := by
  unfold runMove
  repeat' with_reducible first
    | assumption | apply kept_readForStart | apply kept_freezeOn | apply kept_endCommand | apply kept_takeReads | apply kept_readLocal
    | apply kept_issueAll | apply kept_countStart | apply Kept.modCore | split | dsimp only

theorem kept_execMoveOp (core s) (h2 : Kept s0 s) : ∃ t, execMoveOp core s = .next t ∧ Kept s0 t := by
  unfold execMoveOp
  refine ⟨_, rfl, ?_⟩
  repeat' with_reducible first
    | assumption | apply kept_startNext | apply kept_runMove

theorem kept_execFence (core s) (h2 : Kept s0 s) : ∃ t, execFence core s = .next t ∧ Kept s0 t := by
  unfold execFence
  refine ⟨_, rfl, ?_⟩
  repeat' with_reducible first
    | assumption | apply kept_startNext | apply kept_countStart | apply Kept.modCore | intro _

theorem kept_execFenceResolve (core s) (h2 : Kept s0 s) : ∃ t, execFenceResolve core s = .next t ∧ Kept s0 t := by
  unfold execFenceResolve
  refine ⟨_, rfl, ?_⟩
  repeat' with_reducible first
    | assumption | apply Kept.modCore | split

theorem kept_runMacro (k w t fed s) (h5 : Kept s0 s) : Kept s0 (runMacro k w t fed s) := by
  unfold runMacro
  repeat' with_reducible first
    | assumption | apply kept_readForStart | apply kept_endCommand | apply kept_countStart | apply Kept.modCore | rfl | intro _
    | apply Kept.fold | apply Kept.foldSnd | simp only [Kept.raw_iff] | dsimp only | split
    | refine Kept.ofSnd (by with_reducible assumption) ?_ | refine Kept.ofThd (by with_reducible assumption) ?_

theorem kept_execMacroOp (core s) (h2 : Kept s0 s) : ∃ t, execMacroOp core s = .next t ∧ Kept s0 t := by
  unfold execMacroOp
  refine ⟨_, rfl, ?_⟩
  repeat' with_reducible first
    | assumption | apply kept_startNext | apply kept_runMacro | rfl | intro _ | apply Kept.fold | apply Kept.foldSnd
    | simp only [Kept.raw_iff] | dsimp only | split

theorem kept_finishRun (k r s) (h3 : Kept s0 s) : Kept s0 (finishRun k r s) := by
  unfold finishRun
  repeat' with_reducible first
    | assumption | apply Kept.modCore | apply kept_spadWrite | apply kept_countEv | apply kept_bankCounts | rfl | intro _
    | apply Kept.fold | apply Kept.foldSnd | simp only [Kept.raw_iff] | dsimp only | split

theorem kept_execConfigDone (core engine s) (h3 : Kept s0 s) : ∃ t, execConfigDone core engine s = .next t ∧ Kept s0 t := by
  unfold execConfigDone
  refine ⟨_, rfl, ?_⟩
  repeat' with_reducible first
    | assumption | apply kept_finishRun | split | dsimp only

theorem kept_landReg (core p s) (h3 : Kept s0 s) : Kept s0 (landReg core p s) := by
  unfold landReg
  repeat' with_reducible first
    | assumption | apply Kept.modCore

theorem kept_execRegisterLand (core reg s) (h3 : Kept s0 s) : ∃ t, execRegisterLand core reg s = .next t ∧ Kept s0 t := by
  unfold execRegisterLand
  refine ⟨_, rfl, ?_⟩
  repeat' with_reducible first
    | assumption | apply kept_slipFault | apply kept_landReg | simp only [Kept.raw_iff] | split | dsimp only

theorem kept_fillInput (k slot data s) (h4 : Kept s0 s) : Kept s0 (fillInput k slot data s) := by
  unfold fillInput
  repeat' with_reducible first
    | assumption | apply Kept.modCore | apply kept_spadWrite | split

theorem kept_placeCmd (k front keep q s) (h5 : Kept s0 s) : Kept s0 (placeCmd k front keep q s) := by
  unfold placeCmd
  repeat' with_reducible first
    | assumption | apply Kept.modCore | apply kept_forgetHomes | apply kept_fillInput | apply kept_countEv | rfl | intro _
    | apply Kept.fold | apply Kept.foldSnd | simp only [Kept.raw_iff] | dsimp only | split
    | refine Kept.ofSnd (by with_reducible assumption) ?_ | refine Kept.ofThd (by with_reducible assumption) ?_

theorem kept_takeWaiting (k c s) (h3 : Kept s0 s) : Kept s0 (takeWaiting k c s).2.2 := by
  unfold takeWaiting
  repeat' with_reducible first
    | assumption | apply Kept.modCluster | simp only [Kept.raw_iff] | split | dsimp only

theorem kept_execDispatch (core cmd s) (h3 : Kept s0 s) : ∃ t, execDispatch core cmd s = .next t ∧ Kept s0 t := by
  unfold execDispatch
  refine ⟨_, rfl, ?_⟩
  repeat' with_reducible first
    | assumption | apply kept_readState | apply kept_takeWaiting | apply kept_placeCmd | apply Kept.modCluster | simp only [Kept.raw_iff]
    | split | dsimp only

theorem kept_modSlowdowns (cls tenants f s) (h4 : Kept s0 s) : Kept s0 (modSlowdowns cls tenants f s) := by
  unfold modSlowdowns
  repeat' with_reducible first
    | assumption | simp only [Kept.raw_iff]

theorem kept_recordSlowdown (tenants cls a sol a4) (h5 : Kept s0 a4) : Kept s0 (recordSlowdown tenants cls a sol a4) := by
  unfold recordSlowdown
  repeat' with_reducible first
    | assumption | apply kept_modSlowdowns | simp only [Kept.raw_iff]

theorem kept_execCommandCommit (core s) (h2 : Kept s0 s) : ∃ t, execCommandCommit core s = .next t ∧ Kept s0 t := by
  unfold execCommandCommit
  refine ⟨_, rfl, ?_⟩
  repeat' with_reducible first
    | assumption | apply kept_recordSlowdown | apply kept_sampleEnd | apply kept_countEv | apply Kept.modCore | split

theorem kept_execCommandKill (core pos s) (h3 : Kept s0 s) : ∃ t, execCommandKill core pos s = .next t ∧ Kept s0 t := by
  unfold execCommandKill
  refine ⟨_, rfl, ?_⟩
  repeat' with_reducible first
    | assumption | apply kept_requeueAt | split

theorem kept_landSlot (d slot out data s) (h5 : Kept s0 s) : Kept s0 (landSlot d slot out data s) := by
  unfold landSlot
  repeat' with_reducible first
    | assumption | apply kept_spadWrite | apply Kept.modCore | apply kept_chargeFreeze | split

theorem kept_landNext (core slot m s) (h4 : Kept s0 s) : Kept s0 (landNext core slot m s) := by
  unfold landNext
  repeat' with_reducible first
    | assumption | apply Kept.modCore | apply kept_bankCounts | apply kept_landSlot | apply kept_countEv | split

theorem kept_execMoveLanding (core id s) (h3 : Kept s0 s) : ∃ t, execMoveLanding core id s = .next t ∧ Kept s0 t := by
  unfold execMoveLanding
  refine ⟨_, rfl, ?_⟩
  repeat' with_reducible first
    | assumption | apply kept_readState | apply kept_landNext | rfl | intro _ | apply Kept.fold | apply Kept.foldSnd
    | simp only [Kept.raw_iff] | dsimp only | split | refine Kept.ofSnd (by with_reducible assumption) ?_
    | refine Kept.ofThd (by with_reducible assumption) ?_

theorem kept_execLandingWaitEnd (core slot s) (h3 : Kept s0 s) : ∃ t, execLandingWaitEnd core slot s = .next t ∧ Kept s0 t := by
  unfold execLandingWaitEnd
  refine ⟨_, rfl, ?_⟩
  repeat' with_reducible first
    | assumption | apply Kept.modCore | apply kept_chargeWait | rfl | intro _ | apply Kept.fold | apply Kept.foldSnd
    | simp only [Kept.raw_iff] | dsimp only | split

theorem kept_scrubOne (k s) (h2 : Kept s0 s) : Kept s0 (scrubOne k s) := by
  unfold scrubOne
  repeat' with_reducible first
    | assumption | apply kept_readControl | apply kept_decodeRow | apply Kept.modCore | simp only [Kept.raw_iff] | split | dsimp only

theorem kept_execScrub (core s) (h2 : Kept s0 s) : ∃ t, execScrub core s = .next t ∧ Kept s0 t := by
  unfold execScrub
  refine ⟨_, rfl, ?_⟩
  repeat' with_reducible first
    | assumption | apply kept_scrubOne | split

theorem kept_execScrubForce (core s) (h2 : Kept s0 s) : ∃ t, execScrubForce core s = .next t ∧ Kept s0 t := by
  unfold execScrubForce
  refine ⟨_, rfl, ?_⟩
  repeat' with_reducible first
    | assumption | apply kept_scrubOne | split

theorem kept_setScrubPeriod (v s) (h2 : Kept s0 s) : Kept s0 (setScrubPeriod v s) := by
  unfold setScrubPeriod
  repeat' with_reducible first
    | assumption | simp only [Kept.raw_iff]

theorem kept_setInitMode (v s) (h2 : Kept s0 s) : Kept s0 (setInitMode v s) := by
  unfold setInitMode
  repeat' with_reducible first
    | assumption | simp only [Kept.raw_iff]

theorem kept_execAllocationRelease (core first count s) (h4 : Kept s0 s) : ∃ t, execAllocationRelease core first count s = .next t ∧ Kept s0 t := by
  unfold execAllocationRelease
  refine ⟨_, rfl, ?_⟩
  repeat' with_reducible first
    | assumption | apply Kept.modCore | apply kept_forgetHomes | split

/-! ### Fabric -/

theorem kept_execRead (link pkt s) (h3 : Kept s0 s) : ∃ t, execRead link pkt s = .next t ∧ Kept s0 t := by
  unfold execRead
  refine ⟨_, rfl, ?_⟩
  repeat' with_reducible first
    | assumption | apply kept_arrive | apply kept_serveRead

theorem kept_execGather (link pkt s) (h3 : Kept s0 s) : ∃ t, execGather link pkt s = .next t ∧ Kept s0 t := by
  unfold execGather
  refine ⟨_, rfl, ?_⟩
  repeat' with_reducible first
    | assumption | apply kept_arrive | apply kept_serveRead

theorem kept_execFetch (link pkt s) (h3 : Kept s0 s) : ∃ t, execFetch link pkt s = .next t ∧ Kept s0 t := by
  unfold execFetch
  refine ⟨_, rfl, ?_⟩
  repeat' with_reducible first
    | assumption | apply kept_arrive | apply kept_serveRead

theorem kept_execPublish (link pkt s) (h3 : Kept s0 s) : ∃ t, execPublish link pkt s = .next t ∧ Kept s0 t := by
  unfold execPublish
  refine ⟨_, rfl, ?_⟩
  repeat' with_reducible first
    | assumption | apply kept_arrive | apply kept_servePublish

theorem kept_lateReply (s) (h1 : Kept s0 s) : Kept s0 (lateReply s) := by
  unfold lateReply
  repeat' with_reducible first
    | assumption | apply kept_modFabric

theorem kept_deliver (a m s) (h3 : Kept s0 s) : Kept s0 (deliver a m s) := by
  unfold deliver
  repeat' with_reducible first
    | assumption | apply Kept.modCore | split

theorem kept_failIssuer (i code s) (h3 : Kept s0 s) : Kept s0 (failIssuer i code s) := by
  unfold failIssuer
  repeat' with_reducible first
    | assumption | apply kept_endCommand | apply kept_failSlot | apply kept_stopWork | split

theorem kept_landReply (type l p s) (h4 : Kept s0 s) : Kept s0 (landReply type l p s) := by
  unfold landReply
  repeat' with_reducible first
    | assumption | apply kept_notable | apply kept_lateReply | apply kept_failIssuer | apply kept_dropAccess | apply kept_deliver
    | apply kept_modFabric | split | dsimp only

theorem kept_execReadReply (link pkt s) (h3 : Kept s0 s) : ∃ t, execReadReply link pkt s = .next t ∧ Kept s0 t := by
  unfold execReadReply
  refine ⟨_, rfl, ?_⟩
  repeat' with_reducible first
    | assumption | apply kept_arrive | apply kept_landReply

theorem kept_execGatherReply (link pkt s) (h3 : Kept s0 s) : ∃ t, execGatherReply link pkt s = .next t ∧ Kept s0 t := by
  unfold execGatherReply
  refine ⟨_, rfl, ?_⟩
  repeat' with_reducible first
    | assumption | apply kept_arrive | apply kept_landReply

theorem kept_execFetchReply (link pkt s) (h3 : Kept s0 s) : ∃ t, execFetchReply link pkt s = .next t ∧ Kept s0 t := by
  unfold execFetchReply
  refine ⟨_, rfl, ?_⟩
  repeat' with_reducible first
    | assumption | apply kept_arrive | apply kept_landReply

theorem kept_landAck (p s) (h2 : Kept s0 s) : Kept s0 (landAck p s) := by
  unfold landAck
  repeat' with_reducible first
    | assumption | apply kept_lateReply | apply kept_dropAccess | apply kept_ackPage | split

theorem kept_execPublishAck (link pkt s) (h3 : Kept s0 s) : ∃ t, execPublishAck link pkt s = .next t ∧ Kept s0 t := by
  unfold execPublishAck
  refine ⟨_, rfl, ?_⟩
  repeat' with_reducible first
    | assumption | apply kept_arrive | apply kept_landAck

theorem kept_execKillNotice (body s) (h2 : Kept s0 s) : ∃ t, execKillNotice body s = .next t ∧ Kept s0 t := by
  unfold execKillNotice
  refine ⟨_, rfl, ?_⟩
  repeat' with_reducible first
    | assumption | apply kept_killLocal | apply kept_modFabric | split

theorem kept_execKillNoticeWindowEnd (device handle s) (h3 : Kept s0 s) : ∃ t, execKillNoticeWindowEnd device handle s = .next t ∧ Kept s0 t := by
  unfold execKillNoticeWindowEnd
  refine ⟨_, rfl, ?_⟩
  repeat' with_reducible first
    | assumption | apply kept_modFabric

theorem kept_execLinkControl (link ctl s) (h3 : Kept s0 s) : ∃ t, execLinkControl link ctl s = .next t ∧ Kept s0 t := by
  unfold execLinkControl
  refine ⟨_, rfl, ?_⟩
  repeat' with_reducible first
    | assumption | apply Kept.modLink | apply kept_takeAck | apply kept_takeNak | split

theorem kept_execBadPacket (link pkt s) (h3 : Kept s0 s) : ∃ t, execBadPacket link pkt s = .next t ∧ Kept s0 t := by
  unfold execBadPacket
  refine ⟨_, rfl, ?_⟩
  repeat' with_reducible first
    | assumption | apply kept_receive | apply kept_modFabric | apply kept_returnCredit | simp only [Kept.raw_iff] | split | dsimp only

theorem kept_execPacketCrcFailure (link s) (h2 : Kept s0 s) : ∃ t, execPacketCrcFailure link s = .next t ∧ Kept s0 t := by
  unfold execPacketCrcFailure
  refine ⟨_, rfl, ?_⟩
  repeat' with_reducible first
    | assumption | apply kept_sendControl | apply Kept.modLink | split

theorem kept_execLinkAckTimeout (link s) (h2 : Kept s0 s) : ∃ t, execLinkAckTimeout link s = .next t ∧ Kept s0 t := by
  unfold execLinkAckTimeout
  refine ⟨_, rfl, ?_⟩
  repeat' with_reducible first
    | assumption | apply kept_retrain | split

theorem kept_execLinkAckInterval (link s) (h2 : Kept s0 s) : ∃ t, execLinkAckInterval link s = .next t ∧ Kept s0 t := by
  unfold execLinkAckInterval
  refine ⟨_, rfl, ?_⟩
  repeat' with_reducible first
    | assumption | apply kept_sendControl | apply Kept.modLink | split

theorem kept_abandonLink (l s) (h2 : Kept s0 s) : Kept s0 (abandonLink l s) := by
  unfold abandonLink
  repeat' with_reducible first
    | assumption | apply kept_setLinkFn | apply Kept.modLink

theorem kept_execLinkReady (n peer peerLink s) (h4 : Kept s0 s) : ∃ t, execLinkReady n peer peerLink s = .next t ∧ Kept s0 t := by
  unfold execLinkReady
  refine ⟨_, rfl, ?_⟩
  repeat' with_reducible first
    | assumption | apply kept_abandonLink | apply Kept.modLink | apply kept_linkUp | split

theorem kept_execLinkTrainingFailed (n s) (h2 : Kept s0 s) : ∃ t, execLinkTrainingFailed n s = .next t ∧ Kept s0 t := by
  unfold execLinkTrainingFailed
  refine ⟨_, rfl, ?_⟩
  repeat' with_reducible first
    | assumption | apply kept_abandonLink | split

theorem kept_execFaultIdleReceived (link s) (h2 : Kept s0 s) : ∃ t, execFaultIdleReceived link s = .next t ∧ Kept s0 t := by
  unfold execFaultIdleReceived
  refine ⟨_, rfl, ?_⟩
  repeat' with_reducible first
    | assumption | apply kept_retrain | split

theorem kept_execFabricTimeout (island tag s) (h3 : Kept s0 s) : ∃ t, execFabricTimeout island tag s = .next t ∧ Kept s0 t := by
  unfold execFabricTimeout
  refine ⟨_, rfl, ?_⟩
  repeat' with_reducible first
    | assumption | apply kept_requeueAt | apply kept_endCommand | apply kept_dropAccess | apply kept_failSlot | split

theorem kept_execPublishAckTimeout (island tag s) (h3 : Kept s0 s) : ∃ t, execPublishAckTimeout island tag s = .next t ∧ Kept s0 t := by
  unfold execPublishAckTimeout
  refine ⟨_, rfl, ?_⟩
  repeat' with_reducible first
    | assumption | apply kept_stopWork | apply kept_modFabric | apply kept_enqueue | split | dsimp only

theorem kept_takeRoutes (off s) (h2 : Kept s0 s) : Kept s0 (takeRoutes off s) := by
  unfold takeRoutes
  repeat' with_reducible first
    | assumption | apply kept_modFabric

theorem kept_execKeyringDirCheckEnd (s) (h1 : Kept s0 s) : ∃ t, execKeyringDirCheckEnd s = .next t ∧ Kept s0 t := by
  unfold execKeyringDirCheckEnd
  refine ⟨_, rfl, ?_⟩
  repeat' with_reducible first
    | assumption | apply kept_noteLong | apply kept_modKeyring | apply kept_checkReads | split

theorem kept_installKey (refill w0 w1 s) (h4 : Kept s0 s) : Kept s0 (installKey refill w0 w1 s) := by
  unfold installKey
  repeat' with_reducible first
    | assumption | apply kept_modKeyring | split

theorem kept_touchProbes (ps s) (h2 : Kept s0 s) : Kept s0 (touchProbes ps s) := by
  unfold touchProbes
  repeat' with_reducible first
    | assumption | apply kept_touch | split

theorem kept_failMiss (m code s) (h3 : Kept s0 s) : Kept s0 (failMiss m code s) := by
  unfold failMiss
  repeat' with_reducible first
    | assumption | apply kept_unresolved | apply kept_modKeyring | apply kept_stopWork | apply kept_failRequest | split

theorem kept_execKeyringRefill (s) (h1 : Kept s0 s) : ∃ t, execKeyringRefill s = .next t ∧ Kept s0 t := by
  unfold execKeyringRefill
  refine ⟨_, rfl, ?_⟩
  repeat' with_reducible first
    | assumption | apply kept_modFabric | apply kept_countEv | apply kept_touchProbes | apply kept_installKey | apply kept_failMiss
    | split | dsimp only

theorem kept_keyDone (s) (h1 : Kept s0 s) : Kept s0 (keyDone s) := by
  unfold keyDone
  repeat' with_reducible first
    | assumption | apply kept_noteLong | apply kept_modKeyring

theorem kept_pinKey (w0 w1 s) (h3 : Kept s0 s) : Kept s0 (pinKey w0 w1 s).2 := by
  unfold pinKey
  repeat' with_reducible first
    | assumption | apply kept_modKeyring | apply kept_keyDone | apply kept_installKey | split

theorem kept_unpinKey (i s) (h2 : Kept s0 s) : Kept s0 (unpinKey i s) := by
  unfold unpinKey
  repeat' with_reducible first
    | assumption | apply kept_keyDone | apply kept_modKeyring

theorem kept_flushKeys (v s) (h2 : Kept s0 s) : Kept s0 (flushKeys v s) := by
  unfold flushKeys
  repeat' with_reducible first
    | assumption | apply kept_keyDone | apply kept_modKeyring

end Sys2Proof.Machine
end

