-- ==== Sys2Proof/Laws/KeptRequests.lean ====
section
/-! SUPPORT. Safety.Kept goes on through text, admission, requests, stages and model serving. -/

namespace Sys2Proof.Machine

open Safety

set_option maxRecDepth 8000
set_option linter.unreachableTactic false
set_option linter.unusedTactic false
set_option linter.unusedSimpArgs false

variable {s0 : State}

/-! ### TextOps -/

theorem kept_lookPage (i v pg s) (h4 : Kept s0 s) : Kept s0 (lookPage i v pg s).2 := by
  unfold lookPage
  repeat' with_reducible first
    | assumption | apply Kept.modText | apply kept_touch | apply kept_countEv | simp only [Kept.raw_iff] | split | dsimp only

theorem kept_lookPages (i v pgs s) (h4 : Kept s0 s) : Kept s0 (lookPages i v pgs s).2 := by
  unfold lookPages
  repeat' with_reducible first
    | assumption | apply kept_lookPage | rfl | intro _ | apply Kept.fold | apply Kept.foldSnd | simp only [Kept.raw_iff] | dsimp only
    | split

theorem kept_runPass (i v final text prev s) (h6 : Kept s0 s) : Kept s0 (runPass i v final text prev s).2.2 := by
  unfold runPass
  repeat' with_reducible first
    | assumption | apply kept_lookPages | apply kept_countEv | simp only [Kept.raw_iff] | split | dsimp only

theorem kept_runDetok (i v ts s) (h4 : Kept s0 s) : Kept s0 (runDetok i v ts s).2.2 := by
  unfold runDetok
  repeat' with_reducible first
    | assumption | apply kept_lookPages | split

/-! ### Admission -/

theorem kept_takeTurn (n s) (h2 : Kept s0 s) : Kept s0 (takeTurn n s) := by
  unfold takeTurn
  repeat' with_reducible first
    | assumption | apply Kept.modHub

theorem kept_passEntry (n s) (h2 : Kept s0 s) : Kept s0 (passEntry n s) := by
  unfold passEntry
  repeat' with_reducible first
    | assumption | apply kept_takeTurn | apply Kept.modRing

theorem kept_holdEntry (n s) (h2 : Kept s0 s) : Kept s0 (holdEntry n s) := by
  unfold holdEntry
  repeat' with_reducible first
    | assumption | apply Kept.modHub

theorem kept_skipEntry (n s) (h2 : Kept s0 s) : Kept s0 (skipEntry n s) := by
  unfold skipEntry
  repeat' with_reducible first
    | assumption | apply kept_passEntry | apply Kept.modRing

theorem kept_readRingEntry (n) (run : State → State) (s) (h2 : ∀ y0, Kept s0 y0 → Kept s0 (run y0)) (h3 : Kept s0 s) : Kept s0 (readRingEntry n run s) := by
  unfold readRingEntry
  repeat' with_reducible first
    | assumption | apply h2 | apply kept_hostRead | apply kept_withSnoops | apply kept_skipEntry | apply kept_touch | intro _ | split
    | dsimp only

theorem kept_rejectEntry (n d code s) (h4 : Kept s0 s) : Kept s0 (rejectEntry n d code s) := by
  unfold rejectEntry
  repeat' with_reducible first
    | assumption | apply kept_countEv | apply Kept.modHub | apply kept_fresh | apply kept_passEntry | apply kept_hostWrite

theorem kept_policeTenant (n t s) (h3 : Kept s0 s) : Kept s0 (policeTenant n t s).2 := by
  unfold policeTenant
  repeat' with_reducible first
    | assumption | simp only [Kept.raw_iff]

theorem kept_admitEntry (n k d contWait fill s) (h6 : Kept s0 s) : Kept s0 (admitEntry n k d contWait fill s) := by
  unfold admitEntry
  repeat' with_reducible first
    | assumption | apply Kept.modSlot | apply kept_countEv | apply Kept.modHub | apply kept_passEntry | apply kept_writeMirror
    | apply kept_sampleAdmit

theorem kept_takeDescriptor (n d form check contWait fill s) (h7 : Kept s0 s) : Kept s0 (takeDescriptor n d form check contWait fill s) := by
  unfold takeDescriptor
  repeat' with_reducible first
    | assumption | apply kept_readRingEntry | apply kept_skipEntry | apply kept_rejectEntry | apply kept_holdEntry
    | apply kept_policeTenant | apply kept_admitEntry | rfl | intro _ | apply Kept.fold | apply Kept.foldSnd | simp only [Kept.raw_iff]
    | dsimp only | split | refine Kept.ofSnd (by with_reducible assumption) ?_ | refine Kept.ofThd (by with_reducible assumption) ?_

/-! ### Requests -/

theorem kept_execDoorbell (ring tail s) (h3 : Kept s0 s) : ∃ t, execDoorbell ring tail s = .next t ∧ Kept s0 t := by
  unfold execDoorbell
  refine ⟨_, rfl, ?_⟩
  repeat' with_reducible first
    | assumption | apply kept_countEv | apply Kept.modRing | split | dsimp only

theorem kept_execCancel (handle s) (h2 : Kept s0 s) : ∃ t, execCancel handle s = .next t ∧ Kept s0 t := by
  unfold execCancel
  refine ⟨_, rfl, ?_⟩
  repeat' with_reducible first
    | assumption | apply kept_endRequest | apply Kept.modHub | split

theorem kept_freeSlot (n s) (h2 : Kept s0 s) : Kept s0 (freeSlot n s) := by
  unfold freeSlot
  repeat' with_reducible first
    | assumption | apply Kept.modSlot

theorem kept_execRelease (handle s) (h2 : Kept s0 s) : ∃ t, execRelease handle s = .next t ∧ Kept s0 t := by
  unfold execRelease
  refine ⟨_, rfl, ?_⟩
  repeat' with_reducible first
    | assumption | apply kept_freeSlot | apply Kept.modHub | split | dsimp only

theorem kept_execSlotRetainTimeout (slot s) (h2 : Kept s0 s) : ∃ t, execSlotRetainTimeout slot s = .next t ∧ Kept s0 t := by
  unfold execSlotRetainTimeout
  refine ⟨_, rfl, ?_⟩
  repeat' with_reducible first
    | assumption | apply kept_freeSlot | split

theorem kept_takeRequest (op n given s) (h4 : Kept s0 s) : Kept s0 (takeRequest op n given s) := by
  unfold takeRequest
  repeat' with_reducible first
    | assumption | apply kept_takeDescriptor | split | dsimp only

theorem kept_execRetrieveAndPack (ring desc s) (h3 : Kept s0 s) : ∃ t, execRetrieveAndPack ring desc s = .next t ∧ Kept s0 t := by
  unfold execRetrieveAndPack
  refine ⟨_, rfl, ?_⟩
  repeat' with_reducible first
    | assumption | apply kept_takeRequest

theorem kept_execRetrieve (ring desc s) (h3 : Kept s0 s) : ∃ t, execRetrieve ring desc s = .next t ∧ Kept s0 t := by
  unfold execRetrieve
  refine ⟨_, rfl, ?_⟩
  repeat' with_reducible first
    | assumption | apply kept_takeRequest

theorem kept_execEmbedOnly (ring desc s) (h3 : Kept s0 s) : ∃ t, execEmbedOnly ring desc s = .next t ∧ Kept s0 t := by
  unfold execEmbedOnly
  refine ⟨_, rfl, ?_⟩
  repeat' with_reducible first
    | assumption | apply kept_takeRequest

theorem kept_execGenerate (ring desc s) (h3 : Kept s0 s) : ∃ t, execGenerate ring desc s = .next t ∧ Kept s0 t := by
  unfold execGenerate
  refine ⟨_, rfl, ?_⟩
  repeat' with_reducible first
    | assumption | apply kept_takeRequest

theorem kept_execOpcodeUnassigned (ring desc s) (h3 : Kept s0 s) : ∃ t, execOpcodeUnassigned ring desc s = .next t ∧ Kept s0 t := by
  unfold execOpcodeUnassigned
  refine ⟨_, rfl, ?_⟩
  repeat' with_reducible first
    | assumption | apply kept_takeDescriptor | split | dsimp only

theorem kept_execFinalCommit (slot s) (h2 : Kept s0 s) : ∃ t, execFinalCommit slot s = .next t ∧ Kept s0 t := by
  unfold execFinalCommit
  refine ⟨_, rfl, ?_⟩
  repeat' with_reducible first
    | assumption | apply kept_endRequest | apply kept_finishRequest | apply Kept.modSlot | split | dsimp only

theorem kept_execRequestFailure (handle code s) (h3 : Kept s0 s) : ∃ t, execRequestFailure handle code s = .next t ∧ Kept s0 t := by
  unfold execRequestFailure
  refine ⟨_, rfl, ?_⟩
  repeat' with_reducible first
    | assumption | apply kept_failRequest | split

theorem kept_execExpire (slot s) (h2 : Kept s0 s) : ∃ t, execExpire slot s = .next t ∧ Kept s0 t := by
  unfold execExpire
  refine ⟨_, rfl, ?_⟩
  repeat' with_reducible first
    | assumption | apply kept_endRequest | split

theorem kept_execMirrorCoalesce (slot s) (h2 : Kept s0 s) : ∃ t, execMirrorCoalesce slot s = .next t ∧ Kept s0 t := by
  unfold execMirrorCoalesce
  refine ⟨_, rfl, ?_⟩
  repeat' with_reducible first
    | assumption | apply kept_writeMirror | split

theorem kept_execGlobalObservation (slot s) (h2 : Kept s0 s) : ∃ t, execGlobalObservation slot s = .next t ∧ Kept s0 t := by
  unfold execGlobalObservation
  refine ⟨_, rfl, ?_⟩
  repeat' with_reducible first
    | assumption | apply Kept.modSlot | apply kept_changeStatus | split

/-! ### StageOps -/

theorem kept_stageTurn {n g : ℕ} {s t : State} (e : s.stageTurn n g = some t) (h : Kept s0 s) : Kept s0 t := by
  unfold State.stageTurn at e
  split at e
  · cases e
  split at e
  · cases e; exact kept_startStage _ _ _ (Kept.modSlot _ h _)
  split at e
  · cases e; exact Kept.modSlot _ h _
  · cases e

theorem kept_commitStage (n cls s) (h3 : Kept s0 s) : Kept s0 (commitStage n cls s) := by
  unfold commitStage
  repeat' with_reducible first
    | assumption | apply kept_fresh | apply kept_recordSlowdown | apply Kept.modSlot

theorem kept_holdStage (n s) (h2 : Kept s0 s) : Kept s0 (holdStage n s) := by
  unfold holdStage
  repeat' with_reducible first
    | assumption | apply Kept.modSlot

theorem kept_runStage {α : Type} (n g : ℕ) (serve : State → Option α) (run : α → State → State) (s : State)
    (hr : ∀ a t, Kept s0 t → Kept s0 (run a t)) (h : Kept s0 s) : Kept s0 (runStage n g serve run s) := by
  unfold runStage
  split
  · exact h
  · next e =>
    split
    · exact kept_holdStage _ _ h
    · exact hr _ _ (kept_stageTurn e h)

theorem kept_missStage (n a addr s) (h4 : Kept s0 s) : Kept s0 (missStage n a addr s) := by
  unfold missStage
  repeat' with_reducible first
    | assumption | apply kept_failSlot | apply kept_unresolved | apply kept_modFabric | apply Kept.modSlot | split

theorem kept_stageReads (n remote a2 a3 a4 a5) (h3 : Kept s0 a2) (h6 : Kept s0 a5) : Kept s0 (stageReads n remote a2 a3 a4 a5).2 := by
  induction a3 generalizing a4 a5 with
  | nil =>
    unfold stageReads
    repeat' with_reducible first
    | assumption | rfl | intro _ | dsimp only | split
  | cons _ _ ih =>
    unfold stageReads
    repeat' with_reducible first
    | assumption | apply kept_hallRead | apply kept_failSlot | apply kept_missStage | apply ih | rfl | intro _ | dsimp only | split
    | refine Kept.ofSnd (by with_reducible assumption) ?_ | refine Kept.ofThd (by with_reducible assumption) ?_

theorem kept_withReads (n remote accs) (run : List Bytes → State → State) (s) (h4 : ∀ y0 y1, Kept s0 y1 → Kept s0 (run y0 y1)) (h5 : Kept s0 s) : Kept s0 (withReads n remote accs run s) := by
  unfold withReads
  repeat' with_reducible first
    | assumption | apply h4 | apply kept_stageReads | apply kept_failSlot | rfl | intro _ | apply Kept.fold | apply Kept.foldSnd
    | simp only [Kept.raw_iff] | dsimp only | split | refine Kept.ofSnd (by with_reducible assumption) ?_
    | refine Kept.ofThd (by with_reducible assumption) ?_

theorem kept_writeBuffer (n b addr len bytes count flags s) (h8 : Kept s0 s) : Kept s0 (writeBuffer n b addr len bytes count flags s) := by
  unfold writeBuffer
  repeat' with_reducible first
    | assumption | apply Kept.modSlot | apply kept_hostWrite

/-! ### Text -/

theorem kept_tokeniseIn (n i v : ℕ) (a : Word16 × ℕ × List TokSet × State) (h : Kept s0 a.2.2.2) :
    Kept s0 (tokeniseIn n i v a).2.2.2 := by
  obtain ⟨code, held, sets, s⟩ := a
  unfold tokeniseIn
  dsimp only at h ⊢
  split
  · exact h
  · split <;> exact kept_runPass _ _ _ _ _ _ (by first | exact h | exact kept_runPass _ _ _ _ _ _ h)

theorem kept_tokeniseText (n i : ℕ) (s : State) (h : Kept s0 s) : Kept s0 (tokeniseText n i s) := by
  have := Kept.foldBy (s0 := s0) (fun a : Word16 × ℕ × List TokSet × State => a.2.2.2) (fun a v => tokeniseIn n i v a)
    (fun a v => kept_tokeniseIn n i v a) (0, 0, [], s) h (s.vocabsOf (s.slot n))
  unfold tokeniseText
  revert this
  generalize (s.vocabsOf (s.slot n)).foldl _ _ = p
  obtain ⟨code, held, sets, t⟩ := p
  dsimp only
  intro this
  split
  · exact kept_failSlot _ _ _ this
  · split
    · exact kept_commitStage _ _ _ (Kept.modSlot _ this _)
    · exact Kept.modSlot _ this _

theorem kept_takeText (n text ctx s) (h4 : Kept s0 s) : Kept s0 (takeText n text ctx s).2 := by
  unfold takeText
  repeat' with_reducible first
    | assumption | apply kept_readHost | apply Kept.modSlot

theorem kept_execTokenise (slot text ctx s) (h4 : Kept s0 s) : ∃ t, execTokenise slot text ctx s = .next t ∧ Kept s0 t := by
  unfold execTokenise
  refine ⟨_, rfl, ?_⟩
  repeat' with_reducible first
    | assumption | apply kept_withSnoops | apply kept_runStage | apply kept_takeText | apply kept_tokeniseText | apply kept_failSlot
    | rfl | intro _ | apply Kept.fold | apply Kept.foldSnd | simp only [Kept.raw_iff] | dsimp only | split
    | refine Kept.ofSnd (by with_reducible assumption) ?_ | refine Kept.ofThd (by with_reducible assumption) ?_

theorem kept_appendText (n d text s) (h4 : Kept s0 s) : Kept s0 (appendText n d text s) := by
  unfold appendText
  repeat' with_reducible first
    | assumption | apply Kept.modSlot | apply kept_changeStatus | apply kept_tokeniseText | apply kept_holdStage | split | dsimp only

theorem kept_execContinueText (ring desc text s) (h4 : Kept s0 s) : ∃ t, execContinueText ring desc text s = .next t ∧ Kept s0 t := by
  unfold execContinueText
  refine ⟨_, rfl, ?_⟩
  repeat' with_reducible first
    | assumption | apply kept_readRingEntry | apply kept_skipEntry | apply kept_rejectEntry | apply kept_issueSnoops
    | apply kept_passEntry | apply kept_clearSnoops | apply kept_readHost | apply kept_appendText | apply kept_failSlot | rfl | intro _
    | apply Kept.fold | apply Kept.foldSnd | simp only [Kept.raw_iff] | dsimp only | split
    | refine Kept.ofSnd (by with_reducible assumption) ?_ | refine Kept.ofThd (by with_reducible assumption) ?_

theorem kept_execVocabReady (n s) (h2 : Kept s0 s) : ∃ t, execVocabReady n s = .next t ∧ Kept s0 t := by
  unfold execVocabReady
  refine ⟨_, rfl, ?_⟩
  repeat' with_reducible first
    | assumption | apply kept_setVocabFn | apply Kept.modVocab | apply kept_checkReads | split | dsimp only

/-! ### Models -/

theorem kept_modRegions (k p f s) (h4 : Kept s0 s) : Kept s0 (modRegions k p f s) := by
  unfold modRegions
  repeat' with_reducible first
    | assumption | apply Kept.modCore

theorem kept_loadImage (n c ks asked off p s) (h7 : Kept s0 s) : Kept s0 (loadImage n c ks asked off p s).2 := by
  unfold loadImage
  repeat' with_reducible first
    | assumption | apply kept_checkReads | apply kept_touch | apply kept_modRegions | apply Kept.modCore | rfl | intro _
    | apply Kept.fold | apply Kept.foldSnd | simp only [Kept.raw_iff] | dsimp only | split

theorem kept_loadShard (n k s) (h3 : Kept s0 s) : Kept s0 (loadShard n k s).2 := by
  unfold loadShard
  repeat' with_reducible first
    | assumption | apply kept_checkReads | apply Kept.modCore | apply kept_spadWrite | apply kept_touch | split | dsimp only

theorem kept_steps {α : Type} (l : List α) (f : α → State → Word16 × State) (s : State)
    (hf : ∀ a t, Kept s0 t → Kept s0 (f a t).2) (h : Kept s0 s) : Kept s0 (steps l f s).2 := by
  refine Kept.foldSnd _ (fun p a hp => ?_) _ h _
  split
  · exact hp
  · exact hf _ _ hp

theorem kept_loadCores (n c ks asked s) (h5 : Kept s0 s) : Kept s0 (loadCores n c ks asked s).2 := by
  unfold loadCores
  repeat' with_reducible first
    | assumption | apply kept_steps | apply kept_loadImage | apply kept_loadShard | rfl | intro _ | apply Kept.fold | apply Kept.foldSnd
    | simp only [Kept.raw_iff] | dsimp only | split | refine Kept.ofSnd (by with_reducible assumption) ?_
    | refine Kept.ofThd (by with_reducible assumption) ?_

theorem kept_loadCluster (n c asked s) (h4 : Kept s0 s) : Kept s0 (loadCluster n c asked s).2 := by
  unfold loadCluster
  repeat' with_reducible first
    | assumption | apply kept_loadCores | rfl | intro _ | apply Kept.fold | apply Kept.foldSnd | simp only [Kept.raw_iff] | dsimp only
    | split | refine Kept.ofSnd (by with_reducible assumption) ?_ | refine Kept.ofThd (by with_reducible assumption) ?_

theorem kept_releaseModel (n s) (h2 : Kept s0 s) : Kept s0 (releaseModel n s) := by
  unfold releaseModel
  repeat' with_reducible first
    | assumption | apply Kept.modCore | apply Kept.modModel | rfl | intro _ | apply Kept.fold

theorem kept_startPlan (n s) (h2 : Kept s0 s) : Kept s0 (startPlan n s).2 := by
  unfold startPlan
  repeat' with_reducible first
    | assumption | apply kept_checkReads | apply Kept.modModel | split | dsimp only

theorem kept_parkAll (n v s) (h3 : Kept s0 s) : Kept s0 (parkAll n v s) := by
  unfold parkAll
  repeat' with_reducible first
    | assumption | apply kept_modRegions | rfl | intro _ | apply Kept.fold

theorem kept_startFails (n code s) (h3 : Kept s0 s) : Kept s0 (startFails n code s) := by
  unfold startFails
  repeat' with_reducible first
    | assumption | apply kept_setModelFn | apply Kept.modModel | apply kept_releaseModel | apply kept_parkAll

theorem kept_startLoad (n s) (h2 : Kept s0 s) : Kept s0 (startLoad n s) := by
  unfold startLoad
  repeat' with_reducible first
    | assumption | apply kept_steps | apply kept_loadCluster | apply Kept.modModel | apply kept_parkAll | apply kept_setModelFn
    | apply kept_raiseEvent | apply kept_startFails | rfl | intro _ | apply Kept.fold | apply Kept.foldSnd | simp only [Kept.raw_iff]
    | dsimp only | split | refine Kept.ofSnd (by with_reducible assumption) ?_ | refine Kept.ofThd (by with_reducible assumption) ?_

theorem kept_execModelStartEnd (n s) (h2 : Kept s0 s) : ∃ t, execModelStartEnd n s = .next t ∧ Kept s0 t := by
  unfold execModelStartEnd
  refine ⟨_, rfl, ?_⟩
  repeat' with_reducible first
    | assumption | apply kept_startFails | apply kept_startPlan | apply kept_parkAll | apply kept_startLoad | split | dsimp only

theorem kept_startSeq (n m inst s) (h4 : Kept s0 s) : Kept s0 (startSeq n m inst s) := by
  unfold startSeq
  repeat' with_reducible first
    | assumption | apply kept_failSlot | apply kept_fresh | apply Kept.modSlot | simp only [Kept.raw_iff] | split | dsimp only

theorem kept_countDeadEnd (s) (h1 : Kept s0 s) : Kept s0 (countDeadEnd s) := by
  unfold countDeadEnd
  repeat' with_reducible first
    | assumption | simp only [Kept.raw_iff]

theorem kept_finishGenerate (n i q s) (h4 : Kept s0 s) : Kept s0 (finishGenerate n i q s) := by
  unfold finishGenerate
  repeat' with_reducible first
    | assumption | apply kept_runDetok | apply Kept.modSlot | apply kept_countDeadEnd | apply kept_commitStage | apply kept_writeBuffer
    | apply kept_failSlot | rfl | intro _ | apply Kept.fold | apply Kept.foldSnd | simp only [Kept.raw_iff] | dsimp only | split
    | refine Kept.ofSnd (by with_reducible assumption) ?_ | refine Kept.ofThd (by with_reducible assumption) ?_

theorem kept_retokenise (n i v : ℕ) (text : Bytes) (s : State) (h : Kept s0 s) : Kept s0 (retokenise n i v text s).2.2 := by
  refine Kept.foldBy (fun a : Word16 × List TokSet × State => a.2.2) _ (fun p a hp => ?_) _ h _
  dsimp only
  split
  · exact hp
  · exact kept_runPass _ _ _ _ _ _ hp

theorem kept_finishRewrite (n i q s) (h4 : Kept s0 s) : Kept s0 (finishRewrite n i q s) := by
  unfold finishRewrite
  repeat' with_reducible first
    | assumption | apply kept_failSlot | apply kept_countDeadEnd | apply kept_runDetok | apply kept_retokenise | apply kept_commitStage
    | apply Kept.modSlot | rfl | intro _ | apply Kept.fold | apply Kept.foldSnd | simp only [Kept.raw_iff] | dsimp only | split
    | refine Kept.ofSnd (by with_reducible assumption) ?_ | refine Kept.ofThd (by with_reducible assumption) ?_

theorem kept_settleSeq (n s) (h2 : Kept s0 s) : Kept s0 (settleSeq n s) := by
  unfold settleSeq
  repeat' with_reducible first
    | assumption | apply kept_finishGenerate | apply kept_finishRewrite | apply kept_holdStage | split

theorem kept_execRewriteStage (slot s) (h2 : Kept s0 s) : ∃ t, execRewriteStage slot s = .next t ∧ Kept s0 t := by
  unfold execRewriteStage
  refine ⟨_, rfl, ?_⟩
  repeat' with_reducible first
    | assumption | apply kept_settleSeq | apply kept_runStage | apply kept_startSeq | split

theorem kept_putSeq (q s) (h2 : Kept s0 s) : Kept s0 (putSeq q s) := by
  unfold putSeq
  repeat' with_reducible first
    | assumption | simp only [Kept.raw_iff]

theorem kept_publishMove (k slot pg s) (h4 : Kept s0 s) : Kept s0 (publishMove k slot pg s).2 := by
  unfold publishMove
  repeat' with_reducible first
    | assumption | apply kept_reservePage | apply kept_touchRows | apply Kept.modPage | apply kept_writePage | split | dsimp only

theorem kept_sealOne (k slot tenant pg bs s) (h6 : Kept s0 s) : Kept s0 (sealOne k slot tenant pg bs s).2 := by
  unfold sealOne
  repeat' with_reducible first
    | assumption | apply Kept.modCore | apply kept_publishMove | apply kept_spadWrite

theorem kept_sealPages (q s) (h2 : Kept s0 s) : Kept s0 (sealPages q s).2.2 := by
  unfold sealPages
  repeat' with_reducible first
    | assumption | apply kept_sealOne | rfl | intro _ | apply Kept.fold | apply Kept.foldSnd | simp only [Kept.raw_iff] | dsimp only
    | split

theorem kept_settleStep (q s) (h2 : Kept s0 s) : Kept s0 (settleStep q s) := by
  unfold settleStep
  repeat' with_reducible first
    | assumption | apply kept_sealPages | apply kept_settleSeq | apply kept_putSeq | apply kept_failSlot | rfl | intro _
    | apply Kept.fold | apply Kept.foldSnd | simp only [Kept.raw_iff] | dsimp only | split
    | refine Kept.ofSnd (by with_reducible assumption) ?_ | refine Kept.ofThd (by with_reducible assumption) ?_

theorem kept_countStep (batch s) (h2 : Kept s0 s) : Kept s0 (countStep batch s) := by
  unfold countStep
  repeat' with_reducible first
    | assumption | apply kept_fresh | apply kept_recordSlowdown | simp only [Kept.raw_iff]

theorem kept_prefillOne (inst q s) (h3 : Kept s0 s) : Kept s0 (prefillOne inst q s) := by
  unfold prefillOne
  repeat' with_reducible first
    | assumption | apply kept_failSlot | apply kept_settleStep | split | dsimp only

theorem kept_execPrefillStep (model inst s) (h3 : Kept s0 s) : ∃ t, execPrefillStep model inst s = .next t ∧ Kept s0 t := by
  unfold execPrefillStep
  refine ⟨_, rfl, ?_⟩
  repeat' with_reducible first
    | assumption | apply kept_prefillOne | apply kept_countStep | rfl | intro _ | apply Kept.fold | apply Kept.foldSnd
    | simp only [Kept.raw_iff] | dsimp only | split

theorem kept_generateOne (inst q s) (h3 : Kept s0 s) : Kept s0 (generateOne inst q s) := by
  unfold generateOne
  repeat' with_reducible first
    | assumption | apply kept_failSlot | apply kept_touch | apply kept_settleStep | simp only [Kept.raw_iff] | split | dsimp only

theorem kept_execGenerationStep (model inst s) (h3 : Kept s0 s) : ∃ t, execGenerationStep model inst s = .next t ∧ Kept s0 t := by
  unfold execGenerationStep
  refine ⟨_, rfl, ?_⟩
  repeat' with_reducible first
    | assumption | apply kept_generateOne | apply kept_countStep | rfl | intro _ | apply Kept.fold | apply Kept.foldSnd
    | simp only [Kept.raw_iff] | dsimp only | split

theorem kept_takeEmbed (n o tokens dropped s) (h5 : Kept s0 s) : Kept s0 (takeEmbed n o tokens dropped s) := by
  unfold takeEmbed
  repeat' with_reducible first
    | assumption | apply Kept.modSlot | apply kept_writeBuffer | apply kept_commitStage | simp only [Kept.raw_iff] | split | dsimp only

theorem kept_runEmbed (n inst s) (h3 : Kept s0 s) : Kept s0 (runEmbed n inst s) := by
  unfold runEmbed
  repeat' with_reducible first
    | assumption | apply kept_failSlot | apply kept_takeEmbed | split | dsimp only

theorem kept_execEmbedStage (slot s) (h2 : Kept s0 s) : ∃ t, execEmbedStage slot s = .next t ∧ Kept s0 t := by
  unfold execEmbedStage
  refine ⟨_, rfl, ?_⟩
  repeat' with_reducible first
    | assumption | apply kept_runStage | apply kept_runEmbed | intro _

theorem kept_changeRole (c role s) (h3 : Kept s0 s) : Kept s0 (changeRole c role s) := by
  unfold changeRole
  repeat' with_reducible first
    | assumption | apply kept_setClusterFn | apply Kept.modCluster | apply kept_holdCluster | simp only [Kept.raw_iff] | split
    | dsimp only

theorem kept_controlRoles (wp wg s) (h3 : Kept s0 s) : Kept s0 (controlRoles wp wg s) := by
  unfold controlRoles
  repeat' with_reducible first
    | assumption | apply kept_fresh | apply kept_changeRole | rfl | intro _ | apply Kept.fold | apply Kept.foldSnd
    | simp only [Kept.raw_iff] | dsimp only | split

theorem kept_execRatioControl (s) (h1 : Kept s0 s) : ∃ t, execRatioControl s = .next t ∧ Kept s0 t := by
  unfold execRatioControl
  refine ⟨_, rfl, ?_⟩
  repeat' with_reducible first
    | assumption | apply kept_controlRoles | simp only [Kept.raw_iff] | split | dsimp only

end Sys2Proof.Machine
end

