-- ==== Sys2Proof/Laws/KeptScan.lean ====
section
/-! SUPPORT. Safety.Kept goes on through scans and ranking. -/

namespace Sys2Proof.Machine

open Safety

set_option maxRecDepth 8000
set_option linter.unreachableTactic false
set_option linter.unusedTactic false
set_option linter.unusedSimpArgs false

variable {s0 : State}

/-! ### Scan -/

theorem kept_modScan (f s) (h2 : Kept s0 s) : Kept s0 (modScan f s) := by
  unfold modScan
  repeat' with_reducible first
    | assumption | simp only [Kept.raw_iff]

theorem kept_sendScan (n dev pen body s) (h5 : Kept s0 s) : Kept s0 (sendScan n dev pen body s) := by
  unfold sendScan
  repeat' with_reducible first
    | assumption | apply kept_sendMsg | apply Kept.modSlot | apply kept_failSlot | split | dsimp only

theorem kept_countNans (k s) (h2 : Kept s0 s) : Kept s0 (countNans k s) := by
  unfold countNans
  repeat' with_reducible first
    | assumption | apply Kept.modHub

theorem kept_sendSweeps (n v lists sketch s) (h5 : Kept s0 s) : Kept s0 (sendSweeps n v lists sketch s) := by
  unfold sendSweeps
  repeat' with_reducible first
    | assumption | apply kept_sendScan | rfl | intro _ | apply Kept.fold | apply Kept.foldSnd | simp only [Kept.raw_iff] | dsimp only
    | split

theorem kept_scanShared (n o s) (h3 : Kept s0 s) : Kept s0 (scanShared n o s) := by
  unfold scanShared
  repeat' with_reducible first
    | assumption | apply kept_failSlot | apply kept_countNans | apply kept_touch | apply kept_sendSweeps | apply Kept.modSlot | split
    | dsimp only

theorem kept_scanPen (n o s) (h3 : Kept s0 s) : Kept s0 (scanPen n o s) := by
  unfold scanPen
  repeat' with_reducible first
    | assumption | apply kept_sendScan

theorem kept_settleScan (n s) (h2 : Kept s0 s) : Kept s0 (settleScan n s) := by
  unfold settleScan
  repeat' with_reducible first
    | assumption | apply kept_commitStage | split | dsimp only

theorem kept_execScanStage (slot s) (h2 : Kept s0 s) : ∃ t, execScanStage slot s = .next t ∧ Kept s0 t := by
  unfold execScanStage
  refine ⟨_, rfl, ?_⟩
  repeat' with_reducible first
    | assumption | apply kept_runStage | apply kept_scanShared | apply kept_scanPen | apply kept_settleScan | intro _ | split
    | dsimp only

theorem kept_sendReply (req kind epoch count lists code visible flags entries s) (h10 : Kept s0 s) : Kept s0 (sendReply req kind epoch count lists code visible flags entries s) := by
  unfold sendReply
  repeat' with_reducible first
    | assumption | apply kept_sendMsg

theorem kept_failSweep (num code s) (h3 : Kept s0 s) : Kept s0 (failSweep num code s) := by
  unfold failSweep
  repeat' with_reducible first
    | assumption | apply kept_sendReply | apply kept_dropScanReqs | split

theorem kept_settleSweep (num s) (h2 : Kept s0 s) : Kept s0 (settleSweep num s) := by
  unfold settleSweep
  repeat' with_reducible first
    | assumption | apply kept_dropScanReqs | apply kept_sendReply | split

theorem kept_addMember (root m s) (h3 : Kept s0 s) : Kept s0 (addMember root m s) := by
  unfold addMember
  repeat' with_reducible first
    | assumption | apply Kept.modStack | apply kept_modScan | split | dsimp only

theorem kept_startSweeps (b roots s) (h3 : Kept s0 s) : Kept s0 (startSweeps b roots s) := by
  unfold startSweeps
  repeat' with_reducible first
    | assumption | apply kept_modScan | apply kept_settleSweep | apply kept_addMember | rfl | intro _ | apply Kept.fold

theorem kept_execSweepRequest (body s) (h2 : Kept s0 s) : ∃ t, execSweepRequest body s = .next t ∧ Kept s0 t := by
  unfold execSweepRequest
  refine ⟨_, rfl, ?_⟩
  repeat' with_reducible first
    | assumption | apply kept_takeLoop | apply kept_startSweeps | apply kept_sendReply | simp only [Kept.raw_iff] | split | dsimp only

theorem kept_execFlockDue (island key s) (h3 : Kept s0 s) : ∃ t, execFlockDue island key s = .next t ∧ Kept s0 t := by
  unfold execFlockDue
  refine ⟨_, rfl, ?_⟩
  repeat' with_reducible first
    | assumption | apply Kept.modStack | split

theorem kept_execSweepStart (island key s) (h3 : Kept s0 s) : ∃ t, execSweepStart island key s = .next t ∧ Kept s0 t := by
  unfold execSweepStart
  refine ⟨_, rfl, ?_⟩
  repeat' with_reducible first
    | assumption | apply Kept.modStack | split | dsimp only

theorem kept_giveResult (m o visible solo s) (h5 : Kept s0 s) : Kept s0 (giveResult m o visible solo s) := by
  unfold giveResult
  repeat' with_reducible first
    | assumption | apply kept_failSweep | apply kept_settleSweep | apply kept_recordSlowdown | apply kept_modScan | split | dsimp only

theorem kept_resolveFlock (m f s) (h3 : Kept s0 s) : Kept s0 (resolveFlock m f s) := by
  unfold resolveFlock
  repeat' with_reducible first
    | assumption | apply Kept.modStack | apply kept_touch | apply kept_countEv | apply kept_modScan | apply kept_failSweep
    | apply kept_giveResult | rfl | intro _ | apply Kept.fold | apply Kept.foldSnd | simp only [Kept.raw_iff] | dsimp only | split

theorem kept_execSweepResolve (island engine s) (h3 : Kept s0 s) : ∃ t, execSweepResolve island engine s = .next t ∧ Kept s0 t := by
  unfold execSweepResolve
  refine ⟨_, rfl, ?_⟩
  repeat' with_reducible first
    | assumption | apply kept_resolveFlock | split

theorem kept_runPen (b epoch s) (h3 : Kept s0 s) : Kept s0 (runPen b epoch s) := by
  unfold runPen
  repeat' with_reducible first
    | assumption | apply kept_sendReply | apply kept_countNans | apply kept_touch | apply kept_fresh | apply kept_recordSlowdown
    | simp only [Kept.raw_iff] | split | dsimp only

theorem kept_takePenEpoch (b s) (h2 : Kept s0 s) : Kept s0 (takePenEpoch b s) := by
  unfold takePenEpoch
  repeat' with_reducible first
    | assumption | apply kept_modScan | split

theorem kept_servePen (b s) (h2 : Kept s0 s) : Kept s0 (servePen b s) := by
  unfold servePen
  repeat' with_reducible first
    | assumption | apply kept_sendReply | apply kept_runPen | split | dsimp only

theorem kept_servePens (s) (h1 : Kept s0 s) : Kept s0 (servePens s) := by
  unfold servePens
  repeat' with_reducible first
    | assumption | apply kept_takePenEpoch | apply kept_servePen | apply kept_modScan | rfl | intro _ | apply Kept.fold
    | apply Kept.foldSnd | simp only [Kept.raw_iff] | dsimp only | split | refine Kept.ofSnd (by with_reducible assumption) ?_
    | refine Kept.ofThd (by with_reducible assumption) ?_

theorem kept_execPenRequest (body s) (h2 : Kept s0 s) : ∃ t, execPenRequest body s = .next t ∧ Kept s0 t := by
  unfold execPenRequest
  refine ⟨_, rfl, ?_⟩
  repeat' with_reducible first
    | assumption | apply kept_takeLoop | apply kept_servePens | apply kept_modScan | split | dsimp only

theorem kept_execPenRecordLapse (entry handle s) (h3 : Kept s0 s) : ∃ t, execPenRecordLapse entry handle s = .next t ∧ Kept s0 t := by
  unfold execPenRecordLapse
  refine ⟨_, rfl, ?_⟩
  repeat' with_reducible first
    | assumption | apply kept_servePens | apply kept_modScan | split | dsimp only

theorem kept_dupReply (s) (h1 : Kept s0 s) : Kept s0 (dupReply s) := by
  unfold dupReply
  repeat' with_reducible first
    | assumption | apply kept_modScan

theorem kept_acceptReply (pen b keep s) (h4 : Kept s0 s) : Kept s0 (acceptReply pen b keep s) := by
  unfold acceptReply
  repeat' with_reducible first
    | assumption | apply kept_lateReply | apply kept_dupReply | apply kept_failSlot | apply kept_settleScan | apply Kept.modSlot | split
    | dsimp only

theorem kept_execSweepReply (body s) (h2 : Kept s0 s) : ∃ t, execSweepReply body s = .next t ∧ Kept s0 t := by
  unfold execSweepReply
  refine ⟨_, rfl, ?_⟩
  repeat' with_reducible first
    | assumption | apply kept_acceptReply | apply kept_takeLoop | split

theorem kept_execPenReply (body s) (h2 : Kept s0 s) : ∃ t, execPenReply body s = .next t ∧ Kept s0 t := by
  unfold execPenReply
  refine ⟨_, rfl, ?_⟩
  repeat' with_reducible first
    | assumption | apply kept_acceptReply | apply kept_takeLoop | split

theorem kept_execScanRetry (slot pen device s) (h4 : Kept s0 s) : ∃ t, execScanRetry slot pen device s = .next t ∧ Kept s0 t := by
  unfold execScanRetry
  refine ⟨_, rfl, ?_⟩
  repeat' with_reducible first
    | assumption | apply kept_failSlot | apply kept_sendMsg | apply Kept.modSlot | split | dsimp only

/-! ### Rank -/

theorem kept_countRank (dups nans evals passes s) (h5 : Kept s0 s) : Kept s0 (countRank dups nans evals passes s) := by
  unfold countRank
  repeat' with_reducible first
    | assumption | apply Kept.modHub

theorem kept_formShortlist (n s) (h2 : Kept s0 s) : Kept s0 (formShortlist n s) := by
  unfold formShortlist
  repeat' with_reducible first
    | assumption | apply kept_countRank | apply Kept.modSlot | apply kept_writeBuffer | apply kept_commitStage | split

theorem kept_execShortlistStage (slot s) (h2 : Kept s0 s) : ∃ t, execShortlistStage slot s = .next t ∧ Kept s0 t := by
  unfold execShortlistStage
  refine ⟨_, rfl, ?_⟩
  repeat' with_reducible first
    | assumption | apply kept_runStage | apply kept_formShortlist | intro _

theorem kept_finishRank (n cls passing s) (h4 : Kept s0 s) : Kept s0 (finishRank n cls passing s) := by
  unfold finishRank
  repeat' with_reducible first
    | assumption | apply Kept.modSlot | apply kept_writeBuffer | apply kept_changeStatus | apply kept_commitStage | split

theorem kept_passOn (n g cls list s) (h5 : Kept s0 s) : Kept s0 (passOn n g cls list s) := by
  unfold passOn
  repeat' with_reducible first
    | assumption | apply Kept.modSlot | apply kept_finishRank | apply kept_commitStage | split | dsimp only

theorem kept_rankExact (n all d nans s) (h5 : Kept s0 s) : Kept s0 (rankExact n all d nans s) := by
  unfold rankExact
  repeat' with_reducible first
    | assumption | apply kept_passOn | apply kept_countRank | apply Kept.modSlot

theorem kept_runExact (n cores remote s) (h4 : Kept s0 s) : Kept s0 (runExact n cores remote s) := by
  unfold runExact
  repeat' with_reducible first
    | assumption | apply kept_withReads | apply kept_failSlot | apply kept_rankExact | intro _ | split | dsimp only

theorem kept_execExactStage (slot remote s) (h3 : Kept s0 s) : ∃ t, execExactStage slot remote s = .next t ∧ Kept s0 t := by
  unfold execExactStage
  refine ⟨_, rfl, ?_⟩
  repeat' with_reducible first
    | assumption | apply kept_runStage | apply kept_runExact | intro _

theorem kept_takeAdapter (n a1 s) (h3 : Kept s0 s) : Kept s0 (takeAdapter n a1 s).2 := by
  unfold takeAdapter
  repeat' with_reducible first
    | assumption | apply Kept.modSlot | apply kept_touch | split | dsimp only

theorem kept_takeCross (n c scores s) (h4 : Kept s0 s) : Kept s0 (takeCross n c scores s) := by
  unfold takeCross
  repeat' with_reducible first
    | assumption | apply kept_countRank | apply Kept.modSlot | apply kept_passOn

theorem kept_countCross (n a1 rows s) (h4 : Kept s0 s) : Kept s0 (countCross n a1 rows s) := by
  unfold countCross
  repeat' with_reducible first
    | assumption | apply kept_fresh | rfl | intro _ | apply Kept.fold | apply Kept.foldSnd | simp only [Kept.raw_iff] | dsimp only
    | split | refine Kept.ofSnd (by with_reducible assumption) ?_ | refine Kept.ofThd (by with_reducible assumption) ?_

theorem kept_runCross (n inst remote s) (h4 : Kept s0 s) : Kept s0 (runCross n inst remote s) := by
  unfold runCross
  repeat' with_reducible first
    | assumption | apply kept_takeAdapter | apply kept_failSlot | apply kept_withReads | apply kept_takeCross | apply kept_countCross
    | rfl | intro _ | apply Kept.fold | apply Kept.foldSnd | simp only [Kept.raw_iff] | dsimp only | split

theorem kept_execCrossEncode (slot remote s) (h3 : Kept s0 s) : ∃ t, execCrossEncode slot remote s = .next t ∧ Kept s0 t := by
  unfold execCrossEncode
  refine ⟨_, rfl, ?_⟩
  repeat' with_reducible first
    | assumption | apply kept_runStage | apply kept_runCross | intro _

theorem kept_applyFilter (n k is head remote s) (h6 : Kept s0 s) : Kept s0 (applyFilter n k is head remote s) := by
  unfold applyFilter
  repeat' with_reducible first
    | assumption | apply kept_withReads | apply kept_countRank | apply Kept.modSlot | apply kept_passOn | intro _

theorem kept_filterExpr (n expr s) (h3 : Kept s0 s) : Kept s0 (filterExpr n expr s).2.2 := by
  unfold filterExpr
  repeat' with_reducible first
    | assumption | apply kept_readHost | split | dsimp only

theorem kept_runFilter (n k expr remote s) (h5 : Kept s0 s) : Kept s0 (runFilter n k expr remote s) := by
  unfold runFilter
  repeat' with_reducible first
    | assumption | apply kept_failSlot | apply kept_applyFilter | apply kept_filterExpr | apply kept_withReads | rfl | intro _
    | apply Kept.fold | apply Kept.foldSnd | simp only [Kept.raw_iff] | dsimp only | split
    | refine Kept.ofSnd (by with_reducible assumption) ?_ | refine Kept.ofThd (by with_reducible assumption) ?_

theorem kept_execFilterStage (slot expr remote s) (h4 : Kept s0 s) : ∃ t, execFilterStage slot expr remote s = .next t ∧ Kept s0 t := by
  unfold execFilterStage
  refine ⟨_, rfl, ?_⟩
  repeat' with_reducible first
    | assumption | apply kept_withSnoops | apply kept_runStage | apply kept_runFilter | intro _

theorem kept_packPrompt (n i off t strs s) (h6 : Kept s0 s) : Kept s0 (packPrompt n i off t strs s) := by
  unfold packPrompt
  repeat' with_reducible first
    | assumption | apply kept_failSlot | apply kept_commitStage | apply kept_countEv | apply kept_writeBuffer | simp only [Kept.raw_iff]
    | split | dsimp only

theorem kept_runPack (n i remote s) (h4 : Kept s0 s) : Kept s0 (runPack n i remote s) := by
  unfold runPack
  repeat' with_reducible first
    | assumption | apply kept_failSlot | apply kept_touch | apply kept_withReads | apply kept_packPrompt | split | dsimp only

theorem kept_execPackStage (slot remote s) (h3 : Kept s0 s) : ∃ t, execPackStage slot remote s = .next t ∧ Kept s0 t := by
  unfold execPackStage
  refine ⟨_, rfl, ?_⟩
  repeat' with_reducible first
    | assumption | apply kept_runStage | apply kept_runPack | intro _

end Sys2Proof.Machine
end

