-- ==== Sys2Proof/Laws/KeptTables.lean ====
section
/-! SUPPORT. Safety.Kept goes on through the HBM tier, tables and placement. -/

namespace Sys2Proof.Machine

open Safety

set_option maxRecDepth 8000
set_option linter.unreachableTactic false
set_option linter.unusedTactic false
set_option linter.unusedSimpArgs false

variable {s0 : State}

/-! ### Hbm -/

theorem kept_enableAct (fn on) (start : State → State) (abandon : State → State) (drain : State → State) (s) (h3 : ∀ y0, Kept s0 y0 → Kept s0 (start y0)) (h4 : ∀ y0, Kept s0 y0 → Kept s0 (abandon y0)) (h5 : ∀ y0, Kept s0 y0 → Kept s0 (drain y0)) (h6 : Kept s0 s) : Kept s0 (enableAct fn on start abandon drain s).2 := by
  unfold enableAct
  repeat' with_reducible first
    | assumption | apply h3 | apply h4 | apply h5 | split

theorem kept_endHingeCopy (s : State) (h : Kept s0 s) : Kept s0 (endHingeCopy s) := by
  unfold endHingeCopy
  split
  · exact h
  · dsimp only
    split
    · exact kept_hingeActive _ _ _ _ h
    split
    · exact h
    · exact kept_hingeActive _ _ _ _ (kept_putCells _ _ _ (kept_putCells _ _ _ (kept_touch _ _ h)))

theorem kept_execHingeCopyEnd (s) (h1 : Kept s0 s) : ∃ t, execHingeCopyEnd s = .next t ∧ Kept s0 t := by
  unfold execHingeCopyEnd
  refine ⟨_, rfl, ?_⟩
  repeat' with_reducible first
    | assumption | apply kept_endHingeCopy | split

theorem kept_installPage (m page s) (h3 : Kept s0 s) : Kept s0 (installPage m page s) := by
  unfold installPage
  repeat' with_reducible first
    | assumption | apply kept_hingeDone | apply kept_modHbm | apply Kept.modStack | apply kept_hingeActive | split | dsimp only

theorem kept_installRow (k row s) (h3 : Kept s0 s) : Kept s0 (installRow k row s) := by
  unfold installRow
  repeat' with_reducible first
    | assumption | apply kept_hingeDone | apply Kept.modCore | apply kept_decodeRow | apply kept_fresh | apply kept_notable | split
    | dsimp only

theorem kept_installHinge (v s) (h2 : Kept s0 s) : Kept s0 (installHinge v s) := by
  unfold installHinge
  repeat' with_reducible first
    | assumption | apply kept_dropHingeCopy | apply kept_endHingeCopy | apply kept_installRow | apply kept_installPage | split
    | dsimp only

theorem kept_startStack (n s) (h2 : Kept s0 s) : Kept s0 (startStack n s) := by
  unfold startStack
  repeat' with_reducible first
    | assumption | apply kept_releaseHold | apply kept_setStackFn | apply Kept.modStack

theorem kept_drainStack (n s) (h2 : Kept s0 s) : Kept s0 (drainStack n s) := by
  unfold drainStack
  repeat' with_reducible first
    | assumption | apply kept_setStackFn | apply kept_failJobsOf | apply kept_dropFlocks

theorem kept_stackUpNow (n s) (h2 : Kept s0 s) : Kept s0 (stackUpNow n s) := by
  unfold stackUpNow
  repeat' with_reducible first
    | assumption | apply kept_endCopyOff | apply kept_eraseStack | apply kept_backInService | apply kept_setStackFn | apply Kept.modStack
    | simp only [Kept.raw_iff] | split | dsimp only

theorem kept_execStackReady (n trained trainStep s) (h4 : Kept s0 s) : ∃ t, execStackReady n trained trainStep s = .next t ∧ Kept s0 t := by
  unfold execStackReady
  refine ⟨_, rfl, ?_⟩
  repeat' with_reducible first
    | assumption | apply kept_backInService | apply kept_stackOff | apply kept_stackUpNow | apply kept_raiseFault | split

theorem kept_execHdmCommit (base bi s) (h3 : Kept s0 s) : ∃ t, execHdmCommit base bi s = .next t ∧ Kept s0 t := by
  unfold execHdmCommit
  refine ⟨_, rfl, ?_⟩
  repeat' with_reducible first
    | assumption | apply kept_noteReady | apply Kept.modHost | intro _ | split | dsimp only

theorem kept_writeIntake (a0 : ℕ) (a1 : Bytes) (s : State) (h : Kept s0 s) : Kept s0 (writeIntake a0 a1 s) :=
  kept_countEv _ _ _ _ _ _ (Kept.rawMem h id fun w => memWf_stored rfl w _ _)

theorem kept_execIntakeWrite (line data s) (h3 : Kept s0 s) : ∃ t, execIntakeWrite line data s = .next t ∧ Kept s0 t := by
  unfold execIntakeWrite
  refine ⟨_, rfl, ?_⟩
  repeat' with_reducible first
    | assumption | apply kept_writeIntake | split

theorem kept_execIntakeRead (line s) (h2 : Kept s0 s) : ∃ t, execIntakeRead line s = .next t ∧ Kept s0 t := by
  unfold execIntakeRead
  refine ⟨_, rfl, ?_⟩
  repeat' with_reducible first
    | assumption | apply Kept.modHost | apply kept_touch | intro _ | split | dsimp only

theorem kept_execBiResponse (page dirty s) (h3 : Kept s0 s) : ∃ t, execBiResponse page dirty s = .next t ∧ Kept s0 t := by
  unfold execBiResponse
  refine ⟨_, rfl, ?_⟩
  repeat' with_reducible first
    | assumption | apply kept_writeIntake | apply Kept.modHost | rfl | intro _ | apply Kept.fold | apply Kept.foldSnd
    | simp only [Kept.raw_iff] | dsimp only | split

theorem kept_execHostSnoop (addr s) (h2 : Kept s0 s) : ∃ t, execHostSnoop addr s = .next t ∧ Kept s0 t := by
  unfold execHostSnoop
  refine ⟨_, rfl, ?_⟩
  repeat' with_reducible first
    | assumption | apply Kept.modHost | intro _ | split | dsimp only

/-! ### TableOps -/

theorem kept_modTableE (f s) (h2 : Kept s0 s) : Kept s0 (modTableE f s) := by
  unfold modTableE
  repeat' with_reducible first
    | assumption | simp only [Kept.raw_iff]

theorem kept_noteHot (slot row s) (h3 : Kept s0 s) : Kept s0 (noteHot slot row s) := by
  unfold noteHot
  repeat' with_reducible first
    | assumption | apply kept_modTableE

theorem kept_cmsCount (slot row off s) (h4 : Kept s0 s) : Kept s0 (cmsCount slot row off s) := by
  unfold cmsCount
  repeat' with_reducible first
    | assumption | apply Kept.modStack | apply kept_noteHot | split | dsimp only

theorem kept_cacheRead (slot row tenant off n s) (h6 : Kept s0 s) : Kept s0 (cacheRead slot row tenant off n s).2 := by
  unfold cacheRead
  repeat' with_reducible first
    | assumption | apply kept_touch | apply kept_modTableE | apply kept_cmsCount | apply kept_countEv | apply Kept.modStack | split
    | dsimp only

theorem kept_touchRoot (n v s) (h3 : Kept s0 s) : Kept s0 (touchRoot n v s) := by
  unfold touchRoot
  repeat' with_reducible first
    | assumption | apply kept_touch

theorem kept_readTableRow (n row tenant a3 place s) (h6 : Kept s0 s) : Kept s0 (readTableRow n row tenant a3 place s).2 := by
  unfold readTableRow
  repeat' with_reducible first
    | assumption | apply kept_touch | apply kept_cacheRead | split | dsimp only

theorem kept_readDefault (a0 r s) (h3 : Kept s0 s) : Kept s0 (readDefault a0 r s).2 := by
  unfold readDefault
  repeat' with_reducible first
    | assumption | apply kept_touch | split

theorem kept_readTableRows (n tenant a2 place a4 a5) (h6 : Kept s0 a5) : Kept s0 (readTableRows n tenant a2 place a4 a5).2 := by
  induction a4 generalizing a5 with
  | nil =>
    unfold readTableRows
    repeat' with_reducible first
    | assumption | rfl | intro _ | dsimp only | split
  | cons _ _ ih =>
    unfold readTableRows
    repeat' with_reducible first
    | assumption | apply kept_readTableRow | apply ih | rfl | intro _ | dsimp only | split
    | refine Kept.ofSnd (by with_reducible assumption) ?_ | refine Kept.ofThd (by with_reducible assumption) ?_

theorem kept_writeFresh (stack pages s) (h3 : Kept s0 s) : Kept s0 (writeFresh stack pages s).2 := by
  unfold writeFresh
  repeat' with_reducible first
    | assumption | apply kept_writePage | rfl | intro _ | apply Kept.fold | apply Kept.foldSnd | simp only [Kept.raw_iff] | dsimp only
    | split

theorem kept_replacePage (stack old : ℕ) (data : Bytes) (w : Rewrite) (h : Kept s0 w.state) :
    Kept s0 (replacePage stack old data w).2.state := by
  unfold replacePage
  have h1 : Kept s0 (writeFresh stack [data] (if w.owned.contains old then freePage (pageNo old) w.state else w.state)).2 := by
    refine kept_writeFresh _ _ _ ?_
    split
    · exact kept_freePage _ h
    · exact h
  revert h1
  dsimp only
  generalize writeFresh stack [data] (if w.owned.contains old then freePage (pageNo old) w.state else w.state) = q
  intro h1
  split
  · exact h
  · exact h1

theorem kept_rewriteMap (stack d old : ℕ) (es : List (ℕ × Bytes)) (w : Rewrite) (h : Kept s0 w.state) :
    Kept s0 (rewriteMap stack d old es w).2.state := by
  induction d generalizing old es w with
  | zero =>
    unfold rewriteMap
    split
    · exact h
    · exact kept_replacePage _ _ _ _ h
  | succ d ih =>
    unfold rewriteMap
    split
    · exact h
    · refine kept_replacePage _ _ _ _ (Kept.foldBy (fun a : Words × Rewrite => a.2.state) _ (fun a k ha => ?_) _ h _)
      exact ih _ _ _ ha

theorem kept_writeShard (n : ℕ) (rows : List ℕ) (s : State) (h : Kept s0 s) : Kept s0 (writeShard n rows s) := by
  unfold writeShard
  dsimp only
  split
  · exact h
  · exact Kept.modTable _ (kept_rewriteMap _ _ _ _ _ h) _

/-! ### TableBuild -/

theorem kept_sendTable (dst body reply s) (h4 : Kept s0 s) : Kept s0 (sendTable dst body reply s) := by
  unfold sendTable
  repeat' with_reducible first
    | assumption | apply kept_sendMsg

theorem kept_modPend (n late f s) (h4 : Kept s0 s) : Kept s0 (modPend n late f s) := by
  unfold modPend
  repeat' with_reducible first
    | assumption | apply Kept.modTable

theorem kept_putRow (n tag row hot v s) (h6 : Kept s0 s) : Kept s0 (putRow n tag row hot v s) := by
  unfold putRow
  repeat' with_reducible first
    | assumption | apply kept_modPend

theorem kept_countRow (s) (h1 : Kept s0 s) : Kept s0 (countRow s) := by
  unfold countRow
  repeat' with_reducible first
    | assumption | apply kept_modTableE

theorem kept_countMigration (s) (h1 : Kept s0 s) : Kept s0 (countMigration s) := by
  unfold countMigration
  repeat' with_reducible first
    | assumption | apply kept_modTableE

theorem kept_setMig (n row m s) (h4 : Kept s0 s) : Kept s0 (setMig n row m s) := by
  unfold setMig
  repeat' with_reducible first
    | assumption | apply Kept.modTable

theorem kept_applyRow (n tag row act value s) (h6 : Kept s0 s) : Kept s0 (applyRow n tag row act value s) := by
  unfold applyRow
  repeat' with_reducible first
    | assumption | apply kept_sendTable | apply kept_setMig | apply kept_countRow | apply kept_putRow | split | dsimp only

theorem kept_lowerBarrier (n row mig s) (h4 : Kept s0 s) : Kept s0 (lowerBarrier n row mig s) := by
  unfold lowerBarrier
  repeat' with_reducible first
    | assumption | apply kept_countMigration | apply kept_setMig | apply kept_writeShard | apply kept_applyRow | rfl | intro _
    | apply Kept.fold

theorem kept_tryReport (n s) (h2 : Kept s0 s) : Kept s0 (tryReport n s) := by
  unfold tryReport
  repeat' with_reducible first
    | assumption | apply kept_sendTable | apply Kept.modTable | split | dsimp only

theorem kept_forwardAcked (n row version s) (h4 : Kept s0 s) : Kept s0 (forwardAcked n row version s) := by
  unfold forwardAcked
  repeat' with_reducible first
    | assumption | apply kept_tryReport | apply kept_setMig

theorem kept_addHot (n tag row value s) (h5 : Kept s0 s) : Kept s0 (addHot n tag row value s) := by
  unfold addHot
  repeat' with_reducible first
    | assumption | apply kept_putRow | apply kept_modPend | split | dsimp only

theorem kept_removeHot (n tag row s) (h4 : Kept s0 s) : Kept s0 (removeHot n tag row s).2 := by
  unfold removeHot
  repeat' with_reducible first
    | assumption | apply kept_modPend

theorem kept_broadcastReplica (n v s) (h3 : Kept s0 s) : Kept s0 (broadcastReplica n v s) := by
  unfold broadcastReplica
  repeat' with_reducible first
    | assumption | apply Kept.modTable | apply kept_sendTable | rfl | intro _ | apply Kept.fold | apply Kept.foldSnd
    | simp only [Kept.raw_iff] | dsimp only | split | refine Kept.ofSnd (by with_reducible assumption) ?_
    | refine Kept.ofThd (by with_reducible assumption) ?_

theorem kept_noteSealed (n v s) (h3 : Kept s0 s) : Kept s0 (noteSealed n v s) := by
  unfold noteSealed
  repeat' with_reducible first
    | assumption | apply kept_raiseEvent | apply Kept.modTable

theorem kept_tableCode (n code s) (h3 : Kept s0 s) : Kept s0 (tableCode n code s) := by
  unfold tableCode
  repeat' with_reducible first
    | assumption | apply Kept.modTable

theorem kept_sealTable (n v s) (h3 : Kept s0 s) : Kept s0 (sealTable n v s).2 := by
  unfold sealTable
  repeat' with_reducible first
    | assumption | apply kept_tableCode | apply Kept.modTable | apply kept_broadcastReplica | apply kept_sendTable | rfl | intro _
    | apply Kept.fold | apply Kept.foldSnd | simp only [Kept.raw_iff] | dsimp only | split

theorem kept_writeArray (stack bs s) (h3 : Kept s0 s) : Kept s0 (writeArray stack bs s).2 := by
  unfold writeArray
  repeat' with_reducible first
    | assumption | apply kept_writeFresh | split

theorem kept_awaitCopy (off s) (h2 : Kept s0 s) : Kept s0 (awaitCopy off s) := by
  unfold awaitCopy
  repeat' with_reducible first
    | assumption | apply kept_endHingeCopy | split

theorem kept_switchTable (n v pages dir s) (h5 : Kept s0 s) : Kept s0 (switchTable n v pages dir s) := by
  unfold switchTable
  repeat' with_reducible first
    | assumption | apply kept_awaitCopy | apply kept_writeArray | apply kept_writeFresh | apply kept_tableCode | apply kept_rewriteIn
    | apply Kept.modTable | apply kept_writeShard | apply kept_noteSealed | apply kept_rewriteMap | simp only [Kept.raw_iff] | split
    | dsimp only

theorem kept_readTable (n s) (h2 : Kept s0 s) : Kept s0 (readTable n s) := by
  unfold readTable
  repeat' with_reducible first
    | assumption | apply Kept.modTable

theorem kept_startTable (n s) (h2 : Kept s0 s) : Kept s0 (startTable n s) := by
  unfold startTable
  repeat' with_reducible first
    | assumption | apply kept_setTableFn | apply kept_tableCode | apply kept_checkReads | apply kept_readTable | split

theorem kept_enableTable (n on s) (h3 : Kept s0 s) : Kept s0 (enableTable n on s).2 := by
  unfold enableTable
  repeat' with_reducible first
    | assumption | apply kept_enableAct | apply kept_startTable | apply kept_setTableFn | intro _

theorem kept_advanceTable (n v s) (h3 : Kept s0 s) : Kept s0 (advanceTable n v s).2 := by
  unfold advanceTable
  repeat' with_reducible first
    | assumption | apply kept_tableCode | apply Kept.modTable | split | dsimp only

theorem kept_installTable (n v root s) (h4 : Kept s0 s) : Kept s0 (installTable n v root s).2 := by
  unfold installTable
  repeat' with_reducible first
    | assumption | apply kept_awaitCopy | apply kept_tableCode | apply kept_rewriteIn | apply kept_touch | apply kept_noteSealed
    | apply Kept.modTable | split | dsimp only

theorem kept_raiseTableFloor (n f s) (h3 : Kept s0 s) : Kept s0 (raiseTableFloor n f s).2 := by
  unfold raiseTableFloor
  repeat' with_reducible first
    | assumption | apply kept_freePage | apply Kept.modTable | rfl | intro _ | apply Kept.fold | apply Kept.foldSnd
    | simp only [Kept.raw_iff] | dsimp only | split

/-! ### Tables -/

theorem kept_takeTable (op ring d reads keep) (run : ℕ → State → State) (s) (h6 : ∀ y0 y1, Kept s0 y1 → Kept s0 (run y0 y1)) (h7 : Kept s0 s) : Kept s0 (takeTable op ring d reads keep run s) := by
  unfold takeTable
  repeat' with_reducible first
    | assumption | apply h6 | apply kept_withSnoops | apply kept_takeDescriptor | apply kept_readHosts | apply kept_startStage
    | apply Kept.modSlot | apply kept_failSlot | rfl | intro _ | apply Kept.fold | apply Kept.foldSnd | simp only [Kept.raw_iff]
    | dsimp only | split

theorem kept_settleGather (n s) (h2 : Kept s0 s) : Kept s0 (settleGather n s) := by
  unfold settleGather
  repeat' with_reducible first
    | assumption | apply kept_holdStage | apply kept_failSlot | apply kept_commitStage | apply kept_writeBuffer | apply kept_modTableE
    | split | dsimp only

theorem kept_resumeGathers (s) (h1 : Kept s0 s) : Kept s0 (resumeGathers s) := by
  unfold resumeGathers
  repeat' with_reducible first
    | assumption | apply kept_settleGather | rfl | intro _ | apply Kept.fold

theorem kept_sendAwaited (n dev body s) (h4 : Kept s0 s) : Kept s0 (sendAwaited n dev body s) := by
  unfold sendAwaited
  repeat' with_reducible first
    | assumption | apply kept_sendMsg | apply Kept.modSlot | apply kept_failSlot | simp only [Kept.raw_iff] | split | dsimp only

theorem kept_sendEach (n body devs s) (h4 : Kept s0 s) : Kept s0 (sendEach n body devs s) := by
  unfold sendEach
  repeat' with_reducible first
    | assumption | apply kept_sendAwaited | rfl | intro _ | apply Kept.fold | apply Kept.foldSnd | simp only [Kept.raw_iff] | dsimp only
    | split

theorem kept_resolveRows (n slot tenant a3 r dir a6 a7 a8) (h8 : Kept s0 a7) : Kept s0 (resolveRows n slot tenant a3 r dir a6 a7 a8).2.2 := by
  induction a6 generalizing a7 a8 with
  | nil =>
    unfold resolveRows
    repeat' with_reducible first
    | assumption | rfl | intro _ | dsimp only | split
  | cons _ _ ih =>
    unfold resolveRows
    repeat' with_reducible first
    | assumption | apply kept_readDefault | apply kept_readTableRow | apply ih | rfl | intro _ | dsimp only | split
    | refine Kept.ofSnd (by with_reducible assumption) ?_ | refine Kept.ofThd (by with_reducible assumption) ?_

theorem kept_startGather (n s) (h2 : Kept s0 s) : Kept s0 (startGather n s) := by
  unfold startGather
  repeat' with_reducible first
    | assumption | apply kept_failSlot | apply kept_resolveRows | apply kept_touch | apply kept_touchRoot | apply Kept.modSlot
    | apply kept_settleGather | apply kept_sendEach | split | dsimp only

theorem kept_execTableGather (ring desc indices offsets weights s) (h6 : Kept s0 s) : ∃ t, execTableGather ring desc indices offsets weights s = .next t ∧ Kept s0 t := by
  unfold execTableGather
  refine ⟨_, rfl, ?_⟩
  repeat' with_reducible first
    | assumption | apply kept_takeTable | apply kept_startGather

theorem kept_tableReply (kind b) (keep : ℕ → State → State) (s) (h3 : ∀ y0 y1, Kept s0 y1 → Kept s0 (keep y0 y1)) (h4 : Kept s0 s) : Kept s0 (tableReply kind b keep s) := by
  unfold tableReply
  repeat' with_reducible first
    | assumption | apply h3 | apply kept_takeLoop | apply kept_lateReply | apply kept_dupReply | apply kept_failSlot | apply Kept.modSlot
    | split | dsimp only

theorem kept_execRowReadReply (_src body s) (h3 : Kept s0 s) : ∃ t, execRowReadReply _src body s = .next t ∧ Kept s0 t := by
  unfold execRowReadReply
  refine ⟨_, rfl, ?_⟩
  repeat' with_reducible first
    | assumption | apply kept_tableReply | apply kept_settleGather | apply Kept.modSlot | intro _ | split | dsimp only

theorem kept_tableAnswer (b rest more s) (h4 : Kept s0 s) : Kept s0 (tableAnswer b rest more s) := by
  unfold tableAnswer
  repeat' with_reducible first
    | assumption | apply kept_sendTable

theorem kept_serveRows (b s) (h2 : Kept s0 s) : Kept s0 (serveRows b s) := by
  unfold serveRows
  repeat' with_reducible first
    | assumption | apply kept_tableAnswer | apply kept_readTableRows | apply kept_touchRoot | split | dsimp only

theorem kept_execRowRead (_src body s) (h3 : Kept s0 s) : ∃ t, execRowRead _src body s = .next t ∧ Kept s0 t := by
  unfold execRowRead
  refine ⟨_, rfl, ?_⟩
  repeat' with_reducible first
    | assumption | apply kept_takeLoop | apply kept_serveRows | split | dsimp only

theorem kept_startUpdate (n s) (h2 : Kept s0 s) : Kept s0 (startUpdate n s) := by
  unfold startUpdate
  repeat' with_reducible first
    | assumption | apply kept_failSlot | apply kept_sendEach | apply Kept.modSlot | split | dsimp only

theorem kept_takeUpdate (op ring desc indices values s) (h6 : Kept s0 s) : Kept s0 (takeUpdate op ring desc indices values s) := by
  unfold takeUpdate
  repeat' with_reducible first
    | assumption | apply kept_takeTable | apply kept_startUpdate

theorem kept_execUpdate (ring desc indices values s) (h5 : Kept s0 s) : ∃ t, execUpdate ring desc indices values s = .next t ∧ Kept s0 t := by
  unfold execUpdate
  refine ⟨_, rfl, ?_⟩
  repeat' with_reducible first
    | assumption | apply kept_takeUpdate

theorem kept_execPromote (ring desc indices s) (h4 : Kept s0 s) : ∃ t, execPromote ring desc indices s = .next t ∧ Kept s0 t := by
  unfold execPromote
  refine ⟨_, rfl, ?_⟩
  repeat' with_reducible first
    | assumption | apply kept_takeUpdate

theorem kept_execDemote (ring desc indices s) (h4 : Kept s0 s) : ∃ t, execDemote ring desc indices s = .next t ∧ Kept s0 t := by
  unfold execDemote
  refine ⟨_, rfl, ?_⟩
  repeat' with_reducible first
    | assumption | apply kept_takeUpdate

theorem kept_execTableStageReply (_src body s) (h3 : Kept s0 s) : ∃ t, execTableStageReply _src body s = .next t ∧ Kept s0 t := by
  unfold execTableStageReply
  refine ⟨_, rfl, ?_⟩
  repeat' with_reducible first
    | assumption | apply kept_tableReply | apply Kept.modSlot | apply kept_sendEach | intro _ | split | dsimp only

theorem kept_execTableCommitReply (_src body s) (h3 : Kept s0 s) : ∃ t, execTableCommitReply _src body s = .next t ∧ Kept s0 t := by
  unfold execTableCommitReply
  refine ⟨_, rfl, ?_⟩
  repeat' with_reducible first
    | assumption | apply kept_tableReply | apply Kept.modSlot | apply kept_commitStage | intro _ | split | dsimp only

theorem kept_execTableStage (_src body s) (h3 : Kept s0 s) : ∃ t, execTableStage _src body s = .next t ∧ Kept s0 t := by
  unfold execTableStage
  refine ⟨_, rfl, ?_⟩
  repeat' with_reducible first
    | assumption | apply kept_takeLoop | apply kept_tableAnswer | apply Kept.modTable | split | dsimp only

theorem kept_execTableCommit (_src body s) (h3 : Kept s0 s) : ∃ t, execTableCommit _src body s = .next t ∧ Kept s0 t := by
  unfold execTableCommit
  refine ⟨_, rfl, ?_⟩
  repeat' with_reducible first
    | assumption | apply kept_takeLoop | apply kept_tableAnswer | apply Kept.modTable | apply kept_applyRow | apply kept_writeShard | rfl
    | intro _ | apply Kept.fold | apply Kept.foldSnd | simp only [Kept.raw_iff] | dsimp only | split

theorem kept_execSealMark (_src body s) (h3 : Kept s0 s) : ∃ t, execSealMark _src body s = .next t ∧ Kept s0 t := by
  unfold execSealMark
  refine ⟨_, rfl, ?_⟩
  repeat' with_reducible first
    | assumption | apply kept_takeLoop | apply kept_tryReport | apply Kept.modTable | split | dsimp only

theorem kept_execSealMarkReply (_src body s) (h3 : Kept s0 s) : ∃ t, execSealMarkReply _src body s = .next t ∧ Kept s0 t := by
  unfold execSealMarkReply
  refine ⟨_, rfl, ?_⟩
  repeat' with_reducible first
    | assumption | apply kept_takeLoop | apply Kept.modTable | apply kept_broadcastReplica | split | dsimp only

theorem kept_execReplicaPages (_src body s) (h3 : Kept s0 s) : ∃ t, execReplicaPages _src body s = .next t ∧ Kept s0 t := by
  unfold execReplicaPages
  refine ⟨_, rfl, ?_⟩
  repeat' with_reducible first
    | assumption | apply kept_takeLoop | apply kept_tableAnswer | apply kept_switchTable | split | dsimp only

theorem kept_execReplicaPagesReply (_src body s) (h3 : Kept s0 s) : ∃ t, execReplicaPagesReply _src body s = .next t ∧ Kept s0 t := by
  unfold execReplicaPagesReply
  refine ⟨_, rfl, ?_⟩
  repeat' with_reducible first
    | assumption | apply kept_takeLoop | apply Kept.modTable | apply kept_noteSealed | split | dsimp only

theorem kept_execMigrationCopy (_src body s) (h3 : Kept s0 s) : ∃ t, execMigrationCopy _src body s = .next t ∧ Kept s0 t := by
  unfold execMigrationCopy
  refine ⟨_, rfl, ?_⟩
  repeat' with_reducible first
    | assumption | apply kept_takeLoop | apply kept_sendTable | apply kept_addHot | apply kept_tryReport | apply kept_lowerBarrier
    | apply kept_putRow | split | dsimp only

theorem kept_execMigrationCopyReply (_src body s) (h3 : Kept s0 s) : ∃ t, execMigrationCopyReply _src body s = .next t ∧ Kept s0 t := by
  unfold execMigrationCopyReply
  refine ⟨_, rfl, ?_⟩
  repeat' with_reducible first
    | assumption | apply kept_takeLoop | apply kept_tryReport | apply kept_lowerBarrier | split | dsimp only

theorem kept_execForwardedUpdate (_src body s) (h3 : Kept s0 s) : ∃ t, execForwardedUpdate _src body s = .next t ∧ Kept s0 t := by
  unfold execForwardedUpdate
  refine ⟨_, rfl, ?_⟩
  repeat' with_reducible first
    | assumption | apply kept_takeLoop | apply kept_sendTable | apply kept_removeHot | apply kept_countRow | apply kept_putRow | split
    | dsimp only

theorem kept_execForwardedUpdateReply (_src body s) (h3 : Kept s0 s) : ∃ t, execForwardedUpdateReply _src body s = .next t ∧ Kept s0 t := by
  unfold execForwardedUpdateReply
  refine ⟨_, rfl, ?_⟩
  repeat' with_reducible first
    | assumption | apply kept_takeLoop | apply kept_forwardAcked | split

theorem kept_execCmsDecay (island s) (h2 : Kept s0 s) : ∃ t, execCmsDecay island s = .next t ∧ Kept s0 t := by
  unfold execCmsDecay
  refine ⟨_, rfl, ?_⟩
  repeat' with_reducible first
    | assumption | apply Kept.modStack | split

/-! ### Placement -/

theorem kept_countPreempt (v s) (h2 : Kept s0 s) : Kept s0 (countPreempt v s) := by
  unfold countPreempt
  repeat' with_reducible first
    | assumption | apply kept_modSlowdowns | simp only [Kept.raw_iff]

theorem kept_preemptBy (k u v s) (h4 : Kept s0 s) : Kept s0 (preemptBy k u v s) := by
  unfold preemptBy
  repeat' with_reducible first
    | assumption | apply kept_requeueAt | apply kept_takeWaiting | apply kept_placeCmd | apply kept_countEv | apply kept_countPreempt
    | split | dsimp only

theorem kept_execPreempt (core cmd s) (h3 : Kept s0 s) : ∃ t, execPreempt core cmd s = .next t ∧ Kept s0 t := by
  unfold execPreempt
  refine ⟨_, rfl, ?_⟩
  repeat' with_reducible first
    | assumption | apply kept_preemptBy | split

theorem kept_startCluster (n s) (h2 : Kept s0 s) : Kept s0 (startCluster n s) := by
  unfold startCluster
  repeat' with_reducible first
    | assumption | apply kept_releaseHold | apply kept_setClusterFn | apply Kept.modCluster | rfl | intro _ | apply Kept.fold

theorem kept_drainCluster (n s) (h2 : Kept s0 s) : Kept s0 (drainCluster n s) := by
  unfold drainCluster
  repeat' with_reducible first
    | assumption | apply kept_setClusterFn | apply kept_holdCluster

theorem kept_enableCluster (n on s) (h3 : Kept s0 s) : Kept s0 (enableCluster n on s).2 := by
  unfold enableCluster
  repeat' with_reducible first
    | assumption | apply Kept.modCluster | apply kept_enableAct | apply kept_startCluster | apply kept_drainCluster | intro _ | split
    | dsimp only

theorem kept_reloadOn (n ks s) (h3 : Kept s0 s) : Kept s0 (reloadOn n ks s) := by
  unfold reloadOn
  repeat' with_reducible first
    | assumption | apply kept_modRegions | apply kept_loadCores | rfl | intro _ | apply Kept.fold | apply Kept.foldSnd
    | simp only [Kept.raw_iff] | dsimp only | split | refine Kept.ofSnd (by with_reducible assumption) ?_
    | refine Kept.ofThd (by with_reducible assumption) ?_

theorem kept_reloadModels (n s) (h2 : Kept s0 s) : Kept s0 (reloadModels n s) := by
  unfold reloadModels
  repeat' with_reducible first
    | assumption | apply kept_reloadOn | rfl | intro _ | apply Kept.fold | apply Kept.foldSnd | simp only [Kept.raw_iff] | dsimp only
    | split | refine Kept.ofSnd (by with_reducible assumption) ?_ | refine Kept.ofThd (by with_reducible assumption) ?_

theorem kept_clusterServes (s) (h1 : Kept s0 s) : Kept s0 (clusterServes s) := by
  unfold clusterServes
  repeat' with_reducible first
    | assumption | apply kept_servePens | apply kept_resumeGathers

theorem kept_clusterUpNow (n s) (h2 : Kept s0 s) : Kept s0 (clusterUpNow n s) := by
  unfold clusterUpNow
  repeat' with_reducible first
    | assumption | apply Kept.modCore | apply kept_reloadModels | apply Kept.modCluster | apply kept_clusterServes
    | apply kept_backInService | apply kept_setClusterFn | rfl | intro _ | apply Kept.fold | apply Kept.foldSnd
    | simp only [Kept.raw_iff] | dsimp only | split

theorem kept_execClusterReady (n s) (h2 : Kept s0 s) : ∃ t, execClusterReady n s = .next t ∧ Kept s0 t := by
  unfold execClusterReady
  refine ⟨_, rfl, ?_⟩
  repeat' with_reducible first
    | assumption | apply kept_backInService | apply kept_clusterOff | apply kept_clusterUpNow | split

theorem kept_startText (n s) (h2 : Kept s0 s) : Kept s0 (startText n s) := by
  unfold startText
  repeat' with_reducible first
    | assumption | apply kept_setTextFn | apply Kept.modText | apply kept_releaseHold

theorem kept_textOff (n s) (h2 : Kept s0 s) : Kept s0 (textOff n s) := by
  unfold textOff
  repeat' with_reducible first
    | assumption | apply kept_setTextFn | apply Kept.modText

theorem kept_execTextReady (n s) (h2 : Kept s0 s) : ∃ t, execTextReady n s = .next t ∧ Kept s0 t := by
  unfold execTextReady
  refine ⟨_, rfl, ?_⟩
  repeat' with_reducible first
    | assumption | apply kept_backInService | apply kept_textOff | apply kept_setTextFn | split

theorem kept_endClusterDrain (n s) (h2 : Kept s0 s) : Kept s0 (endClusterDrain n s) := by
  unfold endClusterDrain
  repeat' with_reducible first
    | assumption | apply kept_clusterServes | apply kept_setClusterFn | apply Kept.modCluster | apply kept_clusterOff
    | simp only [Kept.raw_iff] | split | dsimp only

theorem kept_execDrainEnd (fn s) (h2 : Kept s0 s) : ∃ t, execDrainEnd fn s = .next t ∧ Kept s0 t := by
  unfold execDrainEnd
  refine ⟨_, rfl, ?_⟩
  repeat' with_reducible first
    | assumption | apply kept_endClusterDrain | apply kept_textOff | apply kept_stackOff | apply kept_setLinkFn | apply Kept.modLink
    | apply kept_setModelFn | apply kept_releaseModel | apply kept_setTableFn | split

theorem kept_execDrainHoldTimeout (handle s) (h2 : Kept s0 s) : ∃ t, execDrainHoldTimeout handle s = .next t ∧ Kept s0 t := by
  unfold execDrainHoldTimeout
  refine ⟨_, rfl, ?_⟩
  repeat' with_reducible first
    | assumption | apply kept_failRequest | split | dsimp only

theorem kept_clearSlowdowns (v s) (h2 : Kept s0 s) : Kept s0 (clearSlowdowns v s) := by
  unfold clearSlowdowns
  repeat' with_reducible first
    | assumption | simp only [Kept.raw_iff] | split | dsimp only

end Sys2Proof.Machine
end

