-- ==== Sys2Proof/Laws/KeptModule.lean ====
section
/-! SUPPORT. Safety.Kept goes on through faults, firmware, the module and counters. -/

namespace Sys2Proof.Machine

open Safety

set_option maxRecDepth 8000
set_option linter.unreachableTactic false
set_option linter.unusedTactic false
set_option linter.unusedSimpArgs false

variable {s0 : State}

/-! ### Faults -/

theorem kept_modFaults (f s) (h2 : Kept s0 s) : Kept s0 (modFaults f s) := by
  unfold modFaults
  repeat' with_reducible first
    | assumption | simp only [Kept.raw_iff]

theorem kept_collect (r s) (h2 : Kept s0 s) : Kept s0 (collect r s) := by
  unfold collect
  repeat' with_reducible first
    | assumption | apply kept_countEv | apply kept_pushHistory | apply kept_modFaults | apply kept_fireVector | split | dsimp only

theorem kept_execFaultNoticeArrival (s) (h1 : Kept s0 s) : ∃ t, execFaultNoticeArrival s = .next t ∧ Kept s0 t := by
  unfold execFaultNoticeArrival
  refine ⟨_, rfl, ?_⟩
  repeat' with_reducible first
    | assumption | apply kept_collect | split

theorem kept_clearFault (v s) (h2 : Kept s0 s) : Kept s0 (clearFault v s) := by
  unfold clearFault
  repeat' with_reducible first
    | assumption | apply kept_modFaults | split

theorem kept_functionOff (i s) (h2 : Kept s0 s) : Kept s0 (functionOff i s) := by
  unfold functionOff
  repeat' with_reducible first
    | assumption | apply kept_clusterOff | apply kept_stackOff | apply kept_textOff | apply kept_setLinkFn | rfl | intro _
    | apply Kept.fold | apply Kept.foldSnd | simp only [Kept.raw_iff] | dsimp only | split

theorem kept_returnCore (k s) (h2 : Kept s0 s) : Kept s0 (returnCore k s) := by
  unfold returnCore
  repeat' with_reducible first
    | assumption | apply kept_reloadOn | apply Kept.modCore | rfl | intro _ | apply Kept.fold

theorem kept_returnIsland (i s) (h2 : Kept s0 s) : Kept s0 (returnIsland i s) := by
  unfold returnIsland
  repeat' with_reducible first
    | assumption | apply kept_notable | apply kept_functionOff | apply Kept.modIsland | apply kept_backInService | apply kept_returnCore
    | split | dsimp only

theorem kept_execIslandReturn (island s) (h2 : Kept s0 s) : ∃ t, execIslandReturn island s = .next t ∧ Kept s0 t := by
  unfold execIslandReturn
  refine ⟨_, rfl, ?_⟩
  repeat' with_reducible first
    | assumption | apply kept_returnIsland | split

theorem kept_fireFi (s) (h1 : Kept s0 s) : Kept s0 (fireFi s) := by
  unfold fireFi
  repeat' with_reducible first
    | assumption | apply kept_raiseFault | apply kept_modFaults

theorem kept_armFi (s) (h1 : Kept s0 s) : Kept s0 (armFi s) := by
  unfold armFi
  repeat' with_reducible first
    | assumption | apply kept_modFaults | apply kept_fireFi | split | dsimp only

theorem kept_execFiFire (s) (h1 : Kept s0 s) : ∃ t, execFiFire s = .next t ∧ Kept s0 t := by
  unfold execFiFire
  refine ⟨_, rfl, ?_⟩
  repeat' with_reducible first
    | assumption | apply kept_fireFi | split

theorem kept_injectPi {s t : State} (e : injectPi s = some t) (h : Kept s0 s) : Kept s0 t := by
  revert e
  unfold injectPi
  dsimp only
  repeat' split
  all_goals intro e
  all_goals cases e
  · exact Kept.modCore _ h _
  · exact kept_modHbm _ _ h
  · exact Kept.modPage _ h _
  · exact kept_setByteErr _ _ _ _ _ h

theorem kept_execStateMemoryScrub (island cls addr s) (h4 : Kept s0 s) : ∃ t, execStateMemoryScrub island cls addr s = .next t ∧ Kept s0 t := by
  unfold execStateMemoryScrub
  refine ⟨_, rfl, ?_⟩
  repeat' with_reducible first
    | assumption | apply kept_decodeByte | simp only [Kept.raw_iff] | split | dsimp only

theorem kept_execWatchdogTimeout (island pc s) (h3 : Kept s0 s) : ∃ t, execWatchdogTimeout island pc s = .next t ∧ Kept s0 t := by
  unfold execWatchdogTimeout
  refine ⟨_, rfl, ?_⟩
  repeat' with_reducible first
    | assumption | apply kept_raiseFault | split

theorem kept_execClockLockLoss (island s) (h2 : Kept s0 s) : ∃ t, execClockLockLoss island s = .next t ∧ Kept s0 t := by
  unfold execClockLockLoss
  refine ⟨_, rfl, ?_⟩
  repeat' with_reducible first
    | assumption | apply kept_raiseFault

theorem kept_readSensor (i t s) (h3 : Kept s0 s) : Kept s0 (readSensor i t s) := by
  unfold readSensor
  repeat' with_reducible first
    | assumption | apply Kept.modIsland | apply kept_raiseFault | simp only [Kept.raw_iff] | split | dsimp only

theorem kept_execTempSample (readings s) (h2 : Kept s0 s) : ∃ t, execTempSample readings s = .next t ∧ Kept s0 t := by
  unfold execTempSample
  refine ⟨_, rfl, ?_⟩
  repeat' with_reducible first
    | assumption | apply kept_readSensor | rfl | intro _ | apply Kept.fold | apply Kept.foldSnd | simp only [Kept.raw_iff] | dsimp only
    | split

theorem kept_compareBeacon (a s) (h2 : Kept s0 s) : Kept s0 (compareBeacon a s) := by
  unfold compareBeacon
  repeat' with_reducible first
    | assumption | apply Kept.modIsland | apply kept_raiseFault | apply Kept.modHub | split | dsimp only

theorem kept_execBeacon (arrivals s) (h2 : Kept s0 s) : ∃ t, execBeacon arrivals s = .next t ∧ Kept s0 t := by
  unfold execBeacon
  refine ⟨_, rfl, ?_⟩
  repeat' with_reducible first
    | assumption | apply kept_compareBeacon | rfl | intro _ | apply Kept.fold | apply Kept.foldSnd | simp only [Kept.raw_iff]
    | dsimp only | split

theorem kept_execBeaconMissing (island s) (h2 : Kept s0 s) : ∃ t, execBeaconMissing island s = .next t ∧ Kept s0 t := by
  unfold execBeaconMissing
  refine ⟨_, rfl, ?_⟩
  repeat' with_reducible first
    | assumption | apply kept_raiseFault | split

theorem kept_clearSkew (v s) (h2 : Kept s0 s) : Kept s0 (clearSkew v s) := by
  unfold clearSkew
  repeat' with_reducible first
    | assumption | apply Kept.modHub | split

theorem kept_execAerUncorrectableError (status s) (h2 : Kept s0 s) : ∃ t, execAerUncorrectableError status s = .next t ∧ Kept s0 t := by
  unfold execAerUncorrectableError
  refine ⟨_, rfl, ?_⟩
  repeat' with_reducible first
    | assumption | apply kept_raiseFault

/-! ### Firmware -/

theorem kept_answer (via ret payload s) (h4 : Kept s0 s) : Kept s0 (answer via ret payload s) := by
  unfold answer
  repeat' with_reducible first
    | assumption | apply Kept.modHost | intro _ | split | dsimp only

theorem kept_modFw (f s) (h2 : Kept s0 s) : Kept s0 (modFw f s) := by
  unfold modFw
  repeat' with_reducible first
    | assumption | simp only [Kept.raw_iff]

theorem kept_fwAnswer (via code s) (h3 : Kept s0 s) : Kept s0 (fwAnswer via code s) := by
  unfold fwAnswer
  repeat' with_reducible first
    | assumption | apply kept_answer

theorem kept_execFwBegin (via total s) (h3 : Kept s0 s) : ∃ t, execFwBegin via total s = .next t ∧ Kept s0 t := by
  unfold execFwBegin
  refine ⟨_, rfl, ?_⟩
  repeat' with_reducible first
    | assumption | apply kept_fwAnswer | apply kept_setFwFn | apply kept_modFw | split

theorem kept_execFwChunk (via offset data s) (h4 : Kept s0 s) : ∃ t, execFwChunk via offset data s = .next t ∧ Kept s0 t := by
  unfold execFwChunk
  refine ⟨_, rfl, ?_⟩
  repeat' with_reducible first
    | assumption | apply kept_answer | apply kept_fwAnswer | apply kept_modFw | split

theorem kept_execFwFetch (via addr len s) (h4 : Kept s0 s) : ∃ t, execFwFetch via addr len s = .next t ∧ Kept s0 t := by
  unfold execFwFetch
  refine ⟨_, rfl, ?_⟩
  repeat' with_reducible first
    | assumption | apply kept_answer | apply kept_fwAnswer | apply kept_modFw | apply kept_hostRead | split

theorem kept_execFwFetchCompletion (data ok s) (h3 : Kept s0 s) : ∃ t, execFwFetchCompletion data ok s = .next t ∧ Kept s0 t := by
  unfold execFwFetchCompletion
  refine ⟨_, rfl, ?_⟩
  repeat' with_reducible first
    | assumption | apply kept_failReceipt | apply kept_modFw | split

theorem kept_execFwCommit (via s) (h2 : Kept s0 s) : ∃ t, execFwCommit via s = .next t ∧ Kept s0 t := by
  unfold execFwCommit
  refine ⟨_, rfl, ?_⟩
  repeat' with_reducible first
    | assumption | apply kept_fwAnswer | apply kept_modFw | split

theorem kept_execFwAbort (via s) (h2 : Kept s0 s) : ∃ t, execFwAbort via s = .next t ∧ Kept s0 t := by
  unfold execFwAbort
  refine ⟨_, rfl, ?_⟩
  repeat' with_reducible first
    | assumption | apply kept_fwAnswer | apply kept_setFwFn | apply kept_modFw | split

theorem kept_copySections (signed s) (h2 : Kept s0 s) : Kept s0 (copySections signed s) := by
  unfold copySections
  repeat' with_reducible first
    | assumption | apply Kept.modIsland | rfl | intro _ | apply Kept.fold | apply Kept.foldSnd | simp only [Kept.raw_iff] | dsimp only
    | split | refine Kept.ofSnd (by with_reducible assumption) ?_ | refine Kept.ofThd (by with_reducible assumption) ?_

theorem kept_loadFirmware (s) (h1 : Kept s0 s) : Kept s0 (loadFirmware s) := by
  unfold loadFirmware
  repeat' with_reducible first
    | assumption | apply kept_modFw | apply kept_copySections | apply Kept.modHub | apply kept_raiseEvent | apply kept_setFwFn

theorem kept_execFwVerifyEnd (s) (h1 : Kept s0 s) : ∃ t, execFwVerifyEnd s = .next t ∧ Kept s0 t := by
  unfold execFwVerifyEnd
  refine ⟨_, rfl, ?_⟩
  repeat' with_reducible first
    | assumption | apply kept_failReceipt | apply kept_loadFirmware | split | dsimp only

theorem kept_raiseFwFloor (v : Word32) (s : State) (h : Kept s0 s) : Kept s0 (raiseFwFloor v s).2 := by
  unfold raiseFwFloor
  split
  · exact h
  · exact Kept.trans h ⟨rfl, .inl rfl, id, fun o => ⟨o, le_rfl⟩⟩

/-! ### Module -/

theorem kept_modModule (f s) (h2 : Kept s0 s) : Kept s0 (modModule f s) := by
  unfold modModule
  repeat' with_reducible first
    | assumption | simp only [Kept.raw_iff]

theorem kept_wiped (m : Module) (s : State) (h : Kept s0 s) : Kept s0 (wiped m s) := by
  refine Kept.trans h ⟨rfl, .inr rfl, fun w => ?_, fun o => ⟨fun e => by simp [signing, wiped] at e, ?_⟩⟩
  · simp only [wf, memoryWf, Bool.and_eq_true] at w ⊢
    exact ⟨rfl, rfl, w.2.2⟩
  · have : nextLeaf (wiped m s) = s.flash.leafLimit := rfl
    rw [this]
    unfold nextLeaf
    split
    · next e => exact (o e).1.trans (o e).2.le
    · exact le_rfl

theorem kept_powerOff (latched s) (h2 : Kept s0 s) : Kept s0 (powerOff latched s) := by
  unfold powerOff
  repeat' with_reducible first
    | assumption | apply kept_wiped

theorem kept_execPowerOn (s) (h1 : Kept s0 s) : ∃ t, execPowerOn s = .next t ∧ Kept s0 t := by
  unfold execPowerOn
  refine ⟨_, rfl, ?_⟩
  repeat' with_reducible first
    | assumption | apply kept_modModule | split

theorem kept_execPowerFault (s) (h1 : Kept s0 s) : ∃ t, execPowerFault s = .next t ∧ Kept s0 t := by
  unfold execPowerFault
  refine ⟨_, rfl, ?_⟩
  repeat' with_reducible first
    | assumption | apply kept_powerOff

theorem kept_execThermalShutdown (s) (h1 : Kept s0 s) : ∃ t, execThermalShutdown s = .next t ∧ Kept s0 t := by
  unfold execThermalShutdown
  refine ⟨_, rfl, ?_⟩
  repeat' with_reducible first
    | assumption | apply kept_powerOff | split

theorem kept_execPerstAssert (s) (h1 : Kept s0 s) : ∃ t, execPerstAssert s = .next t ∧ Kept s0 t := by
  unfold execPerstAssert
  refine ⟨_, rfl, ?_⟩
  repeat' with_reducible first
    | assumption | apply kept_wiped

theorem kept_modIdent (f : Identity → Identity) (s : State) (hf : ∀ i, (f i).pufState = i.pufState ∧ (f i).code = i.code ∧
    (f i).leafNext = i.leafNext ∧ (f i).leafLimit = i.leafLimit) (h : Kept s0 s) : Kept s0 (modIdent f s) :=
  Kept.raw h rfl (hf _).1 (hf _).2.1 (hf _).2.2.1 (hf _).2.2.2

/-- Signing that does not run takes no leaf, whatever becomes of the identity. -/
theorem kept_noSigning {s t : State} (h : Kept s0 s) (hp : t.pending = s.pending) (hc : t.time = s.time) (hf : t.flash = s.flash)
    (hw : wf s = true → wf t = true) (hn : signing t = false) : Kept s0 t := by
  refine Kept.trans h ⟨hp, .inl hc, hw, fun o => ⟨fun e => absurd e (by simp [hn]), ?_⟩⟩
  simp only [nextLeaf, hn, hf]
  split
  · next e => exact (o e).1.trans (o e).2.le
  · exact le_rfl

theorem kept_bootIdentity (seed : Option Bytes) (s : State) (h : Kept s0 s) : Kept s0 (bootIdentity seed s) := by
  unfold bootIdentity
  split
  · refine kept_noSigning (kept_fresh s h) rfl rfl rfl id (by rfl)
  · exact kept_noteReady _ _ h (kept_noSigning h rfl rfl rfl id (by simp [signing, modIdent]))

theorem kept_bootRecord (s : State) (h : Kept s0 s) : Kept s0 (bootRecord s) := by
  unfold bootRecord
  split
  · exact h
  split
  · refine kept_noteReady _ _ h (Kept.trans h ⟨rfl, .inl rfl, id, fun o => ⟨fun _ => ⟨le_rfl, rfl⟩, ?_⟩⟩)
    unfold nextLeaf
    split
    · next e =>
      split
      · exact (o e).1.trans (o e).2.le
      · exact (o e).1.trans (o e).2.le
    · split <;> exact le_rfl
  · exact Kept.raw h rfl rfl rfl rfl rfl

theorem kept_bootHub (s : State) (h : Kept s0 s) : Kept s0 (bootHub s) :=
  kept_noteReady _ _ h (kept_modIdent _ _ (fun _ => ⟨rfl, rfl, rfl, rfl⟩) h)

theorem kept_execPerstRelease (boot s) (h2 : Kept s0 s) : ∃ t, execPerstRelease boot s = .next t ∧ Kept s0 t := by
  unfold execPerstRelease
  refine ⟨_, rfl, ?_⟩
  repeat' with_reducible first
    | assumption | apply kept_modModule | apply kept_modFaults | apply Kept.modIsland | apply kept_bootRecord | apply kept_bootIdentity
    | apply kept_bootHub | rfl | intro _ | apply Kept.fold | apply Kept.foldSnd | simp only [Kept.raw_iff] | dsimp only | split
    | refine Kept.ofSnd (by with_reducible assumption) ?_ | refine Kept.ofThd (by with_reducible assumption) ?_

theorem kept_sendPending (v s) (h2 : Kept s0 s) : Kept s0 (sendPending v s) := by
  unfold sendPending
  repeat' with_reducible first
    | assumption | apply kept_fireVector | apply Kept.modHost | intro _ | split | dsimp only

theorem kept_flushHost (s) (h1 : Kept s0 s) : Kept s0 (flushHost s) := by
  unfold flushHost
  repeat' with_reducible first
    | assumption | apply kept_hostWrite | apply Kept.modHost | rfl | intro _ | apply Kept.fold

theorem kept_failCut (s) (h1 : Kept s0 s) : Kept s0 (failCut s) := by
  unfold failCut
  repeat' with_reducible first
    | assumption | apply kept_failSlot | rfl | intro _ | apply Kept.fold

theorem kept_execHostLinkUp (flit256 s) (h2 : Kept s0 s) : ∃ t, execHostLinkUp flit256 s = .next t ∧ Kept s0 t := by
  unfold execHostLinkUp
  refine ⟨_, rfl, ?_⟩
  repeat' with_reducible first
    | assumption | apply Kept.modHost | apply kept_failCut | apply kept_flushHost | apply kept_sendPending | apply kept_noteReady
    | intro _ | split | dsimp only

theorem kept_execHostLinkDown (aer s) (h2 : Kept s0 s) : ∃ t, execHostLinkDown aer s = .next t ∧ Kept s0 t := by
  unfold execHostLinkDown
  refine ⟨_, rfl, ?_⟩
  repeat' with_reducible first
    | assumption | apply kept_raiseFault | apply kept_hostCut | apply kept_noteReady | apply Kept.modHost | intro _ | split | dsimp only

theorem kept_execVectorUnmask (vector s) (h2 : Kept s0 s) : ∃ t, execVectorUnmask vector s = .next t ∧ Kept s0 t := by
  unfold execVectorUnmask
  refine ⟨_, rfl, ?_⟩
  repeat' with_reducible first
    | assumption | apply kept_sendPending | apply Kept.modHost | intro _ | split | dsimp only

theorem kept_execDoeDiscovery (index s) (h2 : Kept s0 s) : ∃ t, execDoeDiscovery index s = .next t ∧ Kept s0 t := by
  unfold execDoeDiscovery
  refine ⟨_, rfl, ?_⟩
  repeat' with_reducible first
    | assumption | apply Kept.modHost | intro _ | split | dsimp only

theorem kept_execCdatTableAccess (entry s) (h2 : Kept s0 s) : ∃ t, execCdatTableAccess entry s = .next t ∧ Kept s0 t := by
  unfold execCdatTableAccess
  refine ⟨_, rfl, ?_⟩
  repeat' with_reducible first
    | assumption | apply Kept.modHost | intro _ | split | dsimp only

theorem kept_execSetdasa (static dynamic s) (h3 : Kept s0 s) : ∃ t, execSetdasa static dynamic s = .next t ∧ Kept s0 t := by
  unfold execSetdasa
  refine ⟨_, rfl, ?_⟩
  repeat' with_reducible first
    | assumption | apply Kept.modHost | intro _ | split | dsimp only

theorem kept_execEntdaa (dynamic s) (h2 : Kept s0 s) : ∃ t, execEntdaa dynamic s = .next t ∧ Kept s0 t := by
  unfold execEntdaa
  refine ⟨_, rfl, ?_⟩
  repeat' with_reducible first
    | assumption | apply Kept.modHost | intro _ | split | dsimp only

theorem kept_mctpAnswer (via bs s) (h3 : Kept s0 s) : Kept s0 (mctpAnswer via bs s) := by
  unfold mctpAnswer
  repeat' with_reducible first
    | assumption | apply Kept.modHost | intro _ | split | dsimp only

theorem kept_execSetEndpointId (via eid s) (h3 : Kept s0 s) : ∃ t, execSetEndpointId via eid s = .next t ∧ Kept s0 t := by
  unfold execSetEndpointId
  refine ⟨_, rfl, ?_⟩
  repeat' with_reducible first
    | assumption | apply kept_mctpAnswer | apply Kept.modHost | intro _ | split | dsimp only

theorem kept_execGetEndpointId (via s) (h2 : Kept s0 s) : ∃ t, execGetEndpointId via s = .next t ∧ Kept s0 t := by
  unfold execGetEndpointId
  refine ⟨_, rfl, ?_⟩
  repeat' with_reducible first
    | assumption | apply kept_mctpAnswer

theorem kept_execGetMctpVersionSupport (via s) (h2 : Kept s0 s) : ∃ t, execGetMctpVersionSupport via s = .next t ∧ Kept s0 t := by
  unfold execGetMctpVersionSupport
  refine ⟨_, rfl, ?_⟩
  repeat' with_reducible first
    | assumption | apply kept_mctpAnswer

theorem kept_execGetMessageTypeSupport (via s) (h2 : Kept s0 s) : ∃ t, execGetMessageTypeSupport via s = .next t ∧ Kept s0 t := by
  unfold execGetMessageTypeSupport
  refine ⟨_, rfl, ?_⟩
  repeat' with_reducible first
    | assumption | apply kept_mctpAnswer

theorem kept_execPowerReport (p1 p100 mv s) (h4 : Kept s0 s) : ∃ t, execPowerReport p1 p100 mv s = .next t ∧ Kept s0 t := by
  unfold execPowerReport
  refine ⟨_, rfl, ?_⟩
  repeat' with_reducible first
    | assumption | apply kept_modModule | split

/-! ### Counters -/

theorem kept_useCount (c s) (h2 : Kept s0 s) : Kept s0 (useCount c s) := by
  unfold useCount
  repeat' with_reducible first
    | assumption | apply Kept.modHub | split

theorem kept_wrapOne (i c s) (h3 : Kept s0 s) : Kept s0 (wrapOne i c s) := by
  unfold wrapOne
  repeat' with_reducible first
    | assumption | apply Kept.modIsland | apply kept_raiseEvent | split | dsimp only

theorem kept_execCounterWrap (island counter s) (h3 : Kept s0 s) : ∃ t, execCounterWrap island counter s = .next t ∧ Kept s0 t := by
  unfold execCounterWrap
  refine ⟨_, rfl, ?_⟩
  repeat' with_reducible first
    | assumption | apply kept_wrapOne | split

theorem kept_clearLap (v s) (h2 : Kept s0 s) : Kept s0 (clearLap v s) := by
  unfold clearLap
  repeat' with_reducible first
    | assumption | apply Kept.modIsland

theorem kept_setCfg (i p w s) (h4 : Kept s0 s) : Kept s0 (setCfg i p w s) := by
  unfold setCfg
  repeat' with_reducible first
    | assumption | apply Kept.modIsland

theorem kept_enableSampling (v s) (h2 : Kept s0 s) : Kept s0 (enableSampling v s) := by
  unfold enableSampling
  repeat' with_reducible first
    | assumption | apply kept_settleCore | apply kept_settleHub | apply kept_seedIsland | rfl | intro _ | apply Kept.fold
    | apply Kept.foldSnd | simp only [Kept.raw_iff] | dsimp only | split

theorem kept_execSampleTag (island _handle s) (h3 : Kept s0 s) : ∃ t, execSampleTag island _handle s = .next t ∧ Kept s0 t := by
  unfold execSampleTag
  refine ⟨_, rfl, ?_⟩
  repeat' with_reducible first
    | assumption | apply kept_settleHub | apply kept_settleCore | split

theorem kept_takeSample (s) (h1 : Kept s0 s) : Kept s0 (takeSample s) := by
  unfold takeSample
  repeat' with_reducible first
    | assumption | simp only [Kept.raw_iff]

end Sys2Proof.Machine
end

