-- ==== Sys2Proof/Laws/KeptEntries.lean ====
section
/-! SUPPORT. Safety.Kept goes on through the lines of the dictionary. -/

namespace Sys2Proof.Machine

open Safety

set_option maxRecDepth 8000
set_option linter.unreachableTactic false
set_option linter.unusedTactic false
set_option linter.unusedSimpArgs false

variable {s0 : State}

/-! ### EntriesA -/

/-- What an entry does keeps what every command keeps. -/
structure Ent.Keeps (e : Ent) : Prop where
  set : ∀ (s0 s : State) (a : At) (v : Bytes), Kept s0 s → Kept s0 (e.set a v s).state
  after : ∀ (s0 s : State) (a : At), Kept s0 s → Kept s0 (e.after a s)

/-- And so does every line of a table of entries. -/
inductive Ent.AllKeep : List Ent → Prop where
  | nil : AllKeep []
  | cons {e : Ent} {l : List Ent} (h : e.Keeps) (hl : AllKeep l) : AllKeep (e :: l)

theorem Ent.AllKeep.append {l m : List Ent} (h : AllKeep l) (hm : AllKeep m) : AllKeep (l ++ m) := by
  induction h with
  | nil => exact hm
  | cons h _ ih => exact .cons h ih

theorem Ent.AllKeep.of_mem {l : List Ent} (h : AllKeep l) {e : Ent} (he : e ∈ l) : e.Keeps := by
  induction h with
  | nil => cases he
  | cons h _ ih =>
    rcases List.mem_cons.1 he with rfl | he
    · exact h
    · exact ih he

theorem kept_wrote {s : State} (h : Kept s0 s) : Kept s0 (wrote s).state := h
theorem kept_ruled {r : Word16 × State} (h : Kept s0 r.2) : Kept s0 (ruled r).state := h
theorem kept_resulted {r : ℕ × State} (h : Kept s0 r.2) : Kept s0 (resulted r).state := h

theorem keeps_roLine {i lo hi t g} {after : ℕ → State → State} (h : ∀ s0 k s, Kept s0 s → Kept s0 (after k s)) : (roLine i lo hi t g after).Keeps :=
  ⟨fun _ _ _ _ hs => hs, fun _ _ _ hs => h _ _ _ hs⟩
theorem keeps_ro' {i k t g} : (ro i k t g).Keeps := keeps_roLine fun _ _ _ h => h
theorem keeps_ro {i k t g} {after : State → State} (h : ∀ s0 s, Kept s0 s → Kept s0 (after s)) : (ro i k t g after).Keeps :=
  keeps_roLine fun _ _ _ hs => h _ _ hs
theorem keeps_roN {i n t g} {after : ℕ → State → State} (h : ∀ s0 k s, Kept s0 s → Kept s0 (after k s)) : (roN i n t g after).Keeps := keeps_roLine h
theorem keeps_roB {i k n g} : (roB i k n g).Keeps := keeps_roLine fun _ _ _ h => h
theorem keeps_roBN {i n l g} : (roBN i n l g).Keeps := keeps_roLine fun _ _ _ h => h
theorem keeps_rwLine {i lo hi t acc g may ok} {set : ℕ → Bytes → State → WriteOut} (h : ∀ s0 k v s, Kept s0 s → Kept s0 (set k v s).state) :
    (rwLine i lo hi t acc g may ok set).Keeps := ⟨fun _ _ _ _ hs => h _ _ _ _ hs, fun _ _ _ hs => hs⟩
theorem keeps_rw {i k t g ok} {set : ℕ → State → State} (h : ∀ s0 v s, Kept s0 s → Kept s0 (set v s)) : (rw i k t g ok set).Keeps :=
  keeps_rwLine fun _ _ _ _ hs => h _ _ _ hs
theorem keeps_rwR {i k t g ok} {set : ℕ → State → WriteOut} (h : ∀ s0 v s, Kept s0 s → Kept s0 (set v s).state) : (rwR i k t g ok set).Keeps :=
  keeps_rwLine fun _ _ _ _ hs => h _ _ _ hs
theorem keeps_rwN {i n t acc g may ok} {set : ℕ → ℕ → State → WriteOut} (h : ∀ s0 k v s, Kept s0 s → Kept s0 (set k v s).state) :
    (rwN i n t acc g may ok set).Keeps := keeps_rwLine fun _ _ _ _ hs => h _ _ _ _ hs
theorem keeps_wo {i k t ok} {set : ℕ → State → WriteOut} (h : ∀ s0 v s, Kept s0 s → Kept s0 (set v s).state) : (wo i k t ok set).Keeps :=
  keeps_rwLine fun _ _ _ _ hs => h _ _ _ hs
theorem keeps_woN {i n t} {set : ℕ → ℕ → State → WriteOut} (h : ∀ s0 k v s, Kept s0 s → Kept s0 (set k v s).state) : (woN i n t set).Keeps :=
  keeps_rwLine fun _ _ _ _ hs => h _ _ _ _ hs
theorem keeps_rwB {i k n g ok} {set : Bytes → State → WriteOut} (h : ∀ s0 v s, Kept s0 s → Kept s0 (set v s).state) : (rwB i k n g ok set).Keeps :=
  keeps_rwLine fun _ _ _ _ hs => h _ _ _ hs
theorem keeps_rwBN {i n l acc g may ok} {set : ℕ → Bytes → State → WriteOut} (h : ∀ s0 k v s, Kept s0 s → Kept s0 (set k v s).state) :
    (rwBN i n l acc g may ok set).Keeps := keeps_rwLine fun _ _ _ _ hs => h _ _ _ _ hs

theorem kept_setHub (f v s) (h3 : Kept s0 s) : Kept s0 (setHub f v s) := by
  unfold setHub
  repeat' with_reducible first
    | assumption | apply Kept.modHub

theorem keeps_entIdentity : Ent.AllKeep entIdentity := by
  unfold entIdentity
  repeat' with_reducible first
    | assumption | rfl | exact Ent.AllKeep.nil | apply Ent.AllKeep.cons | apply Ent.AllKeep.append | apply keeps_ro' | apply keeps_ro
    | apply keeps_wo | apply keeps_roLine | apply kept_wrote | apply kept_ruled | apply kept_resulted | intro _ | apply kept_clearSkew
    | apply Kept.fold | simp only [Kept.raw_iff] | dsimp only | split

theorem kept_enableRing (n on s) (h3 : Kept s0 s) : Kept s0 (enableRing n on s) := by
  unfold enableRing
  repeat' with_reducible first
    | assumption | apply Kept.modRing

theorem keeps_entRequests : Ent.AllKeep entRequests := by
  unfold entRequests
  repeat' with_reducible first
    | assumption | rfl | exact Ent.AllKeep.nil | apply Ent.AllKeep.cons | apply Ent.AllKeep.append | apply keeps_rw | apply keeps_ro'
    | apply keeps_ro | apply keeps_roN | apply keeps_rwN | apply keeps_rwB | apply kept_wrote | apply kept_ruled | apply kept_resulted
    | intro _ | apply kept_setHub | apply Kept.modHub | apply Kept.modRing | apply kept_enableRing | apply Kept.fold
    | simp only [Kept.raw_iff] | dsimp only | split

theorem keeps_entIndex : Ent.AllKeep entIndex := by
  unfold entIndex
  repeat' with_reducible first
    | assumption | rfl | exact Ent.AllKeep.nil | apply Ent.AllKeep.cons | apply Ent.AllKeep.append | apply keeps_ro' | apply keeps_ro
    | apply keeps_roN | apply keeps_rwN | apply keeps_wo | apply keeps_woN | apply kept_wrote | apply kept_ruled | apply kept_resulted
    | intro _ | apply Kept.modCorpus | apply kept_advanceEpoch | apply kept_raiseFloor | apply kept_releaseJob | apply Kept.fold
    | simp only [Kept.raw_iff] | dsimp only | split

theorem kept_setScan (f v s) (h3 : Kept s0 s) : Kept s0 (setScan f v s) := by
  unfold setScan
  repeat' with_reducible first
    | assumption | simp only [Kept.raw_iff]

theorem keeps_entScans : Ent.AllKeep entScans := by
  unfold entScans
  repeat' with_reducible first
    | assumption | rfl | exact Ent.AllKeep.nil | apply Ent.AllKeep.cons | apply Ent.AllKeep.append | apply keeps_rw | apply keeps_ro'
    | apply keeps_ro | apply kept_wrote | apply kept_ruled | apply kept_resulted | intro _ | apply kept_setScan | apply Kept.fold
    | simp only [Kept.raw_iff] | dsimp only | split

theorem keeps_entRanking : Ent.AllKeep entRanking := by
  unfold entRanking
  repeat' with_reducible first
    | assumption | rfl | exact Ent.AllKeep.nil | apply Ent.AllKeep.cons | apply Ent.AllKeep.append | apply keeps_rw | apply keeps_ro'
    | apply keeps_ro | apply kept_wrote | apply kept_ruled | apply kept_resulted | intro _ | apply kept_setHub | apply Kept.fold
    | simp only [Kept.raw_iff] | dsimp only | split

theorem kept_enableVocab (n on s) (h3 : Kept s0 s) : Kept s0 (enableVocab n on s).2 := by
  unfold enableVocab
  repeat' with_reducible first
    | assumption | apply kept_enableAct | apply kept_setVocabFn | apply Kept.modVocab | intro _

theorem kept_enableTemplate (n on s) (h3 : Kept s0 s) : Kept s0 (enableTemplate n on s).2 := by
  unfold enableTemplate
  repeat' with_reducible first
    | assumption | apply Kept.modTemplate | apply kept_checkReads | split

theorem keeps_entText : Ent.AllKeep entText := by
  unfold entText
  repeat' with_reducible first
    | assumption | rfl | exact Ent.AllKeep.nil | apply Ent.AllKeep.cons | apply Ent.AllKeep.append | apply keeps_ro' | apply keeps_ro
    | apply keeps_roN | apply keeps_rwN | apply kept_wrote | apply kept_ruled | apply kept_resulted | intro _ | apply Kept.modVocab
    | apply kept_enableVocab | apply Kept.modTemplate | apply kept_enableTemplate | apply Kept.modModel | apply Kept.fold
    | simp only [Kept.raw_iff] | dsimp only | split

theorem kept_startModel (n s) (h2 : Kept s0 s) : Kept s0 (startModel n s) := by
  unfold startModel
  repeat' with_reducible first
    | assumption | apply kept_setModelFn | apply Kept.modModel | apply kept_checkReads

theorem kept_enableModel (n on s) (h3 : Kept s0 s) : Kept s0 (enableModel n on s).2 := by
  unfold enableModel
  repeat' with_reducible first
    | assumption | apply kept_enableAct | apply kept_startModel | apply Kept.modModel | apply kept_setModelFn | intro _ | split
    | dsimp only

theorem kept_pinRole (c v s) (h3 : Kept s0 s) : Kept s0 (pinRole c v s) := by
  unfold pinRole
  repeat' with_reducible first
    | assumption | apply Kept.modCluster | apply kept_changeRole | split

theorem kept_setServing (f v s) (h3 : Kept s0 s) : Kept s0 (setServing f v s) := by
  unfold setServing
  repeat' with_reducible first
    | assumption | simp only [Kept.raw_iff]

theorem keeps_entServing : Ent.AllKeep entServing := by
  unfold entServing
  repeat' with_reducible first
    | assumption | rfl | exact Ent.AllKeep.nil | apply Ent.AllKeep.cons | apply Ent.AllKeep.append | apply keeps_rw | apply keeps_ro'
    | apply keeps_ro | apply keeps_roN | apply keeps_rwN | apply kept_wrote | apply kept_ruled | apply kept_resulted | intro _
    | apply Kept.modModel | apply kept_enableModel | apply kept_setServing | apply kept_pinRole | apply Kept.fold
    | simp only [Kept.raw_iff] | dsimp only | split

/-! ### EntriesB -/

theorem kept_setCoreE (f v s) (h3 : Kept s0 s) : Kept s0 (setCoreE f v s) := by
  unfold setCoreE
  repeat' with_reducible first
    | assumption | simp only [Kept.raw_iff]

theorem keeps_entCores : Ent.AllKeep entCores := by
  unfold entCores
  repeat' with_reducible first
    | assumption | rfl | exact Ent.AllKeep.nil | apply Ent.AllKeep.cons | apply Ent.AllKeep.append | apply keeps_rw | apply keeps_ro'
    | apply keeps_ro | apply keeps_roN | apply keeps_roBN | apply keeps_rwLine | apply kept_wrote | apply kept_ruled
    | apply kept_resulted | intro _ | apply kept_setCoreE | apply kept_setInitMode | apply kept_setScrubPeriod | apply Kept.fold
    | simp only [Kept.raw_iff] | dsimp only | split

theorem kept_enableStack (n on s) (h3 : Kept s0 s) : Kept s0 (enableStack n on s).2 := by
  unfold enableStack
  repeat' with_reducible first
    | assumption | apply kept_enableAct | apply kept_startStack | apply Kept.modStack | apply kept_drainStack | intro _ | split
    | dsimp only

theorem keeps_entHbm : Ent.AllKeep entHbm := by
  unfold entHbm
  repeat' with_reducible first
    | assumption | rfl | exact Ent.AllKeep.nil | apply Ent.AllKeep.cons | apply Ent.AllKeep.append | apply keeps_rw | apply keeps_ro'
    | apply keeps_ro | apply keeps_roN | apply keeps_rwN | apply keeps_wo | apply keeps_rwBN | apply keeps_rwLine | apply kept_wrote
    | apply kept_ruled | apply kept_resulted | intro _ | apply Kept.modStack | apply kept_enableStack | apply Kept.modCore
    | apply kept_installHinge | apply kept_modHbm | apply Kept.fold | simp only [Kept.raw_iff] | dsimp only | split

theorem kept_writeTableEnable (n on s) (h3 : Kept s0 s) : Kept s0 (writeTableEnable n on s).2 := by
  unfold writeTableEnable
  repeat' with_reducible first
    | assumption | apply kept_enableTable | apply Kept.modTable | split | dsimp only

theorem keeps_entTables : Ent.AllKeep entTables := by
  unfold entTables
  repeat' with_reducible first
    | assumption | rfl | exact Ent.AllKeep.nil | apply Ent.AllKeep.cons | apply Ent.AllKeep.append | apply keeps_rw | apply keeps_ro'
    | apply keeps_ro | apply keeps_roN | apply keeps_roB | apply keeps_rwN | apply keeps_woN | apply keeps_rwBN | apply kept_wrote
    | apply kept_ruled | apply kept_resulted | intro _ | apply Kept.modRing | apply Kept.modTable | apply kept_writeTableEnable
    | apply kept_advanceTable | apply kept_raiseTableFloor | apply kept_sealTable | apply kept_installTable | apply kept_modTableE
    | apply Kept.fold | simp only [Kept.raw_iff] | dsimp only | split

theorem kept_setFabric (f v a2) (h3 : Kept s0 a2) : Kept s0 (setFabric f v a2) := by
  unfold setFabric
  repeat' with_reducible first
    | assumption | apply kept_modFabric

theorem kept_enableLink (n on s) (h3 : Kept s0 s) : Kept s0 (enableLink n on s).2 := by
  unfold enableLink
  repeat' with_reducible first
    | assumption | apply kept_enableAct | apply kept_setLinkFn | apply Kept.modLink | apply kept_releaseHold | intro _ | split
    | dsimp only

theorem kept_writeRoutes (v s) (h2 : Kept s0 s) : Kept s0 (writeRoutes v s).2 := by
  unfold writeRoutes
  repeat' with_reducible first
    | assumption | apply kept_modFabric | apply kept_takeRoutes | apply kept_checkReads | split | dsimp only

theorem keeps_entFabric : Ent.AllKeep entFabric := by
  unfold entFabric
  repeat' with_reducible first
    | assumption | rfl | exact Ent.AllKeep.nil | apply Ent.AllKeep.cons | apply Ent.AllKeep.append | apply keeps_rw | apply keeps_ro'
    | apply keeps_ro | apply keeps_roN | apply keeps_rwR | apply keeps_rwN | apply keeps_rwLine | apply kept_wrote | apply kept_ruled
    | apply kept_resulted | intro _ | apply kept_setFabric | apply kept_enableLink | apply kept_writeRoutes | apply Kept.fold
    | simp only [Kept.raw_iff] | dsimp only | split

theorem kept_writeDir (v s) (h2 : Kept s0 s) : Kept s0 (writeDir v s) := by
  unfold writeDir
  repeat' with_reducible first
    | assumption | apply kept_modKeyring

theorem kept_setQuota (c v s) (h3 : Kept s0 s) : Kept s0 (setQuota c v s).2 := by
  unfold setQuota
  repeat' with_reducible first
    | assumption | apply Kept.modCluster | split | dsimp only

theorem keeps_entKeyring : Ent.AllKeep entKeyring := by
  unfold entKeyring
  repeat' with_reducible first
    | assumption | rfl | exact Ent.AllKeep.nil | apply Ent.AllKeep.cons | apply Ent.AllKeep.append | apply keeps_rw | apply keeps_ro'
    | apply keeps_ro | apply keeps_roN | apply keeps_roB | apply keeps_rwN | apply keeps_wo | apply keeps_rwB | apply keeps_rwLine
    | apply kept_wrote | apply kept_ruled | apply kept_resulted | intro _ | apply kept_writeDir | apply kept_modKeyring
    | apply kept_pinKey | apply kept_unpinKey | apply kept_flushKeys | apply kept_setQuota | apply Kept.fold | simp only [Kept.raw_iff]
    | dsimp only | split

/-! ### Traffic -/

theorem kept_execEgressSelect (link s) (h2 : Kept s0 s) : ∃ t, execEgressSelect link s = .next t ∧ Kept s0 t := by
  unfold execEgressSelect
  refine ⟨_, rfl, ?_⟩
  repeat' with_reducible first
    | assumption | apply kept_countEv | apply Kept.modLink | apply kept_startPacket | split

theorem kept_execShaperTick (link s) (h2 : Kept s0 s) : ∃ t, execShaperTick link s = .next t ∧ Kept s0 t := by
  unfold execShaperTick
  refine ⟨_, rfl, ?_⟩
  repeat' with_reducible first
    | assumption | apply Kept.modLink | split

theorem kept_setRates (l rates s) (h3 : Kept s0 s) : Kept s0 (setRates l rates s) := by
  unfold setRates
  repeat' with_reducible first
    | assumption | apply Kept.modLink

theorem kept_execGateIntervalEnd (link s) (h2 : Kept s0 s) : ∃ t, execGateIntervalEnd link s = .next t ∧ Kept s0 t := by
  unfold execGateIntervalEnd
  refine ⟨_, rfl, ?_⟩
  repeat' with_reducible first
    | assumption | apply Kept.modLink | split | dsimp only

theorem kept_execGuardBandStart (link s) (h2 : Kept s0 s) : ∃ t, execGuardBandStart link s = .next t ∧ Kept s0 t := by
  unfold execGuardBandStart
  refine ⟨_, rfl, ?_⟩
  repeat' with_reducible first
    | assumption | apply Kept.modLink | split | dsimp only

theorem kept_applyGates (l s) (h2 : Kept s0 s) : Kept s0 (applyGates l s).2 := by
  unfold applyGates
  repeat' with_reducible first
    | assumption | apply Kept.modLink | split | dsimp only

theorem kept_execGateListSwitch (link s) (h2 : Kept s0 s) : ∃ t, execGateListSwitch link s = .next t ∧ Kept s0 t := by
  unfold execGateListSwitch
  refine ⟨_, rfl, ?_⟩
  repeat' with_reducible first
    | assumption | apply Kept.modLink | split | dsimp only

theorem kept_modTraffic (f s) (h2 : Kept s0 s) : Kept s0 (modTraffic f s) := by
  unfold modTraffic
  repeat' with_reducible first
    | assumption | simp only [Kept.raw_iff]

theorem kept_setPolicer (w0 w1 s) (h3 : Kept s0 s) : Kept s0 (setPolicer w0 w1 s) := by
  unfold setPolicer
  repeat' with_reducible first
    | assumption | apply kept_modTraffic

theorem kept_setTenantPol (w0 w1 s) (h3 : Kept s0 s) : Kept s0 (setTenantPol w0 w1 s) := by
  unfold setTenantPol
  repeat' with_reducible first
    | assumption | apply kept_modTraffic

/-! ### EntriesC -/

theorem keeps_entCounter : entCounter.Keeps := ⟨fun _ _ _ _ h => h, fun _ _ _ h => kept_useCount _ _ h⟩
theorem keeps_entCounterCfg : entCounterCfg.Keeps := ⟨fun _ _ _ _ h => kept_wrote (kept_setCfg _ _ _ _ h), fun _ _ _ h => h⟩

theorem kept_setTraffic (f v a2) (h3 : Kept s0 a2) : Kept s0 (setTraffic f v a2) := by
  unfold setTraffic
  repeat' with_reducible first
    | assumption | apply kept_modTraffic

theorem kept_writePol (least) (take : Word64 → Word64 → State → State) (v s) (h2 : ∀ y0 y1 y2, Kept s0 y2 → Kept s0 (take y0 y1 y2)) (h4 : Kept s0 s) : Kept s0 (writePol least take v s).2 := by
  unfold writePol
  repeat' with_reducible first
    | assumption | apply h2 | split | dsimp only

theorem kept_writeRates (l v s) (h3 : Kept s0 s) : Kept s0 (writeRates l v s).2 := by
  unfold writeRates
  repeat' with_reducible first
    | assumption | apply kept_setRates | split | dsimp only

theorem kept_clearQueueHwm (q s) (h2 : Kept s0 s) : Kept s0 (clearQueueHwm q s) := by
  unfold clearQueueHwm
  repeat' with_reducible first
    | assumption | apply Kept.modLink

theorem kept_clearClassHwm (c a1) (h2 : Kept s0 a1) : Kept s0 (clearClassHwm c a1) := by
  unfold clearClassHwm
  repeat' with_reducible first
    | assumption | apply kept_modTraffic

theorem kept_setPoliceMap (k v a2) (h3 : Kept s0 a2) : Kept s0 (setPoliceMap k v a2) := by
  unfold setPoliceMap
  repeat' with_reducible first
    | assumption | apply kept_modTraffic

theorem keeps_entTraffic : Ent.AllKeep entTraffic := by
  unfold entTraffic
  repeat' with_reducible first
    | assumption | rfl | exact Ent.AllKeep.nil | apply Ent.AllKeep.cons | apply Ent.AllKeep.append | apply keeps_rw | apply keeps_roN
    | apply keeps_roB | apply keeps_rwN | apply keeps_rwB | apply keeps_rwBN | apply kept_wrote | apply kept_ruled | apply kept_resulted
    | intro _ | apply Kept.modLink | apply kept_applyGates | apply kept_writeRates | apply kept_setTraffic | apply kept_writePol
    | apply kept_setPolicer | apply kept_modTraffic | apply kept_setPoliceMap | apply kept_clearQueueHwm | apply kept_clearClassHwm
    | apply Kept.modRing | apply kept_setTenantPol | apply Kept.fold | simp only [Kept.raw_iff] | dsimp only | split

theorem kept_writeClusterEnable (n on s) (h3 : Kept s0 s) : Kept s0 (writeClusterEnable n on s).2 := by
  unfold writeClusterEnable
  repeat' with_reducible first
    | assumption | apply kept_enableCluster | apply Kept.modCluster | split | dsimp only

theorem kept_enableText (n on s) (h3 : Kept s0 s) : Kept s0 (enableText n on s).2 := by
  unfold enableText
  repeat' with_reducible first
    | assumption | apply kept_enableAct | apply kept_startText | apply Kept.modText | apply kept_setTextFn | intro _ | split | dsimp only

theorem kept_setPlacement (f v s) (h3 : Kept s0 s) : Kept s0 (setPlacement f v s) := by
  unfold setPlacement
  repeat' with_reducible first
    | assumption | simp only [Kept.raw_iff]

theorem keeps_entPlacement : Ent.AllKeep entPlacement := by
  unfold entPlacement
  repeat' with_reducible first
    | assumption | rfl | exact Ent.AllKeep.nil | apply Ent.AllKeep.cons | apply Ent.AllKeep.append | apply keeps_rw | apply keeps_ro'
    | apply keeps_ro | apply keeps_roN | apply keeps_roB | apply keeps_roBN | apply keeps_rwN | apply keeps_wo | apply kept_wrote
    | apply kept_ruled | apply kept_resulted | intro _ | apply kept_writeClusterEnable | apply kept_enableText | apply kept_setPlacement
    | apply kept_setHub | apply kept_clearSlowdowns | apply Kept.fold | simp only [Kept.raw_iff] | dsimp only | split

theorem keeps_entHost : Ent.AllKeep entHost := by
  unfold entHost
  repeat' with_reducible first
    | assumption | rfl | exact Ent.AllKeep.nil | apply Ent.AllKeep.cons | apply Ent.AllKeep.append | apply keeps_rw | apply keeps_ro'
    | apply keeps_ro | apply keeps_roB | apply kept_wrote | apply kept_ruled | apply kept_resulted | intro _ | apply Kept.modHost
    | apply Kept.fold | simp only [Kept.raw_iff] | dsimp only | split

theorem keeps_entFirmware : Ent.AllKeep entFirmware := by
  unfold entFirmware
  repeat' with_reducible first
    | assumption | rfl | exact Ent.AllKeep.nil | apply Ent.AllKeep.cons | apply Ent.AllKeep.append | apply keeps_rw | apply keeps_ro'
    | apply keeps_ro | apply keeps_roB | apply keeps_rwLine | apply kept_wrote | apply kept_ruled | apply kept_resulted | intro _
    | apply kept_raiseFwFloor | exact ⟨rfl, rfl, rfl, rfl⟩ | apply kept_modIdent | apply Kept.fold | simp only [Kept.raw_iff]
    | dsimp only | split

theorem kept_setFaults (f v a2) (h3 : Kept s0 a2) : Kept s0 (setFaults f v a2) := by
  unfold setFaults
  repeat' with_reducible first
    | assumption | apply kept_modFaults

theorem kept_writeFi (v : ℕ) (s : State) (h : Kept s0 s) : Kept s0 (writeFi v s).state := by
  unfold writeFi
  split
  · exact kept_wrote (kept_modFaults _ _ h)
  split
  · exact kept_wrote (kept_armFi _ h)
  · exact h

theorem kept_writePi (v : ℕ) (s : State) (h : Kept s0 s) : Kept s0 (writePi v s).state := by
  unfold writePi
  split
  · exact h
  split
  · next e => exact kept_wrote (kept_injectPi e h)
  · exact h

theorem keeps_entFaults : Ent.AllKeep entFaults := by
  unfold entFaults
  repeat' with_reducible first
    | assumption | rfl | exact Ent.AllKeep.nil | apply Ent.AllKeep.cons | apply Ent.AllKeep.append | apply keeps_rw | apply keeps_ro'
    | apply keeps_ro | apply keeps_roB | apply keeps_rwR | apply keeps_wo | apply kept_wrote | apply kept_ruled | apply kept_resulted
    | intro _ | apply kept_clearFault | apply kept_setFaults | apply kept_writeFi | apply kept_writePi | apply Kept.fold
    | simp only [Kept.raw_iff] | dsimp only | split

theorem kept_setSampling (f v s) (h3 : Kept s0 s) : Kept s0 (setSampling f v s) := by
  unfold setSampling
  repeat' with_reducible first
    | assumption | simp only [Kept.raw_iff]

theorem keeps_entCounters : Ent.AllKeep entCounters := by
  unfold entCounters
  repeat' with_reducible first
    | assumption | rfl | exact Ent.AllKeep.nil | apply Ent.AllKeep.cons | apply Ent.AllKeep.append | exact keeps_entCounter
    | exact keeps_entCounterCfg | apply keeps_rw | apply keeps_ro' | apply keeps_ro | apply keeps_wo | apply keeps_rwB
    | apply keeps_roLine | apply kept_wrote | apply kept_ruled | apply kept_resulted | intro _ | apply kept_clearLap
    | apply kept_enableSampling | apply kept_setSampling | apply kept_takeSample | apply Kept.fold | simp only [Kept.raw_iff]
    | dsimp only | split

theorem keeps_entModule : Ent.AllKeep entModule := by
  unfold entModule
  repeat' with_reducible first
    | assumption | rfl | exact Ent.AllKeep.nil | apply Ent.AllKeep.cons | apply Ent.AllKeep.append | apply keeps_rw | apply keeps_ro'
    | apply keeps_ro | apply kept_wrote | apply kept_ruled | apply kept_resulted | intro _ | apply kept_modModule | apply Kept.fold
    | simp only [Kept.raw_iff] | dsimp only | split

theorem keeps_dictionary : Ent.AllKeep dictionary := by
  unfold dictionary
  repeat' with_reducible first
    | apply Ent.AllKeep.append | exact keeps_entIdentity | exact keeps_entRequests | exact keeps_entIndex | exact keeps_entScans
    | exact keeps_entRanking | exact keeps_entText | exact keeps_entServing | exact keeps_entCores | exact keeps_entHbm
    | exact keeps_entTables | exact keeps_entFabric | exact keeps_entKeyring | exact keeps_entTraffic | exact keeps_entPlacement
    | exact keeps_entHost | exact keeps_entFirmware | exact keeps_entFaults | exact keeps_entCounters | exact keeps_entModule

end Sys2Proof.Machine
end

