-- ==== Sys2Proof/Laws/KeptDictionary.lean ====
section
/-! SUPPORT. Safety.Kept goes on through dictionary accesses and SPDM. -/

namespace Sys2Proof.Machine

open Safety

set_option maxRecDepth 8000
set_option linter.unreachableTactic false
set_option linter.unusedTactic false
set_option linter.unusedSimpArgs false

variable {s0 : State}

/-! ### Dictionary -/

/-- The line of the tables that an entry is read from is one of the dictionary's. -/
theorem keeps_entry {s : State} {index sub : ℕ} {e : Ent} (h : s.entry index sub = some e) : e.Keeps := by
  unfold State.entry at h
  split at h
  · exact keeps_dictionary.of_mem (List.mem_of_find?_eq_some h)
  · cases h

theorem kept_readEntry (index sub j : ℕ) {s : State} (h : Kept s0 s) : Kept s0 (readEntry index sub j s).state := by
  unfold readEntry
  split
  · split <;> exact h
  · split
    · exact h
    · next e =>
      split
      · exact h
      · exact (keeps_entry e).after _ _ _ h

theorem kept_refusedAt (r s) (h2 : Kept s0 s) : Kept s0 (refusedAt r s).state := by
  unfold refusedAt
  repeat' with_reducible first
    | assumption

theorem kept_writeEntry (index sub : ℕ) (v : Bytes) {s : State} (h : Kept s0 s) : Kept s0 (writeEntry index sub v s).state := by
  unfold writeEntry
  split
  · exact h
  · split
    · exact h
    · next e he =>
      dsimp only
      repeat' split
      all_goals first | exact h | exact (keeps_entry he).set _ _ _ _ h

theorem kept_noteAccess (via index sub result code write s) (h7 : Kept s0 s) : Kept s0 (noteAccess via index sub result code write s) := by
  unfold noteAccess
  repeat' with_reducible first
    | assumption | apply kept_countEv | apply Kept.modHost | intro _ | split | dsimp only

theorem kept_readRecord (via index sub j s) (h5 : Kept s0 s) : Kept s0 (readRecord via index sub j s).2 := by
  unfold readRecord
  repeat' with_reducible first
    | assumption | apply kept_noteAccess | apply kept_readEntry

theorem kept_accessRead (via index sub s) (h4 : Kept s0 s) : Kept s0 (accessRead via index sub s) := by
  unfold accessRead
  repeat' with_reducible first
    | assumption | apply kept_readRecord | apply kept_answer | split

theorem kept_accessWrite (via index sub v s) (h5 : Kept s0 s) : Kept s0 (accessWrite via index sub v s) := by
  unfold accessWrite
  repeat' with_reducible first
    | assumption | apply kept_writeEntry | apply kept_answer | apply kept_noteAccess | split

theorem kept_execOdRead (via index sub s) (h4 : Kept s0 s) : ∃ t, execOdRead via index sub s = .next t ∧ Kept s0 t := by
  unfold execOdRead
  refine ⟨_, rfl, ?_⟩
  repeat' with_reducible first
    | assumption | apply kept_accessRead

theorem kept_execOdWrite (via index sub value s) (h5 : Kept s0 s) : ∃ t, execOdWrite via index sub value s = .next t ∧ Kept s0 t := by
  unfold execOdWrite
  refine ⟨_, rfl, ?_⟩
  repeat' with_reducible first
    | assumption | apply kept_accessWrite

theorem kept_readAll (via es s) (h3 : Kept s0 s) : Kept s0 (readAll via es s).2 := by
  unfold readAll
  repeat' with_reducible first
    | assumption | apply kept_readRecord | rfl | intro _ | apply Kept.fold | apply Kept.foldSnd | simp only [Kept.raw_iff] | dsimp only
    | split

theorem kept_execOdReadMulti (via entries s) (h3 : Kept s0 s) : ∃ t, execOdReadMulti via entries s = .next t ∧ Kept s0 t := by
  unfold execOdReadMulti
  refine ⟨_, rfl, ?_⟩
  repeat' with_reducible first
    | assumption | apply kept_answer | apply kept_readAll | split | dsimp only

theorem kept_execOdList (via first last s) (h4 : Kept s0 s) : ∃ t, execOdList via first last s = .next t ∧ Kept s0 t := by
  unfold execOdList
  refine ⟨_, rfl, ?_⟩
  repeat' with_reducible first
    | assumption | apply kept_answer | split

theorem kept_takeEvents (n s) (h2 : Kept s0 s) : Kept s0 (takeEvents n s).2 := by
  unfold takeEvents
  repeat' with_reducible first
    | assumption | apply Kept.modHost | apply kept_fireVector | intro _ | split | dsimp only

theorem kept_execEventRead (via max s) (h3 : Kept s0 s) : ∃ t, execEventRead via max s = .next t ∧ Kept s0 t := by
  unfold execEventRead
  refine ⟨_, rfl, ?_⟩
  repeat' with_reducible first
    | assumption | apply kept_answer | apply kept_takeEvents | split

theorem kept_execUnsupported (via opcode s) (h3 : Kept s0 s) : ∃ t, execUnsupported via opcode s = .next t ∧ Kept s0 t := by
  unfold execUnsupported
  refine ⟨_, rfl, ?_⟩
  repeat' with_reducible first
    | assumption | apply kept_answer | split

theorem kept_publishOver (via desc s) (h3 : Kept s0 s) : Kept s0 (publishOver via desc s) := by
  unfold publishOver
  repeat' with_reducible first
    | assumption | apply kept_submitJob | apply kept_answer | split

theorem kept_execPublishJob (via desc s) (h3 : Kept s0 s) : ∃ t, execPublishJob via desc s = .next t ∧ Kept s0 t := by
  unfold execPublishJob
  refine ⟨_, rfl, ?_⟩
  repeat' with_reducible first
    | assumption | apply kept_answer | apply kept_publishOver | split

theorem kept_writeUnit (via index n len v s) (h6 : Kept s0 s) : Kept s0 (writeUnit via index n len v s) := by
  unfold writeUnit
  repeat' with_reducible first
    | assumption | apply kept_accessWrite | split

theorem kept_execRingEnable (via ring value s) (h4 : Kept s0 s) : ∃ t, execRingEnable via ring value s = .next t ∧ Kept s0 t := by
  unfold execRingEnable
  refine ⟨_, rfl, ?_⟩
  repeat' with_reducible first
    | assumption | apply kept_writeUnit

theorem kept_execJobRelease (via value s) (h3 : Kept s0 s) : ∃ t, execJobRelease via value s = .next t ∧ Kept s0 t := by
  unfold execJobRelease
  refine ⟨_, rfl, ?_⟩
  repeat' with_reducible first
    | assumption | apply kept_accessWrite

theorem kept_execEpochAdvance (via corpus epoch s) (h4 : Kept s0 s) : ∃ t, execEpochAdvance via corpus epoch s = .next t ∧ Kept s0 t := by
  unfold execEpochAdvance
  refine ⟨_, rfl, ?_⟩
  repeat' with_reducible first
    | assumption | apply kept_writeUnit

theorem kept_execEpochFloor (via corpus floor s) (h4 : Kept s0 s) : ∃ t, execEpochFloor via corpus floor s = .next t ∧ Kept s0 t := by
  unfold execEpochFloor
  refine ⟨_, rfl, ?_⟩
  repeat' with_reducible first
    | assumption | apply kept_writeUnit

theorem kept_execVocabEnable (via n value s) (h4 : Kept s0 s) : ∃ t, execVocabEnable via n value s = .next t ∧ Kept s0 t := by
  unfold execVocabEnable
  refine ⟨_, rfl, ?_⟩
  repeat' with_reducible first
    | assumption | apply kept_writeUnit

theorem kept_execTemplateEnable (via n value s) (h4 : Kept s0 s) : ∃ t, execTemplateEnable via n value s = .next t ∧ Kept s0 t := by
  unfold execTemplateEnable
  refine ⟨_, rfl, ?_⟩
  repeat' with_reducible first
    | assumption | apply kept_writeUnit

theorem kept_execHingeInstall (via value s) (h3 : Kept s0 s) : ∃ t, execHingeInstall via value s = .next t ∧ Kept s0 t := by
  unfold execHingeInstall
  refine ⟨_, rfl, ?_⟩
  repeat' with_reducible first
    | assumption | apply kept_accessWrite

theorem kept_execStackEnable (via n value s) (h4 : Kept s0 s) : ∃ t, execStackEnable via n value s = .next t ∧ Kept s0 t := by
  unfold execStackEnable
  refine ⟨_, rfl, ?_⟩
  repeat' with_reducible first
    | assumption | apply kept_writeUnit

theorem kept_execModelEnable (via n value s) (h4 : Kept s0 s) : ∃ t, execModelEnable via n value s = .next t ∧ Kept s0 t := by
  unfold execModelEnable
  refine ⟨_, rfl, ?_⟩
  repeat' with_reducible first
    | assumption | apply kept_writeUnit

theorem kept_execRolePin (via cluster value s) (h4 : Kept s0 s) : ∃ t, execRolePin via cluster value s = .next t ∧ Kept s0 t := by
  unfold execRolePin
  refine ⟨_, rfl, ?_⟩
  repeat' with_reducible first
    | assumption | apply kept_writeUnit

theorem kept_execTableEnable (via n value s) (h4 : Kept s0 s) : ∃ t, execTableEnable via n value s = .next t ∧ Kept s0 t := by
  unfold execTableEnable
  refine ⟨_, rfl, ?_⟩
  repeat' with_reducible first
    | assumption | apply kept_writeUnit

theorem kept_execTableSeal (via n version s) (h4 : Kept s0 s) : ∃ t, execTableSeal via n version s = .next t ∧ Kept s0 t := by
  unfold execTableSeal
  refine ⟨_, rfl, ?_⟩
  repeat' with_reducible first
    | assumption | apply kept_writeUnit

theorem kept_execTableAdvance (via n version s) (h4 : Kept s0 s) : ∃ t, execTableAdvance via n version s = .next t ∧ Kept s0 t := by
  unfold execTableAdvance
  refine ⟨_, rfl, ?_⟩
  repeat' with_reducible first
    | assumption | apply kept_writeUnit

theorem kept_execTableInstall (via n version root s) (h5 : Kept s0 s) : ∃ t, execTableInstall via n version root s = .next t ∧ Kept s0 t := by
  unfold execTableInstall
  refine ⟨_, rfl, ?_⟩
  repeat' with_reducible first
    | assumption | apply kept_writeUnit

theorem kept_execTableFloor (via n floor s) (h4 : Kept s0 s) : ∃ t, execTableFloor via n floor s = .next t ∧ Kept s0 t := by
  unfold execTableFloor
  refine ⟨_, rfl, ?_⟩
  repeat' with_reducible first
    | assumption | apply kept_writeUnit

theorem kept_execLinkEnable (via n value s) (h4 : Kept s0 s) : ∃ t, execLinkEnable via n value s = .next t ∧ Kept s0 t := by
  unfold execLinkEnable
  refine ⟨_, rfl, ?_⟩
  repeat' with_reducible first
    | assumption | apply kept_writeUnit

theorem kept_execRouteTable (via offset s) (h3 : Kept s0 s) : ∃ t, execRouteTable via offset s = .next t ∧ Kept s0 t := by
  unfold execRouteTable
  refine ⟨_, rfl, ?_⟩
  repeat' with_reducible first
    | assumption | apply kept_accessWrite

theorem kept_execKeyringDir (via offset s) (h3 : Kept s0 s) : ∃ t, execKeyringDir via offset s = .next t ∧ Kept s0 t := by
  unfold execKeyringDir
  refine ⟨_, rfl, ?_⟩
  repeat' with_reducible first
    | assumption | apply kept_accessWrite

theorem kept_execKeyringPin (via w0 w1 s) (h4 : Kept s0 s) : ∃ t, execKeyringPin via w0 w1 s = .next t ∧ Kept s0 t := by
  unfold execKeyringPin
  refine ⟨_, rfl, ?_⟩
  repeat' with_reducible first
    | assumption | apply kept_accessWrite

theorem kept_execKeyringUnpin (via index s) (h3 : Kept s0 s) : ∃ t, execKeyringUnpin via index s = .next t ∧ Kept s0 t := by
  unfold execKeyringUnpin
  refine ⟨_, rfl, ?_⟩
  repeat' with_reducible first
    | assumption | apply kept_accessWrite

theorem kept_execKeyringFlush (via value s) (h3 : Kept s0 s) : ∃ t, execKeyringFlush via value s = .next t ∧ Kept s0 t := by
  unfold execKeyringFlush
  refine ⟨_, rfl, ?_⟩
  repeat' with_reducible first
    | assumption | apply kept_accessWrite

theorem kept_execGateApply (via link value s) (h4 : Kept s0 s) : ∃ t, execGateApply via link value s = .next t ∧ Kept s0 t := by
  unfold execGateApply
  refine ⟨_, rfl, ?_⟩
  repeat' with_reducible first
    | assumption | apply kept_writeUnit

theorem kept_execShaperRate (via link rates s) (h4 : Kept s0 s) : ∃ t, execShaperRate via link rates s = .next t ∧ Kept s0 t := by
  unfold execShaperRate
  refine ⟨_, rfl, ?_⟩
  repeat' with_reducible first
    | assumption | apply kept_accessWrite | split

theorem kept_execPolicerCfg (via w0 w1 s) (h4 : Kept s0 s) : ∃ t, execPolicerCfg via w0 w1 s = .next t ∧ Kept s0 t := by
  unfold execPolicerCfg
  refine ⟨_, rfl, ?_⟩
  repeat' with_reducible first
    | assumption | apply kept_accessWrite

theorem kept_execTenantPolCfg (via w0 w1 s) (h4 : Kept s0 s) : ∃ t, execTenantPolCfg via w0 w1 s = .next t ∧ Kept s0 t := by
  unfold execTenantPolCfg
  refine ⟨_, rfl, ?_⟩
  repeat' with_reducible first
    | assumption | apply kept_accessWrite

theorem kept_execQueueHwm (via sub s) (h3 : Kept s0 s) : ∃ t, execQueueHwm via sub s = .next t ∧ Kept s0 t := by
  unfold execQueueHwm
  refine ⟨_, rfl, ?_⟩
  repeat' with_reducible first
    | assumption | apply kept_accessRead | split

theorem kept_execClassHwm (via sub s) (h3 : Kept s0 s) : ∃ t, execClassHwm via sub s = .next t ∧ Kept s0 t := by
  unfold execClassHwm
  refine ⟨_, rfl, ?_⟩
  repeat' with_reducible first
    | assumption | apply kept_accessRead | split

theorem kept_execClusterEnable (via n value s) (h4 : Kept s0 s) : ∃ t, execClusterEnable via n value s = .next t ∧ Kept s0 t := by
  unfold execClusterEnable
  refine ⟨_, rfl, ?_⟩
  repeat' with_reducible first
    | assumption | apply kept_writeUnit

theorem kept_execTextEnable (via n value s) (h4 : Kept s0 s) : ∃ t, execTextEnable via n value s = .next t ∧ Kept s0 t := by
  unfold execTextEnable
  refine ⟨_, rfl, ?_⟩
  repeat' with_reducible first
    | assumption | apply kept_writeUnit

theorem kept_execSlowdownClear (via value s) (h3 : Kept s0 s) : ∃ t, execSlowdownClear via value s = .next t ∧ Kept s0 t := by
  unfold execSlowdownClear
  refine ⟨_, rfl, ?_⟩
  repeat' with_reducible first
    | assumption | apply kept_accessWrite

theorem kept_execFwFloor (via value s) (h3 : Kept s0 s) : ∃ t, execFwFloor via value s = .next t ∧ Kept s0 t := by
  unfold execFwFloor
  refine ⟨_, rfl, ?_⟩
  repeat' with_reducible first
    | assumption | apply kept_accessWrite

theorem kept_execSkewClear (via value s) (h3 : Kept s0 s) : ∃ t, execSkewClear via value s = .next t ∧ Kept s0 t := by
  unfold execSkewClear
  refine ⟨_, rfl, ?_⟩
  repeat' with_reducible first
    | assumption | apply kept_accessWrite

theorem kept_execFaultClear (via value s) (h3 : Kept s0 s) : ∃ t, execFaultClear via value s = .next t ∧ Kept s0 t := by
  unfold execFaultClear
  refine ⟨_, rfl, ?_⟩
  repeat' with_reducible first
    | assumption | apply kept_accessWrite

theorem kept_execFiArm (via value s) (h3 : Kept s0 s) : ∃ t, execFiArm via value s = .next t ∧ Kept s0 t := by
  unfold execFiArm
  refine ⟨_, rfl, ?_⟩
  repeat' with_reducible first
    | assumption | apply kept_accessWrite

theorem kept_execPiArm (via value s) (h3 : Kept s0 s) : ∃ t, execPiArm via value s = .next t ∧ Kept s0 t := by
  unfold execPiArm
  refine ⟨_, rfl, ?_⟩
  repeat' with_reducible first
    | assumption | apply kept_accessWrite

theorem kept_execCounterRead (via island counter s) (h4 : Kept s0 s) : ∃ t, execCounterRead via island counter s = .next t ∧ Kept s0 t := by
  unfold execCounterRead
  refine ⟨_, rfl, ?_⟩
  repeat' with_reducible first
    | assumption | apply kept_accessRead | split

theorem kept_execCounterCfg (via island counter words s) (h5 : Kept s0 s) : ∃ t, execCounterCfg via island counter words s = .next t ∧ Kept s0 t := by
  unfold execCounterCfg
  refine ⟨_, rfl, ?_⟩
  repeat' with_reducible first
    | assumption | apply kept_accessWrite | split

theorem kept_execLapClear (via value s) (h3 : Kept s0 s) : ∃ t, execLapClear via value s = .next t ∧ Kept s0 t := by
  unfold execLapClear
  refine ⟨_, rfl, ?_⟩
  repeat' with_reducible first
    | assumption | apply kept_accessWrite

theorem kept_execSampleEnable (via value s) (h3 : Kept s0 s) : ∃ t, execSampleEnable via value s = .next t ∧ Kept s0 t := by
  unfold execSampleEnable
  refine ⟨_, rfl, ?_⟩
  repeat' with_reducible first
    | assumption | apply kept_accessWrite

theorem kept_execSampleRecord (via s) (h2 : Kept s0 s) : ∃ t, execSampleRecord via s = .next t ∧ Kept s0 t := by
  unfold execSampleRecord
  refine ⟨_, rfl, ?_⟩
  repeat' with_reducible first
    | assumption | apply kept_accessRead

theorem kept_execPowerPeakW (via s) (h2 : Kept s0 s) : ∃ t, execPowerPeakW via s = .next t ∧ Kept s0 t := by
  unfold execPowerPeakW
  refine ⟨_, rfl, ?_⟩
  repeat' with_reducible first
    | assumption | apply kept_accessRead

/-! ### Spdm -/

theorem kept_id {s : State} (h : Kept s0 s) : Kept s0 (id s) := h

theorem kept_spdmSay (p m s) (h3 : Kept s0 s) : Kept s0 (spdmSay p m s) := by
  unfold spdmSay
  repeat' with_reducible first
    | assumption | exact ⟨rfl, rfl, rfl, rfl⟩ | apply kept_modIdent | intro _

theorem kept_setLevel (p n s) (h3 : Kept s0 s) : Kept s0 (setLevel p n s) := by
  unfold setLevel
  repeat' with_reducible first
    | assumption | exact ⟨rfl, rfl, rfl, rfl⟩ | apply kept_modIdent | intro _

theorem kept_spdmServe (p level) (run : State → State) (s) (h3 : ∀ y0, Kept s0 y0 → Kept s0 (run y0)) (h4 : Kept s0 s) : Kept s0 (spdmServe p level run s) := by
  unfold spdmServe
  repeat' with_reducible first
    | assumption | apply h3 | apply kept_spdmSay | split

theorem kept_execGetVersion (port s) (h2 : Kept s0 s) : ∃ t, execGetVersion port s = .next t ∧ Kept s0 t := by
  unfold execGetVersion
  refine ⟨_, rfl, ?_⟩
  repeat' with_reducible first
    | assumption | apply kept_spdmServe | apply kept_spdmSay | apply kept_setLevel | intro _

theorem kept_execGetCapabilities (port s) (h2 : Kept s0 s) : ∃ t, execGetCapabilities port s = .next t ∧ Kept s0 t := by
  unfold execGetCapabilities
  refine ⟨_, rfl, ?_⟩
  repeat' with_reducible first
    | assumption | apply kept_spdmServe | apply kept_spdmSay | apply kept_setLevel | intro _

theorem kept_execNegotiateAlgorithms (port s) (h2 : Kept s0 s) : ∃ t, execNegotiateAlgorithms port s = .next t ∧ Kept s0 t := by
  unfold execNegotiateAlgorithms
  refine ⟨_, rfl, ?_⟩
  repeat' with_reducible first
    | assumption | apply kept_spdmServe | apply kept_spdmSay | apply kept_setLevel | intro _

theorem kept_execGetDigests (port s) (h2 : Kept s0 s) : ∃ t, execGetDigests port s = .next t ∧ Kept s0 t := by
  unfold execGetDigests
  refine ⟨_, rfl, ?_⟩
  repeat' with_reducible first
    | assumption | apply kept_spdmServe | apply kept_spdmSay | intro _

theorem kept_execGetCertificate (port certSlot offset len s) (h5 : Kept s0 s) : ∃ t, execGetCertificate port certSlot offset len s = .next t ∧ Kept s0 t := by
  unfold execGetCertificate
  refine ⟨_, rfl, ?_⟩
  repeat' with_reducible first
    | assumption | apply kept_spdmServe | apply kept_spdmSay | intro _ | split | dsimp only

theorem kept_signingStops (s : State) (h : Kept s0 s) : Kept s0 (signingStops s) :=
  kept_noteReady _ _ h (kept_noSigning h rfl rfl rfl id (by simp [signing, modIdent]))

theorem kept_newRecord (s : State) (h : Kept s0 s) : Kept s0 (newRecord s) := by
  refine Kept.trans h ⟨rfl, .inl rfl, id, fun o => ⟨fun e => ?_, ?_⟩⟩
  · have := o e
    simp only [newRecord]; omega
  · have e : signing (newRecord s) = signing s := rfl
    unfold nextLeaf
    rw [e]
    split <;> simp [newRecord]

theorem kept_takeLeaf (s : State) (hl : s.ident.leafNext ≠ s.ident.leafLimit) (h : Kept s0 s) : Kept s0 (takeLeaf s).2 := by
  refine Kept.trans h ⟨rfl, .inl rfl, id, fun o => ⟨fun e => ?_, ?_⟩⟩
  · have := o e
    simp only [takeLeaf, modIdent]; omega
  · have e : signing (takeLeaf s).2 = signing s := rfl
    unfold nextLeaf
    rw [e]
    split <;> simp [takeLeaf, modIdent]

theorem kept_signLeaf (ok : Bool) (s : State) (h : Kept s0 s) : Kept s0 (signLeaf ok s).2.2 := by
  unfold signLeaf
  split
  · exact h
  split
  · exact h
  split
  · next hl => exact kept_takeLeaf _ hl h
  split
  · exact kept_signingStops _ h
  · next hl _ => exact kept_takeLeaf _ (by simp only [newRecord]; omega) (kept_newRecord _ h)

theorem kept_spdmSigned (p flashOk sent msg) (more : State → State) (s) (h5 : ∀ y0, Kept s0 y0 → Kept s0 (more y0)) (h6 : Kept s0 s) : Kept s0 (spdmSigned p flashOk sent msg more s) := by
  unfold spdmSigned
  repeat' with_reducible first
    | assumption | apply h5 | apply kept_signLeaf | apply kept_spdmSay | apply Kept.modHub | rfl | intro _ | apply Kept.fold
    | apply Kept.foldSnd | simp only [Kept.raw_iff] | dsimp only | split | refine Kept.ofSnd (by with_reducible assumption) ?_
    | refine Kept.ofThd (by with_reducible assumption) ?_

theorem kept_execChallenge (port nonce flashOk s) (h4 : Kept s0 s) : ∃ t, execChallenge port nonce flashOk s = .next t ∧ Kept s0 t := by
  unfold execChallenge
  refine ⟨_, rfl, ?_⟩
  repeat' with_reducible first
    | assumption | apply kept_spdmServe | apply kept_spdmSigned | apply kept_id | intro _

theorem kept_execGetMeasurements (port index signed nonce flashOk s) (h6 : Kept s0 s) : ∃ t, execGetMeasurements port index signed nonce flashOk s = .next t ∧ Kept s0 t := by
  unfold execGetMeasurements
  refine ⟨_, rfl, ?_⟩
  repeat' with_reducible first
    | assumption | apply kept_spdmServe | apply kept_spdmSay | apply kept_spdmSigned | apply kept_id | intro _ | split | dsimp only

theorem kept_modSession (id f a2) (h3 : Kept s0 a2) : Kept s0 (modSession id f a2) := by
  unfold modSession
  repeat' with_reducible first
    | assumption | exact ⟨rfl, rfl, rfl, rfl⟩ | apply kept_modIdent | intro _

theorem kept_dropSession (id a1) (h2 : Kept s0 a1) : Kept s0 (dropSession id a1) := by
  unfold dropSession
  repeat' with_reducible first
    | assumption | exact ⟨rfl, rfl, rfl, rfl⟩ | apply kept_modIdent | intro _

theorem kept_openSession (p s) (h2 : Kept s0 s) : Kept s0 (openSession p s) := by
  unfold openSession
  repeat' with_reducible first
    | assumption | exact ⟨rfl, rfl, rfl, rfl⟩ | apply kept_modIdent | intro _

theorem kept_execKeyExchange (port pub flashOk s) (h4 : Kept s0 s) : ∃ t, execKeyExchange port pub flashOk s = .next t ∧ Kept s0 t := by
  unfold execKeyExchange
  refine ⟨_, rfl, ?_⟩
  repeat' with_reducible first
    | assumption | apply kept_spdmServe | apply kept_spdmSay | apply kept_spdmSigned | apply kept_openSession | intro _ | split
    | dsimp only

theorem kept_inSession (p id ready) (run : State → State) (s) (h4 : ∀ y0, Kept s0 y0 → Kept s0 (run y0)) (h5 : Kept s0 s) : Kept s0 (inSession p id ready run s) := by
  unfold inSession
  repeat' with_reducible first
    | assumption | apply h4 | apply kept_spdmServe | apply kept_spdmSay | intro _ | split | dsimp only

theorem kept_execFinish (port session verify s) (h4 : Kept s0 s) : ∃ t, execFinish port session verify s = .next t ∧ Kept s0 t := by
  unfold execFinish
  refine ⟨_, rfl, ?_⟩
  repeat' with_reducible first
    | assumption | apply kept_inSession | apply kept_spdmSay | apply kept_modSession | apply kept_dropSession | intro _ | split
    | dsimp only

theorem kept_execHeartbeat (port session s) (h3 : Kept s0 s) : ∃ t, execHeartbeat port session s = .next t ∧ Kept s0 t := by
  unfold execHeartbeat
  refine ⟨_, rfl, ?_⟩
  repeat' with_reducible first
    | assumption | apply kept_inSession | apply kept_spdmSay

theorem kept_execKeyUpdate (port session s) (h3 : Kept s0 s) : ∃ t, execKeyUpdate port session s = .next t ∧ Kept s0 t := by
  unfold execKeyUpdate
  refine ⟨_, rfl, ?_⟩
  repeat' with_reducible first
    | assumption | apply kept_inSession | apply kept_spdmSay | apply kept_modSession | intro _

theorem kept_execEndSession (port session s) (h3 : Kept s0 s) : ∃ t, execEndSession port session s = .next t ∧ Kept s0 t := by
  unfold execEndSession
  refine ⟨_, rfl, ?_⟩
  repeat' with_reducible first
    | assumption | apply kept_inSession | apply kept_spdmSay | apply kept_dropSession | intro _

theorem kept_setIde (b on s) (h3 : Kept s0 s) : Kept s0 (setIde b on s) := by
  unfold setIde
  repeat' with_reducible first
    | assumption | apply Kept.modHost | intro _ | split | dsimp only

theorem kept_sayVendor (id on a2) (h3 : Kept s0 a2) : Kept s0 (sayVendor id on a2) := by
  unfold sayVendor
  repeat' with_reducible first
    | assumption | apply kept_spdmSay

theorem kept_execIdeKm (session stream on s) (h4 : Kept s0 s) : ∃ t, execIdeKm session stream on s = .next t ∧ Kept s0 t := by
  unfold execIdeKm
  refine ⟨_, rfl, ?_⟩
  repeat' with_reducible first
    | assumption | apply kept_inSession | apply kept_spdmSay | apply kept_sayVendor | apply kept_setIde | intro _ | split | dsimp only

theorem kept_execCxlIdeKm (session on containment s) (h4 : Kept s0 s) : ∃ t, execCxlIdeKm session on containment s = .next t ∧ Kept s0 t := by
  unfold execCxlIdeKm
  refine ⟨_, rfl, ?_⟩
  repeat' with_reducible first
    | assumption | apply kept_inSession | apply kept_sayVendor | apply kept_setIde | intro _

end Sys2Proof.Machine
end

