-- ==== Sys2Proof/Laws/Aside.lean ====
section
/-! SUPPORT. Safety.Aside of the operations that write to the host, send, read memory, sample and kill. -/

namespace Sys2Proof.Machine

open Safety

set_option linter.unreachableTactic false
set_option linter.unusedTactic false
set_option linter.unusedSimpArgs false

variable {s0 s : State} {α β : Type}

theorem Aside.refl (s : State) : Aside s s := ⟨rfl, rfl, rfl, fun w => ⟨w, fun _ => rfl⟩, rfl, rfl, rfl, rfl, rfl, rfl, rfl, rfl, rfl, rfl⟩

theorem Aside.trans {s t u : State} (h : Aside s t) (k : Aside t u) : Aside s u :=
  ⟨k.pending.trans h.pending, k.time.trans h.time, k.rings.trans h.rings, fun w => ⟨(k.slots (h.slots w).1).1, fun n => ((k.slots (h.slots w).1).2 n).trans ((h.slots w).2 n)⟩, k.corpora.trans h.corpora, k.jobs.trans h.jobs, k.vocabs.trans h.vocabs, k.templates.trans h.templates, k.texts.trans h.texts, k.models.trans h.models, k.flash.trans h.flash, k.fw.trans h.fw, k.ident.trans h.ident, k.module.trans h.module⟩

theorem Aside.raw_iff {hub publish scan text cores coreE mem pageMap stackT hbm clusters serving tables tableE fabric links keyring traffic placement
    host islands faults sampling} :
    Aside s0 ⟨s.pending, s.time, hub, s.rings, s.slots, s.corpora, s.jobs, publish, scan, s.vocabs, s.templates, s.texts, text, cores, coreE,
      mem, pageMap, stackT, hbm, s.models, clusters, serving, tables, tableE, fabric, links, keyring, traffic, placement, host, s.flash, s.fw,
      s.ident, islands, faults, sampling, s.module⟩ ↔ Aside s0 s :=
  ⟨fun h => ⟨h.1, h.2, h.3, h.4, h.5, h.6, h.7, h.8, h.9, h.10, h.11, h.12, h.13, h.14⟩,
   fun h => ⟨h.1, h.2, h.3, h.4, h.5, h.6, h.7, h.8, h.9, h.10, h.11, h.12, h.13, h.14⟩⟩

section
variable (n : Nat)
theorem Aside.modCore (h : Aside s0 s) (f : Core → Core) : Aside s0 (s.modCore n f) := Aside.raw_iff.2 h
theorem Aside.modPage (h : Aside s0 s) (f : Page → Page) : Aside s0 (s.modPage n f) := Aside.raw_iff.2 h
theorem Aside.modStack (h : Aside s0 s) (f : Stack → Stack) : Aside s0 (s.modStack n f) := Aside.raw_iff.2 h
theorem Aside.modCluster (h : Aside s0 s) (f : Cluster → Cluster) : Aside s0 (s.modCluster n f) := Aside.raw_iff.2 h
theorem Aside.modTable (h : Aside s0 s) (f : TableSlot → TableSlot) : Aside s0 (s.modTable n f) := Aside.raw_iff.2 h
theorem Aside.modLink (h : Aside s0 s) (f : Link → Link) : Aside s0 (s.modLink n f) := Aside.raw_iff.2 h
theorem Aside.modIsland (h : Aside s0 s) (f : Island → Island) : Aside s0 (s.modIsland n f) := Aside.raw_iff.2 h
theorem Aside.modHub (h : Aside s0 s) (f : Hub → Hub) : Aside s0 (s.modHub f) := Aside.raw_iff.2 h
theorem Aside.modHost (h : Aside s0 s) (f : HostIf → HostIf) : Aside s0 (s.modHost f) := Aside.raw_iff.2 h
end

theorem Aside.foldBy (π : β → State) (g : β → α → β) (hg : ∀ b a, Aside s0 (π b) → Aside s0 (π (g b a))) (b : β) (h : Aside s0 (π b))
    (l : List α) : Aside s0 (π (l.foldl g b)) := by
  induction l generalizing b with
  | nil => exact h
  | cons a l ih => exact ih (g b a) (hg b a h)

theorem Aside.fold (g : State → α → State) (hg : ∀ s a, Aside s0 s → Aside s0 (g s a)) (h : Aside s0 s) (l : List α) :
    Aside s0 (l.foldl g s) := Aside.foldBy id g hg s h l

theorem Aside.foldSnd (g : β × State → α → β × State) (hg : ∀ p a, Aside s0 p.2 → Aside s0 (g p a).2) (p : β × State)
    (h : Aside s0 p.2) (l : List α) : Aside s0 (l.foldl g p).2 := Aside.foldBy Prod.snd g hg p h l

theorem Aside.ofSnd {p : α × State} {a : α} (e : p = (a, s)) (h : Aside s0 p.2) : Aside s0 s := by subst e; exact h

theorem aside_fresh (s : State) (h : Aside s0 s) : Aside s0 s.fresh.2 := Aside.modHub h fun x => { x with freeUsed := x.freeUsed + 1 }

theorem Aside.tag (h : Aside s0 s) (n : Nat) (b : Bool) : Aside s0 (s.modSlot n fun x => { x with tagged := b }) := by
  refine Aside.trans h ⟨rfl, rfl, rfl, fun w => ⟨by rw [modSlot_slots]; exact twf_tmod w _ _, fun k => ?_⟩, rfl, rfl, rfl, rfl, rfl, rfl, rfl, rfl, rfl, rfl⟩
  by_cases hk : k = n
  · subst hk; rw [slot_modSlot _ _ _ w]
  · rw [slot_modSlot_ne _ _ _ _ hk]

theorem aside_fireVector (v s) (h2 : Aside s0 s) : Aside s0 (fireVector v s) := by
  unfold fireVector
  repeat' with_reducible first
    | assumption | apply Aside.modHost | intro _ | apply Aside.fold | apply Aside.foldSnd | simp only [Aside.raw_iff] | split
    | dsimp only

theorem aside_raiseEvent (kind index sub value s) (h5 : Aside s0 s) : Aside s0 (raiseEvent kind index sub value s) := by
  unfold raiseEvent
  repeat' with_reducible first
    | assumption | apply Aside.modHost | apply aside_fireVector | intro _ | apply Aside.fold | apply Aside.foldSnd
    | simp only [Aside.raw_iff] | split | dsimp only

theorem aside_bumpCtr (i c n s) (h4 : Aside s0 s) : Aside s0 (bumpCtr i c n s) := by
  unfold bumpCtr
  repeat' with_reducible first
    | assumption | apply Aside.modIsland | apply aside_raiseEvent | intro _ | apply Aside.fold | apply Aside.foldSnd
    | simp only [Aside.raw_iff] | split | dsimp only

theorem aside_countEv (i cls ev n a s) (h6 : Aside s0 s) : Aside s0 (countEv i cls ev n a s) := by
  unfold countEv
  repeat' with_reducible first
    | assumption | apply aside_bumpCtr | intro _ | apply Aside.fold | apply Aside.foldSnd | simp only [Aside.raw_iff] | split
    | dsimp only

theorem aside_countCorrected (i n s) (h3 : Aside s0 s) : Aside s0 (countCorrected i n s) := by
  unfold countCorrected
  repeat' with_reducible first
    | assumption | apply aside_bumpCtr | intro _ | apply Aside.fold | apply Aside.foldSnd | simp only [Aside.raw_iff] | split
    | dsimp only

theorem aside_noteReady (old new) (h2 : Aside s0 new) : Aside s0 (noteReady old new) := by
  unfold noteReady
  repeat' with_reducible first
    | assumption | apply aside_raiseEvent | intro _ | apply Aside.fold | apply Aside.foldSnd | simp only [Aside.raw_iff] | split
    | dsimp only

theorem aside_noteLong (index sub old new s) (h5 : Aside s0 s) : Aside s0 (noteLong index sub old new s) := by
  unfold noteLong
  repeat' with_reducible first
    | assumption | apply aside_raiseEvent | intro _ | apply Aside.fold | apply Aside.foldSnd | simp only [Aside.raw_iff] | split
    | dsimp only

theorem aside_pushHistory (e s) (h2 : Aside s0 s) : Aside s0 (pushHistory e s) := by
  unfold pushHistory
  repeat' with_reducible first
    | assumption | intro _ | apply Aside.fold | apply Aside.foldSnd | simp only [Aside.raw_iff] | split | dsimp only

theorem aside_notable (island ev detail s) (h4 : Aside s0 s) : Aside s0 (notable island ev detail s) := by
  unfold notable
  repeat' with_reducible first
    | assumption | apply aside_pushHistory | intro _ | apply Aside.fold | apply Aside.foldSnd | simp only [Aside.raw_iff] | split
    | dsimp only

theorem aside_hostWrite (addr bs s) (h3 : Aside s0 s) : Aside s0 (hostWrite addr bs s) := by
  unfold hostWrite
  repeat' with_reducible first
    | assumption | apply Aside.modHost | apply aside_countEv | intro _ | apply Aside.fold | apply Aside.foldSnd
    | simp only [Aside.raw_iff] | split | dsimp only

theorem aside_hostRead (addr n s) (h3 : Aside s0 s) : Aside s0 (hostRead addr n s) := by
  unfold hostRead
  repeat' with_reducible first
    | assumption | apply aside_countEv | intro _ | apply Aside.fold | apply Aside.foldSnd | simp only [Aside.raw_iff] | split
    | dsimp only

theorem aside_modHbm (f s) (h2 : Aside s0 s) : Aside s0 (modHbm f s) := by
  unfold modHbm
  repeat' with_reducible first
    | assumption | intro _ | apply Aside.fold | apply Aside.foldSnd | simp only [Aside.raw_iff] | split | dsimp only

theorem aside_touchPage (k off n s) (h4 : Aside s0 s) : Aside s0 (touchPage k off n s) := by
  unfold touchPage
  repeat' with_reducible first
    | assumption | apply aside_notable | apply aside_modHbm | apply Aside.modPage | apply aside_countCorrected | apply Aside.modStack
    | intro _ | apply Aside.fold | apply Aside.foldSnd | simp only [Aside.raw_iff] | split | dsimp only

theorem aside_touch (ranges s) (h2 : Aside s0 s) : Aside s0 (touch ranges s) := by
  unfold touch
  repeat' with_reducible first
    | assumption | apply aside_countEv | apply aside_touchPage | apply Aside.modHub | intro _ | apply Aside.fold | apply Aside.foldSnd
    | simp only [Aside.raw_iff] | split | dsimp only

theorem aside_dropRows (pg s) (h2 : Aside s0 s) : Aside s0 (dropRows pg s) := by
  unfold dropRows
  repeat' with_reducible first
    | assumption | apply Aside.modStack | intro _ | apply Aside.fold | apply Aside.foldSnd | simp only [Aside.raw_iff] | split
    | dsimp only

theorem aside_putCells (pg bs s) (h3 : Aside s0 s) : Aside s0 (putCells pg bs s) := by
  unfold putCells
  repeat' with_reducible first
    | assumption | apply Aside.modPage | intro _ | apply Aside.fold | apply Aside.foldSnd | simp only [Aside.raw_iff] | split
    | dsimp only

theorem aside_freePage (pg s) (h2 : Aside s0 s) : Aside s0 (freePage pg s) := by
  unfold freePage
  repeat' with_reducible first
    | assumption | apply aside_dropRows | apply Aside.modPage | apply aside_putCells | intro _ | apply Aside.fold | apply Aside.foldSnd
    | simp only [Aside.raw_iff] | split | dsimp only

theorem aside_issueSnoops (ranges s) (h2 : Aside s0 s) : Aside s0 (issueSnoops ranges s) := by
  unfold issueSnoops
  repeat' with_reducible first
    | assumption | apply aside_countEv | apply Aside.modHost | intro _ | apply Aside.fold | apply Aside.foldSnd
    | simp only [Aside.raw_iff] | split | dsimp only

theorem aside_clearSnoops (ranges s) (h2 : Aside s0 s) : Aside s0 (clearSnoops ranges s) := by
  unfold clearSnoops
  repeat' with_reducible first
    | assumption | apply Aside.modHost | intro _ | apply Aside.fold | apply Aside.foldSnd | simp only [Aside.raw_iff] | split
    | dsimp only

theorem aside_modFabric (f s) (h2 : Aside s0 s) : Aside s0 (modFabric f s) := by
  unfold modFabric
  repeat' with_reducible first
    | assumption | intro _ | apply Aside.fold | apply Aside.foldSnd | simp only [Aside.raw_iff] | split | dsimp only

theorem aside_modKeyring (f s) (h2 : Aside s0 s) : Aside s0 (modKeyring f s) := by
  unfold modKeyring
  repeat' with_reducible first
    | assumption | intro _ | apply Aside.fold | apply Aside.foldSnd | simp only [Aside.raw_iff] | split | dsimp only

theorem aside_keyCheck (isl right addr n tenant sys s) (h7 : Aside s0 s) : Aside s0 (keyCheck isl right addr n tenant sys s).2 := by
  unfold keyCheck
  repeat' with_reducible first
    | assumption | apply aside_countEv | apply aside_modKeyring | intro _ | apply Aside.fold | apply Aside.foldSnd
    | simp only [Aside.raw_iff] | split | dsimp only

theorem aside_enqueue (l p s) (h3 : Aside s0 s) : Aside s0 (enqueue l p s) := by
  unfold enqueue
  repeat' with_reducible first
    | assumption | apply Aside.modLink | intro _ | apply Aside.fold | apply Aside.foldSnd | simp only [Aside.raw_iff] | split
    | dsimp only

theorem aside_takeTag (island s) (h2 : Aside s0 s) : Aside s0 (takeTag island s).2 := by
  unfold takeTag
  repeat' with_reducible first
    | assumption | apply aside_modFabric | intro _ | apply Aside.fold | apply Aside.foldSnd | simp only [Aside.raw_iff] | split
    | dsimp only

theorem aside_sendAccess (a addr len s) (h4 : Aside s0 s) : Aside s0 (sendAccess a addr len s) := by
  unfold sendAccess
  repeat' with_reducible first
    | assumption | apply aside_takeTag | apply aside_enqueue | intro _ | apply Aside.fold | apply Aside.foldSnd
    | simp only [Aside.raw_iff] | split | dsimp only

theorem aside_unresolved (cluster tenant s) (h3 : Aside s0 s) : Aside s0 (unresolved cluster tenant s) := by
  unfold unresolved
  repeat' with_reducible first
    | assumption | apply aside_notable | apply aside_modKeyring | intro _ | apply Aside.fold | apply Aside.foldSnd
    | simp only [Aside.raw_iff] | split | dsimp only

theorem aside_hallPiece (a remote addr len s) (h5 : Aside s0 s) : Aside s0 (hallPiece a remote addr len s).2 := by
  unfold hallPiece
  repeat' with_reducible first
    | assumption | apply aside_keyCheck | apply aside_touch | apply aside_sendAccess | intro _ | apply Aside.fold | apply Aside.foldSnd
    | simp only [Aside.raw_iff] | split | dsimp only

theorem aside_hallRead (a remote s) (h3 : Aside s0 s) : Aside s0 (hallRead a remote s).2 := by
  unfold hallRead
  repeat' with_reducible first
    | assumption | apply aside_hallPiece | intro _ | apply Aside.fold | apply Aside.foldSnd | simp only [Aside.raw_iff] | split
    | dsimp only | refine Aside.ofSnd (by with_reducible assumption) ?_

theorem aside_sendMsg (dst body reply tclass tenant sys island s) (h8 : Aside s0 s) : Aside s0 (sendMsg dst body reply tclass tenant sys island s).2 := by
  unfold sendMsg
  repeat' with_reducible first
    | assumption | apply aside_modFabric | apply aside_takeTag | apply aside_enqueue | intro _ | apply Aside.fold | apply Aside.foldSnd
    | simp only [Aside.raw_iff] | split | dsimp only

theorem aside_drawInterval (i s) (h2 : Aside s0 s) : Aside s0 (drawInterval i s) := by
  unfold drawInterval
  repeat' with_reducible first
    | assumption | apply Aside.modIsland | intro _ | apply Aside.fold | apply Aside.foldSnd | simp only [Aside.raw_iff] | split
    | dsimp only

theorem aside_seedIsland (i s) (h2 : Aside s0 s) : Aside s0 (seedIsland i s) := by
  unfold seedIsland
  repeat' with_reducible first
    | assumption | apply aside_drawInterval | apply Aside.modIsland | intro _ | apply Aside.fold | apply Aside.foldSnd
    | simp only [Aside.raw_iff] | split | dsimp only

theorem aside_settleHub (s) (h1 : Aside s0 s) : Aside s0 (settleHub s) := by
  unfold settleHub
  repeat' with_reducible first
    | assumption | apply aside_drawInterval | apply Aside.tag | intro _ | apply Aside.fold | apply Aside.foldSnd
    | simp only [Aside.raw_iff] | split | dsimp only

theorem aside_settleCore (k s) (h2 : Aside s0 s) : Aside s0 (settleCore k s) := by
  unfold settleCore
  repeat' with_reducible first
    | assumption | apply aside_drawInterval | apply Aside.modCore | intro _ | apply Aside.fold | apply Aside.foldSnd
    | simp only [Aside.raw_iff] | split | dsimp only

theorem aside_sampleAdmit (n s) (h2 : Aside s0 s) : Aside s0 (sampleAdmit n s) := by
  unfold sampleAdmit
  repeat' with_reducible first
    | assumption | apply aside_settleHub | apply Aside.modIsland | intro _ | apply Aside.fold | apply Aside.foldSnd
    | simp only [Aside.raw_iff] | split | dsimp only

theorem aside_sampleStart (k mk s) (h3 : Aside s0 s) : Aside s0 (sampleStart k mk s) := by
  unfold sampleStart
  repeat' with_reducible first
    | assumption | apply aside_settleCore | apply Aside.modIsland | apply Aside.modCore | intro _ | apply Aside.fold | apply Aside.foldSnd
    | simp only [Aside.raw_iff] | split | dsimp only

theorem aside_addSample (r s) (h2 : Aside s0 s) : Aside s0 (addSample r s) := by
  unfold addSample
  repeat' with_reducible first
    | assumption | intro _ | apply Aside.fold | apply Aside.foldSnd | simp only [Aside.raw_iff] | split | dsimp only

theorem aside_sampleEnd (k commit s) (h3 : Aside s0 s) : Aside s0 (sampleEnd k commit s) := by
  unfold sampleEnd
  repeat' with_reducible first
    | assumption | apply aside_settleCore | apply Aside.modCore | apply aside_addSample | intro _ | apply Aside.fold | apply Aside.foldSnd
    | simp only [Aside.raw_iff] | split | dsimp only

theorem aside_sampleRequest (n s) (h2 : Aside s0 s) : Aside s0 (sampleRequest n s) := by
  unfold sampleRequest
  repeat' with_reducible first
    | assumption | apply aside_settleHub | apply aside_addSample | intro _ | apply Aside.fold | apply Aside.foldSnd
    | simp only [Aside.raw_iff] | split | dsimp only

theorem aside_chargeFreeze (k s) (h2 : Aside s0 s) : Aside s0 (chargeFreeze k s) := by
  unfold chargeFreeze
  repeat' with_reducible first
    | assumption | apply aside_fresh | apply Aside.modCore | intro _ | apply Aside.fold | apply Aside.foldSnd | simp only [Aside.raw_iff]
    | split | dsimp only

theorem aside_chargeWait (m s) (h2 : Aside s0 s) : Aside s0 (chargeWait m s) := by
  unfold chargeWait
  repeat' with_reducible first
    | assumption | apply aside_fresh | apply Aside.modCore | intro _ | apply Aside.fold | apply Aside.foldSnd | simp only [Aside.raw_iff]
    | split | dsimp only

theorem aside_dropInbound (k q s) (h3 : Aside s0 s) : Aside s0 (dropInbound k q s) := by
  unfold dropInbound
  repeat' with_reducible first
    | assumption | apply Aside.modCore | apply aside_chargeWait | intro _ | apply Aside.fold | apply Aside.foldSnd
    | simp only [Aside.raw_iff] | split | dsimp only

theorem aside_killAt (k pos s) (h3 : Aside s0 s) : Aside s0 (killAt k pos s) := by
  unfold killAt
  repeat' with_reducible first
    | assumption | apply aside_dropInbound | apply aside_chargeWait | apply aside_chargeFreeze | apply aside_modFabric
    | apply aside_sampleEnd | apply aside_countEv | apply Aside.modCore | intro _ | apply Aside.fold | apply Aside.foldSnd
    | simp only [Aside.raw_iff] | split | dsimp only

theorem aside_dropCmds (a0 s) (h2 : Aside s0 s) : Aside s0 (dropCmds a0 s) := by
  unfold dropCmds
  repeat' with_reducible first
    | assumption | apply aside_killAt | intro _ | apply Aside.fold | apply Aside.foldSnd | simp only [Aside.raw_iff] | split | dsimp only

theorem aside_dropScanReqs (p s) (h2 : Aside s0 s) : Aside s0 (dropScanReqs p s) := by
  unfold dropScanReqs
  repeat' with_reducible first
    | assumption | intro _ | apply Aside.fold | apply Aside.foldSnd | simp only [Aside.raw_iff] | split | dsimp only

theorem aside_freeSeq (q s) (h2 : Aside s0 s) : Aside s0 (freeSeq q s) := by
  unfold freeSeq
  repeat' with_reducible first
    | assumption | apply aside_freePage | intro _ | apply Aside.fold | apply Aside.foldSnd | simp only [Aside.raw_iff] | split
    | dsimp only

theorem aside_dropSeqs (slot masks s) (h3 : Aside s0 s) : Aside s0 (dropSeqs slot masks s) := by
  unfold dropSeqs
  repeat' with_reducible first
    | assumption | apply aside_fresh | apply aside_freeSeq | intro _ | apply Aside.fold | apply Aside.foldSnd | simp only [Aside.raw_iff]
    | split | dsimp only

theorem aside_killLocal (device a1 s) (h3 : Aside s0 s) : Aside s0 (killLocal device a1 s) := by
  unfold killLocal
  repeat' with_reducible first
    | assumption | apply aside_dropCmds | apply aside_dropScanReqs | intro _ | apply Aside.fold | apply Aside.foldSnd
    | simp only [Aside.raw_iff] | split | dsimp only

theorem aside_sendKills (n code s) (h3 : Aside s0 s) : Aside s0 (sendKills n code s) := by
  unfold sendKills
  repeat' with_reducible first
    | assumption | apply aside_sendMsg | intro _ | apply Aside.fold | apply Aside.foldSnd | simp only [Aside.raw_iff] | split
    | dsimp only

theorem aside_countEnd (n s) (h2 : Aside s0 s) : Aside s0 (countEnd n s) := by
  unfold countEnd
  repeat' with_reducible first
    | assumption | apply Aside.modHub | intro _ | apply Aside.fold | apply Aside.foldSnd | simp only [Aside.raw_iff] | split | dsimp only


end Sys2Proof.Machine
end

