-- ==== Sys2Proof/Laws/Bits.lean ====
section
/-! SUPPORT. Laws of bit fields: what a field reads after a field or a flag of the word is set. -/

namespace Sys2Proof.Machine

theorem testBit_bits {w : Nat} (x : BitVec w) (hi lo i : Nat) :
    (bits x hi lo).testBit i = (decide (i < hi + 1 - lo) && x.getLsbD (lo + i)) := by
  unfold bits
  rw [Nat.testBit_mod_two_pow, Nat.testBit_div_two_pow, BitVec.getLsbD, Nat.add_comm i lo]

/-- Two words with the same bits in a field have the same field. -/
theorem bits_congr {w : Nat} {x y : BitVec w} {hi lo : Nat} (h : ∀ i, lo ≤ i → i ≤ hi → x.getLsbD i = y.getLsbD i) :
    bits x hi lo = bits y hi lo := by
  apply Nat.eq_of_testBit_eq
  intro i
  rw [testBit_bits, testBit_bits]
  by_cases c : i < hi + 1 - lo
  · rw [h (lo + i) (by omega) (by omega)]
  · simp [c]

theorem getLsbD_two_pow (b i : Nat) (hb : b < 64) : (BitVec.ofNat 64 (2 ^ b)).getLsbD i = (decide (i = b)) := by
  rw [BitVec.getLsbD_ofNat]
  by_cases c : i = b
  · subst c; simp [hb]
  · rw [Nat.testBit_two_pow_of_ne (Ne.symm c)]; simp [c]

/-- A field that does not hold a flag reads the same once the flag is cleared. -/
theorem bits_clearFlag {w : Word64} {b hi lo : Nat} (hb : b < 64) (h : b < lo ∨ hi < b) : bits (clearFlag b w) hi lo = bits w hi lo := by
  apply bits_congr
  intro i h1 h2
  unfold clearFlag
  rw [BitVec.getLsbD_and, BitVec.getLsbD_not, getLsbD_two_pow b i hb]
  have : i ≠ b := by omega
  by_cases c : i < 64
  · simp [c, this]
  · rw [BitVec.getLsbD_of_ge _ _ (by omega)]; simp

theorem bits_setFlag {w : Word64} {b hi lo : Nat} (on : Bool) (hb : b < 64) (h : b < lo ∨ hi < b) : bits (setFlag b on w) hi lo = bits w hi lo := by
  unfold setFlag
  split
  · apply bits_congr
    intro i h1 h2
    rw [BitVec.getLsbD_or, getLsbD_two_pow b i hb]
    have : i ≠ b := by omega
    simp [this]
  · rfl

theorem toNat_setBits {w : Nat} (x : BitVec w) {hi lo : Nat} (h : hi < w) (hl : lo ≤ hi) (v : Nat) :
    (setBits x hi lo v).toNat = x.toNat / 2 ^ (hi + 1) * 2 ^ (hi + 1) + v % 2 ^ (hi + 1 - lo) * 2 ^ lo + x.toNat % 2 ^ lo := by
  unfold setBits bits
  have hx := x.isLt
  have e1 : 2 ^ (hi + 1) = 2 ^ lo * 2 ^ (hi + 1 - lo) := by rw [← Nat.pow_add]; congr 1; omega
  have e3 : 2 ^ w = 2 ^ (hi + 1) * 2 ^ (w - (hi + 1)) := by rw [← Nat.pow_add]; congr 1; omega
  generalize 2 ^ (w - (hi + 1)) = C at *
  have pB : 0 < 2 ^ (hi + 1 - lo) := Nat.two_pow_pos _
  have pA : 0 < 2 ^ lo := Nat.two_pow_pos _
  have pD : 0 < 2 ^ (hi + 1) := Nat.two_pow_pos _
  have d1 : x.toNat = x.toNat / 2 ^ (hi + 1) * 2 ^ (hi + 1) + (x.toNat / 2 ^ lo % 2 ^ (hi + 1 - lo)) * 2 ^ lo + x.toNat % 2 ^ lo := by
    have a1 := Nat.div_add_mod x.toNat (2 ^ lo)
    have a2 := Nat.div_add_mod (x.toNat / 2 ^ lo) (2 ^ (hi + 1 - lo))
    have a3 : x.toNat / 2 ^ lo / 2 ^ (hi + 1 - lo) = x.toNat / 2 ^ (hi + 1) := by rw [Nat.div_div_eq_div_mul, e1]
    rw [a3] at a2
    calc x.toNat = 2 ^ lo * (x.toNat / 2 ^ lo) + x.toNat % 2 ^ lo := a1.symm
      _ = 2 ^ lo * (2 ^ (hi + 1 - lo) * (x.toNat / 2 ^ (hi + 1)) + x.toNat / 2 ^ lo % 2 ^ (hi + 1 - lo)) + x.toNat % 2 ^ lo := by rw [a2]
      _ = _ := by rw [e1]; ring
  have b1 : v % 2 ^ (hi + 1 - lo) < 2 ^ (hi + 1 - lo) := Nat.mod_lt _ pB
  have b2 : x.toNat % 2 ^ lo < 2 ^ lo := Nat.mod_lt _ pA
  have b3 : x.toNat / 2 ^ (hi + 1) < C := by
    rw [Nat.div_lt_iff_lt_mul pD]; rw [e3] at hx; rw [Nat.mul_comm]; exact hx
  generalize x.toNat / 2 ^ lo % 2 ^ (hi + 1 - lo) = m at *
  generalize x.toNat / 2 ^ (hi + 1) = q at *
  generalize x.toNat % 2 ^ lo = r at *
  generalize v % 2 ^ (hi + 1 - lo) = u at *
  rw [BitVec.toNat_ofNat]
  have e4 : x.toNat - m * 2 ^ lo + u * 2 ^ lo = q * 2 ^ (hi + 1) + u * 2 ^ lo + r := by omega
  rw [e4, Nat.mod_eq_of_lt]
  have l1 : u * 2 ^ lo + r < 2 ^ (hi + 1) := by
    rw [e1]
    calc u * 2 ^ lo + r < u * 2 ^ lo + 2 ^ lo := by omega
      _ = (u + 1) * 2 ^ lo := by ring
      _ ≤ 2 ^ (hi + 1 - lo) * 2 ^ lo := Nat.mul_le_mul_right _ b1
      _ = _ := by ring
  rw [e3]
  calc q * 2 ^ (hi + 1) + u * 2 ^ lo + r < q * 2 ^ (hi + 1) + 2 ^ (hi + 1) := by omega
    _ = (q + 1) * 2 ^ (hi + 1) := by ring
    _ ≤ C * 2 ^ (hi + 1) := Nat.mul_le_mul_right _ b3
    _ = _ := by ring

/-- A field reads what it was set to. -/
theorem bits_setBits_self {w : Nat} (x : BitVec w) {hi lo : Nat} (h : hi < w) (hl : lo ≤ hi) (v : Nat) :
    bits (setBits x hi lo v) hi lo = v % 2 ^ (hi + 1 - lo) := by
  rw [bits, toNat_setBits x h hl]
  have e1 : 2 ^ (hi + 1) = 2 ^ lo * 2 ^ (hi + 1 - lo) := by rw [← Nat.pow_add]; congr 1; omega
  have e : x.toNat / 2 ^ (hi + 1) * 2 ^ (hi + 1) + v % 2 ^ (hi + 1 - lo) * 2 ^ lo + x.toNat % 2 ^ lo
      = 2 ^ lo * (2 ^ (hi + 1 - lo) * (x.toNat / 2 ^ (hi + 1)) + v % 2 ^ (hi + 1 - lo)) + x.toNat % 2 ^ lo := by
    generalize x.toNat / 2 ^ (hi + 1) = q
    rw [e1]; ring
  rw [e, Nat.mul_add_div (Nat.two_pow_pos _), Nat.div_eq_of_lt (Nat.mod_lt _ (Nat.two_pow_pos _)), Nat.add_zero, Nat.mul_add_mod, Nat.mod_mod]

/-- A bit outside a field stays when the field is set. -/
theorem getLsbD_setBits_of_out {w : Nat} (x : BitVec w) {hi lo i : Nat} (h : hi < w) (hl : lo ≤ hi) (v : Nat) (hi' : i < lo ∨ hi < i) :
    (setBits x hi lo v).getLsbD i = x.getLsbD i := by
  simp only [BitVec.getLsbD]
  rw [toNat_setBits x h hl]
  have e1 : 2 ^ (hi + 1) = 2 ^ lo * 2 ^ (hi + 1 - lo) := by rw [← Nat.pow_add]; congr 1; omega
  have l1 : v % 2 ^ (hi + 1 - lo) * 2 ^ lo + x.toNat % 2 ^ lo < 2 ^ (hi + 1) := by
    have b1 : v % 2 ^ (hi + 1 - lo) < 2 ^ (hi + 1 - lo) := Nat.mod_lt _ (Nat.two_pow_pos _)
    have b2 : x.toNat % 2 ^ lo < 2 ^ lo := Nat.mod_lt _ (Nat.two_pow_pos _)
    generalize v % 2 ^ (hi + 1 - lo) = u at *
    rw [e1]
    calc u * 2 ^ lo + x.toNat % 2 ^ lo < u * 2 ^ lo + 2 ^ lo := by omega
      _ = (u + 1) * 2 ^ lo := by ring
      _ ≤ 2 ^ (hi + 1 - lo) * 2 ^ lo := Nat.mul_le_mul_right _ b1
      _ = _ := by ring
  rcases hi' with c | c
  · -- below the field
    have : x.toNat / 2 ^ (hi + 1) * 2 ^ (hi + 1) + v % 2 ^ (hi + 1 - lo) * 2 ^ lo + x.toNat % 2 ^ lo
        = 2 ^ lo * (2 ^ (hi + 1 - lo) * (x.toNat / 2 ^ (hi + 1)) + v % 2 ^ (hi + 1 - lo)) + x.toNat % 2 ^ lo := by
      generalize x.toNat / 2 ^ (hi + 1) = q
      rw [e1]; ring
    rw [this, Nat.testBit_two_pow_mul_add _ (Nat.mod_lt _ (Nat.two_pow_pos _)), if_pos c, Nat.testBit_mod_two_pow]
    simp [c]
  · have : x.toNat / 2 ^ (hi + 1) * 2 ^ (hi + 1) + v % 2 ^ (hi + 1 - lo) * 2 ^ lo + x.toNat % 2 ^ lo
        = 2 ^ (hi + 1) * (x.toNat / 2 ^ (hi + 1)) + (v % 2 ^ (hi + 1 - lo) * 2 ^ lo + x.toNat % 2 ^ lo) := by ring
    rw [this, Nat.testBit_two_pow_mul_add _ l1, if_neg (by omega), Nat.testBit_div_two_pow]
    congr 1; omega

/-- A field apart from another reads the same when that one is set. -/
theorem bits_setBits_of_apart {w : Nat} (x : BitVec w) {hi lo h2 l2 : Nat} (h : hi < w) (hl : lo ≤ hi) (v : Nat)
    (ap : h2 < lo ∨ hi < l2) : bits (setBits x hi lo v) h2 l2 = bits x h2 l2 := by
  apply bits_congr
  intro i h1 h3
  exact getLsbD_setBits_of_out x h hl v (by omega)

end Sys2Proof.Machine
end

