-- ==== Sys2Proof/Laws/Noted.lean ====
section
/-! SUPPORT. What the shared operations that take note of an event do: Safety.Noted of counts, events and interrupts, and how it goes
through updates of other units. -/

namespace Sys2Proof

open Machine Safety

variable {s t u : State}

theorem Safety.Noted.refl (s : State) : Noted s s := ⟨fun _ => rfl, ⟨_, _, _, _, _, rfl⟩⟩

theorem Safety.Noted.trans (h : Noted s t) (k : Noted t u) : Noted s u := by
  obtain ⟨a, _, _, _, _, _, rfl⟩ := h
  obtain ⟨b, _, _, _, _, _, rfl⟩ := k
  exact ⟨fun i => (b i).trans (a i), ⟨_, _, _, _, _, rfl⟩⟩

theorem Machine.noted_fireVector (v : Nat) (s : State) : Noted s (fireVector v s) := by
  unfold fireVector State.modHost
  dsimp only
  split
  · exact ⟨fun _ => rfl, ⟨_, _, _, _, _, rfl⟩⟩
  · exact ⟨fun _ => rfl, ⟨_, _, _, _, _, rfl⟩⟩

/-- An event that is queued changes the queue, its count of losses and its interrupts, and nothing else (R397 to R399). -/
theorem Machine.noted_raiseEvent (kind : Nat) (index : Word16) (sub : Byte) (value : Nat) (s : State) : Noted s (raiseEvent kind index sub value s) := by
  unfold raiseEvent
  split
  · split
    · exact ⟨fun _ => rfl, ⟨_, _, _, _, _, rfl⟩⟩
    · dsimp only
      split
      · exact Noted.trans (t := s.modHost _) ⟨fun _ => rfl, ⟨_, _, _, _, _, rfl⟩⟩ (noted_fireVector 1 _)
      · exact ⟨fun _ => rfl, ⟨_, _, _, _, _, rfl⟩⟩
  · exact Noted.refl s

theorem Machine.tget_tset_self_of_ne {α : Type} [DecidableEq α] {d v : α} (hv : v ≠ d) (t : Table α) (k : Nat) : tget d (tset d t k v) k = v := by
  induction t with
  | nil => simp [tset, tget, hv]
  | cons e t ih =>
    obtain ⟨k', v'⟩ := e
    by_cases h1 : k < k'
    · simp [tset, tget, h1, hv]
    · by_cases h2 : k = k'
      · simp [tset, tget, h2, hv]
      · simp only [tset, h1, h2, ↓reduceIte, tget, Ne.symm h2, ih]

/-- A counter that advances is not at its reset value. -/
theorem Machine.ctrAdd_ne (c : Ctr) {n : Nat} (hn : n ≠ 0) : ctrAdd c n ≠ {} := by
  intro h
  have h1 := congrArg Ctr.value h
  have h2 := congrArg Ctr.lap h
  simp only [ctrAdd, Bool.or_eq_false_iff, decide_eq_false_iff_not, not_le] at h1 h2
  have := congrArg BitVec.toNat h1
  rw [show (({} : Ctr).value).toNat = 0 from rfl] at this
  simp only [BitVec.toNat_add, BitVec.toNat_ofNat] at this
  have hv := c.value.isLt
  omega

theorem Machine.island_modIsland_of_ne {n : Nat} {f : Island → Island} (h : f (s.island n) ≠ {}) : (s.modIsland n f).island n = f (s.island n) :=
  tget_tset_self_of_ne h _ _

/-- The bump of a counter changes that counter of its island, and an event may be queued (R456, R457). -/
theorem Machine.noted_bumpCtr (i c n : Nat) (s : State) : Noted s (bumpCtr i c n s) := by
  unfold bumpCtr
  split
  · exact Noted.refl s
  · next hn =>
    have key : Noted s (s.modIsland i fun x => { x with ctrs := tset {} x.ctrs c (ctrAdd (tget {} (s.island i).ctrs c) n) }) := by
      refine ⟨fun j => ?_, ⟨_, _, _, _, _, rfl⟩⟩
      by_cases hj : j = i
      · subst hj
        rw [island_modIsland_of_ne]
        intro h
        have h1 := congrArg Island.ctrs h
        have h2 := tget_tset_self_of_ne (ctrAdd_ne (tget {} (s.island j).ctrs c) hn) (s.island j).ctrs c
        dsimp only at h1
        rw [h1] at h2
        exact ctrAdd_ne _ hn h2.symm
      · rw [island_modIsland_ne _ _ _ _ hj]
    dsimp only
    split
    · exact key.trans (noted_raiseEvent _ _ _ _ _)
    · exact key

/-- An event of the catalogue changes the counters that are configured for it, and nothing else (R451 to R453). -/
theorem Machine.noted_countEv (i cls ev n : Nat) (a : EvAttr) (s : State) : Noted s (countEv i cls ev n a s) := by
  unfold countEv
  generalize List.range 8 = l
  induction l generalizing s with
  | nil => exact Noted.refl s
  | cons p l ih => exact (noted_bumpCtr _ _ _ s).trans (ih _)

theorem Machine.noted_countCorrected (i n : Nat) (s : State) : Noted s (countCorrected i n s) := noted_bumpCtr _ _ _ s

/-- A change of the readiness map is at most an event (R398, R412). -/
theorem Machine.noted_noteReady (old new : State) : Noted new (noteReady old new) := by
  unfold noteReady
  split
  · exact Noted.refl new
  · exact noted_raiseEvent _ _ _ _ new

/-- A function-state change is at most two events beside the change itself (R398). -/
theorem Machine.noted_noteFn (index : Word16) (n : Nat) (a b : FnState) (old new : State) : Noted new (noteFn index n a b old new) := by
  unfold noteFn
  split
  · exact noted_noteReady old new
  · exact (noted_raiseEvent _ _ _ _ new).trans (noted_noteReady old _)

theorem Machine.noted_setClusterFn (n : Nat) (v : FnState) (s : State) : Noted (s.modCluster n fun c => { c with fn := v, since := if v = .starting then s.time else c.since }) (setClusterFn n v s) := noted_noteFn ..
theorem Machine.noted_setTextFn (n : Nat) (v : FnState) (s : State) : Noted (s.modText n fun c => { c with fn := v }) (setTextFn n v s) := noted_noteFn ..
theorem Machine.noted_setLinkFn (n : Nat) (v : FnState) (s : State) : Noted (s.modLink n fun c => { c with fn := v }) (setLinkFn n v s) := noted_noteFn ..
theorem Machine.noted_setStackFn (n : Nat) (v : FnState) (s : State) : Noted (s.modStack n fun c => { c with fn := v }) (setStackFn n v s) := noted_noteFn ..
theorem Machine.noted_setTableFn (n : Nat) (v : FnState) (s : State) : Noted (s.modTable n fun c => { c with fn := v }) (setTableFn n v s) := noted_noteFn ..
/-- A vocabulary that goes Off leaves no page of its in a cache (R154). -/
theorem Machine.noted_setVocabFn (n : Nat) (v : FnState) (s : State) :
    Noted (if v = .off then { s.modVocab n fun c => { c with fn := v } with
        texts := tmap {} (fun _ t => { t with cache := t.cache.filter fun e => e.1 ≠ n }) s.texts }
      else s.modVocab n fun c => { c with fn := v }) (setVocabFn n v s) := noted_noteFn ..
theorem Machine.noted_setModelFn (n : Nat) (v : FnState) (s : State) : Noted (s.modModel n fun c => { c with fn := v }) (setModelFn n v s) := noted_noteFn ..
theorem Machine.noted_setFwFn (v : FnState) (s : State) : Noted { s with fw := { s.fw with fn := v } } (setFwFn v s) := noted_noteFn ..

theorem Machine.noted_noteLong (index : Word16) (sub : Byte) (old new : Word16) (s : State) : Noted s (noteLong index sub old new s) := by
  unfold noteLong
  split
  · exact noted_raiseEvent _ _ _ _ s
  · exact Noted.refl s

theorem Machine.noted_hostRead (addr n : Nat) (s : State) : Noted s (hostRead addr n s) := noted_countEv ..

/-! ### Noted goes through the update of another unit -/

theorem Safety.Noted.modRing (h : Noted s t) (n : Nat) (f : Ring → Ring) : Noted (s.modRing n f) (t.modRing n f) := by
  obtain ⟨a, _, _, _, _, _, rfl⟩ := h
  exact ⟨a, ⟨_, _, _, _, _, rfl⟩⟩

theorem Safety.Noted.modSlot (h : Noted s t) (n : Nat) (f : Slot → Slot) : Noted (s.modSlot n f) (t.modSlot n f) := by
  obtain ⟨a, _, _, _, _, _, rfl⟩ := h
  exact ⟨a, ⟨_, _, _, _, _, rfl⟩⟩

theorem Safety.Noted.modCorpus (h : Noted s t) (n : Nat) (f : Corpus → Corpus) : Noted (s.modCorpus n f) (t.modCorpus n f) := by
  obtain ⟨a, _, _, _, _, _, rfl⟩ := h
  exact ⟨a, ⟨_, _, _, _, _, rfl⟩⟩

theorem Safety.Noted.modJob (h : Noted s t) (n : Nat) (f : Job → Job) : Noted (s.modJob n f) (t.modJob n f) := by
  obtain ⟨a, _, _, _, _, _, rfl⟩ := h
  exact ⟨a, ⟨_, _, _, _, _, rfl⟩⟩

theorem Safety.Noted.modVocab (h : Noted s t) (n : Nat) (f : Vocab → Vocab) : Noted (s.modVocab n f) (t.modVocab n f) := by
  obtain ⟨a, _, _, _, _, _, rfl⟩ := h
  exact ⟨a, ⟨_, _, _, _, _, rfl⟩⟩

theorem Safety.Noted.modTemplate (h : Noted s t) (n : Nat) (f : Template → Template) : Noted (s.modTemplate n f) (t.modTemplate n f) := by
  obtain ⟨a, _, _, _, _, _, rfl⟩ := h
  exact ⟨a, ⟨_, _, _, _, _, rfl⟩⟩

theorem Safety.Noted.modText (h : Noted s t) (n : Nat) (f : TextIsland → TextIsland) : Noted (s.modText n f) (t.modText n f) := by
  obtain ⟨a, _, _, _, _, _, rfl⟩ := h
  exact ⟨a, ⟨_, _, _, _, _, rfl⟩⟩

theorem Safety.Noted.modCore (h : Noted s t) (n : Nat) (f : Core → Core) : Noted (s.modCore n f) (t.modCore n f) := by
  obtain ⟨a, _, _, _, _, _, rfl⟩ := h
  exact ⟨a, ⟨_, _, _, _, _, rfl⟩⟩

theorem Safety.Noted.modPage (h : Noted s t) (n : Nat) (f : Page → Page) : Noted (s.modPage n f) (t.modPage n f) := by
  obtain ⟨a, _, _, _, _, _, rfl⟩ := h
  exact ⟨a, ⟨_, _, _, _, _, rfl⟩⟩

theorem Safety.Noted.modStack (h : Noted s t) (n : Nat) (f : Stack → Stack) : Noted (s.modStack n f) (t.modStack n f) := by
  obtain ⟨a, _, _, _, _, _, rfl⟩ := h
  exact ⟨a, ⟨_, _, _, _, _, rfl⟩⟩

theorem Safety.Noted.modModel (h : Noted s t) (n : Nat) (f : Model → Model) : Noted (s.modModel n f) (t.modModel n f) := by
  obtain ⟨a, _, _, _, _, _, rfl⟩ := h
  exact ⟨a, ⟨_, _, _, _, _, rfl⟩⟩

theorem Safety.Noted.modCluster (h : Noted s t) (n : Nat) (f : Cluster → Cluster) : Noted (s.modCluster n f) (t.modCluster n f) := by
  obtain ⟨a, _, _, _, _, _, rfl⟩ := h
  exact ⟨a, ⟨_, _, _, _, _, rfl⟩⟩

theorem Safety.Noted.modTable (h : Noted s t) (n : Nat) (f : TableSlot → TableSlot) : Noted (s.modTable n f) (t.modTable n f) := by
  obtain ⟨a, _, _, _, _, _, rfl⟩ := h
  exact ⟨a, ⟨_, _, _, _, _, rfl⟩⟩

theorem Safety.Noted.modLink (h : Noted s t) (n : Nat) (f : Link → Link) : Noted (s.modLink n f) (t.modLink n f) := by
  obtain ⟨a, _, _, _, _, _, rfl⟩ := h
  exact ⟨a, ⟨_, _, _, _, _, rfl⟩⟩

theorem Safety.Noted.modHub (h : Noted s t) (f : Hub → Hub) : Noted (s.modHub f) (t.modHub f) := by
  obtain ⟨a, _, _, _, _, _, rfl⟩ := h
  exact ⟨a, ⟨_, _, _, _, _, rfl⟩⟩

theorem Machine.answer_eq (via : Carrier) (ret : Return) (payload : Bytes) (s : State) : answer via ret payload s = answered via ret payload s := by
  cases via <;> rfl

theorem Safety.Noted.answered (h : Noted s t) (via : Carrier) (ret : Return) (payload : Bytes) :
    Noted (answered via ret payload s) (answered via ret payload t) := by
  obtain ⟨a, _, _, _, _, _, rfl⟩ := h
  exact ⟨a, ⟨_, _, _, _, _, rfl⟩⟩

end Sys2Proof
end

