-- ==== Sys2Proof/Laws/Requests.lean ====
section
/-! SUPPORT. Laws of slots, mirror lines and the end of a request. -/

namespace Sys2Proof

open Machine Safety

theorem Noted_of_eq {a b t : State} (h : Noted a t) (e : a = b) : Noted b t := e ▸ h

theorem Aside_of_eq {a b t : State} (h : Aside a t) (e : a = b) : Aside b t := e ▸ h

theorem twf_modSlot {s : State} (h : twf {} s.slots = true) (n : Nat) (f : Slot → Slot) : twf {} (s.modSlot n f).slots = true := twf_tmod h n f

theorem modSlot_congr {s : State} {n : Nat} {f g : Slot → Slot} (h : f (s.slot n) = g (s.slot n)) : s.modSlot n f = s.modSlot n g := by
  simp only [State.modSlot, tmod]; rw [show tget {} s.slots n = s.slot n from rfl, h]

theorem slot_modSlot {s : State} (h : twf {} s.slots = true) (n m : Nat) (f : Slot → Slot) :
    (s.modSlot n f).slot m = if m = n then f (s.slot n) else s.slot m := by
  simp only [State.slot, State.modSlot, tmod]; rw [tget_tset h]

theorem aside_writeMirror (n : Nat) (at_ : Word64) (s : State) :
    Aside (s.modSlot n fun x => { x with mirrorAt := s.time, mirrorPend := none }) (writeMirror n at_ s) :=
  aside_hostWrite _ _ _ (Aside.refl _)

theorem modSlot_modSlot {s : State} (h : twf {} s.slots = true) (n : Nat) (f g : Slot → Slot) :
    (s.modSlot n f).modSlot n g = s.modSlot n fun x => g (f x) := by
  simp only [State.modSlot]
  rw [tmod_tmod h]

/-- Aside across a last change of a slot that does not look at the tag. -/
theorem Safety.Aside.modSlot {s t : State} (h : Aside s t) (hs : twf {} s.slots = true) (n : Nat) (f : Slot → Slot)
    (hf : ∀ x, { f x with tagged := false } = { f { x with tagged := false } with tagged := false }) : Aside (s.modSlot n f) (t.modSlot n f) := by
  obtain ⟨a1, a2, a3, a4, a5, a6, a7, a8, a9, b1, b2, b3, b4, b5⟩ := h
  refine ⟨a1, a2, a3, fun _ => ?_, a5, a6, a7, a8, a9, b1, b2, b3, b4, b5⟩
  obtain ⟨c1, c2⟩ := a4 hs
  refine ⟨twf_tmod c1 n f, fun m => ?_⟩
  rw [slot_modSlot c1, slot_modSlot hs]
  split
  · rw [hf, c2 n, ← hf]
  · exact c2 m

theorem aside_changeStatus_force (n : Nat) (f : Word64 → Word64) (s : State) (hs : twf {} s.slots = true) :
    Aside (s.modSlot n fun x => { x with status := f x.status, mirrorAt := s.time, mirrorPend := none }) (changeStatus n true f s) := by
  unfold changeStatus
  simp only [Bool.true_or, ↓reduceIte]
  have := aside_writeMirror n (s.modSlot n fun x => { x with status := f x.status }).time (s.modSlot n fun x => { x with status := f x.status })
  rw [modSlot_modSlot hs] at this
  exact this

theorem aside_ended {s u v : State} {n : Nat} {f : Slot → Slot} (hs : twf {} s.slots = true) (hu : Aside (s.modSlot n f) u)
    (hv : Aside (s.modSlot n f) v) : Aside (s.modSlot n fun x => (f x).ended s.time) (v.modSlot n fun x => x.ended u.time) := by
  have e : u.time = s.time := hu.time
  have k := hv.modSlot (show twf {} (s.modSlot n f).slots = true from twf_tmod hs ..) n (fun x => x.ended u.time) (fun x => rfl)
  rw [modSlot_modSlot hs] at k
  rw [e] at k ⊢
  exact k

theorem aside_close {s u : State} {n : Nat} {f : Slot → Slot} (hs : twf {} s.slots = true) (hu : Aside (s.modSlot n f) u) :
    Aside (s.modSlot n fun x => (f x).ended s.time) (countEnd n ((sampleRequest n u).modSlot n fun x => x.ended u.time)) :=
  aside_countEnd _ _ (aside_ended hs hu (aside_sampleRequest n _ hu))

theorem aside_endRequest (n st code : Nat) (s : State) (hs : twf {} s.slots = true) (hl : liveState (s.slot n).status = true)
    (hc : (s.slot n).commitsSent = false) : Aside (s.modSlot n fun _ => endedSlot n st code s) (endRequest n st code s) := by
  unfold endRequest
  rw [if_pos (by simp [hl, hc])]
  have k1 := aside_changeStatus_force n (fun w => setFlag flPoisoned (code = 0x301) (setCode code (setState st w))) s hs
  have k2 := aside_modFabric (fun f => { f with accesses := f.accesses.filter fun a => decide (a.issuer ≠ .request n) }) _
    (aside_dropSeqs n (st ≠ ssFailed) _ (aside_killLocal (changeStatus n true (fun w => setFlag flPoisoned (code = 0x301) (setCode code (setState st w))) s).deviceId (s.handle n) _ (aside_sendKills n code _ k1)))
  exact Aside_of_eq (aside_close hs k2) (modSlot_congr rfl)

theorem aside_finishRequest (n count : Nat) (s : State) (hs : twf {} s.slots = true) :
    Aside (s.modSlot n fun x => Slot.ended { x with status := setCount count (setState ssDone x.status), mirrorAt := s.time } s.time)
      (finishRequest n count s) := by
  have k1 := aside_changeStatus_force n (fun w => setCount count (setState ssDone w)) s hs
  have k2 := aside_dropSeqs n false _ k1
  exact aside_countEnd _ _ (Aside_of_eq (aside_ended hs k2 (aside_sampleRequest n _ k2)) rfl)

theorem hostMem_fireVector (v : Nat) (s : State) : (fireVector v s).host.hostMem = s.host.hostMem := by
  unfold fireVector; simp only [State.modHost]; split <;> rfl

theorem noted_hostMem {s t : State} (h : Noted s t) : t.host.hostMem = s.host.hostMem := by
  obtain ⟨_, _, _, _, _, e⟩ := h.rest; rw [e]

theorem hostMem_hostWrite {s : State} {a : Nat} (bs : Bytes) (h1 : s.hostPath = true) (h2 : s.windowOffset a = none) :
    (hostWrite a bs s).host.hostMem = memWrite s.host.hostMem a bs := by
  unfold hostWrite; rw [h2]; simp only [h1, Bool.not_true, Bool.false_eq_true, ↓reduceIte]
  rw [noted_hostMem (noted_countEv ..)]; rfl

theorem length_leBytes (n v : Nat) : (leBytes n v).length = n := by
  induction n generalizing v with
  | zero => rfl
  | succ n ih => simp [leBytes, ih]

theorem length_mirrorLine (a b c d e f g) : (mirrorLine a b c d e f g).length = 64 := by
  simp [mirrorLine, length_leBytes, zeros]

theorem Safety.Noted.symm {s t : State} (h : Noted s t) : Noted t s := by
  obtain ⟨a, _, _, _, _, _, e⟩ := h
  exact ⟨fun i => (a i).symm, ⟨s.islands, s.host.events, s.host.eventsLost, s.host.pendingV, s.host.sentMsi, by rw [e]⟩⟩

theorem Safety.Noted.service {s t : State} (h : Noted s t) (i : Nat) : t.inService i = s.inService i := by
  have := congrArg Island.service (h.islands i)
  simp only at this
  obtain ⟨_, _, _, _, _, _, e⟩ := h
  unfold State.inService; rw [this]; rw [e]; rfl

theorem Safety.Noted.hubUp {s t : State} (h : Noted s t) : t.hubUp = s.hubUp := by
  have := congrArg Island.service (h.islands idHub)
  simp only at this
  obtain ⟨_, _, _, _, _, _, e⟩ := h
  unfold State.hubUp; rw [this]; rw [e]; rfl

theorem Safety.Noted.hostPath {s t : State} (h : Noted s t) : t.hostPath = s.hostPath := by
  unfold State.hostPath; rw [h.service]
  obtain ⟨_, _, _, _, _, _, e⟩ := h
  rw [e]; rfl

/-- A write to the host says the same after what is noted. -/
theorem Safety.Noted.hostWrite {s t : State} (h : Noted s t) (a : Nat) (bs : Bytes) : Noted (hostWrite a bs s) (hostWrite a bs t) := by
  have hp := h.hostPath
  obtain ⟨i, isl, ev, el, pv, sm, e⟩ := h
  have hw : t.windowOffset a = s.windowOffset a := by rw [e]; rfl
  have hi : t.intakeState = s.intakeState := by rw [e]; rfl
  unfold Machine.hostWrite
  rw [hw, hp, hi]
  cases s.windowOffset a with
  | some off =>
    dsimp only
    split
    · exact ⟨i, ⟨isl, ev, el, pv, sm, by rw [e]; rfl⟩⟩
    · exact ⟨i, ⟨isl, ev, el, pv, sm, e⟩⟩
  | none =>
    dsimp only
    split
    · exact ⟨i, ⟨isl, ev, el, pv, sm, by rw [e]; rfl⟩⟩
    · refine (noted_countEv ..).symm.trans (Noted.trans ?_ (noted_countEv ..))
      exact ⟨i, ⟨isl, ev, el, pv, sm, by rw [e]; rfl⟩⟩

theorem Safety.Noted.passEntry {s t : State} (h : Noted s t) (n : Nat) : Noted (passEntry n s) (passEntry n t) := by
  obtain ⟨i, isl, ev, el, pv, sm, e⟩ := h
  exact ⟨i, ⟨isl, ev, el, pv, sm, by rw [e]; rfl⟩⟩

theorem Safety.Noted.holdEntry {s t : State} (h : Noted s t) (n : Nat) : Noted (holdEntry n s) (holdEntry n t) := h.modHub _

/-- A rejection leaves what R46 says. -/
theorem noted_rejectEntry {s t : State} (h : Noted s t) (n : Nat) (d : Words) (code : Word16) :
    ∃ a ce pe, Noted (rejected n d code a ce pe s) (rejectEntry n d code t) := by
  unfold rejectEntry
  generalize hx : countEv idHub 7 2 1 { tenant := some (dTenant d) } (t.modHub fun h => { h with rejected := h.rejected + 1 }) = x
  have n1 : Noted (s.modHub fun h => { h with rejected := h.rejected + 1 }) x := by
    rw [← hx]; exact (h.modHub _).trans (noted_countEv ..)
  have ht : x.time = s.time := by obtain ⟨_, _, _, _, _, _, e⟩ := n1; rw [e]; rfl
  have n2 : Noted (s.modHub fun h => { h with rejected := h.rejected + 1, freeUsed := h.freeUsed + 2 }) x.fresh.2.fresh.2 :=
    Noted_of_eq ((n1.modHub fun h => { h with freeUsed := h.freeUsed + 1 }).modHub fun h => { h with freeUsed := h.freeUsed + 1 }) (by
      rfl)
  refine ⟨x.fresh.1, BitVec.ofNat 32 (bits x.fresh.2.fresh.1 31 0), if dPenEn d then BitVec.ofNat 32 (bits x.fresh.2.fresh.1 63 32) else 0, ?_⟩
  unfold rejected
  rw [← ht]
  exact (n2.hostWrite _ _).passEntry n

theorem Safety.Noted.mayTake {s t : State} (h : Noted s t) (n : Nat) : t.mayTake n = s.mayTake n := by
  have h1 := h.hubUp
  have h2 := h.service idHost
  obtain ⟨_, _, _, _, _, _, e⟩ := h
  unfold State.mayTake State.hostUp State.fwReady
  rw [h1, h2]; rw [e]; rfl

theorem Safety.Noted.stackUp {s t : State} (h : Noted s t) (n : Nat) : t.stackUp n = s.stackUp n := by
  unfold State.stackUp; rw [h.service]
  obtain ⟨_, _, _, _, _, _, e⟩ := h; rw [e]; rfl

/-- Reads of HBM deliver the same after what is noted. -/
theorem Safety.Noted.peek {s t : State} (h : Noted s t) (off n : Nat) : peek t off n = peek s off n := by
  unfold Machine.peek; simp only [h.stackUp]
  obtain ⟨_, _, _, _, _, _, e⟩ := h; rw [e]; rfl

theorem Safety.Noted.recW {s t : State} (h : Noted s t) (off n : Nat) : recW t off n = recW s off n := by
  unfold Machine.recW peekWords; rw [h.peek]

/-- What the checks of a request descriptor look at is not noted on. -/
theorem Safety.Noted.descCheck {s t : State} (h : Noted s t) (d : Words) : descCheck d t = descCheck d s := by
  have h1 := h.recW (dPenRef d % 2 ^ 50) 8
  unfold Machine.descCheck State.snapsOk State.penHead
  rw [h1]
  obtain ⟨_, _, _, _, _, _, e⟩ := h; rw [e]; rfl

theorem Safety.Noted.descFill {s t : State} (h : Noted s t) (d : Words) : descFill d t = descFill d s := by
  have h1 := h.recW (dPenRef d % 2 ^ 50) 8
  unfold Machine.descFill State.penHead
  rw [h1]
  obtain ⟨_, _, _, _, _, _, e⟩ := h; rw [e]; rfl

/-- What is done with an entry is done in the state in which it has been read. -/
theorem readRingEntry_eq {n : Nat} {s u : State} (hm : s.mayTake n = true) (hr : entryRead n s = some u) :
    ∃ v, Noted u v ∧ ∀ run, readRingEntry n run s = run v := by
  unfold entryRead at hr
  unfold readRingEntry
  simp only [hm, Bool.not_true, Bool.false_eq_true, ↓reduceIte] at hr ⊢
  cases hw : s.windowOffset (s.entryAddr n) with
  | none =>
    rw [hw] at hr
    cases hr
    exact ⟨_, noted_hostRead _ _ _, fun run => rfl⟩
  | some off =>
    rw [hw] at hr
    dsimp only at hr ⊢
    split at hr
    · next h =>
      cases hr
      refine ⟨_, Noted.refl _, fun run => ?_⟩
      rw [if_neg (by simp [h.1])]
      unfold withSnoops
      rw [if_neg (by simp [h.2.1]), if_pos h.2.2.1]
      exact if_neg (by simp [h.2.2.2])
    · cases hr

theorem checkCode_noted {s t : State} (h : Noted s t) (n : Nat) (d : Words) (form : Bool) (check : State → Word16)
    (hc : check t = check s) : checkCode n d form check t = checkCode n d form check s := by
  unfold checkCode
  rw [hc]
  have : t.tenantOk n d = s.tenantOk n d := by obtain ⟨_, _, _, _, _, _, e⟩ := h; rw [e]; rfl
  rw [this]

/-- takeDescriptor by the code of the first failing check. -/
theorem takeDescriptor_eq (n : Nat) (d : Words) (form : Bool) (check : State → Word16) (w : Bool) (fill : State → Slot → Slot) {s u0 : State}
    (hm : s.mayTake n = true) (hr : entryRead n s = some u0) :
    ∃ u, Noted u0 u ∧ takeDescriptor n d form check w fill s =
      if mirrorBad d = true then skipEntry n u
      else if checkCode n d form check u ≠ 0 then rejectEntry n d (checkCode n d form check u) u
      else match u.slotFor (dTenant d) with
        | none => holdEntry n u
        | some k => if (policeTenant n (dTenant d) u).1 = false then rejectEntry n d 0x106 (policeTenant n (dTenant d) u).2
          else admitEntry n k d w (fill (policeTenant n (dTenant d) u).2) (policeTenant n (dTenant d) u).2 := by
  obtain ⟨u, hu, e⟩ := readRingEntry_eq hm hr
  refine ⟨u, hu, ?_⟩
  unfold takeDescriptor
  rw [e]
  by_cases hb : mirrorBad d = true
  · rw [if_pos hb, if_pos hb]
  rw [if_neg hb, if_neg hb]
  unfold checkCode
  by_cases c1 : dVersion d ≠ 1 ∨ form = false
  · have c1' : dVersion d ≠ 1 ∨ (!form) = true := by simpa using c1
    rw [if_pos c1', if_pos c1]; rfl
  · have c1' : ¬ (dVersion d ≠ 1 ∨ (!form) = true) := by simpa using c1
    rw [if_neg c1', if_neg c1]
    by_cases c2 : u.tenantOk n d = false
    · have c2' : (!u.tenantOk n d) = true := by simpa using c2
      rw [if_pos c2', if_pos c2]; rfl
    · have c2' : ¬ (!u.tenantOk n d) = true := by simpa using c2
      rw [if_neg c2', if_neg c2]
      split
      · rfl
      · cases u.slotFor (dTenant d) with
        | none => rfl
        | some k =>
          dsimp only
          cases (policeTenant n (dTenant d) u).1 <;> simp

theorem aside_of_noted {s t : State} (h : Noted s t) : Aside s t := by
  obtain ⟨_, _, _, _, _, _, e⟩ := h; rw [e]; exact Aside.raw_iff.2 (Aside.refl s)

theorem aside_sampleAdmit_refl (n : Nat) (s : State) : Aside s (sampleAdmit n s) := aside_sampleAdmit n s (Aside.refl s)

theorem Safety.Aside.modRing {s t : State} (h : Aside s t) (n : Nat) (f : Ring → Ring) : Aside (s.modRing n f) (t.modRing n f) := by
  obtain ⟨a1, a2, a3, a4, a5, a6, a7, a8, a9, b1, b2, b3, b4, b5⟩ := h
  refine ⟨a1, a2, ?_, a4, a5, a6, a7, a8, a9, b1, b2, b3, b4, b5⟩
  show tmod {} t.rings n f = tmod {} s.rings n f
  rw [a3]

theorem aside_takeTurn (n : Nat) {s t : State} (h : Aside s t) : Aside s (takeTurn n t) := Aside.modHub h _

theorem Safety.Aside.passEntry {s t : State} (h : Aside s t) (n : Nat) : Aside (s.modRing n fun r => { r with head := r.head + 1 }) (passEntry n t) := by
  unfold Machine.passEntry takeTurn
  exact Aside.modHub (h.modRing n fun r => { r with head := r.head + 1 }) _

theorem aside_writeMirror_of {s t : State} {f : Slot → Slot} {n : Nat} (hs : twf {} s.slots = true) (h : Aside (s.modSlot n f) t) (at_ : Word64) :
    Aside (s.modSlot n fun x => { f x with mirrorAt := s.time, mirrorPend := none }) (writeMirror n at_ t) := by
  have a3 := h.modSlot (twf_modSlot hs ..) n (fun x => { x with mirrorAt := s.time, mirrorPend := none }) fun _ => rfl
  rw [modSlot_modSlot hs] at a3
  unfold writeMirror
  rw [show t.time = s.time from h.time]
  exact aside_hostWrite _ _ _ a3

/-- The slot of R35 hangs on the slots and the quotas alone. -/
theorem slotFor_congr {s t : State} (h1 : t.slots = s.slots) (h2 : t.hub = s.hub) (w : Nat) : t.slotFor w = s.slotFor w := by
  have h3 : ∀ f n, t.firstFree f n = s.firstFree f n := by
    intro f
    induction f with
    | zero => intro n; rfl
    | succ f ih => intro n; unfold State.firstFree State.slot; rw [h1, ih]
  unfold State.slotFor State.slotsUsed
  rw [h1, h2, h3]

theorem Safety.Noted.slotFor {s t : State} (h : Noted s t) (w : Nat) : t.slotFor w = s.slotFor w := by
  obtain ⟨_, _, _, _, _, _, e⟩ := h
  exact slotFor_congr (by rw [e]) (by rw [e]) w

theorem admitEntry_eq (n k : Nat) (d : Words) (w : Bool) (fill : Slot → Slot) (u : State) :
    ∃ v, v = sampleAdmit k (countEv idHub 7 1 1 { tenant := some (dTenant d) } ((u.modSlot k fun _ => entrySlot n k d w fill u).modHub fun h =>
      { h with admitted := h.admitted + 1 })) ∧ admitEntry n k d w fill u = passEntry n (writeMirror k
        (countEv idHub 7 1 1 { tenant := some (dTenant d) } ((u.modSlot k fun _ => entrySlot n k d w fill u).modHub fun h => { h with admitted := h.admitted + 1 })).time v) :=
  ⟨_, rfl, rfl⟩

/-- An admission leaves what R45 and R47 say. -/
theorem admitted_admitEntry {s u : State} (h : Aside s u) (hs : twf {} s.slots = true) (n k : Nat) (d : Words) (w : Bool) (fill fill' : Slot → Slot)
    (he : entrySlot n k d w fill' u = entrySlot n k d w fill s) :
    Admitted n k d w fill s (admitEntry n k d w fill' u) := by
  have a1 : Aside (s.modSlot k fun _ => entrySlot n k d w fill s) (u.modSlot k fun _ => entrySlot n k d w fill' u) := by
    rw [he]; exact h.modSlot hs k _ fun _ => rfl
  have a2 := aside_sampleAdmit k _ (aside_countEv idHub 7 1 1 { tenant := some (dTenant d) } _ (Aside.modHub a1 fun h => { h with admitted := h.admitted + 1 }))
  obtain ⟨v, hv, e⟩ := admitEntry_eq n k d w fill' u
  rw [← hv] at a2
  rw [e]
  exact (aside_writeMirror_of hs a2 _).passEntry n

theorem hub_countEv (i cls ev n a s) : (countEv i cls ev n a s).hub = s.hub := by
  obtain ⟨_, _, _, _, _, _, e⟩ := noted_countEv i cls ev n a s; rw [e]

theorem hub_hostWrite (a : Nat) (bs : Bytes) (s : State) : (hostWrite a bs s).hub = s.hub := by
  unfold hostWrite
  split
  · split <;> rfl
  · split
    · rfl
    · rw [hub_countEv]; rfl

theorem hub_sampleAdmit (n : Nat) (s : State) : (sampleAdmit n s).hub = s.hub := by
  unfold sampleAdmit settleHub
  split
  · dsimp only
    cases s.sampling.due <;> dsimp only <;> split <;> rfl
  · rfl

/-- What no step of a fold changes, the fold does not change. -/
theorem foldl_keeps {α β : Type} (π : State → β) (g : State → α → State) (h : ∀ s a, π (g s a) = π s) (l : List α) (s : State) :
    π (l.foldl g s) = π s := by
  induction l generalizing s with
  | nil => rfl
  | cons a l ih => rw [List.foldl_cons, ih, h]

/-- The slots and the hub of a state, and whether it serves. -/
def front (s : State) : Table Slot × Hub × Bool := (s.slots, s.hub, s.hubUp)

theorem front_noted {s t : State} (h : Noted s t) : front t = front s := by
  unfold front
  rw [h.hubUp]
  obtain ⟨_, _, _, _, _, _, e⟩ := h; rw [e]

theorem front_notable (i ev detail s) : front (notable i ev detail s) = front s := by
  unfold notable pushHistory
  split
  · dsimp only; split <;> rfl
  · rfl

theorem front_touchPage (k off n : Nat) (s : State) : front (touchPage k off n s) = front s := by
  unfold touchPage
  dsimp only
  split
  · refine foldl_keeps front _ (fun s i => ?_) _ _
    split
    · rw [front_notable]; rfl
    · rfl
  · split
    · rfl
    · split
      · rfl
      · split
        · split
          · rfl
          · rw [front_notable]; rfl
        · split
          · rfl
          · split
            · rw [front_notable]; exact (front_noted (noted_countCorrected _ 1 (modHbm _ s))).trans rfl
            · exact (front_noted (noted_countCorrected _ 1 (modHbm _ s))).trans rfl

/-- Of slots and hub a read of HBM takes at most a free value. -/
theorem front_touch (ranges : List (Nat × Nat)) (s : State) : ∃ k, front (touch ranges s) = (s.slots, { s.hub with freeUsed := k }, s.hubUp) := by
  have h : ∀ (l : List (Nat × Nat)) (k : Nat), front (l.foldl (fun s c =>
      countEv (idMemory (stackOf c.1)) 3 1 c.2 { addr := some (c.1 % 2 ^ 40, c.2) } (touchPage k c.1 c.2 s)) s) = front s :=
    fun l k => foldl_keeps front _ (fun s c => by rw [front_noted (noted_countEv ..), front_touchPage]) l s
  unfold touch
  dsimp only
  split
  · exact ⟨_, congrArg (fun p : Table Slot × Hub × Bool => (p.1, { p.2.1 with freeUsed := p.2.1.freeUsed + 1 }, p.2.2)) (h ..)⟩
  · exact ⟨s.hub.freeUsed, h ..⟩

/-- Reading an entry leaves slots and quotas as they are. -/
theorem entryRead_keeps {n : Nat} {s u : State} (h : entryRead n s = some u) : Aside s u ∧ u.slots = s.slots ∧ ∃ k, u.hub = { s.hub with freeUsed := k } := by
  unfold entryRead at h
  dsimp only at h
  split at h
  · cases h; exact ⟨Aside.refl _, rfl, _, rfl⟩
  · split at h
    · cases h
      obtain ⟨k, e⟩ := front_touch [(s.hbm.intakeBase.toNat + _, 128)] (clearSnoops [(s.entryAddr n, 128)] s)
      exact ⟨aside_touch _ _ (aside_clearSnoops _ _ (Aside.refl _)), congrArg Prod.fst e, k, congrArg (fun p => p.2.1) e⟩
    · cases h

/-- Reading a buffer leaves slots and hub as they are, but for a free value (R40). -/
theorem readHost_keeps (addr n : Nat) (given : Bytes) (s : State) : let t := (readHost addr n given s).2.2
    (∀ s0, Aside s0 s → Aside s0 t) ∧ t.slots = s.slots ∧ t.hubUp = s.hubUp ∧ ∃ k, t.hub = { s.hub with freeUsed := k } := by
  unfold readHost
  cases s.windowOffset addr with
  | none =>
    have e := front_noted (noted_hostRead addr n s)
    exact ⟨fun s0 h => aside_hostRead _ _ _ h, congrArg Prod.fst e, congrArg (fun p => p.2.2) e, s.hub.freeUsed, congrArg (fun p => p.2.1) e⟩
  | some off =>
    obtain ⟨k, e⟩ := front_touch [(s.hbm.intakeBase.toNat + off, n)] s
    exact ⟨fun s0 h => aside_touch _ _ h, congrArg Prod.fst e, congrArg (fun p => p.2.2) e, k, congrArg (fun p => p.2.1) e⟩

/-- What a buffer reads as: of the state only the intake region and its bytes matter. -/
theorem readHost_val (addr n : Nat) (given : Bytes) (s : State) :
    ((readHost addr n given s).1, (readHost addr n given s).2.1) = match s.windowOffset addr with
      | none => (0, fit n given)
      | some off => ((if s.intakeState ≠ 2 then 0x321 else if (peek s (s.hbm.intakeBase.toNat + off) n).poison then 0x301
          else (peek s (s.hbm.intakeBase.toNat + off) n).code), (peek s (s.hbm.intakeBase.toNat + off) n).data) := by
  unfold readHost
  cases s.windowOffset addr <;> rfl

theorem readHost_congr {s t : State} (addr n : Nat) (given : Bytes) (hw : t.windowOffset addr = s.windowOffset addr)
    (hi : t.intakeState = s.intakeState) (hb : t.hbm = s.hbm) (hp : ∀ off n, peek t off n = peek s off n) :
    (readHost addr n given t).1 = (readHost addr n given s).1 ∧ (readHost addr n given t).2.1 = (readHost addr n given s).2.1 := by
  have h : ((readHost addr n given t).1, (readHost addr n given t).2.1) = ((readHost addr n given s).1, (readHost addr n given s).2.1) := by
    rw [readHost_val, readHost_val, hw, hi, hb]
    cases s.windowOffset addr with
    | none => rfl
    | some off => dsimp only; rw [hp]
  exact Prod.mk.inj h

theorem slotFor_hub {s t : State} (h1 : t.slots = s.slots) (k : Nat) (h2 : t.hub = { s.hub with freeUsed := k }) (w : Nat) : t.slotFor w = s.slotFor w := by
  have h3 : ∀ f n, t.firstFree f n = s.firstFree f n := by
    intro f
    induction f with
    | zero => intro n; rfl
    | succ f ih => intro n; unfold State.firstFree State.slot; rw [h1, ih]
  unfold State.slotFor State.slotsUsed
  rw [h1, h2, h3]

theorem admitted_count (n k : Nat) (d : Words) (w : Bool) (fill : Slot → Slot) (u : State) :
    (admitEntry n k d w fill u).hub.admitted = u.hub.admitted + 1 := by
  obtain ⟨v, hv, e⟩ := admitEntry_eq n k d w fill u
  rw [e]
  show (writeMirror k _ v).hub.admitted = _
  unfold writeMirror
  rw [hub_hostWrite]
  show v.hub.admitted = _
  rw [hv, hub_sampleAdmit, hub_countEv]; rfl

theorem atStage_mono {s t : State} {k g : Nat} (h1 : t.hubUp = s.hubUp) (h2 : stState (t.slot k).status = stState (s.slot k).status)
    (h3 : stStage (t.slot k).status = stStage (s.slot k).status) : t.atStage k g = s.atStage k g := by
  unfold State.atStage; rw [h1, h2, h3]

theorem hubUp_hostWrite (a : Nat) (bs : Bytes) (s : State) : (hostWrite a bs s).hubUp = s.hubUp := by
  unfold hostWrite
  split
  · split <;> rfl
  · split
    · rfl
    · exact (noted_countEv ..).hubUp

theorem hubUp_changeStatus (n : Nat) (force : Bool) (f : Word64 → Word64) (s : State) : (changeStatus n force f s).hubUp = s.hubUp := by
  unfold changeStatus
  dsimp only
  split
  · exact hubUp_hostWrite ..
  · rfl

/-- A status change that may be merged: written at once where the window is past, else due. -/
theorem aside_changeStatus (n : Nat) (f : Word64 → Word64) (s : State) (hs : twf {} s.slots = true) :
    Aside (s.modSlot n fun x =>
      if s.hub.coalesce = 0 ∨ s.hub.coalesce.toNat ≤ (s.time - x.mirrorAt).toNat
      then { x with status := f x.status, mirrorAt := s.time, mirrorPend := none }
      else { x with status := f x.status, mirrorPend := some s.time }) (changeStatus n false f s) := by
  unfold changeStatus
  dsimp only
  have e : ((s.modSlot n fun x => { x with status := f x.status }).slot n).mirrorAt = (s.slot n).mirrorAt := by
    rw [slot_modSlot hs, if_pos rfl]
  rw [e]
  simp only [Bool.false_or]
  by_cases c : s.hub.coalesce = 0 ∨ s.hub.coalesce.toNat ≤ (s.time - (s.slot n).mirrorAt).toNat
  · have c' : (decide ((s.modSlot n fun x => { x with status := f x.status }).hub.coalesce = 0) ||
        decide ((s.modSlot n fun x => { x with status := f x.status }).hub.coalesce.toNat ≤ ((s.modSlot n fun x => { x with status := f x.status }).time - (s.slot n).mirrorAt).toNat)) = true := by
      simp only [Bool.or_eq_true, decide_eq_true_eq]; exact c
    rw [if_pos c']
    refine Aside_of_eq (aside_writeMirror_of hs (Aside.refl _) _) (modSlot_congr ?_)
    rw [if_pos c]
  · have c' : ¬ (decide ((s.modSlot n fun x => { x with status := f x.status }).hub.coalesce = 0) ||
        decide ((s.modSlot n fun x => { x with status := f x.status }).hub.coalesce.toNat ≤ ((s.modSlot n fun x => { x with status := f x.status }).time - (s.slot n).mirrorAt).toNat)) = true := by
      simp only [Bool.or_eq_true, decide_eq_true_eq]; exact c
    rw [if_neg c', modSlot_modSlot hs]
    refine Aside_of_eq (Aside.refl _) (modSlot_congr ?_)
    rw [if_neg c]; rfl

end Sys2Proof
end

