-- ==== Sys2Proof/Laws/Accesses.lean ====
section
/-! SUPPORT. What a write and a read of a dictionary entry do (R396): the answer of a line of the entry tables. -/

namespace Sys2Proof

open Machine Safety

set_option maxRecDepth 8000

/-! ### Dictionary accesses -/

theorem find?_filter_and {α : Type} (p q : α → Bool) (l : List α) : l.find? (fun e => p e && q e) = (l.filter p).find? q := by simp

theorem entry_eq {s : State} {index sub : Nat} (h : s.sees index = true) :
    s.entry index sub = (dictionary.filter fun e => e.covers index).find? fun e => e.slo ≤ sub && sub ≤ e.shi := by
  unfold State.entry
  rw [if_pos h]
  have e : (fun e : Ent => e.holds index sub) = fun e => e.covers index && (e.slo ≤ sub && sub ≤ e.shi : Bool) := by
    funext e; unfold Ent.holds; rw [Bool.and_assoc]
  rw [e, find?_filter_and]

theorem Safety.Noted.accessed {s t : State} (h : Noted s t) (via : Carrier) (index sub result : Nat) (code : Word16) :
    Noted (accessed via index sub result code s) (accessed via index sub result code t) := by
  obtain ⟨a, _, _, _, _, _, rfl⟩ := h
  unfold Safety.accessed State.modHost
  by_cases c : result = 0
  · simp only [c, ↓reduceIte]; exact ⟨a, ⟨_, _, _, _, _, rfl⟩⟩
  · simp only [c, ↓reduceIte]; exact ⟨a, ⟨_, _, _, _, _, rfl⟩⟩

theorem noteAccess_eq (via : Carrier) (index sub result : Nat) (code : Word16) (s : State) :
    noteAccess via index sub result code true s = accessed via index sub result code (countEv idHub 7 3 1 { priv := 1 } s) := by
  unfold noteAccess Safety.accessed State.modHost
  dsimp only
  by_cases c : result = 0
  · rw [if_neg (by simp [c]), if_pos rfl]; subst c; rfl
  · rw [if_pos c]
    rw [if_neg c]

/-- An access that is refused, or done: the answer of a write (R396). -/
theorem replies_write {via : Carrier} {index sub : Nat} {v : Bytes} {c : Instr} {s u : State} {result : Nat} {code : Word16}
    (he : exec c s = .next (accessWrite via index sub v s)) (hc : s.carrierUp via = true) {w : WriteOut} (hw : writeEntry index sub v s = w)
    (hr : w.result = result) (hco : w.code = code) (hu : Noted u w.state) : Replies via index sub result code c s u := by
  refine ⟨_, he, ?_⟩
  unfold accessWrite
  rw [if_pos hc, hw]
  dsimp only
  rw [hr, hco, answer_eq, noteAccess_eq]
  exact (Safety.Noted.accessed (hu.trans (noted_countEv ..)) ..).answered ..

/-- A write that reaches its entry. -/
theorem writeEntry_eq {index sub : Nat} {v : Bytes} {s : State} {e : Ent} (h0 : sub ≠ 0) (he : s.entry index sub = some e)
    (hro : e.acc ≠ .ro) (hf : e.type.fits v = true) :
    writeEntry index sub v s =
      if (!(s.fwReady || earlyEntry index sub) || !e.may s (e.place index sub 0) v) = true then refusedAt 3 s
      else if (!e.ok s (e.place index sub 0) v) = true then refusedAt 4 s else e.set (e.place index sub 0) v s := by
  unfold writeEntry
  rw [if_neg h0, he]
  dsimp only
  rw [if_neg hro, if_neg (by simp [hf])]

theorem leNat_leBytes (n v : Nat) : leNat (leBytes n v) = v % 256 ^ n := by
  induction n generalizing v with
  | zero => simp [leBytes, leNat, Nat.mod_one]
  | succ n ih =>
    simp only [leBytes, leNat, ih, BitVec.toNat_ofNat]
    rw [show 256 ^ (n + 1) = 256 * 256 ^ n from Nat.pow_succ', Nat.mod_mul]

theorem fits_leBytes {t : EntType} {v : Nat} (h : t.code ≠ 9) : t.fits (leBytes t.len v) = true := by
  unfold EntType.fits; rw [if_neg h]; simp [length_leBytes]

/-- A line of n number entries, written over a carrier. -/
theorem replies_rwN {via : Carrier} {index n units len v : Nat} {c : Instr} {s : State} {t : EntType} {acc : Access4}
    {get : State → Nat → Nat} {may : State → Nat → Nat → Bool} {ok : Nat → Bool} {set : Nat → Nat → State → WriteOut}
    (he : exec c s = .next (writeUnit via index n len v s)) (hc : s.carrierUp via = true)
    (hs : s.sees index = true) (hd : (dictionary.filter fun e => e.covers index) = [rwN index units t acc get may ok set])
    (ht : t.code ≠ 9) (hl : len = t.len) (hv : v < 256 ^ len) (ha : acc ≠ .ro) (hn : n < units) (hu : units < 256) (hi : earlyEntry index (n + 1) = false) :
    (s.fwReady = false → Replies via index (n + 1) 3 0 c s s) ∧
    (s.fwReady = true → may s n v = false → Replies via index (n + 1) 3 0 c s s) ∧
    (s.fwReady = true → may s n v = true → ok v = false → Replies via index (n + 1) 4 0 c s s) ∧
    (∀ u, s.fwReady = true → may s n v = true → ok v = true → Noted u (set n v s).state →
      Replies via index (n + 1) (set n v s).result (set n v s).code c s u) := by
  have he' : exec c s = .next (accessWrite via index (n + 1) (leBytes len v) s) := by
    rw [he]; unfold writeUnit; rw [if_pos (by omega)]
  have e1 : s.entry index (n + 1) = some (rwN index units t acc get may ok set) := by
    rw [entry_eq hs, hd]
    have : ((rwN index units t acc get may ok set).slo ≤ n + 1 && n + 1 ≤ (rwN index units t acc get may ok set).shi : Bool) = true := by
      simp [rwN, rwLine]; omega
    rw [List.find?_cons, this]
  have hn' : leNat (leBytes len v) = v := by rw [leNat_leBytes, Nat.mod_eq_of_lt hv]
  have w := writeEntry_eq (s := s) (v := leBytes len v) (Nat.succ_ne_zero n) e1 ha
    (by subst hl; exact fits_leBytes ht)
  have p : (rwN index units t acc get may ok set).place index (n + 1) 0 = ⟨0, n, 0⟩ := by
    simp [Ent.place, rwN, rwLine]
  rw [p, hi] at w
  have m : (rwN index units t acc get may ok set).may s ⟨0, n, 0⟩ (leBytes len v) = may s n v := by simp [rwN, rwLine, hn']
  have o : (rwN index units t acc get may ok set).ok s ⟨0, n, 0⟩ (leBytes len v) = ok v := by simp [rwN, rwLine, hn']
  have st : (rwN index units t acc get may ok set).set ⟨0, n, 0⟩ (leBytes len v) s = set n v s := by simp [rwN, rwLine, hn']
  rw [m, o, st] at w
  refine ⟨fun a => ?_, fun a b => ?_, fun a b d => ?_, fun u a b d h => ?_⟩
  · exact replies_write he' hc (w.trans (by rw [a]) :) rfl rfl (Noted.refl s)
  · exact replies_write he' hc (w.trans (by rw [a, b])) rfl rfl (Noted.refl s)
  · exact replies_write he' hc (w.trans (by rw [a, b, d])) rfl rfl (Noted.refl s)
  · exact replies_write he' hc (w.trans (by simp [a, b, d])) rfl rfl h

theorem sees_plain {s : State} {index : Nat} (h : index < 0x5100 ∨ (0x5440 ≤ index ∧ index < 0xF000)) : s.sees index = true := by
  unfold State.sees
  rw [if_neg (by omega), if_neg (by omega)]
  simp; omega

/-- What the seven enables have in common: the entry's line, and the function's rule with the kept value. -/
theorem replies_enable {via : Carrier} {index n units v : Nat} {c : Instr} {s : State}
    {get : State → Nat → Nat} {may : State → Nat → Nat → Bool} {set : Nat → Nat → State → WriteOut}
    (he : exec c s = .next (writeUnit via index n 1 v s)) (hc : s.carrierUp via = true)
    (hs : s.sees index = true) (hd : (dictionary.filter fun e => e.covers index) = [rwN index units tU8 .rw get may isBit set])
    (hv : v < 256) (hn : n < units) (hu : units < 256) (hi : earlyEntry index (n + 1) = false)
    (fn : FnState) (start abandon drain keep : State → State) (mayStop : Bool) (special : Bool)
    (hmay : may s n v = (v ≠ 0 || mayStop))
    (hset : v ≤ 1 → special = false → (set n v s).code = 0 ∧ (set n v s).result = (enableAct fn (v = 1) start abandon drain s).1 ∧
      Noted (if (enableAct fn (v = 1) start abandon drain s).1 = 0 then keep (enableAct fn (v = 1) start abandon drain s).2
        else (enableAct fn (v = 1) start abandon drain s).2) (set n v s).state)
    (hsp : v ≤ 1 → special = true → fn = .draining ∧ (v = 0 → (set n v s).code = 0 ∧ (set n v s).result = 0 ∧ (set n v s).state = keep (abandon s)) ∧
      (v = 1 → (set n v s).code = 0 ∧ (set n v s).result = 3 ∧ (set n v s).state = s)) :
    (s.fwReady = false → Replies via index (n + 1) 3 0 c s s) ∧
    (s.fwReady = true →
      (v = 0 → mayStop = false → Replies via index (n + 1) 3 0 c s s) ∧
      (1 < v → mayStop = true → Replies via index (n + 1) 4 0 c s s) ∧
      (v = 1 →
        (fn = .off → Replies via index (n + 1) 0 0 c s (keep (start s))) ∧
        (fn = .starting ∨ fn = .ready → Replies via index (n + 1) 0 0 c s (keep s)) ∧
        (fn = .draining → Replies via index (n + 1) 3 0 c s s)) ∧
      (v = 0 → mayStop = true →
        (fn = .off → Replies via index (n + 1) 0 0 c s (keep s)) ∧
        (fn = .starting → Replies via index (n + 1) 0 0 c s (keep (abandon s))) ∧
        (fn = .ready → Replies via index (n + 1) 0 0 c s (keep (drain s))) ∧
        (fn = .draining → Replies via index (n + 1) 0 0 c s (if special then keep (abandon s) else keep s)))) := by
  obtain ⟨k1, k2, k3, k4⟩ := replies_rwN (t := tU8) (len := 1) he hc hs hd (by decide) rfl (by omega) (by decide) hn hu hi
  refine ⟨k1, fun a => ⟨fun b d => k2 a (by rw [hmay]; simp [b, d]), fun b d => ?_, fun b => ?_, fun b d => ?_⟩⟩
  · exact k3 a (by rw [hmay]; simp [d]) (by simp [isBit]; omega)
  · have m : may s n v = true := by rw [hmay]; simp [b]
    have o : isBit v = true := by simp [isBit]; omega
    cases hsp' : special
    · obtain ⟨h1, h2, h3⟩ := hset (by omega) hsp'
      have z : decide (v = 1) = true := by simp [b]
      rw [z] at h2 h3
      refine ⟨fun f => ?_, fun f => ?_, fun f => ?_⟩
      · subst f; have := k4 _ a m o h3; rw [h1, h2] at this; exact this
      · rcases f with f | f <;> (subst f; have := k4 _ a m o h3; rw [h1, h2] at this; exact this)
      · subst f; have := k4 _ a m o h3; rw [h1, h2] at this; exact this
    · obtain ⟨h1, h2, h3⟩ := hsp (by omega) hsp'
      refine ⟨fun f => ?_, fun f => ?_, fun f => ?_⟩
      · rw [h1] at f; cases f
      · rw [h1] at f; rcases f with f | f <;> cases f
      · obtain ⟨g1, g2, g3⟩ := h3 b
        have := k4 s a m o (by rw [g3]; exact Noted.refl s); rw [g1, g2] at this; exact this
  · have m : may s n v = true := by rw [hmay]; simp [d]
    have o : isBit v = true := by simp [isBit]; omega
    cases hsp' : special
    · obtain ⟨h1, h2, h3⟩ := hset (by omega) hsp'
      have z : decide (v = 1) = false := by simp [b]
      rw [z] at h2 h3
      refine ⟨fun f => ?_, fun f => ?_, fun f => ?_, fun f => ?_⟩ <;> (subst f; have := k4 _ a m o h3; rw [h1, h2] at this; exact this)
    · obtain ⟨h1, h2, h3⟩ := hsp (by omega) hsp'
      refine ⟨fun f => ?_, fun f => ?_, fun f => ?_, fun f => ?_⟩
      · rw [h1] at f; cases f
      · rw [h1] at f; cases f
      · rw [h1] at f; cases f
      · obtain ⟨g1, g2, g3⟩ := h2 b
        have := k4 (keep (abandon s)) a m o (by rw [g3]; exact Noted.refl _); rw [g1, g2] at this; exact this

/-- A write to a line of the entry tables, by what the line's tests and effect give. -/
theorem replies_line {via : Carrier} {index sub : Nat} {b : Bytes} {c : Instr} {s : State} {e : Ent} {m o : Bool} {w : WriteOut}
    (he : exec c s = .next (accessWrite via index sub b s)) (hc : s.carrierUp via = true) (hs : s.sees index = true)
    (hf : s.fwReady = true) (hd : (dictionary.filter fun e => e.covers index).find? (fun e => e.slo ≤ sub && sub ≤ e.shi) = some e)
    (h0 : sub ≠ 0) (ha : e.acc ≠ .ro) (ht : e.type.fits b = true)
    (hm : e.may s (e.place index sub 0) b = m) (ho : e.ok s (e.place index sub 0) b = o) (hw : e.set (e.place index sub 0) b s = w) :
    (m = false → Replies via index sub 3 0 c s s) ∧
    (m = true → o = false → Replies via index sub 4 0 c s s) ∧
    (∀ u, m = true → o = true → Noted u w.state → Replies via index sub w.result w.code c s u) := by
  have k := writeEntry_eq (s := s) (v := b) h0 ((entry_eq hs).trans hd) ha ht
  rw [hm, ho, hw, hf] at k
  refine ⟨fun a => ?_, fun a d => ?_, fun u a d h => ?_⟩
  · exact replies_write he hc (w := refusedAt 3 s) (k.trans (by simp [a])) rfl rfl (Noted.refl s)
  · exact replies_write he hc (w := refusedAt 4 s) (k.trans (by simp [a, d])) rfl rfl (Noted.refl s)
  · exact replies_write he hc (k.trans (by simp [a, d])) rfl rfl h

/-- The line of an index that has one line of entries for n units. -/
theorem find_units {index units sub : Nat} {e : Ent} (hd : (dictionary.filter fun e => e.covers index) = [e]) (h1 : e.slo = 1) (h2 : e.shi = units)
    (hn : sub < units) : (dictionary.filter fun e => e.covers index).find? (fun e => e.slo ≤ sub + 1 && sub + 1 ≤ e.shi) = some e := by
  rw [hd, List.find?_cons]
  have : (e.slo ≤ sub + 1 && sub + 1 ≤ e.shi : Bool) = true := by rw [h1, h2]; simp; omega
  rw [this]

/-- A write of a number to the entry of unit n. -/
theorem exec_unit {via : Carrier} {index n len v : Nat} {c : Instr} {s : State} (he : exec c s = .next (writeUnit via index n len v s)) (hn : n < 255) :
    exec c s = .next (accessWrite via index (n + 1) (leBytes len v) s) := by rw [he]; unfold writeUnit; rw [if_pos hn]

theorem leNat_of_lt {n v : Nat} (h : v < 256 ^ n) : leNat (leBytes n v) = v := by rw [leNat_leBytes, Nat.mod_eq_of_lt h]

theorem leNat_byte (v : Byte) : leNat (leBytes 1 v.toNat) = v.toNat := leNat_of_lt v.isLt

theorem leNat_one (v : Byte) : leNat [v] = v.toNat := by simp [leNat]

theorem leNat_32 (v : Word32) : leNat (leBytes 4 v.toNat) = v.toNat := leNat_of_lt v.isLt

theorem leNat_64 (v : Word64) : leNat (leBytes 8 v.toNat) = v.toNat := leNat_of_lt v.isLt

theorem ofNat_32 (v : Word32) : BitVec.ofNat 32 v.toNat = v := by simp

theorem ofNat_64 (v : Word64) : BitVec.ofNat 64 v.toNat = v := by simp

theorem take_leBytes (m n v : Nat) : (leBytes (m + n) v).take m = leBytes m v := by
  induction m generalizing v with
  | zero => simp [leBytes]
  | succ m ih => rw [show m + 1 + n = (m + n) + 1 by omega]; simp [leBytes, ih]

theorem drop_leBytes (m n v : Nat) : (leBytes (m + n) v).drop m = leBytes n (v / 256 ^ m) := by
  induction m generalizing v with
  | zero => simp
  | succ m ih =>
    rw [show m + 1 + n = (m + n) + 1 by omega]
    simp only [leBytes, List.drop_succ_cons, ih]
    rw [Nat.div_div_eq_div_mul, Nat.pow_succ']

theorem install_bytes (v : Word32) (root : Word64) :
    (let b := leBytes 16 (v.toNat + 2 ^ 64 * root.toNat)
     leNat (b.take 4) = v.toNat ∧ leNat ((b.drop 4).take 4) = 0 ∧ leNat (b.drop 8) = root.toNat) := by
  have h1 := v.isLt
  have h2 := root.isLt
  dsimp only
  refine ⟨?_, ?_, ?_⟩
  · rw [show (16 : Nat) = 4 + 12 from rfl, take_leBytes, leNat_leBytes]; omega
  · rw [show (16 : Nat) = 4 + 12 from rfl, drop_leBytes, show (12 : Nat) = 4 + 8 from rfl, take_leBytes, leNat_leBytes]; omega
  · rw [show (16 : Nat) = 8 + 8 from rfl, drop_leBytes, leNat_leBytes]; omega

theorem Replies_of_eq {via : Carrier} {index sub result : Nat} {code : Word16} {c : Instr} {s u v : State}
    (h : Replies via index sub result code c s u) (e : u = v) : Replies via index sub result code c s v := e ▸ h

theorem noteAccess_read (via : Carrier) (index sub : Nat) (s : State) :
    noteAccess via index sub 0 0 false s = countEv idHub 7 3 1 { priv := 1 } s := by
  unfold noteAccess; dsimp only; rw [if_neg (by simp), if_neg (by simp)]

/-- A read of a line of the entry tables is answered with what the line reads, and does what reading it does (R396). -/
theorem reads_line {via : Carrier} {index sub : Nat} {b : Bytes} {c : Instr} {s u : State} {e : Ent}
    (he : exec c s = .next (accessRead via index sub s)) (hc : s.carrierUp via = true) (hs : s.sees index = true)
    (hd : (dictionary.filter fun e => e.covers index).find? (fun e => e.slo ≤ sub && sub ≤ e.shi) = some e)
    (h0 : sub ≠ 0) (ha : e.acc ≠ .wo) (hb : e.get s (e.place index sub 0) = b) (hu : e.after (e.place index sub 0) s = u) :
    Reads via index sub b c s u := by
  refine ⟨_, he, ?_⟩
  have hc' : s.answersRead via index = true := by
    simp only [State.carrierUp, Bool.and_eq_true] at hc
    simp [State.answersRead, hc]
  unfold accessRead
  rw [if_pos hc']
  have k : readEntry index sub 0 s = ⟨0, b, u⟩ := by
    unfold readEntry
    rw [if_neg h0, (entry_eq hs).trans hd]
    dsimp only
    rw [if_neg ha, hb, hu]
  unfold readRecord
  rw [k]
  dsimp only
  rw [answer_eq, noteAccess_read]
  exact (noted_countEv ..).answered ..

theorem noted_keyDone (s : State) : Noted { s with keyring := { s.keyring with result := 0 } } (keyDone s) := noted_noteLong ..

theorem pairOf_bytes (w0 w1 : Word64) : pairOf (bytesOf [w0, w1]) = (w0, w1) := by
  have e : bytesOf [w0, w1] = leBytes 8 w0.toNat ++ leBytes 8 w1.toNat := by simp [bytesOf]
  have t : (leBytes 8 w0.toNat ++ leBytes 8 w1.toNat).take 8 = leBytes 8 w0.toNat := by
    rw [List.take_append_of_le_length (by simp [length_leBytes])]
    exact List.take_of_length_le (by simp [length_leBytes])
  have d : (leBytes 8 w0.toNat ++ leBytes 8 w1.toNat).drop 8 = leBytes 8 w1.toNat := by
    rw [List.drop_append_of_le_length (by simp [length_leBytes])]
    rw [List.drop_of_length_le (by simp [length_leBytes]), List.nil_append]
  unfold pairOf
  rw [e, t, d, leNat_64, leNat_64, ofNat_64, ofNat_64]

theorem tget_rates (l : List Word32) (k : Nat) (t : Table Nat) (ht : twf 0 t = true) (c : Nat) :
    tget 0 ((l.zipIdx k).foldl (fun t x => tset 0 t x.2 x.1.toNat) t) c =
      if k ≤ c ∧ c < k + l.length then (l.getD (c - k) 0).toNat else tget 0 t c := by
  induction l generalizing k t with
  | nil => rw [if_neg (by simp only [List.length_nil]; omega)]; rfl
  | cons a l ih =>
    rw [List.zipIdx_cons, List.foldl_cons, ih (k + 1) _ (twf_tset ht ..), tget_tset ht]
    by_cases e : c = k
    · subst e; rw [if_neg (by omega), if_pos rfl, if_pos (by simp)]; simp
    · rw [if_neg e]
      by_cases d : k + 1 ≤ c ∧ c < k + 1 + l.length
      · rw [if_pos d, if_pos (by simp; omega), show c - k = (c - (k + 1)) + 1 by omega, List.getD_cons_succ]
      · rw [if_neg d, if_neg (by simp; omega)]

theorem numsOf_rates (l : List Word32) : numsOf 4 l.length (l.flatMap fun r => leBytes 4 r.toNat) = l.map BitVec.toNat := by
  unfold numsOf
  induction l with
  | nil => rfl
  | cons a l ih =>
    have t : (leBytes 4 a.toNat ++ l.flatMap fun r => leBytes 4 r.toNat).take 4 = leBytes 4 a.toNat := by
      rw [List.take_append_of_le_length (by simp [length_leBytes])]
      exact List.take_of_length_le (by simp [length_leBytes])
    have d : (leBytes 4 a.toNat ++ l.flatMap fun r => leBytes 4 r.toNat).drop 4 = l.flatMap fun r => leBytes 4 r.toNat := by
      rw [List.drop_append_of_le_length (by simp [length_leBytes])]
      rw [List.drop_of_length_le (by simp [length_leBytes]), List.nil_append]
    have e : chunks 4 (l.length + 1) (leBytes 4 a.toNat ++ l.flatMap fun r => leBytes 4 r.toNat) =
        leBytes 4 a.toNat :: chunks 4 l.length (l.flatMap fun r => leBytes 4 r.toNat) := by
      rw [← t]
      conv_rhs => rw [← d]
      rw [t]
      rfl
    rw [List.flatMap_cons, List.length_cons, e, List.map_cons, ih, leNat_32]; rfl

theorem length_rates (l : List Word32) : (l.flatMap fun r => leBytes 4 r.toNat).length = 4 * l.length := by
  induction l with
  | nil => rfl
  | cons a l ih => simp [ih, length_leBytes]; omega

theorem sees_factory {s : State} {index : Nat} (h : 0xF000 ≤ index) : s.sees index = s.faults.factory := by
  unfold State.sees
  rw [if_neg (by omega), if_neg (by omega)]
  simp; omega

/-- A write of an entry that is not there. -/
theorem replies_unseen {via : Carrier} {index sub : Nat} {b : Bytes} {c : Instr} {s : State}
    (he : exec c s = .next (accessWrite via index sub b s)) (hc : s.carrierUp via = true) (hs : s.sees index = false) (h0 : sub ≠ 0) :
    Replies via index sub 1 0 c s s := by
  refine replies_write he hc (w := refusedAt 1 s) ?_ rfl rfl (Noted.refl s)
  unfold writeEntry State.entry
  rw [if_neg h0, hs]; rfl

theorem covers_counters {i : Nat} (hi : i < 0x140) : (dictionary.filter fun e => e.covers (0x5100 + i)) = [entCounter] := by
  have a : ∀ e ∈ dictionary, (e.lo ≤ 0x5100 ∧ 0x523F ≤ e.hi) ∨ (e.hi < 0x5100 ∨ 0x523F < e.lo) := by
    have : ((dictionary.map fun e => (e.lo, e.hi)).all fun x => (decide (x.1 ≤ 0x5100) && decide (0x523F ≤ x.2)) || (decide (x.2 < 0x5100) || decide (0x523F < x.1))) = true := rfl
    intro e he
    have := (List.all_eq_true.1 this) _ (List.mem_map_of_mem he)
    simpa using this
  have b : (dictionary.filter fun e => e.covers (0x5100 + i)) = dictionary.filter fun e => e.covers 0x5100 := by
    refine List.filter_congr fun e he => ?_
    have := a e he
    unfold Ent.covers
    rw [Bool.eq_iff_iff]
    simp only [Bool.and_eq_true, decide_eq_true_eq]
    omega
  rw [b]; rfl

theorem covers_configs {i : Nat} (hi : i < 0x140) : (dictionary.filter fun e => e.covers (0x5300 + i)) = [entCounterCfg] := by
  have a : ∀ e ∈ dictionary, (e.lo ≤ 0x5300 ∧ 0x543F ≤ e.hi) ∨ (e.hi < 0x5300 ∨ 0x543F < e.lo) := by
    have : ((dictionary.map fun e => (e.lo, e.hi)).all fun x => (decide (x.1 ≤ 0x5300) && decide (0x543F ≤ x.2)) || (decide (x.2 < 0x5300) || decide (0x543F < x.1))) = true := rfl
    intro e he
    have := (List.all_eq_true.1 this) _ (List.mem_map_of_mem he)
    simpa using this
  have b : (dictionary.filter fun e => e.covers (0x5300 + i)) = dictionary.filter fun e => e.covers 0x5300 := by
    refine List.filter_congr fun e he => ?_
    have := a e he
    unfold Ent.covers
    rw [Bool.eq_iff_iff]
    simp only [Bool.and_eq_true, decide_eq_true_eq]
    omega
  rw [b]; rfl

theorem take8_bytes (a : Word64) (l : Words) : (bytesOf (a :: l)).take 8 = leBytes 8 a.toNat ∧ (bytesOf (a :: l)).drop 8 = bytesOf l := by
  have e : bytesOf (a :: l) = leBytes 8 a.toNat ++ bytesOf l := rfl
  rw [e]
  refine ⟨?_, ?_⟩
  · rw [List.take_append_of_le_length (by simp [length_leBytes])]
    exact List.take_of_length_le (by simp [length_leBytes])
  · rw [List.drop_append_of_le_length (by simp [length_leBytes])]
    rw [List.drop_of_length_le (by simp [length_leBytes]), List.nil_append]

theorem wordsOf_bytes (l : Words) : wordsOf l.length (bytesOf l) = l := by
  induction l with
  | nil => rfl
  | cons a l ih =>
    rw [List.length_cons, wordsOf, (take8_bytes a l).1, (take8_bytes a l).2, ih, leNat_64, ofNat_64]

theorem wordsOf_bytes4 (a b c d : Word64) : wordsOf 4 (bytesOf [a, b, c, d]) = [a, b, c, d] := wordsOf_bytes [a, b, c, d]

theorem serve_eq {p : SpdmPort} {level : Nat} {run : State → State} {s : State} (h1 : s.spdmUp p = true) (h2 : s.ident.pufState = 2)
    (h3 : s.faults.factory = false) (h4 : level ≤ tget 0 s.ident.negotiated (portNum p)) : spdmServe p level run s = run s := by
  unfold spdmServe
  rw [if_neg (by simp [h1]), if_neg (by simp [h2, h3]), if_neg (by unfold State.spdmLevel; omega)]

theorem serve_refuses {p : SpdmPort} {level : Nat} {run : State → State} {s : State} :
    (s.spdmUp p = false → spdmServe p level run s = s) ∧
    (s.spdmUp p = true → s.ident.pufState ≠ 2 ∨ s.faults.factory = true → spdmServe p level run s = spdmSay p (spdmError 5) s) ∧
    (s.spdmUp p = true → s.ident.pufState = 2 → s.faults.factory = false → tget 0 s.ident.negotiated (portNum p) < level →
      spdmServe p level run s = spdmSay p (spdmError 4) s) := by
  unfold spdmServe
  refine ⟨fun h => by rw [if_pos (by simp [h])], fun h h2 => by rw [if_neg (by simp [h]), if_pos h2]; rfl, fun h h2 h3 h4 => ?_⟩
  rw [if_neg (by simp [h]), if_neg (by simp [h2, h3]), if_pos (by unfold State.spdmLevel; omega)]; rfl

theorem signed_cases {p : SpdmPort} {flash : Bool} {sent : Bytes} {msg : State → Bytes} {more : State → State} {s : State} :
    (s.ident.code ≠ 0 → spdmSigned p flash sent msg more s = spdmSay p (spdmError 5) s) ∧
    (s.ident.code = 0 → s.ident.maxRate ≤ s.signedLately.length → spdmSigned p flash sent msg more s = spdmSay p (spdmError 3) s) ∧
    (s.ident.code = 0 → s.signedLately.length < s.ident.maxRate →
      (let body := fun (s : State) => msg s ++ s.freeNonce
       let sign := fun (s : State) => more (spdmSay p (body s ++ fit 18469 (Config.attestSign s.ident.seed (s.ident.leafNext - 1) (sent ++ body s)))
         (s.modHub fun h => { h with freeUsed := h.freeUsed + 4 }))
       (s.ident.leafNext ≠ s.ident.leafLimit → spdmSigned p flash sent msg more s = sign (takeLeaf s).2) ∧
       (s.ident.leafNext = s.ident.leafLimit → s.ident.leafLimit < 2 ^ 40 → flash = true →
         spdmSigned p flash sent msg more s = sign (takeLeaf (newRecord s)).2) ∧
       (s.ident.leafNext = s.ident.leafLimit → 2 ^ 40 ≤ s.ident.leafLimit ∨ flash = false →
         spdmSigned p flash sent msg more s = spdmSay p (spdmError 5) (signingStops s)))) := by
  unfold spdmSigned signLeaf
  refine ⟨fun h => by rw [if_pos h]; rfl, fun h h2 => by rw [if_neg (by simp [h]), if_pos h2]; rfl, fun h h2 => ⟨fun h3 => ?_, fun h3 h4 h5 => ?_, fun h3 h4 => ?_⟩⟩
  · rw [if_neg (by simp [h]), if_neg (by omega), if_pos h3]; rfl
  · rw [if_neg (by simp [h]), if_neg (by omega), if_neg (by simp [h3]), if_neg (by simp [h5]; omega)]; rfl
  · rw [if_neg (by simp [h]), if_neg (by omega), if_neg (by simp [h3]), if_pos (by simpa using h4)]; rfl

/-- IDE_STATE with bit b written. -/
def ideBit (b : Nat) (on : Bool) (x : Byte) : Byte := if on then x ||| BitVec.ofNat 8 (2 ^ b) else x &&& ~~~(BitVec.ofNat 8 (2 ^ b))

theorem getLsbD_ideBit (b : Nat) (on : Bool) (x : Byte) {i : Nat} (hi : i < 8) :
    (ideBit b on x).getLsbD i = if i = b then on else x.getLsbD i := by
  unfold ideBit
  have e : (BitVec.ofNat 8 (2 ^ b)).getLsbD i = decide (i = b) := by
    rw [BitVec.getLsbD_ofNat, Nat.testBit_two_pow]; simp only [hi, decide_true, Bool.true_and]
    exact decide_eq_decide.2 ⟨Eq.symm, Eq.symm⟩
  cases on
  · simp only [Bool.false_eq_true, ↓reduceIte, BitVec.getLsbD_and, BitVec.getLsbD_not, hi, decide_true, Bool.true_and, e]
    by_cases c : i = b <;> simp [c]
  · simp only [↓reduceIte, BitVec.getLsbD_or, e]
    by_cases c : i = b <;> simp [c]

/-- An answered read that is refused. -/
theorem replies_read {via : Carrier} {index sub : Nat} {c : Instr} {s : State} {r : Nat} (he : exec c s = .next (accessRead via index sub s))
    (hc : s.answersRead via index = true) (hr : r ≠ 0) (k : readEntry index sub 0 s = ⟨r, [], s⟩) : Replies via index sub r 0 c s s := by
  refine ⟨_, he, ?_⟩
  unfold accessRead readRecord
  rw [if_pos hc, k]
  dsimp only
  rw [answer_eq]
  have e : noteAccess via index sub r 0 false s = accessed via index sub r 0 (countEv idHub 7 3 1 { priv := 1 } s) := by
    unfold noteAccess Safety.accessed State.modHost
    dsimp only
    rw [if_pos hr, if_neg hr]
  rw [e]
  exact (Safety.Noted.accessed (noted_countEv ..) ..).answered ..

theorem reads_read {via : Carrier} {index sub : Nat} {b : Bytes} {c : Instr} {s u : State} (he : exec c s = .next (accessRead via index sub s))
    (hc : s.answersRead via index = true) (k : readEntry index sub 0 s = ⟨0, b, u⟩) : Reads via index sub b c s u := by
  refine ⟨_, he, ?_⟩
  unfold accessRead readRecord
  rw [if_pos hc, k]
  dsimp only
  rw [answer_eq, noteAccess_read]
  exact (noted_countEv ..).answered ..

theorem readAll_flatten (via : Carrier) (es : List (Nat × Nat)) (j : Nat) (a : Bytes × State) :
    ∃ rs : List Bytes, rs.length = es.length ∧
      ((es.zipIdx j).foldl (fun a (e, j) => let r := readRecord via e.1 e.2 j a.2; (a.1 ++ r.1, r.2)) a).1 = a.1 ++ rs.flatten := by
  induction es generalizing j a with
  | nil => exact ⟨[], rfl, by simp⟩
  | cons e es ih =>
    obtain ⟨rs, h1, h2⟩ := ih (j + 1) (a.1 ++ (readRecord via e.1 e.2 j a.2).1, (readRecord via e.1 e.2 j a.2).2)
    refine ⟨(readRecord via e.1 e.2 j a.2).1 :: rs, by simp [h1], ?_⟩
    rw [List.zipIdx_cons, List.foldl_cons]
    refine h2.trans ?_
    simp

end Sys2Proof
end

