-- ==== Sys2Proof/Machine/Bch.lean ====
section
/-! DEFINITION. The page code (R255, R256) and the check region of a stack (R253, R254) as the pages imply them: a binary BCH code over
GF(2^16), systematic and shortened to 32,768 data bits. A polynomial over GF(2) is the number whose bit k is its coefficient of x^k. -/

namespace Sys2Proof.Machine

/-- p(x) = x^16 + x^12 + x^3 + x + 1 (R255). -/
def bchField : Nat := 0x1100B

/-- a times x in GF(2^16). -/
def gfDouble (a : Nat) : Nat := if 2 ^ 15 ≤ a then 2 * a ^^^ bchField else 2 * a

/-- The product of two elements of GF(2^16), over the n low bits of the second. -/
def gfMulBits (a : Nat) : Nat → Nat → Nat
  | 0, _ => 0
  | n + 1, b => (if b % 2 = 1 then a else 0) ^^^ gfMulBits (gfDouble a) n (b / 2)
def gfMul (a b : Nat) : Nat := gfMulBits a 16 b

/-- α^k, α being the root x of p(x). -/
def gfPow : Nat → Nat
  | 0 => 1
  | k + 1 => gfDouble (gfPow k)

/-- A polynomial over GF(2^16), lowest coefficient first, times (x + b). -/
def timesRoot (b : Nat) (p : List Nat) : List Nat :=
  List.zipWith (· ^^^ ·) (0 :: p) (p.map (gfMul b) ++ [0])

/-- The product of (x + c) over n conjugates of b: b, b^2, b^4, …. -/
def conjugates : Nat → Nat → List Nat → List Nat
  | 0, _, p => p
  | n + 1, b, p => conjugates n (gfMul b b) (timesRoot b p)

/-- The minimal polynomial of α^k over GF(2), where α^k has 16 conjugates. -/
def minPoly (k : Nat) : Nat :=
  let p := conjugates 16 (gfPow k) [1]
  packBits (fun i => p.getD i 0 ≠ 0) p.length

/-- The product of two polynomials over GF(2), over the n low coefficients of the second. -/
def polyMul (a : Nat) : Nat → Nat → Nat
  | 0, _ => 0
  | n + 1, b => (if b % 2 = 1 then a else 0) ^^^ polyMul (2 * a) n (b / 2)

/-- g(x) for strength t: the product of the minimal polynomials of α^1, α^3, …, α^(2t − 1), which differ (R255). -/
def genPoly : Nat → Nat
  | 0 => 1
  | t + 1 => polyMul (genPoly t) 17 (minPoly (2 * t + 1))

/-- One step of the division by g, of degree n: the remainder after a further data bit. -/
def divStep (g n r : Nat) (d : Bool) : Nat :=
  let top := (r / 2 ^ (n - 1) % 2 = 1) ^^ d
  (2 * r % 2 ^ n) ^^^ (if top then g % 2 ^ n else 0)

/-- The bits of a byte in the order of a page's bits: lowest first. -/
def byteBits (b : Byte) : List Bool := (List.range 8).map b.getLsbD

/-- r(x) = x^16t d(x) mod g(x), where bit i of the page is the coefficient of x^(32,767 − i) (R255). -/
def checkPoly (t : Nat) (page : Bytes) : Nat :=
  let g := genPoly t
  (page.flatMap byteBits).foldl (divStep g (16 * t)) 0

/-- The check word of a page: coefficient j of r(x) as bit j mod 8 of byte j div 8 of its slot; 2t bytes (R255, R256). -/
def checkWord (t : Nat) (page : Bytes) : Bytes := leBytes (2 * t) (checkPoly t page)

/-! ### The check region (R253, R254) -/

/-- The check slot of what a page number's cells hold: the check word that was written with them, with the flips of its bits; bytes past it
are never written. -/
def checkSlot (s : State) (t pg : Nat) : Bytes :=
  fit 128 (flipBytes ((s.page pg).errs / 2 ^ 32768) 0 (checkWord t (memRead s.mem (4096 * pg) 4096)))

/-- A page-state map entry (R254). -/
def Page.nibble (p : Page) : Nat :=
  (if p.poison then 8 else 0) + (if p.pointer then 4 else 0) +
    (match p.kind with | .free => 0 | .reserved => 1 | .published => 2 | .retiring => 3)

/-- Where the check slot of page p lies, where its map entry does, and where spare page j and its check slot do (R253). -/
def checkSlotAt (p : Nat) : Nat := 128 * p
def mapEntryAt (p : Nat) : Nat := 0x7C000000 + p / 2
def sparePageAt (j : Nat) : Nat := 0x7C800000 + 4096 * j
def spareSlotAt (j : Nat) : Nat := 0x7C810000 + 128 * j

/-- Byte a of the check region of stack m (R253). -/
def State.checkByte (s : State) (m a : Nat) : Byte :=
  let t := (s.stack m).codeTInUse
  let page := fun p => 2 ^ 24 * m + p
  if a < 0x7C000000 then (checkSlot s t (page (a / 128))).getD (a % 128) 0
  else if a < 0x7C7C0000 then
    let p := 2 * (a - 0x7C000000)
    BitVec.ofNat 8 ((s.page (page p)).nibble + 16 * (s.page (page (p + 1))).nibble)
  else if a < 0x7C800000 then 0
  else if a < 0x7C810000 then memGet s.mem (4096 * sparePage m 0 + (a - 0x7C800000))
  else if a < 0x7C810800 then (checkSlot s t (sparePage m ((a - 0x7C810000) / 128))).getD (a % 128) 0
  else 0

end Sys2Proof.Machine
end

