-- ==== Sys2Proof/Laws/Bch.lean ====
section
/-! SUPPORT. Lemmas about the page code (R255): an all-zero page has an all-zero check word. -/

namespace Sys2Proof.Machine

theorem divStep_zero (g n : Nat) : divStep g n 0 false = 0 := by simp [divStep]

theorem divSteps_zero (g n : Nat) (l : List Bool) (h : ∀ b ∈ l, b = false) : l.foldl (divStep g n) 0 = 0 := by
  induction l with
  | nil => rfl
  | cons b l ih =>
    rw [List.foldl_cons, h b (List.mem_cons_self ..), divStep_zero]
    exact ih fun c hc => h c (List.mem_cons_of_mem _ hc)

/-- So a check region filled with zeros holds valid codewords (R255). -/
theorem checkPoly_zeros (t n : Nat) : checkPoly t (zeros n) = 0 := by
  refine divSteps_zero _ _ _ fun b hb => ?_
  obtain ⟨x, hx, hb⟩ := List.mem_flatMap.mp hb
  obtain ⟨i, -, rfl⟩ := List.mem_map.mp hb
  simp [List.eq_of_mem_replicate hx]

end Sys2Proof.Machine
end

