-- ==== Sys2Proof/Laws/Still.lean ====
section
/-! SUPPORT. Safety.Still of everything that ends work when an island faults. -/

namespace Sys2Proof.Machine

open Safety

set_option linter.unreachableTactic false
set_option linter.unusedTactic false
set_option linter.unusedSimpArgs false

variable {s0 s : State} {α β : Type}

theorem Still.refl (s : State) : Still s s := ⟨rfl, rfl, rfl, rfl, rfl, rfl, rfl, rfl, rfl, rfl, rfl, fun w => ⟨w, fun _ => rfl⟩⟩

theorem Still.trans {s t u : State} (h : Still s t) (k : Still t u) : Still s u :=
  ⟨k.pending.trans h.pending, k.time.trans h.time, k.rings.trans h.rings, k.corpora.trans h.corpora, k.vocabs.trans h.vocabs, k.templates.trans h.templates, k.models.trans h.models, k.flash.trans h.flash, k.ident.trans h.ident, k.module.trans h.module, k.faults.trans h.faults,
   fun w => ⟨(k.islands (h.islands w).1).1, fun n => ((k.islands (h.islands w).1).2 n).trans ((h.islands w).2 n)⟩⟩

theorem Still.raw_iff {hub slots jobs publish scan texts text cores coreE mem pageMap stackT hbm clusters serving tables tableE fabric links keyring traffic placement host fw sampling} :
    Still s0 ⟨s.pending, s.time, hub, s.rings, slots, s.corpora, jobs, publish, scan, s.vocabs, s.templates, texts, text, cores, coreE, mem, pageMap, stackT, hbm, s.models, clusters, serving, tables, tableE, fabric, links, keyring, traffic, placement, host, s.flash, fw, s.ident, s.islands, s.faults, sampling, s.module⟩ ↔ Still s0 s :=
  ⟨fun h => ⟨h.1, h.2, h.3, h.4, h.5, h.6, h.7, h.8, h.9, h.10, h.11, h.12⟩,
   fun h => ⟨h.1, h.2, h.3, h.4, h.5, h.6, h.7, h.8, h.9, h.10, h.11, h.12⟩⟩

section
variable (n : Nat)
theorem Still.modSlot (h : Still s0 s) (f : Slot → Slot) : Still s0 (s.modSlot n f) := Still.raw_iff.2 h
theorem Still.modJob (h : Still s0 s) (f : Job → Job) : Still s0 (s.modJob n f) := Still.raw_iff.2 h
theorem Still.modText (h : Still s0 s) (f : TextIsland → TextIsland) : Still s0 (s.modText n f) := Still.raw_iff.2 h
theorem Still.modCore (h : Still s0 s) (f : Core → Core) : Still s0 (s.modCore n f) := Still.raw_iff.2 h
theorem Still.modPage (h : Still s0 s) (f : Page → Page) : Still s0 (s.modPage n f) := Still.raw_iff.2 h
theorem Still.modStack (h : Still s0 s) (f : Stack → Stack) : Still s0 (s.modStack n f) := Still.raw_iff.2 h
theorem Still.modCluster (h : Still s0 s) (f : Cluster → Cluster) : Still s0 (s.modCluster n f) := Still.raw_iff.2 h
theorem Still.modTable (h : Still s0 s) (f : TableSlot → TableSlot) : Still s0 (s.modTable n f) := Still.raw_iff.2 h
theorem Still.modLink (h : Still s0 s) (f : Link → Link) : Still s0 (s.modLink n f) := Still.raw_iff.2 h
theorem Still.modHub (h : Still s0 s) (f : Hub → Hub) : Still s0 (s.modHub f) := Still.raw_iff.2 h
theorem Still.modHost (h : Still s0 s) (f : HostIf → HostIf) : Still s0 (s.modHost f) := Still.raw_iff.2 h
end

theorem Still.foldBy (π : β → State) (g : β → α → β) (hg : ∀ b a, Still s0 (π b) → Still s0 (π (g b a))) (b : β) (h : Still s0 (π b))
    (l : List α) : Still s0 (π (l.foldl g b)) := by
  induction l generalizing b with
  | nil => exact h
  | cons a l ih => exact ih (g b a) (hg b a h)

theorem Still.fold (g : State → α → State) (hg : ∀ s a, Still s0 s → Still s0 (g s a)) (h : Still s0 s) (l : List α) :
    Still s0 (l.foldl g s) := Still.foldBy id g hg s h l

theorem still_fresh (s : State) (h : Still s0 s) : Still s0 s.fresh.2 := Still.modHub h fun x => { x with freeUsed := x.freeUsed + 1 }

theorem Still.foldSnd (g : β × State → α → β × State) (hg : ∀ p a, Still s0 p.2 → Still s0 (g p a).2) (p : β × State)
    (h : Still s0 p.2) (l : List α) : Still s0 (l.foldl g p).2 := Still.foldBy Prod.snd g hg p h l

/-- A change of what an island counts and samples. -/
theorem Still.modIsland (h : Still s0 s) (n : Nat) (f : Island → Island)
    (hf : ∀ x, { f x with ctrs := [], lfsr := 0, down := 0 } = { x with ctrs := [], lfsr := 0, down := 0 }) : Still s0 (s.modIsland n f) := by
  refine Still.trans h ⟨rfl, rfl, rfl, rfl, rfl, rfl, rfl, rfl, rfl, rfl, rfl, fun w => ⟨by rw [modIsland_islands]; exact twf_tmod w _ _, fun k => ?_⟩⟩
  by_cases hk : k = n
  · subst hk; rw [island_modIsland _ _ _ w]; exact hf _
  · rw [island_modIsland_ne _ _ _ _ hk]

theorem still_pushHistory (e s) (h : Still s0 s) : Still s0 (pushHistory e s) := by
  unfold pushHistory
  dsimp only
  split
  · exact h
  · exact ⟨h.1, h.2, h.3, h.4, h.5, h.6, h.7, h.8, h.9, h.10, h.11, h.12⟩

theorem still_notable (island ev detail s) (h : Still s0 s) : Still s0 (notable island ev detail s) := by
  unfold notable
  split
  · exact still_pushHistory _ _ h
  · exact h

theorem still_fireVector (v s) (h2 : Still s0 s) : Still s0 (fireVector v s) := by
  unfold fireVector
  repeat' with_reducible first
    | assumption | apply Still.modHost | intro _ | apply Still.fold | apply Still.foldSnd | simp only [Still.raw_iff] | split
    | dsimp only

theorem still_raiseEvent (kind index sub value s) (h5 : Still s0 s) : Still s0 (raiseEvent kind index sub value s) := by
  unfold raiseEvent
  repeat' with_reducible first
    | assumption | apply Still.modHost | apply still_fireVector | intro _ | apply Still.fold | apply Still.foldSnd
    | simp only [Still.raw_iff] | split | dsimp only

theorem still_bumpCtr (i c n s) (h4 : Still s0 s) : Still s0 (bumpCtr i c n s) := by
  unfold bumpCtr
  repeat' with_reducible first
    | assumption | refine Still.modIsland ?_ _ _ (fun _ => rfl) | apply still_raiseEvent | intro _ | apply Still.fold
    | apply Still.foldSnd | simp only [Still.raw_iff] | split | dsimp only

theorem still_countEv (i cls ev n a s) (h6 : Still s0 s) : Still s0 (countEv i cls ev n a s) := by
  unfold countEv
  repeat' with_reducible first
    | assumption | apply still_bumpCtr | intro _ | apply Still.fold | apply Still.foldSnd | simp only [Still.raw_iff] | split
    | dsimp only

theorem still_hostWrite (addr bs s) (h3 : Still s0 s) : Still s0 (hostWrite addr bs s) := by
  unfold hostWrite
  repeat' with_reducible first
    | assumption | apply Still.modHost | apply still_countEv | intro _ | apply Still.fold | apply Still.foldSnd
    | simp only [Still.raw_iff] | split | dsimp only

theorem still_writeMirror (n a1 s) (h3 : Still s0 s) : Still s0 (writeMirror n a1 s) := by
  unfold writeMirror
  repeat' with_reducible first
    | assumption | apply still_hostWrite | apply Still.modSlot | intro _ | apply Still.fold | apply Still.foldSnd
    | simp only [Still.raw_iff] | split | dsimp only

theorem still_changeStatus (n force f s) (h4 : Still s0 s) : Still s0 (changeStatus n force f s) := by
  unfold changeStatus
  repeat' with_reducible first
    | assumption | apply Still.modSlot | apply still_writeMirror | intro _ | apply Still.fold | apply Still.foldSnd
    | simp only [Still.raw_iff] | split | dsimp only

theorem still_dropRows (pg s) (h2 : Still s0 s) : Still s0 (dropRows pg s) := by
  unfold dropRows
  repeat' with_reducible first
    | assumption | apply Still.modStack | intro _ | apply Still.fold | apply Still.foldSnd | simp only [Still.raw_iff] | split
    | dsimp only

theorem still_putCells (pg bs s) (h3 : Still s0 s) : Still s0 (putCells pg bs s) := by
  unfold putCells
  repeat' with_reducible first
    | assumption | apply Still.modPage | intro _ | apply Still.fold | apply Still.foldSnd | simp only [Still.raw_iff] | split
    | dsimp only

theorem still_freePage (pg s) (h2 : Still s0 s) : Still s0 (freePage pg s) := by
  unfold freePage
  repeat' with_reducible first
    | assumption | apply still_dropRows | apply Still.modPage | apply still_putCells | intro _ | apply Still.fold | apply Still.foldSnd
    | simp only [Still.raw_iff] | split | dsimp only

theorem still_freeSeq (q s) (h2 : Still s0 s) : Still s0 (freeSeq q s) := by
  unfold freeSeq
  repeat' with_reducible first
    | assumption | apply still_freePage | intro _ | apply Still.fold | apply Still.foldSnd | simp only [Still.raw_iff] | split
    | dsimp only

theorem still_dropSeqs (slot masks s) (h3 : Still s0 s) : Still s0 (dropSeqs slot masks s) := by
  unfold dropSeqs
  repeat' with_reducible first
    | assumption | apply still_fresh | apply still_freeSeq | intro _ | apply Still.fold | apply Still.foldSnd | simp only [Still.raw_iff]
    | split | dsimp only

theorem still_chargeWait (m s) (h2 : Still s0 s) : Still s0 (chargeWait m s) := by
  unfold chargeWait
  repeat' with_reducible first
    | assumption | apply still_fresh | apply Still.modCore | intro _ | apply Still.fold | apply Still.foldSnd | simp only [Still.raw_iff]
    | split | dsimp only

theorem still_dropInbound (k q s) (h3 : Still s0 s) : Still s0 (dropInbound k q s) := by
  unfold dropInbound
  repeat' with_reducible first
    | assumption | apply Still.modCore | apply still_chargeWait | intro _ | apply Still.fold | apply Still.foldSnd
    | simp only [Still.raw_iff] | split | dsimp only

theorem still_chargeFreeze (k s) (h2 : Still s0 s) : Still s0 (chargeFreeze k s) := by
  unfold chargeFreeze
  repeat' with_reducible first
    | assumption | apply still_fresh | apply Still.modCore | intro _ | apply Still.fold | apply Still.foldSnd | simp only [Still.raw_iff]
    | split | dsimp only

theorem still_modFabric (f s) (h2 : Still s0 s) : Still s0 (modFabric f s) := by
  unfold modFabric
  repeat' with_reducible first
    | assumption | intro _ | apply Still.fold | apply Still.foldSnd | simp only [Still.raw_iff] | split | dsimp only

theorem still_drawInterval (i s) (h2 : Still s0 s) : Still s0 (drawInterval i s) := by
  unfold drawInterval
  repeat' with_reducible first
    | assumption | refine Still.modIsland ?_ _ _ (fun _ => rfl) | intro _ | apply Still.fold | apply Still.foldSnd
    | simp only [Still.raw_iff] | split | dsimp only

theorem still_settleCore (k s) (h2 : Still s0 s) : Still s0 (settleCore k s) := by
  unfold settleCore
  repeat' with_reducible first
    | assumption | apply still_drawInterval | apply Still.modCore | intro _ | apply Still.fold | apply Still.foldSnd
    | simp only [Still.raw_iff] | split | dsimp only

theorem still_addSample (r s) (h2 : Still s0 s) : Still s0 (addSample r s) := by
  unfold addSample
  repeat' with_reducible first
    | assumption | intro _ | apply Still.fold | apply Still.foldSnd | simp only [Still.raw_iff] | split | dsimp only

theorem still_sampleEnd (k commit s) (h3 : Still s0 s) : Still s0 (sampleEnd k commit s) := by
  unfold sampleEnd
  repeat' with_reducible first
    | assumption | apply still_settleCore | apply Still.modCore | apply still_addSample | intro _ | apply Still.fold | apply Still.foldSnd
    | simp only [Still.raw_iff] | split | dsimp only

theorem still_killAt (k pos s) (h3 : Still s0 s) : Still s0 (killAt k pos s) := by
  unfold killAt
  repeat' with_reducible first
    | assumption | apply still_dropInbound | apply still_chargeWait | apply still_chargeFreeze | apply still_modFabric
    | apply still_sampleEnd | apply still_countEv | apply Still.modCore | intro _ | apply Still.fold | apply Still.foldSnd
    | simp only [Still.raw_iff] | split | dsimp only

theorem still_dropCmds (a0 s) (h2 : Still s0 s) : Still s0 (dropCmds a0 s) := by
  unfold dropCmds
  repeat' with_reducible first
    | assumption | apply still_killAt | intro _ | apply Still.fold | apply Still.foldSnd | simp only [Still.raw_iff] | split | dsimp only

theorem still_dropScanReqs (p s) (h2 : Still s0 s) : Still s0 (dropScanReqs p s) := by
  unfold dropScanReqs
  repeat' with_reducible first
    | assumption | intro _ | apply Still.fold | apply Still.foldSnd | simp only [Still.raw_iff] | split | dsimp only

theorem still_killLocal (device a1 s) (h3 : Still s0 s) : Still s0 (killLocal device a1 s) := by
  unfold killLocal
  repeat' with_reducible first
    | assumption | apply still_dropCmds | apply still_dropScanReqs | intro _ | apply Still.fold | apply Still.foldSnd
    | simp only [Still.raw_iff] | split | dsimp only

theorem still_takeTag (island s) (h2 : Still s0 s) : Still s0 (takeTag island s).2 := by
  unfold takeTag
  repeat' with_reducible first
    | assumption | apply still_modFabric | intro _ | apply Still.fold | apply Still.foldSnd | simp only [Still.raw_iff] | split
    | dsimp only

theorem still_enqueue (l p s) (h3 : Still s0 s) : Still s0 (enqueue l p s) := by
  unfold enqueue
  repeat' with_reducible first
    | assumption | apply Still.modLink | intro _ | apply Still.fold | apply Still.foldSnd | simp only [Still.raw_iff] | split
    | dsimp only

theorem still_sendMsg (dst body reply tclass tenant sys island s) (h8 : Still s0 s) : Still s0 (sendMsg dst body reply tclass tenant sys island s).2 := by
  unfold sendMsg
  repeat' with_reducible first
    | assumption | apply still_modFabric | apply still_takeTag | apply still_enqueue | intro _ | apply Still.fold | apply Still.foldSnd
    | simp only [Still.raw_iff] | split | dsimp only

theorem still_sendKills (n code s) (h3 : Still s0 s) : Still s0 (sendKills n code s) := by
  unfold sendKills
  repeat' with_reducible first
    | assumption | apply still_sendMsg | intro _ | apply Still.fold | apply Still.foldSnd | simp only [Still.raw_iff] | split
    | dsimp only

theorem still_countEnd (n s) (h2 : Still s0 s) : Still s0 (countEnd n s) := by
  unfold countEnd
  repeat' with_reducible first
    | assumption | apply Still.modHub | intro _ | apply Still.fold | apply Still.foldSnd | simp only [Still.raw_iff] | split | dsimp only

theorem still_settleHub (s) (h1 : Still s0 s) : Still s0 (settleHub s) := by
  unfold settleHub
  repeat' with_reducible first
    | assumption | apply still_drawInterval | apply Still.modSlot | intro _ | apply Still.fold | apply Still.foldSnd
    | simp only [Still.raw_iff] | split | dsimp only

theorem still_sampleRequest (n s) (h2 : Still s0 s) : Still s0 (sampleRequest n s) := by
  unfold sampleRequest
  repeat' with_reducible first
    | assumption | apply still_settleHub | apply still_addSample | intro _ | apply Still.fold | apply Still.foldSnd
    | simp only [Still.raw_iff] | split | dsimp only

theorem still_endRequest (n state code s) (h4 : Still s0 s) : Still s0 (endRequest n state code s) := by
  unfold endRequest
  repeat' with_reducible first
    | assumption | apply still_changeStatus | apply still_dropSeqs | apply still_killLocal | apply still_sendKills | apply still_modFabric
    | apply still_countEnd | apply Still.modSlot | apply still_sampleRequest | intro _ | apply Still.fold | apply Still.foldSnd
    | simp only [Still.raw_iff] | split | dsimp only

theorem still_failRequest (a0 code s) (h3 : Still s0 s) : Still s0 (failRequest a0 code s) := by
  unfold failRequest
  repeat' with_reducible first
    | assumption | apply still_endRequest | intro _ | apply Still.fold | apply Still.foldSnd | simp only [Still.raw_iff] | split
    | dsimp only

theorem still_forgetHomes (k first count s) (h4 : Still s0 s) : Still s0 (forgetHomes k first count s) := by
  unfold forgetHomes
  repeat' with_reducible first
    | assumption | intro _ | apply Still.fold | apply Still.foldSnd | simp only [Still.raw_iff] | split | dsimp only

theorem still_countRequeue (s) (h1 : Still s0 s) : Still s0 (countRequeue s) := by
  unfold countRequeue
  repeat' with_reducible first
    | assumption | intro _ | apply Still.fold | apply Still.foldSnd | simp only [Still.raw_iff] | split | dsimp only

theorem still_requeueAt (k pos f s) (h4 : Still s0 s) : Still s0 (requeueAt k pos f s) := by
  unfold requeueAt
  repeat' with_reducible first
    | assumption | apply Still.modCluster | apply still_killAt | intro _ | apply Still.fold | apply Still.foldSnd
    | simp only [Still.raw_iff] | split | dsimp only

theorem still_requeueCore (k s) (h2 : Still s0 s) : Still s0 (requeueCore k s) := by
  unfold requeueCore
  repeat' with_reducible first
    | assumption | apply still_forgetHomes | apply still_countRequeue | apply still_requeueAt | intro _ | apply Still.fold
    | apply Still.foldSnd | simp only [Still.raw_iff] | split | dsimp only

theorem still_modKeyring (f s) (h2 : Still s0 s) : Still s0 (modKeyring f s) := by
  unfold modKeyring
  repeat' with_reducible first
    | assumption | intro _ | apply Still.fold | apply Still.foldSnd | simp only [Still.raw_iff] | split | dsimp only

theorem still_releasePins (n s) (h2 : Still s0 s) : Still s0 (releasePins n s) := by
  unfold releasePins
  repeat' with_reducible first
    | assumption | apply still_modKeyring | intro _ | apply Still.fold | apply Still.foldSnd | simp only [Still.raw_iff] | split
    | dsimp only

theorem still_noteReady (old new) (h2 : Still s0 new) : Still s0 (noteReady old new) := by
  unfold noteReady
  repeat' with_reducible first
    | assumption | apply still_raiseEvent | intro _ | apply Still.fold | apply Still.foldSnd | simp only [Still.raw_iff] | split
    | dsimp only

theorem still_noteFn (index n a b old new) (h6 : Still s0 new) : Still s0 (noteFn index n a b old new) := by
  unfold noteFn
  repeat' with_reducible first
    | assumption | apply still_noteReady | apply still_raiseEvent | intro _ | apply Still.fold | apply Still.foldSnd
    | simp only [Still.raw_iff] | split | dsimp only

theorem still_setClusterFn (n v s) (h3 : Still s0 s) : Still s0 (setClusterFn n v s) := by
  unfold setClusterFn
  repeat' with_reducible first
    | assumption | apply still_noteFn | apply Still.modCluster | intro _ | apply Still.fold | apply Still.foldSnd
    | simp only [Still.raw_iff] | split | dsimp only

theorem still_clusterOff (n s) (h2 : Still s0 s) : Still s0 (clusterOff n s) := by
  unfold clusterOff
  repeat' with_reducible first
    | assumption | apply Still.modCore | apply still_releasePins | apply still_setClusterFn | apply Still.modCluster | intro _
    | apply Still.fold | apply Still.foldSnd | simp only [Still.raw_iff] | split | dsimp only

theorem still_holdCluster (n s) (h2 : Still s0 s) : Still s0 (holdCluster n s) := by
  unfold holdCluster
  repeat' with_reducible first
    | assumption | apply still_requeueCore | apply Still.modCluster | intro _ | apply Still.fold | apply Still.foldSnd
    | simp only [Still.raw_iff] | split | dsimp only

theorem still_dropJobAccesses (n a1) (h2 : Still s0 a1) : Still s0 (dropJobAccesses n a1) := by
  unfold dropJobAccesses
  repeat' with_reducible first
    | assumption | apply still_modFabric | intro _ | apply Still.fold | apply Still.foldSnd | simp only [Still.raw_iff] | split
    | dsimp only

theorem still_orphanPages (d s) (h2 : Still s0 s) : Still s0 (orphanPages d s) := by
  unfold orphanPages
  repeat' with_reducible first
    | assumption | apply Still.modPage | intro _ | apply Still.fold | apply Still.foldSnd | simp only [Still.raw_iff] | split
    | dsimp only

theorem still_endOp (n code s) (h3 : Still s0 s) : Still s0 (endOp n code s) := by
  unfold endOp
  repeat' with_reducible first
    | assumption | apply still_dropJobAccesses | apply Still.modJob | apply still_orphanPages | intro _ | apply Still.fold
    | apply Still.foldSnd | simp only [Still.raw_iff] | split | dsimp only

theorem still_noteJob (n s) (h2 : Still s0 s) : Still s0 (noteJob n s) := by
  unfold noteJob
  repeat' with_reducible first
    | assumption | apply still_raiseEvent | intro _ | apply Still.fold | apply Still.foldSnd | simp only [Still.raw_iff] | split
    | dsimp only

theorem still_endJob (n s) (h2 : Still s0 s) : Still s0 (endJob n s) := by
  unfold endJob
  repeat' with_reducible first
    | assumption | apply still_noteJob | apply Still.modJob | intro _ | apply Still.fold | apply Still.foldSnd | simp only [Still.raw_iff]
    | split | dsimp only

theorem still_failJob (n code s) (h3 : Still s0 s) : Still s0 (failJob n code s) := by
  unfold failJob
  repeat' with_reducible first
    | assumption | apply still_dropJobAccesses | apply still_noteJob | apply Still.modJob | apply still_orphanPages | intro _
    | apply Still.fold | apply Still.foldSnd | simp only [Still.raw_iff] | split | dsimp only

theorem still_stopWork (n code s) (h3 : Still s0 s) : Still s0 (stopWork n code s) := by
  unfold stopWork
  repeat' with_reducible first
    | assumption | apply still_endOp | apply still_endJob | apply still_failJob | intro _ | apply Still.fold | apply Still.foldSnd
    | simp only [Still.raw_iff] | split | dsimp only

theorem still_failJobsOf (stack code s) (h3 : Still s0 s) : Still s0 (failJobsOf stack code s) := by
  unfold failJobsOf
  repeat' with_reducible first
    | assumption | apply still_stopWork | intro _ | apply Still.fold | apply Still.foldSnd | simp only [Still.raw_iff] | split
    | dsimp only

theorem still_dropFlocks (m s) (h2 : Still s0 s) : Still s0 (dropFlocks m s) := by
  unfold dropFlocks
  repeat' with_reducible first
    | assumption | apply Still.modStack | intro _ | apply Still.fold | apply Still.foldSnd | simp only [Still.raw_iff] | split
    | dsimp only

theorem still_modHbm (f s) (h2 : Still s0 s) : Still s0 (modHbm f s) := by
  unfold modHbm
  repeat' with_reducible first
    | assumption | intro _ | apply Still.fold | apply Still.foldSnd | simp only [Still.raw_iff] | split | dsimp only

theorem still_writePage (pg pointer data s) (h4 : Still s0 s) : Still s0 (writePage pg pointer data s) := by
  unfold writePage
  repeat' with_reducible first
    | assumption | apply Still.modPage | apply still_putCells | apply Still.modStack | apply still_countEv | intro _ | apply Still.fold
    | apply Still.foldSnd | simp only [Still.raw_iff] | split | dsimp only

theorem still_acceptPage (pointer off data s) (h4 : Still s0 s) : Still s0 (acceptPage pointer off data s).2 := by
  unfold acceptPage
  repeat' with_reducible first
    | assumption | apply still_writePage | intro _ | apply Still.fold | apply Still.foldSnd | simp only [Still.raw_iff] | split
    | dsimp only

theorem still_routeOut (p s) (h2 : Still s0 s) : Still s0 (routeOut p s) := by
  unfold routeOut
  repeat' with_reducible first
    | assumption | apply still_enqueue | intro _ | apply Still.fold | apply Still.foldSnd | simp only [Still.raw_iff] | split
    | dsimp only

theorem still_servePublish (p s) (h2 : Still s0 s) : Still s0 (servePublish p s) := by
  unfold servePublish
  repeat' with_reducible first
    | assumption | apply still_modHbm | apply still_acceptPage | apply still_routeOut | intro _ | apply Still.fold | apply Still.foldSnd
    | simp only [Still.raw_iff] | split | dsimp only

theorem still_serveHeld (s) (h1 : Still s0 s) : Still s0 (serveHeld s) := by
  unfold serveHeld
  repeat' with_reducible first
    | assumption | apply still_servePublish | apply still_modHbm | intro _ | apply Still.fold | apply Still.foldSnd
    | simp only [Still.raw_iff] | split | dsimp only

theorem still_noteLong (index sub old new s) (h5 : Still s0 s) : Still s0 (noteLong index sub old new s) := by
  unfold noteLong
  repeat' with_reducible first
    | assumption | apply still_raiseEvent | intro _ | apply Still.fold | apply Still.foldSnd | simp only [Still.raw_iff] | split
    | dsimp only

theorem still_hingeDone (code s) (h2 : Still s0 s) : Still s0 (hingeDone code s) := by
  unfold hingeDone
  repeat' with_reducible first
    | assumption | apply still_noteLong | apply still_modHbm | intro _ | apply Still.fold | apply Still.foldSnd
    | simp only [Still.raw_iff] | split | dsimp only

theorem still_hingeActive (m j bad s) (h4 : Still s0 s) : Still s0 (hingeActive m j bad s) := by
  unfold hingeActive
  repeat' with_reducible first
    | assumption | apply still_serveHeld | apply still_hingeDone | apply still_notable | apply Still.modStack | intro _ | apply Still.fold
    | apply Still.foldSnd | simp only [Still.raw_iff] | split | dsimp only

theorem still_endCopyOff (m s) (h2 : Still s0 s) : Still s0 (endCopyOff m s) := by
  unfold endCopyOff
  repeat' with_reducible first
    | assumption | apply still_hingeActive | intro _ | apply Still.fold | apply Still.foldSnd | simp only [Still.raw_iff] | split
    | dsimp only

theorem still_setStackFn (n v s) (h3 : Still s0 s) : Still s0 (setStackFn n v s) := by
  unfold setStackFn
  repeat' with_reducible first
    | assumption | apply still_noteFn | apply Still.modStack | intro _ | apply Still.fold | apply Still.foldSnd
    | simp only [Still.raw_iff] | split | dsimp only

theorem still_eraseStack (n s) (h2 : Still s0 s) : Still s0 (eraseStack n s) := by
  unfold eraseStack
  repeat' with_reducible first
    | assumption | intro _ | apply Still.fold | apply Still.foldSnd | simp only [Still.raw_iff] | split | dsimp only

theorem still_stackOff (m s) (h2 : Still s0 s) : Still s0 (stackOff m s) := by
  unfold stackOff
  repeat' with_reducible first
    | assumption | apply still_endCopyOff | apply still_setStackFn | apply Still.modStack | apply still_eraseStack | intro _
    | apply Still.fold | apply Still.foldSnd | simp only [Still.raw_iff] | split | dsimp only

theorem still_moveOut (l s) (h2 : Still s0 s) : Still s0 (moveOut l s) := by
  unfold moveOut
  repeat' with_reducible first
    | assumption | apply Still.modLink | apply still_routeOut | intro _ | apply Still.fold | apply Still.foldSnd
    | simp only [Still.raw_iff] | split | dsimp only

theorem still_setLinkFn (n v s) (h3 : Still s0 s) : Still s0 (setLinkFn n v s) := by
  unfold setLinkFn
  repeat' with_reducible first
    | assumption | apply still_noteFn | apply Still.modLink | intro _ | apply Still.fold | apply Still.foldSnd | simp only [Still.raw_iff]
    | split | dsimp only

theorem still_setTextFn (n v s) (h3 : Still s0 s) : Still s0 (setTextFn n v s) := by
  unfold setTextFn
  repeat' with_reducible first
    | assumption | apply still_noteFn | apply Still.modText | intro _ | apply Still.fold | apply Still.foldSnd | simp only [Still.raw_iff]
    | split | dsimp only

theorem still_setFwFn (v s) (h2 : Still s0 s) : Still s0 (setFwFn v s) := by
  unfold setFwFn
  repeat' with_reducible first
    | assumption | apply still_noteFn | intro _ | apply Still.fold | apply Still.foldSnd | simp only [Still.raw_iff] | split | dsimp only

theorem still_failReceipt (code s) (h2 : Still s0 s) : Still s0 (failReceipt code s) := by
  unfold failReceipt
  repeat' with_reducible first
    | assumption | apply still_raiseEvent | apply still_setFwFn | intro _ | apply Still.fold | apply Still.foldSnd
    | simp only [Still.raw_iff] | split | dsimp only

theorem still_hostCut (s) (h1 : Still s0 s) : Still s0 (hostCut s) := by
  unfold hostCut
  repeat' with_reducible first
    | assumption | apply still_failReceipt | apply still_fresh | apply Still.modSlot | intro _ | apply Still.fold | apply Still.foldSnd
    | simp only [Still.raw_iff] | split | dsimp only

theorem still_contain (i slip s) (h3 : Still s0 s) : Still s0 (contain i slip s) := by
  unfold contain
  repeat' with_reducible first
    | assumption | apply still_failRequest | apply still_killAt | apply still_requeueCore | apply still_modFabric | apply still_clusterOff
    | apply still_holdCluster | apply still_setClusterFn | apply still_releasePins | apply still_failJobsOf | apply still_dropFlocks
    | apply still_stackOff | apply still_setStackFn | apply Still.modStack | apply still_moveOut | apply still_setLinkFn
    | apply Still.modLink | apply still_setTextFn | apply Still.modText | apply still_hostCut | apply still_noteReady | apply Still.modHost
    | intro _ | apply Still.fold | apply Still.foldSnd | simp only [Still.raw_iff] | split | dsimp only

theorem still_textOff (n s) (h2 : Still s0 s) : Still s0 (textOff n s) := by
  unfold textOff
  repeat' with_reducible first
    | assumption | apply still_setTextFn | apply Still.modText | intro _ | apply Still.fold | apply Still.foldSnd
    | simp only [Still.raw_iff] | split | dsimp only

theorem still_functionOff (i s) (h2 : Still s0 s) : Still s0 (functionOff i s) := by
  unfold functionOff
  repeat' with_reducible first
    | assumption | apply still_clusterOff | apply still_stackOff | apply still_textOff | apply still_setLinkFn | intro _
    | apply Still.fold | apply Still.foldSnd | simp only [Still.raw_iff] | split | dsimp only

theorem still_modRegions (k p f s) (h4 : Still s0 s) : Still s0 (modRegions k p f s) := by
  unfold modRegions
  repeat' with_reducible first
    | assumption | apply Still.modCore | intro _ | apply Still.fold | apply Still.foldSnd | simp only [Still.raw_iff] | split
    | dsimp only

theorem still_steps (l : List α) (f : α → State → Word16 × State) (hf : ∀ a s, Still s0 s → Still s0 (f a s).2) (s : State) (h : Still s0 s) :
    Still s0 (steps l f s).2 := by
  unfold steps
  refine Still.foldSnd _ (fun p a hp => ?_) _ h _
  split
  · exact hp
  · exact hf _ _ hp

theorem still_countCorrected (i n s) (h3 : Still s0 s) : Still s0 (countCorrected i n s) := by
  unfold countCorrected
  repeat' with_reducible first
    | assumption | apply still_bumpCtr | intro _ | apply Still.fold | apply Still.foldSnd | simp only [Still.raw_iff] | split
    | dsimp only

theorem still_touchPage (k off n s) (h4 : Still s0 s) : Still s0 (touchPage k off n s) := by
  unfold touchPage
  repeat' with_reducible first
    | assumption | apply still_notable | apply still_modHbm | apply Still.modPage | apply still_countCorrected | apply Still.modStack
    | intro _ | apply Still.fold | apply Still.foldSnd | simp only [Still.raw_iff] | split | dsimp only

theorem still_touch (ranges s) (h2 : Still s0 s) : Still s0 (touch ranges s) := by
  unfold touch
  repeat' with_reducible first
    | assumption | apply still_countEv | apply still_touchPage | apply Still.modHub | intro _ | apply Still.fold | apply Still.foldSnd
    | simp only [Still.raw_iff] | split | dsimp only

theorem still_checkReads (ranges s) (h2 : Still s0 s) : Still s0 (checkReads ranges s) := by
  unfold checkReads
  repeat' with_reducible first
    | assumption | apply still_touch | intro _ | apply Still.fold | apply Still.foldSnd | simp only [Still.raw_iff] | split | dsimp only

theorem still_loadImage (n c ks asked off p s) (h7 : Still s0 s) : Still s0 (loadImage n c ks asked off p s).2 := by
  unfold loadImage
  repeat' with_reducible first
    | assumption | apply still_checkReads | apply still_touch | apply still_modRegions | apply Still.modCore | intro _ | apply Still.fold
    | apply Still.foldSnd | simp only [Still.raw_iff] | split | dsimp only

theorem still_decodeRow (k r s) (h3 : Still s0 s) : Still s0 (decodeRow k r s) := by
  unfold decodeRow
  repeat' with_reducible first
    | assumption | apply Still.modCore | apply still_countCorrected | apply still_notable | intro _ | apply Still.fold
    | apply Still.foldSnd | simp only [Still.raw_iff] | split | dsimp only

theorem still_writeRow (k a m s) (h4 : Still s0 s) : Still s0 (writeRow k a m s) := by
  unfold writeRow
  repeat' with_reducible first
    | assumption | apply still_decodeRow | apply Still.modCore | intro _ | apply Still.fold | apply Still.foldSnd
    | simp only [Still.raw_iff] | split | dsimp only

theorem still_spadWrite (k a m s) (h4 : Still s0 s) : Still s0 (spadWrite k a m s) := by
  unfold spadWrite
  repeat' with_reducible first
    | assumption | apply still_writeRow | intro _ | apply Still.fold | apply Still.foldSnd | simp only [Still.raw_iff] | split
    | dsimp only

theorem still_loadShard (n k s) (h3 : Still s0 s) : Still s0 (loadShard n k s).2 := by
  unfold loadShard
  repeat' with_reducible first
    | assumption | apply still_checkReads | apply Still.modCore | apply still_spadWrite | apply still_touch | intro _ | apply Still.fold
    | apply Still.foldSnd | simp only [Still.raw_iff] | split | dsimp only

theorem still_loadCores (n c ks asked s) (h : Still s0 s) : Still s0 (loadCores n c ks asked s).2 := by
  unfold loadCores
  have h1 := still_steps ((mdlImages (s.modelHead n)).zip (s.model n).programs) (fun p s => loadImage n c ks asked p.1 p.2 s)
    (fun p s => still_loadImage n c ks asked p.1 p.2 s) s h
  split
  · next e =>
    rw [e] at h1
    exact still_steps _ _ (fun k s => still_loadShard n k s) _ h1
  · exact h1

theorem still_reloadOn (n ks s) (h : Still s0 s) : Still s0 (reloadOn n ks s) := by
  unfold reloadOn
  have hp : ∀ (m : Nat) (f : Region → Region) (s : State), Still s0 s →
      Still s0 (ks.foldl (fun s k => (s.model m).programs.foldl (fun s p => modRegions k p f s) s) s) :=
    fun m f s h => Still.fold _ (fun s k h => Still.fold _ (fun s p h => still_modRegions k p f s h) h _) h _
  refine Still.fold _ (fun s m h => ?_) h _
  have h1 := still_loadCores m n ks false _ (hp m (fun r => { r with park := true }) s h)
  dsimp only
  split
  · next e => rw [e] at h1; exact h1
  · next e => rw [e] at h1; exact hp _ _ _ h1

theorem still_returnCore (k s) (h2 : Still s0 s) : Still s0 (returnCore k s) := by
  unfold returnCore
  repeat' with_reducible first
    | assumption | apply still_reloadOn | apply Still.modCore | intro _ | apply Still.fold | apply Still.foldSnd
    | simp only [Still.raw_iff] | split | dsimp only


end Sys2Proof.Machine
end

