-- ==== Sys2Proof/Laws/Contained.lean ====
section
/-! SUPPORT. Laws of raising a fault, of what the host link holds, and of the power limiter. -/

namespace Sys2Proof

open Machine Safety

theorem noted_sendPending (v : Nat) (s : State) : Noted s (sendPending v s) := by
  unfold sendPending
  split
  · refine Noted.trans ?_ (noted_fireVector v _)
    exact ⟨fun _ => rfl, ⟨_, _, _, _, _, rfl⟩⟩
  · exact Noted.refl s

theorem twf_modIsland {s : State} (h : twf {} s.islands = true) (n : Nat) (f : Island → Island) : twf {} (s.modIsland n f).islands = true := twf_tmod h n f

theorem modIsland_modIsland {s : State} (h : twf {} s.islands = true) (n : Nat) (f g : Island → Island) :
    (s.modIsland n f).modIsland n g = s.modIsland n fun x => g (f x) := by
  simp only [State.modIsland]
  rw [tmod_tmod h]

theorem island_modIsland_eq {s : State} (h : twf {} s.islands = true) (n m : Nat) (f : Island → Island) :
    (s.modIsland n f).island m = if m = n then f (s.island n) else s.island m := by
  simp only [State.island, State.modIsland, tmod]; rw [tget_tset h]

theorem modIsland_congr {s : State} {n : Nat} {f g : Island → Island} (h : f (s.island n) = g (s.island n)) : s.modIsland n f = s.modIsland n g := by
  simp only [State.modIsland, tmod]; rw [show tget {} s.islands n = s.island n from rfl, h]

theorem Still_of_eq {a b t : State} (h : Still a t) (e : a = b) : Still b t := e ▸ h

/-- A fault raised in an island of a device that runs. -/
theorem faulted_raiseFault (i : Nat) (code : Word16) (detail : Word32) (addr : Word64) (s : State) (ha : s.alive = true) (hi : islandType i ≠ none)
    (hw : twf {} s.islands = true) : Faulted i code detail addr s (raiseFault i code detail addr s) := by
  unfold raiseFault
  rw [if_neg (by simp [ha, hi])]
  dsimp only
  generalize hu : ({ s with faults := { s.faults with notices := s.faults.notices ++ [⟨s.timeAt i, i, code, detail, addr, s.time⟩] } } : State) = u
  have huw : twf {} u.islands = true := by rw [← hu]; exact hw
  generalize hv : (u.modIsland i fun x => { x with faults := x.faults + 1, times := x.times ++ [s.time], lastCode := code }) = v
  have hvw : twf {} v.islands = true := by rw [← hv]; exact twf_modIsland huw ..
  have step : ∀ (c d : Prop) [Decidable c] [Decidable d] (u : State) (g : Stack → Stack),
      let w := if d then (if c then { u with coreE := { u.coreE with stateResets := u.coreE.stateResets + 1 } } else u).modStack (i - 0x110) g
        else if c then { u with coreE := { u.coreE with stateResets := u.coreE.stateResets + 1 } } else u
      w.islands = u.islands ∧ Still u w ∧ ∀ f, Still (u.modIsland i f) (w.modIsland i f) := by
    intro c d _ _ u g
    dsimp only
    split <;> split <;> exact ⟨rfl, (Still.raw_iff (s := u)).2 (Still.refl _), fun f => (Still.raw_iff (s := u.modIsland i f)).2 (Still.refl _)⟩
  obtain ⟨wi, kv0, kv⟩ := step (code = 0x830 ∧ i ≠ idHub ∧ ((s.island i).service = .serving ∨ ((v.island i).service = .returning ∧ s.fnStarting i = true)))
    (code = 0x831) v fun t => { t with fromOff := true }
  generalize (if code = 0x831 then State.modStack _ (i - 0x110) fun t => { t with fromOff := true } else _ : State) = w at wi kv0 kv ⊢
  have e1 : (w.island i).service = (s.island i).service := by
    have : w.island i = v.island i := by unfold State.island; rw [wi]
    rw [this, ← hv, island_modIsland_eq huw, if_pos rfl, ← hu]; rfl
  unfold Faulted
  dsimp only
  rw [hu]
  refine ⟨fun h => ?_, fun h => ?_⟩
  · have e : (u.modIsland i fun x => { x with faults := x.faults + 1, times := x.times ++ [s.time], lastCode := code, service := .safe, wasStarting := s.fnStarting i }) =
        v.modIsland i fun x => { x with service := .safe, wasStarting := s.fnStarting i } := by
      rw [← hv, modIsland_modIsland huw]
    rw [e]
    by_cases c : (s.island i).service = .serving
    · rw [if_pos c]
      exact Still.trans (kv _) (still_contain _ _ _ (Still.refl _))
    · rw [if_neg c]
      have h' := h.resolve_left c
      rw [if_pos ⟨by rw [e1]; exact h'.1, h'.2⟩]
      refine Still.trans (kv _) ?_
      rw [h'.2]; exact Still.refl _
  · rw [hv]
    have c : (s.island i).service ≠ .serving := fun c => h (.inl c)
    rw [if_neg c, if_neg (by rw [e1]; exact fun c2 => h (.inr c2))]
    exact kv0

theorem linkState_hostWrite (a : Nat) (bs : Bytes) (s : State) : (hostWrite a bs s).host.linkState = s.host.linkState := by
  unfold hostWrite
  split
  · split <;> rfl
  · split
    · rfl
    · obtain ⟨_, _, _, _, _, _, e⟩ := noted_countEv idHost 5 2 (linesOf a bs.length) {} (s.modHost fun h => { h with hostMem := memWrite h.hostMem a bs })
      rw [e]; rfl

theorem linkState_failReceipt (code : Word16) (s : State) : (failReceipt code s).host.linkState = s.host.linkState := by
  unfold failReceipt
  obtain ⟨_, _, _, _, _, _, e⟩ := (noted_setFwFn .off { s with fw := { s.fw with phase := 5, code := code, owner := none, fetching := none } }).trans
    (noted_raiseEvent 2 0x8000 2 (code.toNat + s.fw.received.length % 2 ^ 8 * 2 ^ 24) _)
  rw [e]

theorem linkState_hostCut (s : State) : (hostCut s).host.linkState = s.host.linkState := by
  unfold hostCut
  dsimp only
  have h : ∀ (l : List Nat) (u : State), (l.foldl (fun s n => s.fresh.2.modSlot n fun x => { x with cut := bit s.fresh.1 0 }) u).host.linkState = u.host.linkState := by
    intro l
    induction l with
    | nil => intro u; rfl
    | cons a l ih => intro u; rw [List.foldl_cons, ih]; rfl
  refine Eq.trans (h _ _) ?_
  split
  · exact linkState_failReceipt _ _
  · rfl

/-- A fault says the same of a state as of what stands still beside it. -/
theorem faulted_of_still {s u t : State} (k : Still s u) (hw : twf {} s.islands = true) (i : Nat) (code : Word16) (detail : Word32) (addr : Word64)
    (hf : u.fnStarting i = s.fnStarting i) (h : Faulted i code detail addr u t) : Faulted i code detail addr s t := by
  have g := (k.islands hw).2
  have uw := (k.islands hw).1
  have es : (u.island i).service = (s.island i).service := by have := congrArg Island.service (g i); simpa using this
  have eo : (u.island i).offset = (s.island i).offset := by have := congrArg Island.offset (g i); simpa using this
  have et : u.timeAt i = s.timeAt i := by unfold State.timeAt; rw [eo, k.time]
  have key : ∀ f : Island → Island, (∀ x, { f x with ctrs := [], lfsr := 0, down := 0 } = { f { x with ctrs := [], lfsr := 0, down := 0 } with ctrs := [], lfsr := 0, down := 0 }) →
      Still ({ s with faults := { s.faults with notices := s.faults.notices ++ [(⟨s.timeAt i, i, code, detail, addr, s.time⟩ : FaultRec)] } }.modIsland i f)
        ({ u with time := s.time, faults := { u.faults with notices := u.faults.notices ++ [(⟨s.timeAt i, i, code, detail, addr, s.time⟩ : FaultRec)] } }.modIsland i f) := by
    intro f hf
    have fe := congrArg Faults.notices k.faults
    refine ⟨k.pending, rfl, k.rings, k.corpora, k.vocabs, k.templates, k.models, k.flash, k.ident, k.module, ?_, fun w => ⟨twf_tmod uw _ _, fun m => ?_⟩⟩
    · have := k.faults
      simp only at fe
      rw [fe]
      exact congrArg (fun f : Faults => { f with notices := s.faults.notices ++ [(⟨s.timeAt i, i, code, detail, addr, s.time⟩ : FaultRec)] }) this
    · show ({ (State.island { u with islands := tmod {} u.islands i f } m) with ctrs := [], lfsr := 0, down := 0 } : Island) = { (State.island { s with islands := tmod {} s.islands i f } m) with ctrs := [], lfsr := 0, down := 0 }
      have a1 := island_modIsland_eq uw i m f
      have a2 := island_modIsland_eq hw i m f
      simp only [State.modIsland] at a1 a2
      rw [a1, a2]
      split
      · rw [hf, g i, ← hf]
      · exact g m
  unfold Faulted at *
  dsimp only at *
  rw [es, et, hf, k.time] at h
  exact ⟨fun c => Still.trans (key _ (by intro x; rfl)) (h.1 c), fun c => Still.trans (key _ (by intro x; rfl)) (h.2 c)⟩

theorem noted_sendPending_sent {s : State} (h : s.hostUp = true) (v : Nat) (hm : tget false s.host.unmasked v = true) :
    (sendPending v s).host.sentMsi = if tget false s.host.pendingV v then tset 0 s.host.sentMsi v (tget 0 s.host.sentMsi v + 1) else s.host.sentMsi := by
  unfold sendPending
  split
  · unfold fireVector State.modHost
    dsimp only
    split
    · rfl
    · next c => exact absurd (by rw [hm]; exact h) c
  · rfl

/-- One report of the power limiter, from the values it brings. -/
def limiterStep (m : Machine.Module) : Machine.Module :=
  if m.triggered then { m with fraction := min 48 (m.fraction + 1), sinceLower := 0 }
  else if 9 ≤ m.sinceLower then { m with fraction := m.fraction - 1, sinceLower := 0 }
  else { m with sinceLower := m.sinceLower + 1 }

theorem limiterStep_spec (m : Machine.Module) : (limiterStep m).p1 = m.p1 ∧ (limiterStep m).p100 = m.p100 ∧ (limiterStep m).inputMv = m.inputMv ∧
    (limiterStep m).peak = m.peak ∧ (limiterStep m).over1200 = m.over1200 ∧
    (let hot := 1400 < m.p1 ∨ 1000 ≤ m.over1200 ∨ 1200 < m.p100
     (hot → (limiterStep m).fraction = min 48 (m.fraction + 1) ∧ (limiterStep m).sinceLower = 0) ∧
     (¬ hot → 9 ≤ m.sinceLower → (limiterStep m).fraction = m.fraction - 1 ∧ (limiterStep m).sinceLower = 0) ∧
     (¬ hot → m.sinceLower < 9 → (limiterStep m).fraction = m.fraction ∧ (limiterStep m).sinceLower = m.sinceLower + 1)) := by
  have et : m.triggered = true ↔ (1400 < m.p1 ∨ 1000 ≤ m.over1200 ∨ 1200 < m.p100) := by
    unfold Module.triggered; simp [or_assoc]
  unfold limiterStep
  by_cases c : 1400 < m.p1 ∨ 1000 ≤ m.over1200 ∨ 1200 < m.p100
  · rw [if_pos (et.2 c)]
    exact ⟨rfl, rfl, rfl, rfl, rfl, fun _ => ⟨rfl, rfl⟩, fun hn => absurd c hn, fun hn => absurd c hn⟩
  · rw [if_neg (fun h => c (et.1 h))]
    by_cases c9 : 9 ≤ m.sinceLower
    · rw [if_pos c9]
      exact ⟨rfl, rfl, rfl, rfl, rfl, fun hn => absurd hn c, fun _ _ => ⟨rfl, rfl⟩, fun _ h9 => absurd c9 (by omega)⟩
    · rw [if_neg c9]
      exact ⟨rfl, rfl, rfl, rfl, rfl, fun hn => absurd hn c, fun _ h9 => absurd h9 (by omega), fun _ _ => ⟨rfl, rfl⟩⟩

theorem events_fireVector (v : Nat) (s : State) : (fireVector v s).host.events = s.host.events := by
  unfold fireVector; simp only [State.modHost]; split <;> rfl

end Sys2Proof
end

