-- ==== Sys2Proof/Laws/Links.lean ====
section
/-! SUPPORT. What arrival, retraining, timeouts and kills do at the links, each said once. -/

namespace Sys2Proof
open Machine Safety

theorem receive_eq (l : Nat) (p : Packet) (s : State) (h : s.linkServes l = true) :
    ∃ u, Noted s u ∧ receive l p s = if seqOk (s.link l) p then
      (true, takeAck l p.lack (u.modLink l fun k => { k with rxSeq := p.lseq + 1, ackOwed := true, discarding := false }))
    else if (s.link l).discarding then (false, u)
    else (false, sendControl l ⟨none, some (s.link l).rxSeq, []⟩ (u.modLink l fun k => { k with discarding := true })) := by
  refine ⟨_, noted_countEv (linkIsland l) 4 2 p.wire { engine := some (l % 4), tenant := some p.tenant } s, ?_⟩
  unfold receive
  dsimp only
  rw [if_neg]
  unfold State.linkServes at h
  simp only [Bool.and_eq_true, Bool.or_eq_true, decide_eq_true_eq] at h
  simp [h]
  exact fun h' => h.1.resolve_left h'

theorem Safety.Noted.takeAck {s t : State} (h : Noted s t) (l : Nat) (a : Word16) : Noted (takeAck l a s) (takeAck l a t) := by
  have et : t.time = s.time := by obtain ⟨_, _, _, _, _, _, e⟩ := h; rw [e]
  unfold Machine.takeAck
  rw [et]
  exact h.modLink ..

theorem Safety.Noted.sendControl {s t : State} (h : Noted s t) (l : Nat) (c : LinkCtl) : Noted (sendControl l c s) (sendControl l c t) := h.modLink ..

theorem Safety.Noted.returnCredit {s t : State} (h : Noted s t) (l : Nat) (p : Packet) : Noted (returnCredit l p s) (returnCredit l p t) := h.sendControl ..

/-- The colour a policer gives a packet, and the policers after it. -/
def policed (l : Nat) (p : Packet) (t : Traffic) (now : Word64) : Nat × Traffic :=
  let pol := tget 255 t.map p.src
  let r := tget {} t.policers pol
  let b := tget {} t.buckets (bucketKey (l / 4) pol)
  let b := if b.used then b else fullBucket r.w1 now
  let m := meter r.w0 r.w1 b now 1024 1000 (tget 0 t.colours p.tclass) (p.wire * 1024)
  (m.1, { t with
    policers := tmod {} t.policers pol fun x => x.counted m.1
    buckets := tset {} t.buckets (bucketKey (l / 4) pol) m.2 })

theorem police_eq (l : Nat) (p : Packet) (s : State) : police l p s =
    if p.vc = 1 ∨ tget 255 s.traffic.map p.src = 255 then (true, s)
    else if (policed l p s.traffic s.time).1 = clRed then
      (false, countEv (linkIsland l) 4 6 1 { engine := some (l % 4), tenant := some p.tenant } { s with traffic := (policed l p s.traffic s.time).2 })
    else (true, { s with traffic := (policed l p s.traffic s.time).2 }) := rfl

theorem Safety.Noted.police {s t : State} (h : Noted s t) (l : Nat) (p : Packet) : (police l p t).1 = (police l p s).1 ∧ Noted (police l p s).2 (police l p t).2 := by
  obtain ⟨i, isl, ev, el, pv, sm, e⟩ := h
  have e1 : t.traffic = s.traffic := by rw [e]
  have e2 : t.time = s.time := by rw [e]
  rw [police_eq l p s, police_eq l p t, e1, e2]
  by_cases c0 : p.vc = 1 ∨ tget 255 s.traffic.map p.src = 255
  · rw [if_pos c0, if_pos c0]; exact ⟨rfl, i, ⟨isl, ev, el, pv, sm, e⟩⟩
  · rw [if_neg c0, if_neg c0]
    have n : Noted { s with traffic := (policed l p s.traffic s.time).2 } { t with time := s.time, traffic := (policed l p s.traffic s.time).2 } :=
      ⟨i, ⟨isl, ev, el, pv, sm, by generalize (policed l p s.traffic s.time).2 = x; rw [e]⟩⟩
    by_cases c1 : (policed l p s.traffic s.time).1 = clRed
    · rw [if_pos c1, if_pos c1]
      exact ⟨rfl, (noted_countEv ..).symm.trans (n.trans (noted_countEv ..))⟩
    · rw [if_neg c1, if_neg c1]; exact ⟨rfl, n⟩

theorem police_fst {s t : State} (l : Nat) (p : Packet) (e1 : t.traffic = s.traffic) (e2 : t.time = s.time) : (police l p t).1 = (police l p s).1 := by
  rw [police_eq l p s, police_eq l p t, e1, e2]
  by_cases c0 : p.vc = 1 ∨ tget 255 s.traffic.map p.src = 255
  · rw [if_pos c0, if_pos c0]
  · rw [if_neg c0, if_neg c0]
    by_cases c1 : (policed l p s.traffic s.time).1 = clRed
    · rw [if_pos c1, if_pos c1]
    · rw [if_neg c1, if_neg c1]

theorem noted_fabric {s t : State} (h : Noted s t) : t.fabric = s.fabric := by obtain ⟨_, _, _, _, _, _, e⟩ := h; rw [e]

theorem fabric_police (l : Nat) (p : Packet) (s : State) : (police l p s).2.fabric = s.fabric := by
  rw [police_eq]
  split
  · rfl
  · split
    · exact (noted_fabric (noted_countEv (linkIsland l) 4 6 1 { engine := some (l % 4), tenant := some p.tenant } { s with traffic := (policed l p s.traffic s.time).2 })).trans rfl
    · rfl

/-- arrive by what the link makes of the packet. -/
theorem arrive_eq (ty l : Nat) (p : Packet) (serve : State → State) (s : State) (h : s.linkServes l = true) (ht : p.type = ty) :
    (seqOk (s.link l) p = false → Noted (if (s.link l).discarding then s
        else sendControl l ⟨none, some (s.link l).rxSeq, []⟩ (s.modLink l fun k => { k with discarding := true })) (arrive ty l p serve s)) ∧
    (seqOk (s.link l) p = true → (police l p s).1 = false → Noted (packetTaken l p s) (arrive ty l p serve s)) ∧
    (seqOk (s.link l) p = true → (police l p s).1 = true → ∃ u, Noted (packetTaken l p s) u ∧
      arrive ty l p serve s = if p.dst = s.deviceId then serve u else forward p u) := by
  obtain ⟨u, hu, e⟩ := receive_eq l p s h
  have ea : arrive ty l p serve s = if (receive l p s).1 = false then (receive l p s).2 else
      if (police l p (receive l p s).2).1 = false then returnCredit l p (police l p (receive l p s).2).2
      else if p.dst ≠ (returnCredit l p (police l p (receive l p s).2).2).deviceId then forward p (returnCredit l p (police l p (receive l p s).2).2)
      else serve (returnCredit l p (police l p (receive l p s).2).2) := by
    unfold arrive
    rw [if_neg (by simp [ht])]
    dsimp only
    cases (receive l p s).1 <;> cases (police l p (receive l p s).2).1 <;> simp
  rw [ea, e]
  refine ⟨fun hs => ?_, fun hs hp => ?_, fun hs hp => ?_⟩
  · have hs0 : ¬ seqOk (s.link l) p = true := by rw [hs]; simp
    rw [if_neg hs0]
    by_cases c : (s.link l).discarding = true
    · rw [if_pos c, if_pos c, if_pos rfl]; exact hu
    · rw [if_neg c, if_neg c, if_pos rfl]; exact (hu.modLink l _).sendControl l _
  all_goals
    have n1 := (hu.modLink l fun k => { k with rxSeq := p.lseq + 1, ackOwed := true, discarding := false }).takeAck l p.lack
    obtain ⟨e1, n2⟩ := n1.police l p
    have ep := police_fst (s := s) (t := takeAck l p.lack (s.modLink l fun k => { k with rxSeq := p.lseq + 1, ackOwed := true, discarding := false })) l p rfl rfl
    rw [ep] at e1
    have n3 := n2.returnCredit l p
    rw [if_pos hs, if_neg (by simp)]
  · rw [if_pos (by rw [e1, hp])]
    exact n3
  · rw [if_neg (by rw [e1, hp]; simp)]
    refine ⟨_, n3, ?_⟩
    have ed : (returnCredit l p (police l p (takeAck l p.lack (u.modLink l fun k => { k with rxSeq := p.lseq + 1, ackOwed := true, discarding := false }))).2).deviceId = s.deviceId := by
      have h1 : (returnCredit l p (police l p (takeAck l p.lack (u.modLink l fun k => { k with rxSeq := p.lseq + 1, ackOwed := true, discarding := false }))).2).fabric = u.fabric :=
        fabric_police ..
      have h2 : u.fabric = s.fabric := by obtain ⟨_, _, _, _, _, _, e⟩ := hu; rw [e]
      unfold State.deviceId; rw [h1, h2]
    rw [ed]
    by_cases c : p.dst = s.deviceId <;> simp [c]

theorem tmod_id {α : Type} [DecidableEq α] {d : α} {t : Table α} (h : twf d t = true) (k : Nat) : tmod d t k (fun x => x) = t := by
  refine twf_ext (twf_tmod h ..) h fun j => ?_
  by_cases c : j = k
  · subst c; rw [tget_tmod_self h]
  · rw [tget_tmod_of_ne c]

theorem modLink_modLink {s : State} (h : twf {} s.links = true) (n : Nat) (f g : Link → Link) :
    (s.modLink n f).modLink n g = s.modLink n fun x => g (f x) := by
  simp only [State.modLink]
  rw [tmod_tmod h]

theorem modLink_id {s : State} (h : twf {} s.links = true) (n : Nat) : (s.modLink n fun x => x) = s := by
  simp only [State.modLink]
  rw [tmod_id h]

/-- A notable event changes the history alone. -/
theorem notable_history (i ev d : Nat) (s : State) : ∃ h, notable i ev d s = { s with faults := { s.faults with history := h } } := by
  unfold notable pushHistory
  split
  · dsimp only
    split
    · exact ⟨s.faults.history, rfl⟩
    · exact ⟨_, rfl⟩
  · exact ⟨s.faults.history, rfl⟩

/-- What killing a command on a core leaves alone: the clock, the scan islands and the fabric but for accesses and misses. -/
def beside (s : State) : Word64 × Fabric × Scan := (s.time, { s.fabric with accesses := [], misses := [] }, s.scan)

theorem beside_noted {s t : State} (h : Noted s t) : beside t = beside s := by
  obtain ⟨_, _, _, _, _, _, e⟩ := h; rw [e]; rfl

theorem beside_sampleEnd (k : Nat) (c : Option Word64) (s : State) : beside (sampleEnd k c s) = beside s := by
  have h0 : beside (settleCore k s) = beside s := by unfold settleCore; split <;> rfl
  unfold sampleEnd
  exact (foldl_keeps beside (fun (s : State) (x : ConfSample) => addSample (x.words k c) s) (fun _ _ => rfl) _ _).trans h0

theorem beside_chargeWait (m : MoveRun) (s : State) : beside (chargeWait m s) = beside s := by
  unfold chargeWait; split <;> rfl

theorem beside_chargeFreeze (k : Nat) (s : State) : beside (chargeFreeze k s) = beside s := by
  unfold chargeFreeze; split <;> rfl

theorem beside_dropInbound (k : Nat) (q : CoreCmd) (s : State) : beside (dropInbound k q s) = beside s := by
  unfold dropInbound
  refine foldl_keeps beside _ (fun s j => ?_) _ _
  split
  · exact foldl_keeps beside _ (fun s m => beside_chargeWait m s) _ _
  · rfl

/-- Killing a command leaves the clock, the scan islands and the kill notices alone. -/
theorem beside_killAt (k pos : Nat) (s : State) : beside (killAt k pos s) = beside s := by
  unfold killAt
  split
  · rfl
  · dsimp only
    refine (beside_noted (noted_countEv ..)).trans ?_
    refine Eq.trans ?_ (beside_dropInbound k ‹_› s)
    generalize dropInbound k _ s = u
    split
    · refine (foldl_keeps beside _ (fun s m => beside_chargeWait m s) _ _).trans ((beside_chargeFreeze ..).trans ?_)
      exact Eq.trans (b := beside (sampleEnd k none u)) rfl (beside_sampleEnd ..)
    · rfl

theorem killLocal_keeps (d : Nat) (h : Word32) (s : State) : (killLocal d h s).time = s.time ∧ { (killLocal d h s).fabric with accesses := [], misses := [] } = { s.fabric with accesses := [], misses := [] } ∧
    (killLocal d h s).scan.reqs = s.scan.reqs.filter (fun r => !(r.entry = d && r.handle = h)) ∧
    (killLocal d h s).scan.penWaiting = s.scan.penWaiting.filter (fun w => !(msgHandle w = h && msgDevice w = d)) := by
  have hd : beside (dropCmds h s) = beside s :=
    Eq.trans (b := beside (((s.cmdPlaces fun q => q.cmd.handle = some h).reverse).foldl (fun s e => killAt e.1 e.2 s) s)) rfl
      (foldl_keeps beside (fun (s : State) (e : Nat × Nat) => killAt e.1 e.2 s) (fun s e => beside_killAt e.1 e.2 s) _ _)
  have hs : (dropCmds h s).scan = s.scan := congrArg (fun p => p.2.2) hd
  unfold killLocal dropScanReqs
  by_cases c : d = s.deviceId
  · rw [if_pos c]
    exact ⟨congrArg Prod.fst hd, congrArg (fun p => p.2.1) hd, by show (dropCmds h s).scan.reqs.filter _ = _; rw [hs],
      by show (dropCmds h s).scan.penWaiting.filter _ = _; rw [hs]⟩
  · rw [if_neg c]
    exact ⟨rfl, rfl, rfl, rfl⟩

theorem ite_congr_iff {α : Sort*} {P Q : Prop} [Decidable P] [Decidable Q] (h : P ↔ Q) (a b : α) : (if P then a else b) = if Q then a else b := by
  by_cases c : Q
  · rw [if_pos c, if_pos (h.2 c)]
  · rw [if_neg c, if_neg fun x => c (h.1 x)]

theorem modStack_modStack {s : State} (h : twf {} s.stackT = true) (n : Nat) (f g : Stack → Stack) :
    (s.modStack n f).modStack n g = s.modStack n fun x => g (f x) := by
  simp only [State.modStack]
  rw [tmod_tmod h]

/-- Reads of HBM change no byte of it, and no vocabulary slot. -/
theorem touch_keeps (l : List (Nat × Nat)) (s : State) : ((touch l s).mem, (touch l s).vocabs) = (s.mem, s.vocabs) := by
  let mem : State → List Host.Cell × Table Vocab := fun s => (s.mem, s.vocabs)
  have hn : ∀ i ev d s, mem (notable i ev d s) = mem s := fun i ev d s => by obtain ⟨h, e⟩ := notable_history i ev d s; rw [e]
  have hc : ∀ s t, Noted s t → mem t = mem s := fun s t h => by obtain ⟨_, _, _, _, _, _, e⟩ := h; rw [e]
  have h1 : ∀ k off n s, mem (touchPage k off n s) = mem s := by
    intro k off n s
    unfold touchPage
    dsimp only
    split
    · refine foldl_keeps mem _ (fun s i => ?_) _ _
      split
      · rw [hn]; rfl
      · rfl
    · split
      · rfl
      · split
        · rfl
        · split
          · split
            · rfl
            · rw [hn]; rfl
          · split
            · rfl
            · have hk := hc _ _ (noted_countCorrected (idMemory (stackOfPage (pageNo off))) 1 (modHbm (fun h => { h with corrected := h.corrected + 1 }) s))
              split
              · rw [hn]; exact hk
              · exact hk
  unfold touch
  dsimp only
  have h2 : ∀ (k : Nat) (r : List (Nat × Nat)), mem (r.foldl (fun s c =>
      countEv (idMemory (stackOf c.1)) 3 1 c.2 { addr := some (c.1 % 2 ^ 40, c.2) } (touchPage k c.1 c.2 s)) s) = mem s :=
    fun k r => foldl_keeps mem _ (fun s c => (hc _ _ (noted_countEv ..)).trans (h1 ..)) _ _
  split
  · exact h2 _ _
  · exact h2 _ _

theorem touch_mem (l : List (Nat × Nat)) (s : State) : (touch l s).mem = s.mem := congrArg Prod.fst (touch_keeps l s)

theorem touch_vocabs (l : List (Nat × Nat)) (s : State) : (touch l s).vocabs = s.vocabs := congrArg Prod.snd (touch_keeps l s)

/-- The address of a byte's cells follows that of the first byte of its page part. -/
theorem cellAddr_add (s : State) (off i : Nat) (h : off % 4096 + i < 4096) : s.cellAddr (off + i) = s.cellAddr off + i := by
  have e : pageNo (off + i) = pageNo off := by unfold pageNo; omega
  unfold State.cellAddr
  rw [e]
  omega

theorem cellAddr_plain (s : State) (off : Nat) (h : (s.stack (stackOf off)).hinge = []) : s.cellAddr off = off % 2 ^ 40 := by
  have e : stackOfPage (pageNo off) = stackOf off := by unfold stackOfPage pageNo stackOf; omega
  unfold State.cellAddr State.cell State.hingeOf
  rw [e, h]
  show 4096 * pageNo off + off % 4096 = _
  unfold pageNo
  omega

theorem memGet_setAll {f : Nat → Nat} {c : Nat} (bs : Bytes) (n : Nat) (hf : ∀ i, n ≤ i → i < n + bs.length → f i = c + i)
    {m : List Host.Cell} (h : memWf m = true) (b : Nat) :
    memGet ((bs.zipIdx n).foldl (fun m x => memSet m (f x.2) x.1) m) b = if c + n ≤ b ∧ b < c + n + bs.length then bs.getD (b - c - n) 0 else memGet m b := by
  induction bs generalizing n m with
  | nil => simp
  | cons v bs ih =>
    rw [List.length_cons] at hf
    rw [List.zipIdx_cons, List.foldl_cons, ih (n + 1) (fun i a d => hf i (by omega) (by omega)) (memWf_memSet h _ _), memGet_memSet h,
      hf n (Nat.le_refl _) (by omega), List.length_cons]
    by_cases c1 : b = c + n
    · subst c1; rw [if_neg (by omega), if_pos rfl, if_pos (by omega)]; simp
    · by_cases c2 : c + n ≤ b ∧ b < c + n + (bs.length + 1)
      · rw [if_pos (by omega), if_pos c2]
        obtain ⟨k, hk⟩ : ∃ k, b - c - n = k + 1 := ⟨b - c - n - 1, by omega⟩
        rw [hk, show b - c - (n + 1) = k by omega]
        rfl
      · rw [if_neg (by omega), if_neg (fun e => c1 e), if_neg c2]

/-- What bytes stored within a page leave in the cells: themselves from the place of the first one on, and the rest as it was. -/
theorem memGet_stored {s : State} (h : memWf s.mem = true) (off : Nat) (bs : Bytes) (hp : off % 4096 + bs.length ≤ 4096) (b : Nat) :
    memGet (s.stored off bs) b = if s.cellAddr off ≤ b ∧ b < s.cellAddr off + bs.length then bs.getD (b - s.cellAddr off) 0 else memGet s.mem b := by
  unfold State.stored
  split
  · rename_i e
    rw [memGet_memWrite h, cellAddr_plain s off e]
  · have := memGet_setAll (f := fun i => s.cellAddr (off + i)) (c := s.cellAddr off) bs 0 (fun i _ hi => cellAddr_add s off i (by omega)) h b
    simpa using this

theorem modLink_congr {s : State} {n : Nat} {f g : Link → Link} (h : f (s.link n) = g (s.link n)) : s.modLink n f = s.modLink n g := by
  simp only [State.modLink, tmod]; rw [show tget {} s.links n = s.link n from rfl, h]

theorem bestQueue_eq {s : State} {l q : Nat} (hq : q < 16) (h : s.eligible l q = true) (hn : ∀ j, q < j → j < 16 → s.eligible l j = false) :
    s.bestQueue l = some q := by
  unfold State.bestQueue
  have e : ((List.range 16).map (15 - ·)) = [15, 14, 13, 12, 11, 10, 9, 8, 7, 6, 5, 4, 3, 2, 1, 0] := by decide
  rw [e]
  have hn' : ∀ j, j < 16 → s.eligible l j = true → ¬ q < j := fun j a b c => by have := hn j c a; rw [b] at this; cases this
  simp only [List.find?_cons]
  interval_cases q <;> simp_all

theorem bestQueue_none {s : State} {l : Nat} (h : ∀ q < 16, s.eligible l q = false) : s.bestQueue l = none := by
  unfold State.bestQueue
  rw [List.find?_eq_none]
  intro q hq
  simp only [List.mem_map, List.mem_range] at hq
  obtain ⟨a, ha, rfl⟩ := hq
  simp [h (15 - a) (by omega)]

theorem startPacket_eq (l q : Nat) (s : State) {p : QPkt} {rest : List QPkt} (h : tget [] (s.link l).queues q = p :: rest) :
    startPacket l q s = (
      let sent := p.pkt.hdr.take 6 ++ [field 48 (s.link l).txSeq.toNat ||| field 32 ((s.link l).rxSeq - 1).toNat, 0]
      let pkt : Packet := { p.pkt with hdr := sent.take 7 ++ [BitVec.ofNat 64 (headerCrc sent)] }
      let delay := BitVec.ofNat 32 (min (2 ^ 32 - 1) (s.timeAt (linkIsland l) - p.at_).toNat)
      let longer := fun h : Word32 => if h < delay then delay else h
      let u := s.modLink l fun k => { k with
        queues := tset [] k.queues q rest
        replay := k.replay ++ [{ pkt := pkt, at_ := p.at_ }]
        lastAck := if k.replay = [] then s.time else k.lastAck
        txSeq := k.txSeq + 1
        ackOwed := false
        credits := tmod 0 k.credits q (· - pkt.cost)
        hwm := tmod 0 k.hwm q longer
        wireEnd := 100 * s.time.toNat + pkt.wire
        wireClass := some (q / 2) }
      countEv (linkIsland l) 4 1 pkt.wire { engine := some (l % 4), tenant := some pkt.tenant }
        { u with traffic := { s.traffic with classHwm := tmod 0 s.traffic.classHwm (q / 2) longer } }) := by
  unfold startPacket
  dsimp only
  rw [h]
  rfl

theorem tget_creditFold {k : Table Int} (hk : twf 0 k = true) (f : Nat → Int → Int) (l : List Nat) (hl : l.Nodup) (c : Nat) :
    tget 0 (l.foldl (fun t c => tmod 0 t c (f c)) k) c = if c ∈ l then f c (tget 0 k c) else tget 0 k c := by
  induction l generalizing k with
  | nil => simp
  | cons a l ih =>
    rw [List.foldl_cons, ih (twf_tmod hk ..) (List.nodup_cons.1 hl).2]
    by_cases e : c = a
    · subst e
      rw [if_neg (List.nodup_cons.1 hl).1, tget_tmod_self hk]; simp
    · rw [tget_tmod_of_ne e]; simp [e]

theorem getLsbD_openByte (e : Word64) {c : Nat} (hc : c < 8) : (BitVec.ofNat 8 (bits e 63 56)).getLsbD c = bit e (56 + c) := by
  unfold bits bit
  simp only [BitVec.getLsbD_ofNat, hc, decide_true, Bool.true_and]
  rw [Nat.testBit_mod_two_pow, Nat.testBit_div_two_pow, BitVec.getLsbD]
  simp only [show c < 63 + 1 - 56 from hc, decide_true, Bool.true_and]
  rw [Nat.add_comm]

theorem modCluster_modCluster {s : State} (h : twf {} s.clusters = true) (n : Nat) (f g : Cluster → Cluster) :
    (s.modCluster n f).modCluster n g = s.modCluster n fun x => g (f x) := by
  simp only [State.modCluster]
  rw [tmod_tmod h]

theorem modText_modText {s : State} (h : twf {} s.texts = true) (n : Nat) (f g : TextIsland → TextIsland) :
    (s.modText n f).modText n g = s.modText n fun x => g (f x) := by
  simp only [State.modText]
  rw [tmod_tmod h]

theorem modText_congr {s : State} {n : Nat} {f g : TextIsland → TextIsland} (h : f (s.textIsl n) = g (s.textIsl n)) :
    s.modText n f = s.modText n g := by
  simp only [State.modText, tmod]; rw [show tget {} s.texts n = s.textIsl n from rfl, h]

theorem resetCores_clusters (n : Nat) (f : Core → Core) (l : List Nat) (s : State) :
    (l.foldl (fun s i => s.modCore (16 * n + i) f) s).clusters = s.clusters := by
  induction l generalizing s with
  | nil => rfl
  | cons a l ih => rw [List.foldl_cons, ih]; rfl

theorem noted_clusterOff {s : State} (n : Nat) (h : twf {} s.clusters = true) :
    Noted (((List.range 16).foldl (fun s i => s.modCore (16 * n + i) (·.resetCore)) (releasePins n s)).modCluster n fun c =>
      { c with role := if c.role = 3 then c.target else c.role, abandon := false, fn := .off }) (clusterOff n s) := by
  unfold clusterOff
  refine Noted_of_eq (noted_setClusterFn ..) ?_
  rw [modCluster_modCluster (by rw [resetCores_clusters]; exact h)]
  rfl

/-- A stack that goes Off has erased its tier, and a copy that waits for it ends (R245, R267). -/
theorem stackOff_eq {s : State} (n : Nat) (h : twf {} s.stackT = true) :
    ∃ u, stackOff n s = endCopyOff n u ∧ Noted ((eraseStack n s).modStack n fun t => { t with
      ways := [], cms := [], lookups := 0, fromOff := true, abandon := false, fn := .off }) u := by
  refine ⟨_, rfl, Noted_of_eq (noted_setStackFn ..) ?_⟩
  simp only [State.modStack]
  rw [tmod_tmod (show twf {} (eraseStack n s).stackT = true from h)]

theorem noted_textOff {s : State} (n : Nat) (h : twf {} s.texts = true) :
    Noted (s.modText n fun t => { t with abandon := false, cache := [], fn := .off }) (textOff n s) := by
  unfold textOff
  refine Noted_of_eq (noted_setTextFn ..) ?_
  rw [modText_modText h]

end Sys2Proof
end

