-- ==== Sys2Proof/Laws/Stages.lean ====
section
/-! SUPPORT. What the stage commands and the table descriptors do, by their rows, and the lists of ranking and packing. -/

namespace Sys2Proof
open Machine Safety

theorem runStage_eq {α : Type} (n g : Nat) (serve : State → Option α) (run : α → State → State) (s : State) :
    (s.stageTurn n g = none → runStage n g serve run s = s) ∧
    (∀ v, s.stageTurn n g = some v → runStage n g serve run s = match (serve s).map run with | none => holdStage n s | some f => f v) := by
  unfold runStage
  exact ⟨fun h => by rw [h], fun v h => by rw [h]; dsimp only; cases serve s <;> rfl⟩

theorem withSnoops_ready (reads : List (Nat × Nat)) (f : State → State) (s : State)
    (h : ((!readsHost reads || s.hostPath) && s.snooped reads) = true) : withSnoops reads f s = f (clearSnoops reads s) := by
  unfold withSnoops
  simp only [Bool.and_eq_true, Bool.or_eq_true, Bool.not_eq_true'] at h
  rw [if_neg (by rcases h.1 with h | h <;> simp [h]), if_pos h.2]

theorem stageTurn_eq (s : State) (n g : Nat) (h1 : s.hubUp = true) (h2 : dOpcode (s.slot n).desc < 0x10) (h3 : s.missing n = false) :
    (s.startsStage n g = true → s.stageTurn n g =
      some (startStage n g (s.modSlot n fun x => { x with committed := false, heldSince := none, reruns := 0 }))) ∧
    (s.startsStage n g = false → s.atStage n g = true → (s.slot n).committed = false →
      s.stageTurn n g = some (s.modSlot n fun x => { x with heldSince := none })) := by
  unfold State.stageTurn
  rw [if_neg (by simp [h1, h3]; omega)]
  refine ⟨fun h => by rw [if_pos h], fun h h4 h5 => ?_⟩
  rw [if_neg (by simp [h]), if_pos (by simp [h4, h5])]

/-- What a stage command does, as its row says. -/
def RowOk (n : Nat) (s : State) (r : StageRow) : Prop := r.ready = true →
  (r.at_.stageTurn n r.stage = none → exec r.cmd s = .next r.at_) ∧
  (∀ v, r.at_.stageTurn n r.stage = some v → exec r.cmd s = .next (match r.work with
    | none => holdStage n r.at_
    | some f => f v)) ∧
  (r.at_.hubUp = true → dOpcode (r.at_.slot n).desc < 0x10 → r.at_.missing n = false →
    (r.at_.startsStage n r.stage = true → r.at_.stageTurn n r.stage =
      some (startStage n r.stage (r.at_.modSlot n fun x => { x with committed := false, heldSince := none, reruns := 0 }))) ∧
    (r.at_.startsStage n r.stage = false → r.at_.atStage n r.stage = true → (r.at_.slot n).committed = false →
      r.at_.stageTurn n r.stage = some (r.at_.modSlot n fun x => { x with heldSince := none })))

theorem rowOk {α : Type} (n g : Nat) (c : Instr) (s u : State) (rd : Bool) (serve : State → Option α) (run : α → State → State)
    (work : Option (State → State)) (h1 : rd = true → exec c s = .next (runStage n g serve run u)) (h2 : (serve u).map run = work) :
    RowOk n s ⟨g, c, u, rd, work⟩ := by
  intro h
  have h1 := h1 h
  have k := runStage_eq n g serve run u
  exact ⟨fun h => by rw [h1, k.1 h], fun v h => by rw [h1, k.2 v h, h2], stageTurn_eq u n g⟩

/-- Each of the nine stage commands does what its row says. -/
theorem stageRow_ok (n : Nat) (text ctx expr : Bytes) (remote : List Fetch) (s : State) :
    ∀ r ∈ stageRows n text ctx expr remote s, RowOk n s r := by
  intro r hr
  unfold stageRows at hr
  simp only [List.mem_cons, List.not_mem_nil, or_false] at hr
  rcases hr with rfl | rfl | rfl | rfl | rfl | rfl | rfl | rfl | rfl
  · exact rowOk n sgTokenise _ s _ _ State.textFor (tokenise n text ctx (s.startsStage n sgTokenise)) _ (fun h => congrArg Host.Outcome.next (withSnoops_ready _ _ s h)) rfl
  · refine rowOk n sgRewrite _ s _ _ (fun u => u.instFor (dGenSlot (s.slot n).desc) kindGen) _ _ (fun hd => ?_) rfl
    have e := Option.isNone_iff_eq_none.1 hd
    show Host.Outcome.next _ = _
    rw [if_neg (by rw [e]; simp)]
  · exact rowOk n sgEmbed _ s _ _ (fun v => v.instFor (dEncSlot (v.slot n).desc) kindEncoder) (fun i => runEmbed n i) _ (fun _ => rfl) rfl
  · refine rowOk n sgScan _ s _ _ (fun u => if dSharedEn (s.slot n).desc then u.clusterFor 0 (fun c => (u.cluster c).role = 1) else some 0)
      (fun _ => scan n (s.slot n).desc) _ (fun hd => ?_) ?_
    · show Host.Outcome.next _ = _
      rw [if_neg (by simp [hd])]
      rfl
    · cases hs : dSharedEn (s.slot n).desc
      · rfl
      · cases s.clusterFor 0 fun c => (s.cluster c).role = 1 <;> rfl
  · refine rowOk n sgShortlist _ s _ _ (fun u => u.rankCore 4) (fun _ => formShortlist n) _ (fun _ => rfl) ?_
    cases s.rankCore 4 <;> rfl
  · refine rowOk n sgExact _ s _ _ (fun u => if u.exactCores = [] then none else some u.exactCores) (fun cs => runExact n cs remote) _ (fun _ => rfl) ?_
    split <;> rfl
  · exact rowOk n sgCross _ s _ _ (fun v => v.instFor (dCrossSlot (v.slot n).desc) kindCross) (fun i => runCross n i remote) _ (fun _ => rfl) rfl
  · exact rowOk n sgFilter _ s _ _ (fun u => u.rankCore 6) (fun c => runFilter n c expr remote) _ (fun h => congrArg Host.Outcome.next (withSnoops_ready _ _ s h)) rfl
  · exact rowOk n sgPack _ s _ _ State.textFor (fun i => runPack n i remote) _ (fun _ => rfl) rfl

theorem insertBy_perm {α : Type} (le : α → α → Bool) (a : α) (l : List α) : (insertBy le a l).Perm (a :: l) := by
  induction l with
  | nil => exact .refl _
  | cons b l ih =>
    unfold insertBy
    split
    · exact .refl _
    · exact (ih.cons b).trans (.swap a b l)

theorem sortBy_perm {α : Type} (le : α → α → Bool) (l : List α) : (sortBy le l).Perm l := by
  induction l with
  | nil => exact .refl _
  | cons a l ih => exact (insertBy_perm le a _).trans (ih.cons a)

theorem dedupBy_nodup {α β : Type} [DecidableEq β] (f : α → β) (l : List α) : ((dedupBy f l).map f).Nodup := by
  induction l with
  | nil => simp [dedupBy]
  | cons a l ih =>
    simp only [dedupBy, List.map_cons, List.nodup_cons]
    refine ⟨?_, ?_⟩
    · simp only [List.mem_map, List.mem_filter, decide_eq_true_eq, not_exists, not_and, and_imp]
      exact fun x _ h => h
    · exact (List.Sublist.map f List.filter_sublist).nodup ih

theorem dedupBy_sublist {α β : Type} [DecidableEq β] (f : α → β) (l : List α) : (dedupBy f l).Sublist l := by
  induction l with
  | nil => exact .slnil
  | cons a l ih => exact (List.filter_sublist.trans ih).cons_cons a

theorem dedupBy_keeps {α β : Type} [DecidableEq β] (f : α → β) (l : List α) (x : α) (h : x ∈ l) : ∃ y ∈ dedupBy f l, f y = f x := by
  induction l with
  | nil => simp at h
  | cons a l ih =>
    by_cases e : f x = f a
    · exact ⟨a, by simp [dedupBy], e.symm⟩
    · rcases List.mem_cons.1 h with rfl | h
      · exact absurd rfl e
      · obtain ⟨y, hy, h2⟩ := ih h
        exact ⟨y, by simp [dedupBy, hy, h2, e], h2⟩

theorem dropCopies_step (ps : List Passage) (a : List Passage × Nat × Nat) :
    let r := ps.foldl (fun a p =>
      if a.1.any fun k => k.toks = p.toks then (a.1, a.2.1 + 1, a.2.2)
      else if a.1.any fun k => overlaps k p then (a.1, a.2.1, a.2.2 + 1)
      else (a.1 ++ [p], a.2.1, a.2.2)) a
    ((a.1.map (·.toks)).Nodup → (r.1.map (·.toks)).Nodup) ∧ r.1.length + r.2.1 + r.2.2 = a.1.length + a.2.1 + a.2.2 + ps.length ∧
      ∃ l, r.1 = a.1 ++ l ∧ l.Sublist ps := by
  induction ps generalizing a with
  | nil => exact ⟨id, rfl, [], by simp, .slnil⟩
  | cons p ps ih =>
    dsimp only [List.foldl_cons]
    split
    · obtain ⟨h1, h2, l, h3, h4⟩ := ih (a.1, a.2.1 + 1, a.2.2)
      exact ⟨h1, by simp only [List.length_cons]; dsimp only at h2; omega, l, h3, h4.cons p⟩
    · split
      · obtain ⟨h1, h2, l, h3, h4⟩ := ih (a.1, a.2.1, a.2.2 + 1)
        exact ⟨h1, by simp only [List.length_cons]; dsimp only at h2; omega, l, h3, h4.cons p⟩
      · rename_i hc _
        obtain ⟨h1, h2, l, h3, h4⟩ := ih (a.1 ++ [p], a.2.1, a.2.2)
        refine ⟨fun h => h1 ?_, by simp only [List.length_cons]; dsimp only at h2; simp only [List.length_append, List.length_singleton] at h2; omega, p :: l, by rw [h3]; simp, h4.cons_cons p⟩
        rw [List.map_append, List.nodup_append]
        refine ⟨h, by simp, ?_⟩
        simp only [List.any_eq_true, decide_eq_true_eq, not_exists, not_and] at hc
        intro x hx y hy
        simp only [List.map_cons, List.map_nil, List.mem_singleton] at hy
        subst hy
        obtain ⟨k, hk, rfl⟩ := List.mem_map.1 hx
        exact hc k hk

theorem room_append (t : Words) (l : List Placed) (p : Placed) (b : Bool) :
    room t b (l ++ [p]) = room t b l + ((if b && l = [] then 0 else (tplSep t).2) + (tplPrefix t).2 + (tplSuffix t).2 + p.body) := by
  induction l generalizing b with
  | nil => cases b <;> simp [room]
  | cons q l ih => simp [room, ih]; omega

theorem placeAll_bound (t : Words) (es : List Passage) (room_ : Nat) (got : List Placed) (hb : ∀ p ∈ got, p.body ≤ tplMaxPassage t) :
    let r := placeAll t room_ got es
    room t true r.1 ≤ room t true got + room_ ∧ r.1.length + r.2 = got.length + es.length ∧ ∀ p ∈ r.1, p.body ≤ tplMaxPassage t := by
  induction es generalizing room_ got with
  | nil => exact ⟨by simp [placeAll], by simp [placeAll], hb⟩
  | cons e es ih =>
    have hx : placeAll t room_ got (e :: es) =
        (let body := min e.toks.length (tplMaxPassage t)
        let extra := (if got = [] then 0 else (tplSep t).2) + (tplPrefix t).2 + (tplSuffix t).2
        if extra + body ≤ room_ then placeAll t (room_ - (extra + body)) (got ++ [⟨e, body⟩]) es
        else if tplFit t = 1 then ((placeAll t room_ got es).1, (placeAll t room_ got es).2 + 1)
        else if tplFit t = 2 ∧ extra + tplMinCut t ≤ room_ then (got ++ [⟨e, room_ - extra⟩], es.length)
        else (got, es.length + 1)) := rfl
    rw [hx]
    have put : ∀ b, b ≤ tplMaxPassage t → room t true (got ++ [⟨e, b⟩]) = room t true got + ((if got = [] then 0 else (tplSep t).2) + (tplPrefix t).2 + (tplSuffix t).2) + b ∧
        ∀ p ∈ got ++ [(⟨e, b⟩ : Placed)], p.body ≤ tplMaxPassage t := by
      intro b h
      constructor
      · rw [room_append]; simp only [Bool.true_and, decide_eq_true_eq]; omega
      · intro p hp
        rcases List.mem_append.1 hp with hp | hp
        · exact hb p hp
        · simp only [List.mem_singleton] at hp; subst hp; exact h
    dsimp only
    generalize (if got = [] then 0 else (tplSep t).2) + (tplPrefix t).2 + (tplSuffix t).2 = extra at put
    have hm : min e.toks.length (tplMaxPassage t) ≤ tplMaxPassage t := Nat.min_le_right _ _
    generalize min e.toks.length (tplMaxPassage t) = body at hm
    by_cases h : extra + body ≤ room_
    · rw [if_pos h]
      have k := ih (room_ - (extra + body)) (got ++ [⟨e, body⟩]) (put body hm).2
      dsimp only at k
      rw [(put body hm).1] at k
      refine ⟨?_, ?_, k.2.2⟩
      · have := k.1; omega
      · have := k.2.1; simp only [List.length_append, List.length_cons, List.length_nil] at this ⊢; omega
    · rw [if_neg h]
      have k := ih room_ got hb
      dsimp only at k
      by_cases h2 : tplFit t = 1
      · rw [if_pos h2]
        refine ⟨k.1, ?_, k.2.2⟩
        have := k.2.1; simp only [List.length_cons]; omega
      · rw [if_neg h2]
        by_cases h3 : tplFit t = 2 ∧ extra + tplMinCut t ≤ room_
        · rw [if_pos h3]
          have p := put (room_ - extra) (by omega)
          refine ⟨?_, by simp; omega, p.2⟩
          rw [p.1]; omega
        · rw [if_neg h3]
          exact ⟨Nat.le_add_right _ _, by simp, hb⟩

theorem tableDescCheck_noted {s t : State} (h : Noted s t) (d : Words) : tableDescCheck d t = tableDescCheck d s := by
  obtain ⟨_, _, _, _, _, _, e⟩ := h; rw [e]; rfl

/-- A table command whose executor is takeTable does what TableTaken says. -/
theorem taken (op n : Nat) (d : Words) (reads : List (Nat × Nat × Bytes)) (keep : List Bytes → Slot → Slot) (run : Nat → State → State)
    (c : Instr) (s : State) (hs : twf {} s.slots = true) (hc : exec c s = .next (takeTable op n d reads keep run s)) :
    TableTaken op n d reads keep run c s := by
  unfold TableTaken
  dsimp only
  generalize hr : (reads.map fun r => (r.1, r.2.1)) = ranges
  intro ho hm hk hp
  rw [hc]
  have e0 : takeTable op n d reads keep run s = if s.snooped ranges then
      (let w := clearSnoops ranges s
      let k := (w.slotFor (dTenant d)).getD 0
      let t := takeDescriptor n d (tableForm op d) (tableDescCheck d) false (tableFill d) w
      if t.hub.admitted = w.hub.admitted then t
      else
        let (code, got, t) := readHosts reads t
        let t := startStage k sgEmbed (t.modSlot k fun x => keep got { x with committed := false })
        if code ≠ 0 then failSlot k code t else run k t) else issueSnoops ranges s := by
    unfold takeTable
    rw [if_neg (by simp [ho, hk, hm]), hr]
    unfold withSnoops
    rw [if_neg]
    simp only [Bool.and_eq_true, Bool.not_eq_true', not_and, Bool.not_eq_false]
    exact hp
  rw [e0]
  refine ⟨fun h => by rw [if_neg (by simp [h])], fun u h hu hb => ?_⟩
  rw [if_pos h]
  have hw : twf {} (clearSnoops ranges s).slots = true := hs
  have hmw : (clearSnoops ranges s).mayTake n = true := hm
  generalize clearSnoops ranges s = w at *
  dsimp only
  obtain ⟨v, hv, e⟩ := takeDescriptor_eq n d (tableForm op d) (tableDescCheck d) false (tableFill d) hmw hu
  obtain ⟨au, us, fk, uh⟩ := entryRead_keeps hu
  have ec := checkCode_noted hv n d (tableForm op d) (tableDescCheck d) (tableDescCheck_noted hv d)
  have sv := hv.slotFor (dTenant d)
  have sw := slotFor_hub us fk uh (dTenant d)
  have uw : u.hub.admitted = w.hub.admitted := by rw [uh]
  rw [if_neg (by simp [hb]), ec] at e
  refine ⟨fun h1 => ?_, fun k h1 h2 h3 => ?_⟩
  · rw [if_pos h1] at e
    rw [e]
    obtain ⟨a, ce, pe, h⟩ := noted_rejectEntry hv n d (checkCode n d (tableForm op d) (tableDescCheck d) u)
    have ea : (rejectEntry n d (checkCode n d (tableForm op d) (tableDescCheck d) u) v).hub.admitted = w.hub.admitted := by
      obtain ⟨_, _, _, _, _, _, e⟩ := h
      have q : ∀ code, (rejected n d code a ce pe u).hub.admitted = u.hub.admitted := by
        intro code
        unfold rejected passEntry takeTurn State.modHub
        dsimp only [State.modRing]
        rw [hub_hostWrite]
      rw [← uw, ← q, e]
    rw [if_pos ea]
    exact ⟨_, a, ce, pe, rfl, h⟩
  · have e2 : (policeTenant n (dTenant d) v).1 = (policeTenant n (dTenant d) u).1 := by obtain ⟨_, _, _, _, _, _, e⟩ := hv; rw [e]; rfl
    rw [if_neg (by simp [h1]), sv, h2] at e
    dsimp only at e
    rw [if_neg (by rw [e2, h3]; simp)] at e
    rw [e, ← sw, h2]
    dsimp only [Option.getD]
    have a : Aside u (policeTenant n (dTenant d) v).2 := Aside.raw_iff.2 (aside_of_noted hv)
    have f1 : tableFill d (policeTenant n (dTenant d) v).2 = tableFill d u := by obtain ⟨_, _, _, _, _, _, e⟩ := hv; rw [e]; rfl
    rw [if_neg]
    · refine ⟨_, ?_, rfl⟩
      refine admitted_admitEntry a (by rw [us]; exact hw) n k d _ _ _ ?_
      rw [f1]
      unfold entrySlot
      obtain ⟨_, _, _, _, _, _, e⟩ := hv; rw [e]; rfl
    · have : (policeTenant n (dTenant d) v).2.hub.admitted = w.hub.admitted := by
        obtain ⟨_, _, _, _, _, _, e⟩ := hv; rw [e, ← uw]; rfl
      rw [admitted_count, this]
      intro c
      have := congrArg (· - w.hub.admitted) c
      simp at this

theorem modStack_congr {s : State} {n : Nat} {f g : Stack → Stack} (h : f (s.stack n) = g (s.stack n)) : s.modStack n f = s.modStack n g := by
  unfold State.modStack; rw [tmod_congr h]

theorem find_some_any {α : Type} {l : List α} {p : α → Bool} {a : α} (h : l.find? p = some a) : p a = true ∧ a ∈ l :=
  ⟨List.find?_some h, List.mem_of_find?_eq_some h⟩

theorem choose_ok (logits : List Word32) (ok : Nat → Bool) (tokens t : Nat) (h : choose logits ok tokens = some t) : t < tokens ∧ ok t = true := by
  have key : ∀ (l : List Nat) (b : Option Nat), (∀ t, b = some t → t < tokens ∧ ok t = true) → (∀ t ∈ l, t < tokens ∧ ok t = true) →
      ∀ t, l.foldl (fun best t => match best with
        | none => some t
        | some b => if selLe (canon (logits.getD b 0), b) (canon (logits.getD t 0), t) then some b else some t) b = some t → t < tokens ∧ ok t = true := by
    intro l
    induction l with
    | nil => exact fun b hb _ t h => hb t h
    | cons a l ih =>
      intro b hb hl t h
      refine ih _ ?_ (fun t ht => hl t (List.mem_cons_of_mem _ ht)) t h
      intro t ht
      cases b with
      | none => simp only [Option.some.injEq] at ht; subst ht; exact hl a (by simp)
      | some b =>
        dsimp only at ht
        split at ht
        · exact hb t ht
        · simp only [Option.some.injEq] at ht; subst ht; exact hl a (by simp)
  refine key _ none (by simp) ?_ t h
  intro t ht
  simpa using ht

theorem start_eq (kind k : Nat) (run : Words → Nat → Bool → State → State) (c : Instr) (s : State)
    (hc : exec c s = .next (startNext kind k run s)) :
    ((s.coreUp k = false ∨ (s.core k).frozen.isSome = true ∨ (s.core k).nextCfg = none) → exec c s = .next s) ∧
    (s.coreUp k = true → (s.core k).frozen = none → ∀ t w fed, (s.core k).nextCfg = some (t, w, fed) →
      (cfKind w ≠ kind → exec c s = .next s) ∧
      (cfKind w = kind →
        let u := fetched k fed s
        (u.coreUp k = false → exec c s = .next u) ∧
        (u.coreUp k = true →
          ((u.core k).slipCase w fed t = none → exec c s = .next (run w t fed u)) ∧
          (∀ case i, (u.core k).slipCase w fed t = some (case, i) → exec c s = .next (if (u.core k).slip then slipFault k case i u
            else run w t fed (abandon k w t u)))))) := by
  have e : startNext kind k run s = match (s.core k).nextCfg with
      | none => s
      | some (t, w, fed) =>
        if !s.coreUp k || (s.core k).frozen.isSome || cfKind w ≠ kind then s
        else
          let u := fetched k fed s
          if !u.coreUp k then u
          else match (u.core k).slipCase w fed t with
            | some (case, i) => if (u.core k).slip then slipFault k case i u else run w t fed (abandon k w t u)
            | none => run w t fed u := rfl
  rw [hc, e]
  refine ⟨fun h => ?_, fun h1 h2 t w fed h3 => ?_⟩
  · cases hn : (s.core k).nextCfg with
    | none => rfl
    | some p =>
      obtain ⟨t, w, fed⟩ := p
      dsimp only
      rw [if_pos]
      rcases h with h | h | h
      · simp [h]
      · simp [h]
      · rw [hn] at h; cases h
  · rw [h3]
    dsimp only
    refine ⟨fun h => by rw [if_pos (by simp [h])], fun h => ?_⟩
    rw [if_neg (by simp [h, h1, h2])]
    generalize fetched k fed s = u
    refine ⟨fun h4 => by rw [if_pos (by simp [h4])], fun h4 => ⟨fun h5 => ?_, fun case i h5 => ?_⟩⟩
    · rw [if_neg (by simp [h4]), h5]
    · rw [if_neg (by simp [h4]), h5]

theorem switches_none {s : State} {n : Nat} {e : Word32} : s.switchesPending n (some e.toNat) = 0 ↔
    ¬ ∃ j ∈ s.jobs, j.2.held = true ∧ ∃ o ∈ j.2.switches, o.scope = n + 1 ∧ o.ended = false ∧ o.epoch ≤ e := by
  unfold State.switchesPending
  have z : ∀ (l : Table Job) (a : Nat), (l.foldl (fun a e' => a + (e'.2.switches.filter fun o => o.scope = n + 1 && !o.ended &&
      decide (o.epoch.toNat ≤ e.toNat)).length) a) = 0 ↔ a = 0 ∧ ∀ j ∈ l, ∀ o ∈ j.2.switches, ¬ (o.scope = n + 1 ∧ o.ended = false ∧ o.epoch ≤ e) := by
    intro l
    induction l with
    | nil => intro a; simp
    | cons j l ih =>
      intro a
      rw [List.foldl_cons, ih]
      have q : (j.2.switches.filter fun o => o.scope = n + 1 && !o.ended && decide (o.epoch.toNat ≤ e.toNat)).length = 0 ↔
          ∀ o ∈ j.2.switches, ¬ (o.scope = n + 1 ∧ o.ended = false ∧ o.epoch ≤ e) := by
        rw [List.length_eq_zero_iff, List.filter_eq_nil_iff]
        simp only [Bool.and_eq_true, decide_eq_true_eq, Bool.not_eq_true', and_assoc, BitVec.le_def]
      constructor
      · rintro ⟨h1, h2⟩
        refine ⟨by omega, fun x hx => ?_⟩
        rcases List.mem_cons.1 hx with rfl | hx
        · exact q.1 (by omega)
        · exact h2 x hx
      · rintro ⟨h1, h2⟩
        have := q.2 (h2 j (by simp))
        exact ⟨by omega, fun x hx => h2 x (by simp [hx])⟩
  refine (z _ 0).trans ?_
  simp only [true_and, List.mem_filter]
  constructor
  · rintro h ⟨j, hj, hh, o, ho, k⟩
    exact h j ⟨hj, hh⟩ o ho k
  · intro h j hj o ho k
    exact h ⟨j, hj.1, hj.2, o, ho, k⟩

theorem packBits_lt (f : Nat → Bool) (n : Nat) : packBits f n < 2 ^ n := by
  induction n with
  | zero => simp [packBits]
  | succ n ih => rw [packBits, Nat.pow_succ]; split <;> omega

theorem testBit_packBits (f : Nat → Bool) (n i : Nat) : (packBits f n).testBit i = (decide (i < n) && f i) := by
  induction n with
  | zero => simp [packBits]
  | succ n ih =>
    rw [packBits]
    cases h : f n
    · rw [if_neg (by simp), Nat.add_zero, ih]
      by_cases c : i = n
      · subst c; simp [h]
      · rw [show (decide (i < n + 1)) = decide (i < n) from decide_eq_decide.2 (by omega)]
    · have o := Nat.two_pow_add_eq_or_of_lt (packBits_lt f n) 1
      rw [Nat.mul_one] at o
      rw [if_pos rfl, Nat.add_comm, o, Nat.testBit_or, ih, Nat.testBit_two_pow]
      by_cases c : i = n
      · subst c; simp [h]
      · rw [show (decide (i < n + 1)) = decide (i < n) from decide_eq_decide.2 (by omega), show decide (n = i) = false from decide_eq_false (fun x => c x.symm)]
        simp

theorem getD_chunks {α : Type} (d : α) (l : List α) (f j : Nat) (hf : l.length < 8 * f) (hj : j < l.length) :
    j / 8 < (chunks 8 f l).length ∧ ((chunks 8 f l).getD (j / 8) []).getD (j % 8) d = l.getD j d := by
  induction f generalizing l j with
  | zero => omega
  | succ f ih =>
    cases l with
    | nil => simp at hj
    | cons a l =>
      rw [show chunks 8 (f + 1) (a :: l) = (a :: l).take 8 :: chunks 8 f ((a :: l).drop 8) from rfl]
      by_cases c : j < 8
      · rw [show j / 8 = 0 by omega, show j % 8 = j by omega]
        refine ⟨by simp, ?_⟩
        simp only [List.getD_cons_zero]
        simp only [List.getD_eq_getElem?_getD, List.getElem?_take, c, ↓reduceIte]
      · have h := ih ((a :: l).drop 8) (j - 8) (by simp only [List.length_drop]; omega) (by simp only [List.length_drop]; omega)
        rw [show (j - 8) / 8 = j / 8 - 1 by omega, show (j - 8) % 8 = j % 8 by omega] at h
        rw [show j / 8 = (j / 8 - 1) + 1 by omega]
        refine ⟨by rw [List.length_cons]; omega, ?_⟩
        rw [List.getD_cons_succ, h.2]
        simp only [List.getD_eq_getElem?_getD, List.getElem?_drop]
        rw [show 8 + (j - 8) = j by omega]

theorem fcmpLt_zero (x : Word32) : fcmpLt 0 x = true ↔ 0 < x.toNat ∧ x.toNat ≤ 0x7F800000 := by
  have hx := x.isLt
  have n0 : isNan 0 = false := by decide
  have nx : isNan x = true ↔ bits x 30 23 = 255 ∧ bits x 22 0 ≠ 0 := by
    unfold isNan numOf
    dsimp only
    rw [decide_eq_true_eq]
    split
    · next h => split <;> simp_all
    · next h => split <;> simp_all
  have z0 : plusZero 0 = 0 := by decide
  have o0 : ops 0 = 0x80000000 := by decide
  have b31 : bit x 31 = decide (2 ^ 31 ≤ x.toNat) := by
    unfold bit
    rw [BitVec.getLsbD, Nat.testBit, Nat.shiftRight_eq_div_pow]
    have : x.toNat / 2 ^ 31 < 2 := by omega
    rw [Bool.eq_iff_iff]
    simp only [bne_iff_ne, ne_eq, decide_eq_true_eq, Nat.one_and_eq_mod_two]
    omega
  unfold fcmpLt
  rw [n0, z0]
  simp only [Bool.not_false, Bool.true_and, Bool.and_eq_true, Bool.not_eq_true']
  rw [Bool.eq_false_iff, ne_eq, nx]
  unfold patLt
  rw [o0, decide_eq_true_eq]
  unfold plusZero
  by_cases m : x = 0x80000000
  · subst m
    rw [if_pos rfl, o0]
    simp
  · rw [if_neg m]
    unfold ops
    rw [b31]
    by_cases c : 2 ^ 31 ≤ x.toNat
    · rw [decide_eq_true c, if_pos rfl]
      rw [BitVec.toNat_not]
      constructor
      · rintro ⟨_, h⟩; omega
      · rintro ⟨_, h⟩; omega
    · rw [decide_eq_false c, if_neg (by simp)]
      have o := Nat.two_pow_add_eq_or_of_lt (show x.toNat < 2 ^ 31 by omega) 1
      rw [Nat.mul_one] at o
      have e : (x ||| (0x80000000 : Word32)).toNat = x.toNat + 2 ^ 31 := by
        rw [BitVec.toNat_or]
        show x.toNat ||| 2 ^ 31 = _
        rw [Nat.or_comm, ← o, Nat.add_comm]
      rw [e]
      unfold bits
      constructor
      · rintro ⟨h, h2⟩
        refine ⟨by omega, ?_⟩
        by_contra hh
        exact h ⟨by omega, by omega⟩
      · rintro ⟨h, h2⟩
        refine ⟨?_, by omega⟩
        rintro ⟨h3, h4⟩
        omega

end Sys2Proof
end

