-- ==== Sys2Proof/Laws/Sweeps.lean ====
section
/-! SUPPORT. The candidate store of a flock's member (R102, R103): what the store holds after the entries it was offered, and what the
member gets of it. -/

namespace Sys2Proof
open Machine

/-! ### Sorting by a total order -/

theorem insertBy_pairwise {α : Type} {le : α → α → Bool} (total : ∀ a b, le a b = true ∨ le b a = true)
    (trans : ∀ a b c, le a b = true → le b c = true → le a c = true) (a : α) (l : List α) (h : l.Pairwise fun a b => le a b = true) :
    (insertBy le a l).Pairwise fun a b => le a b = true := by
  induction l with
  | nil => simp [insertBy]
  | cons b l ih =>
    rw [List.pairwise_cons] at h
    unfold insertBy
    by_cases c : le a b = true
    · rw [if_pos c]
      refine List.pairwise_cons.2 ⟨fun x hx => ?_, List.pairwise_cons.2 h⟩
      rcases List.mem_cons.1 hx with rfl | hx
      · exact c
      · exact trans _ _ _ c (h.1 x hx)
    · rw [if_neg c]
      refine List.pairwise_cons.2 ⟨fun x hx => ?_, ih h.2⟩
      rcases List.mem_cons.1 ((insertBy_perm le a l).mem_iff.1 hx) with rfl | hx
      · exact (total _ _).resolve_left c
      · exact h.1 x hx

theorem sortBy_pairwise {α : Type} {le : α → α → Bool} (total : ∀ a b, le a b = true ∨ le b a = true)
    (trans : ∀ a b c, le a b = true → le b c = true → le a c = true) (l : List α) : (sortBy le l).Pairwise fun a b => le a b = true := by
  induction l with
  | nil => simp [sortBy]
  | cons a l ih => exact insertBy_pairwise total trans a _ ih

theorem sweepLe_total (a b : SweepEntry) : sweepLe a b = true ∨ sweepLe b a = true := by
  have : a.id = b.id ↔ a.id.toNat = b.id.toNat := ⟨congrArg _, BitVec.eq_of_toNat_eq⟩
  have h2 : b.id = a.id ↔ b.id.toNat = a.id.toNat := ⟨congrArg _, BitVec.eq_of_toNat_eq⟩
  simp only [sweepLe, Bool.or_eq_true, Bool.and_eq_true, decide_eq_true_eq, this, h2]
  omega

theorem sweepLe_trans (a b c : SweepEntry) (h : sweepLe a b = true) (h2 : sweepLe b c = true) : sweepLe a c = true := by
  have e1 : a.id = b.id ↔ a.id.toNat = b.id.toNat := ⟨congrArg _, BitVec.eq_of_toNat_eq⟩
  have e2 : b.id = c.id ↔ b.id.toNat = c.id.toNat := ⟨congrArg _, BitVec.eq_of_toNat_eq⟩
  have e3 : a.id = c.id ↔ a.id.toNat = c.id.toNat := ⟨congrArg _, BitVec.eq_of_toNat_eq⟩
  simp only [sweepLe, Bool.or_eq_true, Bool.and_eq_true, decide_eq_true_eq, e1, e2, e3] at *
  omega

theorem sweepLe_dist {a b : SweepEntry} (h : sweepLe a b = true) : a.dist ≤ b.dist := by
  simp only [sweepLe, Bool.or_eq_true, Bool.and_eq_true, decide_eq_true_eq] at h
  omega

/-! ### Distances -/

theorem hamming_le (a b : Bytes) : hamming a b ≤ 8 * a.length := by
  have key : ∀ (l : List (Byte × Byte)) (n : Nat),
      l.foldl (fun n p => n + ((List.range 8).filter fun i => bit (p.1 ^^^ p.2) i).length) n ≤ n + 8 * l.length := by
    intro l
    induction l with
    | nil => intro n; simp
    | cons p l ih =>
      intro n
      have h1 := (List.range 8).length_filter_le fun i => bit (p.1 ^^^ p.2) i
      have h2 := ih (n + ((List.range 8).filter fun i => bit (p.1 ^^^ p.2) i).length)
      simp only [List.length_range] at h1
      rw [List.foldl_cons, List.length_cons]
      omega
  have := key (a.zip b) 0
  rw [List.length_zip] at this
  unfold hamming
  omega

/-! ### The cut -/

/-- The counted distances: sorted, as many as were offered and at most h, each among the distances offered. -/
structure Store.Counted (h : Nat) (ds : List Nat) (l : List Nat) : Prop where
  sorted : l.Pairwise (· ≤ ·)
  len    : l.length = min h ds.length
  sub    : l.Subperm ds

theorem insertBy_nat_sorted (a : Nat) (l : List Nat) (h : l.Pairwise (· ≤ ·)) : (insertBy (fun a b => decide (a ≤ b)) a l).Pairwise (· ≤ ·) := by
  have := insertBy_pairwise (le := fun a b : Nat => decide (a ≤ b)) (fun a b => by simp; omega) (fun a b c => by simp; omega) a l (by simpa using h)
  simpa using this

theorem Store.Counted.insert {h : Nat} {ds l : List Nat} (c : Store.Counted h ds l) (d : Nat) :
    Store.Counted h (ds ++ [d]) ((insertBy (fun a b => decide (a ≤ b)) d l).take h) where
  sorted := (insertBy_nat_sorted d l c.sorted).sublist (List.take_sublist _ _)
  len := by
    rw [List.length_take, (insertBy_perm _ d l).length_eq, List.length_cons, c.len, List.length_append, List.length_singleton]
    omega
  sub := ((List.take_sublist _ _).subperm.trans ((insertBy_perm _ d l).subperm.trans (((List.subperm_cons d).2 c.sub).trans
    (List.perm_append_singleton d ds).symm.subperm)))

theorem insertBy_take_le (B d : Nat) (l : List Nat) (h : ∀ x ∈ l, x ≤ B) : ∀ x ∈ (insertBy (fun a b => decide (a ≤ b)) d l).take l.length, x ≤ B := by
  induction l with
  | nil => simp
  | cons b l ih =>
    unfold insertBy
    intro x hx
    by_cases c : d ≤ b
    · rw [if_pos (decide_eq_true c), List.length_cons, List.take_succ_cons] at hx
      rcases List.mem_cons.1 hx with rfl | hx
      · exact c.trans (h b (by simp))
      · exact h x (List.mem_of_mem_take hx)
    · rw [if_neg (by simpa using c), List.length_cons, List.take_succ_cons] at hx
      rcases List.mem_cons.1 hx with rfl | hx
      · exact h x (by simp)
      · exact ih (fun y hy => h y (List.mem_cons_of_mem _ hy)) x hx

/-- The cut of a list of counted distances. -/
theorem Store.cut_le {h size : Nat} {t : Store} (hp : 1 ≤ h) {ds : List Nat} (c : Store.Counted h ds t.counted) (hd : ∀ d ∈ ds, d ≤ 8 * size) :
    t.cut h size ≤ 8 * size ∧ ∀ x ∈ t.counted, x ≤ t.cut h size := by
  unfold Store.cut
  by_cases n : t.counted.length < h
  · rw [if_pos n]
    exact ⟨Nat.le_refl _, fun x hx => hd x (c.sub.subset hx)⟩
  · rw [if_neg n]
    have ne : t.counted ≠ [] := fun e => by rw [e] at n; simp at n; omega
    rw [List.getLastD_eq_getLast?, List.getLast?_eq_getLast_of_ne_nil ne, Option.getD_some]
    refine ⟨hd _ (c.sub.subset (List.getLast_mem ne)), fun x hx => ?_⟩
    obtain ⟨j, hj, rfl⟩ := List.getElem_of_mem hx
    rw [List.getLast_eq_getElem]
    by_cases e : j = t.counted.length - 1
    · subst e; exact Nat.le_refl _
    · exact (List.pairwise_iff_getElem.1 c.sorted) j _ hj (by omega) (by omega)

theorem Store.cut_falls {h size : Nat} {t u : Store} (hp : 1 ≤ h) {ds : List Nat} {d : Nat} (c : Store.Counted h ds t.counted)
    (hd : ∀ x ∈ ds ++ [d], x ≤ 8 * size) (hu : u.counted = (insertBy (fun a b => decide (a ≤ b)) d t.counted).take h) :
    u.cut h size ≤ t.cut h size := by
  have cu : Store.Counted h (ds ++ [d]) u.counted := hu ▸ c.insert d
  by_cases n : t.counted.length < h
  · have : t.cut h size = 8 * size := if_pos n
    rw [this]; exact (Store.cut_le hp cu hd).1
  · have le := (Store.cut_le hp c fun x hx => hd x (List.mem_append_left _ hx)).2
    have hl : t.counted.length = h := by have := c.len; omega
    have nu : ¬ u.counted.length < h := by
      have := cu.len; have := c.len; rw [List.length_append, List.length_singleton] at *; omega
    have ne : u.counted ≠ [] := fun e => by rw [e] at nu; simp at nu; omega
    have : u.cut h size = u.counted.getLast ne := by
      unfold Store.cut
      rw [if_neg nu, List.getLastD_eq_getLast?, List.getLast?_eq_getLast_of_ne_nil ne, Option.getD_some]
    rw [this]
    have all : ∀ x ∈ u.counted, x ≤ t.cut h size := by
      have := insertBy_take_le _ d t.counted le
      rw [hl, ← hu] at this
      exact this
    exact all _ (List.getLast_mem ne)

/-! ### The store -/

/-- What a store holds after the entries ds were offered to it. -/
structure Store.Holds (h size : Nat) (ds : List (Nat × Swept)) (t : Store) : Prop where
  counted : Store.Counted h (ds.map (·.1)) t.counted
  below   : t.held.filter (fun x => x.1 < t.cut h size) = ds.filter fun x => x.1 < t.cut h size
  all     : t.ovfl = false → t.held = ds.filter fun x => x.1 ≤ t.cut h size
  sub     : t.held.Sublist (ds.filter fun x => x.1 ≤ t.cut h size)
  many    : t.ovfl = true → 2 * h < (ds.filter fun x => x.1 ≤ t.cut h size).length

theorem filter_lower {α : Type} (l : List (Nat × α)) {p q : Nat → Bool} (h : ∀ n, q n = true → p n = true) :
    (l.filter fun x => p x.1).filter (fun x => q x.1) = l.filter fun x => q x.1 := by
  rw [List.filter_filter]
  exact List.filter_congr fun x _ => by
    cases e : q x.1
    · simp
    · simp [h _ e]

theorem Store.Holds.offer {h size : Nat} {ds : List (Nat × Swept)} {t : Store} (hp : 1 ≤ h) (k : Store.Holds h size ds t) (e : Nat × Swept)
    (hd : ∀ x ∈ ds ++ [e], x.1 ≤ 8 * size) : Store.Holds h size (ds ++ [e]) (t.offer h size e) := by
  have hd' : ∀ x ∈ ds.map (·.1) ++ [e.1], x ≤ 8 * size := by
    intro x hx
    rw [List.mem_append, List.mem_map, List.mem_singleton] at hx
    rcases hx with ⟨y, hy, rfl⟩ | rfl
    · exact hd y (by simp [hy])
    · exact hd e (by simp)
  have hc : (t.offer h size e).counted = (insertBy (fun a b => decide (a ≤ b)) e.1 t.counted).take h := by
    unfold Store.offer; dsimp only; split <;> [rfl; split <;> rfl]
  have cu : Store.Counted h ((ds ++ [e]).map (·.1)) (t.offer h size e).counted := by
    rw [hc, List.map_append]; exact k.counted.insert e.1
  have fall := Store.cut_falls (u := t.offer h size e) hp k.counted hd' hc
  have cut : (t.offer h size e).cut h size = (⟨(insertBy (fun a b => decide (a ≤ b)) e.1 t.counted).take h, t.held, t.ovfl⟩ : Store).cut h size := by
    unfold Store.cut; rw [hc]
  have out : t.offer h size e = (let c := (t.offer h size e).cut h size
      let held := t.held.filter fun x => x.1 ≤ c
      let ovfl := t.ovfl && c == t.cut h size
      if c < e.1 then ⟨(t.offer h size e).counted, held, ovfl⟩
      else if e.1 = c ∧ 2 * h ≤ held.length then ⟨(t.offer h size e).counted, held, true⟩
      else ⟨(t.offer h size e).counted, held ++ [e], ovfl⟩) := by
    rw [cut, hc]; rfl
  clear cut hc hd'
  generalize hu : t.offer h size e = u at *
  dsimp only at out
  generalize hk : u.cut h size = c at *
  have f1 : (t.held.filter fun x => x.1 ≤ c).filter (fun x => x.1 < c) = ds.filter fun x => x.1 < c := by
    rw [filter_lower t.held (p := fun n => decide (n ≤ c)) (q := fun n => decide (n < c)) (fun n => by simp; omega),
      ← filter_lower t.held (p := fun n => decide (n < t.cut h size)) (q := fun n => decide (n < c)) (fun n => by simp; omega), k.below,
      filter_lower ds (p := fun n => decide (n < t.cut h size)) (q := fun n => decide (n < c)) (fun n => by simp; omega)]
  have f2 : (t.ovfl && c == t.cut h size) = false → (t.held.filter fun x => x.1 ≤ c) = ds.filter fun x => x.1 ≤ c := by
    intro q
    rcases Bool.and_eq_false_iff.1 q with q | q
    · rw [k.all q, filter_lower ds (p := fun n => decide (n ≤ t.cut h size)) (q := fun n => decide (n ≤ c)) (fun n => by simp; omega)]
    · have : c < t.cut h size := Nat.lt_of_le_of_ne fall (by simpa using q)
      rw [← filter_lower t.held (p := fun n => decide (n < t.cut h size)) (q := fun n => decide (n ≤ c)) (fun n => by simp; omega), k.below,
        filter_lower ds (p := fun n => decide (n < t.cut h size)) (q := fun n => decide (n ≤ c)) (fun n => by simp; omega)]
  have f3 : (t.held.filter fun x => x.1 ≤ c).Sublist (ds.filter fun x => x.1 ≤ c) := by
    have := k.sub.filter fun x => decide (x.1 ≤ c)
    rwa [filter_lower ds (p := fun n => decide (n ≤ t.cut h size)) (q := fun n => decide (n ≤ c)) (fun n => by simp; omega)] at this
  have f4 : (t.ovfl && c == t.cut h size) = true → 2 * h < (ds.filter fun x => x.1 ≤ c).length := by
    intro q
    rw [Bool.and_eq_true, beq_iff_eq] at q
    rw [q.2]; exact k.many q.1
  by_cases c1 : c < e.1
  · rw [if_pos c1] at out
    have g1 : (ds ++ [e]).filter (fun x => decide (x.1 < c)) = ds.filter fun x => x.1 < c := by
      rw [List.filter_append, List.filter_cons_of_neg (by simp; omega), List.filter_nil, List.append_nil]
    have g2 : (ds ++ [e]).filter (fun x => decide (x.1 ≤ c)) = ds.filter fun x => x.1 ≤ c := by
      rw [List.filter_append, List.filter_cons_of_neg (by simp; omega), List.filter_nil, List.append_nil]
    have o1 := congrArg Store.held out
    have o2 := congrArg Store.ovfl out
    dsimp only at o1 o2
    exact ⟨cu, by rw [hk, g1, o1, f1], fun q => by rw [hk, g2, o1]; exact f2 (o2 ▸ q), by rw [hk, g2, o1]; exact f3,
      fun q => by rw [hk, g2]; exact f4 (o2 ▸ q)⟩
  · rw [if_neg c1] at out
    have g2 : (ds ++ [e]).filter (fun x => decide (x.1 ≤ c)) = (ds.filter fun x => x.1 ≤ c) ++ [e] := by
      rw [List.filter_append, List.filter_cons_of_pos (by simp; omega), List.filter_nil]
    by_cases c2 : e.1 = c ∧ 2 * h ≤ (t.held.filter fun x => x.1 ≤ c).length
    · rw [if_pos c2] at out
      have g1 : (ds ++ [e]).filter (fun x => decide (x.1 < c)) = ds.filter fun x => x.1 < c := by
        rw [List.filter_append, List.filter_cons_of_neg (by simp; omega), List.filter_nil, List.append_nil]
      have o1 := congrArg Store.held out
      have o2 := congrArg Store.ovfl out
      dsimp only at o1 o2
      refine ⟨cu, by rw [hk, g1, o1, f1], fun q => absurd (o2.symm.trans q) (by simp), by rw [hk, g2, o1]; exact f3.trans (List.sublist_append_left _ _),
        fun _ => ?_⟩
      have := f3.length_le
      rw [hk, g2, List.length_append, List.length_singleton]
      omega
    · rw [if_neg c2] at out
      have o1 := congrArg Store.held out
      have o2 := congrArg Store.ovfl out
      dsimp only at o1 o2
      refine ⟨cu, ?_, fun q => by rw [hk, g2, o1, f2 (o2 ▸ q)], by rw [hk, g2, o1]; exact f3.append (.refl _), fun q => ?_⟩
      · rw [hk, o1, List.filter_append, f1, List.filter_append]
      · have := f4 (o2 ▸ q)
        rw [hk, g2, List.length_append]
        omega

theorem Store.holds {h size : Nat} (hp : 1 ≤ h) (ds : List (Nat × Swept)) (hd : ∀ x ∈ ds, x.1 ≤ 8 * size) :
    Store.Holds h size ds (ds.foldl (Store.offer h size) ⟨[], [], false⟩) := by
  have key : ∀ (l a : List (Nat × Swept)) (t : Store), (∀ x ∈ a ++ l, x.1 ≤ 8 * size) → Store.Holds h size a t →
      Store.Holds h size (a ++ l) (l.foldl (Store.offer h size) t) := by
    intro l
    induction l with
    | nil => intro a t _ k; simpa using k
    | cons e l ih =>
      intro a t hb k
      have : a ++ e :: l = (a ++ [e]) ++ l := by simp
      rw [this] at hb ⊢
      exact ih _ _ hb (k.offer hp e fun x hx => hb x (List.mem_append_left _ hx))
  have := key ds [] ⟨[], [], false⟩ (by simpa using hd) ⟨⟨.nil, by simp, ⟨[], .refl _, .slnil⟩⟩, rfl, fun _ => rfl, .slnil, by simp⟩
  simpa using this

/-- A member's result is the first h of the entries up to a cut below which all others of the sweep lie, or fewer than h lie at all; and a
tie pass ran only where more than 2h lie up to the cut. -/
theorem memberOut_eq (s : State) (es : List Swept) (m : Member) (hm : 1 ≤ m.h) : ∃ (c : Nat) (l : List SweepEntry),
    (memberOut s es m).best = (sortBy sweepLe l).take m.h ∧
    l.Perm ((es.filter fun e => hamming m.sketch e.sketch ≤ c).map (Swept.entry s m)) ∧
    min m.h es.length ≤ (es.filter fun e => hamming m.sketch e.sketch ≤ c).length ∧
    ((memberOut s es m).tie = true → 2 * m.h < (es.filter fun e => hamming m.sketch e.sketch ≤ c).length) := by
  let ds := es.map fun e => (hamming m.sketch e.sketch, e)
  have hd : ∀ x ∈ ds, x.1 ≤ 8 * m.sketch.length := by
    intro x hx
    obtain ⟨e, _, rfl⟩ := List.mem_map.1 hx
    exact hamming_le _ _
  have k := Store.holds hm ds hd
  have len := (Store.cut_le hm k.counted (by intro d h; obtain ⟨x, hx, rfl⟩ := List.mem_map.1 h; exact hd x hx)).2
  have filt : ∀ c : Nat, ds.filter (fun x => decide (x.1 ≤ c)) = (es.filter fun e => hamming m.sketch e.sketch ≤ c).map fun e => (hamming m.sketch e.sketch, e) := by
    intro c; rw [List.filter_map]; rfl
  generalize ht : ds.foldl (Store.offer m.h m.sketch.length) ⟨[], [], false⟩ = t at *
  let f := fun d : Nat × Swept => d.2.entry s m
  have hbest : (memberOut s es m).best = (sortBy sweepLe (((if t.ovfl then t.held.filter fun d => d.1 < t.cut m.h m.sketch.length else t.held) ++
      if t.ovfl then ds.filter fun d => d.1 = t.cut m.h m.sketch.length else []).map f)).take m.h := by
    rw [← ht]; rfl
  have htie : (memberOut s es m).tie = t.ovfl := by rw [← ht]; rfl
  refine ⟨t.cut m.h m.sketch.length, _, hbest, ?_, ?_, fun q => ?_⟩
  · have : ((es.filter fun e => hamming m.sketch e.sketch ≤ t.cut m.h m.sketch.length).map (Swept.entry s m)) =
        (ds.filter fun x => x.1 ≤ t.cut m.h m.sketch.length).map f := by
      rw [filt, List.map_map]; rfl
    rw [this]
    refine List.Perm.map _ ?_
    cases q : t.ovfl with
    | false => simp only [Bool.false_eq_true, if_false, List.append_nil]; rw [k.all q]
    | true =>
      simp only [if_true]
      rw [k.below]
      have e1 := filter_lower ds (p := fun n => decide (n ≤ t.cut m.h m.sketch.length)) (q := fun n => decide (n < t.cut m.h m.sketch.length)) (fun n => by simp; omega)
      have e2 : (ds.filter fun x => x.1 ≤ t.cut m.h m.sketch.length).filter (fun x => !decide (x.1 < t.cut m.h m.sketch.length)) =
          ds.filter fun x => x.1 = t.cut m.h m.sketch.length := by
        rw [List.filter_filter]
        exact List.filter_congr fun x _ => by simp only [← decide_not, ← Bool.decide_and]; exact decide_eq_decide.2 (by omega)
      rw [← e1, ← e2]
      exact List.filter_append_perm _ _
  · have hl := k.counted.len
    have := (k.counted.sub.filter fun x => decide (x ≤ t.cut m.h m.sketch.length)).length_le
    rw [List.filter_eq_self.2 fun x hx => decide_eq_true (len x hx), List.filter_map, List.length_map, hl, List.length_map, List.length_map] at this
    have h2 := congrArg List.length (filt (t.cut m.h m.sketch.length))
    rw [List.length_map] at h2
    exact this.trans (Nat.le_of_eq h2)
  · have := k.many (htie ▸ q)
    rwa [filt, List.length_map] at this

end Sys2Proof
end

