-- ==== Sys2Proof/WellFormed.lean ====
section
/-! DEFINITION. Which commands are well formed: operands inside the ranges the manual gives what carries them. What a command outside
them does is what its meaning says: most have no effect, or the effect of a unit that is not there. -/

namespace Sys2Proof

/-- A request, continue or table descriptor has sixteen words (R39, R42, R303). -/
def WellFormed.desc (d : Words) : Bool := d.length = 16

/-- A publish job descriptor and an operation of a LOAD job have eight words (R80, R88). -/
def WellFormed.job (d : Words) : Bool := d.length = 8

/-- A message body begins with two words (R335). -/
def WellFormed.body (b : Words) : Bool := 2 ≤ b.length

/-- A packet: eight header words, and up to 4,096 bytes in whole lines (R324). -/
def WellFormed.packet (p : Packet) : Bool := p.hdr.length = 8 && p.payload.length ≤ 4096 && p.payload.length % 64 = 0

/-- A command for a core: slots of its scratchpad, a tenant, classes of R371 and R353, a model slot (R36, R208, R235, R275). -/
def WellFormed.dispatch (c : DispatchCmd) : Bool :=
  c.slotBase < 3072 && c.tenant < 4096 && c.cmdClass < 16 && c.tclass < 8 && (c.model.getD 0 < 16)

/-- What reads of other devices returned: hall addresses (R331). -/
def WellFormed.fetches (fs : List Fetch) : Bool := fs.all fun f => f.data.length ≤ 65536

/-- A page of a PAGES or LOAD job (R81). -/
def WellFormed.pages (ps : List SrcPage) : Bool := ps.all fun p => p.data.length = 4096

/-- A function that drains is one of its kind's (R376). -/
def WellFormed.fn : FnRef → Bool
  | .cluster n => n < 16
  | .text n => n < 4
  | .stack n => n < 12
  | .link n => n < 48
  | .model n => n < 16
  | .table n => n < 64

/-- An island id, or the places of the two coolant sensors (R15, R480). -/
def WellFormed.island (i : Nat) : Bool := i < 0x142

/-- The operands are in the ranges of R6, R13, R15 and of the records that carry them. -/
def Instr.wf : Instr → Bool
  | .doorbell n _ => n < 64
  | .ringEnable _ n _ => n < 64
  | .retrieveAndPack n d => n < 64 && WellFormed.desc d
  | .retrieve n d => n < 64 && WellFormed.desc d
  | .embedOnly n d => n < 64 && WellFormed.desc d
  | .generate n d => n < 64 && WellFormed.desc d
  | .continueText n d text => n < 64 && WellFormed.desc d && text.length < 2 ^ 32
  | .tokenise n text ctx => n < 65536 && text.length < 2 ^ 32 && ctx.length < 2 ^ 32
  | .exactStage n fs => n < 65536 && WellFormed.fetches fs
  | .crossEncode n fs => n < 65536 && WellFormed.fetches fs
  | .filterStage n expr fs => n < 65536 && expr.length ≤ 4096 && WellFormed.fetches fs
  | .packStage n fs => n < 65536 && WellFormed.fetches fs
  | .embedStage n | .rewriteStage n | .scanStage n | .shortlistStage n | .finalCommit n | .expire n | .slotRetainTimeout n | .mirrorCoalesce n
  | .globalObservation n => n < 65536
  | .requestFailure _ code => code ≠ 0
  | .cancel _ | .release _ => true
  | .publishJob _ d => WellFormed.job d
  | .pages n src => n < 16 && WellFormed.pages src
  | .switchJob n | .freeJob n => n < 16
  | .loadJob n ops _ => n < 16 && (ops.getD []).all fun o => WellFormed.job o.desc && WellFormed.pages o.src
  | .jobRelease _ _ => true
  | .epochAdvance _ n _ | .epochFloor _ n _ => n < 64
  | .sweepRequest b | .penRequest b | .sweepReply b | .penReply b | .killNotice b => WellFormed.body b
  | .flockDue i _ | .sweepStart i _ => i < 12
  | .sweepResolve i e => i < 12 && e < 4
  | .scanRetry n _ d => n < 65536 && d < 2 ^ 14
  | .penRecordLapse d _ | .killNoticeWindowEnd d _ => d < 2 ^ 14
  | .vocabEnable _ n _ => n < 16
  | .vocabReady n => n < 16
  | .templateEnable _ n _ => n < 64
  | .arrayPass k | .vectorOp k | .moveOp k | .fence k | .fenceResolve k | .macroOp k | .commandCommit k | .scrub k | .scrubForce k => k < 256
  | .configDone k _ => k < 256
  | .registerLand k reg => k < 256 && reg < 64
  | .dispatch k c | .preempt k c => k < 256 && WellFormed.dispatch c
  | .commandKill k _ | .moveLanding k _ => k < 256
  | .landingWaitEnd k slot => k < 256 && slot < 3072
  | .allocationRelease k first count => k < 256 && first + count ≤ 3072
  | .hingeInstall _ _ | .hingeCopyEnd => true
  | .stackEnable _ n _ => n < 12
  | .stackReady n _ _ => n < 12
  | .intakeWrite line data => line < 2 ^ 28 && data.length = 64
  | .intakeRead line => line < 2 ^ 28
  | .biResponse page dirty => page < 2 ^ 22 && dirty.all fun l => l.1 < 64 && l.2.length = 64
  | .hdmCommit base _ => base.toNat % 2 ^ 28 = 0
  | .modelEnable _ n _ => n < 16
  | .modelStartEnd n => n < 16
  | .prefillStep m _ | .generationStep m _ => m < 16
  | .ratioControl => true
  | .rolePin _ n _ => n < 16
  | .tableGather n d _ _ _ => n < 64 && WellFormed.desc d
  | .update n d _ _ => n < 64 && WellFormed.desc d
  | .promote n d _ | .demote n d _ => n < 64 && WellFormed.desc d
  | .tableEnable _ n _ => n < 64
  | .tableSeal _ n _ | .tableAdvance _ n _ | .tableFloor _ n _ => n < 64
  | .tableInstall _ n _ _ => n < 64
  | .rowRead d b | .rowReadReply d b | .tableStage d b | .tableStageReply d b | .tableCommit d b | .tableCommitReply d b | .sealMark d b
  | .sealMarkReply d b | .replicaPages d b | .replicaPagesReply d b | .migrationCopy d b | .migrationCopyReply d b
  | .forwardedUpdate d b | .forwardedUpdateReply d b => d < 2 ^ 14 && WellFormed.body b
  | .cmsDecay i => i < 12
  | .read l p | .gather l p | .fetch l p | .publish l p | .readReply l p | .gatherReply l p | .fetchReply l p | .publishAck l p
  | .badPacket l p => l < 48 && WellFormed.packet p
  | .linkControl l _ => l < 48
  | .fabricTimeout i tag | .publishAckTimeout i tag => WellFormed.island i && tag < 2 ^ 24
  | .linkAckTimeout l | .linkAckInterval l | .faultIdleReceived l | .packetCrcFailure l | .linkTrainingFailed l | .egressSelect l
  | .shaperTick l | .gateIntervalEnd l | .guardBandStart l | .gateListSwitch l => l < 48
  | .linkEnable _ n _ => n < 48
  | .linkReady n peer port => n < 48 && peer < 2 ^ 14 && port < 48
  | .routeTable _ _ | .keyringRefill | .keyringDir _ _ | .keyringDirCheckEnd | .keyringPin _ _ _ | .keyringUnpin _ _
  | .keyringFlush _ _ => true
  | .gateApply _ l _ => l < 48
  | .shaperRate _ l rates => l < 48 && rates.length = 8
  | .policerCfg _ _ _ | .tenantPolCfg _ _ _ => true
  | .queueHwm _ sub => 1 ≤ sub && sub ≤ 16
  | .classHwm _ sub => 1 ≤ sub && sub ≤ 8
  | .clusterEnable _ n _ => n < 16
  | .clusterReady n => n < 16
  | .textEnable _ n _ => n < 4
  | .textReady n => n < 4
  | .drainEnd f => WellFormed.fn f
  | .drainHoldTimeout _ | .slowdownClear _ _ => true
  | .odRead _ _ _ => true
  | .odWrite _ _ _ v => v.length < 65536
  | .odReadMulti _ es => es.length < 65536
  | .odList _ _ _ | .unsupported _ _ => true
  | .eventRead _ max => max < 2 ^ 32
  | .setEndpointId _ _ | .getEndpointId _ | .getMctpVersionSupport _ | .getMessageTypeSupport _ | .setdasa _ _ | .entdaa _ => true
  | .fwBegin _ _ | .fwFetch _ _ _ | .fwCommit _ | .fwVerifyEnd | .fwAbort _ | .fwFloor _ _ => true
  | .fwChunk _ _ data => data.length < 65536
  | .fwFetchCompletion data _ => data.length < 2 ^ 32
  | .getVersion _ | .getCapabilities _ | .negotiateAlgorithms _ | .getDigests _ => true
  | .getCertificate _ n off len => n < 16 && off < 65536 && len < 65536
  | .challenge _ nonce _ => nonce.length = 32
  | .getMeasurements _ index signed nonce _ => index < 256 && (!signed || nonce.length = 32)
  | .keyExchange _ pub _ => pub ≠ []
  | .finish _ n _ | .heartbeat _ n | .keyUpdate _ n | .endSession _ n => n < 2 ^ 32
  | .ideKm n stream _ => n < 2 ^ 32 && stream < 256
  | .cxlIdeKm n _ _ => n < 2 ^ 32
  | .powerOn | .perstRelease _ | .perstAssert | .powerFault | .thermalShutdown | .hostLinkUp _ | .hostLinkDown _ => true
  | .beacon arrivals => arrivals.all fun e => WellFormed.island e.island
  | .beaconMissing i | .clockLockLoss i | .islandReturn i => WellFormed.island i
  | .skewClear _ _ => true
  | .watchdogTimeout i _ => WellFormed.island i
  | .tempSample rs => rs.all fun e => WellFormed.island e.1
  | .faultNoticeArrival | .faultClear _ _ | .fiArm _ _ | .fiFire | .piArm _ _ => true
  | .counterRead _ i c => WellFormed.island i && c < 12
  | .counterCfg _ i c ws => WellFormed.island i && c < 8 && ws.length = 4
  | .counterWrap i c => WellFormed.island i && c < 12
  | .lapClear _ _ | .sampleEnable _ _ | .sampleRecord _ | .powerPeakW _ => true
  | .sampleTag i _ => WellFormed.island i
  | .powerReport p1 p100 mv => p1 < 65536 && p100 < 65536 && mv < 65536
  | .opcodeUnassigned n d => n < 64 && WellFormed.desc d
  | .hostSnoop addr => addr.toNat % 64 = 0
  | .vectorUnmask v => v < 2
  | .doeDiscovery n => n < 256
  | .cdatTableAccess n => n < 65536
  | .aerUncorrectableError _ => true
  | .stateMemoryScrub i cls addr => WellFormed.island i && 1 ≤ cls && cls ≤ 10 && addr < 2 ^ 28

end Sys2Proof
end

