-- ==== Sys2Proof/Tests/Slice0.lean ====
section
/-! SUPPORT. Tests: a witness for the hypotheses of each statement, the well-formedness checks, and worked examples of the manual. -/

namespace Sys2Proof.Tests

open Sys2Proof.Machine

set_option maxRecDepth 20000


/-! ### Small states -/

/-- A device that serves: powered, booted with an identity, firmware Ready, host link up, an address on I3C; stacks 0 and 1, clusters 0 and 1,
text island 0 and link 0 Ready. -/
def live : State :=
  { module := { powered := true, perst := false }
    ident := { served := true, pufState := 2 }
    fw := { fn := .ready }
    host := { linkState := 2, i3cAddr := 9 }
    stackT := [(0, { enable := true, fn := .ready, fromOff := false }), (1, { enable := true, fn := .ready, fromOff := false })]
    clusters := [(0, { enable := true, fn := .ready }), (1, { enable := true, fn := .ready, role := 2 })]
    texts := [(0, { enable := true, fn := .ready })]
    links := [(0, { enable := true, fn := .ready })] }

/-- A descriptor: opcode, and words 1 and up; tenant 5, tag 7, no deadline, mirror line at 1000h, output buffer of 64 bytes at 2000h. -/
def descOf (op w1 : Nat) : Words :=
  [BitVec.ofNat 64 (op * 2 ^ 56 + 2 ^ 52 + 5 * 2 ^ 36 + 7), BitVec.ofNat 64 w1, 0, 0, 0, 0, 0, 0, 0, 0, 0x1000, 0, 0, 0x2000, 0,
   BitVec.ofNat 64 (64 * 2 ^ 32)]

/-- EMBED_ONLY with its whole input, for the encoder in model slot 2. -/
def embedDesc : Words := descOf 3 (2 ^ 63 + 2 * 2 ^ 48)

/-- An entry waits in ring 3, tenant 5 is enabled and model slot 2 is Ready. -/
def asked : State := { live with
  rings := [(3, { enable := true, tail := 1 })]
  hub := { tenantEnable := [(5, true)] }
  models := [(2, { fn := .ready })] }

/-- A slot in a state, at a stage, of a request from ring 3. -/
def inSlot (state stage : Nat) (d : Words) : Slot :=
  { status := statusWord 4 state stage 0 0 0, ring := 3, deadline := 90, desc := d, committed := true, inputDone := true }

/-- Slot 6 holds a request. -/
def serving (x : Slot) : State := { asked with slots := [(6, x)], time := 100 }

/-- Its handle. -/
def h6 : Word32 := handleOf 6 4

/-! ### Each statement's hypotheses are met -/

theorem witness_stepRunsFrontCommand : ({ live with pending := [.powerOn, .fiFire] } : State).pending = .powerOn :: [.fiFire] := rfl

theorem witness_idleStepIsATick :
    (live.pending = [] ∧ live.alive = true ∧ live.ident.served = true) ∧
    (State.reset.pending = [] ∧ (State.reset.alive && State.reset.ident.served) = false) := by decide

theorem witness_everyStepKeepsTheForm : Safety.wf live = true ∧ ∃ t, step live = .next t := ⟨by decide, _, rfl⟩

theorem witness_noStepTakesALeafBack : Safety.leavesOk live ∧ Safety.signing live = true ∧ ∃ t, step live = .next t :=
  ⟨by unfold Safety.leavesOk; decide, by decide, _, rfl⟩

theorem witness_doorbell :
    (asked.hostUp = true ∧ 3 < 64 ∧ (asked.ring 3).enable = true ∧ asked.fwReady = true ∧
      ((64 : Word32) - (asked.ring 3).head).toNat ≤ (asked.ring 3).size) ∧
    (asked.ring 3).size < ((65 : Word32) - (asked.ring 3).head).toNat ∧ (asked.ring 4).enable = false ∧ State.reset.hostUp = false := by
  decide

/-- The host window is committed: ring 3's entries lie in the intake region. -/
def intaken : State := { asked with
  hbm := { intakeBase := 0 }
  host := { asked.host with hdmBase := 0x40000000, committed := true }
  rings := [(3, { enable := true, tail := 1, base := 0x40000000 })] }

theorem witness_requestIsAdmitted :
    (twf {} asked.slots = true ∧ asked.mayTake 3 = true ∧ (asked.ring 3).kind = 0 ∧ dOpcode embedDesc = opEmbed ∧ mirrorBad embedDesc = false ∧
      Safety.checkCode 3 embedDesc (descForm opEmbed embedDesc) (descCheck embedDesc) asked = 0 ∧
      asked.slotFor (dTenant embedDesc) = some 0 ∧ (policeTenant 3 (dTenant embedDesc) asked).1 = true ∧
      asked.ringEntry 3 embedDesc = embedDesc ∧ asked.windowOffset (asked.entryAddr 3) = none) ∧
    (let s : State := { asked with hub := { asked.hub with quotas := [(5, 0)] } }
     s.slotFor 5 = none ∧ s.mayTake 3 = true ∧ Safety.checkCode 3 embedDesc true (descCheck embedDesc) s = 0) ∧
    mirrorBad (embedDesc.set 10 0x1001) = true := by decide

theorem witness_rejectedDescriptor :
    (asked.mayTake 3 = true ∧ (asked.ring 3).kind = 0 ∧ mirrorBad (embedDesc.set 13 0) = false ∧
      Safety.checkCode 3 (embedDesc.set 13 0) true (descCheck (embedDesc.set 13 0)) asked = 0x104) ∧
    (let s : State := { asked with traffic := { tenantPol := [(5, { w0 := 0x4000000000000000 })] } }
     s.mayTake 3 = true ∧ Safety.checkCode 3 embedDesc true (descCheck embedDesc) s = 0 ∧ s.slotFor 5 = some 0 ∧ (policeTenant 3 5 s).1 = false) ∧
    (assignedOps (asked.ring 3).kind).contains (dOpcode (descOf 9 0)) = false := by decide

/-- A continue for slot 6 with INPUT_FINAL and no text. -/
def contDesc : Words :=
  [BitVec.ofNat 64 (14 * 2 ^ 56 + 2 ^ 52 + 5 * 2 ^ 36), 0x8000000000000000, h6.setWidth 64, 0, 0, 0x3000, 0, 0, 0, 0, 0x1000, 0, 0, 0, 0, 0]

theorem witness_continueAddsText :
    (let s := serving { inSlot ssAdmitted 0 (descOf 3 (2 * 2 ^ 48)) with inputDone := false }
     twf {} s.slots = true ∧ s.mayTake 3 = true ∧ (s.ring 3).kind = 0 ∧ dOpcode contDesc = opContinue ∧ mirrorBad contDesc = false ∧
     contForm contDesc = true ∧ s.tenantOk 3 contDesc = true ∧ handleSlot (cHandle contDesc) = 6 ∧ s.continues 3 contDesc = true ∧
     (s.slot 6).received + dInputLen contDesc + dCtxLen (s.slot 6).desc ≤ s.hub.maxInput.toNat ∧ s.atStage 6 sgTokenise = false ∧
     (readHost (dInputAddr contDesc) (dInputLen contDesc) [] s).1 = 0 ∧ s.snooped [(dInputAddr contDesc, dInputLen contDesc)] = true) ∧
    asked.continues 3 contDesc = false ∧ asked.tenantOk 3 contDesc = true := by decide

theorem witness_requestEnds :
    (let s := serving (inSlot ssRunning sgScan embedDesc)
     twf {} s.slots = true ∧ s.hostUp = true ∧ s.hubUp = true ∧ s.live h6 = true ∧ handleSlot h6 = 6 ∧ (s.slot 6).commitsSent = false ∧
     liveState (s.slot 6).status = true ∧ (s.slot 6).deadline ≠ BitVec.allOnes 64 ∧ (s.slot 6).deadline ≤ s.time) ∧
    asked.live h6 = false := by decide

theorem witness_finalCommitIsDone :
    (let s := serving (inSlot ssRunning sgEmbed embedDesc)
     twf {} s.slots = true ∧ s.hubUp = true ∧ stState (s.slot 6).status = ssRunning ∧ (s.slot 6).committed = true ∧
     (s.slot 6).lastStage = true ∧ (s.slot 6).observe = [] ∧
     (s.slot 6).deadline ≠ BitVec.allOnes 64 ∧ (s.slot 6).deadline < s.time ∧ (s.slot 6).commitsSent = false) ∧
    (let s := serving { inSlot ssRunning sgEmbed embedDesc with deadline := 100 }
     (s.slot 6).lastStage = true ∧ (s.slot 6).observe = [] ∧ s.time ≤ (s.slot 6).deadline) := by decide

theorem witness_slotIsFreed :
    (let s := serving (inSlot ssDone sgEmbed embedDesc)
     s.hostUp = true ∧ s.hubUp = true ∧ terminalState (s.slot 6).status = true ∧ stGen (s.slot 6).status = handleGen h6) ∧
    terminalState (asked.slot 6).status = false := by decide

theorem witness_mirrorLinesAndBuffers :
    (let s := serving { inSlot ssRunning sgEmbed embedDesc with mirrorPend := some 90 }
     memWf s.host.hostMem = true ∧ s.hubUp = true ∧ s.hostPath = true ∧ (s.slot 6).mirrorPend = some 90 ∧
     s.windowOffset (dMirror (s.slot 6).desc) = none) ∧
    ∀ b ∈ [Buf.shortlist, .ranked, .output], (let s := serving { inSlot ssRunning sgEmbed embedDesc with observe := [(b, 2, 1)] }
      twf {} s.slots = true ∧ s.hubUp = true ∧ s.hostPath = true ∧ liveState (s.slot 6).status = true ∧ (s.slot 6).cut = false ∧
      (s.slot 6).observe = [(b, 2, 1)]) := by decide

theorem witness_stagesRun :
    (let s := serving (inSlot ssAdmitted 0 embedDesc)
     s.hubUp = true ∧ dOpcode (s.slot 6).desc < 0x10 ∧ s.missing 6 = false ∧ s.startsStage 6 sgTokenise = true ∧
     (s.stageTurn 6 sgTokenise).isSome = true ∧ s.stageTurn 6 sgEmbed = none ∧ s.textFor = some 0 ∧
     ∀ r ∈ Safety.stageRows 6 [] [] [] [] s, r.stage = sgScan ∨ r.ready = true) ∧
    (let s := serving (inSlot ssRunning sgEmbed (descOf 1 (2 ^ 63)))
     ∀ r ∈ Safety.stageRows 6 [] [] [] [] s, r.stage = sgScan → r.ready = true) ∧
    (let s := serving { inSlot ssRunning sgTokenise embedDesc with committed := false }
     s.startsStage 6 sgTokenise = false ∧ s.atStage 6 sgTokenise = true) ∧
    (let s : State := { serving (inSlot ssRunning sgTokenise (descOf 4 (2 ^ 63))) with
      serving := { seqs := [{ slot := 6, model := 0, inst := 0, prompt := [], limit := 1, eos := 0, pages := 0, input := [] }] } }
     (s.seqOf 6).isSome = true) := by decide

/-- A model of kind k for inputs of up to 8 tokens. -/
def headOf (k : Nat) : Words := [BitVec.ofNat 64 (k * 2 ^ 40 + 8), 0, 0, 0, 0, 0, 0, 0, 0, 0, 0, 0, 0, 0, 0, 0]

/-- A request whose query of vocabulary 0 is one token long; model slot 2 holds a model. -/
def queried (d : Words) : State := { serving { inSlot ssRunning sgTokenise d with toks := [⟨0, [3], []⟩] } with
  models := [(2, { fn := .ready, head := headOf 1 })] }

/-- Words in a published page of pointers. -/
def holding (off : Nat) (ws : Words) (s : State) : State :=
  { s with mem := memWrite s.mem off (bytesOf ws), pageMap := tset {} s.pageMap (pageNo off) { kind := .published, pointer := true } }

/-- The keyring's first entry passes every access of this device's first 64 MiB. -/
def keyed (s : State) : State := { s with
  keyring := { s.keyring with entries := [(0, ⟨0x00000000003F0000, 0xFFFFFFFFFFFFFFFF, 0⟩)] }
  fabric := { s.fabric with deviceId := 0 } }

/-- A filtered request: opcode 02h with SHARED_EN, on corpus 0 whose descriptor lies at 1000h and whose attribute header lies at 2000h. -/
def filtered (head : Word64) : State :=
  keyed (holding 0x2000 [head, 0, 0, 0, 0, 0, 0, 0] (holding 0x1000 [0x0004000000000001, 0x0100000100000000, 0, 0, 0x2000, 0, 0, 0]
    { queried (descOf 2 (2 ^ 63 + 2 ^ 61)) with corpora := [(0, { desc := 0x1000, enable := true })] }))

theorem witness_stageResults_prompts :
    (let s := queried (descOf 1 (2 ^ 63 + 2 * 2 ^ 48))
     dShortlistBuf (s.slot 6).desc = 0 ∧ promptOf (s.slot 6) (s.modelHead 2) = some ([3], 0) ∧ promptOf (s.slot 6) (s.modelHead 3) = none ∧
     s.spoils 2 0 (inputOf [3] 1 false 0) = false ∧ dOpcode (s.slot 6).desc ≠ opEmbed) ∧
    dShortlistBuf ((queried (embedDesc.set 11 0x2000)).slot 6).desc ≠ 0 := by decide

theorem witness_stageResults_pairs :
    (let s := queried (descOf 1 (2 ^ 63))
     (takeAdapter 6 (s.modelHead 2) s).1 = 0 ∧ ((s.slot 6).tokSet 0).query.length ≤ mdlMaxIn (s.modelHead 2) - 1 ∧
     stageReads 6 [] s [] [] s = (some [], s) ∧ s.crossScores 6 0 [] [] = some [] ∧
     mdlMaxIn (s.modelHead 3) - 1 < ((s.slot 6).tokSet 0).query.length) ∧
    (let s := queried (descOf 1 (2 ^ 63 + 2 ^ 56))
     (takeAdapter 6 (s.modelHead 2) s).1 ≠ 0) := ⟨⟨by decide, by decide, rfl, by decide, by decide⟩, by decide⟩

theorem witness_stageResults_filter :
    (let s := queried (descOf 2 (2 ^ 63))
     (filterExpr 6 [] s).1 = 0 ∧ dSharedEn (s.slot 6).desc = false) ∧
    (let s := filtered 0x0005000000000001
     (filterExpr 6 [] s).1 = 0 ∧ dSharedEn (s.slot 6).desc = true ∧ s.corpusSlot (dCorpus (s.slot 6).desc) = some 0 ∧
     (stageReads 6 [] s [stageAcc s 6 0 0 (corpAttr (s.corpDesc 0)) 64 false] [] s).1 =
       some [(bytesOf [0x0005000000000001, 0, 0, 0, 0, 0, 0, 0], false)]) ∧
    (let s := filtered 0x0005000700000001
     (stageReads 6 [] s [stageAcc s 6 0 0 (corpAttr (s.corpDesc 0)) 64 false] [] s).1 =
       some [(bytesOf [0x0005000700000001, 0, 0, 0, 0, 0, 0, 0], false)]) := by decide

theorem witness_sketchBits : 8 < ([0, 0x80000000, 0x3F800000, 0, 0, 0, 0, 0, 0x7FC00000] : List Word32).length := by decide

/-- A message body: kind, sender's device and further words. -/
def msg (kind device : Nat) (rest : Words := []) : Words := msgW0 kind 0 h6 :: msgW1 device 0 :: rest

/-- Corpus 0, registered with a descriptor of one list at 1000h and a floor. -/
def corpusAt (floor : Word32) : State :=
  holding 0x1000 [0x0004000000000001, 0x0100000100000000, 0, 0, 0, 0, 0, 0]
    { live with corpora := [(0, { desc := 0x1000, floor := floor, enable := true })] }

/-- Stack 0 with a flock of root 40h on no engine, or on engine 2. -/
def flocked (st : FlockState) : State := { live with
  stackT := [(0, { enable := true, fn := .ready, fromOff := false, flocks := [⟨0x40, st, []⟩] })] }

theorem witness_sweepsOnTheirOwner :
    (live.hubUp = true ∧ msgKind (msg 1 0) = 1 ∧ (takeLoop (msg 1 0) live).killed 0 h6 = false ∧
      (sweepCheck (takeLoop (msg 1 0) live) (msg 1 0)).1 = 0x121) ∧
    (let s : State := { live with fabric := { kills := [⟨9, h6, 5⟩] } }
     (takeLoop (msg 1 9) s).killed (msgDevice (msg 1 9)) (msgHandle (msg 1 9)) = true) ∧
    (sweepCheck (takeLoop (msg 1 0) (corpusAt 0)) (msg 1 0)).1 = 0 ∧
    (let s := corpusAt 3
     (sweepCheck (takeLoop (msg 1 0) s) (msg 1 0)).1 = 0x312) ∧
    ((flocked .open).stackUp 0 = true) ∧
    (let t := (flocked .due).stack 0
     t.idleEngine = some 0 ∧ t.nextDue = some ⟨0x40, .due, []⟩) ∧
    (let t := (flocked (.sweeping 2)).stack 0
     t.nextDue = none ∧ t.flocks.find? (fun f => f.onEngine 2) = some ⟨0x40, .sweeping 2, []⟩) := by decide

theorem witness_membersGetTheirNearest : 1 ≤ (⟨0, 0, 1, [], 0, 0⟩ : Member).h := by decide

/-- A pen of tenant 0 with dimension 1 at 2000h. -/
def penned : State := holding 0x2000 [0, 0x0000000400000000, 0x10000, 0, 0, 0, 0, 0] live

/-- A pen request for it at an epoch. -/
def penAsk (epoch : Nat) : Words := [msgW0 2 0 h6, msgW1 0 epoch, 1, 0, 0x2000, 0, 0, 0]

/-- Slot 6 scans and awaits device 9. -/
def awaiting (a : Awaited) : State := serving { inSlot ssRunning sgScan (descOf 2 (2 ^ 63)) with awaited := [a], committed := false }

theorem witness_pensRepliesRetries_pens :
    (penned.hubUp = true ∧ msgKind (penAsk 3) = 2 ∧ penned.penCluster.isSome = true ∧ penCheck penned (penAsk 3) = 0 ∧
      penned.penEpochFor (penAsk 3) = some 3 ∧ srEpoch (penAsk 0) = 0 ∧ penCheck penned (penAsk 0) = 0 ∧ penned.penRecord (penAsk 0) = none ∧
      penned.scan.penRecords.length < 65536) ∧
    (let s : State := { penned with scan := { penWaiting := [penAsk 0] } }
     (takePenEpoch (penAsk 0) s).penCluster.isSome = true ∧ penCheck (takePenEpoch (penAsk 0) s) (penAsk 0) = 0 ∧
     (takePenEpoch (penAsk 0) s).penEpochFor (penAsk 0) = some 4) ∧
    (let r : PenRecord := ⟨9, h6, 0x2000, 3, 0⟩
     let s : State := { live with time := 0xFFFFFFFFFF, scan := { penRecords := [r] } }
     s.hubUp = true ∧ s.scan.penRecords.find? (fun r => r.entry = 9 && r.handle = h6) = some r ∧ s.recordLife ≤ (s.time - r.at_).toNat) := by decide

/-- Every record of a pen epoch is taken by other requests. -/
def recordsFull : State := { penned with scan := { penWaiting := [penAsk 0], penRecords := List.replicate 65536 ⟨9, 0, 0, 0, 0⟩ } }

theorem witness_pensRepliesRetries_noRecord :
    65536 ≤ recordsFull.scan.penRecords.length ∧ takePenEpoch (penAsk 0) recordsFull = recordsFull ∧
    recordsFull.penEpochFor (penAsk 0) = none := by
  have h : 65536 ≤ recordsFull.scan.penRecords.length := by
    show 65536 ≤ (List.replicate 65536 (⟨9, 0, 0, 0, 0⟩ : PenRecord)).length
    rw [List.length_replicate]
  refine ⟨h, by unfold takePenEpoch; rw [if_pos (.inr (.inr h))], ?_⟩
  unfold State.penEpochFor
  rw [if_neg (by decide)]
  show ((List.replicate 65536 (⟨9, 0, 0, 0, 0⟩ : PenRecord)).find? _).map _ = none
  rw [List.find?_replicate_eq_none_iff.2 (.inr (by decide))]
  rfl

theorem witness_pensRepliesRetries_replies :
    (∀ pen : Bool, let b := msg (if pen then 0x82 else 0x81) 9
      let a : Awaited := ⟨pen, 9, 0, 0, false, []⟩
      let s := awaiting a
      s.hubUp = true ∧ msgKind b = (if pen then 0x82 else 0x81) ∧ (takeLoop b s).live (msgHandle b) = true ∧ spCode b = 0 ∧
      spCode (msg (if pen then 0x82 else 0x81) 9 [0x123]) ≠ 0 ∧
      ((takeLoop b s).slot 6).awaited.find? (fun a => a.pen = pen && a.device = msgDevice b) = some a ∧ a.answered = false ∧ live.live (msgHandle b) = false) ∧
    (let a : Awaited := ⟨false, 9, 0, 0, false, []⟩
     let s : State := { awaiting a with time := 0xFFFFFFFFFF }
     (s.slot 6).awaited.find? (fun a => a.pen = false && a.device = 9 && !a.answered) = some a ∧ s.retries 6 = true ∧
     s.scan.retryNs.toNat ≤ (s.time - a.sentAt).toNat ∧ a.attempt < s.scan.retries ∧ (s.slot 6).commitsSent = false) ∧
    (awaiting ⟨false, 9, 7, 0, false, []⟩).scan.retries ≤ 7 := by decide

/-- A publish job held in slot 1 by its kind: one page, at 3000h of stack 0. -/
def jobbed (kind : Nat) (read : Bool := false) : State :=
  let d : Words := [BitVec.ofNat 64 (kind * 2 ^ 56), 0x8000, 0x3000, BitVec.ofNat 64 (2 ^ 32), 0, 0, 0, 0]
  { live with jobs := [(1, { desc := d, cur := d, state := .accepted, gen := 1, kind := kind, order := 1, read := read })] }

/-- A pen header at 2000h to switch from 0 to a version of type 2 and epoch 5 at 4000h. -/
def switching : State := holding 0x4000 [0x0002000000000005, 0] (holding 0x2000 [0, 0, 0x10000] live)
def switchDesc : Words := [0x0202000000000000, 0, 0x2000, 5, 0, 0x4000, 0, 0]

theorem witness_publishJobs :
    (∀ via ∈ [Carrier.mailbox, .i3c, .vdm], live.carrierUp via = true ∧ live.fwReady = true) ∧
    (let s : State := { live with fw := {} }
     s.carrierUp .mailbox = true ∧ s.fwReady = false) ∧
    ((jobbed 1).hubUp = true ∧ (jobbed 1).jobMayRun 1 = true ∧ ((jobbed 1).job 1).kind = jkPages ∧ pagesDst ((jobbed 1).job 1).cur (jobbed 1) = true ∧
      twf {} (jobbed 1).jobs = true ∧ live.jobMayRun 1 = false) ∧
    (pagesDst [0x0100000000000000, 0x8000, 0x3001, 0x0000000100000000] live = false) ∧
    ((jobbed 2).jobMayRun 1 = true ∧ ((jobbed 2).job 1).kind = jkSwitch ∧ (jobbed 2).copying 3 = false) ∧
    ((jobbed 3).jobMayRun 1 = true ∧ ((jobbed 3).job 1).kind = jkFree) ∧
    ((jobbed 4).jobMayRun 1 = true ∧ ((jobbed 4).job 1).kind = jkLoad ∧ ((jobbed 4).job 1).held = true ∧ (jobbed 4).hostPath = true ∧
      arrayReadable ((jobbed 4).job 1).desc = true ∧ (jobbed 4).snooped (loadRange ((jobbed 4).job 1) 0) = true ∧
      (readOps ((jobbed 4).job 1).desc 0 1 [] (jobbed 4)).1 = 0) ∧
    (let s : State := { jobbed 4 true with jobs := (jobbed 4 true).jobs ++ [(2, { state := .accepted })] }
     (s.job 1).read = true ∧ s.jobMayRun 1 = false) ∧
    (let s : State := { jobbed 2 with
      hbm := { hingeTarget := some (0, 5) }
      stackT := [(0, { enable := true, fn := .ready, fromOff := false, hinge := [(5, ⟨true, 1, false, 3⟩)] })] }
     s.copying 0 = false ∧ s.copying 3 = true) ∧
    (let s := switching
     let d := switchDesc
     localOk (jbDst d) = true ∧ s.inIntake (jbDst d) = false ∧ switchAway d s = false ∧ s.pointerAt (jbDst d) = true ∧ scopeMatches d s = true ∧ (peek s (jbDst d) 64).poison = false ∧ (peek s (jbDst d) 64).code = 0 ∧
     leNat ((peek s (jbDst d) 64).data.take 8) = jbExpect d ∧ jbScope d = 0 ∧ newOk d (touch [(jbDst d, 64)] s) = true ∧
     epochLater d (touch [(jbDst d, 64)] s) = true ∧ jbPenFloor d ≤ ((touch [(jbDst d, 64)] s).penHeld (jbDst d)).getD (2 ^ 32) ∧
     (runSwitch false d s).1 = 0 ∧ leNat ((peek s (jbDst d) 64).data.take 8) ≠ jbExpect (d.set 4 9)) ∧
    live.pointerAt (jbDst switchDesc) = false ∧ switchAway switchDesc { live with stackT := [] } = true ∧
    live.inIntake 0xBB80000000 = true := by decide

theorem witness_epochAdvances :
    (live.carrierUp .mailbox = true ∧ live.fwReady = true ∧ 63 < 64 ∧ (live.corpus 63).current < 1 ∧ live.jobs = []) ∧
    ((0 : Word32) ≤ (live.corpus 63).current) ∧
    ((live.corpus 63).floor ≤ 0 ∧ (0 : Word32) ≤ (live.corpus 63).current ∧ (0 : Word32).toNat ≤ live.oldestHeld 63) ∧
    (let s : State := { jobbed 4 with corpora := [(63, { current := 2 })] }
     ∃ j ∈ s.jobs, j.2.held = true ∧ j.2.kind = jkLoad ∧ j.2.read = false) := by decide

/-! A core with one command of the device itself in its queue, changed by f. -/

def cmd0 : DispatchCmd := { region := 0, slotBase := 0, params := [], input := [], handle := none, tenant := 0, cmdClass := 0, tclass := 0, model := none }
def q0 : CoreCmd := { cmd := cmd0, life := {}, slots := 4, inFirst := 0, inCount := 0, span := 1, configs := 0, resident := 0, xparam := 0, solo := 100 }
def coreOf (f : Core → Core) : State := { live with cores := [(0, f { cmds := [q0] })] }

/-- A configuration of a kind alone, due 8 c-cycles after the start before it. -/
def cfg (kind : Nat) : Words := [BitVec.ofNat 64 (kind * 2 ^ 56 + 2 ^ 52 + 8 * 2 ^ 32)]
def feeding (kind : Nat) : State := coreOf fun c => { c with inMacro := true, feed := [(8, cfg kind)] }

theorem witness_configurationsStart :
    (∀ kind ∈ [1, 2, 3, 4, 5], let s := feeding kind
      s.coreUp 0 = true ∧ (s.core 0).frozen = none ∧ (s.core 0).nextCfg = some (16, cfg kind, true) ∧ cfKind (cfg kind) = kind ∧
      (Safety.fetched 0 true s).coreUp 0 = true ∧ ((Safety.fetched 0 true s).core 0).slipCase (cfg kind) true 16 = none) ∧
    (let s := coreOf fun c => { c with inMacro := true, feed := [(8, cfg 1)], index := 5, pendRegs := [⟨3, 4, 0, 7, 0, false⟩] }
     (s.core 0).nextCfg = some (16, cfg 1, true) ∧ (s.core 0).slipCase (cfg 1) true 16 = some (4, 4)) ∧
    (let s := coreOf fun c => { c with stateErrs := [(byteKey clsImem 512, 3)], cmds := [{ q0 with configs := 1 }] }
     (s.core 0).nextCfg.isSome = true ∧ (Safety.fetched 0 false s).coreUp 0 = false) ∧
    (live.coreUp 255 = false) := by decide

/-- A copy of one slot to the core's own first slot. -/
def moveOut : Words := [0x0310000000000000, 0, 0, 0, 0, 0, 0, 0, 0x0400000000000000, 0, 0x0000080000000000, 0, 0]
/-- An array pass whose row count is in X5, for at most 4 rows. -/
def dynPass : Words := [0x0110000000000000, 0, 0, 0, 0, 0, 0, 0, 0x0450000A00000000, 0x0000004000000000, 0x0000000400000000, 0, 0]

theorem witness_enginesTake :
    (let s := coreOf fun c => { c with regs := [(5, 9)], slots := [(0, { latch := true })] }
     let u := readForStart 0 [] dynPass s
     u.coreUp 0 = true ∧ declaredRows dynPass = 4 ∧ declaredRows dynPass < ((u.core 0).dynRows [] dynPass).1) ∧
    (let u := readForStart 0 [] dynPass (coreOf fun c => { c with slots := [(0, { latch := true })] })
     ((u.core 0).dynRows [] dynPass).1 ≤ declaredRows dynPass ∧ (u.core 0).emptyRead dynPass 0 = none) ∧
    (let u := readForStart 0 [] dynPass (coreOf fun c => { c with regs := [(5, 3)] })
     ((u.core 0).dynRows [] dynPass).1 = 3 ∧ (u.core 0).emptyRead dynPass 3 = some (0, 0)) ∧
    (let s := coreOf fun c => { c with slots := [(0, { latch := true })] }
     let u := readForStart 0 ((s.core 0).place 0 0) moveOut s
     (s.core 0).cmds = q0 :: [] ∧ u.coreUp 0 = true ∧ (u.core 0).emptyRead moveOut 1 = none ∧ mvKind moveOut = 4 ∧ mvSlots moveOut ≠ 0 ∧
     ((regsRead ((s.core 0).place 0 0) moveOut).any fun r => tget false (u.core 0).regPoison r) = false) ∧
    (let u := readForStart 0 (((coreOf id).core 0).place 0 0) moveOut (coreOf id)
     (u.core 0).emptyRead moveOut 1 = some (0, 0)) ∧
    (let w := moveOut.set 8 0x0100020000000000
     let s := coreOf fun c => { c with regPoison := [(0, true)], slots := [(0, { latch := true })] }
     let u := readForStart 0 ((s.core 0).place 0 0) w s
     (u.core 0).emptyRead w 1 = none ∧ ((regsRead ((s.core 0).place 0 0) w).any fun r => tget false (u.core 0).regPoison r) = true) ∧
    (let w := cfg 5
     let u := readForStart 0 [] w (coreOf id)
     u.coreUp 0 = true ∧ (if mcMdyn w then (tget 0 (u.core 0).regs (mcXm w)).toNat else mcM w) ≤ mcM w) ∧
    (let w : Words := [0x0510000000000000, 0, 0, 0, 0, 0, 0, 0, 0x0400000000000000, 0, 0, 0, 0]
     let u := readForStart 0 [] w (coreOf fun c => { c with regs := (List.range 32).map fun r => (r, 9) })
     u.coreUp 0 = true ∧ mcM w < (if mcMdyn w then (tget 0 (u.core 0).regs (mcXm w)).toNat else mcM w)) := by decide

def runOf (e : Engine) (w : Words) (doneAt : Nat) : EngRun := ⟨e, w, 0, 0, 0, doneAt, doneAt, [], []⟩

theorem witness_configurationsEnd :
    (let s := coreOf fun c => { c with fence := some 0xE000000000000000 }
     s.coreUp 0 = true ∧ (s.core 0).frozen = none ∧ (s.core 0).fence = some 0xE000000000000000) ∧
    (let s := coreOf fun c => { c with runs := [runOf .array dynPass 5] }
     (s.core 0).runs.find? (fun r => r.engine = .array) = some (runOf .array dynPass 5) ∧ (s.core 0).startsPast 5 = true) ∧
    ((feeding 1).core 0).startsPast 16 = false ∧
    (∀ now ∈ [0, 2], let p : PendingReg := ⟨3, 7, 0, 1, 0, false⟩
     let s := coreOf fun c => { c with pendRegs := [p], now := now }
     (s.core 0).pendRegs.find? (fun p => p.reg = 3) = some p ∧ (s.core 0).startsPast p.land = true ∧ (s.core 0).slip = true ∧
     (p.land < (s.core 0).now ↔ now = 2)) := by decide

theorem witness_commandsOnCores :
    (live.alive = true ∧ live.serves cmd0 = true ∧ live.serves { cmd0 with handle := some h6 } = false) ∧
    (let s := coreOf fun c => { c with committing := true }
     (s.core 0).cmds = q0 :: [] ∧ s.coreUp 0 = true ∧ (s.core 0).mayCommit = true ∧ ((coreOf id).core 0).mayCommit = false) ∧
    (let m : MoveRun := ⟨1, none, 0, 2, false, [⟨0x40, 8, 0, true, none, some []⟩], 1, 0, false, false, 0⟩
     let s := coreOf fun c => { c with moves := [m] }
     let u := readState 0 clsControl (slotAddr 2) 4 s
     (s.core 0).moves.find? (fun m => m.id = 1) = some m ∧ s.coreUp 0 = true ∧ s.coreUp m.core = true ∧ m.waiting = false ∧
     (∀ p ∈ m.pieces, p.got ≠ none) ∧ s.buffered m.core < 64 ∧ landingSlot s m = some 2 ∧ u.coreUp m.core = true ∧
     ((u.core 0).slotW 2).open_ = true) ∧
    (let s := coreOf fun c => { c with slots := [(2, { latch := true })], moves := [⟨1, none, 0, 2, false, [], 1, 0, false, true, 0⟩] }
     ((s.core 0).slotW 2).open_ = false) ∧
    (let s : State := { live with coreE := { scrubPeriod := 0 } }
     live.inService 0 = true ∧ live.coreE.scrubPeriod ≠ 0 ∧ live.scrubAt 0 ≤ live.time ∧ s.coreE.scrubPeriod = 0) ∧
    (let s : State := { live with time := 2048 }
     s.scrubAt 0 + BitVec.ofNat 64 (s.coreE.scrubForce.toNat / 2) ≤ s.time) ∧
    (3070 + 2 ≤ 3072 ∧ (coreOf id).clearOfModels 0 3070 2 = true ∧
     (∀ q ∈ ((coreOf id).core 0).cmds, 3070 + 2 ≤ q.cmd.slotBase ∨ q.cmd.slotBase + q.slots ≤ 3070) ∧
     ¬ ∀ q ∈ ((coreOf id).core 0).cmds, 3 + 1 ≤ q.cmd.slotBase ∨ q.cmd.slotBase + q.slots ≤ 3) := by decide


/-- Model slot 1 is Ready on cluster 0, and serves there; slot 6 has a sequence in it. -/
def modelled (q : Seq) : State := { serving (inSlot ssRunning sgRewrite (descOf 4 (2 ^ 63))) with
  models := [(1, { fn := .ready, clusters := 1 })], serving := { seqs := [q] } }
def seq6 (pre : Bool) : Seq := { slot := 6, model := 1, inst := 0, prompt := [3], limit := 4, eos := 0, pages := 0, input := [], prefilled := pre }

theorem witness_modelsAndVocabularies :
    (let s := modelled (seq6 false)
     s.hubUp = true ∧ twf {} s.vocabs = true ∧ s.instServes 1 0 = true ∧ batchOf s 1 0 (fun q => !q.prefilled) (fun q => q.prompt.length) = [seq6 false]) ∧
    (let s := modelled (seq6 true)
     genBatch s 1 0 = [seq6 true]) ∧
    live.instServes 1 0 = false ∧
    (let s : State := { live with time := 100000 }
     1000 * s.serving.ratioPeriod.toNat ≤ (s.time - s.serving.ratioAt).toNat) ∧
    ¬ 1000 * live.serving.ratioPeriod.toNat ≤ (live.time - live.serving.ratioAt).toNat ∧
    (∀ abandon : Bool, let s : State := { live with models := [(1, { fn := .starting, abandon := abandon })] }
      (s.model 1).fn = .starting ∧ (s.model 1).abandon = abandon ∧ (startPlan 1 s).1 ≠ 0) ∧
    (let s : State := { live with models := [(1, { fn := .starting, programs := [(0, 1)] })] }
     (s.model 1).fn = .starting ∧ (s.model 1).abandon = false ∧ (if (s.model 1).programs = [] then startPlan 1 s else (0, s)).1 = 0) ∧
    (∀ abandon : Bool, let s : State := { live with vocabs := [(2, { fn := .starting, abandon := abandon })] }
      twf {} s.vocabs = true ∧ (s.vocab 2).fn = .starting ∧ (s.vocab 2).abandon = abandon) := by decide

/-- Model slot 1 starts: an encoder whose one image, at 4000h, takes two slots; slot 3 starts beside it, in all slots or in none. -/
def planned (beside : Nat) : State := holding 0x4000 [0, 0x200000] { live with
  vocabs := [(0, { enable := true, fn := .ready })]
  models := [(1, { fn := .starting, clusters := 1, head := [0x000A110000000008, 0, 0, 0x100000, 0x4000, 0, 0, 0] }),
             (3, { fn := .starting, clusters := 1, rangeSlots := beside })] }

theorem witness_modelsAndVocabularies_plan :
    ((planned 0).model 1).fn = .starting ∧ ((planned 0).model 1).abandon = false ∧ (startPlan 1 (planned 0)).1 = 0 ∧
    ((startPlan 1 (planned 0)).2.model 1).programs ≠ [] ∧
    (startPlan 1 (planned 3072)).1 = 0 ∧ ((startPlan 1 (planned 3072)).2.model 1).programs = [] := by decide

/-- A command of 1,000 c-cycles and class 2 waits on cluster 0. -/
def queueing : State := { live with
  time := 100000
  cores := [(0, { imem := memWrite [] 0 (bytesOf [0x10000]) ++ memWrite [] 512 (bytesOf [1000]) })]
  clusters := [(0, { enable := true, fn := .ready, waiting := [⟨{ cmd0 with cmdClass := 2 }, {}, 0, none⟩] })] }

theorem witness_modelsAndVocabularies_ratio :
    queueing.queuedWork = (0, 1000) ∧ 1000 * queueing.serving.ratioPeriod.toNat ≤ (queueing.time - queueing.serving.ratioAt).toNat ∧
    ((List.range 16).filter fun c => (queueing.cluster c).pin = 0).length = 16 ∧
    (((List.range 16).filter fun c => (queueing.cluster c).pin = 0).filter fun c => (queueing.cluster c).aim = 2).length = 0 ∧
    queueing.serving.ratioHyst ≤ max queueing.serving.genMin (min queueing.serving.genMax (roundTo (16 * 1000) 1000 queueing.serving.ratioUnit false)) ∧
    queueing.serving.ratioHyst ≤ max queueing.serving.genMin (min queueing.serving.genMax (roundTo (16 * 1000) 1000 queueing.serving.ratioUnit true)) ∧
    live.queuedWork = (0, 0) := by decide

theorem witness_acceptedTokens : choose [0, 0x3F800000, 0xBF800000] (fun _ => true) 3 = some 1 := by decide

/-- Stack 1 with a hinge for page 7, and in a state. -/
def hinging (fn : FnState) (abandon fromOff : Bool) : State := { live with
  stackT := [(1, { enable := true, fn := fn, abandon := abandon, fromOff := fromOff, hinge := [(0, ⟨true, 1, false, 7⟩)] })]
  hbm := { hingeTarget := some (1, 0) } }

theorem witness_hingesAndStacks :
    ((hinging .ready false false).hubUp = true ∧ (hinging .ready false false).hbm.hingeTarget = some (1, 0) ∧ live.hbm.hingeTarget = none) ∧
    (∀ abandon fromOff : Bool, let s := hinging .starting abandon fromOff
      s.startable (idMemory 1) = true ∧ (s.stack 1).fn = .starting ∧ twf {} s.stackT = true ∧ twf {} s.islands = true ∧
      (s.stack 1).abandon = abandon ∧ (s.stack 1).fromOff = fromOff) ∧
    (∀ fn ∈ [FnState.ready, .starting], let s : State := { hinging fn false false with pageMap := [(2 ^ 24 + 7, { kind := .published })] }
      s.hubUp = true ∧ (s.page (2 ^ 24 + 7)).kind.written = true ∧ s.hbm.held = [] ∧
      ((peek s (4096 * (2 ^ 24 + 7)) 4096).code = 0 ↔ fn = .ready)) := by decide

/-- The intake region is committed, its stack 11 Ready or not, and page 5 is being snooped. -/
def intake (fn : FnState) : State := { live with
  stackT := [(11, { enable := true, fn := fn, fromOff := false })]
  host := { linkState := 2, committed := true, snooping := [5] } }

theorem witness_intakeRegion :
    ((intake .ready).hostUp = true ∧ (intake .ready).intakeStack = 11 ∧ (intake .ready).host.committed = true ∧ 2 ^ 28 - 1 < 2 ^ 28 ∧
      ((intake .ready).stack (intake .ready).intakeStack).fn = .ready ∧ memWf (intake .ready).mem = true ∧ 5 ∈ (intake .ready).host.snooping ∧
      6 ∉ (intake .ready).host.snooping) ∧
    ((intake .off).hostUp = true ∧ ((intake .off).stack (intake .off).intakeStack).fn ≠ .ready) := by decide

/-- A table command on ring 3 for table 1 with one index, on a device whose ring 3 is a table ring and whose table 1 is Ready. -/
def tblDesc (op : Nat) : Words := (descOf op (2 ^ 58)).set 5 0x100000000
def tabled : State := { asked with
  rings := [(3, { enable := true, tail := 1, kind := 1 })], tables := [(1, { enable := true, fn := .ready, desc := 0x8000 })] }
def inTable (op : Nat) (f : Slot → Slot) : State := { tabled with slots := [(6, f (inSlot ssRunning sgEmbed (tblDesc op)))] }

theorem witness_tableCommandsStart :
    ∀ op ∈ [0x10, 0x11, 0x12, 0x13], twf {} tabled.slots = true ∧ dOpcode (tblDesc op) = op ∧ tabled.mayTake 3 = true ∧ (tabled.ring 3).kind = 1 ∧
      mirrorBad (tblDesc op) = false ∧ tabled.hostPath = true ∧ tabled.snooped [(tdIndexAddr (tblDesc op), 8 * tdIndices (tblDesc op))] = true ∧
      tabled.ringEntry 3 (tblDesc op) = tblDesc op ∧ tabled.windowOffset (tabled.entryAddr 3) = none := by decide

/-- A range of the host window, whose stack 11 is Ready, has not been snooped. -/
theorem witness_tableCommandsStart_snoop : (intake .ready).snooped [(0x1000, 8)] = false := by decide

theorem witness_tableCommandsStart_checks :
    ∀ op ∈ [0x10, 0x11, 0x12, 0x13], Safety.checkCode 3 (tblDesc op) (tableForm op (tblDesc op)) (tableDescCheck (tblDesc op)) tabled = 0 ∧
      Safety.checkCode 3 (tblDesc op) (tableForm op (tblDesc op)) (tableDescCheck (tblDesc op)) { tabled with tables := [] } = 0x342 ∧
      tabled.slotFor (dTenant (tblDesc op)) = some 0 ∧ (policeTenant 3 (dTenant (tblDesc op)) tabled).1 = true := by decide

/-- A gather and an update of a row past the table's. -/
def gatherPast : State := inTable 0x10 fun x => { x with indices := [0] }
def updatePast : State := inTable 0x11 fun x => { x with indices := [0] }

theorem witness_tableCommandsStart_gather :
    (rootAt gatherPast 1 0).2 = 0 ∧ tdPool (gatherPast.slot 6).desc = 0 ∧
    firstCode gatherPast [hotRange (rootWords gatherPast (rootAt gatherPast 1 0).1)] = 0 ∧
    (resolveRows 6 1 5 (gatherPast.tblHeadOf 1) [] [] [0] gatherPast []).1 = 0 ∧
    (let s := inTable 0x10 fun x => { x with indices := [0], desc := x.desc.set 1 0x0500000000000000, offsets := [5] }
     tdPool (s.slot 6).desc ≠ 0 ∧ offsetsOk (s.slot 6).desc ((s.slot 6).offsets.map BitVec.toNat) = false) ∧
    (let s : State := { gatherPast with tables := [(1, { enable := true, fn := .ready, floor := 1 })] }
     (rootAt s 1 0).2 = 0x341) := by decide

theorem witness_tableCommandsStart_bad : ∃ i ∈ (updatePast.slot 6).indices, tblRows (updatePast.tblHeadOf 1) ≤ i.toNat :=
  ⟨0, by decide, by decide⟩

theorem witness_tableCommandsStart_update : hotFull (updatePast.slot 6).desc (updatePast.slot 6) updatePast = false := by
  have h : decide (dOpcode (updatePast.slot 6).desc = opPromote) = false := by decide
  simp only [hotFull, h, Bool.false_and]

/-- A table message for table 1. -/
def tmsg (kind : Nat) (rest : Words := []) : Words := msgW0 kind 0 h6 :: BitVec.ofNat 64 (9 * 2 ^ 50 + 1) :: rest

theorem witness_tableReplies :
    (∀ kind ∈ [0x83, 0x84, 0x85], let a : Awaited := ⟨false, 9, 0, 0, false, tmsg (kind - 0x80)⟩
      let s := inTable 0x11 fun x => { x with awaited := [a] }
      s.hubUp = true ∧ msgKind (msg kind 9) = kind ∧ (takeLoop (msg kind 9) s).live (msgHandle (msg kind 9)) = true ∧
      ((takeLoop (msg kind 9) s).slot 6).awaited.find? (Safety.answers kind (msg kind 9)) = some a ∧ tmCode (msg kind 9) = 0 ∧
      tmCode (tmsg kind) ≠ 0 ∧ live.live h6 = false ∧ ((takeLoop (msg kind 7) s).slot 6).awaited.find? (Safety.answers kind (msg kind 7)) = none) := by
  decide

/-- Table 1 with a head word at 8000h, a root at 9000h, and a map page in a stack that is Off. -/
def mapped : State := holding 0x9000 [0x000D000000000000, 0, 0x3000000000, 0x3000000000] (holding 0x8000 [0x9000] { tabled with
  tables := [(1, { enable := true, fn := .ready, head := [0x000C000000608000, 0x20000000, 0, 0, 0x8000, 0, 0, 0] })] })

theorem witness_tableHomesAndSeals_rows :
    (let u := mapped
     let h := u.tblHeadOf 1
     let r := rootWords u (rootAt u 1 0).1
     let got := readTableRows 1 5 h (fun row => (tvrMap r, row / tblPer h, row % tblPer h)) [0] u
     u.tableUp 1 = true ∧ (rootAt u 1 0).2 = 0 ∧ u.islandOut = false ∧ (got.1.find? (fun o => o.code ≠ 0)).isSome = true) ∧
    (let u : State := { tabled with tables := [(1, { enable := true, fn := .ready, floor := 1 })] }
     u.tableUp 1 = true ∧ (rootAt u 1 0).2 ≠ 0) ∧
    (applyCode 1 (mapped.tblHeadOf 1) [0] mapped ≠ 0 ∧ applyCode 1 (tabled.tblHeadOf 1) [] tabled = 0) := by decide

theorem witness_tableHomesAndSeals :
    (∀ kind ∈ [3, 4, 5], msgKind (tmsg kind) = kind ∧ tabled.hubUp = true ∧ tabled.killed 9 h6 = false ∧ live.tableUp 1 = false ∧
      ({ tabled with fabric := { kills := [⟨9, h6, 5⟩] } } : State).killed (msgDevice (tmsg kind)) (msgHandle (tmsg kind)) = true) ∧
    (let u := takeLoop (tmsg 3 [1]) tabled
     rrSlot (tmsg 3 [1]) = 1 ∧ u.tableUp 1 = true ∧ (rootAt u 1 (rrVersion (tmsg 3 [1]))).2 = 0) ∧
    (let u := takeLoop (tmsg 4) tabled
     tmSlot (tmsg 4) = 1 ∧ u.tableUp 1 = true ∧ u.stackUp (stackOf (tblHead (u.tblHeadOf 1))) = true ∧
     u.tables.find? (fun e => e.2.staged.any fun g => g.src = 9 && g.handle = h6) = none) ∧
    (let s : State := { tabled with tables := [(1, { enable := true, fn := .ready, staged := [⟨9, h6, .add, []⟩] })] }
     (s.tables.find? (fun e => e.2.staged.any fun g => g.src = 9 && g.handle = h6)).map Prod.fst = some 1) ∧
    (∀ kind ∈ [6, 0x86, 7, 0x87], msgKind (tmsg kind) = kind) ∧
    (smVersion (tmsg 7 [1]) = (tabled.tableSlot 1).built + 1 ∧ smVersion (tmsg 7 [0]) ≤ (tabled.tableSlot 1).built ∧
      (tabled.tableSlot 1).built + 1 < smVersion (tmsg 7 [2])) := by decide

theorem witness_migrations :
    tabled.hubUp = true ∧ tabled.tableUp (tmSlot (tmsg 8)) = true ∧ (∀ kind ∈ [8, 0x88, 9, 0x89], msgKind (tmsg kind) = kind) ∧
    tmAct (tmsg 8) ≠ .promote ∧ tmAct (tmsg 9) ≠ .demote ∧ tmAct (msgW0 8 0 0 :: [0x201]) = .promote ∧ tmAct (msgW0 9 0 0 :: [0x301]) = .demote ∧
    11 < 12 ∧ tabled.inService (idMemory 11) = true := by decide

/-- A packet for device 0, of no payload, with link sequence number `lseq`. -/
def packet (type lseq : Nat) (code : Nat := 0) : Packet :=
  let w := ({ type := type, tclass := 0, hops := 3, dst := 0, src := 9, island := 4, tag := 2, addr := 0x40, rlen := 8, code := code : PktF }).words
  ⟨w.set 6 (BitVec.ofNat 64 (lseq * 2 ^ 48)), [], 0⟩

/-- An access of island 4 with tag 2, issued for something, its read of 8 bytes under way. -/
def accessOf (i : Issuer) : Access := ⟨4, 2, i, (packet 1 0).hdr, [], 0, 0, []⟩
def issued (i : Issuer) : State := { live with fabric := { accesses := [accessOf i] }, time := 0xFFFFFFFF }

/-- Every packet of device 9 is red. -/
def policed : State := { live with traffic := { policers := [(0, { w0 := 0x4000000000000000 })], map := [(9, 0)] } }

theorem witness_packetArrival :
    (∀ type ∈ [1, 2, 3, 4, 0x81, 0x82, 0x83, 0x84], (packet type 0).type = type ∧ seqOk (live.link 0) (packet type 0) = true ∧
      (police 0 (packet type 0) live).1 = true ∧ seqOk (live.link 0) (packet type 0x8000) = false) ∧
    live.linkServes 0 = true ∧ (policed.linkServes 0 = true ∧ (police 0 (packet 1 0) policed).1 = false) := by decide

theorem witness_packetsAreServed :
    (live.floorOk 0 0 0 0 = true ∧ (peek live 0x40 8).code = 0 ∧ (peek live 0x2000000000 8).code ≠ 0) ∧
    ({ live with tables := [(1, { floor := 4 })] } : State).floorOk 3 1 3 0 = false ∧
    ((packet 0x81 0).lpoison = 0 ∧ live.access (packet 0x81 0).island (packet 0x81 0).tag = none) ∧
    (let a := accessOf (.request 6)
     let s := issued (.request 6)
     s.access (packet 0x81 0).island (packet 0x81 0).tag = some a ∧ bits (word a.hdr 0) 63 56 + 0x80 = 0x81 ∧ (packet 0x81 0).code = 0 ∧
     (packet 0x81 0 0x320).code ≠ 0 ∧ a.got = [] ∧ segCount (word a.hdr 2).toNat (bits (word a.hdr 5) 63 32) = 1) ∧
    (issued (.job 1 0)).access 4 2 = some (accessOf (.job 1 0)) ∧ live.copying (pageNo 0x40) = false ∧
    (let s : State := { live with hbm := { hingeTarget := some (0, 1) }, stackT := [(0, { hinge := [(1, ⟨true, 1, false, 0⟩)] })] }
     s.copying (pageNo 0x40) = true) := by decide

theorem witness_linkLayer :
    (twf {} live.links = true ∧ live.linkServes 0 = true ∧ assignedTypes.contains (packet 0x33 0).type = false ∧
      seqOk (live.link 0) (packet 0x33 0) = true ∧ (live.link 0).fn = .ready ∧ (live.link 0).replay = [] ∧ live.inService (linkIsland 0) = true) ∧
    (let s : State := { live with links := [(0, { fn := .ready, replay := [{ pkt := packet 1 0, at_ := 0 }], ackOwed := true })], time := 10000 }
     s.linkServes 0 = true ∧ (s.link 0).replay ≠ [] ∧ 10000 ≤ (s.time - (s.link 0).lastAck).toNat ∧ (s.link 0).ackOwed = true) ∧
    (∀ abandon : Bool, let s : State := { live with links := [(0, { fn := .starting, abandon := abandon })] }
      twf {} s.links = true ∧ s.inService (linkIsland 0) = true ∧ (s.link 0).fn = .starting ∧ (s.link 0).abandon = abandon ∧ 9 ≠ s.deviceId) := by decide

theorem witness_linkLayer_faultIdle : ∀ q, tget [] (live.link 0).queues q = [] := fun _ => rfl

theorem witness_fabricTimeouts :
    (∀ i ∈ [Issuer.coreMove 0 1, .request 6, .job 1 0], (issued i).access 4 2 = some (accessOf i) ∧ (issued i).overdue (accessOf i) = true) ∧
    ((coreOf id).core 0).cmds = q0 :: [] ∧ (accessOf (.job 1 0)).reruns < live.fabric.reruns ∧
    (let s : State := { issued (.job 1 0) with fabric := { (issued (.job 1 0)).fabric with reruns := 0 } }
     s.fabric.reruns ≤ (accessOf (.job 1 0)).reruns) ∧
    (let s : State := { live with fabric := { routed := true, routes := [(0, 0x8000000000000001)] } }
     s.linkFor 0 (pktKey ⟨(accessOf (.job 1 0)).hdr, [], 0⟩) = some 0) := by decide

theorem witness_killNotices :
    (twf {} live.slots = true ∧ live.hubUp = true ∧ msgKind (msg 0x0F 9) = 0x0F ∧ live.killed 9 h6 = false) ∧
    ({ live with fabric := { kills := [⟨9, h6, 5⟩] } } : State).killed (msgDevice (msg 0x0F 9)) (msgHandle (msg 0x0F 9)) = true := by decide

theorem witness_keyringWorks :
    (({ live with keyring := { dirCheck := some 0x1000 } } : State).keyring.dirCheck = some 0x1000) ∧
    (let m : Miss := ⟨.request 6, none, 0x40, 0, 5, false, 0⟩
     let s : State := { live with fabric := { misses := [m] } }
     s.fabric.misses = m :: [] ∧ s.inService (idCluster m.cluster) = true) ∧
    (live.victim = some 0 ∧ bit (tget {} live.keyring.entries 0).w0 21 = false) := by decide

/-- Link 0 with a packet in queue 4, credit for it, and a gate list of one entry that closes class 1. -/
def gateList : GateList := ⟨0, [0xFD000000000003E8]⟩
def egressLink : Link := { fn := .ready, queues := [(4, [{ pkt := packet 1 0, at_ := 0 }])], credits := [(4, 32768)], gateActive := some gateList, gateNext := some (gateList, 5) }
def egress : State := { live with time := 10, links := [(0, egressLink)] }

theorem witness_egressGatesAndShapers :
    (egress.inService (linkIsland 0) = true ∧ (egress.link 0).fn = .ready ∧ egress.boundary 0 = true ∧ (egress.link 0).control = [] ∧
      egress.eligible 0 4 = true ∧ (∀ j < 16, 4 < j → egress.eligible 0 j = false) ∧ tget [] (egress.link 0).queues 4 = { pkt := packet 1 0, at_ := 0 } :: []) ∧
    (∀ q < 16, live.eligible 0 q = false) ∧
    (let s : State := { live with links := [(0, { fn := .ready, control := [⟨none, none, []⟩], wireEnd := 5 })] }
     (s.link 0).control = ⟨none, none, []⟩ :: [] ∧ s.boundary 0 = false) ∧
    (let g := gateList
     (egress.link 0).gateNext = some (g, 5) ∧ (egress.link 0).gateActive = some g ∧ (egress.link 0).gateEntry < g.entries.length ∧ g.base ≤ 10 ∧
     g.entryAt 10 = (egress.link 0).gateEntry ∧ 42 < g.entryEnd 0 - g.phase 10 ∧ g.entryEnd 0 - g.phase 958 ≤ 42) ∧
    twf 0 (egress.link 0).credit = true := by decide

theorem witness_preemption :
    (let c : DispatchCmd := { cmd0 with slotBase := 8, tclass := 3 }
     let s := coreOf fun c => { c with cmds := [{ q0 with solo := 9000 }], regions := [(0, { verified := true })] }
     s.coreUp 0 = true ∧ s.serves c = true ∧ s.placement.preemptEnable = true ∧ cmd0.tclass < c.tclass ∧
     s.placement.minRemain.toNat < 9000 - (s.core 0).now ∧ (0 : Nat) < s.placement.preemptMax ∧
     dispatchOk s 0 (mkCmd s 0 c {}) = false) ∧
    ((live.core 0).cmds = [] ∧ live.coreUp 0 = true ∧ ¬ (coreOf id).placement.minRemain.toNat < q0.solo - ((coreOf id).core 0).now) := by decide

theorem witness_functionsComeUpAndDrain :
    (∀ abandon : Bool, let s : State := { live with clusters := [(2, { fn := .starting, abandon := abandon })], texts := [(3, { fn := .starting })] }
      s.startable (idCluster 2) = true ∧ (s.cluster 2).fn = .starting ∧ twf {} s.clusters = true ∧ (s.cluster 2).abandon = abandon ∧
      s.filling = false ∧ s.startable (idText 3) = true ∧ (s.textIsl 3).fn = .starting ∧ twf {} s.texts = true) ∧
    (let s : State := { live with coreE := { initMode := 1 }, stackT := [(0, { fn := .starting })] }
     s.filling = true) ∧
    (∀ role ∈ [2, 3], let s : State := { coreOf id with clusters := [(0, { fn := .draining, role := role }), (2, { fn := .draining, role := role })] }
      s.alive = true ∧ (s.cluster 0).fn = .draining ∧ (s.core 0).cmds ≠ [] ∧ (s.cluster 2).fn = .draining ∧ twf {} s.clusters = true ∧
      ∀ i < 16, (s.core (16 * 2 + i)).cmds = []) ∧
    (let s : State := { live with
       texts := [(0, { fn := .draining })], stackT := [(0, { fn := .draining })], links := [(0, { fn := .draining })]
       models := [(0, { fn := .draining })], tables := [(0, { fn := .draining })] }
     (s.textIsl 0).fn = .draining ∧ twf {} s.texts = true ∧ (s.stack 0).fn = .draining ∧ twf {} s.stackT = true ∧ (s.link 0).fn = .draining ∧
     twf {} s.links = true ∧ (s.link 0).replay = [] ∧ (s.link 0).queued = [] ∧ (s.model 0).fn = .draining ∧ s.modelUsers 0 = 0 ∧
     (s.tableSlot 0).fn = .draining ∧ s.tableUsers 0 = 0) ∧
    (let s := serving { inSlot ssRunning sgEmbed embedDesc with gens := [(0, 1)] }
     s.modelUsers 0 ≠ 0 ∧ s.hubUp = true ∧ s.live h6 = true ∧ twf {} s.slots = true ∧ (s.slot 6).commitsSent = false ∧
     (s.slot (handleSlot h6)).heldSince = none ∧ s.placement.held = []) ∧
    (let s : State := { serving { inSlot ssRunning sgEmbed embedDesc with heldSince := some 0 } with time := 50000000 }
     (s.slot 6).heldSince = some 0 ∧ s.placement.drainHold.toNat ≤ (s.time - 0).toNat) ∧
    (inTable 0x10 id).tableUsers 1 ≠ 0 ∧
    (let s : State := { live with links := [(0, { fn := .draining, replay := [{ pkt := packet 1 0, at_ := 0 }] })] }
     (s.link 0).replay ≠ []) := by decide

/-- Every enabled function in a state, and vocabulary 0 too. -/
def allIn (fn : FnState) : State := { live with
  stackT := [(0, { fn := fn })], models := [(0, { fn := fn, head := [1] })], tables := [(0, { fn := fn })], links := [(0, { fn := fn })]
  texts := [(0, { fn := fn })], clusters := [(0, { fn := fn, role := 3 })], vocabs := [(0, { fn := fn })] }

theorem witness_enablesFollowTheState :
    (∀ fn ∈ [FnState.off, .starting, .ready, .draining], ∀ r ∈ Safety.enableRows .mailbox 0 1 (allIn fn),
      r.fn = fn ∧ (r.index = 0x7201 ∨ r.mayStop = true) ∧ 0 < r.units ∧ (allIn fn).carrierUp .mailbox = true ∧ (allIn fn).fwReady = true) ∧
    (∀ r ∈ Safety.enableRows .mailbox 0 0 live, r.mayStop = true) ∧
    (∀ r ∈ Safety.enableRows .mailbox 0 0 (allIn .ready), r.index = 0x7201 → r.mayStop = false) ∧
    (let s : State := { live with fw := {} }
     s.carrierUp .mailbox = true ∧ s.fwReady = false) := by decide

theorem witness_entriesOfRequests :
    (live.carrierUp .vdm = true ∧ live.fwReady = true ∧ 63 < 64) ∧
    (let s : State := { live with templates := [(0, { id := 3, desc := 0x1000, enable := true })] }
     (s.template 0).enable = true) ∧
    ((live.template 63).enable = false ∧ templateCheck live 63 ≠ 0) ∧
    (let s := holding 0x1000 [0x0007000300000001, 0x0001000100000000, 0, 0, 0, 0, 0, 0, 0x0400000000000000]
      { live with templates := [(0, { id := 3, desc := 0x1000 })], vocabs := [(0, { fn := .ready })] }
     (s.template 0).enable = false ∧ templateCheck s 0 = 0) := by decide

/-- Table 1, whose next root stands at 9000h. -/
def rooted : State := holding 0x9000 [0x000D000000000001, 0xA000, 0x3000000000, 0x3000000000] (holding 0x8000 [0xA000] { tabled with
  tables := [(1, { enable := true, fn := .ready, head := [0x000C000000608000, 0x20000000, 0, 0, 0x8000, 0, 0, 0] })] })

theorem witness_entriesOfTablesAndHinges :
    (tabled.carrierUp .i3c = true ∧ tabled.fwReady = true ∧ 1 < 64 ∧ 15 < 16) ∧
    (tabled.tableUp 1 = true ∧ tblHotHome (tabled.tblHeadOf 1) = tabled.deviceId ∧ (1 : Word32).toNat = (tabled.tableSlot 1).sealed.toNat + 1 ∧
      (tabled.tableSlot 1).sealing = none ∧ live.tableUp 1 = false) ∧
    (let s := awaitCopy (tblHead (rooted.tblHeadOf 1)) rooted
     s.tableUp 1 = true ∧ (1 : Word32).toNat = (s.tableSlot 1).sealed.toNat + 1 ∧ (s.tableSlot 1).busy = false ∧ 0x9000 % 4096 = 0 ∧
     readable s 0x9000 128 = true ∧ rootOk (s.tblHeadOf 1) (recW s 0x9000 16) = true ∧ tvrVersion (recW s 0x9000 16) = 1 ∧
     tvrPrev (recW s 0x9000 16) = s.rootNow (s.tblHeadOf 1) ∧ readable s (tblHead (s.tblHeadOf 1)) 8 = true) ∧
    (hingeForm 0x0000000000000005 = true ∧ hingeForm 0x8800000000005000 = true ∧ hingeForm 0x8800000000005001 = false) := by decide

theorem witness_entriesOfKeyringAndTraffic :
    (live.carrierUp .mailbox = true ∧ live.fwReady = true) ∧
    (pinForm 0x208000 = true ∧ pinForm 0 = false ∧ live.hostPins + 1 + live.quotaSum ≤ 480 ∧ live.victim = some 0) ∧
    (let s : State := { live with clusters := [(0, { quota := 440 })] }
     480 < s.hostPins + 1 + s.quotaSum) ∧
    routeCheck live 0xFFFFFFFFFFFF ≠ 0 ∧
    (gateList.ok 1 = true ∧ gateList.ok 33 = false ∧ 47 < 48 ∧ ([0, 0, 0, 0, 0, 0, 0, 100000] : List Word32).length = 8) ∧
    (polOk 66 0x4000000000000001 0x0000000100420042 = true ∧ polOk 66 0x4000000000000001 0x0000000100410042 = false) := by decide

/-- Factory test mode with an injection of a kind at a target. -/
def injecting (kind : Byte) (target : Word64) : State := { live with faults := { factory := true, piKind := kind, piTarget := target } }

theorem witness_entriesOfFaults :
    (live.carrierUp .mailbox = true ∧ live.fwReady = true ∧ live.faults.factory = false ∧ (1 : Word32).toNat < (2 : Word32).toNat) ∧
    (let s := injecting 0 0
     s.faults.factory = true ∧ fiOk s = true ∧ (s.island s.faults.fiIsland.toNat).service ≠ .heldOff ∧ s.faults.fiAt ≤ s.time ∧ twf {} s.islands = true) ∧
    (let s : State := { live with faults := { factory := true, fiCode := 0 } }
     fiOk s = false) ∧
    (let s : State := { live with faults := { factory := true, fiAt := 5 } }
     s.time < s.faults.fiAt) ∧
    (let t := (injecting 1 0x00FF000000017FFF).faults.piTarget
     bits t 63 48 < 256 ∧ bits t 16 0 < 98304) ∧
    (localOk (injecting 2 0x1000).faults.piTarget.toNat = true ∧ (injecting 2 0x1000).inIntake 0x1000 = false ∧
      localOk (injecting 2 0xFFFFFFFFFFFF).faults.piTarget.toNat = false) ∧
    (let t := (injecting 3 0x00000000A0000000).faults.piTarget
     (islandType (bits t 63 55)).isSome = true ∧ 1 ≤ bits t 31 28 ∧ bits t 31 28 ≤ 10) ∧
    3 < (injecting 4 0).faults.piKind.toNat := by decide

theorem witness_entriesOfCounters :
    (live.carrierUp .mailbox = true ∧ live.fwReady = true ∧ idHub < 0x140 ∧ (islandType idHub).isSome = true) ∧
    (cfgOk idHub [0x0701E000FFFF0000, 0, 0, 0] = true ∧ cfgOk idHub [0x0101E000FFFF0000, 0, 0, 0] = false) ∧
    ((0x13FB : Word16).toNat / 16 = idHub ∧ (0x13FB : Word16).toNat % 16 < 12 ∧ 12 ≤ (0x13FC : Word16).toNat % 16) := by decide

theorem witness_dictionaryAnswers :
    (live.carrierUp .mailbox = true ∧ State.reset.carrierUp .mailbox = false ∧ live.answersRead .mailbox 0x1000 = true ∧
      State.reset.answersRead .mailbox 0x1000 = false ∧ live.highest 0x1000 = some 4 ∧ live.highest 0x1001 = none ∧ live.entry 0x1000 5 = none) ∧
    ((live.entry 0x1000 1).map (·.acc) = some .ro ∧ (live.entry 0x2010 5).map (·.acc) = some .wo) ∧
    (∃ e, live.entry 0x7000 3 = some e ∧ e.acc = .rw ∧ e.type.fits (leBytes 4 4096) = true ∧ e.type.fits [0] = false ∧
      e.may live (e.place 0x7000 3 0) (leBytes 4 4096) = true ∧ e.ok live (e.place 0x7000 3 0) (leBytes 4 4096) = true ∧
      e.ok live (e.place 0x7000 3 0) (leBytes 4 4095) = false) :=
  ⟨by decide, by decide, _, rfl, by decide⟩

/-- A receipt of 4 bytes under way over a carrier, two bytes received. -/
def receiving (phase : Nat) (via : Carrier) : State := { live with
  fw := { fn := .starting, phase := phase, received := [1, 2], total := 4, owner := some via } }

theorem witness_firmwareReceipt :
    (∀ via ∈ [Carrier.mailbox, .i3c, .vdm], let s := receiving 1 via
      s.carrierUp via = true ∧ s.fw.fn = .starting ∧ s.fw.phase = 1 ∧ s.fw.owner = some via ∧ s.fw.fetching = none ∧
      (2 : Word32).toNat = s.fw.received.length ∧ s.fw.received.length + 2 ≤ s.fw.total) ∧
    (let s : State := { receiving 1 .mailbox with fw := { (receiving 1 .mailbox).fw with fetching := some 2 } }
     s.hubUp = true ∧ s.hostPath = true ∧ s.fw.fetching = some 2) := by decide

theorem witness_firmwareVerify :
    (receiving 2 .mailbox).hubUp = true ∧ (receiving 2 .mailbox).fw.fn = .starting ∧ (receiving 2 .mailbox).fw.phase = 2 ∧
    fwCheck (receiving 2 .mailbox).fw.received (receiving 2 .mailbox).fw.floor ≠ 0 := by decide

/-- An identity whose port has negotiated up to a level, with leaves left or none, and a session. -/
def attested (level : Nat) (next limit : Nat) : State := { live with
  ident := { served := true, pufState := 2, negotiated := [(0, level)], leafNext := next, leafLimit := limit, sessions := [⟨1, .doe, true, 0⟩] } }

theorem witness_attestationAndSessions :
    (let s := attested 3 4 1024
     s.spdmUp .doe = true ∧ s.ident.pufState = 2 ∧ s.faults.factory = false ∧ tget 0 s.ident.negotiated (portNum .doe) = 3 ∧
     s.ident.code = 0 ∧ s.signedLately.length < s.ident.maxRate ∧ s.ident.leafNext ≠ s.ident.leafLimit ∧ s.ident.sessions.length < 4 ∧
     s.ident.sessions.find? (fun x => x.id = 1 && x.port = .doe) = some ⟨1, .doe, true, 0⟩ ∧
     s.ident.sessions.find? (fun x => x.id = 2 && x.port = .doe) = none) ∧
    (let s := attested 3 1024 1024
     s.ident.leafNext = s.ident.leafLimit ∧ s.ident.leafLimit < 2 ^ 40) ∧
    tget 0 (attested 2 0 0).ident.negotiated (portNum .doe) < 3 ∧ State.reset.spdmUp .doe = false ∧
    (let s : State := { live with ident := { served := true, pufState := 3, code := 0x707 } }
     s.spdmUp .doe = true ∧ s.ident.pufState ≠ 2 ∧ s.ident.code ≠ 0) ∧
    (let s : State := { attested 3 0 0 with ident := { (attested 3 0 0).ident with maxRate := 0 } }
     s.ident.maxRate ≤ s.signedLately.length) ∧
    2 ^ 40 ≤ (attested 3 (2 ^ 40) (2 ^ 40)).ident.leafLimit := by decide

theorem witness_moduleResets :
    (State.reset.module.powered = false ∧ State.reset.module.latchedOff = false) ∧ live.module.powered = true ∧
    ({ latchedOff := true } : Module).latchedOff = true := by decide

theorem witness_bootRom :
    (let s : State := { module := { powered := true } }
     s.module.powered = true ∧ s.module.perst = true ∧ s.flash.macOk = true ∧ s.flash.count = s.flash.counter) ∧
    (let b : BootIn := ⟨false, 0, true, some [], [(4, 70000), (0x160, 1)]⟩
     b.romOk = true ∧ b.seed = some [] ∧ (b.delays.filter fun d => (islandType d.1).isSome) = [(4, 70000)]) := by decide

theorem witness_hostLinkAndSideband :
    (let s : State := { live with host := {} }
     s.inService idHost = true ∧ s.linkUp = false) ∧
    (live.linkUp = true ∧ live.alive = true ∧ twf {} live.islands = true ∧ live.reaches .mailbox = true ∧ live.hostUp = true ∧
      live.ident.served = true ∧ binding .i3c = some 0 ∧ live.carrierUp .i3c = true ∧ live.hubUp = true) := by decide

theorem witness_faultsAreRaisedAndCollected :
    (live.alive = true ∧ islandType 0x100 = some .cluster ∧ twf {} live.islands = true ∧ IslandType.cluster.controls = true ∧ 0x100 ≠ idHub ∧
      (live.time - (live.island 0x100).heard).toNat < 3000 ∧
      3000 ≤ (({ live with time := 3000 } : State).time - (({ live with time := 3000 } : State).island 0x100).heard).toNat) ∧
    (let s : State := { live with faults := { fiArmed := true, fiIsland := 0x100 } }
     s.fiDue = true ∧ s.faults.fiIsland.toNat = 0x100) ∧
    (let r : FaultRec := ⟨1, 4, 0x802, 0, 0, 2⟩
     let s : State := { live with faults := { notices := [r] } }
     nextNotice s.faults.notices = some r) ∧
    (let s : State := { live with islands := [(4, { service := .safe }), (0x101, { service := .safe })], clusters := [(1, { fn := .starting })] }
     twf {} s.islands = true ∧ (s.island 4).service = .safe ∧ s.heldBack 4 = false ∧ s.returnsLater 4 = false ∧
     s.heldBack 0x101 = false ∧ s.returnsLater 0x101 = true) ∧
    (let s : State := { live with islands := [(4, { service := .safe, wasStarting := true })] }
     s.heldBack 4 = true) := by decide

theorem witness_scrubsWrapsAndTags :
    (∀ e ∈ [1, 3], let s : State := { live with coreE := { stateErrs := [(0x140 * 2 ^ 32 + byteKey 10 2, e)] } }
      s.alive = true ∧ twf {} s.islands = true ∧ s.coreE.scrubPeriod ≠ 0 ∧ (islandType idHub).isSome = true ∧
      popCount 13 (s.byteErr 0x140 10 2) = e - e / 3 ∧ popCount 13 (s.byteErr 0x140 10 3) = 0) ∧
    (∀ e ∈ [1, 3], let s := coreOf fun c => { c with stateErrs := [(byteKey 1 2, e)] }
      s.alive = true ∧ twf {} s.islands = true ∧ s.coreE.scrubPeriod ≠ 0 ∧ popCount 13 (s.byteErr 0 1 2) = e - e / 3) ∧
    (let s : State := { live with time := 0x7FFFFFFFFFFFFFFF, sampling := { notify := [(16 * 4 + 2, true)] } }
     s.alive = true ∧ s.ident.served = true ∧ 2 ^ 56 ≤ cyclesAt 4 s.time.toNat ∧ tget false s.sampling.notify (16 * 4 + 2) = true ∧
     bit s.host.eventMask 3 = false) ∧
    (let s : State := { live with host := { linkState := 2, eventMask := 0x1F } }
     bit s.host.eventMask 3 = true ∧ s.host.events.length < 256) ∧
    (let s : State := { live with sampling := { due := some 6 } }
     s.sampling.due = some 6 ∧ live.sampling.due = none) ∧
    (let x : ConfSample := ⟨true, 0, 0, 0, 1, 0, 0, 0, 0, 0, 0, 0, 0⟩
     let s := coreOf fun c => { c with samples := [x] }
     0 < 256 ∧ (s.core 0).samples.any (·.due) = true) := by decide

theorem witness_sensorsAndPower :
    (live.alive = true ∧ twf {} live.islands = true ∧ live.time.toNat % 1000 = 0 ∧ (999 : Word64).toNat % 1000 ≠ 0 ∧ (islandType 4).isSome = true ∧ 4 ≠ idHub ∧
      (islandType 0x141).isNone = true ∧ live.hubUp = true) ∧
    ((840 : Int) ≤ 840 ∧ 16 < (-17 : Int).natAbs ∧ (9 : Nat) ≤ ({ sinceLower := 9 } : Module).sinceLower) := by decide

/-! ### Well-formedness -/

/-- A command with operands in their ranges is well formed. -/
theorem test_wf_accepts :
    ∀ c ∈ [Instr.doorbell 63 5, .embedOnly 3 embedDesc, .sweepRequest (msg 1 0), .arrayPass 255, .dispatch 255 cmd0, .read 47 (packet 1 0),
      .drainEnd (.link 47), .hdmCommit 0x10000000 true, .counterCfg .mailbox 4 7 [0, 0, 0, 0], .stateMemoryScrub 4 10 5], c.wf = true := by decide

/-- An operand outside its range, or a record of the wrong length, is not: units, slots and descriptors. -/
theorem test_wf_refuses_requests :
    ∀ c ∈ [Instr.doorbell 64 5, .ringEnable .mailbox 64 1, .retrieveAndPack 64 embedDesc, .retrieve 3 [], .embedOnly 3 (0 :: embedDesc),
      .generate 64 [], .continueText 3 [] [], .opcodeUnassigned 3 [], .tokenise 65536 [] [], .rewriteStage 65536, .exactStage 65536 [],
      .crossEncode 65536 [], .filterStage 65536 [] [], .packStage 65536 [], .embedStage 65536, .expire 65536,
      .requestFailure h6 0, .publishJob .mailbox [], .pages 16 [], .pages 1 [⟨[], true, false⟩],
      .switchJob 16, .loadJob 16 none true, .loadJob 1 (some [⟨[], []⟩]) true, .epochAdvance .mailbox 64 1, .sweepRequest [], .flockDue 12 0,
      .sweepResolve 0 4, .scanRetry 0 false (2 ^ 14), .penRecordLapse (2 ^ 14) 0, .vocabEnable .mailbox 16 1, .vocabReady 16,
      .templateEnable .mailbox 64 1], c.wf = false := by decide

/-- Cores, stacks, models and tables. -/
theorem test_wf_refuses_units :
    ∀ c ∈ [Instr.arrayPass 256, .configDone 256 .array, .registerLand 0 64, .dispatch 256 cmd0, .dispatch 0 { cmd0 with slotBase := 3072 },
      .preempt 0 { cmd0 with tenant := 4096 }, .dispatch 0 { cmd0 with cmdClass := 16 }, .dispatch 0 { cmd0 with tclass := 8 },
      .dispatch 0 { cmd0 with model := some 16 }, .commandKill 256 0, .landingWaitEnd 0 3072, .allocationRelease 0 3072 1,
      .stackEnable .mailbox 12 1, .stackReady 12 true 0, .intakeWrite 0 [], .intakeWrite (2 ^ 28) (zeros 64), .intakeRead (2 ^ 28),
      .biResponse (2 ^ 22) [], .biResponse 0 [(64, zeros 64)], .biResponse 0 [(0, [])], .hdmCommit 1 true, .modelEnable .mailbox 16 1,
      .modelStartEnd 16, .prefillStep 16 0, .rolePin .mailbox 16 1, .tableGather 3 [] [] [] [], .update 64 [] [] [], .promote 3 [] [],
      .tableEnable .mailbox 64 1, .tableSeal .mailbox 64 1, .tableInstall .mailbox 64 1 0, .rowRead (2 ^ 14) [0, 0], .rowRead 0 [0],
      .cmsDecay 12], c.wf = false := by decide

/-- Links, entries, islands and the module. -/
theorem test_wf_refuses_module :
    ∀ c ∈ [Instr.read 48 (packet 1 0), .read 0 ⟨[], [], 0⟩, .gather 0 ⟨(packet 2 0).hdr, [0], 0⟩, .linkControl 48 ⟨none, none, []⟩,
      .fabricTimeout 0x142 0, .linkAckTimeout 48, .linkEnable .mailbox 48 1, .linkReady 0 (2 ^ 14) 0, .linkReady 0 0 48, .gateApply .mailbox 48 1,
      .shaperRate .mailbox 0 [], .queueHwm .mailbox 17, .queueHwm .mailbox 0, .classHwm .mailbox 9, .clusterEnable .mailbox 16 1, .clusterReady 16,
      .textEnable .mailbox 4 1, .textReady 4, .drainEnd (.cluster 16), .drainEnd (.text 4), .drainEnd (.stack 12), .drainEnd (.link 48),
      .drainEnd (.model 16), .drainEnd (.table 64), .eventRead .mailbox (2 ^ 32), .getCertificate .doe 16 0 0, .challenge .doe [] true,
      .getMeasurements .doe 256 false [] true, .getMeasurements .doe 1 true [] true, .keyExchange .doe [] true, .heartbeat .doe (2 ^ 32),
      .ideKm 1 256 true, .cxlIdeKm (2 ^ 32) true true, .beacon [⟨0x142, 0, 0⟩], .beaconMissing 0x142, .watchdogTimeout 0x142 0, .tempSample [(0x142, 0)],
      .counterRead .mailbox 0 12, .counterCfg .mailbox 0 8 [0, 0, 0, 0], .counterCfg .mailbox 0 0 [], .counterWrap 0 12, .sampleTag 0x142 0,
      .powerReport 65536 0 0, .hostSnoop 1, .vectorUnmask 2, .doeDiscovery 256, .cdatTableAccess 65536, .stateMemoryScrub 0 0 0,
      .stateMemoryScrub 0 11 0, .stateMemoryScrub 0 1 (2 ^ 28)], c.wf = false := by decide

/-- Operands too long for the record that carries them are not well formed. -/
theorem test_wf_refuses_long (bs : Bytes) (h : 65536 ≤ bs.length) :
    (Instr.odWrite .mailbox 0x3020 4 bs).wf = false ∧ (Instr.fwChunk .mailbox 0 bs).wf = false ∧ (Instr.filterStage 0 bs []).wf = false := by
  simp only [Instr.wf, Bool.and_eq_false_iff, decide_eq_false_iff_not]
  omega
theorem test_wf_refuses_texts (bs : Bytes) (h : 2 ^ 32 ≤ bs.length) :
    (Instr.tokenise 0 bs []).wf = false ∧ (Instr.tokenise 0 [] bs).wf = false ∧ (Instr.continueText 3 embedDesc bs).wf = false ∧
    (Instr.fwFetchCompletion bs false).wf = false := by
  simp only [Instr.wf, Bool.and_eq_false_iff, decide_eq_false_iff_not]
  omega
theorem test_wf_refuses_records (es : List (Word16 × Byte)) (h : 65536 ≤ es.length) : (Instr.odReadMulti .mailbox es).wf = false := by
  simp only [Instr.wf, decide_eq_false_iff_not]
  omega

/-! ### The manual's worked examples -/

/-- The state after a command. -/
def after (c : Instr) (s : State) : State := match exec c s with | .next t => t | _ => s

/-- Example keys of R116: 3.0, 0 and −0, −1, −∞ and a NaN. -/
theorem test_ops_keys :
    ops 0x40400000 = 0xC0400000 ∧ ops 0 = 0x80000000 ∧ ops (canon 0x80000000) = 0x80000000 ∧ ops 0xBF800000 = 0x407FFFFF ∧
    ops (canon 0x7FC00000) = 0x007FFFFF ∧ selKey 0x40400000 = 0x3FBFFFFF ∧ selKey 0x40200000 = 0x3FDFFFFF ∧ selKey 0xFF800000 = 0xFF800000 := by
  decide

/-- The same products in two domains (after R185). -/
theorem test_dot_exact : arrayDot 0x09 3 [0x7E, 0x01, 0x7E] [0x7E, 0x01, 0xFE] = 0x36800000 := by decide
theorem test_dot_fp32 : arrayDot 0x0A 3 [0xE0, 0x43, 0x00, 0x3B, 0xE0, 0x43] [0xE0, 0x43, 0x00, 0x3B, 0xE0, 0xC3] = 0 := by decide

/-- A candidate of the ties example (after R140): its id and exact score. -/
def tied (id : Word64) (score : Word32) : Cand := ⟨id, false, [id, 0, 0, 0], id, score, none⟩
def tiedList : List Cand :=
  [tied 0x1001 0x40000000, tied 0x1002 0x40200000, tied 0x1003 0x3F800000, tied 0x1004 0x40000000, tied 0x1005 0x40400000,
   tied 0x1006 0x3F000000, tied 0x1007 0x40000000, tied 0x1008 0x3F800000, tied 0x1009 0x40200000, tied 0x100A (canon 0x7FC00000)]

theorem test_exact_order :
    (topBy (fun c : Cand => (c.exact, c.id.toNat)) 10 tiedList).map (·.id) =
      [0x1005, 0x1002, 0x1009, 0x1001, 0x1004, 0x1007, 0x1003, 0x1008, 0x1006, 0x100A] ∧
    tiesOut 8 (topBy (fun c : Cand => (c.exact, c.id.toNat)) 10 tiedList) = 0 := by decide

/-- The filter fails 1002h: four are kept, and 1007h ties with the last of them. -/
theorem test_final_cut :
    let passing := ((topBy (fun c : Cand => (c.exact, c.id.toNat)) 10 tiedList).take 8).filter fun c => c.id != 0x1002
    let r := ({} : Rank).cut 4 passing
    passing.length = 7 ∧ r.final.map (·.id) = [0x1005, 0x1009, 0x1001, 0x1004] ∧ r.tieF = 1 := by decide

/-- The status sequence of handle 1A3C_002Ah (after R66). -/
theorem test_status_words :
    handleOf 0x1A3C 0x2A = 0x1A3C002A ∧ statusWord 0x2A 1 0 0 0 0 = 0x002A100000000000 ∧ statusWord 0x2A 2 4 0 0 0 = 0x002A240000000000 ∧
    statusWord 0x2A 2 6 1 1024 0 = 0x002A260104000000 ∧ statusWord 0x2A 3 9 0x11 6 0 = 0x002A391100060000 := by decide

/-- Packing for handle 1A3C_002Ah (after R166): 6 placed, 2 not fitted, 1,121 tokens. -/
def packTpl : Words := [0, 0x0100000000000000, 4, 1, 0, 0, 0, 0]
def packLengths : List Nat := [182, 175, 190, 168, 205, 171, 188, 176]
theorem test_packing :
    let r := placeAll packTpl 1184 [] (packLengths.map fun n => ⟨tied 1 0, 0, List.replicate n 0⟩)
    r.1.map (·.body) = [182, 175, 190, 168, 205, 171] ∧ r.2 = 2 ∧ (r.1.map (·.body + 5)).foldl (· + ·) 0 = 1121 := by decide

/-- Under fit 2 with a smallest cut of 32, place 6 is cut to 58 tokens. -/
theorem test_packing_cut :
    ((placeAll [0x200000, 0x0100002000000000, 4, 1, 0, 0, 0, 0] 1184 [] (packLengths.map fun n => ⟨tied 1 0, 0, List.replicate n 0⟩)).1.map
      (·.body)).getLast? = some 58 := by decide

/-- Five folded queries through one projection (after R226). -/
def foldedMacro : Words :=
  [0, 0, 0, 0, 0, 0, 0, 0, field 59 1 ||| field 40 9 ||| field 32 9 ||| field 20 5, field 32 32 ||| field 0 1000, field 32 1024,
   field 20 1024, field 20 1152, field 20 4032, 0, 0]

theorem test_macro_passes :
    let l := (macroExpand foldedMacro 32 false 0).map (·.2)
    l.map cfBusy = [4224, 1024, 4096, 1024, 4096, 1024, 4096, 1024, 4096, 1024, 4096, 1024, 4096, 1024, 4096, 1024] ∧
    l.map apMv = [128, 32, 128, 32, 128, 32, 128, 32, 128, 32, 128, 32, 128, 32, 128, 32] ∧
    (l.map apNv).drop 13 = [128, 104, 104] := by decide

/-- The same projection of a generation step in WIDE-8: 8 rows, 2,048 columns, 1,024 × 4 cycles of compute (after R192). -/
theorem test_wide_pass :
    arrayBusy 0 [0, 0, 0, 0, 0, 0, 0, 0, field 61 2 ||| field 40 9 ||| field 32 9, field 32 1024 ||| field 0 2048] = 4096 := by decide

/-- Pre-emption on core 37 (after R375). -/
theorem test_slowdown_worst :
    (({} : Slowdown).commit 14152 13440).worst = 1078 ∧ (({} : Slowdown).commit 57480 32000).worst = 1839 := by decide

/-- Link 29's gates (after R358). -/
def link29 : GateList := ⟨1000000, [0x80000000000007D0, 0x7F00000000001F40]⟩
theorem test_gate_entries :
    link29.cycle = 10000 ∧ link29.entryAt 1000000 = 0 ∧ link29.entryAt 1002000 = 1 ∧ link29.entryAt 1009999 = 1 ∧ link29.entryAt 1010000 = 0 ∧
    link29.entryAt 1012000 = 1 := by decide

/-- Installing entry 3 on memory island 9 (after R270): the page holds data, so the copy runs. -/
def weakPage : State := { live with
  stackT := [(9, { enable := true, fn := .ready, fromOff := false, hinge := [(0, ⟨true, 2, false, 1⟩), (1, ⟨true, 2, false, 2⟩), (2, ⟨true, 2, false, 3⟩)] })]
  pageMap := [(0x934A1C2, { kind := .published })] }
theorem test_hinge_install :
    (after (.hingeInstall .mailbox 0x8C800003_4A1C2000) weakPage).hbm.hingeResult = 0xFFFF ∧
    tget {} ((after (.hingeInstall .mailbox 0x8C800003_4A1C2000) weakPage).stack 9).hinge 3 = ⟨true, 1, false, 0x34A1C2⟩ := by decide
theorem test_hinge_copy_end :
    let s := after .hingeCopyEnd (after (.hingeInstall .mailbox 0x8C800003_4A1C2000) weakPage)
    s.hbm.hingeResult = 0 ∧ tget {} (s.stack 9).hinge 3 = ⟨true, 2, false, 0x34A1C2⟩ := by decide

/-- Pinning a keyring entry (after R406): the 16 bytes of the worked example, written as a value of OD_WRITE. -/
def pinBytes : Bytes := [0x00, 0x80, 0x3C, 0x03, 0x40, 0x00, 0x30, 0x00, 0xFF, 0xFF, 0xFF, 0xFF, 0xFF, 0xFF, 0xFF, 0xFF]
theorem test_od_write_pin :
    (tget {} (after (.odWrite .mailbox 0x3020 4 pinBytes) live).keyring.entries 0).w0 = 0x00300040033C8000 ∧
    (after (.odWrite .mailbox 0x3020 4 pinBytes) live).keyring.result = 0 := by decide
/-- A write one byte short is refused for its length, and installs nothing (R396). -/
theorem test_od_write_short :
    (after (.odWrite .mailbox 0x3020 4 (pinBytes.take 15)) live).keyring.entries = [] ∧
    (after (.odWrite .mailbox 0x3020 4 (pinBytes.take 15)) live).host.odRefusals = 1 := by decide

/-- The page code (R255): the minimal polynomial of α is p(x); g has degree 16t; the check of a page's last bit alone is g(x) − x^16t. -/
theorem test_bch : minPoly 1 = 0x1100B ∧ Nat.log2 (genPoly 8) = 128 ∧ divStep (genPoly 8) 128 0 true = genPoly 8 - 2 ^ 128 := by decide

theorem test_reset_queue_empty : State.reset.pending = [] := rfl

end Sys2Proof.Tests
end

section
/-! PROOFS. What the hub leaves of a descriptor it rejects (R44, R46). -/

namespace Sys2Proof

open Machine Safety

/-! ### The request rows and OPCODE_UNASSIGNED as one admission (R41, R44) -/

/-- Each of the four request commands takes the descriptor of its own opcode (R41). -/
theorem exec_of_mem_requestRows {n : Nat} {given : Words} {r : Nat × Instr} (hr : r ∈ requestRows n given) (s : State) :
    exec r.2 s = .next (takeRequest r.1 n given s) := by
  simp only [requestRows, List.mem_cons, List.not_mem_nil, or_false] at hr
  rcases hr with rfl | rfl | rfl | rfl <;> rfl

theorem takeRequest_of_opcode {op n : Nat} {given : Words} {s : State} (hop : dOpcode (s.ringEntry n given) = op) (hk : (s.ring n).kind = 0) :
    takeRequest op n given s = takeDescriptor n (s.ringEntry n given) (descForm op (s.ringEntry n given)) (descCheck (s.ringEntry n given))
      (!dInputFinal (s.ringEntry n given)) (descFill (s.ringEntry n given)) s :=
  if_neg (by simp [hop, hk])

/-- An opcode that the ring does not assign is a descriptor without a form (R44, step 2). -/
theorem exec_opcodeUnassigned_of_not_assigned {n : Nat} {given : Words} {s : State}
    (h : (assignedOps (s.ring n).kind).contains (dOpcode (s.ringEntry n given)) = false) :
    exec (.opcodeUnassigned n given) s =
      .next (takeDescriptor n (s.ringEntry n given) false (fun _ => 0) false (fun _ x => x) s) :=
  congrArg Host.Outcome.next (if_neg (by rw [h]; exact Bool.false_ne_true))

theorem checkCode_of_no_form (n : Nat) (d : Words) (check : State → Word16) (s : State) : checkCode n d false check s = 0x101 :=
  if_pos (Or.inr rfl)

/-! ### The policer (R363) -/

theorem Safety.Noted.policeTenant {s t : State} (h : Noted s t) (n w : Nat) :
    (policeTenant n w t).1 = (policeTenant n w s).1 ∧ Noted (policeTenant n w s).2 (policeTenant n w t).2 := by
  obtain ⟨hi, isl, ev, lost, pv, sent, rfl⟩ := h
  exact ⟨rfl, hi, isl, ev, lost, pv, sent, rfl⟩

/-! ### Both ways to be rejected -/

section

variable {n : Nat} {d : Words} {form : Bool} {check : State → Word16} {s u : State}

/-- A descriptor that fails a check of R44 is rejected with that check's code. -/
theorem takeDescriptor_of_failed_check (hm : s.mayTake n = true) (hr : entryRead n s = some u) (hb : mirrorBad d = false)
    (hcheck : ∀ v, Noted u v → check v = check u) (hc : checkCode n d form check u ≠ 0) (w : Bool) (fill : State → Slot → Slot) :
    ∃ a ce pe, Noted (rejected n d (checkCode n d form check u) a ce pe u) (takeDescriptor n d form check w fill s) := by
  obtain ⟨v, hv, e⟩ := takeDescriptor_eq n d form check w fill hm hr
  rw [e, checkCode_noted hv n d form check (hcheck v hv), if_neg (by simp [hb]), if_pos hc]
  exact noted_rejectEntry hv n d _

/-- A descriptor that passes every other check and finds a slot is rejected with 0106h by its tenant's policer (R44, step 9). -/
theorem takeDescriptor_of_policed (hm : s.mayTake n = true) (hr : entryRead n s = some u) (hb : mirrorBad d = false)
    (hcheck : ∀ v, Noted u v → check v = check u) (hc : checkCode n d form check u = 0) {k : Nat} (hk : u.slotFor (dTenant d) = some k)
    (hp : (policeTenant n (dTenant d) u).1 = false) (w : Bool) (fill : State → Slot → Slot) :
    ∃ a ce pe, Noted (rejected n d 0x106 a ce pe (policeTenant n (dTenant d) u).2) (takeDescriptor n d form check w fill s) := by
  obtain ⟨v, hv, e⟩ := takeDescriptor_eq n d form check w fill hm hr
  obtain ⟨hcolour, hpoliced⟩ := hv.policeTenant n (dTenant d)
  rw [e, checkCode_noted hv n d form check (hcheck v hv), if_neg (by simp [hb]), if_neg (by simp [hc]), hv.slotFor, hk]
  dsimp only
  rw [hcolour, if_pos hp]
  exact noted_rejectEntry hpoliced n d _

end

/-- Settles O9: the commands are one admission, and both ways to fail it end in the rejection of R46. -/
theorem rejectedDescriptor : Obligations.rejectedDescriptor := by
  unfold Obligations.rejectedDescriptor
  intro n given s u hm hr d hb
  refine ⟨fun r hrow hk hop => ?_, fun hop => ?_⟩
  · have hexec := (exec_of_mem_requestRows hrow s).trans (congrArg Host.Outcome.next (takeRequest_of_opcode hop hk))
    refine ⟨?_, fun k hc hslot hp => ?_⟩
    · rintro code rfl hc
      obtain ⟨a, ce, pe, h⟩ := takeDescriptor_of_failed_check hm hr hb (fun _ hv => hv.descCheck d) hc (!dInputFinal d) (descFill d)
      exact ⟨_, a, ce, pe, hexec, h⟩
    · obtain ⟨a, ce, pe, h⟩ := takeDescriptor_of_policed hm hr hb (fun _ hv => hv.descCheck d) hc hslot hp (!dInputFinal d) (descFill d)
      exact ⟨_, a, ce, pe, hexec, h⟩
  · have hc : checkCode n d false (fun _ => 0) u = 0x101 := checkCode_of_no_form n d _ u
    obtain ⟨a, ce, pe, h⟩ := takeDescriptor_of_failed_check hm hr hb (fun _ _ => rfl) (by rw [hc]; decide) false (fun _ x => x)
    rw [hc] at h
    exact ⟨_, a, ce, pe, exec_opcodeUnassigned_of_not_assigned hop, h⟩

end Sys2Proof
end

section
/-! PROOFS. Where CURRENT_EPOCH and a registration's floor move (R84). -/

namespace Sys2Proof

open Machine Safety

/-! ### EPOCH_ADVANCE and EPOCH_FLOOR as lines of the entry tables -/

set_option maxRecDepth 8000 in
theorem lines_epochAdvance : (dictionary.filter fun e => e.covers 0x4113) = [woN 0x4113 64 tU32 fun k v s => ruled (advanceEpoch k v s)] := rfl

set_option maxRecDepth 8000 in
theorem lines_epochFloor : (dictionary.filter fun e => e.covers 0x4114) =
    [rwN 0x4114 64 tU32 .rw (fun s k => (s.corpus k).floor.toNat) always anyVal fun k v s => ruled (raiseFloor k v s)] := rfl

/-- A write of EPOCH_ADVANCE is answered with what R84's rule gives it. -/
theorem replies_epochAdvance {via : Carrier} {n : Nat} {e : Word32} {s u : State} (hc : s.carrierUp via = true) (hf : s.fwReady = true)
    (hn : n < 64) (hu : Noted u (advanceEpoch n e.toNat s).2) :
    Replies via 0x4113 (n + 1) (if (advanceEpoch n e.toNat s).1 = 0 then 0 else 6) (advanceEpoch n e.toNat s).1 (.epochAdvance via n e) s u := by
  have hline := find_units lines_epochAdvance rfl rfl hn
  have hset : (woN 0x4113 64 tU32 fun k v s => ruled (advanceEpoch k v s)).set ⟨0, n, 0⟩ (leBytes 4 e.toNat) s =
      ruled (advanceEpoch n e.toNat s) := by
    simp only [woN, rwLine, leNat_32]
  obtain ⟨-, -, hdone⟩ := replies_line (exec_unit (c := .epochAdvance via n e) (len := 4) rfl (by omega)) hc (sees_plain (by decide)) hf hline (Nat.succ_ne_zero n)
    (by decide) (fits_leBytes (t := tU32) (by decide)) rfl rfl hset
  exact hdone u rfl rfl hu

/-- A write of EPOCH_FLOOR is answered with what R84's rule gives it. -/
theorem replies_epochFloor {via : Carrier} {n : Nat} {f : Word32} {s u : State} (hc : s.carrierUp via = true) (hf : s.fwReady = true)
    (hn : n < 64) (hu : Noted u (raiseFloor n f.toNat s).2) :
    Replies via 0x4114 (n + 1) (if (raiseFloor n f.toNat s).1 = 0 then 0 else 6) (raiseFloor n f.toNat s).1 (.epochFloor via n f) s u := by
  obtain ⟨-, -, -, hdone⟩ := replies_rwN (c := .epochFloor via n f) (len := 4) rfl hc (sees_plain (by decide)) lines_epochFloor
    (by decide) rfl f.isLt (by decide) hn (by decide) (by simp [earlyEntry])
  exact hdone u hf rfl rfl hu

/-! ### The two rules -/

theorem loadsUnread_iff {s : State} :
    s.loadsUnread = true ↔ ∃ j ∈ s.jobs, j.2.held = true ∧ j.2.kind = jkLoad ∧ j.2.read = false := by
  simp only [State.loadsUnread, List.any_eq_true, Bool.and_eq_true, decide_eq_true_eq, Bool.not_eq_true', and_assoc]

/-- The jobs that R84 makes an advance to e wait for: SWITCH operations up to e not ended, and LOADs whose array is unread. -/
def AdvanceWaits (n : Nat) (e : Word32) (s : State) : Prop :=
  (∃ j ∈ s.jobs, j.2.held = true ∧ ∃ o ∈ j.2.switches, o.scope = n + 1 ∧ o.ended = false ∧ o.epoch ≤ e) ∨
    ∃ j ∈ s.jobs, j.2.held = true ∧ j.2.kind = jkLoad ∧ j.2.read = false

theorem not_advanceWaits_iff {n : Nat} {e : Word32} {s : State} :
    ¬ AdvanceWaits n e s ↔ s.switchesPending n (some e.toNat) = 0 ∧ s.loadsUnread = false := by
  rw [AdvanceWaits, not_or, ← switches_none, ← loadsUnread_iff, Bool.not_eq_true]

theorem advanceEpoch_accepted {n : Nat} {e : Word32} {s : State} (he : (s.corpus n).current < e) (hw : ¬ AdvanceWaits n e s) :
    advanceEpoch n e.toNat s =
      (0, raiseEvent 4 0x4112 (BitVec.ofNat 8 (n + 1)) e.toNat (s.modCorpus n fun c => { c with current := e })) := by
  rw [advanceEpoch, if_pos ⟨BitVec.lt_def.1 he, not_advanceWaits_iff.1 hw⟩, ofNat_32]

theorem advanceEpoch_refused {n : Nat} {e : Word32} {s : State} (h : e ≤ (s.corpus n).current ∨ AdvanceWaits n e s) :
    advanceEpoch n e.toNat s = (0x313, s) := by
  refine if_neg fun ⟨hlt, hfree⟩ => ?_
  rcases h with hle | hw
  · exact Nat.not_lt.2 (BitVec.le_def.1 hle) hlt
  · exact not_advanceWaits_iff.2 hfree hw

/-- What R84 asks of a new floor: not below the floor, nor past CURRENT_EPOCH, nor past OLDEST_HELD. -/
def FloorFits (n : Nat) (f : Word32) (s : State) : Prop :=
  (s.corpus n).floor ≤ f ∧ f ≤ (s.corpus n).current ∧ f.toNat ≤ s.oldestHeld n

theorem raiseFloor_accepted {n : Nat} {f : Word32} {s : State} (h : FloorFits n f s) :
    raiseFloor n f.toNat s = (0, sweepRetiring (n + 1) 0 (s.modCorpus n fun c => { c with floor := f })) := by
  obtain ⟨hfloor, hcurrent, hheld⟩ := h
  simp only [raiseFloor, ofNat_32]
  exact if_pos ⟨BitVec.le_def.1 hfloor, BitVec.le_def.1 hcurrent, hheld⟩

theorem raiseFloor_refused {n : Nat} {f : Word32} {s : State} (h : ¬ FloorFits n f s) : raiseFloor n f.toNat s = (0x314, s) :=
  if_neg fun ⟨hfloor, hcurrent, hheld⟩ => h ⟨BitVec.le_def.2 hfloor, BitVec.le_def.2 hcurrent, hheld⟩

/-! ### Their answers -/

section

variable {via : Carrier} {n : Nat} {e : Word32} {s : State} (hc : s.carrierUp via = true) (hf : s.fwReady = true) (hn : n < 64)

include hc hf hn

theorem epochAdvance_moves_current (he : (s.corpus n).current < e) (hw : ¬ AdvanceWaits n e s) :
    Replies via 0x4113 (n + 1) 0 0 (.epochAdvance via n e) s (s.modCorpus n fun c => { c with current := e }) := by
  have hrule := advanceEpoch_accepted he hw
  have hreply := replies_epochAdvance (u := s.modCorpus n fun c => { c with current := e }) (e := e) hc hf hn
    (by rw [hrule]; exact noted_raiseEvent ..)
  rwa [hrule] at hreply

theorem epochAdvance_answers_0313h (h : e ≤ (s.corpus n).current ∨ AdvanceWaits n e s) :
    Replies via 0x4113 (n + 1) 6 0x313 (.epochAdvance via n e) s s := by
  have hrule := advanceEpoch_refused h
  have hreply := replies_epochAdvance (u := s) (e := e) hc hf hn (by rw [hrule]; exact Noted.refl s)
  rwa [hrule] at hreply

theorem epochFloor_moves_floor (h : FloorFits n e s) :
    Replies via 0x4114 (n + 1) 0 0 (.epochFloor via n e) s (sweepRetiring (n + 1) 0 (s.modCorpus n fun c => { c with floor := e })) := by
  have hreply := replies_epochFloor (f := e) hc hf hn (Noted.refl _)
  rwa [raiseFloor_accepted h] at hreply

theorem epochFloor_answers_0314h (h : ¬ FloorFits n e s) : Replies via 0x4114 (n + 1) 6 0x314 (.epochFloor via n e) s s := by
  have hreply := replies_epochFloor (f := e) hc hf hn (Noted.refl _)
  rwa [raiseFloor_refused h] at hreply

end

/-- Settles O23: both entries' answers, accepted and refused. -/
theorem epochAdvances : Obligations.epochAdvances := by
  unfold Obligations.epochAdvances
  intro via n e s hc hf hn
  exact ⟨⟨epochAdvance_moves_current hc hf hn, epochAdvance_answers_0313h hc hf hn⟩,
    epochFloor_moves_floor hc hf hn, epochFloor_answers_0314h hc hf hn⟩

end Sys2Proof
end

section
/-! PROOFS. The sketch of a vector, bit by bit (R92, in the order of R72). -/

namespace Sys2Proof

open Machine

/-- A byte packed from a predicate holds it bit by bit, the lowest bit first. -/
theorem getLsbD_packedByte (f : Nat → Bool) {i : Nat} (hi : i < 8) : (BitVec.ofNat 8 (packBits f 8)).getLsbD i = f i := by
  rw [BitVec.getLsbD_ofNat, testBit_packBits, decide_eq_true hi, Bool.true_and, Bool.true_and]

/-- Bit j of a sketch is the comparison of +0.0 with element j: byte j div 8 is packed from the group of eight that holds it. -/
theorem getLsbD_sketchBytes {l : List Word32} {j : Nat} (hj : j < l.length) :
    ((sketchBytes l).getD (j / 8) 0).getLsbD (j % 8) = fcmpLt 0 (l.getD j 0) := by
  obtain ⟨hgroup, helem⟩ := getD_chunks (0 : Word32) l (l.length / 8 + 1) j (Nat.lt_mul_div_succ _ (by decide)) hj
  have hbyte : (sketchBytes l).getD (j / 8) 0 =
      BitVec.ofNat 8 (packBits (fun i => fcmpLt 0 (((chunks 8 (l.length / 8 + 1) l).getD (j / 8) []).getD i 0)) 8) := by
    simp [sketchBytes, List.getD_eq_getElem?_getD, List.getElem?_eq_getElem hgroup]
  rw [hbyte, getLsbD_packedByte _ (Nat.mod_lt j (by decide)), helem]

/-- Settles O18: a sketch's bit is the comparison with +0.0, which the patterns from just above +0.0 up to +∞ alone pass. -/
theorem sketchBits : Obligations.sketchBits := by
  unfold Obligations.sketchBits
  intro l j hj
  rw [getLsbD_sketchBytes hj]
  exact fcmpLt_zero (l.getD j 0)

end Sys2Proof
end

section
/-! PROOFS. What every step keeps: the queue, the clock but for a reset, the canonical form and the leaves (R19, R428). -/

namespace Sys2Proof

open Machine Safety

/-! ### Every command completes and keeps what a command keeps -/

set_option maxRecDepth 8000 in
/-- Every command answers a next state, and what a state kept up to then is kept through it. -/
theorem kept_exec {s0 : State} : ∀ (c : Instr) (s : State), Kept s0 s → ∃ t, exec c s = .next t ∧ Kept s0 t
  | .doorbell ring tail, s, h => kept_execDoorbell ring tail s h
  | .cancel handle, s, h => kept_execCancel handle s h
  | .release handle, s, h => kept_execRelease handle s h
  | .ringEnable via ring value, s, h => kept_execRingEnable via ring value s h
  | .retrieveAndPack ring desc, s, h => kept_execRetrieveAndPack ring desc s h
  | .retrieve ring desc, s, h => kept_execRetrieve ring desc s h
  | .embedOnly ring desc, s, h => kept_execEmbedOnly ring desc s h
  | .generate ring desc, s, h => kept_execGenerate ring desc s h
  | .continueText ring desc text, s, h => kept_execContinueText ring desc text s h
  | .tokenise slot text ctx, s, h => kept_execTokenise slot text ctx s h
  | .rewriteStage slot, s, h => kept_execRewriteStage slot s h
  | .embedStage slot, s, h => kept_execEmbedStage slot s h
  | .scanStage slot, s, h => kept_execScanStage slot s h
  | .shortlistStage slot, s, h => kept_execShortlistStage slot s h
  | .exactStage slot remote, s, h => kept_execExactStage slot remote s h
  | .crossEncode slot remote, s, h => kept_execCrossEncode slot remote s h
  | .filterStage slot expr remote, s, h => kept_execFilterStage slot expr remote s h
  | .packStage slot remote, s, h => kept_execPackStage slot remote s h
  | .finalCommit slot, s, h => kept_execFinalCommit slot s h
  | .requestFailure handle code, s, h => kept_execRequestFailure handle code s h
  | .expire slot, s, h => kept_execExpire slot s h
  | .slotRetainTimeout slot, s, h => kept_execSlotRetainTimeout slot s h
  | .mirrorCoalesce slot, s, h => kept_execMirrorCoalesce slot s h
  | .globalObservation slot, s, h => kept_execGlobalObservation slot s h
  | .publishJob via desc, s, h => kept_execPublishJob via desc s h
  | .pages job src, s, h => kept_execPages job src s h
  | .switchJob job, s, h => kept_execSwitchJob job s h
  | .freeJob job, s, h => kept_execFreeJob job s h
  | .loadJob job ops writable, s, h => kept_execLoadJob job ops writable s h
  | .jobRelease via value, s, h => kept_execJobRelease via value s h
  | .epochAdvance via corpus epoch, s, h => kept_execEpochAdvance via corpus epoch s h
  | .epochFloor via corpus floor, s, h => kept_execEpochFloor via corpus floor s h
  | .sweepRequest body, s, h => kept_execSweepRequest body s h
  | .penRequest body, s, h => kept_execPenRequest body s h
  | .flockDue island key, s, h => kept_execFlockDue island key s h
  | .sweepStart island key, s, h => kept_execSweepStart island key s h
  | .sweepResolve island engine, s, h => kept_execSweepResolve island engine s h
  | .sweepReply body, s, h => kept_execSweepReply body s h
  | .penReply body, s, h => kept_execPenReply body s h
  | .scanRetry slot pen device, s, h => kept_execScanRetry slot pen device s h
  | .penRecordLapse entry handle, s, h => kept_execPenRecordLapse entry handle s h
  | .vocabEnable via n value, s, h => kept_execVocabEnable via n value s h
  | .vocabReady n, s, h => kept_execVocabReady n s h
  | .templateEnable via n value, s, h => kept_execTemplateEnable via n value s h
  | .arrayPass core, s, h => kept_execArrayPass core s h
  | .vectorOp core, s, h => kept_execVectorOp core s h
  | .moveOp core, s, h => kept_execMoveOp core s h
  | .fence core, s, h => kept_execFence core s h
  | .fenceResolve core, s, h => kept_execFenceResolve core s h
  | .macroOp core, s, h => kept_execMacroOp core s h
  | .configDone core engine, s, h => kept_execConfigDone core engine s h
  | .registerLand core reg, s, h => kept_execRegisterLand core reg s h
  | .dispatch core cmd, s, h => kept_execDispatch core cmd s h
  | .commandCommit core, s, h => kept_execCommandCommit core s h
  | .commandKill core pos, s, h => kept_execCommandKill core pos s h
  | .moveLanding core id, s, h => kept_execMoveLanding core id s h
  | .landingWaitEnd core slot, s, h => kept_execLandingWaitEnd core slot s h
  | .scrub core, s, h => kept_execScrub core s h
  | .scrubForce core, s, h => kept_execScrubForce core s h
  | .allocationRelease core first count, s, h => kept_execAllocationRelease core first count s h
  | .hingeInstall via value, s, h => kept_execHingeInstall via value s h
  | .hingeCopyEnd, s, h => kept_execHingeCopyEnd s h
  | .stackEnable via n value, s, h => kept_execStackEnable via n value s h
  | .stackReady n trained trainStep, s, h => kept_execStackReady n trained trainStep s h
  | .intakeWrite line data, s, h => kept_execIntakeWrite line data s h
  | .intakeRead line, s, h => kept_execIntakeRead line s h
  | .biResponse page dirty, s, h => kept_execBiResponse page dirty s h
  | .hdmCommit base bi, s, h => kept_execHdmCommit base bi s h
  | .modelEnable via n value, s, h => kept_execModelEnable via n value s h
  | .modelStartEnd n, s, h => kept_execModelStartEnd n s h
  | .prefillStep model inst, s, h => kept_execPrefillStep model inst s h
  | .generationStep model inst, s, h => kept_execGenerationStep model inst s h
  | .ratioControl, s, h => kept_execRatioControl s h
  | .rolePin via cluster value, s, h => kept_execRolePin via cluster value s h
  | .tableGather ring desc indices offsets weights, s, h => kept_execTableGather ring desc indices offsets weights s h
  | .update ring desc indices values, s, h => kept_execUpdate ring desc indices values s h
  | .promote ring desc indices, s, h => kept_execPromote ring desc indices s h
  | .demote ring desc indices, s, h => kept_execDemote ring desc indices s h
  | .tableEnable via n value, s, h => kept_execTableEnable via n value s h
  | .tableSeal via n version, s, h => kept_execTableSeal via n version s h
  | .tableAdvance via n version, s, h => kept_execTableAdvance via n version s h
  | .tableInstall via n version root, s, h => kept_execTableInstall via n version root s h
  | .tableFloor via n floor, s, h => kept_execTableFloor via n floor s h
  | .rowRead src body, s, h => kept_execRowRead src body s h
  | .rowReadReply src body, s, h => kept_execRowReadReply src body s h
  | .tableStage src body, s, h => kept_execTableStage src body s h
  | .tableStageReply src body, s, h => kept_execTableStageReply src body s h
  | .tableCommit src body, s, h => kept_execTableCommit src body s h
  | .sealMark src body, s, h => kept_execSealMark src body s h
  | .sealMarkReply src body, s, h => kept_execSealMarkReply src body s h
  | .replicaPages src body, s, h => kept_execReplicaPages src body s h
  | .replicaPagesReply src body, s, h => kept_execReplicaPagesReply src body s h
  | .migrationCopy src body, s, h => kept_execMigrationCopy src body s h
  | .migrationCopyReply src body, s, h => kept_execMigrationCopyReply src body s h
  | .forwardedUpdate src body, s, h => kept_execForwardedUpdate src body s h
  | .cmsDecay island, s, h => kept_execCmsDecay island s h
  | .read link pkt, s, h => kept_execRead link pkt s h
  | .gather link pkt, s, h => kept_execGather link pkt s h
  | .fetch link pkt, s, h => kept_execFetch link pkt s h
  | .publish link pkt, s, h => kept_execPublish link pkt s h
  | .readReply link pkt, s, h => kept_execReadReply link pkt s h
  | .gatherReply link pkt, s, h => kept_execGatherReply link pkt s h
  | .fetchReply link pkt, s, h => kept_execFetchReply link pkt s h
  | .publishAck link pkt, s, h => kept_execPublishAck link pkt s h
  | .killNotice body, s, h => kept_execKillNotice body s h
  | .killNoticeWindowEnd device handle, s, h => kept_execKillNoticeWindowEnd device handle s h
  | .linkControl link ctl, s, h => kept_execLinkControl link ctl s h
  | .badPacket link pkt, s, h => kept_execBadPacket link pkt s h
  | .fabricTimeout island tag, s, h => kept_execFabricTimeout island tag s h
  | .publishAckTimeout island tag, s, h => kept_execPublishAckTimeout island tag s h
  | .linkAckTimeout link, s, h => kept_execLinkAckTimeout link s h
  | .linkAckInterval link, s, h => kept_execLinkAckInterval link s h
  | .linkEnable via n value, s, h => kept_execLinkEnable via n value s h
  | .linkReady n peer peerLink, s, h => kept_execLinkReady n peer peerLink s h
  | .faultIdleReceived link, s, h => kept_execFaultIdleReceived link s h
  | .routeTable via offset, s, h => kept_execRouteTable via offset s h
  | .keyringRefill, s, h => kept_execKeyringRefill s h
  | .keyringDir via offset, s, h => kept_execKeyringDir via offset s h
  | .keyringDirCheckEnd, s, h => kept_execKeyringDirCheckEnd s h
  | .keyringPin via w0 w1, s, h => kept_execKeyringPin via w0 w1 s h
  | .keyringUnpin via index, s, h => kept_execKeyringUnpin via index s h
  | .keyringFlush via value, s, h => kept_execKeyringFlush via value s h
  | .egressSelect link, s, h => kept_execEgressSelect link s h
  | .shaperTick link, s, h => kept_execShaperTick link s h
  | .gateIntervalEnd link, s, h => kept_execGateIntervalEnd link s h
  | .guardBandStart link, s, h => kept_execGuardBandStart link s h
  | .gateApply via link value, s, h => kept_execGateApply via link value s h
  | .gateListSwitch link, s, h => kept_execGateListSwitch link s h
  | .shaperRate via link rates, s, h => kept_execShaperRate via link rates s h
  | .policerCfg via w0 w1, s, h => kept_execPolicerCfg via w0 w1 s h
  | .tenantPolCfg via w0 w1, s, h => kept_execTenantPolCfg via w0 w1 s h
  | .queueHwm via sub, s, h => kept_execQueueHwm via sub s h
  | .classHwm via sub, s, h => kept_execClassHwm via sub s h
  | .preempt core cmd, s, h => kept_execPreempt core cmd s h
  | .clusterEnable via n value, s, h => kept_execClusterEnable via n value s h
  | .clusterReady n, s, h => kept_execClusterReady n s h
  | .textEnable via n value, s, h => kept_execTextEnable via n value s h
  | .textReady n, s, h => kept_execTextReady n s h
  | .drainEnd fn, s, h => kept_execDrainEnd fn s h
  | .drainHoldTimeout handle, s, h => kept_execDrainHoldTimeout handle s h
  | .slowdownClear via value, s, h => kept_execSlowdownClear via value s h
  | .odRead via index sub, s, h => kept_execOdRead via index sub s h
  | .odWrite via index sub value, s, h => kept_execOdWrite via index sub value s h
  | .odReadMulti via entries, s, h => kept_execOdReadMulti via entries s h
  | .odList via first last, s, h => kept_execOdList via first last s h
  | .eventRead via max, s, h => kept_execEventRead via max s h
  | .unsupported via opcode, s, h => kept_execUnsupported via opcode s h
  | .setEndpointId via eid, s, h => kept_execSetEndpointId via eid s h
  | .getEndpointId via, s, h => kept_execGetEndpointId via s h
  | .getMctpVersionSupport via, s, h => kept_execGetMctpVersionSupport via s h
  | .getMessageTypeSupport via, s, h => kept_execGetMessageTypeSupport via s h
  | .setdasa static dynamic, s, h => kept_execSetdasa static dynamic s h
  | .entdaa dynamic, s, h => kept_execEntdaa dynamic s h
  | .fwBegin via total, s, h => kept_execFwBegin via total s h
  | .fwChunk via offset data, s, h => kept_execFwChunk via offset data s h
  | .fwFetch via addr len, s, h => kept_execFwFetch via addr len s h
  | .fwFetchCompletion data ok, s, h => kept_execFwFetchCompletion data ok s h
  | .fwCommit via, s, h => kept_execFwCommit via s h
  | .fwVerifyEnd, s, h => kept_execFwVerifyEnd s h
  | .fwAbort via, s, h => kept_execFwAbort via s h
  | .fwFloor via value, s, h => kept_execFwFloor via value s h
  | .getVersion port, s, h => kept_execGetVersion port s h
  | .getCapabilities port, s, h => kept_execGetCapabilities port s h
  | .negotiateAlgorithms port, s, h => kept_execNegotiateAlgorithms port s h
  | .getDigests port, s, h => kept_execGetDigests port s h
  | .getCertificate port certSlot offset len, s, h => kept_execGetCertificate port certSlot offset len s h
  | .challenge port nonce flashOk, s, h => kept_execChallenge port nonce flashOk s h
  | .getMeasurements port index signed nonce flashOk, s, h => kept_execGetMeasurements port index signed nonce flashOk s h
  | .keyExchange port pub flashOk, s, h => kept_execKeyExchange port pub flashOk s h
  | .finish port session verify, s, h => kept_execFinish port session verify s h
  | .heartbeat port session, s, h => kept_execHeartbeat port session s h
  | .keyUpdate port session, s, h => kept_execKeyUpdate port session s h
  | .endSession port session, s, h => kept_execEndSession port session s h
  | .ideKm session stream on, s, h => kept_execIdeKm session stream on s h
  | .cxlIdeKm session on containment, s, h => kept_execCxlIdeKm session on containment s h
  | .powerOn, s, h => kept_execPowerOn s h
  | .perstRelease boot, s, h => kept_execPerstRelease boot s h
  | .perstAssert, s, h => kept_execPerstAssert s h
  | .powerFault, s, h => kept_execPowerFault s h
  | .thermalShutdown, s, h => kept_execThermalShutdown s h
  | .hostLinkUp flit256, s, h => kept_execHostLinkUp flit256 s h
  | .hostLinkDown aer, s, h => kept_execHostLinkDown aer s h
  | .beacon arrivals, s, h => kept_execBeacon arrivals s h
  | .beaconMissing island, s, h => kept_execBeaconMissing island s h
  | .skewClear via value, s, h => kept_execSkewClear via value s h
  | .watchdogTimeout island pc, s, h => kept_execWatchdogTimeout island pc s h
  | .clockLockLoss island, s, h => kept_execClockLockLoss island s h
  | .tempSample readings, s, h => kept_execTempSample readings s h
  | .faultNoticeArrival, s, h => kept_execFaultNoticeArrival s h
  | .islandReturn island, s, h => kept_execIslandReturn island s h
  | .faultClear via value, s, h => kept_execFaultClear via value s h
  | .fiArm via value, s, h => kept_execFiArm via value s h
  | .fiFire, s, h => kept_execFiFire s h
  | .piArm via value, s, h => kept_execPiArm via value s h
  | .counterRead via island counter, s, h => kept_execCounterRead via island counter s h
  | .counterCfg via island counter words, s, h => kept_execCounterCfg via island counter words s h
  | .counterWrap island counter, s, h => kept_execCounterWrap island counter s h
  | .lapClear via value, s, h => kept_execLapClear via value s h
  | .sampleEnable via value, s, h => kept_execSampleEnable via value s h
  | .sampleTag island handle, s, h => kept_execSampleTag island handle s h
  | .sampleRecord via, s, h => kept_execSampleRecord via s h
  | .powerReport p1 p100 mv, s, h => kept_execPowerReport p1 p100 mv s h
  | .powerPeakW via, s, h => kept_execPowerPeakW via s h
  | .opcodeUnassigned ring desc, s, h => kept_execOpcodeUnassigned ring desc s h
  | .tableCommitReply src body, s, h => kept_execTableCommitReply src body s h
  | .forwardedUpdateReply src body, s, h => kept_execForwardedUpdateReply src body s h
  | .packetCrcFailure link, s, h => kept_execPacketCrcFailure link s h
  | .linkTrainingFailed n, s, h => kept_execLinkTrainingFailed n s h
  | .hostSnoop addr, s, h => kept_execHostSnoop addr s h
  | .vectorUnmask vector, s, h => kept_execVectorUnmask vector s h
  | .doeDiscovery index, s, h => kept_execDoeDiscovery index s h
  | .cdatTableAccess entry, s, h => kept_execCdatTableAccess entry s h
  | .aerUncorrectableError status, s, h => kept_execAerUncorrectableError status s h
  | .stateMemoryScrub island cls addr, s, h => kept_execStateMemoryScrub island cls addr s h

/-- The same of the one state that a command answers. -/
theorem kept_of_exec {c : Instr} {s t : State} (h : exec c s = .next t) : Kept s t := by
  obtain ⟨u, hu, hk⟩ := kept_exec c s (Kept.refl s)
  obtain rfl : t = u := Host.Outcome.next.inj (h.symm.trans hu)
  exact hk

/-! ### The two kinds of step -/

/-- A command at the front of the queue runs on the state with the queue's rest. -/
theorem step_cons {s : State} {c : Instr} {q : List Instr} (h : s.pending = c :: q) : step s = exec c { s with pending := q } := by
  simp only [step, h]

/-- On an empty queue a step is a tick. -/
theorem step_nil {s : State} (h : s.pending = []) : step s = .next (tick s) := by simp only [step, h]

theorem tick_of_served {s : State} (h : (s.alive && s.ident.served) = true) :
    tick s = { s with time := s.time + 1, islands := tmap {} (fun _ => slewIsland) s.islands } := if_pos h

theorem tick_of_not_served {s : State} (h : (s.alive && s.ident.served) = false) : tick s = s := if_neg (by simp [h])

/-- A tick moves device time and the islands' copies alone. -/
theorem wf_tick {s : State} (h : wf s = true) : wf (tick s) = true := by
  cases hs : s.alive && s.ident.served with
  | false => rwa [tick_of_not_served hs]
  | true =>
    rw [tick_of_served hs]
    simp only [wf, tablesWf, memoryWf, Bool.and_eq_true] at h ⊢
    simp only [h, twf_tmap, and_self]

theorem tick_ident (s : State) : (tick s).ident = s.ident := by unfold tick; split <;> rfl

theorem tick_flash (s : State) : (tick s).flash = s.flash := by unfold tick; split <;> rfl

theorem leavesOk_tick {s : State} : leavesOk (tick s) ↔ leavesOk s := by
  simp only [leavesOk, signing, tick_ident, tick_flash]

theorem nextLeaf_tick (s : State) : nextLeaf (tick s) = nextLeaf s := by
  unfold tick
  split <;> rfl

/-- What holds of a step's two kinds holds of every step: a tick's result, or a command's on the state with the queue's rest. -/
theorem step_cases {s t : State} (h : step s = .next t) :
    t = tick s ∨ ∃ c q, Kept { s with pending := q } t ∧ s.pending = c :: q := by
  match hp : s.pending with
  | [] =>
    rw [step_nil hp] at h
    exact .inl (Host.Outcome.next.inj h).symm
  | c :: q =>
    rw [step_cons hp] at h
    exact .inr ⟨c, q, kept_of_exec h, rfl⟩

/-! ### The obligations -/

/-- Settles O1: the step's definition at a queue that is not empty. -/
theorem stepRunsFrontCommand : Obligations.stepRunsFrontCommand := fun _ _ _ => step_cons

/-- Settles O2: the step on an empty queue is the tick, by its two branches. -/
theorem idleStepIsATick : Obligations.idleStepIsATick := by
  unfold Obligations.idleStepIsATick
  intro s hq
  exact ⟨tick s, step_nil hq, fun ha hs => tick_of_served (by rw [ha, hs]; rfl), tick_of_not_served⟩

/-- Settles O3: reset lists no unit and no byte, and its identity signs nothing. -/
theorem resetIsCanonical : Obligations.resetIsCanonical := by
  unfold Obligations.resetIsCanonical
  have hsign : signing State.reset = false := by decide
  exact ⟨rfl, by decide, fun h => absurd (hsign.symm.trans h) Bool.false_ne_true, rfl, rfl, by decide⟩

/-- Settles O4: a tick maps the islands' table, and every command keeps the form. -/
theorem everyStepKeepsTheForm : Obligations.everyStepKeepsTheForm := by
  unfold Obligations.everyStepKeepsTheForm
  intro s t hw hstep
  rcases step_cases hstep with rfl | ⟨_, _, hk, -⟩
  · exact wf_tick hw
  · exact hk.wf hw

/-- Settles O5: a tick leaves identity and flash alone, and every command keeps the leaves. -/
theorem noStepTakesALeafBack : Obligations.noStepTakesALeafBack := by
  unfold Obligations.noStepTakesALeafBack
  intro s t hl hstep
  rcases step_cases hstep with rfl | ⟨_, _, hk, -⟩
  · exact ⟨leavesOk_tick.2 hl, (nextLeaf_tick s).ge⟩
  · exact hk.leaves hl

/-- Settles O6: every command keeps the queue, and the clock but for a reset. -/
theorem everyCommandCompletes : Obligations.everyCommandCompletes := by
  unfold Obligations.everyCommandCompletes
  intro c s
  obtain ⟨t, ht, hk⟩ := kept_exec c s (Kept.refl s)
  exact ⟨t, ht, hk.pending, hk.clock⟩

end Sys2Proof
end

section
/-! PROOFS. The bounds of the lists of ranking and packing (R121, R122, R126, R161, R162). -/

namespace Sys2Proof

open Machine Safety

/-! ### Shortlists (R121) -/

/-- The pen entries of a shortlist are what R121 takes of the pen's reply: at most PEN_K, and at most the shortlist's length. -/
theorem length_pen_shortlistOf (x : Slot) :
    (shortlistOf x).pen.length ≤ dPenK x.desc ∧ (shortlistOf x).pen.length ≤ dShortlist x.desc := by
  simp only [shortlistOf]
  cases x.penReply with
  | none => simp
  | some p =>
    cases dPenEn x.desc with
    | false => simp
    | true =>
      simp only [↓reduceIte, List.length_take]
      omega

/-- The corpus entries fill what the pen entries leave of the length. -/
theorem length_shortlistOf (x : Slot) : (shortlistOf x).corpus.length + (shortlistOf x).pen.length ≤ dShortlist x.desc := by
  obtain ⟨-, hpen⟩ := length_pen_shortlistOf x
  have hcorpus : (shortlistOf x).corpus.length ≤ dShortlist x.desc - (shortlistOf x).pen.length := List.length_take_le _ _
  omega

theorem nodup_shortlistOf (x : Slot) : ((shortlistOf x).corpus.map (·.id)).Nodup :=
  ((List.take_sublist _ _).map _).nodup (dedupBy_nodup SweepEntry.id _)

/-! ### Exact candidates (R126) -/

/-- A list without copies that is cut at the length of the list it came from is sorted whole. -/
theorem distinctCands_perm (cs : List Cand) : (distinctCands cs).Perm (dedupBy Cand.id (sortBy copyLe cs)) := by
  have hlen : (sortBy (fun a b : Cand => scoreLe (a.exact, a.id.toNat) (b.exact, b.id.toNat)) (dedupBy Cand.id (sortBy copyLe cs))).length ≤
      cs.length :=
    calc _ = (dedupBy Cand.id (sortBy copyLe cs)).length := (sortBy_perm _ _).length_eq
      _ ≤ (sortBy copyLe cs).length := (dedupBy_sublist _ _).length_le
      _ = cs.length := (sortBy_perm _ _).length_eq
  simp only [distinctCands, topBy]
  rw [List.take_of_length_le hlen]
  exact sortBy_perm _ _

theorem nodup_distinctCands (cs : List Cand) : ((distinctCands cs).map (·.id)).Nodup :=
  ((distinctCands_perm cs).map Cand.id).nodup_iff.2 (dedupBy_nodup Cand.id _)

/-- Every candidate's id is still there. -/
theorem exists_mem_distinctCands {cs : List Cand} {c : Cand} (h : c ∈ cs) : ∃ d ∈ distinctCands cs, d.id = c.id := by
  obtain ⟨d, hd, hid⟩ := dedupBy_keeps Cand.id (sortBy copyLe cs) c ((sortBy_perm _ _).mem_iff.2 h)
  exact ⟨d, (distinctCands_perm cs).mem_iff.2 hd, hid⟩

/-- Settles O17: a list's bound each, the cut of the passages and their placement by induction over the passages. -/
theorem listsKeepTheirBounds : Obligations.listsKeepTheirBounds := by
  unfold Obligations.listsKeepTheirBounds
  refine ⟨fun x => ⟨length_shortlistOf x, (length_pen_shortlistOf x).1, nodup_shortlistOf x⟩,
    fun cs => ⟨nodup_distinctCands cs, fun c => exists_mem_distinctCands⟩, fun ps => ?_, fun t room ps => ?_⟩
  · obtain ⟨hnodup, hcount, kept, hkept, hsub⟩ := dropCopies_step ps ([], 0, 0)
    rw [List.nil_append] at hkept
    exact ⟨hnodup List.nodup_nil, hcount.trans (Nat.zero_add _), hkept ▸ hsub⟩
  · obtain ⟨hroom, hcount, hbody⟩ := placeAll_bound t ps room [] (fun _ h => absurd h List.not_mem_nil)
    exact ⟨hroom.trans_eq (Nat.zero_add _), hcount.trans (Nat.zero_add _), hbody⟩

end Sys2Proof
end

section
/-! PROOFS. Doorbells, admissions and continues (R34, R43 to R47). -/

namespace Sys2Proof

open Machine Safety

/-! ### What notes leave of a ring and of the firmware -/

theorem Safety.Noted.ring {s t : State} (h : Noted s t) (n : Nat) : t.ring n = s.ring n := by
  obtain ⟨-, _, _, _, _, _, rfl⟩ := h
  rfl

theorem Safety.Noted.fwReady {s t : State} (h : Noted s t) : t.fwReady = s.fwReady := by
  unfold State.fwReady
  rw [h.hubUp]
  obtain ⟨-, _, _, _, _, _, rfl⟩ := h
  rfl

/-! ### Doorbells -/

theorem exec_doorbell_of_up {ring : Nat} {s : State} (hs : s.hostUp = true) (hr : ring < 64) (tail : Word32) :
    exec (.doorbell ring tail) s = .next
      (let u := countEv idHost 5 3 1 {} s
       if !(u.ring ring).enable ∨ !u.fwReady ∨ (u.ring ring).size < (tail - (u.ring ring).head).toNat
       then u.modRing ring fun r => { r with errors := r.errors + 1 }
       else u.modRing ring fun r => { r with tail := tail }) :=
  congrArg Host.Outcome.next (if_pos (by simp [hs, hr]))

theorem exec_doorbell_of_not_up {ring : Nat} {s : State} (h : s.hostUp = false ∨ 64 ≤ ring) (tail : Word32) :
    exec (.doorbell ring tail) s = .next s :=
  congrArg Host.Outcome.next (if_neg (by
    rcases h with h | h
    · simp [h]
    · simp [Nat.not_lt.2 h]))

/-- Settles O7: the event that counts the doorbell changes no ring, so the three tests are those of the state before. -/
theorem doorbell : Obligations.doorbell := by
  unfold Obligations.doorbell
  intro ring tail s
  refine ⟨fun hs hr => ⟨_, exec_doorbell_of_up hs hr tail, ?_⟩, fun h => exec_doorbell_of_not_up h tail⟩
  have hnoted := noted_countEv idHost 5 3 1 {} s
  simp only [hnoted.ring, hnoted.fwReady]
  by_cases hok : (s.ring ring).enable = true ∧ s.fwReady = true ∧ (tail - (s.ring ring).head).toNat ≤ (s.ring ring).size
  · rw [if_pos hok, if_neg (by simpa [-BitVec.toNat_sub] using hok)]
    exact hnoted.modRing _ _
  · rw [if_neg hok, if_pos (by simpa [not_and_or, -not_and, -BitVec.toNat_sub] using hok)]
    exact hnoted.modRing _ _

/-! ### Admissions -/

/-- The policer meters a tenant; nothing that an admission fills a slot with hangs on its buckets. -/
theorem policeTenant_snd (n w : Nat) (s : State) : ∃ tr, (policeTenant n w s).2 = { s with traffic := tr } := ⟨_, rfl⟩

theorem aside_policeTenant (n w : Nat) (s : State) : Aside s (policeTenant n w s).2 := by
  obtain ⟨tr, h⟩ := policeTenant_snd n w s
  rw [h]
  exact Aside.raw_iff.2 (Aside.refl s)

theorem descFill_policeTenant (n w : Nat) (s : State) (d : Words) : descFill d (policeTenant n w s).2 = descFill d s := by
  obtain ⟨tr, h⟩ := policeTenant_snd n w s
  rw [h]
  rfl

theorem Safety.Noted.entrySlot {s t : State} (h : Noted s t) (n k : Nat) (d : Words) (w : Bool) (fill : Slot → Slot) :
    entrySlot n k d w fill t = entrySlot n k d w fill s := by
  obtain ⟨-, _, _, _, _, _, rfl⟩ := h
  rfl

theorem entrySlot_policeTenant (m w n k : Nat) (d : Words) (c : Bool) (fill : Slot → Slot) (s : State) :
    entrySlot n k d c fill (policeTenant m w s).2 = entrySlot n k d c fill s := rfl

/-- What a request descriptor does with the state in which it has been read, whichever row brought it: the outcomes that reject none. -/
theorem exec_requestRow {n : Nat} {given d : Words} {s u : State} {r : Nat × Instr} (hm : s.mayTake n = true) (hk : (s.ring n).kind = 0)
    (hr : entryRead n s = some u) (hrow : r ∈ requestRows n given) (hd : s.ringEntry n given = d) (hop : dOpcode d = r.1) :
    ∃ v, Noted u v ∧ (mirrorBad d = true → exec r.2 s = .next (skipEntry n v)) ∧
      (mirrorBad d = false → checkCode n d (descForm r.1 d) (descCheck d) u = 0 →
        (u.slotFor (dTenant d) = none → exec r.2 s = .next (holdEntry n v)) ∧
        (∀ k, u.slotFor (dTenant d) = some k → (policeTenant n (dTenant d) u).1 = true →
          exec r.2 s = .next (admitEntry n k d (!dInputFinal d) (descFill d u) (policeTenant n (dTenant d) v).2))) := by
  subst hd
  obtain ⟨v, hv, hdesc⟩ := takeDescriptor_eq n (s.ringEntry n given) (descForm r.1 _) (descCheck _) (!dInputFinal _) (descFill _) hm hr
  rw [checkCode_noted hv n _ _ _ (hv.descCheck _), hv.slotFor] at hdesc
  rw [exec_of_mem_requestRows hrow, takeRequest_of_opcode hop hk, hdesc]
  refine ⟨v, hv, fun hbad => by rw [if_pos hbad], fun hbad hcode => ?_⟩
  rw [if_neg (by simp [hbad]), if_neg (by simp [hcode])]
  refine ⟨fun hslot => by rw [hslot], fun k hslot hpass => ?_⟩
  rw [hslot]
  dsimp only
  rw [(hv.policeTenant n _).1, if_neg (by simp [hpass]), descFill_policeTenant, hv.descFill]

/-- Settles O8: the three outcomes of the admission's cases that are no rejection. -/
theorem requestIsAdmitted : Obligations.requestIsAdmitted := by
  unfold Obligations.requestIsAdmitted
  intro n k given s u hs hm hk hr r hrow d hop
  obtain ⟨v, hv, hskip, hpass⟩ := exec_requestRow hm hk hr hrow rfl hop
  obtain ⟨-, hslots, used, hhub⟩ := entryRead_keeps hr
  refine ⟨fun hbad hcode hslot hgreen => ⟨_, (hpass hbad hcode).2 k hslot hgreen, ?_, ?_⟩,
    fun hbad hcode hslot => ⟨_, (hpass hbad hcode).1 hslot, hv.holdEntry n⟩,
    fun hbad => ⟨_, hskip hbad, (hv.modRing n _).passEntry n⟩⟩
  · exact admitted_admitEntry (Aside.trans (aside_of_noted hv) (aside_policeTenant n (dTenant d) v)) (hslots ▸ hs) n k d _ _ _
      ((entrySlot_policeTenant ..).trans (hv.entrySlot ..))
  · calc (admitEntry n k d (!dInputFinal d) (descFill d u) (policeTenant n (dTenant d) v).2).hub.admitted
      _ = v.hub.admitted + 1 := admitted_count ..
      _ = u.hub.admitted + 1 := by obtain ⟨-, _, _, _, _, _, rfl⟩ := hv; rfl
      _ = s.hub.admitted + 1 := by rw [hhub]

/-! ### Continues (R43) -/

section

variable {n : Nat} {given d : Words} {s u : State}

/-- The state in which a continue's text is read: HEAD has passed it and the snoops of its buffer are used. -/
def continueReads (n : Nat) (d : Words) (v : State) : State := passEntry n (clearSnoops [(dInputAddr d, dInputLen d)] v)

/-- What CONTINUE does with a descriptor in its form, in the state in which it has been read. -/
theorem exec_continueText (hm : s.mayTake n = true) (hk : (s.ring n).kind = 0) (hr : entryRead n s = some u)
    (hd : s.ringEntry n given = d) (hop : dOpcode d = opContinue) (hbad : mirrorBad d = false) (hform : contForm d = true)
    (hten : u.tenantOk n d = true) (text : Bytes) :
    ∃ v, Noted u v ∧ (u.continues n d = false → exec (.continueText n given text) s = .next (rejectEntry n d 0x109 v)) ∧
      (u.continues n d = true → (u.slot (handleSlot (cHandle d))).received + dInputLen d + dCtxLen (u.slot (handleSlot (cHandle d))).desc ≤
          u.hub.maxInput.toNat → u.snooped [(dInputAddr d, dInputLen d)] = true →
        let r := readHost (dInputAddr d) (dInputLen d) text (continueReads n d v)
        (r.1 ≠ 0 → exec (.continueText n given text) s = .next (failSlot (handleSlot (cHandle d)) r.1 r.2.2)) ∧
        (r.1 = 0 → exec (.continueText n given text) s = .next (appendText (handleSlot (cHandle d)) d r.2.1 r.2.2))) := by
  subst hd
  obtain ⟨v, hv, hread⟩ := readRingEntry_eq hm hr
  refine ⟨v, hv, ?_⟩
  have hten' : v.tenantOk n (s.ringEntry n given) = true := by obtain ⟨-, _, _, _, _, _, rfl⟩ := hv; exact hten
  have hcont : v.continues n (s.ringEntry n given) = u.continues n (s.ringEntry n given) := by obtain ⟨-, _, _, _, _, _, rfl⟩ := hv; rfl
  have hsnoop : v.snooped [(dInputAddr (s.ringEntry n given), dInputLen (s.ringEntry n given))] =
      u.snooped [(dInputAddr (s.ringEntry n given), dInputLen (s.ringEntry n given))] := by obtain ⟨-, _, _, _, _, _, rfl⟩ := hv; rfl
  have hslot : ∀ k, v.slot k = u.slot k := fun k => by obtain ⟨-, _, _, _, _, _, rfl⟩ := hv; rfl
  have hhub : v.hub = u.hub := by obtain ⟨-, _, _, _, _, _, rfl⟩ := hv; rfl
  simp only [exec, execContinueText, hread, hk, hop, hbad, hform, hten', hcont, hsnoop, hslot, hhub, continueReads]
  refine ⟨fun hc => by simp [hc], fun hc hroom hs => ?_⟩
  simp only [hc, hs, Nat.not_lt.2 hroom]
  obtain ⟨c, bs, w⟩ := readHost (dInputAddr (s.ringEntry n given)) (dInputLen (s.ringEntry n given)) text
    (passEntry n (clearSnoops [(dInputAddr (s.ringEntry n given), dInputLen (s.ringEntry n given))] v))
  refine ⟨fun (h : c ≠ 0) => ?_, fun (h : c = 0) => ?_⟩
  · simp only [Bool.not_true, Bool.false_eq_true, ne_eq, not_true_eq_false, or_self, ↓reduceIte]
    split
    · next heq => exact absurd (Prod.mk.inj heq).1 h
    · next heq =>
      obtain ⟨rfl, -, rfl⟩ := heq
      rfl
  · subst h
    rfl

end

/-- A slot with a continue's text behind its own. -/
def appendedSlot (d : Words) (text : Bytes) (x : Slot) : Slot :=
  { x with text := x.text ++ text, received := x.received + dInputLen d, inputDone := dInputFinal d }

/-- What a continue's text makes of its slot (R43, R53): with the last buffer CONT_WAIT falls, in the mirror at once or when its window is
past. -/
def continuedSlot (d : Words) (text : Bytes) (coalesce : Word16) (now : Word64) (x : Slot) : Slot :=
  if dInputFinal d = false then appendedSlot d text x
  else if coalesce = 0 ∨ coalesce.toNat ≤ (now - x.mirrorAt).toNat
  then { appendedSlot d text x with status := clearFlag flContWait x.status, mirrorAt := now, mirrorPend := none }
  else { appendedSlot d text x with status := clearFlag flContWait x.status, mirrorPend := some now }

/-- CONT_WAIT tells nothing of a slot's state and stage. -/
theorem atStage_clearFlag {s : State} (hs : twf {} s.slots = true) (n g : Nat) :
    (changeStatus n false (clearFlag flContWait) s).atStage n g = s.atStage n g := by
  have haside := aside_changeStatus n (clearFlag flContWait) s hs
  have hstatus : ((changeStatus n false (clearFlag flContWait) s).slot n).status = clearFlag flContWait (s.slot n).status := by
    have hslot := congrArg Slot.status ((haside.slots (twf_modSlot hs ..)).2 n)
    rw [slot_modSlot hs, if_pos rfl] at hslot
    refine hslot.trans ?_
    split <;> rfl
  refine atStage_mono (hubUp_changeStatus ..) ?_ ?_
  · rw [hstatus]
    exact bits_clearFlag (by decide) (by decide)
  · rw [hstatus]
    exact bits_clearFlag (by decide) (by decide)

/-- While the tokenise stage does not run, a continue's text changes its slot and may change its status, and nothing else happens. -/
theorem appendText_of_not_atStage {w : State} (hw : twf {} w.slots = true) {n : Nat} (hst : w.atStage n sgTokenise = false) (d : Words)
    (text : Bytes) : appendText n d text w = if dInputFinal d then changeStatus n false (clearFlag flContWait) (w.modSlot n (appendedSlot d text))
      else w.modSlot n (appendedSlot d text) := by
  have hput : (w.modSlot n (appendedSlot d text)).atStage n sgTokenise = false := by
    rw [← hst]
    refine atStage_mono rfl ?_ ?_ <;> rw [slot_modSlot hw, if_pos rfl] <;> rfl
  have hnot : (if dInputFinal d then changeStatus n false (clearFlag flContWait) (w.modSlot n (appendedSlot d text))
      else w.modSlot n (appendedSlot d text)).atStage n sgTokenise = false := by
    split
    · exact (atStage_clearFlag (twf_modSlot hw ..) n sgTokenise).trans hput
    · exact hput
  exact if_neg (ne_true_of_eq_false hnot)

/-- A continue's text goes into its slot and nowhere else. -/
theorem aside_appendText {a w : State} (h : Aside a w) (hs : twf {} a.slots = true) (n : Nat) (d : Words) (text : Bytes)
    (hst : w.atStage n sgTokenise = false) :
    Aside (a.modSlot n (continuedSlot d text w.hub.coalesce a.time)) (appendText n d text w) := by
  have hw : twf {} w.slots = true := (h.slots hs).1
  have hput : Aside (a.modSlot n (appendedSlot d text)) (w.modSlot n (appendedSlot d text)) := h.modSlot hs n _ fun _ => rfl
  rw [appendText_of_not_atStage hw hst]
  cases hfin : dInputFinal d with
  | false => exact Aside_of_eq hput (modSlot_congr (by simp [continuedSlot, hfin]))
  | true =>
    have hclear := Aside.trans (hput.modSlot (twf_modSlot hs ..) n _ fun x => ?_)
      (aside_changeStatus n (clearFlag flContWait) (w.modSlot n (appendedSlot d text)) (twf_modSlot hw ..))
    · rw [modSlot_modSlot hs] at hclear
      refine Aside_of_eq hclear (modSlot_congr ?_)
      simp only [continuedSlot, hfin, modSlot_hub, modSlot_time, h.time, appendedSlot, Bool.true_eq_false, ↓reduceIte]
    · dsimp only
      split <;> rfl

/-- Before its text is read a continue has changed its ring alone. -/
theorem continueReads_keeps {n : Nat} {d : Words} {u v : State} (hv : Noted u v) :
    Aside (u.modRing n fun r => { r with head := r.head + 1 }) (continueReads n d v) ∧ (continueReads n d v).slots = u.slots ∧
      (continueReads n d v).hubUp = u.hubUp ∧ (continueReads n d v).hub.coalesce = u.hub.coalesce ∧
      ∀ addr len given, (readHost addr len given (continueReads n d v)).1 = (readHost addr len given u).1 ∧
        (readHost addr len given (continueReads n d v)).2.1 = (readHost addr len given u).2.1 := by
  refine ⟨(aside_clearSnoops _ _ (aside_of_noted hv)).passEntry n, ?_, hv.hubUp, ?_, fun addr len given => ?_⟩
  · obtain ⟨-, _, _, _, _, _, rfl⟩ := hv
    rfl
  · obtain ⟨-, _, _, _, _, _, rfl⟩ := hv
    rfl
  · refine readHost_congr addr len given ?_ ?_ ?_ fun off m => hv.peek off m
    all_goals
      obtain ⟨-, _, _, _, _, _, rfl⟩ := hv
      rfl

/-- Settles O10: the accepted continue's text goes into its slot, and the other two outcomes are the model's own. -/
theorem continueAddsText : Obligations.continueAddsText := by
  unfold Obligations.continueAddsText
  intro n given text s u hs hm hk hr d hop hbad hform hten
  obtain ⟨v, hv, hreject, haccept⟩ := exec_continueText hm hk hr rfl hop hbad hform hten text
  obtain ⟨haside, hslots, used, hhub⟩ := entryRead_keeps hr
  obtain ⟨hread, hreadSlots, hreadUp, hcoalesce, hvalue⟩ := continueReads_keeps (n := n) (d := d) hv
  refine ⟨fun hcont hroom hsnoop => ?_, fun hcont => ?_⟩
  · obtain ⟨hfail, hdone⟩ := haccept hcont (by rw [hhub]; exact hroom) hsnoop
    obtain ⟨hkeep, hkeepSlots, hkeepUp, used', hkeepHub⟩ := readHost_keeps (dInputAddr d) (dInputLen d) text (continueReads n d v)
    obtain ⟨hcode, hbytes⟩ := hvalue (dInputAddr d) (dInputLen d) text
    rw [hcode] at hfail hdone
    refine ⟨fun hne => ⟨_, hfail hne, hkeep _ hread⟩, fun hok hst => ⟨_, hdone hok, ?_⟩⟩
    have hslot : ∀ k, ((readHost (dInputAddr d) (dInputLen d) text (continueReads n d v)).2.2).slot k = u.slot k := fun k => by
      simp only [State.slot, hkeepSlots, hreadSlots]
    have happend := aside_appendText (hkeep _ hread) (hslots ▸ hs) (handleSlot (cHandle d)) d (readHost (dInputAddr d) (dInputLen d) text u).2.1
      ((atStage_mono (hkeepUp.trans hreadUp) (by rw [hslot]) (by rw [hslot])).trans hst)
    rw [hbytes]
    refine Aside_of_eq happend (modSlot_congr ?_)
    simp only [continuedSlot, appendedSlot, hkeepHub, hcoalesce, hhub, modRing_time, haside.time]
  · obtain ⟨a, ce, pe, h⟩ := noted_rejectEntry hv n d 0x109
    exact ⟨_, a, ce, pe, hreject hcont, h⟩

end Sys2Proof
end

section
/-! PROOFS. How requests end, are mirrored and leave their slots, and how their stages get their turn (R51 to R62). -/

namespace Sys2Proof

open Machine Safety

/-! ### Ends other than done (R59 to R61) -/

/-- A live request's slot is live. -/
theorem liveState_of_live {s : State} {h : Word32} (hl : s.live h = true) : liveState (s.slot (handleSlot h)).status = true :=
  (Bool.and_eq_true_iff.1 hl).1

theorem exec_requestFailure_of_live {h : Word32} {code : Word16} {s : State} (hup : s.hubUp = true) (hcode : code ≠ 0) (hl : s.live h = true) :
    exec (.requestFailure h code) s = .next (endRequest (handleSlot h) ssFailed code.toNat s) := by
  show Host.Outcome.next (if (s.hubUp && decide (code ≠ 0)) = true then failRequest (some h) code s else s) = _
  rw [if_pos (by simp only [hup, hcode, ne_eq, not_false_eq_true, decide_true, Bool.and_self])]
  exact congrArg Host.Outcome.next (if_pos hl)

theorem exec_requestFailure_of_not_live {h : Word32} {code : Word16} {s : State} (hl : s.live h = false) :
    exec (.requestFailure h code) s = .next s := by
  simp only [exec, execRequestFailure, failRequest, hl, Bool.false_eq_true, ↓reduceIte, ite_self]

/-- Settles O11: each command ends its live request by endRequest, whose effect is said once. -/
theorem requestEnds : Obligations.requestEnds := by
  unfold Obligations.requestEnds
  intro handle s hs
  refine ⟨fun hup hlive hsent => ⟨_, ?_, aside_endRequest _ ssCancelled 0x103 s hs (liveState_of_live hlive) hsent⟩, fun hup hlate => ?_,
    fun n hup hlive hsent hdl hpast => ⟨_, ?_, aside_endRequest n ssExpired 0x102 s hs hlive hsent⟩,
    fun code hup hcode hlive hsent => ⟨_, exec_requestFailure_of_live hup hcode hlive,
      aside_endRequest _ ssFailed code.toNat s hs (liveState_of_live hlive) hsent⟩,
    fun code hdead => exec_requestFailure_of_not_live hdead⟩
  · simp only [exec, execCancel, hup, hlive, hsent, Bool.not_false, Bool.and_self, ↓reduceIte]
  · simp only [exec, execCancel, hup, hlate, Bool.false_eq_true, ↓reduceIte]
  · simp only [exec, execExpire, hup, hlive, hdl, hpast, ne_eq, not_false_eq_true, decide_true, Bool.and_self, ↓reduceIte]

/-! ### The final commit (R61, R62) -/

theorem exec_finalCommit {n : Nat} {s : State} (hup : s.hubUp = true) (hrun : stState (s.slot n).status = ssRunning)
    (hc : (s.slot n).committed = true) (hlast : (s.slot n).lastStage = true) (hobs : (s.slot n).observe = []) :
    exec (.finalCommit n) s = .next (if s.pastDeadline n then endRequest n ssExpired 0x102 s
      else finishRequest n (s.slot n).doneCount
        (if (s.slot n).deadEnd then s.modSlot n fun x => { x with status := setCode 0x501 x.status } else s)) :=
  congrArg Host.Outcome.next (if_pos (by simp [hup, hrun, hc, hlast, hobs]))

theorem liveState_of_running {w : Word64} (h : stState w = ssRunning) : liveState w = true := by simp [liveState, h]

theorem pastDeadline_iff {n : Nat} {s : State} :
    s.pastDeadline n = true ↔ (s.slot n).deadline ≠ BitVec.allOnes 64 ∧ (s.slot n).deadline < s.time := by
  simp only [State.pastDeadline, Bool.and_eq_true, decide_eq_true_eq]

/-- Done: the count of R53 and the dead end's code, whichever is written first. -/
theorem aside_commitDone {n : Nat} {s : State} (hs : twf {} s.slots = true) :
    Aside (s.modSlot n fun x => Slot.ended { x with
        status := setCount x.doneCount (setState ssDone (if x.deadEnd then setCode 0x501 x.status else x.status))
        mirrorAt := s.time } s.time)
      (finishRequest n (s.slot n).doneCount
        (if (s.slot n).deadEnd then s.modSlot n fun x => { x with status := setCode 0x501 x.status } else s)) := by
  cases hd : (s.slot n).deadEnd with
  | false => exact Aside_of_eq (aside_finishRequest n _ s hs) (modSlot_congr (by simp only [hd, Bool.false_eq_true, ↓reduceIte]))
  | true =>
    have h := aside_finishRequest n (s.slot n).doneCount (s.modSlot n fun x => { x with status := setCode 0x501 x.status }) (twf_modSlot hs ..)
    rw [modSlot_modSlot hs] at h
    exact Aside_of_eq h (modSlot_congr (by simp only [hd, modSlot_time, ↓reduceIte]))

/-- Settles O12: past the deadline it is an end as any other, and else the finished request's slot. -/
theorem finalCommitIsDone : Obligations.finalCommitIsDone := by
  unfold Obligations.finalCommitIsDone
  intro n s hs hup hrun hc hlast hobs
  have hexec := exec_finalCommit hup hrun hc hlast hobs
  refine ⟨fun hin => ?_, fun hdl hpast hsent => ?_⟩
  · have hnot : ¬ s.pastDeadline n = true := fun h => by
      obtain ⟨hdl, hpast⟩ := pastDeadline_iff.1 h
      exact hin.elim hdl (BitVec.not_le.2 hpast)
    rw [if_neg hnot] at hexec
    exact ⟨_, hexec, aside_commitDone hs⟩
  · rw [if_pos (pastDeadline_iff.2 ⟨hdl, hpast⟩)] at hexec
    exact ⟨_, hexec, aside_endRequest n ssExpired 0x102 s hs (liveState_of_running hrun) hsent⟩

/-- Settles O13: the two commands free a slot by the same write of its status word. -/
theorem slotIsFreed : Obligations.slotIsFreed := by
  unfold Obligations.slotIsFreed
  intro s
  refine ⟨fun handle hup => ?_, fun n hup hterm => ?_⟩
  · simp only [exec, execRelease, hup, freeSlot, Bool.and_eq_true, decide_eq_true_eq, ↓reduceIte]
  · simp only [exec, execSlotRetainTimeout, hup, hterm, freeSlot, Bool.and_eq_true, decide_eq_true_eq, true_and]

/-! ### Mirror lines and result buffers (R53 to R57) -/

/-- MIRROR_COALESCE writes the line of the change that waits. -/
theorem exec_mirrorCoalesce {n : Nat} {at_ : Word64} {s : State} (hup : s.hubUp = true) (hp : (s.slot n).mirrorPend = some at_) :
    exec (.mirrorCoalesce n) s = .next (writeMirror n at_ s) := by
  simp only [exec, execMirrorCoalesce, hp, hup, ↓reduceIte]

/-- A mirror line is 64 bytes of host memory, where the host's own memory holds it. -/
theorem memGet_writeMirror {n : Nat} {at_ : Word64} {s : State} (hm : memWf s.host.hostMem = true) (hp : s.hostPath = true)
    (hw : s.windowOffset (dMirror (s.slot n).desc) = none) (a : Nat) :
    memGet (writeMirror n at_ s).host.hostMem a =
      if dMirror (s.slot n).desc ≤ a ∧ a < dMirror (s.slot n).desc + 64
      then (mirrorLine (s.slot n).status (s.handle n) (dTag (s.slot n).desc) at_ (s.slot n).admitTime
        (s.slot n).corpusEpoch (if dPenEn (s.slot n).desc then (s.slot n).penEpoch else 0)).getD (a - dMirror (s.slot n).desc) 0
      else memGet s.host.hostMem a := by
  have hmem : (writeMirror n at_ s).host.hostMem = memWrite s.host.hostMem (dMirror (s.slot n).desc) _ :=
    hostMem_hostWrite (s := s.modSlot n fun x => { x with mirrorAt := s.time, mirrorPend := none }) _ hp hw
  rw [hmem, memGet_memWrite hm, length_mirrorLine]

/-- GLOBAL_OBSERVATION of the oldest written buffer: what declares it complete is set, and an output's flags may be merged (R54). -/
theorem exec_globalObservation {n count flags : Nat} {b : Buf} {rest : List (Buf × Nat × Nat)} {s : State} (hup : s.hubUp = true)
    (hp : s.hostPath = true) (hl : liveState (s.slot n).status = true) (hc : (s.slot n).cut = false)
    (ho : (s.slot n).observe = (b, count, flags) :: rest) :
    let u := s.modSlot n fun x => { x with observe := rest }
    let more := fun w : Word64 => w ||| field 32 (flags % 256)
    (b = .shortlist → exec (.globalObservation n) s = .next (changeStatus n true (fun w => setFlag flPartial true (setCount count (more w))) u)) ∧
    (b = .ranked → exec (.globalObservation n) s = .next (changeStatus n true (fun w => setFlag flRanked true (setCount count (more w))) u)) ∧
    (b = .output → exec (.globalObservation n) s = .next (if flags % 256 = 0 then u.modSlot n fun x => { x with outCount := count }
      else changeStatus n false more (u.modSlot n fun x => { x with outCount := count }))) := by
  have hgo : (!s.hubUp || !liveState (s.slot n).status || !s.hostPath || (s.slot n).cut) = false := by simp only [hup, hl, hp, hc]; rfl
  refine ⟨?_, ?_, ?_⟩
  all_goals
    rintro rfl
    simp only [exec, execGlobalObservation, ho, hgo, Bool.false_eq_true, ↓reduceIte]

/-- Settles O14: a change that may not wait is mirrored by the forced change of status, the output's by the one that may. -/
theorem mirrorLinesAndBuffers : Obligations.mirrorLinesAndBuffers := by
  unfold Obligations.mirrorLinesAndBuffers
  refine ⟨fun n at_ s hm hup hp hpend hw => ⟨_, exec_mirrorCoalesce hup hpend, aside_writeMirror n at_ s, memGet_writeMirror hm hp hw⟩,
    fun n b count flags rest s hs hup hp hl hc ho => ?_⟩
  obtain ⟨hshort, hranked, hout⟩ := exec_globalObservation hup hp hl hc ho
  cases b with
  | shortlist =>
    refine ⟨_, hshort rfl, ?_⟩
    have h := aside_changeStatus_force n (fun w => setFlag flPartial true (setCount count (w ||| field 32 (flags % 256))))
      (s.modSlot n fun x => { x with observe := rest }) (twf_modSlot hs ..)
    rwa [modSlot_modSlot hs] at h
  | ranked =>
    refine ⟨_, hranked rfl, ?_⟩
    have h := aside_changeStatus_force n (fun w => setFlag flRanked true (setCount count (w ||| field 32 (flags % 256))))
      (s.modSlot n fun x => { x with observe := rest }) (twf_modSlot hs ..)
    rwa [modSlot_modSlot hs] at h
  | output =>
    refine ⟨_, hout rfl, ?_⟩
    rw [modSlot_modSlot hs]
    by_cases hf : flags % 256 = 0
    · simp only [hf, ↓reduceIte]
      exact Aside.refl _
    · simp only [hf, ↓reduceIte]
      have h := aside_changeStatus n (· ||| field 32 (flags % 256)) (s.modSlot n fun x => { x with observe := rest, outCount := count }) (twf_modSlot hs ..)
      rwa [modSlot_modSlot hs] at h

/-! ### Stages (R51) -/

/-- Settles O15: each stage row runs by its turn, and a request whose sequence runs settles its rewrite. -/
theorem stagesRun : Obligations.stagesRun := by
  unfold Obligations.stagesRun
  intro n text ctx expr remote s
  exact ⟨fun r hr hready => stageRow_ok n text ctx expr remote s r hr hready, fun hseq => congrArg Host.Outcome.next (if_pos hseq)⟩

end Sys2Proof
end

section
/-! PROOFS. Sweeps on their owner (R96 to R105). -/

namespace Sys2Proof

open Machine Safety

/-- A sweep request at a hub that serves: dropped when its kill came first, served when it passes its check, and denied with the check's
code otherwise; 0312h is counted (R96). -/
theorem exec_sweepRequest {b : Words} {s : State} (hup : s.hubUp = true) (hb : msgKind b = 1) :
    exec (.sweepRequest b) s = .next (
      let u := takeLoop b s
      let c := sweepCheck u b
      if u.killed (msgDevice b) (msgHandle b) then u
      else if c.1 = 0 then startSweeps b c.2 u
      else sendReply b 0x81 (srEpoch b) 0 (srLists b) c.1 0 0 []
        (if c.1 = 0x312 then { u with publish := { u.publish with floorFails := u.publish.floorFails + 1 } } else u)) :=
  congrArg Host.Outcome.next (if_neg (by simp [hup, hb]))

/-- SWEEP_START with an idle engine and a due flock (R99). -/
theorem exec_sweepStart {i key e : Nat} {f : Flock} {s : State} (hup : s.stackUp i = true) (he : (s.stack i).idleEngine = some e)
    (hf : (s.stack i).nextDue = some f) (hk : f.key = key) :
    exec (.sweepStart i key) s = .next (s.modStack i fun t =>
      { t with flocks := t.flocks.map fun g => if g = f then { g with state := .sweeping e } else g }) := by
  simp only [exec, execSweepStart, he, hf, hup, hk, decide_true, Bool.and_self, ↓reduceIte]

/-- Without an idle engine or a due flock none starts. -/
theorem exec_sweepStart_of_none {i : Nat} {s : State} (h : (s.stack i).idleEngine = none ∨ (s.stack i).nextDue = none) (key : Nat) :
    exec (.sweepStart i key) s = .next s := by
  rcases h with h | h
  · simp only [exec, execSweepStart, h]
  · cases he : (s.stack i).idleEngine with
    | none => simp only [exec, execSweepStart, he]
    | some e => simp only [exec, execSweepStart, he, h]

/-- Settles O19: the owner's commands, each by its branches. -/
theorem sweepsOnTheirOwner : Obligations.sweepsOnTheirOwner := by
  unfold Obligations.sweepsOnTheirOwner
  intro b i key e s
  refine ⟨fun hup hb => ?_, fun hup => ⟨?_, fun f he hf hk => exec_sweepStart hup he hf hk, fun h => exec_sweepStart_of_none h key, fun f hf => ?_⟩⟩
  · have hexec := exec_sweepRequest hup hb
    refine ⟨fun hkill => by rw [hexec]; simp only [hkill, ↓reduceIte], fun hkill => ?_⟩
    simp only [hkill, Bool.false_eq_true, ↓reduceIte] at hexec
    refine ⟨fun h0 => ?_, fun hfloor => ?_, fun hne hother => ?_⟩
    · rw [hexec, if_pos h0]
    · rw [hexec, if_neg (by rw [hfloor]; decide), if_pos hfloor, hfloor]
    · rw [hexec, if_neg hne, if_neg hother]
  · simp only [exec, execFlockDue, hup, ↓reduceIte]
    exact congrArg Host.Outcome.next (modStack_congr rfl)
  · simp only [exec, execSweepResolve, hf, hup, ↓reduceIte]

end Sys2Proof
end

section
/-! PROOFS. Publish jobs and the switch (R80 to R84, R87, R88, R270). -/

namespace Sys2Proof

open Machine Safety

/-! ### The checks of a switch in their order (R82) -/

section

variable {d : Words} {s : State}

theorem runSwitch_of_prior (d : Words) (s : State) : runSwitch true d s = (0x319, s) := rfl

/-- A target outside what a switch may write (R261). -/
theorem runSwitch_of_outside (h : localOk (jbDst d) = false ∨ s.inIntake (jbDst d) = true) : runSwitch false d s = (0x315, s) := by
  simp only [runSwitch, Bool.false_eq_true, ↓reduceIte]
  exact if_pos (by simpa using h)

variable (hlocal : localOk (jbDst d) = true) (hintake : s.inIntake (jbDst d) = false)

include hlocal hintake

theorem runSwitch_of_away (h : switchAway d s = true) : runSwitch false d s = (0x321, s) := by
  simp [runSwitch, hlocal, hintake, h]

theorem runSwitch_of_no_pointer (haway : switchAway d s = false) (h : s.pointerAt (jbDst d) = false ∨ scopeMatches d s = false) :
    runSwitch false d s = (0x315, s) := by
  rcases h with h | h <;> simp [runSwitch, hlocal, hintake, haway, h]

/-- The checks that read the target: its bytes, the expected version, the new version, its epoch and the pen's readers (R82, R84). -/
theorem runSwitch_of_target (haway : switchAway d s = false) (hpointer : s.pointerAt (jbDst d) = true) (hscope : scopeMatches d s = true) :
    runSwitch false d s = (
      let n := if jbWide d then 64 else 8
      let r := peek s (jbDst d) n
      let u := touch [(jbDst d, n)] s
      if r.poison = true ∨ r.code ≠ 0 then (0x311, u)
      else if leNat (r.data.take 8) ≠ jbExpect d then
        (0x316, { u with publish := { u.publish with switchConflicts := u.publish.switchConflicts + 1 } })
      else if newOk d u = false then (0x315, u)
      else if epochLater d u = false then (0x317, u)
      else if jbScope d = 0 ∧ (u.penHeld (jbDst d)).getD (2 ^ 32) < jbPenFloor d then (0x314, u)
      else if jbScope d = 0 then (0, sweepRetiring 0 (jbDst d)
        (rewriteIn s (jbDst d) (leBytes 8 (jbNew d) ++ leBytes 4 (jbPenFloor d) ++ leBytes 4 (jbEpoch d)) u))
      else (0, rewriteIn s (jbDst d) (leBytes 8 (jbNew d)) u)) := by
  simp only [runSwitch, hlocal, hintake, haway, hpointer, hscope, Bool.false_eq_true, Bool.not_true, or_self, ↓reduceIte,
    Bool.not_eq_true']

end

/-- A result with a code other than 0 is no success. -/
theorem false_of_code {c : Word16} {s : State} (h : c ≠ 0) (hc : (c, s).1 = 0) : False := h hc

/-- A switch whose code is 0 has passed every check (R82). -/
theorem runSwitch_code_zero {prior : Bool} {d : Words} {s : State} (hc : (runSwitch prior d s).1 = 0) :
    let n := if jbWide d then 64 else 8
    let u := touch [(jbDst d, n)] s
    prior = false ∧ s.pointerAt (jbDst d) = true ∧ leNat ((peek s (jbDst d) n).data.take 8) = jbExpect d ∧ newOk d u = true ∧
      epochLater d u = true := by
  cases prior with
  | true => exact (false_of_code (by decide) hc).elim
  | false =>
    by_cases hout : localOk (jbDst d) = false ∨ s.inIntake (jbDst d) = true
    · rw [runSwitch_of_outside hout] at hc
      exact (false_of_code (by decide) hc).elim
    simp only [not_or, Bool.not_eq_false, Bool.not_eq_true] at hout
    obtain ⟨hlocal, hintake⟩ := hout
    by_cases haway : switchAway d s = true
    · rw [runSwitch_of_away hlocal hintake haway] at hc
      exact (false_of_code (by decide) hc).elim
    rw [Bool.not_eq_true] at haway
    by_cases hno : s.pointerAt (jbDst d) = false ∨ scopeMatches d s = false
    · rw [runSwitch_of_no_pointer hlocal hintake haway hno] at hc
      exact (false_of_code (by decide) hc).elim
    simp only [not_or, Bool.not_eq_false] at hno
    obtain ⟨hpointer, hscope⟩ := hno
    rw [runSwitch_of_target hlocal hintake haway hpointer hscope] at hc
    dsimp only at hc ⊢
    generalize (if jbWide d then 64 else 8) = n at hc ⊢
    split at hc
    · exact (false_of_code (by decide) hc).elim
    split at hc
    · exact (false_of_code (by decide) hc).elim
    next hheld =>
    split at hc
    · exact (false_of_code (by decide) hc).elim
    next hnew =>
    split at hc
    · exact (false_of_code (by decide) hc).elim
    next hlater => exact ⟨rfl, hpointer, not_not.1 hheld, Bool.eq_true_of_not_eq_false hnew, Bool.eq_true_of_not_eq_false hlater⟩

/-! ### Jobs (R81 to R88) -/

/-- How a command of one descriptor ends its job. -/
def endedJob (n : Nat) (r : Word16 × State) : State := if r.1 ≠ 0 then failJob n r.1 r.2 else endJob n r.2

section

variable {n : Nat} {s : State}

/-- A turn of a PAGES job (R81): a destination that is no place for it ends the work, else its pages go out in turn. -/
theorem exec_pages (hup : s.hubUp = true) (hrun : s.jobMayRun n = true) (hk : (s.job n).kind = jkPages) (hj : twf {} s.jobs = true)
    (src : List SrcPage) :
    exec (.pages n src) s = .next (
      let u := s.modJob n fun j => { j with state := .running }
      if pagesDst (s.job n).cur u = false then stopWork n 0x315 u
      else settlePages n (src.foldl (fun s p =>
        if (s.job n).state = .running ∧ (s.job n).cur ≠ [] ∧ (s.job n).issued < jbCount (s.job n).cur ∧ s.jobMissing n = false then
          withSnoops [(jbSrc (s.job n).cur + 4096 * (s.job n).issued, 4096)] (pageOf n (s.job n).issued p) s
        else s) u)) := by
  have hcur : ((s.modJob n fun j => { j with state := .running }).job n).cur = (s.job n).cur := by rw [job_modJob _ _ _ hj]
  simp only [exec, execPages, hup, hrun, hk, decide_true, Bool.and_self, ↓reduceIte, runPages, startJob, hcur, Bool.not_eq_true']

theorem exec_switchJob (hup : s.hubUp = true) (hrun : s.jobMayRun n = true) (hk : (s.job n).kind = jkSwitch) :
    exec (.switchJob n) s = .next (if s.copying (pageNo (jbDst (s.job n).desc)) = false
      then endedJob n (runSwitch (s.priorFailed n) (s.job n).desc s) else s) := by
  simp only [exec, execSwitchJob, hup, hrun, hk, decide_true, Bool.and_self, Bool.true_and, Bool.not_eq_true', endedJob]

theorem exec_freeJob (hup : s.hubUp = true) (hrun : s.jobMayRun n = true) (hk : (s.job n).kind = jkFree) :
    exec (.freeJob n) s = .next (endedJob n ((runFree (s.job n).desc s).1,
      (runFree (s.job n).desc s).2.2.modJob n fun j => { j with progress := BitVec.ofNat 32 (runFree (s.job n).desc s).2.1 })) := by
  simp only [exec, execFreeJob, hup, hrun, hk, decide_true, Bool.and_self, ↓reduceIte, endedJob]

/-- Without a turn a job's command waits. -/
theorem exec_job_of_no_turn (hrun : s.jobMayRun n = false) (src : List SrcPage) :
    exec (.pages n src) s = .next s ∧ exec (.switchJob n) s = .next s ∧ exec (.freeJob n) s = .next s := by
  simp only [exec, execPages, execSwitchJob, execFreeJob, hrun, Bool.and_false, Bool.false_and, Bool.false_eq_true, ↓reduceIte, and_self]

/-- A LOAD whose array's read failed (R84, R88). -/
theorem exec_loadJob_none (hup : s.hubUp = true) (hpath : s.hostPath = true) (hheld : (s.job n).held = true) (hk : (s.job n).kind = jkLoad)
    (writable : Bool) :
    exec (.loadJob n none writable) s = .next (if (s.job n).read && !s.jobMayRun n then s else failJob n 0x311 s) :=
  congrArg Host.Outcome.next (if_pos (by simp [hup, hpath, hheld, hk]))

/-- A LOAD whose read delivers operations: the first read, or the next turn (R84, R88). -/
theorem exec_loadJob_some (hup : s.hubUp = true) (hpath : s.hostPath = true) (hheld : (s.job n).held = true) (hk : (s.job n).kind = jkLoad)
    (os : List LoadOp) (writable : Bool) :
    exec (.loadJob n (some os) writable) s = .next (
      if !arrayReadable (s.job n).desc then failJob n 0x311 s
      else if !(s.job n).read then withSnoops (loadRange (s.job n) 0) (loadFirst n (os.map LoadOp.desc)) s
      else if s.jobMayRun n then withSnoops (loadRange (s.job n) os.length) (loadRuns n os writable) s
      else s) :=
  congrArg Host.Outcome.next (if_pos (by simp [hup, hpath, hheld, hk]))

/-- The first read records the operations that it found. -/
theorem loadFirst_of_read {given ds : List Words} {u : State} (h : readOps (s.job n).desc 0 (jbCount (s.job n).desc) given s = (0, ds, u)) :
    loadFirst n given s = u.modJob n fun j => { j with read := true, switches := switchesOf ds } := by
  simp only [loadFirst, h, ne_eq, not_true_eq_false, ↓reduceIte]

end

/-- Settles O22: the job commands by their turns, and the switch by its checks in their order. -/
theorem publishJobs : Obligations.publishJobs := by
  unfold Obligations.publishJobs
  refine ⟨fun via n desc src ops writable s => ⟨fun hc hf => ?_, fun hc hf => ?_, fun hup hrun => ⟨fun hk hj => ?_, fun hk => ?_, fun hk => ?_⟩,
      fun hup hpath hheld hk => ⟨fun hturn => ⟨?_, fun harr => ?_⟩, fun harr hturn hready => ?_, fun hread hrun harr => ?_⟩,
      fun given ds u h => loadFirst_of_read h, fun _ hrun => exec_job_of_no_turn hrun src⟩,
    fun prior d s => ⟨?_, ?_, ?_, runSwitch_code_zero⟩⟩
  · simp only [exec, execPublishJob, hc, hf, answer_eq, Bool.not_true, Bool.not_false, Bool.false_eq_true, ↓reduceIte]
  · simp only [exec, execPublishJob, hc, hf, publishOver, answer_eq, Bool.not_true, Bool.false_eq_true, ↓reduceIte]
  · rw [exec_pages hup hrun hk hj]
    exact ⟨fun h => congrArg Host.Outcome.next (if_pos h), fun h => congrArg Host.Outcome.next (if_neg (ne_false_of_eq_true h))⟩
  · rw [exec_switchJob hup hrun hk]
    exact ⟨fun h => congrArg Host.Outcome.next (if_pos h), fun h => congrArg Host.Outcome.next (if_neg (ne_false_of_eq_true h))⟩
  · exact exec_freeJob hup hrun hk
  · rw [exec_loadJob_none hup hpath hheld hk]
    rcases hturn with h | h <;> simp [h]
  · rw [exec_loadJob_some hup hpath hheld hk, harr]
    rfl
  · rw [exec_loadJob_some hup hpath hheld hk, harr]
    cases hread : (s.job n).read with
    | false =>
      simp only [hread] at hready
      exact congrArg Host.Outcome.next (withSnoops_ready _ _ s hready)
    | true =>
      simp only [hread] at hready
      rw [show s.jobMayRun n = true from hturn.resolve_left (ne_false_of_eq_true hread)]
      exact congrArg Host.Outcome.next (withSnoops_ready _ _ s hready)
  · rw [exec_loadJob_some hup hpath hheld hk, harr, hread, hrun]
    rfl
  · rintro rfl
    exact runSwitch_of_prior d s
  · rintro rfl hout
    exact runSwitch_of_outside hout
  · rintro rfl hlocal hintake
    refine ⟨runSwitch_of_away hlocal hintake, runSwitch_of_no_pointer hlocal hintake, fun haway hpointer hscope => ?_⟩
    rw [runSwitch_of_target hlocal hintake haway hpointer hscope]
    dsimp only
    generalize (if jbWide d then 64 else 8) = n
    refine ⟨fun hbad => if_pos hbad, fun hp hcode hheld => ?_, fun hp hcode hheld hnew => ?_, fun hp hcode hheld hnew hlater => ?_,
      fun hp hcode hheld hscope0 hnew hlater => ?_, fun hp hcode hheld hscope0 hnew hlater => ⟨fun hfloor => ?_, fun hfloor => ?_⟩⟩
    all_goals rw [if_neg (by simp [hp, hcode])]
    · rw [if_pos hheld]
    · rw [if_neg (not_not.2 hheld), if_pos hnew]
    · rw [if_neg (not_not.2 hheld), if_neg (ne_false_of_eq_true hnew), if_pos hlater]
    · rw [if_neg (not_not.2 hheld), if_neg (ne_false_of_eq_true hnew), if_neg (ne_false_of_eq_true hlater), if_neg fun h => hscope0 h.1,
        if_neg hscope0]
    · rw [if_neg (not_not.2 hheld), if_neg (ne_false_of_eq_true hnew), if_neg (ne_false_of_eq_true hlater), if_pos ⟨hscope0, hfloor⟩]
    · rw [if_neg (not_not.2 hheld), if_neg (ne_false_of_eq_true hnew), if_neg (ne_false_of_eq_true hlater),
        if_neg fun h => Nat.not_lt.2 hfloor h.2, if_pos hscope0]

end Sys2Proof
end

section
/-! PROOFS. The cores: starts, ends, dispatch, commit, landings (R201 to R245). -/

namespace Sys2Proof

open Machine Safety

/-- Settles O24: each start is the shared start of its kind, whose cases `start_eq` gives. -/
theorem configurationsStart : Obligations.configurationsStart := by
  intro k s r hr
  unfold startRows at hr
  simp only [List.mem_cons, List.not_mem_nil, or_false] at hr
  rcases hr with rfl | rfl | rfl | rfl | rfl
  all_goals exact start_eq _ k _ _ s rfl

/-! ### What a start takes (R202 to R207, R222, R235) -/

section

variable {k t : Nat} {w : Words} {fed : Bool} {s : State}

theorem runMove_eq {q : CoreCmd} {rest : List CoreCmd} (hq : (s.core k).cmds = q :: rest)
    (hup : (readForStart k ((s.core k).place q.cmd.region 0) w s).coreUp k = true) :
    let ph := (s.core k).place q.cmd.region 0
    let u := readForStart k ph w s
    let c := u.core k
    let src := c.read (opdRow c.base (word w 11) 0) (mvBytes w)
    let marked := (regsRead ph w).any fun r => tget false c.regPoison r
    (∀ slot row, c.emptyRead w 1 = some (slot, row) → runMove k w t fed s = freezeOn k slot row (c.nextIndex fed) u) ∧
    (c.emptyRead w 1 = none → marked = true → runMove k w t fed s = endCommand k 0x301 u) ∧
    (c.emptyRead w 1 = none → marked = false → mvKind w = 4 →
      let mv := newMove c k c.nextMove q.cmd.handle w [⟨0, mvBytes w, 0, true, none, some src⟩]
      runMove k w t fed s = countStart k 2 w (c.feedWait fed t) ((takeReads k (readsOf w 1) u).modCore k fun c =>
        let c := c.addRun w fed 1 t [] c.acc (0, false)
        ({ c with nextMove := c.nextMove + 1, moves := if mv.slots = 0 then c.moves else c.moves ++ [mv] } : Core).advance w fed t)) := by
  refine ⟨fun slot row he => ?_, fun he hm => ?_, fun he hm hk => ?_⟩
  · simp only [runMove, hq, hup, he, Bool.not_true, Bool.false_eq_true, ↓reduceIte]
  · simp only [runMove, hq, hup, he, hm, Bool.not_true, Bool.false_eq_true, true_or, ↓reduceIte]
  · simp only [runMove, hq, hup, he, hm, hk, Bool.not_true, Bool.false_eq_true, ne_eq, not_true_eq_false, false_and, or_self, ↓reduceIte]

end

/-- Settles O25. -/
theorem enginesTake : Obligations.enginesTake := by
  intro k w t fed s
  refine ⟨fun hup => ⟨fun hr => ?_, fun hr slot row he => ?_, fun hr he => ?_⟩, fun q rest hq hup => runMove_eq hq hup,
    fun hup => ⟨fun hm => ?_, fun hm => ?_⟩⟩
  · simp only [runEngine, hup, hr, Bool.not_true, Bool.false_eq_true, ↓reduceIte]
  · simp only [runEngine, hup, Nat.not_lt.2 hr, he, Bool.not_true, Bool.false_eq_true, ↓reduceIte]
  · simp only [runEngine, hup, Nat.not_lt.2 hr, he, Bool.not_true, Bool.false_eq_true, ↓reduceIte]
  · simp only [runMacro, hup, hm, Bool.not_true, Bool.false_eq_true, ↓reduceIte]
  · simp only [runMacro, hup, Nat.not_lt.2 hm, Bool.not_true, Bool.false_eq_true, ↓reduceIte]

/-- Settles O26. -/
theorem configurationsEnd : Obligations.configurationsEnd := by
  intro k s hup hf
  refine ⟨fun f h => ?_, fun e r h => ⟨fun hp => ?_, fun hp => ?_⟩, fun reg p h => ⟨fun hp => ?_, fun hp hs => ?_, fun hp hs => ?_⟩⟩
  · simp only [exec, execFenceResolve, h, hup, hf, Option.isNone_none, Bool.true_and]
  · simp only [exec, execConfigDone, h, hup, hf, hp, Option.isNone_none, Bool.and_false, Bool.false_eq_true, ↓reduceIte]
  · simp only [exec, execConfigDone, h, hup, hf, hp, Option.isNone_none, Bool.and_self, ↓reduceIte]
  · simp only [exec, execRegisterLand, h, hup, hf, hp, Option.isNone_none, Bool.and_false, Bool.false_eq_true, ↓reduceIte]
  · simp only [exec, execRegisterLand, h, hup, hf, hp, hs.1, hs.2, Option.isNone_none, Bool.and_self, decide_true, ↓reduceIte]
  · have hn : ¬ ((decide (p.land < (s.core k).now) && (s.core k).slip) = true) := by
      rwa [Bool.and_eq_true, decide_eq_true_eq]
    simp only [exec, execRegisterLand, h, hup, hf, hp, if_neg hn, Option.isNone_none, Bool.and_self, ↓reduceIte]
    rfl

/-! ### Commands on cores -/

section

variable {k : Nat} {s : State}

/-- A command all of whose conditions hold commits, and its commit is counted (R209, R450). -/
theorem exec_commandCommit {q : CoreCmd} {rest : List CoreCmd} (hq : (s.core k).cmds = q :: rest) (hup : s.coreUp k = true)
    (hm : (s.core k).mayCommit = true) :
    ∃ t, exec (.commandCommit k) s = .next t ∧ Noted ((recordSlowdown (chargedTo q.cmd) (chargeClass q.cmd)
        (s.time - q.life.placedAt).toNat (q.solo / 2) (sampleEnd k (some (s.timeAt k)) s)).modCore k fun c =>
      let outs := ((List.range q.slots).map (q.cmd.slotBase + ·)).filter fun i => (c.slotW i).pend
      let c := c.modSlots outs fun w => { w with latch := true, pend := false }
      let c := (c.modSlots q.inSlots fun w => { w with latch := false }).own q.cmd.region q.span (· - 1)
      let c : Core := { c with cmds := c.cmds.drop 1 }
      c.renumber.startHead) t := by
  refine ⟨_, ?_, noted_countEv k 1 9 1 { cmd := some q.cmd.cmdClass, tenant := some q.cmd.tenant } _⟩
  simp only [exec, execCommandCommit, hq, hup, hm, Bool.and_self, ↓reduceIte]

variable {id : Nat} {m : MoveRun} (hm : (s.core k).moves.find? (fun m => m.id = id) = some m)

include hm

/-- A landing that is not due: the move waits, has no data yet, or its landing buffer is full (R236). -/
theorem moveLanding_held (h : m.waiting = true ∨ (∃ p ∈ m.pieces, p.got = none) ∨ 64 ≤ s.buffered m.core) :
    exec (.moveLanding k id) s = .next s := by
  have held : (!s.coreUp k || !s.coreUp m.core || m.waiting || m.pieces.any (·.got.isNone) || decide (64 ≤ s.buffered m.core)) = true := by
    rcases h with h | ⟨p, hp, hg⟩ | h
    · simp [h]
    · simp only [Bool.or_eq_true, List.any_eq_true]
      exact Or.inl (Or.inr ⟨p, hp, by rw [hg]; rfl⟩)
    · simp [h]
  simp only [exec, execMoveLanding, hm]
  exact congrArg Host.Outcome.next (if_pos held)

variable (hup : s.coreUp k = true) (hdst : s.coreUp m.core = true)

include hup hdst

/-- A landing that is due reads its slot's control word and takes `landNext` (R234). -/
theorem moveLanding_due (hw : m.waiting = false) (hg : ∀ p ∈ m.pieces, p.got ≠ none) (hb : s.buffered m.core < 64) {slot : Nat}
    (hs : landingSlot s m = some slot) (hu : (readState m.core clsControl (slotAddr slot) 4 s).coreUp m.core = true) :
    exec (.moveLanding k id) s = .next (landNext k slot m (readState m.core clsControl (slotAddr slot) 4 s)) := by
  have due : ¬ (!s.coreUp k || !s.coreUp m.core || m.waiting || m.pieces.any (·.got.isNone) || decide (64 ≤ s.buffered m.core)) = true := by
    have := Nat.not_le.2 hb
    have hp : m.pieces.any (·.got.isNone) = false := by
      rw [List.any_eq_false]
      exact fun p h => by simpa using hg p h
    simp [hup, hdst, hw, hp, this]
  simp only [exec, execMoveLanding, hm]
  refine congrArg Host.Outcome.next ((if_neg due).trans ?_)
  simp only [hs, hu, ↓reduceIte]

end

/-- A whole slot that lands is counted (R234, R450). -/
theorem landNext_open {k slot : Nat} {m : MoveRun} {u : State} (h : ((u.core m.core).slotW slot).open_ = true) :
    let data := ((m.pieces.flatMap fun p => p.got.getD []).drop (2048 * m.landed)).take 2048
    ∃ t, Noted (bankCounts m.core [(2048 * slot, 2048)] (landSlot m.core slot m.out data u)) t ∧
      landNext k slot m u = t.modCore k fun c =>
        if m.landed + 1 = m.slots then { c with moves := c.moves.filter fun x => x.id ≠ m.id }
        else c.setMove { m with landed := m.landed + 1 } := by
  refine ⟨_, noted_countEv (idCluster (clusterOf k)) 2 2 2048 { tenant := none } _, ?_⟩
  simp only [landNext, h, Bool.not_true, Bool.false_eq_true, ↓reduceIte]

/-- A slot that is not open keeps the move waiting (R236). -/
theorem landNext_closed {k slot : Nat} {m : MoveRun} {u : State} (h : ((u.core m.core).slotW slot).open_ = false) :
    landNext k slot m u = u.modCore k (·.setMove { m with waiting := true, since := u.timeAt m.core }) := by
  simp only [landNext, h, Bool.not_false, ↓reduceIte]

/-- Settles O27. -/
theorem commandsOnCores : Obligations.commandsOnCores := by
  intro k s
  refine ⟨fun cmd ha hs => ?_, fun cmd hs => ?_, fun q rest hq hup => ⟨fun hm => ?_, fun hm => exec_commandCommit hq hup hm⟩,
    fun pos ha => ?_, fun id m hm hup hdst => ⟨moveLanding_held hm, fun hw hg hb slot hs hu => ⟨fun ho => ?_, fun ho => ?_⟩⟩,
    fun slot hup => ⟨fun ho => ?_, fun ho => ?_⟩, fun hsv => ⟨fun hp hd => ?_, fun hp hd => ?_, fun hp => ⟨?_, ?_⟩⟩,
    fun first n hup hn => ⟨fun h => ?_, fun h => ?_⟩⟩
  · simp only [exec, execDispatch, ha, hs, Bool.and_self, ↓reduceIte]
  · simp only [exec, execDispatch, hs, Bool.and_false, Bool.false_eq_true, ↓reduceIte]
  · simp only [exec, execCommandCommit, hq, hm, Bool.and_false, Bool.false_eq_true, ↓reduceIte]
  · simp only [exec, execCommandKill, ha, ↓reduceIte]
  · rw [moveLanding_due hm hup hdst hw hg hb hs hu, landNext_closed ho]
  · obtain ⟨t, ht, e⟩ := landNext_open (k := k) ho
    obtain rfl : m.id = id := by simpa using List.find?_some hm
    exact ⟨t, ht, by rw [moveLanding_due hm hup hdst hw hg hb hs hu, e]⟩
  · simp only [exec, execLandingWaitEnd, ho, Bool.and_false, Bool.false_eq_true, ↓reduceIte]
  · simp only [exec, execLandingWaitEnd, ho, hup, Bool.and_self, ↓reduceIte]
  · simp only [exec, execScrub, hsv, hp, hd, ne_eq, not_false_eq_true, decide_true, Bool.and_self, ↓reduceIte]
  · simp only [exec, execScrubForce, hsv, hp, hd, ne_eq, not_false_eq_true, decide_true, Bool.and_self, ↓reduceIte]
  · simp [exec, execScrub, hp]
  · simp [exec, execScrubForce, hp]
  · have hall : (s.coreUp k && decide (first + n ≤ 3072) && s.clearOfModels k first n &&
        (s.core k).cmds.all fun q => first + n ≤ q.cmd.slotBase || q.cmd.slotBase + q.slots ≤ first) = true := by
      simpa [hup, hn, h.1] using h.2
    exact congrArg Host.Outcome.next (if_pos hall)
  · have hall : ¬ (s.coreUp k && decide (first + n ≤ 3072) && s.clearOfModels k first n &&
        (s.core k).cmds.all fun q => first + n ≤ q.cmd.slotBase || q.cmd.slotBase + q.slots ≤ first) = true := by
      intro c
      simp only [Bool.and_eq_true, List.all_eq_true, Bool.or_eq_true, decide_eq_true_eq] at c
      exact h ⟨c.1.2, c.2⟩
    exact congrArg Host.Outcome.next (if_neg hall)

end Sys2Proof
end

section
/-! PROOFS. Steps, roles, and the starts of models and vocabularies (R144, R275, R283, R284, R287, R485). -/

namespace Sys2Proof

open Machine Safety

theorem modVocab_modVocab {s : State} (h : twf {} s.vocabs = true) (n : Nat) (f g : Vocab → Vocab) :
    (s.modVocab n f).modVocab n g = s.modVocab n fun x => g (f x) := by
  simp only [State.modVocab]
  rw [tmod_tmod h]

theorem twf_vocabs_checkReads {s : State} (h : twf {} s.vocabs = true) (l : List (Nat × Nat)) : twf {} (checkReads l s).vocabs = true :=
  (congrArg (twf {}) (touch_vocabs _ s)).trans h

/-- A vocabulary's change to Off after a change of its record: its text caches drop it (R144). -/
theorem noted_vocabOff {s : State} (h : twf {} s.vocabs = true) (n : Nat) (f : Vocab → Vocab) :
    Noted { s.modVocab n (fun v => { f v with fn := .off }) with
      texts := tmap {} (fun _ t => { t with cache := t.cache.filter fun e => e.1 ≠ n }) s.texts } (setVocabFn n .off (s.modVocab n f)) := by
  have k := noted_setVocabFn n .off (s.modVocab n f)
  rwa [if_pos rfl, modVocab_modVocab h] at k

/-- A vocabulary's change to Ready after a change of its record. -/
theorem noted_vocabReady {s : State} (h : twf {} s.vocabs = true) (n : Nat) (f : Vocab → Vocab) :
    Noted (s.modVocab n fun v => { f v with fn := .ready }) (setVocabFn n .ready (s.modVocab n f)) := by
  have k := noted_setVocabFn n .ready (s.modVocab n f)
  rwa [if_neg (by decide), modVocab_modVocab h] at k

/-- The controller's move over the queued work w (R284). -/
theorem controlRoles_eq (w : Nat × Nat) (u : State) :
    let e := (List.range 16).filter fun c => (u.cluster c).pin = 0
    let g := (e.filter fun c => (u.cluster c).aim = 2).length
    let v := u.serving
    let want := max v.genMin (min v.genMax (roundTo (e.length * w.2) (w.1 + w.2) v.ratioUnit (bit u.fresh.1 0)))
    let diff := if g ≤ want then want - g else g - want
    let new := if g < want then g + v.ratioUnit else g - v.ratioUnit
    (w.1 + w.2 = 0 ∨ diff < v.ratioHyst → controlRoles w.1 w.2 u = u.fresh.2) ∧
    (w.1 + w.2 ≠ 0 → v.ratioHyst ≤ diff →
      controlRoles w.1 w.2 u = e.zipIdx.foldl (fun s p => changeRole p.1 (if e.length ≤ p.2 + new then 2 else 1) s) u.fresh.2) :=
  ⟨fun h => if_pos h, fun h hd => if_neg (fun c => c.elim h (Nat.not_lt.2 hd))⟩

/-- What the end of a model slot's start does with its plan (R275). -/
theorem exec_modelStartEnd {s : State} (hup : s.hubUp = true) {n : Nat} (hf : (s.model n).fn = .starting) (ha : (s.model n).abandon = false) :
    let plan := if (s.model n).programs = [] then startPlan n s else (0, s)
    exec (.modelStartEnd n) s = .next (
      if plan.1 ≠ 0 then startFails n plan.1 plan.2
      else if (plan.2.model n).programs = [] then plan.2
      else if (parkAll n true plan.2).owned n then parkAll n true plan.2 else startLoad n (parkAll n true plan.2)) := by
  simp only [exec, execModelStartEnd, hup, hf, ha, Bool.not_true, Bool.false_eq_true, ne_eq, not_true_eq_false, or_self, ↓reduceIte]

/-- Settles O28. -/
theorem modelsAndVocabularies : Obligations.modelsAndVocabularies := by
  intro m inst n s hup hw
  refine ⟨fun hi => ⟨fun hb => ?_, fun hb => ?_⟩, fun hi => ⟨?_, ?_⟩, ⟨fun hd hn => ?_, fun hd hz hh => ?_, fun hd => ?_⟩,
    fun hf => ⟨fun ha => ?_, fun ha hp => ?_, fun ha hp hg => ?_, fun ha hp hg => ?_⟩,
    fun hf => ⟨fun ha => ?_, fun ha hc => ?_, fun ha hc => ?_⟩⟩
  · simp only [exec, execPrefillStep, hup, hi, hb, ne_eq, not_false_eq_true, decide_true, Bool.and_self, ↓reduceIte]
  · simp only [exec, execGenerationStep, hup, hi, hb, ne_eq, not_false_eq_true, decide_true, Bool.and_self, ↓reduceIte]
  · simp only [exec, execPrefillStep, hi, Bool.and_false, Bool.false_and, Bool.false_eq_true, ↓reduceIte]
  · simp only [exec, execGenerationStep, hi, Bool.and_false, Bool.false_and, Bool.false_eq_true, ↓reduceIte]
  · simp only [exec, execRatioControl, hup, hd, decide_true, Bool.and_self, ↓reduceIte]
    rw [(controlRoles_eq _ _).1 hn]
  · simp only [exec, execRatioControl, hup, hd, decide_true, Bool.and_self, ↓reduceIte]
    rw [(controlRoles_eq _ _).2 hz hh]
  · simp only [exec, execRatioControl, hd, decide_false, Bool.and_false, Bool.false_eq_true, ↓reduceIte]
  · simp only [exec, execModelStartEnd, hup, hf, ha, Bool.not_true, Bool.false_eq_true, ne_eq, not_true_eq_false, or_self, ↓reduceIte]
  · exact (exec_modelStartEnd hup hf ha).trans (congrArg _ (if_pos hp))
  · exact (exec_modelStartEnd hup hf ha).trans (congrArg _ ((if_neg (not_not.2 hp)).trans (if_pos hg)))
  · exact (exec_modelStartEnd hup hf ha).trans (congrArg _ ((if_neg (not_not.2 hp)).trans (if_neg hg)))
  · refine ⟨_, ?_, noted_vocabOff hw n fun v => { v with abandon := false }⟩
    simp only [exec, execVocabReady, hup, hf, ha, Bool.not_true, Bool.false_eq_true, ne_eq, not_true_eq_false, or_self, ↓reduceIte]
  · refine ⟨_, ?_, noted_vocabOff (twf_vocabs_checkReads hw _) n (fun v => { v with code := vocCheck s (s.vocab n).desc.toNat })⟩
    simp only [exec, execVocabReady, hup, hf, ha, hc, Bool.not_true, Bool.false_eq_true, ne_eq, not_true_eq_false, or_self, ↓reduceIte]
  · refine ⟨_, ?_, noted_vocabReady (twf_vocabs_checkReads hw _) n fun v => { v with code := 0, head := recW s v.desc.toNat 8 }⟩
    simp only [exec, execVocabReady, hup, hf, ha, hc, Bool.not_true, Bool.false_eq_true, ne_eq, not_true_eq_false, or_self, ↓reduceIte]


end Sys2Proof
end

section
/-! PROOFS. The HBM tier: hinge copies, stacks and the intake region (R245, R261, R264 to R269, R391, R392). -/

namespace Sys2Proof

open Machine Safety

/-! ### Hinge copies (R267) -/

theorem serveHeld_none {s : State} (h : s.hbm.held = []) : serveHeld s = s := by
  have e : modHbm (fun x => { x with held := [] }) s = s := by
    unfold modHbm
    rw [← h]
  unfold serveHeld
  rw [h, e]
  rfl

/-- An entry that becomes active while no write waits for its copy ends the install (R267, R270). -/
theorem noted_hingeActive {s : State} (m j : Nat) (bad : Bool) (h : s.hbm.held = []) :
    let n := notable (idMemory m) 9 j (s.modStack m fun x => { x with hinge := tmod {} x.hinge j fun e => { e with state := 2, poison := bad } })
    Noted { n with hbm := { n.hbm with hingeResult := 0, hingeTarget := none } } (hingeActive m j bad s) := by
  have k := noted_noteLong 0x4405 2 0xFFFF 0 (modHbm (fun h => { h with hingeResult := 0, hingeTarget := none })
    (notable (idMemory m) 9 j (s.modStack m fun x => { x with hinge := tmod {} x.hinge j fun e => { e with state := 2, poison := bad } })))
  have held : (hingeDone 0 (notable (idMemory m) 9 j (s.modStack m fun t =>
      { t with hinge := tmod {} t.hinge j fun e => { e with state := 2, poison := bad } }))).hbm.held = [] := by
    obtain ⟨x, e⟩ := notable_history (idMemory m) 9 j (s.modStack m fun t =>
      { t with hinge := tmod {} t.hinge j fun e => { e with state := 2, poison := bad } })
    unfold hingeDone
    obtain ⟨_, _, _, _, _, _, e'⟩ := k
    rw [e', e]
    exact h
  unfold hingeActive
  rw [serveHeld_none held]
  exact k

theorem exec_hingeCopyEnd {s : State} (hup : s.hubUp = true) : exec .hingeCopyEnd s = .next (endHingeCopy s) :=
  congrArg Host.Outcome.next (if_pos hup)

/-! ### The life of a stack (R264, R268, R269) -/

section

variable {n : Nat} {step : Word32} {s : State} (hn : n < 12) (hs : s.startable (idMemory n) = true) (hf : (s.stack n).fn = .starting)

include hn hs hf

theorem exec_stackReady (trained : Bool) : exec (.stackReady n trained step) s = .next (
    if (s.stack n).abandon then backInService (idMemory n) (stackOff n s)
    else if trained then stackUpNow n s
    else raiseFault (idMemory n) 0x833 step 0 s) := by
  simp only [exec, execStackReady, hn, hs, hf, decide_true, Bool.and_self, ↓reduceIte]

omit hn hf in
theorem alive_of_startable : s.alive = true := by
  simp only [State.startable, Bool.and_eq_true] at hs
  exact hs.1

omit hn hs hf in
/-- A stack that was not off is Ready with its hinges as they were (R268). -/
theorem stackUpNow_of_fault (hw : twf {} s.stackT = true) (ho : (s.stack n).fromOff = false) :
    ∃ u, stackUpNow n s = backInService (idMemory n) u ∧
      Noted (s.modStack n fun t => { t with fromOff := false, fn := .ready, hinge := tmap {} (fun _ e => e) t.hinge }) u := by
  have same : (fun (_ : Nat) e => restoreHinge false e) = fun _ e => e := by
    funext _ e
    simp [restoreHinge]
  have k := noted_setStackFn n .ready (s.modStack n fun t =>
    { t with fromOff := false, hinge := tmap {} (fun _ e => restoreHinge false e) t.hinge })
  rw [modStack_modStack hw, same] at k
  refine ⟨_, ?_, k⟩
  simp only [stackUpNow, ho, same, Bool.false_eq_true, Bool.false_and, ↓reduceIte]

omit hn hs hf in
/-- A stack that starts from Off is erased, and its hinges in use are active (R246, R268). -/
theorem stackUpNow_of_off (ho : (s.stack n).fromOff = true) :
    let w := endCopyOff n (eraseStack n s)
    let w := if w.coreE.initMode = 1 then { w with coreE := { w.coreE with fillDone := w.time } } else w
    stackUpNow n s = backInService (idMemory n) (setStackFn n .ready (w.modStack n fun t => { t with
      fromOff := false, hinge := tmap {} (fun _ e => if e.valid then { e with state := 2, poison := false } else e) t.hinge })) := by
  simp only [stackUpNow, restoreHinge, ho, Bool.and_true, Bool.true_and, decide_eq_true_eq, ↓reduceIte]

end

/-- Settles O30. -/
theorem hingesAndStacks : Obligations.hingesAndStacks := by
  intro s
  refine ⟨fun hup m j ht => ⟨fun hw => ?_, fun hw hc => ?_, fun hw hc => ?_⟩, fun m j bad h => noted_hingeActive m j bad h,
    fun ht => ?_, fun n step hn hs hf hw => ⟨fun trained ha => ?_, fun ha ho => ?_, fun ha ho => ?_, fun ha hi => ?_⟩⟩
  · rw [exec_hingeCopyEnd hup]
    simp only [endHingeCopy, ht, hw, Bool.not_false, ↓reduceIte]
  · rw [exec_hingeCopyEnd hup]
    simp only [endHingeCopy, ht, hw, hc, Bool.not_true, Bool.false_eq_true, ne_eq, not_false_eq_true, ↓reduceIte]
  · rw [exec_hingeCopyEnd hup]
    simp only [endHingeCopy, ht, hw, hc, Bool.not_true, Bool.false_eq_true, ne_eq, not_true_eq_false, ↓reduceIte]
  · simp only [exec, execHingeCopyEnd, endHingeCopy, ht, ite_self]
  · obtain ⟨u, e, h⟩ := stackOff_eq n hw
    refine ⟨u, ?_, h⟩
    rw [exec_stackReady hn hs hf, if_pos ha, e]
  · obtain ⟨u, e, h⟩ := stackUpNow_of_fault hw ho
    refine ⟨u, ?_, h⟩
    rw [exec_stackReady hn hs hf, if_neg (ne_true_of_eq_false ha), if_pos rfl, e]
  · rw [exec_stackReady hn hs hf, if_neg (ne_true_of_eq_false ha), if_pos rfl, stackUpNow_of_off ho]
  · refine ⟨_, ?_, faulted_raiseFault (idMemory n) 0x833 step 0 s (alive_of_startable hs) ?_ hi⟩
    · rw [exec_stackReady hn hs hf, if_neg (ne_true_of_eq_false ha), if_neg Bool.false_ne_true]
    · interval_cases n <;> decide

/-! ### The intake region (R261, R391, R392) -/

section

variable {s : State}

theorem intakeState_two : s.intakeState = 2 ↔ s.host.committed = true ∧ (s.stack s.intakeStack).fn = .ready := by
  unfold State.intakeState
  split <;> simp_all

theorem fit_length (n : Nat) (bs : Bytes) : (fit n bs).length = n := by
  simp only [fit, zeros, List.length_take, List.length_append, List.length_replicate]
  omega

/-- A line written in the region changes its 64 bytes and no other (R391). -/
theorem writeIntake_eq {line : Nat} (hm : memWf s.mem = true) (ha : (s.hbm.intakeBase.toNat + 64 * line) % 64 = 0) (data : Bytes) :
    let a := s.hbm.intakeBase.toNat + 64 * line
    let t := writeIntake line data s
    Noted { s with
      mem := t.mem
      hbm := { s.hbm with intakeErrs := tset 0 s.hbm.intakeErrs (a / 64) 0 }
      host := { s.host with intakeLines := s.host.intakeLines + 1 } } t ∧
    ∀ b, memGet t.mem b = if s.cellAddr a ≤ b ∧ b < s.cellAddr a + 64 then (fit 64 data).getD (b - s.cellAddr a) 0 else memGet s.mem b := by
  intro a t
  have k : Noted _ t := noted_countEv (idMemory s.intakeStack) 3 2 64 { priv := 1, addr := some (a, 64) } { s with
      mem := s.stored a (fit 64 data)
      hbm := { s.hbm with intakeErrs := tset 0 s.hbm.intakeErrs (a / 64) 0 }
      host := { s.host with intakeLines := s.host.intakeLines + 1 } }
  have em : t.mem = s.stored a (fit 64 data) := by
    obtain ⟨_, _, _, _, _, _, e⟩ := k
    rw [e]
  refine ⟨by rwa [em], fun b => ?_⟩
  have ht := memGet_stored hm a (fit 64 data) (by rw [fit_length]; omega) b
  rw [em, ht, fit_length]

end

/-- A line of the region read with its stack serving (R391, R392). -/
def intakeRead (line : Nat) (s : State) : State :=
  let a := s.hbm.intakeBase.toNat + 64 * line
  (touch [(a, 64)] s).modHost fun h => { h with memRead := some ((peek s a 64).data, (peek s a 64).poison) }

theorem aside_intakeRead (line : Nat) (s : State) : Aside s (intakeRead line s) := by
  unfold intakeRead
  exact Aside.modHost (aside_touch _ s (Aside.refl s)) _

/-- Settles O31. -/
theorem intakeRegion : Obligations.intakeRegion := by
  intro s hup
  refine ⟨fun base bi => ?_, fun line hc hl => ⟨fun hf hm ha => ⟨fun data => ?_, ?_⟩, fun hf => ⟨fun data => ?_, ?_⟩⟩,
    fun page dirty => ⟨fun hp => ⟨_, ?_, rfl⟩, fun hp => ?_⟩⟩
  · split
    · next h =>
      refine ⟨_, ?_, noted_noteReady s _⟩
      simp only [exec, execHdmCommit, hup, h.1, h.2, decide_true, Bool.and_self, ↓reduceIte]
    · next h =>
      have hn : ¬ (bi && decide ((s.stack s.intakeStack).fn = .ready)) = true := by simpa using h
      simp only [exec, execHdmCommit, hup, ↓reduceIte]
      exact congrArg Host.Outcome.next (if_neg hn)
  · refine ⟨_, ?_, writeIntake_eq hm ha data⟩
    simp only [exec, execIntakeWrite, hup, hc, hl, intakeState_two.2 ⟨hc, hf⟩, decide_true, Bool.and_self, ↓reduceIte]
  · refine ⟨intakeRead line s, ?_, aside_intakeRead line s, touch_mem _ s, rfl⟩
    simp only [exec, execIntakeRead, hup, hc, hl, intakeState_two.2 ⟨hc, hf⟩, decide_true, Bool.and_self, ↓reduceIte]
    rfl
  · have hn : s.intakeState ≠ 2 := fun c => hf (intakeState_two.1 c).2
    simp only [exec, execIntakeWrite, hn, decide_false, Bool.and_false, Bool.false_eq_true, ↓reduceIte]
  · have hn : s.intakeState ≠ 2 := fun c => hf (intakeState_two.1 c).2
    simp only [exec, execIntakeRead, hup, hc, hl, hn, decide_true, Bool.and_self, ↓reduceIte]
  · have hs : s.host.snooping.contains page = true := by simpa using hp
    simp only [exec, execBiResponse, hup, hs, Bool.and_self, ↓reduceIte]
  · have hs : s.host.snooping.contains page = false := by simpa using hp
    simp only [exec, execBiResponse, hs, Bool.and_false, Bool.false_eq_true, ↓reduceIte]

end Sys2Proof
end

section
/-! PROOFS. The commands of embedding tables, their messages and the replies to them (R302 to R306, R308, R310 to R312, R315, R316, R335,
R336). -/

namespace Sys2Proof

open Machine Safety

/-! ### What a taken gather does first (R304 to R306) -/

section

variable {k : Nat} {s : State}

theorem startGather_of_offsets (h : tdPool (s.slot k).desc ≠ 0 ∧ offsetsOk (s.slot k).desc ((s.slot k).offsets.map BitVec.toNat) = false) :
    startGather k s = failSlot k 0x343 s := by
  simp only [startGather, h.1, h.2, ne_eq, not_false_eq_true, decide_true, Bool.not_false, Bool.and_self, ↓reduceIte]

variable (ho : ¬ (tdPool (s.slot k).desc ≠ 0 ∧ offsetsOk (s.slot k).desc ((s.slot k).offsets.map BitVec.toNat) = false))

include ho

/-- A gather whose bag offsets are good finds its version's root, then its hot directory, then its rows (R304, R305). -/
theorem startGather_of_good :
    let x := s.slot k
    let t := dTable x.desc
    let h := s.tblHeadOf t
    let root := rootAt s t x.tableVersion.toNat
    let words := rootWords s root.1
    let dirCode := firstCode s [hotRange words]
    let r := resolveRows k t (dTenant x.desc) h words (hotDir s words) (dedupBy id x.indices)
      (touch [hotRange words] (touchRoot t x.tableVersion.toNat s)) []
    startGather k s = if root.2 ≠ 0 then failSlot k root.2 s else if dirCode ≠ 0 then failSlot k dirCode s
      else if r.1 ≠ 0 then failSlot k r.1 r.2.2
      else settleGather k (sendEach k (rowReadBody k) (devicesOf ((r.2.1.filter GatherRow.waits).map (·.home)))
        (r.2.2.modSlot k fun x => { x with rows := r.2.1 })) := by
  have hb : ¬ (decide (tdPool (s.slot k).desc ≠ 0) && !offsetsOk (s.slot k).desc ((s.slot k).offsets.map BitVec.toNat)) = true := by
    simpa using ho
  exact if_neg hb

end

/-- An update checks its rows and the hot set's bound, then stages its rows at their homes (R310, R301). -/
theorem startUpdate_cases (k : Nat) (s : State) :
    let x := s.slot k
    let t := dTable x.desc
    let bad := ∃ i ∈ x.indices, tblRows (s.tblHeadOf t) ≤ i.toNat
    let homes := devicesOf (x.indices.map fun i => s.homeOf t (i.toNat / tblPer (s.tblHeadOf t)))
    (bad → startUpdate k s = failSlot k 0x343 s) ∧
    (¬ bad → hotFull x.desc x s = true → startUpdate k s = failSlot k 0x344 s) ∧
    (¬ bad → hotFull x.desc x s = false → startUpdate k s = sendEach k (stageBody k) homes
      (s.modSlot k fun x => { x with homes := homes.map fun d => ⟨d, false, false⟩ })) := by
  intro x t bad homes
  have hb : (x.indices.any fun i => tblRows (s.tblHeadOf t) ≤ i.toNat) = true ↔ bad := by simp [bad]
  exact ⟨fun h => if_pos (hb.2 h), fun h hf => (if_neg (mt hb.1 h)).trans (if_pos hf),
    fun h hf => (if_neg (mt hb.1 h)).trans (if_neg (ne_true_of_eq_false hf))⟩

/-- Settles O32: each command takes its descriptor as `taken` says, and the starts answer by their checks in order. -/
theorem tableCommandsStart : Obligations.tableCommandsStart := by
  refine ⟨fun n given indices offsets weights values s hs => ⟨taken _ _ _ _ _ _ _ s hs rfl, fun r hr => ?_⟩,
    fun k s => ⟨⟨startGather_of_offsets, fun ho hr => ?_, fun ho hr hd => ?_, fun ho hr hd code rows u h => ?_⟩, startUpdate_cases k s⟩⟩
  · simp only [List.mem_cons, List.not_mem_nil, or_false] at hr
    rcases hr with rfl | rfl | rfl
    all_goals exact taken _ _ _ _ _ _ _ s hs rfl
  · rw [startGather_of_good ho, if_pos hr]
  · rw [startGather_of_good ho, if_neg (not_not.2 hr), if_pos hd]
  · rw [startGather_of_good ho, if_neg (not_not.2 hr), if_neg (not_not.2 hd), h]

/-! ### Replies to a table command's messages (R110, R306, R310, R335, R336) -/

/-- A reply is taken once from each device, from a live command, and its code fails the command (R110, R336). -/
theorem tableReply_cases (kind : Nat) (b : Words) (keep : Nat → State → State) (s : State) :
    let n := handleSlot (msgHandle b)
    let u := takeLoop b s
    (u.live (msgHandle b) = false → tableReply kind b keep s = lateReply u) ∧
    (u.live (msgHandle b) = true →
      ((u.slot n).awaited.find? (answers kind b) = none → tableReply kind b keep s = u) ∧
      (∀ a, (u.slot n).awaited.find? (answers kind b) = some a →
        tableReply kind b keep s = if a.answered then dupReply u else if tmCode b ≠ 0 then failSlot n (tmCode b) u
          else keep n (markAnswered kind b u))) := by
  intro n u
  have e : tableReply kind b keep s = if !u.live (msgHandle b) then lateReply u
      else match (u.slot n).awaited.find? (answers kind b) with
        | none => u
        | some a => if a.answered then dupReply u else if tmCode b ≠ 0 then failSlot n (tmCode b) u
          else keep n (markAnswered kind b u) := rfl
  refine ⟨fun h => ?_, fun h => ⟨fun ha => ?_, fun a ha => ?_⟩⟩
  · rw [e, if_pos (by rw [h]; rfl)]
  · rw [e, if_neg (by rw [h]; decide), ha]
  · rw [e, if_neg (by rw [h]; decide), ha]

/-- A reply command of a served device is `tableReply` of its kind. -/
theorem tableReply_exec {kind : Nat} {b : Words} {keep : Nat → State → State} {c : Instr} {s : State} {good : State}
    (hc : exec c s = .next (tableReply kind b keep s)) (hg : keep (handleSlot (msgHandle b)) (markAnswered kind b (takeLoop b s)) = good) :
    let n := handleSlot (msgHandle b)
    let u := takeLoop b s
    (u.live (msgHandle b) = false → exec c s = .next (lateReply u)) ∧
    (u.live (msgHandle b) = true →
      ((u.slot n).awaited.find? (answers kind b) = none → exec c s = .next u) ∧
      (∀ a, (u.slot n).awaited.find? (answers kind b) = some a →
        exec c s = .next (if a.answered then dupReply u else if tmCode b ≠ 0 then failSlot n (tmCode b) u else good))) := by
  obtain ⟨late, live⟩ := tableReply_cases kind b keep s
  subst hg
  refine ⟨fun h => ?_, fun h => ⟨fun ha => ?_, fun a ha => ?_⟩⟩
  · rw [hc, late h]
  · rw [hc, (live h).1 ha]
  · rw [hc, (live h).2 a ha]

/-- A message of its kind at a served device is not passed over. -/
theorem message_served {s : State} {b : Words} {kind : Nat} (hup : s.hubUp = true) (hk : msgKind b = kind) :
    ¬ ((!s.hubUp) = true ∨ msgKind b ≠ kind) := by
  rw [hup, hk]
  simp

/-- Settles O33. -/
theorem tableReplies : Obligations.tableReplies := by
  intro src b s hup
  exact ⟨fun hk => tableReply_exec (congrArg Host.Outcome.next (if_neg (message_served hup hk))) rfl,
    fun hk => tableReply_exec (congrArg Host.Outcome.next (if_neg (message_served hup hk))) rfl,
    fun hk => tableReply_exec (congrArg Host.Outcome.next (if_neg (message_served hup hk))) rfl⟩

/-! ### Table messages at their homes (R305, R310 to R312, R315, R316) -/

/-- A message of a served table likewise. -/
theorem message_tabled {s : State} {b : Words} {kind : Nat} (hup : s.hubUp = true) (hk : msgKind b = kind) (ht : s.tableUp (tmSlot b) = true) :
    ¬ ((!s.hubUp) = true ∨ msgKind b ≠ kind ∨ (!s.tableUp (tmSlot b)) = true) := by
  rw [hup, hk, ht]
  simp

/-! ### Row reads (R305, R316) -/

section

variable {b : Words} {u : State}

theorem serveRows_of_down (h : u.tableUp (rrSlot b) = false) : serveRows b u = tableAnswer b 0x342 [] u := by
  simp only [serveRows, h, Bool.not_false, ↓reduceIte]

variable (ht : u.tableUp (rrSlot b) = true)

include ht

theorem serveRows_of_root (h : (rootAt u (rrSlot b) (rrVersion b)).2 ≠ 0) :
    serveRows b u = if (rootAt u (rrSlot b) (rrVersion b)).2 = 0x321 ∧ u.islandOut = true then u
      else tableAnswer b (rootAt u (rrSlot b) (rrVersion b)).2.toNat [] u := by
  simp only [serveRows, ht, h, Bool.not_true, Bool.false_eq_true, ne_eq, not_false_eq_true, ↓reduceIte]

variable (hroot : (rootAt u (rrSlot b) (rrVersion b)).2 = 0)

include hroot

/-- Rows read at a version whose root was found: a code of theirs answers, else poison does, else their values and absent bits. -/
theorem serveRows_of_rows :
    let h := u.tblHeadOf (rrSlot b)
    let r := rootWords u (rootAt u (rrSlot b) (rrVersion b)).1
    let got := readTableRows (rrSlot b) (dTenant b) h (fun row => (tvrMap r, row / tblPer h, row % tblPer h)) (rrRows b)
      (touchRoot (rrSlot b) (rrVersion b) u)
    (∀ o, (got.1.any (fun o => o.code = 0x321) && u.islandOut) = false → got.1.find? (fun o => o.code ≠ 0) = some o →
      serveRows b u = tableAnswer b o.code.toNat [] got.2) ∧
    ((∀ o ∈ got.1, o.code = 0 ∧ o.poison = false) → serveRows b u = tableAnswer b 0
      ((got.1.flatMap fun o => rowWords (fit (tblRowBytes h) o.value)) ++ (List.range (ceilDiv (rrRows b).length 64)).map fun i =>
        BitVec.ofNat 64 (packBits (fun k => (got.1[64 * i + k]?.map (·.absent)).getD false) 64)) got.2) := by
  intro h r got
  refine ⟨fun o hout hfind => ?_, fun hall => ?_⟩
  · simp only [serveRows, ht, hroot, Bool.not_true, Bool.false_eq_true, ne_eq, not_true_eq_false, ↓reduceIte]
    refine (if_neg (by simp)).trans ((if_neg (ne_true_of_eq_false hout)).trans ?_)
    rw [hfind]
  · have hcode : ∀ c : Word16, c ≠ 0 → got.1.any (fun o => o.code = c) = false := fun c hc => by
      rw [List.any_eq_false]
      intro o ho
      rw [decide_eq_true_eq, (hall o ho).1]
      exact fun e => hc e.symm
    have hfind : got.1.find? (fun o => o.code ≠ 0) = none := by
      rw [List.find?_eq_none]
      intro o ho
      simp [(hall o ho).1]
    have hpoison : got.1.any (·.poison) = false := by
      rw [List.any_eq_false]
      intro o ho
      rw [(hall o ho).2]
      exact Bool.false_ne_true
    simp only [serveRows, ht, hroot, Bool.not_true, Bool.false_eq_true, ne_eq, not_true_eq_false, ↓reduceIte]
    refine (if_neg (by simp)).trans ((if_neg ?_).trans ?_)
    · rw [hcode _ (by decide), Bool.false_and]
      exact Bool.false_ne_true
    · rw [hfind]
      exact if_neg (ne_true_of_eq_false hpoison)

end

/-! ### Stages and commits (R310, R311, R316) -/

section

variable {src : Nat} {b : Words} {s : State} (hup : s.hubUp = true)

include hup

theorem exec_rowRead (hk : msgKind b = 3) :
    exec (.rowRead src b) s = .next (if (takeLoop b s).killed (msgDevice b) (msgHandle b) then takeLoop b s else serveRows b (takeLoop b s)) :=
  congrArg Host.Outcome.next (if_neg (message_served hup hk))

/-- A stage message at its home: staged once, and acknowledged (R310). -/
theorem exec_tableStage (hk : msgKind b = 4) :
    let u := takeLoop b s
    let n := tmSlot b
    let h := u.tblHeadOf n
    let mine := fun g : Staged => g.src = msgDevice b && g.handle = msgHandle b
    (u.killed (msgDevice b) (msgHandle b) = true → exec (.tableStage src b) s = .next u) ∧
    (u.killed (msgDevice b) (msgHandle b) = false →
      (u.tableUp n = false → exec (.tableStage src b) s = .next (tableAnswer b 0x342 [] u)) ∧
      (u.tableUp n = true → u.stackUp (stackOf (tblHead h)) = true → exec (.tableStage src b) s = .next (tableAnswer b 0 []
        (if (u.tableSlot n).staged.any mine then u
        else u.modTable n fun t => { t with staged := t.staged ++
          [⟨msgDevice b, msgHandle b, tmAct b, stagedRows b (actWords h (tmAct b))⟩] })))) := by
  intro u n h mine
  have e : exec (.tableStage src b) s = .next (if u.killed (msgDevice b) (msgHandle b) then u
      else if !u.tableUp n then tableAnswer b 0x342 [] u
      else if !u.stackUp (stackOf (tblHead h)) then if u.islandOut then u else tableAnswer b 0x321 [] u
      else if (u.tableSlot n).staged.any mine then tableAnswer b 0 [] u
      else tableAnswer b 0 [] (u.modTable n fun t => { t with staged := t.staged ++
        [⟨msgDevice b, msgHandle b, tmAct b, stagedRows b (actWords h (tmAct b))⟩] })) :=
    congrArg Host.Outcome.next (if_neg (message_served hup hk))
  rw [e]
  refine ⟨fun hd => by rw [if_pos hd], fun hd => ⟨fun ht => ?_, fun ht hs => ?_⟩⟩
  · rw [if_neg (ne_true_of_eq_false hd), if_pos (by rw [ht]; rfl)]
  · rw [if_neg (ne_true_of_eq_false hd), if_neg (by rw [ht]; decide), if_neg (by rw [hs]; decide)]
    split <;> rfl

/-- A commit at its home: what is staged applies, or none of it (R311). -/
theorem exec_tableCommit (hk : msgKind b = 5) :
    let u := takeLoop b s
    let mine := fun g : Staged => g.src = msgDevice b && g.handle = msgHandle b
    (u.killed (msgDevice b) (msgHandle b) = true → exec (.tableCommit src b) s = .next u) ∧
    (u.killed (msgDevice b) (msgHandle b) = false → u.tables.find? (fun e => e.2.staged.any mine) = none →
      exec (.tableCommit src b) s = .next (tableAnswer b 0 [] u)) ∧
    (∀ n t, u.killed (msgDevice b) (msgHandle b) = false → u.tables.find? (fun e => e.2.staged.any mine) = some (n, t) →
      let rows := (t.staged.filter mine).flatMap fun g => g.rows.map fun r => (g.act, r)
      let code := applyCode n (u.tblHeadOf n) (rows.map (·.2.1)) u
      let w := u.modTable n fun t => { t with staged := t.staged.filter fun g => !mine g }
      (code = 0 → exec (.tableCommit src b) s = .next (tableAnswer b 0 [] (writeShard n (rows.map (·.2.1))
        (rows.foldl (fun s r => applyRow n t.tagNow r.2.1 r.1 r.2.2 s) w)))) ∧
      (code ≠ 0 → exec (.tableCommit src b) s =
        .next (if code = 0x321 ∧ u.islandOut = true then u else tableAnswer b code.toNat [] w))) := by
  intro u mine
  have e : exec (.tableCommit src b) s = .next (if u.killed (msgDevice b) (msgHandle b) then u
      else match u.tables.find? fun e => e.2.staged.any mine with
        | none => tableAnswer b 0 [] u
        | some (n, t) =>
          let rows := (t.staged.filter mine).flatMap fun g => g.rows.map fun r => (g.act, r)
          let code := applyCode n (u.tblHeadOf n) (rows.map (·.2.1)) u
          if code = 0x321 ∧ u.islandOut then u
          else
            let w := u.modTable n fun t => { t with staged := t.staged.filter fun g => !mine g }
            if code ≠ 0 then tableAnswer b code.toNat [] w
            else tableAnswer b 0 [] (writeShard n (rows.map (·.2.1))
              (rows.foldl (fun s r => applyRow n t.tagNow r.2.1 r.1 r.2.2 s) w))) :=
    congrArg Host.Outcome.next (if_neg (message_served hup hk))
  rw [e]
  refine ⟨fun hd => by rw [if_pos hd], fun hd hn => ?_, fun n t hd hs => ⟨fun hc => ?_, fun hc => ?_⟩⟩
  · rw [if_neg (ne_true_of_eq_false hd), hn]
  · rw [if_neg (ne_true_of_eq_false hd), hs]
    simp only [hc]
    exact congrArg Host.Outcome.next ((if_neg (by simp)).trans (if_neg (by simp)))
  · rw [if_neg (ne_true_of_eq_false hd), hs]
    dsimp only
    rw [if_pos hc]

/-! ### The messages of a seal (R312) -/

/-- The hot home's replica pages at a device: the switch to the new root, at its turn (R312, step 5). -/
theorem exec_replicaPages (hk : msgKind b = 7) :
    let u := takeLoop b s
    let n := tmSlot b
    let v := smVersion b
    let t := u.tableSlot n
    u.tableUp n = true → u.stackUp (stackOf (tblHead (u.tblHeadOf n))) = true →
    (v ≤ t.built → exec (.replicaPages src b) s = .next (tableAnswer b (n % 64) [BitVec.ofNat 64 v] u)) ∧
    (v = t.built + 1 → exec (.replicaPages src b) s =
      .next (let w := switchTable n v (rpPages b) (rpDir b) u
        if (w.tableSlot n).built = v then tableAnswer b (n % 64) [BitVec.ofNat 64 v] w else w)) ∧
    (t.built + 1 < v → exec (.replicaPages src b) s = .next u) := by
  intro u n v t ht hs
  have e : exec (.replicaPages src b) s = .next (
      if v ≤ t.built then tableAnswer b (n % 64) [BitVec.ofNat 64 v] u
      else if v ≠ t.built + 1 then u
      else
        let w := switchTable n v (rpPages b) (rpDir b) u
        if (w.tableSlot n).built = v then tableAnswer b (n % 64) [BitVec.ofNat 64 v] w else w) :=
    (congrArg Host.Outcome.next (if_neg (message_served hup hk))).trans (congrArg Host.Outcome.next (if_neg (by
      show ¬ ((!u.tableUp n) = true ∨ (!u.stackUp (stackOf (tblHead (u.tblHeadOf n)))) = true)
      rw [ht, hs]
      simp)))
  rw [e]
  refine ⟨fun h => by rw [if_pos h], fun h => ?_, fun h => ?_⟩
  · rw [if_neg (by omega), if_neg (not_not.2 h)]
  · rw [if_neg (by omega), if_pos (by omega)]

end

/-- Settles O34. -/
theorem tableHomesAndSeals : Obligations.tableHomesAndSeals := by
  refine ⟨fun src b s hup => ⟨fun hk hd => ?_, fun hk hd => ⟨fun ht => ?_, fun ht => ⟨fun hr => ?_, fun o hr ho hf => ?_, fun hr ha => ?_⟩⟩,
    exec_tableStage hup, exec_tableCommit hup⟩, fun src b s hup => ⟨fun hk => ?_, fun hk => ?_, exec_replicaPages hup, fun hk => ?_⟩⟩
  · rw [exec_rowRead hup hk, if_pos hd]
  · rw [exec_rowRead hup hk, if_neg (ne_true_of_eq_false hd), serveRows_of_down ht]
  · rw [exec_rowRead hup hk, if_neg (ne_true_of_eq_false hd), serveRows_of_root ht hr]
  · rw [exec_rowRead hup hk, if_neg (ne_true_of_eq_false hd), (serveRows_of_rows ht hr).1 o ho hf]
  · rw [exec_rowRead hup hk, if_neg (ne_true_of_eq_false hd), (serveRows_of_rows ht hr).2 ha]
  · refine congrArg Host.Outcome.next ((if_neg (message_served hup hk)).trans (ite_congr_iff ?_ _ _))
    simp only [Bool.and_eq_true, decide_eq_true_eq, Option.isNone_iff_eq_none, and_assoc]
  · refine congrArg Host.Outcome.next ((if_neg (message_served hup hk)).trans (ite_congr_iff ?_ _ _))
    simp only [Bool.and_eq_true, decide_eq_true_eq, List.contains_iff_mem]
  · refine congrArg Host.Outcome.next ((if_neg (message_served hup hk)).trans (ite_congr_iff ?_ _ _))
    simp only [Bool.and_eq_true, decide_eq_true_eq, List.contains_iff_mem]

/-! ### Migrations and the lookup sketch (R308, R315) -/

section

variable {src : Nat} {b : Words} {s : State} (hup : s.hubUp = true) (ht : s.tableUp (tmSlot b) = true)

include hup ht

/-- The hot home's turn at a forwarded update: a row whose newest value it would have to read, and cannot, is passed over (log 58). -/
theorem exec_forwardedUpdate (hk : msgKind b = 9) :
    let u := takeLoop b s
    let n := tmSlot b
    let h := u.tblHeadOf n
    let row := mcRow b
    let back := fun kind w => sendTable (msgDevice b) [msgW0 kind 0 0, tmW1 w n (tmAct b) (tmVersion b), word b 2] true w
    exec (.forwardedUpdate src b) s = .next (
      if ((tget [] (u.tableSlot n).pend.hot row = [] && tget [] (u.tableSlot n).next.hot row = []) && rowCode u n h row ≠ 0) then u
      else if tmAct b = .demote then
        let w := back 0x89 (removeHot n (tmVersion b) row u).2
        sendTable (msgDevice b) (msgW0 8 0 0 :: tmW1 (removeHot n (tmVersion b) row u).2 n .demote (tmVersion b) :: word b 2 ::
          rowWords (fit (tblRowBytes h) (removeHot n (tmVersion b) row u).1)) false w
      else back 0x89 (countRow (putRow n (tmVersion b) row true
        (updated h (tmAct b) (mcValue b (actWords h (tmAct b))) (rowNow u n h true (u.late n (tmVersion b)) row)) u))) :=
  congrArg Host.Outcome.next (if_neg (message_tabled hup hk ht))

end

/-- Settles O35. -/
theorem migrations : Obligations.migrations := by
  intro src island b s
  refine ⟨fun hup ht => ?_, fun hi hs => ?_⟩
  · intro u n h row value m back
    refine ⟨fun hk => ⟨fun ha => ?_, fun ha => ?_⟩, fun hk => ?_, fun hk hh hc => ?_, fun hk hh => ?_, fun hk => ?_⟩
    · exact congrArg Host.Outcome.next ((if_neg (message_tabled hup hk ht)).trans (if_pos ha))
    · refine congrArg Host.Outcome.next ((if_neg (message_tabled hup hk ht)).trans ((if_neg ha).trans (ite_congr_iff ?_ _ _)))
      rw [Bool.and_eq_true, decide_eq_true_eq]
    · refine congrArg Host.Outcome.next ((if_neg (message_tabled hup hk ht)).trans (ite_congr_iff ?_ _ _))
      simp only [Bool.and_eq_true, decide_eq_true_eq, Bool.not_eq_true', and_assoc]
      exact Iff.rfl
    · obtain ⟨hpend, hnext⟩ := not_or.1 hh
      rw [exec_forwardedUpdate hup ht hk, if_pos]
      simp only [Bool.and_eq_true, decide_eq_true_eq]
      exact ⟨⟨not_not.1 hpend, not_not.1 hnext⟩, hc⟩
    · have hp : ¬ ((decide (tget [] (u.tableSlot n).pend.hot row = []) && decide (tget [] (u.tableSlot n).next.hot row = [])) &&
          decide (rowCode u n h row ≠ 0)) = true := by
        simp only [Bool.and_eq_true, decide_eq_true_eq]
        rintro ⟨hn, hr⟩
        exact hh.elim (fun c => c.elim (absurd hn.1) (absurd hn.2)) hr
      refine ⟨fun ha => ?_, fun ha => ?_⟩
      · exact (exec_forwardedUpdate hup ht hk).trans (congrArg _ ((if_neg hp).trans (if_neg ha)))
      · exact (exec_forwardedUpdate hup ht hk).trans (congrArg _ ((if_neg hp).trans (if_pos ha)))
    · exact congrArg Host.Outcome.next (if_neg (message_tabled hup hk ht))
  · refine congrArg Host.Outcome.next (ite_congr_iff ?_ _ _)
    rw [hs, Bool.true_and, Bool.and_eq_true, decide_eq_true_eq, decide_eq_true_eq, and_iff_right hi]

end Sys2Proof
end

section
/-! PROOFS. Packets and the link layer (R320 to R322, R325, R328, R331 to R334, R429, R485). -/

namespace Sys2Proof

open Machine Safety

/-- Settles O36: every packet command is the shared arrival of its type. -/
theorem packetArrival : Obligations.packetArrival := by
  intro l p s hl r hr ht
  unfold packetRows at hr
  simp only [List.mem_cons, List.not_mem_nil, or_false] at hr
  rcases hr with rfl | rfl | rfl | rfl | rfl | rfl | rfl | rfl
  all_goals
    obtain ⟨lost, dropped, taken⟩ := arrive_eq _ l p _ s hl ht
    refine ⟨fun hs => ⟨_, rfl, lost hs⟩, fun hs hp => ⟨_, rfl, dropped hs hp⟩, fun hs hp => ?_⟩
    obtain ⟨u, hu, e⟩ := taken hs hp
    exact ⟨u, hu, congrArg Host.Outcome.next e⟩

/-! ### What a reply does (R333, R334) -/

section

variable {type l : Nat} {p : Packet} {s : State}

theorem landReply_of_none (hp : p.lpoison = 0) (h : s.access p.island p.tag = none) : landReply type l p s = lateReply s := by
  simp only [landReply, hp, ne_eq, not_true_eq_false, ↓reduceIte, h]

/-- A reply of the awaited type fails its issuer with its code, or lands its segment, or with the last one delivers all (R333). -/
theorem landReply_of_awaited {a : Access} (hp : p.lpoison = 0) (h : s.access p.island p.tag = some a) (ht : bits (word a.hdr 0) 63 56 + 0x80 = type) :
    landReply type l p s = if p.code ≠ 0 then failIssuer a.issuer p.code (dropAccess p.island p.tag s)
      else
        let got := (a.got.filter fun g => g.1 ≠ p.seg) ++ [(p.seg, replyData a p)]
        if got.length = segCount (word a.hdr 2).toNat (bits (word a.hdr 5) 63 32) then
          deliver a (joinSegs got) (dropAccess p.island p.tag s)
        else { s with fabric := { s.fabric with accesses := s.fabric.accesses.map fun x =>
          if x.island = p.island && x.tag = p.tag then { x with got := got } else x } } := by
  simp only [landReply, hp, ne_eq, not_true_eq_false, ↓reduceIte, h, ht]
  rfl

/-- A page's ack reaches the job that waits for it (R334). -/
theorem landAck_of_job {a : Access} {n i : Nat} (h : s.access p.island p.tag = some a) (hi : a.issuer = .job n i) :
    landAck p s = ackPage n p.code (dropAccess p.island p.tag s) := by
  simp only [landAck, h, hi]

end

/-- Settles O37. -/
theorem packetsAreServed : Obligations.packetsAreServed := by
  intro l p s
  refine ⟨?_, fun hc => ?_, fun hc => ?_, fun type hp ha => landReply_of_none hp ha, fun type a hp ha ht => ⟨fun hc => ?_, fun hc => ⟨fun hl => ?_, fun hl => ?_⟩⟩,
    fun a n i ha hi => ⟨fun hc => ?_, fun hc => ?_⟩⟩
  · intro ok off
    cases hok : ok
    · exact if_pos (by rw [show s.floorOk _ _ _ _ = ok from rfl, hok]; rfl)
    · exact if_neg (by rw [show s.floorOk _ _ _ _ = ok from rfl, hok]; decide)
  · simp only [servePublish, hc, Bool.false_eq_true, ↓reduceIte]
  · simp only [servePublish, hc, ↓reduceIte]
    rfl
  · rw [landReply_of_awaited hp ha ht, if_pos hc]
  · rw [landReply_of_awaited hp ha ht, if_neg (not_not.2 hc)]
    exact if_pos hl
  · rw [landReply_of_awaited hp ha ht, if_neg (not_not.2 hc)]
    exact if_neg hl
  · rw [landAck_of_job ha hi]
    exact if_pos hc
  · rw [landAck_of_job ha hi]
    exact if_neg (not_not.2 hc)

/-! ### The link layer (R320 to R322, R325, R429, R485) -/

theorem Safety.Noted.link {s t : State} (h : Noted s t) (l : Nat) : t.link l = s.link l := by
  obtain ⟨-, _, _, _, _, _, rfl⟩ := h
  rfl

theorem Safety.Noted.withFabric {s t : State} (h : Noted s t) (f : Fabric → Fabric) :
    Noted { s with fabric := f s.fabric } { t with fabric := f t.fabric } := by
  obtain ⟨i, _, _, _, _, _, rfl⟩ := h
  exact ⟨i, _, _, _, _, _, rfl⟩

theorem Safety.Noted.withHistory {s t : State} (h : Noted s t) (hist : List HistEntry) :
    Noted { s with faults := { s.faults with history := hist } } { t with faults := { t.faults with history := hist } } := by
  obtain ⟨i, _, _, _, _, _, rfl⟩ := h
  exact ⟨i, _, _, _, _, _, rfl⟩

section

variable {l : Nat} {s : State}

section

variable (hl : s.linkServes l = true)

include hl

/-- Link control: the credits it returns, then what it acknowledges, then what it asks again (R320, R321). -/
theorem exec_linkControl (c : LinkCtl) : exec (.linkControl l c) s = .next (
    let s := s.modLink l fun k => { k with credits := c.credits.foldl (fun t c => tmod 0 t c.1 (· + c.2)) k.credits }
    let s := match c.ack with | some a => takeAck l a s | none => s
    match c.nak with | some x => takeNak l x s | none => s) :=
  congrArg Host.Outcome.next (if_pos hl)

/-- A packet of a bad type that is in sequence is taken, counted and its credit returned (R325). -/
theorem exec_badPacket {p : Packet} (hb : assignedTypes.contains p.type = false) (hs : seqOk (s.link l) p = true) :
    ∃ t, exec (.badPacket l p) s = .next t ∧
      Noted (returnCredit l p (takeAck l p.lack ({ s with fabric := { s.fabric with badPackets := s.fabric.badPackets + 1 } }.modLink l
        fun k => { k with rxSeq := p.lseq + 1, ackOwed := true, discarding := false }))) t := by
  obtain ⟨u, hu, e⟩ := receive_eq l p s hl
  rw [if_pos hs] at e
  refine ⟨_, ?_, (((hu.modLink l fun k => { k with rxSeq := p.lseq + 1, ackOwed := true, discarding := false }).takeAck l p.lack).returnCredit l p).withFabric
    fun f => { f with badPackets := f.badPackets + 1 }⟩
  simp only [exec, execBadPacket, hb, e, Bool.false_eq_true, ↓reduceIte]
  rfl

end

variable (hw : twf {} s.links = true)

include hw

/-- A start of a link that is given up ends in Off (R485). -/
theorem noted_abandonLink : Noted (s.modLink l fun k => { k with abandon := false, fn := .off }) (abandonLink l s) := by
  have k := noted_setLinkFn l .off (s.modLink l fun k => { k with abandon := false })
  rwa [modLink_modLink hw] at k

/-- A link whose training ends with a peer is Ready, its sequences and credits anew (R322). -/
theorem noted_linkUp (peer port : Nat) : Noted (s.modLink l fun k => { k with
      peer := field 16 (peer % 2 ^ 14) ||| field 0 (port % 64), txSeq := 0, rxSeq := 0, ackOwed := false
      discarding := false, replay := [], control := [], lastAck := s.time, credit := [], wireClass := none
      credits := (List.range 16).map fun q => (q, 32768), fn := .ready }) (linkUp l peer port s) := by
  have k := noted_setLinkFn l .ready (s.modLink l fun k =>
    { k with
      peer := field 16 (peer % 2 ^ 14) ||| field 0 (port % 64), txSeq := 0, rxSeq := 0, ackOwed := false,
      discarding := false, replay := [], control := [], lastAck := s.time, credit := [], wireClass := none,
      credits := (List.range 16).map fun q => (q, fullCredit) })
  rwa [modLink_modLink hw] at k

/-- A Ready link without packets that retrains is Starting and counts it (R320, R322). -/
theorem noted_retrain {cause : Nat} (hf : (s.link l).fn = .ready) (hr : (s.link l).replay = []) (hq : ∀ q, tget [] (s.link l).queues q = []) :
    ∃ hist, Noted ({ s with faults := { s.faults with history := hist } }.modLink l fun k => { k with
      retrains := k.retrains + 1, fn := .starting, replay := [], queues := [] }) (retrain l cause s) := by
  have k := noted_setLinkFn l .starting (s.modLink l fun k => { k with retrains := k.retrains + 1 })
  rw [modLink_modLink hw] at k
  generalize hu : setLinkFn l .starting (s.modLink l fun k => { k with retrains := k.retrains + 1 }) = u at k
  have hlink : u.link l = { s.link l with retrains := (s.link l).retrains + 1, fn := .starting } :=
    (k.link l).trans (link_modLink _ _ _ hw)
  have hmove : moveOut l u = u.modLink l fun k => { k with replay := [], queues := [] } := by
    have empty : (u.link l).replay ++ (u.link l).queued = [] := by
      simp only [Link.queued, hlink, hr, hq, List.nil_append, List.flatMap_eq_nil_iff, implies_true]
    show List.foldl _ _ ((u.link l).replay ++ (u.link l).queued) = _
    rw [empty]
    rfl
  have hret : retrain l cause s = notable (linkIsland l) 5 (cause * 256 + l) (moveOut l u) := by
    rw [← hu]
    exact if_pos hf
  obtain ⟨hist, e⟩ := notable_history (linkIsland l) 5 (cause * 256 + l) (moveOut l u)
  have n := (k.modLink l fun k => { k with replay := [], queues := [] }).withHistory hist
  rw [modLink_modLink hw] at n
  refine ⟨hist, ?_⟩
  rw [hret, e, hmove]
  exact n

end

/-- Settles O38. -/
theorem linkLayer : Obligations.linkLayer := by
  refine ⟨fun l s hw => ⟨fun hl => ⟨fun c => exec_linkControl hl _, fun a => ?_, fun x => ?_, congrArg Host.Outcome.next (if_pos hl),
    fun p hb hs => exec_badPacket hl hb hs, fun hr ht => ?_, fun ho => ?_⟩, fun hi => ⟨congrArg Host.Outcome.next (if_pos hi), fun hf =>
      ⟨⟨_, ?_, noted_abandonLink hw⟩, fun peer port ha => ⟨fun he => ?_, fun he => ⟨_, ?_, noted_linkUp hw peer port⟩⟩,
        fun peer port ha => ⟨_, ?_, noted_abandonLink hw⟩⟩⟩⟩, fun l s hw hl hf hr hq => ⟨_, ?_, noted_retrain hw (cause := 3) hf hr hq⟩⟩
  · exact (exec_linkControl hl _).trans (congrArg (fun u => Host.Outcome.next (takeAck l a u)) (modLink_id hw l))
  · exact (exec_linkControl hl _).trans (congrArg (fun u => Host.Outcome.next (takeNak l x u)) (modLink_id hw l))
  · simp only [exec, execLinkAckTimeout, hl, hr, ht, ne_eq, not_false_eq_true, decide_true, Bool.and_self, ↓reduceIte]
  · simp only [exec, execLinkAckInterval, hl, ho, Bool.and_self, ↓reduceIte]
  · simp only [exec, execLinkTrainingFailed, hf, hi, decide_true, Bool.and_self, ↓reduceIte]
  · simp only [exec, execLinkReady, hf, hi, ha, he, decide_true, Bool.and_self, Bool.false_eq_true, ↓reduceIte]
  · simp only [exec, execLinkReady, hf, hi, ha, he, decide_true, Bool.and_self, Bool.false_eq_true, ↓reduceIte]
  · simp only [exec, execLinkReady, hf, hi, ha, decide_true, Bool.and_self, ↓reduceIte]
  · have hi : s.inService (linkIsland l) = true := by
      simp only [State.linkServes, Bool.and_eq_true] at hl
      exact hl.2
    exact congrArg Host.Outcome.next (if_pos hi)

end Sys2Proof
end

section
/-! PROOFS. Timeouts, kill notices, the keyring and the egress of a link (R320, R333, R334, R336, R342 to R346, R352 to R357, R364). -/

namespace Sys2Proof

open Machine Safety

/-! ### Accesses whose time is past (R333, R334) -/

/-- Settles O39. -/
theorem fabricTimeouts : Obligations.fabricTimeouts := by
  intro island tag s
  refine ⟨fun a ha ho => ⟨fun k m q rest hi hq => ⟨fun hr => ?_, fun hr => ?_⟩, fun n hi => ?_,
    fun n i hi => ⟨fun hr => ?_, fun hr hl => ?_, fun l hr hl => ?_⟩⟩, fun h => ?_⟩
  · simp only [exec, execFabricTimeout, ha, ho, hi, hq, hr, Bool.not_true, Bool.false_eq_true, ↓reduceIte]
  · simp only [exec, execFabricTimeout, ha, ho, hi, hq, Nat.not_lt.2 hr, Bool.not_true, Bool.false_eq_true, ↓reduceIte]
  · simp only [exec, execFabricTimeout, ha, ho, hi, Bool.not_true, Bool.false_eq_true, ↓reduceIte]
  · simp only [exec, execPublishAckTimeout, ha, ho, hi, hr, Bool.not_true, Bool.false_eq_true, ↓reduceIte]
  · simp only [exec, execPublishAckTimeout, ha, ho, hi, Nat.not_le.2 hr, hl, Bool.not_true, Bool.false_eq_true, ↓reduceIte]
  · simp only [exec, execPublishAckTimeout, ha, ho, hi, Nat.not_le.2 hr, hl, Bool.not_true, Bool.false_eq_true, ↓reduceIte]
    rfl
  · cases ha : s.access island tag with
    | none => simp only [exec, execFabricTimeout, execPublishAckTimeout, ha, and_self]
    | some a =>
      have ho := h a ha
      refine ⟨?_, ?_⟩
      · simp only [exec, execFabricTimeout, ha, ho, Bool.not_false, ↓reduceIte]
      · simp only [exec, execPublishAckTimeout, ha, ho, Bool.not_false, ↓reduceIte]
        split <;> rfl

/-! ### Kill notices (R336) -/

/-- A device after the kill notice of a request of device d. -/
def noticeTaken (d : Nat) (h : Word32) (s : State) : State :=
  let v := killLocal d h s
  { v with fabric := { v.fabric with kills := v.fabric.kills ++ [⟨d, h, v.time + BitVec.ofNat 64 (4 * v.fabric.timeout.toNat)⟩] } }

/-- The window of a notice that has just been taken is open, unless the clock wraps within it (R336). -/
theorem killed_noticeTaken {d : Nat} {h : Word32} {s : State} (ht : s.fabric.timeout ≠ 0)
    (hb : s.time.toNat + 4 * s.fabric.timeout.toNat < 2 ^ 64) : (noticeTaken d h s).killed d h = true := by
  obtain ⟨htime, hfabric, -, -⟩ := killLocal_keeps d h s
  have htimeout := congrArg Fabric.timeout hfabric
  change (killLocal d h s).fabric.timeout = s.fabric.timeout at htimeout
  have hpos : 0 < s.fabric.timeout.toNat := by
    rw [Nat.pos_iff_ne_zero]
    intro e
    exact ht (BitVec.eq_of_toNat_eq (by rw [e]; rfl))
  have hopen : (killLocal d h s).time < (killLocal d h s).time + BitVec.ofNat 64 (4 * (killLocal d h s).fabric.timeout.toNat) := by
    rw [htime, htimeout, BitVec.lt_def, BitVec.toNat_add, BitVec.toNat_ofNat]
    omega
  unfold State.killed
  rw [List.any_eq_true]
  refine ⟨⟨d, h, (killLocal d h s).time + BitVec.ofNat 64 (4 * (killLocal d h s).fabric.timeout.toNat)⟩,
    List.mem_append_right _ (List.mem_singleton_self _), ?_⟩
  rw [Bool.and_eq_true, Bool.and_eq_true, decide_eq_true_eq, decide_eq_true_eq, decide_eq_true_eq]
  exact ⟨⟨rfl, rfl⟩, hopen⟩

/-- Settles O40. -/
theorem killNotices : Obligations.killNotices := by
  intro b s
  refine ⟨fun hup hk hn => ?_, fun hup hk hn => ?_, fun dev h => rfl⟩
  · obtain ⟨htime, -, hreqs, hwaiting⟩ := killLocal_keeps (msgDevice b) (msgHandle b) s
    have hc : (s.hubUp && decide (msgKind b = 0x0F) && !s.killed (msgDevice b) (msgHandle b)) = true := by
      rw [hup, hk, hn]
      rfl
    exact ⟨congrArg Host.Outcome.next (if_pos hc), Aside.raw_iff.2 (aside_killLocal _ _ s (Aside.refl s)), htime, hreqs, hwaiting,
      killed_noticeTaken⟩
  · simp only [exec, execKillNotice, hn, Bool.not_true, Bool.and_false, Bool.false_eq_true, ↓reduceIte]

/-! ### The keyring (R342 to R346) -/

/-- Settles O41. -/
theorem keyringWorks : Obligations.keyringWorks := by
  intro s
  refine ⟨fun off hd => ?_, fun m rest hm hs => ?_, fun refill w0 w1 => ⟨fun hv => ?_, fun v hv => ?_⟩⟩
  · refine ⟨_, ?_, noted_noteLong 0x3020 2 s.keyring.dirCode (dirCheck s off.toNat) _⟩
    simp only [exec, execKeyringDirCheckEnd, hd]
    rfl
  · refine ⟨_, noted_countEv (idCluster m.cluster) 2 3 1 { tenant := some m.tenant } _, ?_⟩
    simp only [exec, execKeyringRefill, hm, hs, Bool.not_true, Bool.false_eq_true, ↓reduceIte]
    rfl
  · unfold installKey
    rw [hv]
  · have evictions : (if (refill && bit (tget {} s.keyring.entries v).w0 21) = true then s.keyring.evictions + 1 else s.keyring.evictions) =
        s.keyring.evictions + (if refill = true ∧ bit (tget {} s.keyring.entries v).w0 21 = true then 1 else 0) := by
      rw [ite_congr_iff (Q := refill = true ∧ bit (tget {} s.keyring.entries v).w0 21 = true) (by rw [Bool.and_eq_true])]
      split
      · rfl
      · exact (BitVec.add_zero _).symm
    unfold installKey
    rw [hv]
    dsimp only [modKeyring]
    rw [evictions]

/-! ### Egress, gates and shapers (R352 to R357, R364) -/

section

variable {l : Nat} {s : State} (hi : s.inService (linkIsland l) = true)

include hi

section

variable (hf : (s.link l).fn = .ready)

include hf

/-- What a Ready link sends at a packet boundary (R352, R353). -/
theorem exec_egressSelect (hb : s.boundary l = true) :
    (∀ c rest, (s.link l).control = c :: rest → exec (.egressSelect l) s = .next (countEv (linkIsland l) 4 1 64 { engine := some (l % 4) }
      (s.modLink l fun k => { k with control := rest, wireEnd := 100 * s.time.toNat + 64, wireClass := none }))) ∧
    ((s.link l).control = [] → s.bestQueue l = none → exec (.egressSelect l) s = .next (s.modLink l fun k => { k with wireClass := none })) ∧
    (∀ q, (s.link l).control = [] → s.bestQueue l = some q → exec (.egressSelect l) s = .next (startPacket l q s)) := by
  refine ⟨fun c rest hc => ?_, fun hc hq => ?_, fun q hc hq => ?_⟩
  · simp only [exec, execEgressSelect, hi, hf, hb, hc, decide_true, Bool.and_self, ↓reduceIte]
  · simp only [exec, execEgressSelect, hi, hf, hb, hc, hq, decide_true, Bool.and_self, ↓reduceIte]
  · simp only [exec, execEgressSelect, hi, hf, hb, hc, hq, decide_true, Bool.and_self, ↓reduceIte]

/-- Each l-cycle moves the credit of each of the eight classes by its step (R357). -/
theorem exec_shaperTick (hw : twf 0 (s.link l).credit = true) :
    ∃ credit, exec (.shaperTick l) s = .next (s.modLink l fun k => { k with credit := credit }) ∧
      ∀ c < 8, tget 0 credit c = creditStep (tget 0 (s.link l).rates c) (!s.gateOpen l c)
        ((s.link l).wireClass = some c && !s.boundary l)
        (tget [] (s.link l).queues (2 * c) ≠ [] || tget [] (s.link l).queues (2 * c + 1) ≠ []) (tget 0 (s.link l).credit c) := by
  refine ⟨_, ?_, fun c hc => (tget_creditFold hw _ (List.range 8) List.nodup_range c).trans (if_pos (List.mem_range.2 hc))⟩
  simp only [exec, execShaperTick, hi, hf, decide_true, Bool.and_self, ↓reduceIte]
  exact congrArg Host.Outcome.next (modLink_congr rfl)

end

variable {g : GateList} (hg : (s.link l).gateActive = some g)

include hg

theorem exec_gateIntervalEnd : exec (.gateIntervalEnd l) s = .next (
    if g.base ≤ s.timeAt (linkIsland l) ∧ g.entryAt (s.timeAt (linkIsland l)) ≠ (s.link l).gateEntry then
      s.modLink l fun k => { k with gateEntry := g.entryAt (s.timeAt (linkIsland l)), guard := 0 } else s) := by
  simp only [exec, execGateIntervalEnd, hg, hi, Bool.true_and, Bool.and_eq_true, decide_eq_true_eq]

/-- The guard band begins with at most 41.76 ns left of the entry in force (R355; whole nanoseconds, log 46). -/
theorem exec_guardBandStart (hb : g.base ≤ s.timeAt (linkIsland l)) (he : g.entryAt (s.timeAt (linkIsland l)) = (s.link l).gateEntry) :
    exec (.guardBandStart l) s = .next (if g.entryEnd (s.link l).gateEntry - g.phase (s.timeAt (linkIsland l)) ≤ 42 then
      s.modLink l fun k => { k with guard := g.closing (s.link l).gateEntry } else s) := by
  simp only [exec, execGuardBandStart, hg, hi, hb, he, decide_true, Bool.true_and, decide_eq_true_eq]

end

/-- The classes in the guard band are those open now and not in the next entry (R355). -/
theorem getLsbD_closing (g : GateList) (i : Nat) {c : Nat} (hc : c < 8) :
    (g.closing i).getLsbD c = (bit (g.entries.getD i 0) (56 + c) && !bit (g.entries.getD ((i + 1) % g.entries.length) 0) (56 + c)) := by
  simp only [GateList.closing, BitVec.getLsbD_and, BitVec.getLsbD_not, getLsbD_openByte _ hc, hc, decide_true, Bool.true_and]

/-- Settles O42. -/
theorem egressGatesAndShapers : Obligations.egressGatesAndShapers := by
  refine ⟨fun l s hi hf => ⟨fun hb => ?_, fun hb => ⟨fun c rest hc => ?_, fun hc hq => ?_, fun q p rest hc hq he hn hp => ?_⟩⟩,
    fun l s hi => ⟨fun g t hg => ?_, fun g hg he => ⟨?_, fun hb hn hl => ?_, fun hb hn hl => ?_⟩, fun hf hw => ?_⟩⟩
  · simp only [exec, execEgressSelect, hb, Bool.and_false, Bool.false_eq_true, ↓reduceIte]
  · exact ⟨_, (exec_egressSelect hi hf hb).1 c rest hc, noted_countEv ..⟩
  · exact (exec_egressSelect hi hf hb).2.1 hc (bestQueue_none hq)
  · have e := (exec_egressSelect hi hf hb).2.2 q hc (bestQueue_eq hq he hn)
    rw [startPacket_eq l q s hp] at e
    exact ⟨_, e, noted_countEv ..⟩
  · simp only [exec, execGateListSwitch, hg, hi, Bool.true_and, decide_eq_true_eq]
  · exact exec_gateIntervalEnd hi hg
  · rw [exec_guardBandStart hi hg hb hn, if_neg (Nat.not_le.2 hl)]
  · refine ⟨g.closing (s.link l).gateEntry, ?_, fun c hc => getLsbD_closing g _ hc⟩
    rw [exec_guardBandStart hi hg hb hn, if_pos hl]
  · obtain ⟨credit, e, h⟩ := exec_shaperTick hi hf hw
    refine ⟨credit, e, fun c hc => ?_⟩
    rw [h c hc]
    simp only [creditStep, Bool.not_eq_true', Bool.and_eq_true, Bool.or_eq_true, decide_eq_true_eq]

end Sys2Proof
end

section
/-! PROOFS. Placement: pre-emption, the lives of clusters and text islands, and the ends of drains (R246, R284, R372 to R378, R422). -/

namespace Sys2Proof

open Machine Safety

/-! ### Pre-emption (R372, R373, R375) -/

theorem mayPreempt_iff {k : Nat} {c : DispatchCmd} {v : CoreCmd} {s : State} : s.mayPreempt k c v = true ↔
    s.placement.preemptEnable = true ∧ (v.cmd.tclass < c.tclass ∨ (s.urgent c = true ∧ s.urgent v.cmd = false)) ∧
      s.placement.minRemain.toNat < v.solo - (s.core k).now ∧ v.life.preempted < s.placement.preemptMax := by
  simp only [State.mayPreempt, Bool.and_eq_true, Bool.or_eq_true, Bool.not_eq_true', decide_eq_true_eq, and_assoc]

/-- Settles O43. -/
theorem preemption : Obligations.preemption := by
  intro k c s hup hs
  refine ⟨fun hc => ?_, fun v rest hc => ?_⟩
  · simp only [exec, execPreempt, hc]
  · intro may killed taken q apart
    have hmay : s.mayPreempt k c v = true ↔ may := mayPreempt_iff
    have hexec : exec (.preempt k c) s = .next (if s.mayPreempt k c v then preemptBy k c v s else s) := by
      simp only [exec, execPreempt, hc, hup, hs, Bool.true_and]
    have hplace : (dispatchOk killed k q && (decide (c.slotBase + q.slots ≤ v.cmd.slotBase) || decide (v.cmd.slotBase + v.slots ≤ c.slotBase))) = true ↔
        dispatchOk killed k q = true ∧ apart := by
      rw [Bool.and_eq_true, Bool.or_eq_true, decide_eq_true_eq, decide_eq_true_eq]
    refine ⟨fun hm => ?_, fun hm hn => ?_, fun hm hd ha => ?_⟩
    · rw [hexec, if_neg (mt hmay.1 hm)]
    · rw [hexec, if_pos (hmay.2 hm)]
      refine congrArg Host.Outcome.next (if_neg (mt hplace.1 ?_))
      rintro ⟨hd, ha⟩
      exact hn.elim (fun h => absurd hd (ne_true_of_eq_false h)) (absurd ha)
    · refine ⟨_, noted_countEv (idCluster (clusterOf k)) 2 4 1 { cmd := some v.cmd.cmdClass, tenant := some v.cmd.tenant } _, ?_⟩
      rw [hexec, if_pos (hmay.2 hm)]
      exact congrArg Host.Outcome.next (if_pos (hplace.2 ⟨hd, ha⟩))

/-! ### Clusters and text islands come up (R246, R376, R378, R422, R485) -/

section

variable {n : Nat} {s : State}

theorem exec_clusterReady (hn : n < 16) (hs : s.startable (idCluster n) = true) (hf : (s.cluster n).fn = .starting) :
    exec (.clusterReady n) s = .next (if (s.cluster n).abandon then backInService (idCluster n) (clusterOff n s)
      else if s.filling then s else clusterUpNow n s) := by
  simp only [exec, execClusterReady, hn, hs, hf, decide_true, Bool.and_self, ↓reduceIte]

theorem noted_clusterReady (n : Nat) (s : State) : Noted (s.modCluster n fun c => { c with fn := .ready }) (setClusterFn n .ready s) :=
  noted_setClusterFn n .ready s

/-- A text island whose Starting ends serves, or is Off where its enable was taken back (R411, R485). -/
theorem exec_textReady (hn : n < 4) (hs : s.startable (idText n) = true) (hf : (s.textIsl n).fn = .starting) (hw : twf {} s.texts = true) :
    ∃ u, exec (.textReady n) s = .next (backInService (idText n) u) ∧
      Noted (s.modText n fun t => if t.abandon then { t with abandon := false, cache := [], fn := .off } else { t with fn := .ready }) u := by
  refine ⟨if (s.textIsl n).abandon then textOff n s else setTextFn n .ready s, ?_, ?_⟩
  · simp only [exec, execTextReady, hn, hs, hf, decide_true, Bool.and_self, ↓reduceIte]
  · cases ha : (s.textIsl n).abandon
    · exact Noted_of_eq (noted_setTextFn n .ready s) (modText_congr (if_neg (ne_true_of_eq_false ha)).symm)
    · exact Noted_of_eq (noted_textOff n hw) (modText_congr (if_pos ha).symm)

/-! ### Ends of drains (R284, R376, R377) -/

variable (ha : s.alive = true)

include ha

theorem exec_drainEnd_cluster (hf : (s.cluster n).fn = .draining) : exec (.drainEnd (.cluster n)) s = .next (endClusterDrain n s) := by
  simp only [exec, execDrainEnd, ha, hf, Bool.not_true, Bool.false_eq_true, ↓reduceIte]

theorem exec_drainEnd_text (hf : (s.textIsl n).fn = .draining) : exec (.drainEnd (.text n)) s = .next (textOff n s) := by
  simp only [exec, execDrainEnd, ha, hf, Bool.not_true, Bool.false_eq_true, ↓reduceIte]

theorem exec_drainEnd_stack (hf : (s.stack n).fn = .draining) : exec (.drainEnd (.stack n)) s = .next (stackOff n s) := by
  simp only [exec, execDrainEnd, ha, hf, Bool.not_true, Bool.false_eq_true, ↓reduceIte]

theorem exec_drainEnd_link (hf : (s.link n).fn = .draining) : exec (.drainEnd (.link n)) s = .next (
    if (s.link n).replay = [] ∧ (s.link n).queued = [] then
      setLinkFn n .off (s.modLink n fun k => { k with control := [], wireClass := none }) else s) := by
  simp only [exec, execDrainEnd, ha, hf, Bool.not_true, Bool.false_eq_true, ↓reduceIte, decide_true, Bool.true_and, Bool.and_eq_true,
    decide_eq_true_eq]

theorem exec_drainEnd_model (hf : (s.model n).fn = .draining) : exec (.drainEnd (.model n)) s = .next (
    if s.modelUsers n = 0 then setModelFn n .off (releaseModel n s) else s) := by
  simp only [exec, execDrainEnd, ha, hf, Bool.not_true, Bool.false_eq_true, ↓reduceIte, decide_true, Bool.true_and, decide_eq_true_eq]

theorem exec_drainEnd_table (hf : (s.tableSlot n).fn = .draining) : exec (.drainEnd (.table n)) s = .next (
    if s.tableUsers n = 0 then setTableFn n .off s else s) := by
  simp only [exec, execDrainEnd, ha, hf, Bool.not_true, Bool.false_eq_true, ↓reduceIte, decide_true, Bool.true_and, decide_eq_true_eq]

end

/-- A cluster with no command left is in its new role, or Off (R284, R376). -/
theorem endClusterDrain_cases (n : Nat) (s : State) :
    ((∃ i < 16, (s.core (16 * n + i)).cmds ≠ []) → endClusterDrain n s = s) ∧
    ((∀ i < 16, (s.core (16 * n + i)).cmds = []) →
      ((s.cluster n).role = 3 ∧ (s.cluster n).abandon = false → endClusterDrain n s = clusterServes (setClusterFn n .ready
        ({ s with serving := { s.serving with roleChanges := s.serving.roleChanges + 1 } }.modCluster n fun c => { c with role := c.target }))) ∧
      (¬ ((s.cluster n).role = 3 ∧ (s.cluster n).abandon = false) → endClusterDrain n s = clusterOff n s)) := by
  have busy : ((List.range 16).any fun i => (s.core (16 * n + i)).cmds ≠ []) = true ↔ ∃ i < 16, (s.core (16 * n + i)).cmds ≠ [] := by
    simp only [List.any_eq_true, List.mem_range, decide_eq_true_eq]
  have turn : ((s.cluster n).role = 3 && !(s.cluster n).abandon) = true ↔ (s.cluster n).role = 3 ∧ (s.cluster n).abandon = false := by
    rw [Bool.and_eq_true, decide_eq_true_eq, Bool.not_eq_true']
  refine ⟨fun h => if_pos (busy.2 h), fun h => ?_⟩
  have idle := mt busy.1 fun ⟨i, hi, hc⟩ => hc (h i hi)
  exact ⟨fun hr => (if_neg idle).trans (if_pos (turn.2 hr)), fun hr => (if_neg idle).trans (if_neg (mt turn.1 hr))⟩

/-- A request that has waited too long for a function fails with 0140h (R377). -/
theorem exec_drainHoldTimeout {h : Word32} {s : State} (hup : s.hubUp = true) (hl : s.live h = true) (hw : twf {} s.slots = true)
    (hc : (s.slot (handleSlot h)).commitsSent = false) {since : Word64} (hs : (s.slot (handleSlot h)).heldSince = some since)
    (ht : s.placement.drainHold.toNat ≤ (s.time - since).toNat) :
    ∃ t, exec (.drainHoldTimeout h) s = .next t ∧ Aside (s.modSlot (handleSlot h) fun _ => endedSlot (handleSlot h) ssFailed 0x140 s) t := by
  refine ⟨_, ?_, aside_endRequest _ ssFailed 0x140 s hw (liveState_of_live hl) hc⟩
  have hlong : s.heldTooLong since = true := decide_eq_true ht
  simp only [exec, execDrainHoldTimeout, hs, hlong, hup, failRequest, hl, Bool.true_or, Bool.and_self, ↓reduceIte]
  rfl

/-- Settles O44. -/
theorem functionsComeUpAndDrain : Obligations.functionsComeUpAndDrain := by
  refine ⟨fun n s => ⟨fun hn hs hf hw => ⟨fun ha => ⟨_, ?_, noted_clusterOff n hw⟩, fun ha hfill => ?_, fun ha hfill => ⟨_, noted_clusterReady n _, ?_⟩⟩,
      exec_textReady, fun hf => ?_, fun hf => ?_⟩,
    fun n s ha => ⟨fun hf hw => ⟨fun hb => ?_, fun hb => ⟨fun hr => ?_, fun hr => ⟨_, ?_, noted_clusterOff n hw⟩⟩⟩,
      fun hf hw => ⟨_, exec_drainEnd_text ha hf, noted_textOff n hw⟩, fun hf hw => ?_, fun hf hw => ⟨fun hr hq => ?_, fun hb => ?_⟩,
      fun hf => ⟨fun hu => ⟨_, ?_, noted_setModelFn n .off _⟩, fun hu => ?_⟩, fun hf => ⟨fun hu => ⟨_, ?_, noted_setTableFn n .off _⟩, fun hu => ?_⟩,
      fun h hup hl hw hc => ⟨fun since hs ht => exec_drainHoldTimeout hup hl hw hc hs ht, fun hs hh => ?_⟩⟩⟩
  · rw [exec_clusterReady hn hs hf, if_pos ha]
  · rw [exec_clusterReady hn hs hf, if_neg (ne_true_of_eq_false ha), if_pos hfill]
  · rw [exec_clusterReady hn hs hf, if_neg (ne_true_of_eq_false ha), if_neg (ne_true_of_eq_false hfill)]
    rfl
  · simp only [exec, execClusterReady, hf, decide_false, Bool.and_false, Bool.false_eq_true, ↓reduceIte]
  · simp only [exec, execTextReady, hf, decide_false, Bool.and_false, Bool.false_eq_true, ↓reduceIte]
  · rw [exec_drainEnd_cluster ha hf, (endClusterDrain_cases n s).1 hb]
  · refine ⟨_, ?_, Noted_of_eq (noted_clusterReady n _)
      (modCluster_modCluster (s := { s with serving := { s.serving with roleChanges := s.serving.roleChanges + 1 } }) hw n
        (fun c => { c with role := c.target }) fun c => { c with fn := .ready })⟩
    rw [exec_drainEnd_cluster ha hf, ((endClusterDrain_cases n s).2 hb).1 hr]
    rfl
  · rw [exec_drainEnd_cluster ha hf, ((endClusterDrain_cases n s).2 hb).2 hr]
  · obtain ⟨u, e, h⟩ := stackOff_eq n hw
    exact ⟨u, by rw [exec_drainEnd_stack ha hf, e], h⟩
  · refine ⟨_, ?_, Noted_of_eq (noted_setLinkFn n .off (s.modLink n fun k => { k with control := [], wireClass := none })) (modLink_modLink hw ..)⟩
    rw [exec_drainEnd_link ha hf, if_pos ⟨hr, hq⟩]
  · rw [exec_drainEnd_link ha hf, if_neg fun h => hb.elim (absurd h.1) (absurd h.2)]
  · rw [exec_drainEnd_model ha hf, if_pos hu]
  · rw [exec_drainEnd_model ha hf, if_neg hu]
  · rw [exec_drainEnd_table ha hf, if_pos hu]
  · rw [exec_drainEnd_table ha hf, if_neg hu]
  · have hheld : (s.placement.held.any fun w => w.cmd.handle = some h && s.heldTooLong w.since) = false := by
      rw [List.any_eq_false]
      intro w hw
      simp only [Bool.and_eq_true, decide_eq_true_eq, State.heldTooLong, not_and]
      exact fun e => Nat.not_le.2 (hh w hw e)
    simp only [exec, execDrainHoldTimeout, hs, hheld, Bool.or_self, Bool.and_false, Bool.false_eq_true, ↓reduceIte]

end Sys2Proof
end

section
/-! PROOFS. The enables of R485 as lines of the entry tables. -/

namespace Sys2Proof

open Machine Safety

/-- What a write of value v to an enable's entry of unit n is answered and does, by the state of the function (R410, R485). -/
def EnableFollows (via : Carrier) (n : Nat) (v : Byte) (s : State) (r : EnableRow) : Prop :=
  (s.fwReady = false → Replies via r.index (n + 1) 3 0 r.cmd s s) ∧
  (s.fwReady = true →
    (v.toNat = 0 → r.mayStop = false → Replies via r.index (n + 1) 3 0 r.cmd s s) ∧
    (1 < v.toNat → r.mayStop = true → Replies via r.index (n + 1) 4 0 r.cmd s s) ∧
    (v.toNat = 1 →
      (r.fn = .off → Replies via r.index (n + 1) 0 0 r.cmd s (r.keep (r.start s))) ∧
      (r.fn = .starting ∨ r.fn = .ready → Replies via r.index (n + 1) 0 0 r.cmd s (r.keep s)) ∧
      (r.fn = .draining → r.index ≠ 0x7201 → Replies via r.index (n + 1) 3 0 r.cmd s s)) ∧
    (v.toNat = 0 → r.mayStop = true →
      (r.fn = .off → Replies via r.index (n + 1) 0 0 r.cmd s (r.keep s)) ∧
      (r.fn = .starting → Replies via r.index (n + 1) 0 0 r.cmd s (r.keep (r.abandon s))) ∧
      (r.fn = .ready → Replies via r.index (n + 1) 0 0 r.cmd s (r.keep (r.drain s))) ∧
      (r.fn = .draining → Replies via r.index (n + 1) 0 0 r.cmd s
        (if r.index = 0x2020 ∧ (s.cluster n).role = 3 then r.keep (r.abandon s) else r.keep s))))

/-- The answer to an enable's write and its effect, where an accepted value is kept in the entry. -/
def enableKept (keep : State → State) (a : Nat × State) : Nat × State := (a.1, if a.1 = 0 then keep a.2 else a.2)

/-! ### The lines of the enables -/

section

set_option maxRecDepth 8000

theorem lines_stackEnable : (dictionary.filter fun e => e.covers 0x4401) = [rwN 0x4401 12 tU8 .rw (fun s k => b1 (s.stack k).enable) always isBit
    fun k v s => resulted (enableStack k (v = 1) s)] := rfl

theorem lines_modelEnable : (dictionary.filter fun e => e.covers 0x7301) = [rwN 0x7301 16 tU8 .rw (fun s k => b1 (s.model k).enable) always isBit
    fun k v s => resulted (enableModel k (v = 1) s)] := rfl

theorem lines_tableEnable : (dictionary.filter fun e => e.covers 0x4502) = [rwN 0x4502 64 tU8 .rw (fun s k => b1 (s.tableSlot k).enable) always isBit
    fun k v s => resulted (writeTableEnable k (v = 1) s)] := rfl

theorem lines_linkEnable : (dictionary.filter fun e => e.covers 0x3001) = [rwN 0x3001 48 tU8 .rw (fun s k => b1 (s.link k).enable) always isBit
    fun k v s => resulted (enableLink k (v = 1) s)] := rfl

theorem lines_textEnable : (dictionary.filter fun e => e.covers 0x2022) = [rwN 0x2022 4 tU8 .rw (fun s k => b1 (s.textIsl k).enable) always isBit
    fun k v s => resulted (enableText k (v = 1) s)] := rfl

theorem lines_clusterEnable : (dictionary.filter fun e => e.covers 0x2020) = [rwN 0x2020 16 tU8 .rw (fun s k => b1 (s.cluster k).enable) always isBit
    fun k v s => resulted (writeClusterEnable k (v = 1) s)] := rfl

theorem lines_vocabEnable : (dictionary.filter fun e => e.covers 0x7201) = [rwN 0x7201 16 tU8 .rw (fun s k => b1 (s.vocab k).enable)
    (fun s k v => v ≠ 0 || !s.vocabNamed k) isBit fun k v s => resulted (enableVocab k (v = 1) s)] := rfl

end

/-! ### What their writes do -/

section

variable {via : Carrier} {n : Nat} {v : Byte} {s : State} {r : EnableRow} {get : State → Nat → Nat} {may : State → Nat → Nat → Bool}
  {set : Nat → Nat → State → WriteOut} (hc : s.carrierUp via = true) (hn : n < r.units)
  (he : exec r.cmd s = .next (writeUnit via r.index n 1 v.toNat s)) (hs : s.sees r.index = true)
  (hd : (dictionary.filter fun e => e.covers r.index) = [rwN r.index r.units tU8 .rw get may isBit set])
  (hu : r.units < 256) (hi : earlyEntry r.index (n + 1) = false) (hmay : may s n v.toNat = (v.toNat ≠ 0 || r.mayStop))

include hc hn he hs hd hu hi hmay

/-- An enable whose line follows R485's rule, but for a change of role that drains a cluster. -/
theorem enableFollows_of_special (special : Bool) (hrole : r.fn = .draining → (special = true ↔ r.index = 0x2020 ∧ (s.cluster n).role = 3))
    (hset : special = false → set n v.toNat s = resulted (enableKept r.keep (enableAct r.fn (v.toNat = 1) r.start r.abandon r.drain s)))
    (hsp : special = true → r.fn = .draining ∧ (v.toNat = 0 → set n v.toNat s = resulted (0, r.keep (r.abandon s))) ∧
      (v.toNat = 1 → set n v.toNat s = resulted (3, s))) :
    EnableFollows via n v s r := by
  obtain ⟨early, ready⟩ := replies_enable he hc hs hd v.isLt hn hu hi r.fn r.start r.abandon r.drain r.keep r.mayStop special hmay
    (fun _ h => by rw [hset h]; exact ⟨rfl, rfl, Noted.refl _⟩)
    (fun _ h => ⟨(hsp h).1, fun h0 => by rw [(hsp h).2.1 h0]; exact ⟨rfl, rfl, rfl⟩, fun h1 => by rw [(hsp h).2.2 h1]; exact ⟨rfl, rfl, rfl⟩⟩)
  refine ⟨early, fun hf => ?_⟩
  obtain ⟨kept, range, on, off⟩ := ready hf
  refine ⟨kept, range, fun h => ⟨(on h).1, (on h).2.1, fun hfn _ => (on h).2.2 hfn⟩, fun h hm => ?_⟩
  obtain ⟨isOff, isStarting, isReady, isDraining⟩ := off h hm
  refine ⟨isOff, isStarting, isReady, fun hfn => ?_⟩
  have k := isDraining hfn
  rwa [ite_congr_iff (hrole hfn)] at k

/-- An enable whose line follows R485's rule (its effect is enableAct's, and the entry keeps an accepted value). -/
theorem enableFollows_of_line (hindex : r.index ≠ 0x2020)
    (hset : set n v.toNat s = resulted (enableKept r.keep (enableAct r.fn (v.toNat = 1) r.start r.abandon r.drain s))) :
    EnableFollows via n v s r :=
  enableFollows_of_special hc hn he hs hd hu hi hmay false (fun _ => by simp [hindex]) (fun _ => hset) (fun h => absurd h Bool.false_ne_true)

end

section

variable {via : Carrier} {n : Nat} {v : Byte} {s : State} (hc : s.carrierUp via = true)

include hc

omit hc in
/-- CLUSTER_ENABLE but for a 0 written to a change of role that drains. -/
theorem writeClusterEnable_of_act {on : Bool} (h : ((s.cluster n).fn = .draining && (s.cluster n).role = 3 && !on) = false) :
    writeClusterEnable n on s = enableKept (fun s => s.modCluster n fun t => { t with enable := on })
      (enableAct (s.cluster n).fn on (startCluster n) (fun s => s.modCluster n fun t => { t with abandon := true }) (drainCluster n) s) := by
  unfold writeClusterEnable enableCluster
  dsimp only
  rw [if_neg (ne_true_of_eq_false h)]
  rfl

omit hc in
/-- CLUSTER_ENABLE of 0 to a change of role that drains. -/
theorem writeClusterEnable_of_change {on : Bool} (hon : on = false) (h : ((s.cluster n).fn = .draining && (s.cluster n).role = 3) = true) :
    writeClusterEnable n on s = (0, (s.modCluster n fun t => { t with abandon := true }).modCluster n fun t => { t with enable := on }) := by
  unfold writeClusterEnable enableCluster
  dsimp only
  rw [if_pos (by rw [h, hon]; rfl)]
  rfl

omit hc in
/-- CLUSTER_ENABLE of 1 to a cluster that drains. -/
theorem writeClusterEnable_of_draining {on : Bool} (hon : on = true) (h : (s.cluster n).fn = .draining) : writeClusterEnable n on s = (3, s) := by
  rw [writeClusterEnable_of_act (by rw [hon, Bool.not_true, Bool.and_false]), h, hon]
  rfl

/-- CLUSTER_ENABLE: a drain into another role becomes a drain to Off (R485). -/
theorem clusterEnable_follows (hn : n < 16) : EnableFollows via n v s
    { cmd := .clusterEnable via n v, index := 0x2020, units := 16, fn := (s.cluster n).fn
      start := startCluster n
      abandon := fun s => s.modCluster n fun t => { t with abandon := true }
      drain := drainCluster n
      keep := fun s => s.modCluster n fun t => { t with enable := decide (v.toNat = 1) } } := by
  refine enableFollows_of_special hc hn rfl (sees_plain (index := 0x2020) (by decide)) lines_clusterEnable
      (show (16 : Nat) < 256 by decide) (show earlyEntry 0x2020 (n + 1) = false by simp [earlyEntry]) (by simp [always])
    ((s.cluster n).fn = .draining && (s.cluster n).role = 3) (fun hf => ?_)
    (fun h => ?_) (fun h => ?_)
  · simp [show (s.cluster n).fn = .draining from hf]
  · have act := writeClusterEnable_of_act (on := v.toNat = 1) (by rw [h, Bool.false_and])
    show resulted (writeClusterEnable n (v.toNat = 1) s) = _
    rw [act]
  · refine ⟨of_decide_eq_true (Bool.and_eq_true_iff.1 h).1, fun hv => ?_, fun hv => ?_⟩
    · exact congrArg resulted (writeClusterEnable_of_change (decide_eq_false (by omega)) h)
    · exact congrArg resulted (writeClusterEnable_of_draining (decide_eq_true hv) (of_decide_eq_true (Bool.and_eq_true_iff.1 h).1))

/-- VOCAB_ENABLE: a vocabulary drains at once, so what a write to a draining one does is open. -/
theorem vocabEnable_follows (hn : n < 16) : EnableFollows via n v s
    { cmd := .vocabEnable via n v, index := 0x7201, units := 16, fn := (s.vocab n).fn
      mayStop := !s.vocabNamed n
      start := setVocabFn n .starting
      abandon := fun s => s.modVocab n fun t => { t with abandon := true }
      drain := setVocabFn n .off
      keep := fun s => s.modVocab n fun t => { t with enable := decide (v.toNat = 1) } } := by
  by_cases h : v.toNat = 1 ∧ (s.vocab n).fn = .draining
  · obtain ⟨hv, hf⟩ := h
    obtain ⟨early, -⟩ := replies_rwN (c := .vocabEnable via n v) (len := 1) rfl hc (sees_plain (by decide)) lines_vocabEnable (by decide) rfl
      v.isLt (by decide) hn (by decide) (by simp [earlyEntry])
    simp only [EnableFollows, hv, hf]
    exact ⟨early, by simp⟩
  · refine enableFollows_of_line hc hn rfl (sees_plain (index := 0x7201) (by decide)) lines_vocabEnable
      (show (16 : Nat) < 256 by decide) (show earlyEntry 0x7201 (n + 1) = false by simp [earlyEntry]) rfl
      (show (0x7201 : Nat) ≠ 0x2020 by decide) ?_
    have accepted : (enableAct (s.vocab n).fn (v.toNat = 1) (setVocabFn n .starting) (fun s => s.modVocab n fun t => { t with abandon := true })
        (setVocabFn n .off) s).1 = 0 := by
      cases hf : (s.vocab n).fn <;> by_cases hv : v.toNat = 1 <;> simp_all [enableAct]
    show resulted (enableVocab n (v.toNat = 1) s) = _
    unfold enableVocab enableKept
    dsimp only
    rw [if_pos accepted]

end

/-- Settles O45: each enable has one line of the tables, and its effect is R485's rule on its function. -/
theorem enablesFollowTheState : Obligations.enablesFollowTheState := by
  intro via n v s hc r hr hn
  unfold enableRows at hr
  simp only [List.mem_cons, List.not_mem_nil, or_false] at hr
  rcases hr with rfl | rfl | rfl | rfl | rfl | rfl | rfl
  · exact enableFollows_of_line hc hn rfl (sees_plain (index := 0x4401) (by decide)) lines_stackEnable
      (show (12 : Nat) < 256 by decide) (show earlyEntry 0x4401 (n + 1) = false by simp [earlyEntry]) (by simp [always])
      (show (0x4401 : Nat) ≠ 0x2020 by decide) rfl
  · exact enableFollows_of_line hc hn rfl (sees_plain (index := 0x7301) (by decide)) lines_modelEnable
      (show (16 : Nat) < 256 by decide) (show earlyEntry 0x7301 (n + 1) = false by simp [earlyEntry]) (by simp [always])
      (show (0x7301 : Nat) ≠ 0x2020 by decide) rfl
  · exact enableFollows_of_line hc hn rfl (sees_plain (index := 0x4502) (by decide)) lines_tableEnable
      (show (64 : Nat) < 256 by decide) (show earlyEntry 0x4502 (n + 1) = false by simp [earlyEntry]) (by simp [always])
      (show (0x4502 : Nat) ≠ 0x2020 by decide) rfl
  · exact enableFollows_of_line hc hn rfl (sees_plain (index := 0x3001) (by decide)) lines_linkEnable
      (show (48 : Nat) < 256 by decide) (show earlyEntry 0x3001 (n + 1) = false by simp [earlyEntry]) (by simp [always])
      (show (0x3001 : Nat) ≠ 0x2020 by decide) rfl
  · exact enableFollows_of_line hc hn rfl (sees_plain (index := 0x2022) (by decide)) lines_textEnable
      (show (4 : Nat) < 256 by decide) (show earlyEntry 0x2022 (n + 1) = false by simp [earlyEntry]) (by simp [always])
      (show (0x2022 : Nat) ≠ 0x2020 by decide) rfl
  · exact clusterEnable_follows hc hn
  · exact vocabEnable_follows hc hn

end Sys2Proof
end

section
/-! PROOFS. The entries of rings, jobs, corpora's floors and templates (R33, R66, R83, R87, R90, R160). -/

namespace Sys2Proof

open Machine Safety

/-! ### Their lines -/

section

set_option maxRecDepth 8000

theorem lines_ringEnable : (dictionary.filter fun e => e.covers 0x7014) = [rwN 0x7014 64 tU8 .rw (fun s k => b1 (s.ring k).enable) always isBit
    fun k v s => wrote (enableRing k (v = 1) s)] := rfl

theorem line_jobRelease : (dictionary.filter fun e => e.covers 0x4121).find? (fun e => e.slo ≤ 4 && 4 ≤ e.shi) =
    some (wo 0x4121 4 tU8 anyVal fun v s => wrote (releaseJob v s)) := rfl

theorem lines_templateEnable : (dictionary.filter fun e => e.covers 0x7212) = [rwN 0x7212 64 tU8 .rw (fun s k => b1 (s.template k).enable) always isBit
    fun k v s => ruled (enableTemplate k (v = 1) s)] := rfl

end

theorem isBit_of_le {v : Nat} (h : v ≤ 1) : isBit v = true := decide_eq_true h

theorem not_isBit_of_lt {v : Nat} (h : 1 < v) : isBit v = false := decide_eq_false (Nat.not_le.2 h)

/-! ### What their writes do -/

section

variable {via : Carrier} {n : Nat} {v : Byte} {s : State} (hc : s.carrierUp via = true) (hf : s.fwReady = true)

include hc hf

/-- RING_ENABLE: from 0 to 1 the ring's counts start at 0 (R33, R66). -/
theorem replies_ringEnable (hn : n < 64) :
    (v.toNat ≤ 1 → Replies via 0x7014 (n + 1) 0 0 (.ringEnable via n v) s (s.modRing n fun r =>
      if v.toNat = 1 ∧ r.enable = false then { r with enable := true, head := 0, tail := 0 } else { r with enable := v.toNat = 1 })) ∧
    (1 < v.toNat → Replies via 0x7014 (n + 1) 4 0 (.ringEnable via n v) s s) := by
  obtain ⟨-, -, range, done⟩ := replies_rwN (c := .ringEnable via n v) (len := 1) rfl hc (sees_plain (by decide)) lines_ringEnable
    (by decide) rfl v.isLt (by decide) hn (by decide) (by simp [earlyEntry])
  refine ⟨fun hv => done _ hf rfl (isBit_of_le hv) (Noted_of_eq (Noted.refl _) ?_), fun hv => range hf rfl (not_isBit_of_lt hv)⟩
  show enableRing n (v.toNat = 1) s = _
  unfold enableRing
  simp only [Bool.and_eq_true, decide_eq_true_eq, Bool.not_eq_true']

/-- JOB_RELEASE: a job slot's generation alone stays of a job that has ended (R83, R90). -/
theorem replies_jobRelease : Replies via 0x4121 4 0 0 (.jobRelease via v) s
    (if v.toNat < 16 ∧ ((s.job v.toNat).state = .done ∨ (s.job v.toNat).state = .failed) then s.modJob v.toNat fun j => { gen := j.gen } else s) := by
  obtain ⟨-, -, done⟩ := replies_line (c := .jobRelease via v) rfl hc (sees_plain (by decide)) hf line_jobRelease (by decide) (by decide) rfl rfl rfl rfl
  refine done _ rfl rfl (Noted_of_eq (Noted.refl _) ?_)
  show releaseJob (leNat [v]) s = _
  rw [leNat_one]
  rfl

/-- TEMPLATE_ENABLE: 0 disables, and 1 enables a template that passes its check (R160). -/
theorem replies_templateEnable (hn : n < 64) {code : Word16} {u : State} (hv : v.toNat ≤ 1) (h : enableTemplate n (v.toNat = 1) s = (code, u)) :
    Replies via 0x7212 (n + 1) (if code = 0 then 0 else 6) code (.templateEnable via n v) s u := by
  obtain ⟨-, -, -, done⟩ := replies_rwN (c := .templateEnable via n v) (len := 1) rfl hc (sees_plain (by decide)) lines_templateEnable
    (by decide) rfl v.isLt (by decide) hn (by decide) (by simp [earlyEntry])
  have reply := done _ hf rfl (isBit_of_le hv) (Noted.refl _)
  rwa [h] at reply

end

section

variable {n : Nat} {on : Bool} {s : State}

theorem enableTemplate_off (hon : on = false) : enableTemplate n on s = (0, s.modTemplate n fun t => { t with enable := false }) := by
  subst hon; rfl

theorem enableTemplate_kept (hon : on = true) (h : (s.template n).enable = true) : enableTemplate n on s = (0, s) := by
  subst hon
  exact if_pos h

theorem enableTemplate_passed (hon : on = true) (h : (s.template n).enable = false) (hcheck : templateCheck s n = 0) :
    enableTemplate n on s = (0, (checkReads (tplReads s n) s).modTemplate n fun t =>
      { t with enable := true, code := 0, head := recW s t.desc.toNat 8 }) := by
  simp only [enableTemplate, hon, h, hcheck, Bool.not_true, Bool.false_eq_true, decide_true, ↓reduceIte]

theorem enableTemplate_refused (hon : on = true) (h : (s.template n).enable = false) (hcheck : templateCheck s n ≠ 0) :
    enableTemplate n on s = (templateCheck s n, (checkReads (tplReads s n) s).modTemplate n fun t =>
      { t with enable := false, code := templateCheck s n }) := by
  simp only [enableTemplate, hon, h, hcheck, Bool.not_true, Bool.false_eq_true, decide_false, ↓reduceIte]

end

/-- Settles O46: each entry's line of the tables, and its rule by cases. -/
theorem entriesOfRequests : Obligations.entriesOfRequests := by
  intro via n s hc hf
  refine ⟨fun v hn => replies_ringEnable hc hf hn, fun v => replies_jobRelease hc hf, fun f hn => ?_, fun v hn => ⟨fun hv => ?_, fun hv he => ?_,
    fun hv he hcheck => ?_, fun hv he hcheck => ?_⟩⟩
  · split
    case isTrue h => exact epochFloor_moves_floor hc hf hn h
    case isFalse h => exact epochFloor_answers_0314h hc hf hn h
  · have reply := replies_templateEnable (v := v) hc hf hn (by omega) (enableTemplate_off (decide_eq_false (by omega)))
    rwa [if_pos rfl] at reply
  · have reply := replies_templateEnable (v := v) hc hf hn (by omega) (enableTemplate_kept (decide_eq_true hv) he)
    rwa [if_pos rfl] at reply
  · have reply := replies_templateEnable (v := v) hc hf hn (by omega) (enableTemplate_passed (decide_eq_true hv) he hcheck)
    rwa [if_pos rfl] at reply
  · have reply := replies_templateEnable (v := v) hc hf hn (by omega) (enableTemplate_refused (decide_eq_true hv) he hcheck)
    rwa [if_neg hcheck] at reply

end Sys2Proof
end

section
/-! PROOFS. The entries of table slots, roles and hinges (R267, R284, R312 to R314). -/

namespace Sys2Proof

open Machine Safety

/-! ### Their lines -/

section

set_option maxRecDepth 8000

theorem lines_tableAdvance : (dictionary.filter fun e => e.covers 0x4505) = [woN 0x4505 64 tU32 fun k v s => ruled (advanceTable k v s)] := rfl

theorem lines_tableFloor : (dictionary.filter fun e => e.covers 0x4506) =
    [rwN 0x4506 64 tU32 .rw (fun s k => (s.tableSlot k).floor.toNat) always anyVal fun k v s => ruled (raiseTableFloor k v s)] := rfl

theorem lines_tableSeal : (dictionary.filter fun e => e.covers 0x4508) = [woN 0x4508 64 tU32 fun k v s => ruled (sealTable k v s)] := rfl

theorem lines_tableInstall : (dictionary.filter fun e => e.covers 0x450A) =
    [rwBN 0x450A 64 16 .wo (fun _ _ => []) (fun _ _ => true) (fun v => leNat ((v.drop 4).take 4) = 0)
      fun k v s => ruled (installTable k (leNat (v.take 4)) (leNat (v.drop 8)) s)] := rfl

theorem lines_rolePin : (dictionary.filter fun e => e.covers 0x7311) =
    [rwN 0x7311 16 tU8 .rw (fun s k => (s.cluster k).pin) always (within 0 2) fun k v s => wrote (pinRole k v s)] := rfl

theorem line_hingeInstall : (dictionary.filter fun e => e.covers 0x4405).find? (fun e => e.slo ≤ 1 && 1 ≤ e.shi) =
    some (wo 0x4405 1 tU64 (fun v => hingeForm (BitVec.ofNat 64 v)) fun v s => wrote (installHinge (BitVec.ofNat 64 v) s)) := rfl

end

/-! ### Answers by an entry's own rule -/

section

variable {via : Carrier} {index n units : Nat} {v : Word32} {c : Instr} {s u : State} {rule : Nat → Nat → State → Word16 × State} {code : Word16}
  (he : exec c s = .next (writeUnit via index n 4 v.toNat s)) (hc : s.carrierUp via = true) (hf : s.fwReady = true) (hs : s.sees index = true)
  (hd : (dictionary.filter fun e => e.covers index) = [woN index units tU32 fun k v s => ruled (rule k v s)]) (hn : n < units) (hu : units < 256)

include he hc hf hs hd hn hu

/-- A write of a word to a line of write-only entries is answered with what the entry's rule gives. -/
theorem replies_woN (h : rule n v.toNat s = (code, u)) : Replies via index (n + 1) (if code = 0 then 0 else 6) code c s u := by
  have hline := find_units hd rfl rfl hn
  have hset : (woN index units tU32 fun k v s => ruled (rule k v s)).set
      ((woN index units tU32 fun k v s => ruled (rule k v s)).place index (n + 1) 0) (leBytes 4 v.toNat) s = ruled (code, u) := by
    rw [← h]
    simp only [woN, rwLine, Ent.place, leNat_32, Nat.add_sub_cancel]
  obtain ⟨-, -, done⟩ := replies_line (exec_unit he (by omega)) hc hs hf hline (Nat.succ_ne_zero n) (by simp [woN, rwLine])
    (fits_leBytes (t := tU32) (by decide)) rfl rfl hset
  exact done u rfl rfl (Noted.refl u)

theorem replies_woN_accepted (h : rule n v.toNat s = (0, u)) : Replies via index (n + 1) 0 0 c s u := by
  have reply := replies_woN he hc hf hs hd hn hu h
  rwa [if_pos rfl] at reply

theorem replies_woN_refused (h : rule n v.toNat s = (code, u)) (hcode : code ≠ 0) : Replies via index (n + 1) 6 code c s u := by
  have reply := replies_woN he hc hf hs hd hn hu h
  rwa [if_neg hcode] at reply

end

/-! ### Table slots -/

section

variable {via : Carrier} {n : Nat} {v : Word32} {s : State} (hc : s.carrierUp via = true) (hf : s.fwReady = true) (hn : n < 64)

/-- What R313 asks of a version to advance to: above CURRENT, and sealed. -/
theorem advanceTable_accepted (h : (s.tableSlot n).current.toNat < v.toNat ∧ v.toNat ≤ (s.tableSlot n).sealed.toNat) :
    advanceTable n v.toNat s = (0, tableCode n 0 (s.modTable n fun t => { t with current := v })) := by
  simp only [advanceTable, ofNat_32]
  exact if_pos h

theorem raiseTableFloor_accepted (h : (s.tableSlot n).floor.toNat ≤ v.toNat ∧ v.toNat ≤ (s.tableSlot n).current.toNat ∧ v.toNat ≤ s.tableHeld n) :
    raiseTableFloor n v.toNat s = (0,
      (if s.tableUp n then (floorPages s n (s.tableSlot n).floor.toNat v.toNat).filter fun p => (s.page p).kind.written else []).foldl
        (fun s p => freePage p s) (s.modTable n fun t => { t with floor := v })) := by
  simp only [raiseTableFloor, ofNat_32]
  exact if_pos h

include hc hf hn

theorem replies_tableAdvance :
    if (s.tableSlot n).current.toNat < v.toNat ∧ v.toNat ≤ (s.tableSlot n).sealed.toNat
      then Replies via 0x4505 (n + 1) 0 0 (.tableAdvance via n v) s (tableCode n 0 (s.modTable n fun t => { t with current := v }))
      else Replies via 0x4505 (n + 1) 6 0x346 (.tableAdvance via n v) s (tableCode n 0x346 s) := by
  split
  case isTrue h =>
    exact replies_woN_accepted (c := .tableAdvance via n v) rfl hc hf (sees_plain (by decide)) lines_tableAdvance hn (by decide) (advanceTable_accepted h)
  case isFalse h =>
    exact replies_woN_refused (c := .tableAdvance via n v) rfl hc hf (sees_plain (by decide)) lines_tableAdvance hn (by decide) (if_neg h) (by decide)

theorem replies_tableFloor :
    if (s.tableSlot n).floor.toNat ≤ v.toNat ∧ v.toNat ≤ (s.tableSlot n).current.toNat ∧ v.toNat ≤ s.tableHeld n
      then Replies via 0x4506 (n + 1) 0 0 (.tableFloor via n v) s
        ((if s.tableUp n then (floorPages s n (s.tableSlot n).floor.toNat v.toNat).filter fun p => (s.page p).kind.written else []).foldl
          (fun s p => freePage p s) (s.modTable n fun t => { t with floor := v }))
      else Replies via 0x4506 (n + 1) 6 0x314 (.tableFloor via n v) s s := by
  obtain ⟨-, -, -, done⟩ := replies_rwN (c := .tableFloor via n v) (len := 4) rfl hc (sees_plain (by decide)) lines_tableFloor
    (by decide) rfl v.isLt (by decide) hn (by decide) (by simp [earlyEntry])
  have reply := done _ hf rfl rfl (Noted.refl _)
  split
  case isTrue h => rwa [raiseTableFloor_accepted h] at reply
  case isFalse h => rwa [show raiseTableFloor n v.toNat s = (0x314, s) from if_neg h] at reply

end

section

variable {n v root : Nat} {s : State}

/-- The four conditions of R312 under which a version is sealed. -/
theorem sealTable_refused (h : s.tableUp n = false ∨ tblHotHome (s.tblHeadOf n) ≠ s.deviceId ∨ v ≠ (s.tableSlot n).sealed.toNat + 1 ∨
    (s.tableSlot n).sealing.isSome = true) : sealTable n v s = (0x346, tableCode n 0x346 s) :=
  if_pos (by simpa using h)

/-- The devices that a seal of the table of slot n asks for their shards. -/
def sealDevices (n : Nat) (s : State) : List Nat := if tblSharded (s.tblHeadOf n) then s.shardDevices n else []

/-- The table's state as the sealing of v begins. -/
def sealingState (n v : Nat) (s : State) : State := tableCode n 0 (s.modTable n fun t => { t with sealing := some v, reports := sealDevices n s })

theorem sealTable_accepted (hup : s.tableUp n = true) (hhome : tblHotHome (s.tblHeadOf n) = s.deviceId)
    (hv : v = (s.tableSlot n).sealed.toNat + 1) (hfree : (s.tableSlot n).sealing = none) :
    sealTable n v s = (0, if sealDevices n s = []
      then broadcastReplica n v ((sealingState n v s).modTable n fun t => { t with marked := some v, reported := true })
      else (sealDevices n s).foldl (fun s d => sendTable d [msgW0 6 0 0, tmW1 s n .replace 0, BitVec.ofNat 64 v] false s) (sealingState n v s)) := by
  refine (if_neg (by simp [hup, hhome, hv, hfree])).trans ?_
  exact (apply_ite (Prod.mk (0 : Word16)) (sealDevices n s = []) _ _).symm

/-- What R314 asks of a root to install as version v. -/
def InstallFits (n v root : Nat) (s : State) : Prop :=
  s.tableUp n = true ∧ v = (s.tableSlot n).sealed.toNat + 1 ∧ (s.tableSlot n).busy = false ∧ root % 4096 = 0 ∧ readable s root 128 = true ∧
    rootOk (s.tblHeadOf n) (recW s root 16) = true ∧ tvrVersion (recW s root 16) = v ∧ tvrPrev (recW s root 16) = s.rootNow (s.tblHeadOf n)

section

variable {s' : State} (hs' : awaitCopy (tblHead (s.tblHeadOf n)) s = s')

include hs'

theorem installTable_refused (h : ¬ InstallFits n v root s') : installTable n v root s = (0x345, tableCode n 0x345 s') := by
  subst hs'
  exact if_neg (by simpa [InstallFits, and_assoc] using h)

theorem installTable_headless (h : InstallFits n v root s') (hhead : ¬ readable s' (tblHead (s'.tblHeadOf n)) 8 = true) :
    installTable n v root s = (0x311, tableCode n 0x311 s') := by
  subst hs'
  exact (if_pos (by simpa [InstallFits, and_assoc] using h)).trans (if_pos (by simpa using hhead))

theorem installTable_accepted (h : InstallFits n v root s') (hhead : readable s' (tblHead (s'.tblHeadOf n)) 8 = true) :
    installTable n v root s = (0, tableCode n 0 (noteSealed n v
      ((rewriteIn s' (tblHead (s'.tblHeadOf n)) (leBytes 8 root) (touch [(root, 128)] s')).modTable n fun t => { t with built := v, moving := [] }))) := by
  subst hs'
  exact (if_pos (by simpa [InstallFits, and_assoc] using h)).trans (if_neg (by simpa using hhead))

end

end

section

variable {via : Carrier} {n : Nat} {v : Word32} {s : State} (hc : s.carrierUp via = true) (hf : s.fwReady = true)

include hc hf

/-- A write of TABLE_INSTALL is answered with what R314's rule gives it. -/
theorem replies_tableInstall (hn : n < 64) {root : Word64} {code : Word16} {u : State} (h : installTable n v.toNat root.toNat s = (code, u)) :
    Replies via 0x450A (n + 1) (if code = 0 then 0 else 6) code (.tableInstall via n v root) s u := by
  obtain ⟨hversion, hgap, hroot⟩ := install_bytes v root
  have hset : ruled (installTable n (leNat ((leBytes 16 (v.toNat + 2 ^ 64 * root.toNat)).take 4))
      (leNat ((leBytes 16 (v.toNat + 2 ^ 64 * root.toNat)).drop 8)) s) = ruled (code, u) := by
    rw [hversion, hroot, h]
  obtain ⟨-, -, done⟩ := replies_line (o := true) (exec_unit (c := .tableInstall via n v root) (len := 16) rfl (by omega)) hc
    (sees_plain (by decide)) hf (find_units lines_tableInstall rfl rfl hn) (Nat.succ_ne_zero n) (by decide)
    (fits_leBytes (t := tBytes 16) (by decide)) rfl (decide_eq_true hgap) hset
  exact done u rfl rfl (Noted.refl u)

/-- ROLE_PIN: the pin, and the role it asks for (R284). -/
theorem replies_rolePin (hn : n < 16) {v : Byte} :
    (v.toNat = 0 → Replies via 0x7311 (n + 1) 0 0 (.rolePin via n v) s (s.modCluster n fun x => { x with pin := 0 })) ∧
    (v.toNat = 1 ∨ v.toNat = 2 → Replies via 0x7311 (n + 1) 0 0 (.rolePin via n v) s
      (changeRole n v.toNat (s.modCluster n fun x => { x with pin := v.toNat }))) ∧
    (2 < v.toNat → Replies via 0x7311 (n + 1) 4 0 (.rolePin via n v) s s) := by
  obtain ⟨-, -, range, done⟩ := replies_rwN (c := .rolePin via n v) (len := 1) rfl hc (sees_plain (by decide)) lines_rolePin
    (by decide) rfl v.isLt (by decide) hn (by decide) (by simp [earlyEntry])
  have reply (hv : v.toNat ≤ 2) := done _ hf rfl (by simpa [within] using hv) (Noted.refl (pinRole n v.toNat s))
  refine ⟨fun hv => ?_, fun hv => ?_, fun hv => range hf rfl (by simpa [within] using hv)⟩
  · exact Replies_of_eq (reply (by omega)) (by rw [hv]; rfl)
  · exact Replies_of_eq (reply (by omega)) (if_neg (by omega))

/-- HINGE_INSTALL: a value of bad form is out of its range; any other is installed (R267). -/
theorem replies_hingeInstall {v : Word64} :
    (hingeForm v = false → Replies via 0x4405 1 4 0 (.hingeInstall via v) s s) ∧
    (hingeForm v = true → Replies via 0x4405 1 0 0 (.hingeInstall via v) s (installHinge v s)) := by
  have hform : hingeForm (BitVec.ofNat 64 (leNat (leBytes 8 v.toNat))) = hingeForm v := by rw [leNat_64, ofNat_64]
  obtain ⟨-, range, done⟩ := replies_line (c := .hingeInstall via v) rfl hc (sees_plain (by decide)) hf line_hingeInstall (by decide) (by decide)
    (fits_leBytes (t := tU64) (by decide)) rfl hform rfl
  refine ⟨fun h => range rfl h, fun h => done _ rfl h (Noted_of_eq (Noted.refl _) ?_)⟩
  show installHinge (BitVec.ofNat 64 (leNat (leBytes 8 v.toNat))) s = installHinge v s
  rw [leNat_64, ofNat_64]

end

/-! ### Hinge installs -/

section

variable {k row : Nat} {s : State}

/-- The row has an entry already, or is none of the core's (R267). -/
def RowTaken (k row : Nat) (s : State) : Prop := 98304 ≤ row ∨ (s.core k).hinge.any (fun e => e.2.valid && e.2.row = row) = true

theorem installRow_of_taken (h : RowTaken k row s) : installRow k row s = hingeDone 0x323 s := if_pos h

theorem installRow_of_full (h : ¬ RowTaken k row s) (hfree : (List.range 8).find? (fun j => !(tget {} (s.core k).hinge j).valid) = none) :
    installRow k row s = hingeDone 0x322 s := by
  refine (if_neg h).trans ?_
  unfold freeEntry
  rw [hfree]

/-- The core after its row has gone to the spare line of entry j. -/
def rowMoved (k row j : Nat) (s : State) : State := (if (s.core k).rowValid row then decodeRow k row s else s).modCore k (moveRow row j)

theorem installRow_of_idle {j : Nat} (h : ¬ RowTaken k row s) (hfree : (List.range 8).find? (fun j => !(tget {} (s.core k).hinge j).valid) = some j)
    (hidle : (s.core k).runs = []) : installRow k row s = hingeDone 0 (notable k 9 j (rowMoved k row j s)) := by
  refine (if_neg h).trans ?_
  unfold freeEntry
  rw [hfree]
  dsimp only
  rw [if_pos hidle]
  rfl

theorem installRow_of_running {j : Nat} (h : ¬ RowTaken k row s) (hfree : (List.range 8).find? (fun j => !(tget {} (s.core k).hinge j).valid) = some j)
    (hrun : (s.core k).runs ≠ []) : ∃ m, m ≤ 2 ∧ installRow k row s = hingeDone 0 (notable k 9 j
      (((rowMoved k row j s).modHub fun h => { h with freeUsed := h.freeUsed + 1 }).modCore k fun c =>
        { c with freezes := tmod 0 c.freezes (bankOf row) (· + BitVec.ofNat 64 m) })) := by
  refine ⟨(rowMoved k row j s).fresh.1.toNat % 3, by omega, ?_⟩
  refine (if_neg h).trans ?_
  unfold freeEntry
  rw [hfree]
  dsimp only
  rw [if_neg hrun]
  rfl

/-- The page has an entry already, or is a spare page (R267). -/
def PageTaken (m page : Nat) (s : State) : Prop := 0xF80000 ≤ page ∨ (s.stack m).hinge.any (fun e => e.2.valid && e.2.page = page) = true

theorem installPage_of_taken {m page : Nat} (h : PageTaken m page s) : installPage m page s = hingeDone 0x323 s := if_pos h

theorem installPage_of_full {m page : Nat} (h : ¬ PageTaken m page s)
    (hfree : (List.range 16).find? (fun j => !(tget {} (s.stack m).hinge j).valid) = none) : installPage m page s = hingeDone 0x322 s := by
  refine (if_neg h).trans ?_
  unfold freeEntry
  rw [hfree]

/-- A page's install as it begins: its entry copies. -/
def pageInstalling (m page j : Nat) (s : State) : State :=
  modHbm (fun h => { h with hingeResult := 0xFFFF, hingeTarget := some (m, j) })
    (s.modStack m fun t => { t with hinge := tset {} t.hinge j ⟨true, 1, false, page⟩ })

theorem installPage_of_free {m page j : Nat} (h : ¬ PageTaken m page s)
    (hfree : (List.range 16).find? (fun j => !(tget {} (s.stack m).hinge j).valid) = some j) : installPage m page s =
      if ((s.page (2 ^ 24 * m + page)).kind.written && !(s.stack m).fromOff) = true then pageInstalling m page j s
      else hingeActive m j false (pageInstalling m page j s) := by
  refine (if_neg h).trans ?_
  unfold freeEntry
  rw [hfree]
  rfl

end

theorem installHinge_of_core {v : Word64} {s : State} (h : bits v 63 55 < 0x100) :
    installHinge v s = installRow (bits v 63 55) (bits v 16 0) (dropHingeCopy (endHingeCopy s)) := if_pos h

theorem installHinge_of_memory {v : Word64} {s : State} (h : ¬ bits v 63 55 < 0x100) :
    installHinge v s = installPage (bits v 63 55 - 0x110) (bits v 35 12) (dropHingeCopy (endHingeCopy s)) := if_neg h

theorem noted_noteSealed (n : Nat) (v : Word32) (s : State) : Noted (s.modTable n fun t => { t with sealed := v }) (noteSealed n v.toNat s) := by
  unfold noteSealed
  rw [ofNat_32]
  exact noted_raiseEvent ..

/-- Settles O47: each entry's line of the tables, and its rule by cases. -/
theorem entriesOfTablesAndHinges : Obligations.entriesOfTablesAndHinges := by
  intro via n s hc hf
  refine ⟨fun hn => ⟨fun v => replies_tableAdvance hc hf hn, fun f => replies_tableFloor hc hf hn, fun v => ⟨fun h => ?_, fun hup hhome hv hfree => ?_⟩,
    fun v root => ⟨fun good hhead => ?_, fun good hhead => ?_, fun bad => ?_⟩⟩, fun v hn => replies_rolePin hc hf hn,
    fun v => ⟨(replies_hingeInstall hc hf).1, fun hv => ⟨_, (replies_hingeInstall hc hf).2 hv, ?_⟩⟩⟩
  · exact replies_woN_refused (c := .tableSeal via n v) rfl hc hf (sees_plain (by decide)) lines_tableSeal hn (by decide) (sealTable_refused h) (by decide)
  · exact replies_woN_accepted (c := .tableSeal via n v) rfl hc hf (sees_plain (by decide)) lines_tableSeal hn (by decide)
      (sealTable_accepted hup hhome hv hfree)
  · have reply := replies_tableInstall hc hf hn (installTable_accepted rfl good hhead)
    rw [if_pos rfl] at reply
    exact ⟨_, reply, noted_noteSealed ..⟩
  · have reply := replies_tableInstall hc hf hn (installTable_headless rfl good hhead)
    rwa [if_neg (by decide)] at reply
  · have reply := replies_tableInstall hc hf hn (installTable_refused rfl bad)
    rwa [if_neg (by decide)] at reply
  · dsimp only
    split
    case isTrue hi =>
      rw [installHinge_of_core hi]
      split
      case isTrue h => exact installRow_of_taken h
      case isFalse h =>
        split
        case h_1 hfree => exact installRow_of_full h hfree
        case h_2 j hfree =>
          split
          case isTrue hidle => exact installRow_of_idle h hfree hidle
          case isFalse hrun => exact installRow_of_running h hfree hrun
    case isFalse hi =>
      rw [installHinge_of_memory hi]
      split
      case isTrue h => exact installPage_of_taken h
      case isFalse h =>
        split
        case h_1 hfree => exact installPage_of_full h hfree
        case h_2 j hfree => exact installPage_of_free h hfree

end Sys2Proof
end

section
/-! PROOFS. The entries of the keyring and of traffic control (R342 to R364). -/

namespace Sys2Proof

open Machine Safety

/-! ### Their lines -/

section

set_option maxRecDepth 8000

theorem line_keyringDir : (dictionary.filter fun e => e.covers 0x3020).find? (fun e => e.slo ≤ 1 && 1 ≤ e.shi) =
    some (rw 0x3020 1 tU64 (fun s => s.keyring.dirEntry.toNat) anyVal writeDir) := rfl

theorem line_keyringPin : (dictionary.filter fun e => e.covers 0x3020).find? (fun e => e.slo ≤ 4 && 4 ≤ e.shi) =
    some (rwLine 0x3020 4 4 (tBytes 16) .wo (fun _ _ => []) (fun _ _ _ => true) (fun _ _ v => pinForm (pairOf v).1)
      fun _ v s => ruled (pinKey (pairOf v).1 (pairOf v).2 s)) := rfl

theorem line_keyringUnpin : (dictionary.filter fun e => e.covers 0x3020).find? (fun e => e.slo ≤ 5 && 5 ≤ e.shi) =
    some (wo 0x3020 5 tU16 (within 0 511) fun v s => wrote (unpinKey v s)) := rfl

theorem line_keyringFlush : (dictionary.filter fun e => e.covers 0x3020).find? (fun e => e.slo ≤ 6 && 6 ≤ e.shi) =
    some (wo 0x3020 6 tU8 (within 1 3) fun v s => wrote (flushKeys v s)) := rfl

theorem line_routeTable : (dictionary.filter fun e => e.covers 0x3010).find? (fun e => e.slo ≤ 1 && 1 ≤ e.shi) =
    some (rwR 0x3010 1 tU64 (fun s => s.fabric.routeOff.toNat) anyVal fun v s => ruled (writeRoutes v s)) := rfl

theorem lines_gateApply : (dictionary.filter fun e => e.covers 0x3044) =
    [rwN 0x3044 48 tU8 .wo (fun _ _ => 0) always (fun v => v = 1) fun k _ s => ruled (applyGates k s)] := rfl

theorem lines_shaperRate : (dictionary.filter fun e => e.covers 0x3046) =
    [rwBN 0x3046 48 32 .rw (fun s k => (List.range 8).flatMap fun c => leBytes 4 (tget 0 (s.link k).rates c)) (fun _ _ => true) (fun _ => true)
      fun k v s => ruled (writeRates k v s)] := rfl

theorem line_policerCfg : (dictionary.filter fun e => e.covers 0x3050).find? (fun e => e.slo ≤ 2 && 2 ≤ e.shi) =
    some (rwB 0x3050 2 16 (fun s => let p := tget {} s.traffic.policers s.traffic.select; bytesOf [p.w0, p.w1]) (fun _ => true)
      fun v s => ruled (writePol 66 setPolicer v s)) := rfl

theorem line_tenantPolCfg : (dictionary.filter fun e => e.covers 0x7020).find? (fun e => e.slo ≤ 2 && 2 ≤ e.shi) =
    some (rwB 0x7020 2 16 (fun s => let p := tget {} s.traffic.tenantPol s.traffic.tenantSelect; bytesOf [p.w0, p.w1]) (fun _ => true)
      fun v s => ruled (writePol 0 setTenantPol v s)) := rfl

theorem lines_queueHwm : (dictionary.filter fun e => e.covers 0x3061) = [roN 0x3061 16 tU32 queueHwm clearQueueHwm] := rfl

theorem lines_classHwm : (dictionary.filter fun e => e.covers 0x3062) =
    [roN 0x3062 8 tU32 (fun s k => (tget 0 s.traffic.classHwm k).toNat) clearClassHwm] := rfl

end

/-! ### The keyring -/

/-- A change of the keyring's entries that is in every copy. -/
theorem noted_keyDone_entries (f : Table KeyEntry → Table KeyEntry) (s : State) :
    Noted { s with keyring := { s.keyring with result := 0, entries := f s.keyring.entries } }
      (keyDone (modKeyring (fun k => { k with entries := f k.entries }) s)) :=
  noted_keyDone (modKeyring (fun k => { k with entries := f k.entries }) s)

theorem noted_unpinKey (i : Nat) (s : State) : Noted { s with keyring := { s.keyring with
    result := 0, entries := tmod {} s.keyring.entries i fun e => { e with w0 := setBits (setBits e.w0 15 14 0) 13 10 0 } } } (unpinKey i s) :=
  noted_keyDone_entries (fun es => tmod {} es i fun e => { e with w0 := setBits (setBits e.w0 15 14 0) 13 10 0 }) s

theorem noted_flushKeys (v : Nat) (s : State) : Noted { s with keyring := { s.keyring with
    result := 0
    entries := s.keyring.entries.filter fun e => !(bits e.2.w0 15 14 = 0 || (2 ≤ v && bits e.2.w0 15 14 = 1) || v = 3) } } (flushKeys v s) :=
  noted_keyDone_entries (fun es => es.filter fun e => !(bits e.2.w0 15 14 = 0 || (2 ≤ v && bits e.2.w0 15 14 = 1) || v = 3)) s

section

variable {via : Carrier} {s : State} (hc : s.carrierUp via = true) (hf : s.fwReady = true)

include hc hf

/-- KEYRING_DIR: a check of the new directory starts (R342). -/
theorem replies_keyringDir (off : Word64) : Replies via 0x3020 1 0 0 (.keyringDir via off) s
    { s with keyring := { s.keyring with dirEntry := off, dirCheck := some off, dirCode := 0xFFFF } } := by
  have hset : writeDir (leNat (leBytes 8 off.toNat)) s = { s with keyring := { s.keyring with dirEntry := off, dirCheck := some off, dirCode := 0xFFFF } } := by
    rw [leNat_64]
    unfold writeDir
    rw [ofNat_64]
    rfl
  obtain ⟨-, -, done⟩ := replies_line (c := .keyringDir via off) rfl hc (sees_plain (by decide)) hf line_keyringDir (by decide) (by decide)
    (fits_leBytes (t := tU64) (by decide)) rfl rfl rfl
  exact done _ rfl rfl (Noted_of_eq (Noted.refl _) hset)

/-- KEYRING_PIN: refused for its form, refused past 480 host pins and quotas, else installed (R345). -/
theorem replies_keyringPin (w0 w1 : Word64) :
    (pinForm w0 = false → Replies via 0x3020 4 4 0 (.keyringPin via w0 w1) s s) ∧
    (pinForm w0 = true → 480 < s.hostPins + 1 + s.quotaSum → Replies via 0x3020 4 6 0x408 (.keyringPin via w0 w1) s
      { s with keyring := { s.keyring with result := 0x408 } }) ∧
    (∀ v, pinForm w0 = true → s.hostPins + 1 + s.quotaSum ≤ 480 → s.victim = some v → Replies via 0x3020 4 0 0 (.keyringPin via w0 w1) s
      { s with keyring := { s.keyring with result := 0, entries := tset {} s.keyring.entries v ⟨w0, w1, BitVec.ofNat 64 (s.time.toNat / 1000)⟩ } }) := by
  have hset : ruled (pinKey (pairOf (bytesOf [w0, w1])).1 (pairOf (bytesOf [w0, w1])).2 s) = ruled (pinKey w0 w1 s) := by rw [pairOf_bytes]
  have hform : pinForm (pairOf (bytesOf [w0, w1])).1 = pinForm w0 := by rw [pairOf_bytes]
  obtain ⟨-, range, done⟩ := replies_line (c := .keyringPin via w0 w1) rfl hc (sees_plain (by decide)) hf line_keyringPin (by decide) (by decide)
    rfl rfl hform hset
  refine ⟨fun h => range rfl h, fun h hfull => ?_, fun v h hroom hv => ?_⟩
  · have refused : pinKey w0 w1 s = (0x408, modKeyring (fun k => { k with result := 0x408 }) s) := if_pos hfull
    have reply := done (pinKey w0 w1 s).2 rfl h (Noted.refl _)
    rwa [refused] at reply
  · have pinned : pinKey w0 w1 s = (0, keyDone (installKey false w0 w1 s)) := if_neg (Nat.not_lt.2 hroom)
    have installed : { installKey false w0 w1 s with keyring := { (installKey false w0 w1 s).keyring with result := 0 } } =
        { s with keyring := { s.keyring with result := 0, entries := tset {} s.keyring.entries v ⟨w0, w1, BitVec.ofNat 64 (s.time.toNat / 1000)⟩ } } := by
      unfold installKey
      rw [hv]
      rfl
    rw [pinned] at done
    exact done _ rfl h (installed ▸ noted_keyDone _)

/-- KEYRING_UNPIN (R345). -/
theorem replies_keyringUnpin (i : Word16) :
    (i.toNat < 512 → Replies via 0x3020 5 0 0 (.keyringUnpin via i) s { s with keyring := { s.keyring with
      result := 0, entries := tmod {} s.keyring.entries i.toNat fun e => { e with w0 := setBits (setBits e.w0 15 14 0) 13 10 0 } } }) ∧
    (512 ≤ i.toNat → Replies via 0x3020 5 4 0 (.keyringUnpin via i) s s) := by
  have hval : leNat (leBytes 2 i.toNat) = i.toNat := leNat_of_lt i.isLt
  have hset : wrote (unpinKey (leNat (leBytes 2 i.toNat)) s) = wrote (unpinKey i.toNat s) := by rw [hval]
  have hrange : within 0 511 (leNat (leBytes 2 i.toNat)) = within 0 511 i.toNat := by rw [hval]
  obtain ⟨-, range, done⟩ := replies_line (c := .keyringUnpin via i) rfl hc (sees_plain (by decide)) hf line_keyringUnpin (by decide) (by decide)
    (fits_leBytes (t := tU16) (by decide)) rfl hrange hset
  exact ⟨fun h => done _ rfl (by simp [within]; omega) (noted_unpinKey ..), fun h => range rfl (by simp [within]; omega)⟩

/-- KEYRING_FLUSH (R345, R348). -/
theorem replies_keyringFlush (v : Byte) :
    (1 ≤ v.toNat → v.toNat ≤ 3 → Replies via 0x3020 6 0 0 (.keyringFlush via v) s { s with keyring := { s.keyring with
      result := 0
      entries := s.keyring.entries.filter fun e => !(bits e.2.w0 15 14 = 0 || (2 ≤ v.toNat && bits e.2.w0 15 14 = 1) || v.toNat = 3) } }) ∧
    (v.toNat = 0 ∨ 3 < v.toNat → Replies via 0x3020 6 4 0 (.keyringFlush via v) s s) := by
  have hset : wrote (flushKeys (leNat [v]) s) = wrote (flushKeys v.toNat s) := by rw [leNat_one]
  have hrange : within 1 3 (leNat [v]) = within 1 3 v.toNat := by rw [leNat_one]
  obtain ⟨-, range, done⟩ := replies_line (c := .keyringFlush via v) rfl hc (sees_plain (by decide)) hf line_keyringFlush (by decide) (by decide)
    rfl rfl hrange hset
  exact ⟨fun _ _ => done _ rfl (by simp [within]; omega) (noted_flushKeys ..), fun _ => range rfl (by simp [within]; omega)⟩

/-- ROUTE_TABLE: an image is taken whole or refused (R326). -/
theorem replies_routeTable (off : Word64) :
    (routeCheck s off.toNat = 0 → Replies via 0x3010 1 0 0 (.routeTable via off) s
      (checkReads [(off.toNat, 131072)] (modFabric (fun f => { f with routeOff := off, routeCode := 0 }) (takeRoutes off.toNat s)))) ∧
    (routeCheck s off.toNat ≠ 0 → Replies via 0x3010 1 6 (routeCheck s off.toNat) (.routeTable via off) s
      (checkReads [(off.toNat, 131072)] (modFabric (fun f => { f with routeCode := routeCheck s off.toNat }) s))) := by
  have hset : ruled (writeRoutes (leNat (leBytes 8 off.toNat)) s) = ruled (writeRoutes off.toNat s) := by rw [leNat_64]
  obtain ⟨-, -, done⟩ := replies_line (c := .routeTable via off) rfl hc (sees_plain (by decide)) hf line_routeTable (by decide) (by decide)
    (fits_leBytes (t := tU64) (by decide)) rfl rfl hset
  have reply := done (writeRoutes off.toNat s).2 rfl rfl (Noted.refl _)
  refine ⟨fun h => ?_, fun h => ?_⟩
  · have taken : writeRoutes off.toNat s = (0, checkReads [(off.toNat, 131072)]
        (modFabric (fun f => { f with routeOff := off, routeCode := 0 }) (takeRoutes off.toNat s))) := by
      unfold writeRoutes
      rw [h, ofNat_64]
      rfl
    rwa [taken] at reply
  · have refused : writeRoutes off.toNat s = (routeCheck s off.toNat, checkReads [(off.toNat, 131072)]
        (modFabric (fun f => { f with routeCode := routeCheck s off.toNat }) s)) := by
      unfold writeRoutes
      dsimp only
      rw [if_neg h]
    rw [refused] at reply
    dsimp only [ruled] at reply
    rwa [if_neg h] at reply

end

/-! ### Traffic control -/

/-- The rates of SHAPER_RATE as its value carries them are those written, where there are eight. -/
theorem rates_of_bytes {rates : List Word32} (h : rates.length = 8) :
    (numsOf 4 8 (rates.flatMap fun r => leBytes 4 r.toNat)).map (BitVec.ofNat 32) = rates := by
  rw [← h, numsOf_rates, List.map_map]
  exact List.map_id'' (fun r => ofNat_32 r) rates

/-- What R358 asks of eight rates: none above 100,000, nor their sum. -/
theorem ratesOk_iff {rates : List Word32} (h : rates.length = 8) :
    ratesOk rates = true ↔ (∀ r ∈ rates, r.toNat ≤ 100000) ∧ rates.foldl (fun a r => a + r.toNat) 0 ≤ 100000 := by
  simp [ratesOk, h]

/-- The table of the rates after SHAPER_RATE. -/
def ratesTable (rates : List Word32) : Table Nat := rates.zipIdx.foldl (fun t x => tset 0 t x.2 x.1.toNat) []

theorem tget_ratesTable {rates : List Word32} (h : rates.length = 8) {c : Nat} (hc : c < 8) : tget 0 (ratesTable rates) c = (rates.getD c 0).toNat := by
  unfold ratesTable
  rw [tget_rates rates 0 [] rfl, if_pos (by omega), Nat.sub_zero]

section

variable {via : Carrier} {l : Nat} {s : State} (hc : s.carrierUp via = true) (hf : s.fwReady = true)

include hc

theorem reads_queueHwm {q : Nat} (hq : q < 16) : Reads via 0x3061 (q + 1) (leBytes 4 (tget 0 (s.link s.traffic.hwmLink).hwm q).toNat)
    (.queueHwm via (q + 1)) s (s.modLink s.traffic.hwmLink fun k => { k with hwm := tset 0 k.hwm q 0 }) :=
  reads_line (congrArg Host.Outcome.next (if_pos (by omega))) hc (sees_plain (by decide)) (find_units lines_queueHwm rfl rfl hq)
    (Nat.succ_ne_zero q) (by decide) rfl rfl

theorem reads_classHwm {c : Nat} (h : c < 8) : Reads via 0x3062 (c + 1) (leBytes 4 (tget 0 s.traffic.classHwm c).toNat)
    (.classHwm via (c + 1)) s { s with traffic := { s.traffic with classHwm := tset 0 s.traffic.classHwm c 0 } } :=
  reads_line (congrArg Host.Outcome.next (if_pos (by omega))) hc (sees_plain (by decide)) (find_units lines_classHwm rfl rfl h)
    (Nat.succ_ne_zero c) (by decide) rfl rfl

include hf

/-- GATE_APPLY: the pending list is scheduled, or refused with 0409h (R356). -/
theorem replies_gateApply (hl : l < 48) (v : Byte) :
    (v.toNat ≠ 1 → Replies via 0x3044 (l + 1) 4 0 (.gateApply via l v) s s) ∧
    (v.toNat = 1 → (s.link l).pendingGates.ok (s.link l).gateCount = false →
      Replies via 0x3044 (l + 1) 6 0x409 (.gateApply via l v) s (s.modLink l fun k => { k with gateCode := 0x409 })) ∧
    (v.toNat = 1 → (s.link l).pendingGates.ok (s.link l).gateCount = true →
      Replies via 0x3044 (l + 1) 0 0 (.gateApply via l v) s (s.modLink l fun k => { k with
        gateCode := 0
        gateNext := some ((s.link l).pendingGates,
          BitVec.ofNat 64 ((s.link l).pendingGates.startFrom (cycleEnd (s.link l).gateActive (s.timeAt (linkIsland l)).toNat))) })) := by
  obtain ⟨-, -, range, done⟩ := replies_rwN (c := .gateApply via l v) (len := 1) rfl hc (sees_plain (by decide)) lines_gateApply
    (by decide) rfl v.isLt (by decide) hl (by decide) (by simp [earlyEntry])
  refine ⟨fun h => range hf rfl (decide_eq_false h), fun h hok => ?_, fun h hok => ?_⟩
  · have reply := done _ hf rfl (decide_eq_true h) (Noted.refl (applyGates l s).2)
    rwa [show applyGates l s = _ from if_neg (ne_true_of_eq_false hok)] at reply
  · have reply := done _ hf rfl (decide_eq_true h) (Noted.refl (applyGates l s).2)
    rwa [show applyGates l s = _ from if_pos hok] at reply

/-- SHAPER_RATE: eight rates are taken, or refused with 040Ah (R358). -/
theorem replies_shaperRate (hl : l < 48) {rates : List Word32} (hlen : rates.length = 8) :
    (ratesOk rates = true → Replies via 0x3046 (l + 1) 0 0 (.shaperRate via l rates) s (s.modLink l fun k => { k with rates := ratesTable rates })) ∧
    (ratesOk rates = false → Replies via 0x3046 (l + 1) 6 0x40A (.shaperRate via l rates) s s) := by
  have hset : ruled (writeRates l (rates.flatMap fun r => leBytes 4 r.toNat) s) =
      ruled (if ratesOk rates then (0, setRates l rates s) else (0x40A, s)) := by
    unfold writeRates
    rw [rates_of_bytes hlen]
  obtain ⟨-, -, done⟩ := replies_line (c := .shaperRate via l rates) (congrArg Host.Outcome.next (if_pos (by omega))) hc (sees_plain (by decide)) hf
    (find_units lines_shaperRate rfl rfl hl) (Nat.succ_ne_zero l) (by decide)
    (show EntType.fits (tBytes 32) _ = true from decide_eq_true ((length_rates rates).trans (by rw [hlen]; rfl))) rfl rfl hset
  refine ⟨fun h => ?_, fun h => ?_⟩
  · rw [if_pos h] at done
    exact done _ rfl rfl (Noted.refl _)
  · rw [if_neg (ne_true_of_eq_false h)] at done
    exact done _ rfl rfl (Noted.refl _)

/-- A policer's record is taken, or refused with 040Bh (R360). -/
theorem replies_writePol {c : Instr} {index least : Nat} {w0 w1 : Word64} {get : State → Bytes} {take : Word64 → Word64 → State → State}
    (he : exec c s = .next (accessWrite via index 2 (bytesOf [w0, w1]) s)) (hs : s.sees index = true)
    (hd : (dictionary.filter fun e => e.covers index).find? (fun e => e.slo ≤ 2 && 2 ≤ e.shi) =
      some (rwB index 2 16 get (fun _ => true) fun v s => ruled (writePol least take v s))) :
    if polOk least w0 w1 then Replies via index 2 0 0 c s (take w0 w1 s) else Replies via index 2 6 0x40B c s s := by
  have hset : ruled (writePol least take (bytesOf [w0, w1]) s) = ruled (if polOk least w0 w1 then (0, take w0 w1 s) else (0x40B, s)) := by
    unfold writePol
    rw [pairOf_bytes]
  obtain ⟨-, -, done⟩ := replies_line he hc hs hf hd (by decide) (by simp [rwB, rwLine]) rfl rfl rfl hset
  split
  case isTrue h =>
    rw [if_pos h] at done
    exact done _ rfl rfl (Noted.refl _)
  case isFalse h =>
    rw [if_neg h] at done
    exact done _ rfl rfl (Noted.refl _)

end

/-- Settles O48: each entry's line of the tables, and its rule by cases. -/
theorem entriesOfKeyringAndTraffic : Obligations.entriesOfKeyringAndTraffic := by
  refine ⟨fun via s hc hf => ⟨replies_keyringDir hc hf, replies_keyringPin hc hf, replies_keyringUnpin hc hf, replies_keyringFlush hc hf,
    replies_routeTable hc hf⟩, fun via s hc hf => ⟨fun l v hl => replies_gateApply hc hf hl v, fun l rates hl hlen => ?_,
    fun w0 w1 => ⟨replies_writePol (c := .policerCfg via w0 w1) hc hf rfl (sees_plain (by decide)) line_policerCfg,
      replies_writePol (c := .tenantPolCfg via w0 w1) hc hf rfl (sees_plain (by decide)) line_tenantPolCfg⟩, fun q hq => reads_queueHwm hc hq,
    fun c h => reads_classHwm hc h⟩⟩
  obtain ⟨taken, refused⟩ := replies_shaperRate hc hf hl hlen
  split
  case isTrue h => exact ⟨ratesTable rates, taken ((ratesOk_iff hlen).2 h), fun c hlt => tget_ratesTable hlen hlt⟩
  case isFalse h => exact refused (Bool.eq_false_iff.2 fun hok => h ((ratesOk_iff hlen).1 hok))

end Sys2Proof
end

section
/-! PROOFS. The entries of faults, floors and injections (R24, R375, R420, R441, R443 to R445, R483). -/

namespace Sys2Proof

open Machine Safety

/-! ### Their lines -/

section

set_option maxRecDepth 8000

theorem line_slowdownClear : (dictionary.filter fun e => e.covers 0x7402).find? (fun e => e.slo ≤ 3 && 3 ≤ e.shi) =
    some (wo 0x7402 3 tU8 anyVal fun v s => wrote (clearSlowdowns (BitVec.ofNat 8 v) s)) := rfl

theorem line_skewClear : (dictionary.filter fun e => e.covers 0x2010).find? (fun e => e.slo ≤ 5 && 5 ≤ e.shi) =
    some (wo 0x2010 5 tU8 anyVal fun v s => wrote (clearSkew (BitVec.ofNat 8 v) s)) := rfl

theorem line_faultClear : (dictionary.filter fun e => e.covers 0x6000).find? (fun e => e.slo ≤ 5 && 5 ≤ e.shi) =
    some (wo 0x6000 5 tU8 anyVal fun v s => wrote (clearFault (BitVec.ofNat 8 v) s)) := rfl

theorem line_fwFloor : (dictionary.filter fun e => e.covers 0x8000).find? (fun e => e.slo ≤ 4 && 4 ≤ e.shi) =
    some (rwLine 0x8000 4 4 tU32 .rw (fun s _ => leBytes 4 s.fw.floor.toNat) (fun s _ _ => !s.faults.factory) (fun _ _ _ => true)
      fun _ v s => ruled (raiseFwFloor (BitVec.ofNat 32 (leNat v)) s)) := rfl

theorem line_fiArm : (dictionary.filter fun e => e.covers 0xF000).find? (fun e => e.slo ≤ 5 && 5 ≤ e.shi) =
    some (rwR 0xF000 5 tU8 (fun s => b1 s.faults.fiArmed) isBit writeFi) := rfl

theorem line_piArm : (dictionary.filter fun e => e.covers 0xF001).find? (fun e => e.slo ≤ 4 && 4 ≤ e.shi) =
    some (rwR 0xF001 4 tU8 (fun _ => 0) isBit writePi) := rfl

theorem line_powerPeakW : (dictionary.filter fun e => e.covers 0x2040).find? (fun e => e.slo ≤ 4 && 4 ≤ e.shi) =
    some (ro 0x2040 4 tU16 (fun s => s.module.peak) (modModule fun m => { m with peak := 0 })) := rfl

end

/-! ### Answers of one-byte entries -/

section

variable {via : Carrier} {index sub : Nat} {v : Byte} {c : Instr} {s : State} (he : exec c s = .next (accessWrite via index sub [v] s))
  (hc : s.carrierUp via = true) (hf : s.fwReady = true) (hs : s.sees index = true) (h0 : sub ≠ 0)

include he hc hf hs h0

/-- A write-only entry that takes any byte, and acts on it. -/
theorem replies_clear {clear : Byte → State → State} (hd : (dictionary.filter fun e => e.covers index).find? (fun e => e.slo ≤ sub && sub ≤ e.shi) =
    some (wo index sub tU8 anyVal fun v s => wrote (clear (BitVec.ofNat 8 v) s))) : Replies via index sub 0 0 c s (clear v s) := by
  have hset : wrote (clear (BitVec.ofNat 8 (leNat [v])) s) = wrote (clear v s) := by rw [leNat_one, BitVec.ofNat_toNat, BitVec.setWidth_eq]
  obtain ⟨-, -, done⟩ := replies_line he hc hs hf hd h0 (by simp [wo, rwLine]) rfl rfl rfl hset
  exact done _ rfl rfl (Noted.refl _)

/-- An entry that takes 0 or 1 by a rule of its own. -/
theorem replies_bit {get : State → Nat} {set : Nat → State → WriteOut}
    (hd : (dictionary.filter fun e => e.covers index).find? (fun e => e.slo ≤ sub && sub ≤ e.shi) = some (rwR index sub tU8 get isBit set)) :
    (1 < v.toNat → Replies via index sub 4 0 c s s) ∧
    (∀ w u, v.toNat ≤ 1 → set v.toNat s = w → Noted u w.state → Replies via index sub w.result w.code c s u) := by
  have hset : set (leNat [v]) s = set v.toNat s := by rw [leNat_one]
  have hrange : isBit (leNat [v]) = isBit v.toNat := by rw [leNat_one]
  obtain ⟨-, range, done⟩ := replies_line he hc hs hf hd h0 (by simp [rwR, rwLine]) rfl rfl hrange hset
  refine ⟨fun h => range rfl (decide_eq_false (Nat.not_le.2 h)), fun w u h hw => ?_⟩
  subst hw
  exact done u rfl (decide_eq_true h)

end

theorem alive_of_carrierUp {via : Carrier} {s : State} (hc : s.carrierUp via = true) : s.alive = true := by
  simp only [State.carrierUp, State.hubUp, Bool.and_eq_true] at hc
  exact hc.2.1.1

/-! ### The firmware's floor -/

section

variable {via : Carrier} {s : State} (hc : s.carrierUp via = true) (hf : s.fwReady = true)

include hc hf

/-- FW_FLOOR never falls, and is not written in factory test mode (R420, R444). -/
theorem replies_fwFloor (v : Word32) :
    (s.faults.factory = true → Replies via 0x8000 4 3 0 (.fwFloor via v) s s) ∧
    (s.faults.factory = false → v.toNat < s.fw.floor.toNat → Replies via 0x8000 4 6 0x704 (.fwFloor via v) s s) ∧
    (s.faults.factory = false → s.fw.floor.toNat ≤ v.toNat → Replies via 0x8000 4 0 0 (.fwFloor via v) s
      { s with fw := { s.fw with floor := v }, flash := { s.flash with fwFloor := v } }) := by
  have hset : ruled (raiseFwFloor (BitVec.ofNat 32 (leNat (leBytes 4 v.toNat))) s) = ruled (raiseFwFloor v s) := by rw [leNat_32, ofNat_32]
  obtain ⟨kept, -, done⟩ := replies_line (c := .fwFloor via v) rfl hc (sees_plain (by decide)) hf line_fwFloor (by decide) (by decide)
    (fits_leBytes (t := tU32) (by decide)) rfl rfl hset
  refine ⟨fun h => kept (by simp [rwLine, h]), fun h hv => ?_, fun h hv => ?_⟩
  · rw [show raiseFwFloor v s = (0x704, s) from if_pos hv] at done
    exact done _ (by simp [rwLine, h]) rfl (Noted.refl _)
  · rw [show raiseFwFloor v s = (0, _) from if_neg (Nat.not_lt.2 hv)] at done
    exact done _ (by simp [rwLine, h]) rfl (Noted.refl _)

/-! ### Injections -/

section

variable (hfactory : s.faults.factory = true) {v : Byte} (hv : v.toNat = 1)

include hfactory

theorem replies_fiArm : (1 < v.toNat → Replies via 0xF000 5 4 0 (.fiArm via v) s s) ∧
    (∀ w u, v.toNat ≤ 1 → writeFi v.toNat s = w → Noted u w.state → Replies via 0xF000 5 w.result w.code (.fiArm via v) s u) :=
  replies_bit rfl hc hf ((sees_factory (by decide)).trans hfactory) (by decide) line_fiArm

theorem replies_piArm : (1 < v.toNat → Replies via 0xF001 4 4 0 (.piArm via v) s s) ∧
    (∀ w u, v.toNat ≤ 1 → writePi v.toNat s = w → Noted u w.state → Replies via 0xF001 4 w.result w.code (.piArm via v) s u) :=
  replies_bit rfl hc hf ((sees_factory (by decide)).trans hfactory) (by decide) line_piArm

include hv

/-- PI_ARM of 1 with a target: the injection is done at once (R444). -/
theorem replies_piArm_injected {u : State} (h : injectPi s = some u) : Replies via 0xF001 4 0 0 (.piArm via v) s u := by
  refine (replies_piArm hc hf hfactory).2 (wrote u) u (by omega) ?_ (Noted.refl u)
  rw [hv, writePi, h]
  rfl

/-- PI_ARM of 1 without a target (R444). -/
theorem replies_piArm_refused (h : injectPi s = Option.none) : Replies via 0xF001 4 4 0 (.piArm via v) s s := by
  refine (replies_piArm hc hf hfactory).2 { result := 4, state := s } s (by omega) ?_ (Noted.refl s)
  rw [hv, writePi, h]
  rfl

/-- FI_ARM of 1 for an island that cannot raise the code (R443). -/
theorem replies_fiArm_refused (h : fiOk s = false) : Replies via 0xF000 5 4 0 (.fiArm via v) s s := by
  refine (replies_fiArm hc hf hfactory).2 { result := 4, state := s } s (by omega) ?_ (Noted.refl s)
  rw [hv, writeFi, h]
  rfl

/-- FI_ARM of 1: what is due is raised, else it stays armed (R443, R445). -/
theorem replies_fiArm_armed (h : fiOk s = true) : Replies via 0xF000 5 0 0 (.fiArm via v) s (armFi s) := by
  refine (replies_fiArm hc hf hfactory).2 (wrote (armFi s)) _ (by omega) ?_ (Noted.refl _)
  rw [hv, writeFi, h]
  rfl

end

end

/-! ### What an armed injection does -/

section

variable {s : State}

/-- The state with FI_ARMED set. -/
def fiArming (on : Bool) (s : State) : State := { s with faults := { s.faults with fiArmed := on } }

theorem armFi_of_waiting (h : (s.island s.faults.fiIsland.toNat).service = .heldOff ∨ s.time < s.faults.fiAt) : armFi s = fiArming true s := by
  refine if_neg fun due => ?_
  have due : (true && decide (s.faults.fiAt ≤ s.time) && decide ((s.island s.faults.fiIsland.toNat).service ≠ .heldOff)) = true := due
  simp only [Bool.true_and, Bool.and_eq_true, decide_eq_true_eq] at due
  obtain ⟨hat, hserves⟩ := due
  rcases h with h | h
  · exact hserves h
  · exact absurd (BitVec.le_def.1 hat) (Nat.not_le.2 (BitVec.lt_def.1 h))

theorem armFi_of_due (hserves : (s.island s.faults.fiIsland.toNat).service ≠ .heldOff) (hat : s.faults.fiAt ≤ s.time) :
    armFi s = raiseFault s.faults.fiIsland.toNat s.faults.fiCode s.faults.fiDetail 0 (fiArming false s) := by
  refine (if_pos ?_).trans rfl
  show (true && decide (s.faults.fiAt ≤ s.time) && decide ((s.island s.faults.fiIsland.toNat).service ≠ .heldOff)) = true
  simp [hat, hserves]

theorem islandType_of_fiOk (h : fiOk s = true) : islandType s.faults.fiIsland.toNat ≠ Option.none := by
  intro hnone
  unfold fiOk at h
  rw [hnone] at h
  cases h

/-- The errors of w bits after an injection of PI_BITS. -/
def piFlip (s : State) (w e : Nat) : Nat := e ^^^ (2 ^ min s.faults.piBits w - 1)

theorem injectPi_row (hkind : s.faults.piKind = 1) (h : bits s.faults.piTarget 63 48 < 256 ∧ bits s.faults.piTarget 16 0 < 98304) :
    injectPi s = some (s.modCore (bits s.faults.piTarget 63 48) fun c => { c with
      wordErrs := tmod 0 c.wordErrs (8 * c.cell (bits s.faults.piTarget 16 0) + bits s.faults.piTarget 22 20) (piFlip s 72) }) :=
  (if_pos hkind).trans (if_pos h)

theorem injectPi_page (hkind : s.faults.piKind = 2) (hlocal : localOk s.faults.piTarget.toNat = true) (hintake : s.inIntake s.faults.piTarget.toNat = false) :
    injectPi s = some (s.modPage (s.cell (pageNo s.faults.piTarget.toNat)) fun p => { p with errs := piFlip s 128 p.errs }) := by
  refine (if_neg (by rw [hkind]; decide)).trans ((if_pos hkind).trans ((if_neg ?_).trans (if_neg (ne_true_of_eq_false hintake))))
  simp [hlocal]

theorem injectPi_not_local (hkind : s.faults.piKind = 2) (hlocal : localOk s.faults.piTarget.toNat = false) : injectPi s = Option.none := by
  refine (if_neg (by rw [hkind]; decide)).trans ((if_pos hkind).trans (if_pos ?_))
  simp [hlocal]

theorem injectPi_byte (hkind : s.faults.piKind = 3) (hisland : (islandType (bits s.faults.piTarget 63 55)).isSome = true)
    (hcls : 1 ≤ bits s.faults.piTarget 31 28 ∧ bits s.faults.piTarget 31 28 ≤ 10) :
    injectPi s = some (setByteErr (bits s.faults.piTarget 63 55) (bits s.faults.piTarget 31 28) (bits s.faults.piTarget 27 0)
      (piFlip s 13 (s.byteErr (bits s.faults.piTarget 63 55) (bits s.faults.piTarget 31 28) (bits s.faults.piTarget 27 0))) s) :=
  (if_neg (by rw [hkind]; decide)).trans ((if_neg (by rw [hkind]; decide)).trans ((if_pos hkind).trans (if_pos ⟨hisland, hcls⟩)))

theorem injectPi_no_kind (h : s.faults.piKind = 0 ∨ 3 < s.faults.piKind.toNat) : injectPi s = Option.none := by
  have other {k : Byte} (h1 : 1 ≤ k.toNat) (h3 : k.toNat ≤ 3) : s.faults.piKind ≠ k := by
    rintro e
    rw [e] at h
    rcases h with h | h
    · rw [h] at h1
      exact absurd h1 (by decide)
    · omega
  exact (if_neg (other (by decide) (by decide))).trans ((if_neg (other (by decide) (by decide))).trans (if_neg (other (by decide) (by decide))))

end

/-- Settles O49: each entry's line of the tables, and its rule by cases. -/
theorem entriesOfFaults : Obligations.entriesOfFaults := by
  intro via s hc hf
  refine ⟨fun v => ⟨replies_clear (c := .slowdownClear via v) rfl hc hf (sees_plain (by decide)) (by decide) line_slowdownClear,
      replies_clear (c := .skewClear via v) rfl hc hf (sees_plain (by decide)) (by decide) line_skewClear,
      replies_clear (c := .faultClear via v) rfl hc hf (sees_plain (by decide)) (by decide) line_faultClear⟩,
    replies_fwFloor hc hf, fun hfactory v => ?_, fun hfactory v => ⟨fun hv => ?_, fun hv => ?_, fun hv => ?_⟩, ?_⟩
  · exact ⟨replies_unseen (c := .fiArm via v) rfl hc ((sees_factory (by decide)).trans hfactory) (by decide),
      replies_unseen (c := .piArm via v) rfl hc ((sees_factory (by decide)).trans hfactory) (by decide)⟩
  · exact ⟨(replies_fiArm hc hf hfactory).1 hv, (replies_piArm hc hf hfactory).1 hv⟩
  · exact ⟨(replies_fiArm hc hf hfactory).2 (wrote (fiArming false s)) _ (by omega) (by rw [hv]; rfl) (Noted.refl _),
      (replies_piArm hc hf hfactory).2 (wrote s) _ (by omega) (by rw [hv]; rfl) (Noted.refl _)⟩
  · refine ⟨replies_fiArm_refused hc hf hfactory hv, fun hok hserves hat hw => ?_, fun hok hwaits => ?_, fun hkind h => ?_, fun hkind hlocal hintake => ?_,
      fun hkind hlocal => ?_, fun hkind hisland hcls => ?_, fun hkind => ?_⟩
    · refine ⟨_, replies_fiArm_armed hc hf hfactory hv hok, ?_⟩
      rw [armFi_of_due hserves hat]
      exact faulted_raiseFault _ _ _ _ (fiArming false s) (alive_of_carrierUp hc) (islandType_of_fiOk hok) hw
    · exact Replies_of_eq (replies_fiArm_armed hc hf hfactory hv hok) (armFi_of_waiting hwaits)
    · exact replies_piArm_injected hc hf hfactory hv (injectPi_row hkind h)
    · exact replies_piArm_injected hc hf hfactory hv (injectPi_page hkind hlocal hintake)
    · exact replies_piArm_refused hc hf hfactory hv (injectPi_not_local hkind hlocal)
    · exact replies_piArm_injected hc hf hfactory hv (injectPi_byte hkind hisland hcls)
    · exact replies_piArm_refused hc hf hfactory hv (injectPi_no_kind hkind)
  · exact reads_line (c := .powerPeakW via) rfl hc (sees_plain (by decide)) line_powerPeakW (by decide) (by decide) rfl rfl

end Sys2Proof
end

section
/-! PROOFS. The entries of counters and samples (R450 to R454, R456, R459, R461). -/

namespace Sys2Proof

open Machine Safety

/-! ### Their lines -/

section

set_option maxRecDepth 8000

theorem line_lapClear : (dictionary.filter fun e => e.covers 0x5000).find? (fun e => e.slo ≤ 5 && 5 ≤ e.shi) =
    some (wo 0x5000 5 tU16 lapOk fun v s => wrote (clearLap v s)) := rfl

theorem line_sampleEnable : (dictionary.filter fun e => e.covers 0x5600).find? (fun e => e.slo ≤ 1 && 1 ≤ e.shi) =
    some (rw 0x5600 1 tU8 (fun s => s.sampling.enable.toNat) (within 0 3) fun v s => enableSampling (BitVec.ofNat 8 v) s) := rfl

theorem line_sampleRecord : (dictionary.filter fun e => e.covers 0x5601).find? (fun e => e.slo ≤ 1 && 1 ≤ e.shi) =
    some (roLine 0x5601 1 1 (tBytes 128) (fun s _ => fit 128 (bytesOf (s.sampling.records.headD []))) fun _ => takeSample) := rfl

theorem find_counter {i c : Nat} (hi : i < 0x140) (hc : c < 12) :
    (dictionary.filter fun e => e.covers (0x5100 + i)).find? (fun e => e.slo ≤ c + 1 && c + 1 ≤ e.shi) = some entCounter :=
  find_units (covers_counters hi) rfl rfl hc

theorem find_config {i p : Nat} (hi : i < 0x140) (hp : p < 8) :
    (dictionary.filter fun e => e.covers (0x5300 + i)).find? (fun e => e.slo ≤ p + 1 && p + 1 ≤ e.shi) = some entCounterCfg :=
  find_units (covers_configs hi) rfl rfl hp

end

/-- The counters of an island that there is are seen. -/
theorem sees_counters {s : State} {i : Nat} (hi : i < 0x140) (ht : (islandType i).isSome = true) : s.sees (0x5100 + i) = true := by
  unfold State.sees
  rw [if_pos ⟨by omega, by omega⟩, Nat.add_sub_cancel_left, ht, decide_eq_true (by omega)]
  rfl

theorem sees_configs {s : State} {i : Nat} (hi : i < 0x140) (ht : (islandType i).isSome = true) : s.sees (0x5300 + i) = true := by
  unfold State.sees
  rw [if_neg (by omega), if_pos ⟨by omega, by omega⟩, Nat.add_sub_cancel_left, ht, decide_eq_true (by omega)]
  rfl

/-! ### Counters -/

theorem place_counter (i c : Nat) : entCounter.place (0x5100 + i) (c + 1) 0 = ⟨i, c, 0⟩ := by
  simp [Ent.place, entCounter]

theorem place_config (i p : Nat) : entCounterCfg.place (0x5300 + i) (p + 1) 0 = ⟨i, p, 0⟩ := by
  simp [Ent.place, entCounterCfg]

section

variable {via : Carrier} {i : Nat} {s : State} (hc : s.carrierUp via = true) (hi : i < 0x140) (ht : (islandType i).isSome = true)

include hc hi ht

/-- A counter's read answers its record (R450, R454). -/
theorem reads_counter {c : Nat} (h : c < 12) :
    Reads via (0x5100 + i) (c + 1) (counterRecord s i c 0) (.counterRead via i c) s (useCount c s) :=
  reads_line (congrArg Host.Outcome.next (if_pos ⟨hi, by omega⟩)) hc (sees_counters hi ht) (find_counter hi h) (Nat.succ_ne_zero c) (by decide)
    (by rw [place_counter]; rfl) (by rw [place_counter]; rfl)

/-- A configuration is taken with its counter at 0, or refused for its form (R452). -/
theorem replies_counterCfg (hf : s.fwReady = true) {p : Nat} (hp : p < 8) (w0 w1 w2 w3 : Word64) :
    (cfgOk i [w0, w1, w2, w3] = false → Replies via (0x5300 + i) (p + 1) 4 0 (.counterCfg via i p [w0, w1, w2, w3]) s s) ∧
    (cfgOk i [w0, w1, w2, w3] = true → Replies via (0x5300 + i) (p + 1) 0 0 (.counterCfg via i p [w0, w1, w2, w3]) s
      (setCfg i p [w0, w1, w2, w3] s)) := by
  have hset : wrote (setCfg i p (wordsOf 4 (bytesOf [w0, w1, w2, w3])) s) = wrote (setCfg i p [w0, w1, w2, w3] s) := by rw [wordsOf_bytes4]
  have hform : cfgOk i (wordsOf 4 (bytesOf [w0, w1, w2, w3])) = cfgOk i [w0, w1, w2, w3] := by rw [wordsOf_bytes4]
  obtain ⟨-, range, done⟩ := replies_line (c := .counterCfg via i p [w0, w1, w2, w3]) (congrArg Host.Outcome.next (if_pos ⟨hi, by omega⟩)) hc
    (sees_configs hi ht) hf (find_config hi hp) (Nat.succ_ne_zero p) (by decide) rfl rfl
    ((congrArg (entCounterCfg.ok s · _) (place_config i p)).trans hform) ((congrArg (entCounterCfg.set · _ s) (place_config i p)).trans hset)
  exact ⟨range rfl, fun h => done _ rfl h (Noted.refl _)⟩

end

/-- The count that a read of F0 to F2 delivers is one its clock can have made (log 33). -/
theorem ctrCount_open {s : State} {i c : Nat} (h : c < 3) :
    ctrCount s i c 0 ≤ cyclesAt i (s.time.toNat + 40) ∧ ctrCount s i c 0 < 2 ^ 56 := by
  have hcount : ctrCount s i c 0 = (Config.freeWord s.hub.freeUsed).toNat % min (2 ^ 56) (cyclesAt i (s.time.toNat + 40) + 1) := if_pos (by omega)
  have hpos : 0 < min (2 ^ 56) (cyclesAt i (s.time.toNat + 40) + 1) := by omega
  have hlt := Nat.mod_lt (Config.freeWord s.hub.freeUsed).toNat hpos
  rw [hcount]
  omega

theorem ctrCount_kept {s : State} {i c : Nat} (h : 3 ≤ c) : ctrCount s i c 0 = (s.ctr i c).value.toNat := if_neg (by omega)

/-! ### Laps and samples -/

section

variable {via : Carrier} {s : State} (hc : s.carrierUp via = true) (hf : s.fwReady = true)

include hc hf

/-- LAP_CLEAR: the flag alone of the counter it names (R456). -/
theorem replies_lapClear (v : Word16) :
    (lapOk v.toNat = true → Replies via 0x5000 5 0 0 (.lapClear via v) s (clearLap v.toNat s)) ∧
    (lapOk v.toNat = false → Replies via 0x5000 5 4 0 (.lapClear via v) s s) := by
  have hval : leNat (leBytes 2 v.toNat) = v.toNat := leNat_of_lt v.isLt
  have hset : wrote (clearLap (leNat (leBytes 2 v.toNat)) s) = wrote (clearLap v.toNat s) := by rw [hval]
  have hrange : lapOk (leNat (leBytes 2 v.toNat)) = lapOk v.toNat := by rw [hval]
  obtain ⟨-, range, done⟩ := replies_line (c := .lapClear via v) rfl hc (sees_plain (by decide)) hf line_lapClear (by decide) (by decide)
    (fits_leBytes (t := tU16) (by decide)) rfl hrange hset
  exact ⟨fun h => done _ rfl h (Noted.refl _), range rfl⟩

/-- SAMPLE_ENABLE takes 0 to 3 (R459). -/
theorem replies_sampleEnable (v : Byte) :
    (3 < v.toNat → Replies via 0x5600 1 4 0 (.sampleEnable via v) s s) ∧
    (v.toNat ≤ 3 → Replies via 0x5600 1 0 0 (.sampleEnable via v) s (enableSampling v s)) := by
  have hset : wrote (enableSampling (BitVec.ofNat 8 (leNat [v])) s) = wrote (enableSampling v s) := by
    rw [leNat_one, BitVec.ofNat_toNat, BitVec.setWidth_eq]
  have hrange : within 0 3 (leNat [v]) = within 0 3 v.toNat := by rw [leNat_one]
  obtain ⟨-, range, done⟩ := replies_line (c := .sampleEnable via v) rfl hc (sees_plain (by decide)) hf line_sampleEnable (by decide) (by decide)
    rfl rfl hrange hset
  exact ⟨fun h => range rfl (by simpa [within] using h), fun h => done _ rfl (by simpa [within] using h) (Noted.refl _)⟩

end

/-- What SAMPLE_ENABLE settles first: the tags of the hub and of every core that are due. -/
def samplesSettled (s : State) : State := (s.cores.map Prod.fst).foldl (fun s k => settleCore k s) (settleHub s)

theorem aside_samplesSettled (s : State) : Aside s (samplesSettled s) :=
  Aside.fold (fun s k => settleCore k s) (fun _ _ h => aside_settleCore _ _ h) (aside_settleHub s (Aside.refl s)) _

theorem lapOk_of_counter {v i : Nat} (hv : v / 16 = i) (hi : i < 0x140) (ht : (islandType i).isSome = true) (hcounter : v % 16 < 12) : lapOk v = true := by
  unfold lapOk
  rw [hv, ht, decide_eq_true hcounter, decide_eq_true (by omega)]
  rfl

theorem not_lapOk {v : Nat} (h : 12 ≤ v % 16 ∨ 2 ^ 13 ≤ v) : lapOk v = false := by
  refine Bool.eq_false_iff.2 fun hok => ?_
  simp only [lapOk, Bool.and_eq_true, decide_eq_true_eq] at hok
  omega

/-- Settles O50: the lines of the counters and of sampling, and their rules by cases. -/
theorem entriesOfCounters : Obligations.entriesOfCounters := by
  intro via i p s hc hf hi ht
  refine ⟨fun c h3 h12 => ?_, fun c h3 => ?_, fun w0 w1 w2 w3 hp => replies_counterCfg hc hi ht hf hp w0 w1 w2 w3, fun v => ⟨fun hv hcounter => ?_, fun h => ?_⟩,
    fun v => ⟨(replies_sampleEnable hc hf v).1, fun hv => ⟨samplesSettled s, aside_samplesSettled s, (replies_sampleEnable hc hf v).2 hv⟩⟩, ?_⟩
  · have reads := reads_counter hc hi ht h12
    unfold counterRecord at reads
    rwa [ctrCount_kept h3, show useCount c s = s from if_neg (by omega)] at reads
  · obtain ⟨hcycles, hbound⟩ := ctrCount_open (s := s) (i := i) h3
    refine ⟨ctrCount s i c 0, hcycles, hbound, ?_⟩
    have reads := reads_counter hc hi ht (show c < 12 by omega)
    rwa [show useCount c s = _ from if_pos (by omega)] at reads
  · subst hv
    exact (replies_lapClear hc hf v).1 (lapOk_of_counter rfl hi ht hcounter)
  · exact (replies_lapClear hc hf v).2 (not_lapOk h)
  · exact reads_line (c := .sampleRecord via) rfl hc (sees_plain (by decide)) line_sampleRecord (by decide) (by decide) rfl rfl

end Sys2Proof
end

section
/-! PROOFS. The firmware's receipt and its verification (R415 to R419). -/

namespace Sys2Proof

open Machine Safety

/-! ### Answers of the receipt commands -/

theorem fwAnswer_eq (via : Carrier) (code : Word16) (s : State) : fwAnswer via code s = answered via .success (leBytes 2 code.toNat) s := answer_eq ..

theorem noted_failReceipt (code : Word16) (s : State) :
    Noted { s with fw := { s.fw with fn := .off, phase := 5, code := code, owner := none, fetching := none } } (failReceipt code s) :=
  (noted_setFwFn .off { s with fw := { s.fw with phase := 5, code := code, owner := none, fetching := none } }).trans (noted_raiseEvent ..)

theorem noted_modFw {s t : State} (h : Noted s t) (f : Firmware → Firmware) : Noted (modFw f s) (modFw f t) := by
  obtain ⟨a, _, _, _, _, _, rfl⟩ := h
  exact ⟨a, _, _, _, _, _, rfl⟩

/-- A carrier's receipt is open for more bytes (R415, R416). -/
theorem receiving_iff {via : Carrier} {s : State} :
    s.receiving via = true ↔ s.fw.fn = .starting ∧ s.fw.phase = 1 ∧ s.fw.owner = some via ∧ s.fw.fetching = none := by
  simp [State.receiving, and_assoc]

section

variable {via : Carrier} {s : State} (hc : s.carrierUp via = true)

include hc

/-- FW_BEGIN opens a receipt of at most 16 MiB while the firmware is Off (R415, R420). -/
theorem exec_fwBegin (total : Word32) : ∃ t, exec (.fwBegin via total) s = .next t ∧
    (if s.fw.fn ≠ .off then t = answered via .success [0x05, 0x07] s
     else if 16777216 < total.toNat then t = answered via .success [0x08, 0x07] s
     else Noted (answered via .success [0, 0] { s with fw := { s.fw with
       fn := .starting, phase := 1, received := [], total := total.toNat, owner := some via, fetching := none, sections := 0, code := 0 } }) t) := by
  refine ⟨_, congrArg Host.Outcome.next (if_neg (by simp [hc])), ?_⟩
  split
  case isTrue hfn => exact fwAnswer_eq ..
  case isFalse hfn =>
    split
    case isTrue hlong => exact (if_pos (show fwMax < total.toNat from hlong)).trans (fwAnswer_eq ..)
    case isFalse hlong =>
      rw [if_neg (show ¬ fwMax < total.toNat from hlong), fwAnswer_eq]
      exact (noted_setFwFn .starting (modFw (fun f =>
        { f with phase := 1, received := [], total := total.toNat, owner := some via, fetching := none, sections := 0, code := 0 }) s)).answered ..

/-- FW_CHUNK appends at the next offset (R415). -/
theorem exec_fwChunk (offset : Word32) {data : Bytes} (hne : data ≠ []) (hlen : data.length ≤ 16376) :
    if s.fw.fn = .starting ∧ s.fw.phase = 1 ∧ s.fw.owner = some via ∧ s.fw.fetching = none ∧
        offset.toNat = s.fw.received.length ∧ s.fw.received.length + data.length ≤ s.fw.total
      then exec (.fwChunk via offset data) s = .next (answered via .success [0, 0] { s with fw := { s.fw with received := s.fw.received ++ data } })
      else exec (.fwChunk via offset data) s = .next (answered via .success [0x05, 0x07] s) := by
  have served : exec (.fwChunk via offset data) s = .next
      (if !s.receiving via ∨ offset.toNat ≠ s.fw.received.length ∨ s.fw.total < s.fw.received.length + data.length then fwAnswer via 0x705 s
        else fwAnswer via 0 (modFw (fun f => { f with received := f.received ++ data }) s)) :=
    congrArg Host.Outcome.next ((if_neg (by simp [hc])).trans (if_neg (by simp [hne, hlen])))
  rw [served, fwAnswer_eq, fwAnswer_eq]
  split
  case isTrue h =>
    obtain ⟨hfn, hphase, howner, hfetch, hoff, hroom⟩ := h
    rw [if_neg (by simp [receiving_iff.2 ⟨hfn, hphase, howner, hfetch⟩, hoff, hroom])]
    rfl
  case isFalse h =>
    rw [if_pos ?_]
    · rfl
    · by_contra hno
      simp only [Bool.not_eq_true', not_or, Bool.not_eq_false, not_not, not_lt] at hno
      obtain ⟨hopen, hoff, hroom⟩ := hno
      obtain ⟨hfn, hphase, howner, hfetch⟩ := receiving_iff.1 hopen
      exact h ⟨hfn, hphase, howner, hfetch, hoff, hroom⟩

/-- FW_COMMIT ends a whole receipt (R417). -/
theorem exec_fwCommit :
    if s.fw.fn = .starting ∧ s.fw.phase = 1 ∧ s.fw.owner = some via ∧ s.fw.fetching = none ∧ s.fw.received.length = s.fw.total
      then exec (.fwCommit via) s = .next (answered via .success [0, 0] { s with fw := { s.fw with phase := 2 } })
      else exec (.fwCommit via) s = .next (answered via .success [0x05, 0x07] s) := by
  have served : exec (.fwCommit via) s = .next
      (if s.receiving via && s.fw.received.length = s.fw.total then fwAnswer via 0 (modFw (fun f => { f with phase := 2 }) s)
        else fwAnswer via 0x705 s) := congrArg Host.Outcome.next (if_neg (by simp [hc]))
  rw [served, fwAnswer_eq, fwAnswer_eq]
  split
  case isTrue h =>
    obtain ⟨hfn, hphase, howner, hfetch, hwhole⟩ := h
    rw [if_pos (by simp [receiving_iff.2 ⟨hfn, hphase, howner, hfetch⟩, hwhole])]
    rfl
  case isFalse h =>
    rw [if_neg ?_]
    · rfl
    · intro hyes
      simp only [Bool.and_eq_true, decide_eq_true_eq] at hyes
      obtain ⟨hopen, hwhole⟩ := hyes
      obtain ⟨hfn, hphase, howner, hfetch⟩ := receiving_iff.1 hopen
      exact h ⟨hfn, hphase, howner, hfetch, hwhole⟩

/-- FW_ABORT gives up its carrier's receipt (R415). -/
theorem exec_fwAbort : ∃ t, exec (.fwAbort via) s = .next t ∧
    (if s.fw.fn = .starting ∧ s.fw.owner = some via
     then Noted (answered via .success [0, 0] { s with fw := { s.fw with
       fn := .off, phase := 0, received := [], total := 0, owner := none, fetching := none } }) t
     else t = answered via .success [0x05, 0x07] s) := by
  refine ⟨_, congrArg Host.Outcome.next (if_neg (by simp [hc])), ?_⟩
  split
  case isTrue h =>
    rw [fwAnswer_eq]
    exact (noted_setFwFn .off (modFw (fun f =>
      { f with phase := 0, received := [], total := 0, owner := none, fetching := none }) s)).answered ..
  case isFalse h => exact fwAnswer_eq ..

/-- FW_FETCH over another carrier than the mailbox (R415). -/
theorem exec_fwFetch_unsupported (hvia : via ≠ .mailbox) (addr : Word64) (len : Word32) :
    exec (.fwFetch via addr len) s = .next (answered via .unsupported [] s) :=
  congrArg Host.Outcome.next ((if_neg (by simp [hc])).trans ((if_pos hvia).trans (answer_eq ..)))

end

section

variable {s : State}

/-- An accepted FW_FETCH is under way until its bytes have come (R416). -/
theorem exec_fwFetch (hc : s.carrierUp .mailbox = true) (hopen : s.receiving .mailbox = true) (addr : Word64) {len : Word32}
    (hroom : s.fw.received.length + len.toNat ≤ s.fw.total) (hlen : len ≠ 0) : ∃ t, exec (.fwFetch .mailbox addr len) s = .next t ∧
      Noted (answered .mailbox .success [0, 0] { s with fw := { s.fw with fetching := some len.toNat } }) t := by
  refine ⟨_, congrArg Host.Outcome.next ((if_neg (by simp [hc])).trans ((if_neg (not_not.2 rfl)).trans (if_neg (by simp [hopen, hroom])))), ?_⟩
  rw [fwAnswer_eq, if_neg hlen]
  exact (noted_modFw (noted_hostRead ..) fun f => { f with fetching := some len.toNat }).answered ..

/-- The bytes of a fetch's read are appended, and it has ended when they are all there (R416). -/
theorem exec_fwFetchCompletion (hup : s.hubUp = true) (hpath : s.hostPath = true) {n : Nat} (hfetch : s.fw.fetching = some n) (data : Bytes) :
    exec (.fwFetchCompletion data true) s = .next { s with fw := { s.fw with
      received := s.fw.received ++ data.take n, fetching := if n ≤ data.length then none else some (n - data.length) } } := by
  have left : (if (data.take n).length = n then none else some (n - (data.take n).length)) = if n ≤ data.length then none else some (n - data.length) := by
    rw [List.length_take]
    by_cases h : n ≤ data.length
    · rw [Nat.min_eq_left h, if_pos rfl, if_pos h]
    · rw [Nat.min_eq_right (by omega), if_neg (by omega), if_neg h]
  simp only [exec, execFwFetchCompletion, hfetch, hup, hpath, Bool.not_true, Bool.false_eq_true, or_self, ↓reduceIte, modFw, left]

/-- A read of a fetch that fails ends the receipt (R416). -/
theorem exec_fwFetchCompletion_failed (hup : s.hubUp = true) (hpath : s.hostPath = true) {n : Nat} (hfetch : s.fw.fetching = some n) (data : Bytes) :
    exec (.fwFetchCompletion data false) s = .next (failReceipt 0x709 s) := by
  simp only [exec, execFwFetchCompletion, hfetch, hup, hpath, Bool.not_true, Bool.not_false, Bool.false_eq_true, or_self, ↓reduceIte]

end

/-- Settles O52: the receipt's commands one by one. -/
theorem firmwareReceipt : Obligations.firmwareReceipt := by
  refine ⟨fun via s hc => ⟨exec_fwBegin hc, fun offset data hne hlen => exec_fwChunk hc offset hne hlen, exec_fwCommit hc, exec_fwAbort hc⟩,
    fun s => ⟨fun addr len hc hfn hphase howner hfetch hroom hlen => ?_, fun via addr len hvia hc => exec_fwFetch_unsupported hc hvia addr len,
      fun data n hup hpath hfetch => ⟨exec_fwFetchCompletion hup hpath hfetch data, _, exec_fwFetchCompletion_failed hup hpath hfetch data,
        noted_failReceipt 0x709 s⟩⟩⟩
  exact exec_fwFetch hc (receiving_iff.2 ⟨hfn, hphase, howner, hfetch⟩) addr hroom hlen

/-! ### The end of a verification -/

/-- Steps that change the islands alone change them alone one after the other. -/
theorem foldl_of_islands {α : Type} {f : State → α → State} (hf : ∀ s a, ∃ isl, f s a = { s with islands := isl }) (l : List α) (s : State) :
    ∃ isl, l.foldl f s = { s with islands := isl } := by
  induction l generalizing s with
  | nil => exact ⟨s.islands, rfl⟩
  | cons a l ih =>
    obtain ⟨isl, h⟩ := hf s a
    obtain ⟨isl', h'⟩ := ih (f s a)
    exact ⟨isl', by rw [List.foldl_cons, h', h]⟩

/-- The sections go into the islands' code memories, and nothing else of the state changes (R419). -/
theorem copySections_eq (signed : Bytes) (s : State) : ∃ isl, copySections signed s = { s with islands := isl } :=
  foldl_of_islands (fun s _ => foldl_of_islands (fun _ _ => ⟨_, rfl⟩) _ s) _ s

/-- The firmware as a good image leaves it. -/
def firmwareLoaded (s : State) : Firmware :=
  let signed := s.fw.received.drop sigBlock
  { s.fw with
    fn := .ready, phase := 4, sections := 6, code := 0, secver := BitVec.ofNat 32 (bits (word (fwHead signed) 1) 31 0), digest := Config.sha3 signed
    build := word (fwHead signed) 3, store := signed, tables := sectionBytes signed 5, owner := none }

/-- A good image is loaded: the firmware, the result ABI, and beside them the islands' code memories and what notes its end. -/
theorem loadFirmware_eq (s : State) : ∃ isl ev lost pv sent, loadFirmware s = { s with
    fw := firmwareLoaded s
    hub := { s.hub with resultAbi := BitVec.ofNat 32 (bits (word (fwHead (s.fw.received.drop sigBlock)) 2) 63 32) }
    islands := isl
    host := { s.host with events := ev, eventsLost := lost, pendingV := pv, sentMsi := sent } } := by
  unfold loadFirmware
  dsimp only
  generalize hcopy : copySections _ _ = u
  obtain ⟨isl, hisl⟩ := copySections_eq (s.fw.received.drop sigBlock) (modFw (fun f => { f with
    phase := 4, sections := 6, code := 0, secver := BitVec.ofNat 32 (bits (word (fwHead (s.fw.received.drop sigBlock)) 1) 31 0)
    digest := Config.sha3 (s.fw.received.drop sigBlock), build := word (fwHead (s.fw.received.drop sigBlock)) 3
    store := s.fw.received.drop sigBlock, tables := sectionBytes (s.fw.received.drop sigBlock) 5, owner := none }) s)
  obtain rfl := hcopy.symm.trans hisl
  obtain ⟨-, isl', ev, lost, pv, sent, h⟩ := (noted_setFwFn .ready (State.modHub _ fun x => { x with
    resultAbi := BitVec.ofNat 32 (bits (word (fwHead (s.fw.received.drop sigBlock)) 2) 63 32) })).trans (noted_raiseEvent ..)
  exact ⟨isl', ev, lost, pv, sent, h⟩

theorem ofNat_bits_low (x : Word64) : BitVec.ofNat 32 (bits x 31 0) = x.setWidth 32 := by
  apply BitVec.eq_of_toNat_eq
  simp [bits]

theorem ofNat_bits_high (x : Word64) : BitVec.ofNat 32 (bits x 63 32) = x.extractLsb' 32 32 := by
  apply BitVec.eq_of_toNat_eq
  simp [bits, Nat.shiftRight_eq_div_pow]

/-- FW_VERIFY_END of a committed image: its code decides (R418, R419). -/
theorem exec_fwVerifyEnd {s : State} (hup : s.hubUp = true) (hfn : s.fw.fn = .starting) (hphase : s.fw.phase = 2) :
    exec .fwVerifyEnd s = .next (if fwCheck s.fw.received s.fw.floor ≠ 0 then failReceipt (fwCheck s.fw.received s.fw.floor) s else loadFirmware s) :=
  congrArg Host.Outcome.next (if_neg (by simp [hup, hfn, hphase]))

/-- Settles O53: the outcome of the check, and what loading leaves. -/
theorem firmwareVerify : Obligations.firmwareVerify := by
  intro s hup hfn hphase
  have run := exec_fwVerifyEnd hup hfn hphase
  refine ⟨fun h => ⟨loadFirmware s, run.trans (congrArg Host.Outcome.next (if_neg (not_not.2 h))), ?_⟩,
    fun h => ⟨_, run.trans (congrArg Host.Outcome.next (if_pos h)), noted_failReceipt _ s⟩⟩
  obtain ⟨isl, ev, lost, pv, sent, e⟩ := loadFirmware_eq s
  rw [e]
  exact ⟨rfl, rfl, rfl, rfl, rfl, ofNat_bits_low _, ofNat_bits_high _, rfl, rfl, rfl, rfl, rfl, rfl⟩

end Sys2Proof
end

section
/-! PROOFS. The SPDM responder's answers, sessions and IDE keys (R390, R423 to R428, R442). -/

namespace Sys2Proof

open Machine Safety

/-! ### What a port serves -/

/-- The requests that need no session, each with the level of negotiation it needs. -/
def attestRows (p : SpdmPort) (off len idx : Nat) (signed flash : Bool) (nonce : Bytes) : List (Nat × Instr) :=
  [(0, .getVersion p), (1, .getCapabilities p), (2, .negotiateAlgorithms p), (3, .getDigests p), (3, .getCertificate p 0 off len),
    (3, .challenge p nonce flash), (3, .getMeasurements p idx signed nonce flash)]

/-- Each of them is served on its port at its level. -/
theorem attestRows_served {p : SpdmPort} {off len idx : Nat} {signed flash : Bool} {nonce : Bytes} {r : Nat × Instr}
    (h : r ∈ attestRows p off len idx signed flash nonce) : ∃ run, ∀ s, exec r.2 s = .next (spdmServe p r.1 run s) := by
  simp only [attestRows, List.mem_cons, List.not_mem_nil, or_false] at h
  rcases h with rfl | rfl | rfl | rfl | rfl | rfl | rfl
  all_goals exact ⟨_, fun _ => rfl⟩

/-- The signed answers, each with what it says before its nonce. -/
def signedRows (p : SpdmPort) (nonce : Bytes) (flash : Bool) : List (Instr × (State → Bytes)) :=
  [(.challenge p nonce flash, fun s : State => spdmMsg 3 0 1 s.certDigest)] ++
    ((List.range 6 ++ [0xFF]).map fun i => (.getMeasurements p i true nonce flash, fun s : State => s.measurements i))

/-- The blocks that GET_MEASUREMENTS may name: 0 to 5, and all. -/
theorem not_invalid_index {i : Nat} (h : i ∈ List.range 6 ++ [0xFF]) : ¬ (5 < i ∧ i ≠ 0xFF) := by
  simp only [List.mem_append, List.mem_range, List.mem_singleton] at h
  omega

section

variable {p : SpdmPort} {s : State} (hup : s.spdmUp p = true) (hident : s.ident.pufState = 2) (hfactory : s.faults.factory = false)
  (hlevel : 3 ≤ tget 0 s.ident.negotiated (portNum p))

include hup hident hfactory hlevel

/-- A request that has a port with an identity and its negotiation ended. -/
theorem serve_negotiated (run : State → State) : spdmServe p 3 run s = run s := serve_eq hup hident hfactory hlevel

theorem exec_getMeasurements {i : Nat} (h : ¬ (5 < i ∧ i ≠ 0xFF)) (signed flash : Bool) (nonce : Bytes) :
    exec (.getMeasurements p i signed nonce flash) s = .next
      (if signed then spdmSigned p flash nonce (fun s => s.measurements i) id s else spdmSay p (s.measurements i) s) :=
  congrArg Host.Outcome.next ((serve_negotiated hup hident hfactory hlevel _).trans (if_neg h))

/-- A signed answer is the signature's rule on what it says. -/
theorem signedRows_signed {nonce : Bytes} {flash : Bool} {c : Instr × (State → Bytes)} (h : c ∈ signedRows p nonce flash) :
    exec c.1 s = .next (spdmSigned p flash nonce c.2 id s) := by
  simp only [signedRows, List.mem_append, List.mem_singleton, List.mem_map] at h
  rcases h with rfl | ⟨i, hi, rfl⟩
  · exact congrArg Host.Outcome.next (serve_negotiated hup hident hfactory hlevel _)
  · exact exec_getMeasurements hup hident hfactory hlevel (not_invalid_index (by simpa using hi)) true flash nonce

/-- A request inside a session of the port, whose handshake is finished or not as the request needs. -/
theorem inSession_of_found {n : Nat} {x : Session} {ready : Bool} (hx : s.session p n = some x) (hready : x.ready = ready) (run : State → State) :
    inSession p n ready run s = run s := by
  refine (serve_negotiated hup hident hfactory hlevel _).trans ?_
  rw [hx]
  exact if_pos hready

/-- The handshake of the session is not as the request needs it (R425). -/
theorem inSession_of_unexpected {n : Nat} {x : Session} {ready : Bool} (hx : s.session p n = some x) (hready : x.ready ≠ ready) (run : State → State) :
    inSession p n ready run s = spdmSay p (spdmError 4) s := by
  refine (serve_negotiated hup hident hfactory hlevel _).trans ?_
  rw [hx]
  exact if_neg hready

/-- The port has no session of that id. -/
theorem inSession_of_absent {n : Nat} (hx : s.session p n = Option.none) (ready : Bool) (run : State → State) :
    inSession p n ready run s = spdmSay p (spdmError 2) s := by
  refine (serve_negotiated hup hident hfactory hlevel _).trans ?_
  rw [hx]
  rfl

end

/-! ### Signatures -/

theorem noted_signingStops (s : State) : Noted { s with ident := { s.ident with code := 0x706 } } (signingStops s) := noted_noteReady ..

/-! ### IDE keys -/

theorem setIde_eq (b : Nat) (on : Bool) (s : State) : setIde b on s = s.modHost fun h => { h with ideState := ideBit b on s.host.ideState } := rfl

/-- Bit 3 is the key of CXL.cachemem, bit 4 its containment mode (R390). -/
theorem getLsbD_cxlIde (on containment : Bool) (x : Byte) {b : Nat} (hb : b < 8) :
    (ideBit 4 (on && containment) (ideBit 3 on x)).getLsbD b = if b = 3 then on else if b = 4 then on && containment else x.getLsbD b := by
  rw [getLsbD_ideBit 4 _ _ hb, getLsbD_ideBit 3 _ _ hb]
  by_cases h3 : b = 3
  · subst h3
    rfl
  · rw [if_neg h3, if_neg h3]

/-- Settles O54: every request is served by its port's rules, and the sessions' by those of their session. -/
theorem attestationAndSessions : Obligations.attestationAndSessions := by
  refine ⟨fun p s => ⟨fun off len idx signed flash nonce r hr => ?_, fun hup hident hfactory => ⟨?_, fun h1 => ?_, fun h2 => ?_,
      fun h3 => ⟨?_, fun off len hoff => ?_, fun k off len hbad => ?_, fun idx nonce flash hidx => ?_, fun idx signed flash nonce h5 hall => ?_,
        fun nonce flash c hc => ?_⟩⟩⟩,
    fun p s hup hident hfactory hlevel => ⟨fun pub flash => ⟨fun hfull => ?_, fun hroom hcode hrate hleaf => ?_⟩,
      fun n x verify k on containment hx => ⟨fun hready => ?_, fun hready => ⟨fun hok => ?_, fun hbad => ?_, fun c hc => ?_⟩,
        fun hready => ⟨?_, ?_, ?_, fun hdoe => ⟨fun hk => ?_, fun hk => ?_, ?_⟩⟩⟩,
      fun n verify hx c hc => ?_⟩⟩
  · obtain ⟨run, hrun⟩ := attestRows_served (p := p) hr
    rw [hrun s]
    obtain ⟨down, noident, early⟩ := serve_refuses (p := p) (level := r.1) (run := run) (s := s)
    exact ⟨fun h => congrArg Host.Outcome.next (down h), fun h h' => congrArg Host.Outcome.next (noident h h'),
      fun h h' h'' h''' => congrArg Host.Outcome.next (early h h' h'' h''')⟩
  · exact congrArg Host.Outcome.next (serve_eq hup hident hfactory (Nat.zero_le _))
  · exact congrArg Host.Outcome.next (serve_eq hup hident hfactory h1)
  · exact congrArg Host.Outcome.next (serve_eq hup hident hfactory h2)
  · exact congrArg Host.Outcome.next (serve_negotiated hup hident hfactory h3 _)
  · exact congrArg Host.Outcome.next ((serve_negotiated hup hident hfactory h3 _).trans (if_neg (by omega)))
  · exact congrArg Host.Outcome.next ((serve_negotiated hup hident hfactory h3 _).trans (if_pos hbad))
  · exact exec_getMeasurements hup hident hfactory h3 (by omega) false flash nonce
  · exact congrArg Host.Outcome.next ((serve_negotiated hup hident hfactory h3 _).trans (if_pos ⟨h5, hall⟩))
  · rw [signedRows_signed hup hident hfactory h3 hc]
    obtain ⟨stopped, busy, signs⟩ := signed_cases (p := p) (flash := flash) (sent := nonce) (msg := c.2) (more := id) (s := s)
    refine ⟨fun h => congrArg Host.Outcome.next (stopped h), fun h h' => congrArg Host.Outcome.next (busy h h'), fun h h' => ?_⟩
    obtain ⟨left, renewed, ended⟩ := signs h h'
    exact ⟨fun hl => congrArg Host.Outcome.next (left hl), fun hl hmax hflash => congrArg Host.Outcome.next (renewed hl hmax hflash),
      fun hl hend => ⟨_, congrArg Host.Outcome.next (ended hl hend), noted_signingStops s⟩⟩
  · exact congrArg Host.Outcome.next ((serve_negotiated hup hident hfactory hlevel.ge _).trans (if_pos hfull))
  · obtain ⟨-, -, signs⟩ := signed_cases (p := p) (flash := flash) (sent := pub)
      (msg := fun s => spdmMsg 0x64 0 0 (leBytes 2 s.ident.nextSession ++ Config.spdmExchange s.ident.nextSession pub)) (more := openSession p) (s := s)
    obtain ⟨left, -, -⟩ := signs hcode hrate
    exact ⟨_, congrArg Host.Outcome.next ((serve_negotiated hup hident hfactory hlevel.ge _).trans ((if_neg (by omega)).trans (left hleaf))),
      rfl, rfl, rfl, rfl⟩
  · exact congrArg Host.Outcome.next (inSession_of_unexpected hup hident hfactory hlevel.ge hx (by simp [hready]) _)
  · exact congrArg Host.Outcome.next ((inSession_of_found hup hident hfactory hlevel.ge hx hready _).trans (if_pos hok))
  · exact congrArg Host.Outcome.next ((inSession_of_found hup hident hfactory hlevel.ge hx hready _).trans (if_neg (by simp [hbad])))
  · simp only [List.mem_cons, List.not_mem_nil, or_false] at hc
    rcases hc with rfl | rfl | rfl
    all_goals exact congrArg Host.Outcome.next (inSession_of_unexpected hup hident hfactory hlevel.ge hx (by simp [hready]) _)
  · exact congrArg Host.Outcome.next (inSession_of_found hup hident hfactory hlevel.ge hx hready _)
  · exact congrArg Host.Outcome.next (inSession_of_found hup hident hfactory hlevel.ge hx hready _)
  · exact congrArg Host.Outcome.next (inSession_of_found hup hident hfactory hlevel.ge hx hready _)
  · subst hdoe
    exact congrArg Host.Outcome.next ((inSession_of_found hup hident hfactory hlevel.ge hx hready _).trans (if_pos hk))
  · subst hdoe
    exact ⟨ideBit k on s.host.ideState, congrArg Host.Outcome.next ((inSession_of_found hup hident hfactory hlevel.ge hx hready _).trans (if_neg (by omega))),
      fun b hb => getLsbD_ideBit k on _ hb⟩
  · subst hdoe
    exact ⟨ideBit 4 (on && containment) (ideBit 3 on s.host.ideState),
      congrArg Host.Outcome.next (inSession_of_found hup hident hfactory hlevel.ge hx hready _), fun b hb => getLsbD_cxlIde on containment _ hb⟩
  · simp only [List.mem_cons, List.not_mem_nil, or_false] at hc
    rcases hc with rfl | rfl | rfl | rfl
    all_goals exact congrArg Host.Outcome.next (inSession_of_absent hup hident hfactory hlevel.ge hx _ _)

end Sys2Proof
end

section
/-! PROOFS. Power, resets and the boot ROM (R408, R409, R423, R424, R428, R442, R474 to R477, R481). -/

namespace Sys2Proof

open Machine Safety

/-! ### Power and resets -/

/-- A wiped state is the state after reset but for the module, the flash, the queue, the host's memory and the count of open values. -/
theorem wiped_eq_reset (m : Module) (s : State) : { wiped m s with
    pending := [], flash := State.reset.flash, module := State.reset.module
    host := { (wiped m s).host with hostMem := [] }, hub := { (wiped m s).hub with freeUsed := 0 } } = State.reset := rfl

/-- Settles O55: every reset wipes the state with its own pins. -/
theorem moduleResets : Obligations.moduleResets := by
  intro s
  refine ⟨fun hoff hcool => congrArg Host.Outcome.next (if_neg (by simp [hoff, hcool])), fun hot => congrArg Host.Outcome.next (if_pos (.inr hot)),
    fun r hr hpower => ?_⟩
  simp only [List.mem_cons, List.not_mem_nil, or_false] at hr
  rcases hr with rfl | rfl | rfl
  · exact ⟨wiped _ s, rfl, rfl, rfl, rfl, rfl, wiped_eq_reset _ s⟩
  · exact ⟨wiped _ s, rfl, rfl, rfl, rfl, rfl, wiped_eq_reset _ s⟩
  · exact ⟨wiped _ s, congrArg Host.Outcome.next (if_pos (hpower rfl)), rfl, rfl, rfl, rfl, wiped_eq_reset _ s⟩

/-! ### The boot ROM -/

theorem noted_modIdent {v w : State} (h : Noted v w) (f : Identity → Identity) : Noted (modIdent f v) (modIdent f w) := by
  obtain ⟨a, _, _, _, _, _, rfl⟩ := h
  exact ⟨a, _, _, _, _, _, rfl⟩

theorem noted_freeUsed {v w : State} (h : Noted v w) :
    Noted (v.modHub fun x => { x with freeUsed := x.freeUsed + 1 }) (w.modHub fun x => { x with freeUsed := x.freeUsed + 1 }) := by
  obtain ⟨a, _, _, _, _, _, rfl⟩ := h
  exact ⟨a, _, _, _, _, _, rfl⟩

/-- The identity of a module whose seed is d, before its record is read (R423, R424). -/
def seededIdentity (d : Bytes) (i : Identity) : Identity :=
  { i with pufState := 2, seed := d, pubkey := fit 68 (Config.attestKey d), uid := fit 32 (Config.shake256 (uidLabel ++ Config.attestKey d) 32), code := 0x706 }

theorem noted_bootHub (s : State) : Noted (modIdent (fun i => { i with served := true, romDigest := fit 48 Config.romDigest }) s) (bootHub s) :=
  noted_noteReady ..

/-- Without a seed there is no identity, 0707h, and an open floor. -/
theorem noted_bootIdentity_absent {v w : State} (h : Noted v w) : ∃ floor, Noted (modFw (fun f => { f with floor := floor })
    (modIdent (fun i => { i with pufState := 3, code := 0x707 }) (v.modHub fun x => { x with freeUsed := x.freeUsed + 1 }))) (bootIdentity .none w) :=
  ⟨BitVec.ofNat 32 (Config.freeWord w.hub.freeUsed).toNat, noted_modFw (noted_modIdent (noted_freeUsed h) _) _⟩

theorem noted_bootIdentity_seeded {v w : State} (h : Noted v w) (d : Bytes) : Noted (modIdent (seededIdentity d) v) (bootIdentity (some d) w) :=
  (noted_modIdent h _).trans (noted_noteReady ..)

theorem bootRecord_of_no_identity {s : State} (h : s.ident.pufState ≠ 2) : bootRecord s = s := if_pos h

/-- A record in flash that is good gives the leaves and the floor (R428). -/
theorem noted_bootRecord_good {v w : State} {flash : Flash} (h : Noted v w) (hident : v.ident.pufState = 2) (hflash : v.flash = flash)
    (hrec : flash.macOk = true ∧ flash.count = flash.counter) :
    Noted (modFw (fun f => { f with floor := flash.fwFloor })
      (modIdent (fun i => { i with code := 0, leafLimit := flash.leafLimit, leafNext := flash.leafLimit }) v)) (bootRecord w) := by
  have k := noted_modFw (noted_modIdent h fun i => { i with code := 0, leafLimit := flash.leafLimit, leafNext := flash.leafLimit })
    fun f => { f with floor := flash.fwFloor }
  obtain ⟨a, _, _, _, _, _, rfl⟩ := h
  subst hflash
  unfold bootRecord
  rw [if_neg (not_not.2 hident), if_pos (by simpa using hrec)]
  exact k.trans (noted_noteReady ..)

/-- A bad record leaves no leaf and the highest floor (R409). -/
theorem noted_bootRecord_bad {v w : State} (h : Noted v w) (hident : v.ident.pufState = 2) (hrec : ¬ (v.flash.macOk = true ∧ v.flash.count = v.flash.counter)) :
    Noted (modFw (fun f => { f with floor := 0xFFFFFFFF }) v) (bootRecord w) := by
  have k := noted_modFw h fun f => { f with floor := 0xFFFFFFFF }
  obtain ⟨a, _, _, _, _, _, rfl⟩ := h
  unfold bootRecord
  rw [if_neg (not_not.2 hident), if_neg (by simpa using hrec)]
  exact k

/-- The state with the straps and the measured delays of the beacon tree taken. -/
def strapped (b : BootIn) (s : State) : State :=
  (b.delays.filter fun d => (islandType d.1).isSome).foldl (fun s d => s.modIsland d.1 fun x => { x with delay := d.2 })
    { s with module := { s.module with perst := false, ids := b.ids }, faults := { s.faults with factory := b.ftm } }

theorem strapped_eq (b : BootIn) (s : State) : ∃ isl, strapped b s =
    { s with module := { s.module with perst := false, ids := b.ids }, faults := { s.faults with factory := b.ftm }, islands := isl } :=
  foldl_of_islands (fun _ _ => ⟨_, rfl⟩) _ _

theorem exec_perstRelease {b : BootIn} {s : State} (hpower : s.module.powered = true) (hperst : s.module.perst = true) :
    exec (.perstRelease b) s = .next (if b.romOk then bootRecord (bootIdentity b.seed (bootHub (strapped b s))) else strapped b s) :=
  congrArg Host.Outcome.next (if_neg (by simp [hpower, hperst]))

/-- Settles O56: the steps of the boot ROM one after the other. -/
theorem bootRom : Obligations.bootRom := by
  intro b s hpower hperst
  have run := exec_perstRelease (b := b) hpower hperst
  obtain ⟨isl, hu⟩ := strapped_eq b s
  have hident : (strapped b s).ident = s.ident := by rw [hu]
  have hfw : (strapped b s).fw = s.fw := by rw [hu]
  have hhub : (strapped b s).hub = s.hub := by rw [hu]
  have hflash : (strapped b s).flash = s.flash := by rw [hu]
  refine ⟨fun hrom => run.trans (congrArg Host.Outcome.next (if_neg (by simp [hrom]))), fun hrom hseed => ?_, fun d hrom hseed => ?_⟩
  · obtain ⟨floor, absent⟩ := noted_bootIdentity_absent (noted_bootHub (strapped b s))
    refine ⟨floor, _, run.trans (congrArg Host.Outcome.next (if_pos hrom)), ?_⟩
    rw [hseed, bootRecord_of_no_identity (show (3 : Nat) ≠ 2 by decide)]
    refine Noted_of_eq absent ?_
    simp only [modFw, modIdent, State.modHub, hident, hfw, hhub]
    rfl
  · have seeded := noted_bootIdentity_seeded (noted_bootHub (strapped b s)) d
    refine ⟨_, run.trans (congrArg Host.Outcome.next (if_pos hrom)), ?_⟩
    rw [hseed]
    dsimp only
    split
    case isTrue hrec =>
      refine Noted_of_eq (noted_bootRecord_good seeded rfl hflash hrec) ?_
      simp only [modFw, modIdent, seededIdentity, hident, hfw]
      rfl
    case isFalse hrec =>
      refine Noted_of_eq (noted_bootRecord_bad seeded rfl (hflash.symm ▸ hrec)) ?_
      simp only [modFw, modIdent, seededIdentity, hident, hfw]
      rfl

end Sys2Proof
end

section
/-! PROOFS. The host link, the sideband and DOE (R386, R392, R397, R400, R407, R411, R432, R434, R435, R467). -/

namespace Sys2Proof

open Machine Safety

/-! ### The link's ups and downs -/

section

variable {s : State}

/-- The host interface as a link of the flit size that comes up leaves it. -/
def linkUpHost (flit256 : Bool) (h : HostIf) : HostIf :=
  { h with
    linkState := if flit256 then 2 else 3, linkRate := if flit256 then 64 else 32, linkWidth := 8
    retrains := if h.linkRate = 0 then h.retrains else h.retrains + 1 }

theorem exec_hostLinkUp (flit256 : Bool) (hserves : s.inService idHost = true) (hdown : s.linkUp = false) : exec (.hostLinkUp flit256) s =
    .next (failCut (flushHost (sendPending 1 (sendPending 0 (noteReady s (s.modHost (linkUpHost flit256))))))) :=
  congrArg Host.Outcome.next (if_pos (by simp [hserves, hdown]))

theorem noted_pendingSent (s t : State) : Noted t (sendPending 1 (sendPending 0 (noteReady s t))) :=
  (noted_noteReady s t).trans ((noted_sendPending 0 _).trans (noted_sendPending 1 _))

/-- What goes with the link is cut off (R416, R435). -/
def linkCut (s : State) : State := hostCut (noteReady s (s.modHost fun h => { h with linkState := 0 }))

theorem linkState_linkCut (s : State) : (linkCut s).host.linkState = 0 := by
  obtain ⟨-, _, _, _, _, _, e⟩ := noted_noteReady s (s.modHost fun h => { h with linkState := 0 })
  exact (linkState_hostCut _).trans (by rw [e]; rfl)

theorem still_linkCut (s : State) : Still s (linkCut s) :=
  still_hostCut _ (still_noteReady s _ ((Still.raw_iff (s := s)).2 (Still.refl _)))

/-- A fault of the host island leaves a link that is down so. -/
theorem linkState_raiseFault_host {code : Word16} {detail : Word32} {addr : Word64} (hcode : code ≠ 0x831) (h : s.host.linkState = 0) :
    (raiseFault idHost code detail addr s).host.linkState = 0 := by
  unfold raiseFault
  split
  · exact h
  · dsimp only
    rw [if_neg hcode]
    split
    · exact linkState_linkCut _
    · split
      · split
        all_goals exact h
      · split
        all_goals exact h

/-- The link goes down: fault 0840h of the host island (R407, R432). -/
theorem faulted_hostLinkDown {aer : Word32} (halive : s.alive = true) (hw : twf {} s.islands = true) :
    Faulted idHost 0x840 aer 0 s (raiseFault idHost 0x840 aer 0 (linkCut s)) := by
  have still := still_linkCut s
  refine faulted_of_still still hw _ _ _ _ rfl (faulted_raiseFault _ _ _ _ _ ?_ (by decide) (still.islands hw).1)
  unfold State.alive at halive ⊢
  rw [still.module]
  exact halive

/-- The unmasking of a vector before what is pending goes out. -/
def unmasked (v : Nat) (s : State) : State := s.modHost fun h => { h with unmasked := tset false h.unmasked v true }

theorem exec_vectorUnmask {v : Nat} (hv : v < 2) (hreach : s.reaches .mailbox = true) : exec (.vectorUnmask v) s = .next (sendPending v (unmasked v s)) :=
  congrArg Host.Outcome.next (if_pos (by simp [hv, hreach]))

/-! ### The sideband and DOE -/

/-- The host interface with an answer on binding b of MCTP. -/
def mctpSaid (b : Nat) (r : Bytes) (h : HostIf) (s : State) : State := { s with host := { h with mctp := tset [] h.mctp b r } }

theorem mctpAnswer_eq {via : Carrier} {b : Nat} (hb : binding via = some b) (hc : s.carrierUp via = true) (bs : State → Bytes) :
    mctpAnswer via bs s = mctpSaid b (bs s) s.host s := by
  unfold mctpAnswer
  rw [hb]
  exact if_pos hc

/-- The host interface with an endpoint id assigned on a binding (R400, R406). -/
def eidAssigned (via : Carrier) (eid : Byte) (h : HostIf) : HostIf := if via = .i3c then { h with eidI3c := eid } else { h with eidPci := eid }

theorem exec_setEndpointId {via : Carrier} {b : Nat} (hb : binding via = some b) (hc : s.carrierUp via = true) (eid : Byte) :
    exec (.setEndpointId via eid) s = .next (if eid = 0 ∨ eid = 0xFF then mctpSaid b [2] s.host s
      else mctpSaid b [0, 0, eid, 0] (eidAssigned via eid s.host) s) := by
  refine congrArg Host.Outcome.next ((if_neg (by simp [hc])).trans ?_)
  split
  case isTrue h => exact mctpAnswer_eq hb hc _
  case isFalse h =>
    cases via with
    | mailbox => cases hb
    | i3c => exact mctpAnswer_eq (s := s.modHost (eidAssigned .i3c eid)) hb hc _
    | vdm => exact mctpAnswer_eq (s := s.modHost (eidAssigned .vdm eid)) hb hc _

/-- The answer of DOE_DISCOVERY: a protocol, and the index of the next one, 0 after the last (R386). -/
def doeAnswer (n : Nat) : Bytes :=
  leBytes 2 (doeProtocols.getD n (0xFFFF, 0)).1 ++ leBytes 1 (doeProtocols.getD n (0xFFFF, 0)).2 ++ leBytes 1 (if n + 1 < 4 then n + 1 else 0)

/-- The answer of CDAT_TABLE_ACCESS: the handle of the next structure, FFFFh after the last, and a structure (R392). -/
def cdatAnswer (n : Nat) : Bytes := [0, 0] ++ leBytes 2 (if n + 1 < 5 then n + 1 else 0xFFFF) ++ cdatEntries.getD n []

theorem exec_doeDiscovery (n : Nat) (hreach : s.reaches .mailbox = true) (hup : s.hubUp = true) :
    exec (.doeDiscovery n) s = .next (s.modHost fun h => { h with doe := doeAnswer n }) :=
  congrArg Host.Outcome.next (if_neg (by simp [hreach, hup]))

theorem exec_cdatTableAccess (n : Nat) (hreach : s.reaches .mailbox = true) (hup : s.hubUp = true) :
    exec (.cdatTableAccess n) s = .next (s.modHost fun h => { h with doe := cdatAnswer n }) :=
  congrArg Host.Outcome.next (if_neg (by simp [hreach, hup]))

/-- The index of the next protocol stands last in the answer. -/
theorem getD_doeAnswer (n : Nat) : (doeAnswer n).getD 3 0 = BitVec.ofNat 8 (if n + 1 < 4 then n + 1 else 0) := rfl

/-- Every structure of the CDAT takes 24 bytes (R392). -/
theorem length_cdatAnswer {n : Nat} (h : n < 5) : (cdatAnswer n).length = 28 := by
  interval_cases n
  all_goals rfl

/-- A unit put at another value than the default is at it. -/
theorem tget_tset_of_ne_default {α : Type} [DecidableEq α] {d v : α} (hv : v ≠ d) (t : Table α) (k : Nat) : tget d (tset d t k v) k = v := by
  induction t with
  | nil => simp [tset, tget, hv]
  | cons e t ih =>
    obtain ⟨k', v'⟩ := e
    simp only [tset, hv, ↓reduceIte]
    split
    · simp [tget]
    · split
      · simp [tget]
      · next hne => simp [tget, Ne.symm hne, ih]

end

/-- Settles O57: each message on its binding, and the link's two ways. -/
theorem hostLinkAndSideband : Obligations.hostLinkAndSideband := by
  refine ⟨fun s => ⟨fun flit256 hserves hdown => ⟨_, _, exec_hostLinkUp flit256 hserves hdown, rfl, noted_pendingSent s _⟩, fun aer hup halive hw => ?_,
      fun v hv hreach => ?_⟩,
    fun s => ⟨fun static dynamic halive hserved => ⟨?_, ?_⟩, fun via b hb hc => ⟨fun eid => exec_setEndpointId hb hc eid, ?_, ?_, ?_⟩,
      fun n hreach hup => ⟨?_, ?_⟩, fun addr hup => ?_⟩⟩
  · exact ⟨_, congrArg Host.Outcome.next (if_pos hup), faulted_hostLinkDown halive hw, linkState_raiseFault_host (by decide) (linkState_linkCut s)⟩
  · refine ⟨_, exec_vectorUnmask hv hreach, noted_sendPending v _, fun hup => ?_⟩
    exact noted_sendPending_sent (s := unmasked v s) hup v (tget_tset_of_ne_default (by decide) _ v)
  · refine congrArg Host.Outcome.next ?_
    simp only [halive, hserved, Bool.and_self, Bool.true_and, decide_eq_true_eq]
    rfl
  · refine congrArg Host.Outcome.next ?_
    simp only [halive, hserved, Bool.and_self, Bool.true_and, decide_eq_true_eq]
    rfl
  · exact congrArg Host.Outcome.next (mctpAnswer_eq hb hc _)
  · exact congrArg Host.Outcome.next (mctpAnswer_eq hb hc _)
  · exact congrArg Host.Outcome.next (mctpAnswer_eq hb hc _)
  · refine ⟨_, exec_doeDiscovery n hreach hup, rfl, rfl, fun h => ?_, fun h => ?_⟩
    · exact (getD_doeAnswer n).trans (by rw [if_pos h])
    · exact (getD_doeAnswer n).trans (by rw [if_neg (by omega)]; rfl)
  · exact ⟨_, exec_cdatTableAccess n hreach hup, rfl, length_cdatAnswer, rfl⟩
  · exact congrArg Host.Outcome.next (if_pos hup)

end Sys2Proof
end

section
/-! PROOFS. Faults that are raised and collected, and islands that return (R22, R432, R435, R437, R439 to R443). -/

namespace Sys2Proof

open Machine Safety

/-! ### The collector -/

/-- The history after an entry that a collector takes. -/
def historyAfter (s : State) (e : HistEntry) : List HistEntry :=
  if s.faults.captured then s.faults.history else (s.faults.history ++ [e]).drop (s.faults.history.length + 1 - 32)

theorem pushHistory_eq (e : HistEntry) (s : State) : pushHistory e s = { s with faults := { s.faults with history := historyAfter s e } } := by
  unfold pushHistory historyAfter
  dsimp only
  split
  · rfl
  · rw [List.length_append]
    rfl

/-- The faults' entries after a notice is taken. -/
def faultsCollected (r : FaultRec) (s : State) : Faults :=
  { s.faults with
    notices := s.faults.notices.erase r
    count := s.faults.count + 1
    last := some { r with hubTime := s.time }
    captured := true
    first := if s.faults.captured then s.faults.first else some { r with hubTime := s.time }
    since := if s.faults.captured then s.faults.since + 1 else s.faults.since
    history := historyAfter s ⟨r.time, r.island, r.code, r.detail⟩ }

theorem noted_faults {v w : State} (h : Noted v w) (f : Faults → Faults) : Noted (modFaults f v) (modFaults f w) := by
  obtain ⟨a, _, _, _, _, _, rfl⟩ := h
  exact ⟨a, _, _, _, _, _, rfl⟩

/-- A notice is taken: the first of an armed collector is captured and sends vector 0 (R439). -/
theorem noted_collect (r : FaultRec) (s : State) : Noted { s with faults := faultsCollected r s } (collect r s) := by
  have counted : Noted { s with faults := { s.faults with history := historyAfter s ⟨r.time, r.island, r.code, r.detail⟩ } }
      (countEv idHub 7 4 1 { priv := 0 } (pushHistory ⟨r.time, r.island, r.code, r.detail⟩ s)) := by
    rw [pushHistory_eq]
    exact noted_countEv ..
  unfold collect
  generalize countEv _ _ _ _ _ _ = u at counted
  obtain ⟨hislands, isl, ev, lost, pv, sent, rfl⟩ := counted
  have taken (first : Bool) (hfirst : first = !s.faults.captured) : Noted { s with faults := faultsCollected r s } (modFaults (fun f => { f with
      notices := f.notices.erase r, count := f.count + 1, last := some { r with hubTime := s.time }
      captured := true, first := if first then some { r with hubTime := s.time } else f.first, since := if first then f.since else f.since + 1 })
      { s with
        islands := isl, host := { s.host with events := ev, eventsLost := lost, pendingV := pv, sentMsi := sent }
        faults := { s.faults with history := historyAfter s ⟨r.time, r.island, r.code, r.detail⟩ } }) := by
    refine ⟨hislands, isl, ev, lost, pv, sent, ?_⟩
    subst hfirst
    unfold faultsCollected modFaults
    cases s.faults.captured <;> rfl
  dsimp only
  split
  case isTrue hfirst => exact (taken true hfirst.symm).trans (noted_fireVector 0 _)
  case isFalse hfirst => exact taken false (Bool.eq_false_iff.2 hfirst).symm

/-! ### Islands that return -/

section

variable {i : Nat} {s : State}

theorem exec_islandReturn (halive : s.alive = true) (hsafe : (s.island i).service = .safe) (hhub : i ≠ idHub) :
    exec (.islandReturn i) s = .next (returnIsland i s) :=
  congrArg Host.Outcome.next (if_pos (by simp [halive, hsafe, hhub]))

/-- An island held back is held off, and its function Off. -/
theorem still_returnIsland_held (h : s.heldBack i = true) :
    Still (s.modIsland i fun x => { x with service := .heldOff }) (returnIsland i s) := by
  rw [returnIsland, if_pos h]
  exact still_notable _ _ _ _ (still_functionOff _ _ (Still.refl _))

theorem returnIsland_later (h : s.heldBack i = false) (hlater : s.returnsLater i = true) :
    returnIsland i s = s.modIsland i fun x => { x with service := .returning } :=
  (if_neg (ne_true_of_eq_false h)).trans (if_pos hlater)

/-- What an island's return leaves as its service begins. -/
def islandReset (i : Nat) (s : State) : State := if islandType i = some .core then returnCore i s else s

theorem still_islandReset (i : Nat) (s : State) : Still s (islandReset i s) := by
  unfold islandReset
  split
  · exact still_returnCore _ _ (Still.refl s)
  · exact Still.refl s

theorem returnIsland_at_once (h : s.heldBack i = false) (hlater : s.returnsLater i = false) :
    returnIsland i s = backInService i (islandReset i (s.modIsland i fun x => { x with service := .returning })) :=
  (if_neg (ne_true_of_eq_false h)).trans (if_neg (ne_true_of_eq_false hlater))

/-- What stands still beside a state has its services. -/
theorem service_of_still {t : State} (h : Still s t) (hw : twf {} s.islands = true) (j : Nat) : (t.island j).service = (s.island j).service := by
  have same := congrArg Island.service ((h.islands hw).2 j)
  simpa using same

/-- An island that returns serves, and no other changes. -/
theorem service_backInService (hw : twf {} s.islands = true) (h : (s.island i).service = .returning) :
    ((backInService i s).island i).service = .serving ∧ ((backInService i s).island i).wasStarting = false ∧
      ∀ j, j ≠ i → ((backInService i s).island j).service = (s.island j).service := by
  have back : ∀ j, (backInService i s).island j = (s.modIsland i fun x => { x with service := .serving, wasStarting := false }).island j := by
    intro j
    unfold backInService
    rw [if_pos h]
    obtain ⟨hist, e⟩ := notable_history i 0xA (s.recentFaults i) (s.modIsland i fun x => { x with service := .serving, wasStarting := false })
    rw [e]
    rfl
  refine ⟨?_, ?_, fun j hj => ?_⟩
  · rw [back, island_modIsland_eq hw, if_pos rfl]
  · rw [back, island_modIsland_eq hw, if_pos rfl]
  · rw [back, island_modIsland_eq hw, if_neg hj]

theorem service_returnIsland (hw : twf {} s.islands = true) (h : s.heldBack i = false) (hlater : s.returnsLater i = false) :
    ((returnIsland i s).island i).service = .serving ∧ ((returnIsland i s).island i).wasStarting = false ∧
      ∀ j, j ≠ i → ((returnIsland i s).island j).service = (s.island j).service := by
  have still := still_islandReset i (s.modIsland i fun x => { x with service := .returning })
  have hw' : twf {} (s.modIsland i fun x => { x with service := .returning }).islands = true := twf_modIsland hw ..
  obtain ⟨serves, began, others⟩ := service_backInService (i := i) (still.islands hw').1
    ((service_of_still still hw' i).trans (by rw [island_modIsland_eq hw, if_pos rfl]))
  rw [returnIsland_at_once h hlater]
  exact ⟨serves, began, fun j hj => (others j hj).trans ((service_of_still still hw' j).trans (by rw [island_modIsland_eq hw, if_neg hj]))⟩

end

/-- Settles O58: what raises a fault raises that one, the collector's record, and the three ways an island's return ends. -/
theorem faultsAreRaisedAndCollected : Obligations.faultsAreRaisedAndCollected := by
  refine ⟨fun i ty s halive hty hw => ⟨fun pc => ?_, ?_, ⟨fun silent => ?_, fun heard => ?_⟩, fun status => ?_, fun hdue hi => ?_⟩,
    fun r s halive hr => ?_,
    fun i s halive hw hsafe hhub => ⟨fun held => ?_, fun held later => ?_, fun held later => ?_⟩⟩
  · split
    case isTrue hcontrols =>
      refine ⟨_, ?_, faulted_raiseFault i 0x802 pc 0 s halive (by simp [hty]) hw⟩
      simp only [exec, execWatchdogTimeout, hty, hcontrols, ↓reduceIte]
    case isFalse hcontrols =>
      simp only [exec, execWatchdogTimeout, hty, hcontrols, Bool.false_eq_true, ↓reduceIte]
  · exact ⟨_, rfl, faulted_raiseFault i 0x804 0 0 s halive (by simp [hty]) hw⟩
  · exact ⟨_, congrArg Host.Outcome.next (if_neg (by simpa [not_or] using silent)), faulted_raiseFault i 0x810 0x80000000 0 s halive (by simp [hty]) hw⟩
  · exact congrArg Host.Outcome.next (if_pos (by rwa [not_and_or, not_not, Nat.not_le] at heard))
  · exact ⟨_, rfl, faulted_raiseFault idHost 0x840 status 0 s halive (by decide) hw⟩
  · subst hi
    refine ⟨_, congrArg Host.Outcome.next (if_pos (by simp [halive, hdue])), ?_⟩
    exact faulted_raiseFault _ _ _ _ { s with faults := { s.faults with fiArmed := false } } halive (by simp [hty]) hw
  · refine ⟨collect r s, _, ?_, noted_collect r s, rfl⟩
    refine congrArg Host.Outcome.next ((if_neg (by simp [halive])).trans ?_)
    rw [hr]
  · exact ⟨_, exec_islandReturn halive hsafe hhub, still_returnIsland_held held⟩
  · exact (exec_islandReturn halive hsafe hhub).trans (congrArg Host.Outcome.next (returnIsland_later held later))
  · exact ⟨_, exec_islandReturn halive hsafe hhub, service_returnIsland hw held later⟩

end Sys2Proof
end

section
/-! PROOFS. The state-memory scrub, counters that wrap, and sampling tags (R247, R248, R436, R456, R457, R459). -/

namespace Sys2Proof

open Machine Safety

/-! ### The state-memory scrub -/

/-- The detail of a state-memory fault: the class above the byte's address. -/
theorem ofNat_byteKey (cls addr : Nat) : BitVec.ofNat 32 (byteKey cls addr) = field 28 cls ||| field 0 (addr % 2 ^ 28) := by
  have hlow : addr % 2 ^ 28 < 2 ^ 28 := Nat.mod_lt _ (by decide)
  have hor := Nat.two_pow_add_eq_or_of_lt hlow (cls % 16)
  have hkey : (BitVec.ofNat 32 (byteKey cls addr)).toNat = 2 ^ 28 * (cls % 16) + addr % 2 ^ 28 := by
    rw [BitVec.toNat_ofNat, byteKey]
    omega
  have hclass : (field 28 cls : Word32).toNat = 2 ^ 28 * (cls % 16) := by
    rw [field, BitVec.toNat_ofNat]
    omega
  have haddr : (field 0 (addr % 2 ^ 28) : Word32).toNat = addr % 2 ^ 28 := by
    rw [field, BitVec.toNat_ofNat]
    omega
  apply BitVec.eq_of_toNat_eq
  rw [BitVec.toNat_or, hkey, hclass, haddr, hor]

section

variable {i cls addr : Nat} {s : State}

/-- A byte's flipped bits are of the cores or of the entries of all cores, and of nothing else. -/
theorem setByteErr_eq (i cls addr e : Nat) (s : State) : ∃ cores coreE, setByteErr i cls addr e s = { s with cores := cores, coreE := coreE } := by
  unfold setByteErr
  split
  · exact ⟨_, _, rfl⟩
  · exact ⟨_, _, rfl⟩

theorem still_cores (s : State) (cores : Table Core) (coreE : CoreEntries) : Still s { s with cores := cores, coreE := coreE } :=
  (Still.raw_iff (s := s)).2 (Still.refl s)

/-- The island that a byte of a state memory belongs to: the section store is the hub's (R436). -/
def byteIsland (i cls : Nat) : Nat := if cls = 10 then idHub else i

theorem decodeByte_clean (h : popCount 13 (s.byteErr i cls addr) = 0) : decodeByte i cls addr s = s := if_pos h

/-- A byte with one flipped bit, corrected and counted. -/
def byteCorrected (i cls addr : Nat) (s : State) : State :=
  { setByteErr i cls addr 0 s with coreE := { (setByteErr i cls addr 0 s).coreE with stateCorrected := s.coreE.stateCorrected + 1 } }

theorem decodeByte_corrected (h : popCount 13 (s.byteErr i cls addr) = 1) :
    decodeByte i cls addr s = notable (byteIsland i cls) 4 (byteKey cls addr) (countCorrected (byteIsland i cls) 1 (byteCorrected i cls addr s)) :=
  (if_neg (by omega)).trans (if_pos h)

theorem still_byteCorrected (i cls addr : Nat) (s : State) : Still s (byteCorrected i cls addr s) := by
  unfold byteCorrected
  obtain ⟨cores, coreE, e⟩ := setByteErr_eq i cls addr 0 s
  rw [e]
  exact still_cores s cores _

/-- What notes the correction leaves the cores and their entries. -/
theorem cores_decodeByte_corrected (h : popCount 13 (s.byteErr i cls addr) = 1) :
    (decodeByte i cls addr s).coreE = (byteCorrected i cls addr s).coreE ∧ (decodeByte i cls addr s).cores = (byteCorrected i cls addr s).cores := by
  rw [decodeByte_corrected h]
  obtain ⟨-, _, _, _, _, _, counted⟩ := noted_countCorrected (byteIsland i cls) 1 (byteCorrected i cls addr s)
  obtain ⟨hist, e⟩ := notable_history (byteIsland i cls) 4 (byteKey cls addr) (countCorrected (byteIsland i cls) 1 (byteCorrected i cls addr s))
  rw [e, counted]
  exact ⟨rfl, rfl⟩

theorem decodeByte_uncorrectable (h : 2 ≤ popCount 13 (s.byteErr i cls addr)) : decodeByte i cls addr s =
    raiseFault (byteIsland i cls) 0x830 (field 28 cls ||| field 0 (addr % 2 ^ 28)) 0 (setByteErr i cls addr 0 s) := by
  rw [← ofNat_byteKey]
  exact (if_neg (by omega)).trans (if_neg (by omega))

theorem exec_stateMemoryScrub (halive : s.alive = true) (hperiod : s.coreE.scrubPeriod ≠ 0) :
    exec (.stateMemoryScrub i cls addr) s = .next (decodeByte i cls addr s) :=
  congrArg Host.Outcome.next (if_pos (by rw [halive, decide_eq_true hperiod]; rfl))

end

/-! ### Counters that wrap -/

section

variable {i c : Nat} {s : State}

/-- The state with the lap flag of a counter set (R456). -/
def lapped (i c : Nat) (s : State) : State := s.modIsland i fun x => { x with ctrs := tmod {} x.ctrs c fun k => { k with lap := true } }

theorem exec_counterWrap (halive : s.alive = true) (hserved : s.ident.served = true) (hc : c ≤ 2) (hcycles : 2 ^ 56 ≤ cyclesAt i s.time.toNat) :
    exec (.counterWrap i c) s = .next (if tget false s.sampling.notify (16 * i + c)
      then raiseEvent 3 (BitVec.ofNat 16 (0x5100 + i)) (BitVec.ofNat 8 (c + 1)) 0 (lapped i c s) else lapped i c s) :=
  congrArg Host.Outcome.next (if_pos (by rw [halive, hserved, decide_eq_true hc, decide_eq_true hcycles]; rfl))

/-- An event of a kind that is enabled joins a queue with room (R398, R399). -/
theorem events_raiseEvent {kind : Nat} (hmask : bit s.host.eventMask kind = true) (hroom : s.host.events.length < 256) (index : Word16) (sub : Byte)
    (value : Nat) : (raiseEvent kind index sub value s).host.events = s.host.events ++ [⟨s.time, index, sub, kind, BitVec.ofNat 32 value⟩] := by
  unfold raiseEvent
  rw [if_pos hmask, if_neg (Nat.not_le.2 hroom)]
  dsimp only
  split
  · exact events_fireVector ..
  · rfl

end

/-- Settles O59: the three cases of a byte, of a wrap and of a tag. -/
theorem scrubsWrapsAndTags : Obligations.scrubsWrapsAndTags := by
  refine ⟨fun i cls addr s halive hw hperiod => ⟨fun h => ?_, fun h => ?_, fun h hisland => ?_⟩,
    fun i c s halive hserved hc hcycles => ⟨_, exec_counterWrap halive hserved hc hcycles, fun hquiet => ?_, fun hnotify hmask hroom => ?_⟩,
    fun h s halive => ⟨fun k hdue => ?_, fun hdue => ?_, fun k hk hdue => ?_⟩⟩
  · exact (exec_stateMemoryScrub halive hperiod).trans (congrArg Host.Outcome.next (decodeByte_clean h))
  · obtain ⟨hcoreE, hcores⟩ := cores_decodeByte_corrected h
    refine ⟨_, exec_stateMemoryScrub halive hperiod, ?_, hcoreE, hcores⟩
    rw [decodeByte_corrected h]
    exact still_notable _ _ _ _ (still_countCorrected _ _ _ (still_byteCorrected i cls addr s))
  · refine ⟨_, exec_stateMemoryScrub halive hperiod, ?_⟩
    rw [decodeByte_uncorrectable h]
    obtain ⟨cores, coreE, e⟩ := setByteErr_eq i cls addr 0 s
    rw [e]
    exact faulted_raiseFault _ _ _ _ { s with cores := cores, coreE := coreE } halive (Option.isSome_iff_ne_none.1 hisland) hw
  · exact if_neg (ne_true_of_eq_false hquiet)
  · rw [if_pos hnotify]
    exact ⟨events_raiseEvent (s := lapped i c s) hmask hroom _ _ _, noted_raiseEvent ..⟩
  · refine congrArg Host.Outcome.next ((if_neg (by simp [halive])).trans ((if_pos rfl).trans ?_))
    unfold settleHub
    rw [hdue]
  · refine congrArg Host.Outcome.next ((if_neg (by simp [halive])).trans ((if_pos rfl).trans ?_))
    unfold settleHub
    rw [hdue]
  · exact congrArg Host.Outcome.next ((if_neg (by simp [halive])).trans ((if_neg (by unfold idHub; omega)).trans ((if_pos hk).trans (if_pos hdue))))

end Sys2Proof
end

section
/-! PROOFS. Sensors, beacons and the power limiter (R20, R22, R24, R478, R480). -/

namespace Sys2Proof

open Machine Safety

/-! ### Sensors -/

section

variable {i : Nat} {v : Int} {s : State}

theorem exec_tempSample (halive : s.alive = true) (readings : List (Nat × Int)) :
    exec (.tempSample readings) s = .next (readings.foldl (fun s r => readSensor r.1 r.2 s) s) :=
  congrArg Host.Outcome.next (if_pos halive)

/-- The state with an island's temperature read. -/
def tempRead (i : Nat) (v : Int) (s : State) : State := s.modIsland i fun x => { x with temp := v, hottest := max x.hottest v }

theorem readSensor_island (hisland : (islandType i).isSome = true) :
    readSensor i v s = if 840 ≤ v then raiseFault i 0x803 (BitVec.ofInt 32 v) 0 (tempRead i v s) else tempRead i v s := by
  have hinlet : i ≠ coolantInlet := by rintro rfl; exact absurd hisland (by decide)
  have houtlet : i ≠ coolantOutlet := by rintro rfl; exact absurd hisland (by decide)
  exact (if_neg hinlet).trans ((if_neg houtlet).trans (if_neg (by simp [Option.isSome_iff_ne_none.1 hisland])))

theorem readSensor_inlet : readSensor 0x140 v s = { s with module := { s.module with coolantIn := v } } := if_pos rfl

theorem readSensor_outlet : readSensor 0x141 v s = { s with module := { s.module with coolantOut := v } } := (if_neg (by decide)).trans (if_pos rfl)

end

/-! ### Beacons -/

/-- A fault leaves device time and the module. -/
theorem clock_of_faulted {i : Nat} {code : Word16} {detail : Word32} {addr : Word64} {s t : State} (h : Faulted i code detail addr s t) :
    t.time = s.time ∧ t.module = s.module := by
  obtain ⟨stops, keeps⟩ := h
  by_cases hstops : (s.island i).service = .serving ∨ ((s.island i).service = .returning ∧ s.fnStarting i = true)
  · exact ⟨(stops hstops).time, (stops hstops).module⟩
  · exact ⟨(keeps hstops).time, (keeps hstops).module⟩

section

variable {a : BeaconArrival} {s : State}

theorem exec_beacon (halive : s.alive = true) (htime : s.time.toNat % 1000 = 0) (l : List BeaconArrival) :
    exec (.beacon l) s = .next (l.foldl (fun s a => compareBeacon a s) s) :=
  congrArg Host.Outcome.next (if_pos (by rw [halive, decide_eq_true htime]; rfl))

theorem exec_beacon_between (htime : s.time.toNat % 1000 ≠ 0) (l : List BeaconArrival) : exec (.beacon l) s = .next s :=
  congrArg Host.Outcome.next (if_neg (by rw [decide_eq_false htime, Bool.and_false]; decide))

/-- The difference of an island's copy and a beacon's time plus the copy's measured delay, in 1/65,536 ns. -/
def beaconError (a : BeaconArrival) (s : State) : Int := (s.island a.island).offset + a.transit - (s.island a.island).delay

/-- The state with the correction of a beacon's difference begun. -/
def beaconHeard (a : BeaconArrival) (s : State) : State :=
  s.modIsland a.island fun x => { x with fix := -beaconError a s, fixLeft := 1000, drift := a.drift, heard := s.time }

/-- An island without a copy, and the hub, compare nothing. -/
theorem compareBeacon_of_no_copy (h : (islandType a.island).isNone = true ∨ a.island = idHub) : compareBeacon a s = s := if_pos h

theorem compareBeacon_of_copy (hisland : (islandType a.island).isSome = true) (hhub : a.island ≠ idHub) : compareBeacon a s =
    if 2 * 65536 < (beaconError a s).natAbs then raiseFault a.island 0x810 (BitVec.ofInt 32 (Int.tdiv (beaconError a s) 8192)) 0 (beaconHeard a s)
    else if s.hub.skewWorst.toNat < (beaconError a s).natAbs / 8192
      then (beaconHeard a s).modHub fun h => { h with
        skewWorst := BitVec.ofNat 16 ((beaconError a s).natAbs / 8192), skewIsland := BitVec.ofNat 16 a.island }
      else beaconHeard a s :=
  if_neg (by simp [Option.isSome_iff_ne_none.1 hisland, hhub])

/-- Beyond 2 ns the difference is a fault (R22). -/
theorem faulted_compareBeacon (halive : s.alive = true) (hw : twf {} s.islands = true) (hisland : (islandType a.island).isSome = true) :
    Faulted a.island 0x810 (BitVec.ofInt 32 (Int.tdiv (beaconError a s) 8192)) 0 (beaconHeard a s)
      (raiseFault a.island 0x810 (BitVec.ofInt 32 (Int.tdiv (beaconError a s) 8192)) 0 (beaconHeard a s)) :=
  faulted_raiseFault _ _ _ _ (beaconHeard a s) halive (Option.isSome_iff_ne_none.1 hisland) (twf_modIsland hw ..)

/-- No comparison moves device time or the module. -/
theorem clock_compareBeacon (halive : s.alive = true) (hw : twf {} s.islands = true) :
    (compareBeacon a s).time = s.time ∧ (compareBeacon a s).module = s.module := by
  by_cases h : (islandType a.island).isNone = true ∨ a.island = idHub
  · rw [compareBeacon_of_no_copy h]
    exact ⟨rfl, rfl⟩
  · simp only [not_or, Option.isNone_iff_eq_none] at h
    obtain ⟨hisland, hhub⟩ := h
    rw [compareBeacon_of_copy (Option.isSome_iff_ne_none.2 hisland) hhub]
    split
    · obtain ⟨ht, hm⟩ := clock_of_faulted (faulted_compareBeacon halive hw (Option.isSome_iff_ne_none.2 hisland))
      exact ⟨ht, hm⟩
    · split
      · exact ⟨rfl, rfl⟩
      · exact ⟨rfl, rfl⟩

/-- The arrivals of a beacon are compared one after the other. -/
theorem exec_beacon_cons (halive : s.alive = true) (hw : twf {} s.islands = true) (htime : s.time.toNat % 1000 = 0) (rest : List BeaconArrival) :
    exec (.beacon (a :: rest)) s = exec (.beacon rest) (compareBeacon a s) := by
  obtain ⟨ht, hm⟩ := clock_compareBeacon (a := a) halive hw
  rw [exec_beacon halive htime, exec_beacon (by unfold State.alive; rw [hm]; exact halive) (by rw [ht]; exact htime)]
  rfl

end

/-! ### The power limiter -/

/-- What a power report brings, before the fraction moves (R478). -/
def powerRead (p1 p100 mv : Nat) (m : Machine.Module) : Machine.Module :=
  { m with
    p1 := p1, p100 := p100, inputMv := mv, peak := max m.peak p1, over1200 := if 1200 < p1 then m.over1200 + 1 else 0
    freezeCc := m.freezeCc + BitVec.ofNat 64 (256 * (20000 / 64) * m.fraction + 256 * (20000 % 64 * m.fraction / 64)) }

theorem exec_powerReport {s : State} (hup : s.hubUp = true) (p1 p100 mv : Nat) :
    exec (.powerReport p1 p100 mv) s = .next { s with module := limiterStep (powerRead p1 p100 mv s.module) } :=
  congrArg Host.Outcome.next (if_neg (by simp [hup]))

/-- Settles O60: a sensor, a beacon and a report, each by its cases. -/
theorem sensorsAndPower : Obligations.sensorsAndPower := by
  refine ⟨fun i s halive hw => ⟨fun v rest => ⟨readSensor i v s, exec_tempSample halive [(i, v)], fun hu => ?_, fun hisland => ?_, fun hi => ?_, fun hi => ?_⟩,
      congrArg Host.Outcome.next (ite_self _), fun a rest ha htime => ⟨compareBeacon a s, exec_beacon halive htime [a], exec_beacon_cons halive hw htime rest, fun h => ?_,
        fun hisland hhub => ?_⟩, fun l htime => exec_beacon_between htime l⟩,
    fun p1 p100 mv s hup => ⟨_, exec_powerReport hup p1 p100 mv, rfl, ?_⟩⟩
  · rw [exec_tempSample halive, exec_tempSample hu]
    rfl
  · dsimp only
    rw [readSensor_island hisland]
    split
    · exact faulted_raiseFault _ _ _ _ (tempRead i v s) halive (Option.isSome_iff_ne_none.1 hisland) (twf_modIsland hw ..)
    · rfl
  · subst hi
    exact readSensor_inlet
  · subst hi
    exact readSensor_outlet
  · subst ha
    exact compareBeacon_of_no_copy h
  · subst ha
    dsimp only
    rw [compareBeacon_of_copy hisland hhub]
    split
    case isTrue hfar =>
      rw [if_pos (show 2 * 65536 < (beaconError a s).natAbs from hfar)]
      exact faulted_compareBeacon halive hw hisland
    case isFalse hnear => exact if_neg hnear
  · obtain ⟨hp1, hp100, hmv, hpeak, hover, hcases⟩ := limiterStep_spec (powerRead p1 p100 mv s.module)
    refine ⟨hp1, hp100, hmv, hpeak, ?_, hover⟩
    rw [hover]
    exact hcases

end Sys2Proof
end
